-- ==== Sys2Proof/Word.lean ====
section
/-! DEFINITION. The word types of the Kwevos K4 (spec/00 R1, spec/02 R33). -/

namespace Sys2Proof

/-- One byte of memory. -/
abbrev Byte := BitVec 8

/-- One halfword of code (spec/02 R26) or one packed 16-bit lane. -/
abbrev Half := BitVec 16

/-- One vector or scalar register (spec/02 R33). -/
abbrev Word := BitVec 32

/-- An address, a register pair, a timeline value or a mailbox (spec/02 R33, R34). -/
abbrev Dword := BitVec 64

end Sys2Proof
end

