-- ==== Sys2Proof/Config.lean ====
section
/-! DEFINITION. What a particular K4 fixes and the spec does not: free values, as opaque constants. Nothing can be proved of
their values; a statement that holds, holds whatever they are (log entry 3). -/

namespace Sys2Proof

/-- A free choice, by the free-value counter and an index that tells the choices of one step apart (spec/02 R31, spec/19
R408, R412). -/
opaque Config.freeNat : Nat → Nat → Nat

/-- A free yes or no. -/
def Config.freeBit (c i : Nat) : Bool := Config.freeNat c i % 2 == 1

/-- How many DTB ticks pass in a step, by the free-value counter (spec/14 R305: time never decreases). -/
opaque Config.ticks : Nat → Nat

/-- How many arithmetic clocks pass in a step, by the free-value counter (spec/06 R143). -/
opaque Config.clocks : Nat → Nat

/-- How far a die's copy of the DTB lags behind the leading copy, modulo 33: at most 32 ticks (spec/14 R308). Die 4 is the
hub die. -/
opaque Config.dieSkew : Nat → Nat

/-- Which stage decides a staged element whose error bound is not published: 0 the fast unit, 1 Brock or the home's wide
adder, 2 the Sett sequencer; by the operation, its operands and its destination format (spec/05 R104). -/
opaque Config.stageOf : Nat → List Nat → Nat → Nat

/-- The diagnostic fields APPROX and BEXP of a parking entry whose method is not published (spec/05 R104, R107). -/
opaque Config.approx : Nat → List Nat → Nat → BitVec 80

/-- A function value that the model's bounded search does not decide (log entry 9). -/
opaque Config.undecided : Nat → List Nat → Nat → Nat

/-- The bytes that a team's weight slices hold before it writes them (spec/09 R191), by the team's name and the offset. -/
opaque Config.weightByte : Nat → Nat → Byte

/-- A link port by which a destination device is reached, modulo 24 (spec/15 R332). -/
opaque Config.mainPort : Nat → Nat

/-- Whether a link port reaches a destination device as well (spec/15 R332). -/
opaque Config.portReaches : Nat → Nat → Bool

/-- Whether a firmware image passes its vendor signature check (spec/19 R417). -/
opaque Config.vendorSigned : List Byte → Bool

/-- The device's SPDM certificate chain (spec/19 R418). -/
opaque Config.certChain : List Byte

/-- The device's SPDM signature of a transcript (spec/19 R418). -/
opaque Config.sign : List Byte → List Byte

end Sys2Proof
end

