-- ==== Sys2Proof/Machine/Bits.lean ====
section
/-! DEFINITION. Bit fields, byte strings and sign extension (spec/00 R1, R8). -/

namespace Sys2Proof.Machine

/-- Bits `[hi:lo]` of a natural number (spec/00 R1). -/
def bitsOf (n hi lo : Nat) : Nat := (n >>> lo) % 2 ^ (hi + 1 - lo)

/-- Bit `i` of a natural number. -/
def bitOf (n i : Nat) : Bool := (n >>> i) % 2 == 1

/-- The two's-complement reading of the `w` low bits of a natural number (spec/00 R8, sext). -/
def signedOf (w n : Nat) : Int :=
  let r := n % 2 ^ w
  if 2 ^ (w - 1) ≤ r then (r : Int) - (2 ^ w : Nat) else r

/-- An integer narrowed by wrapping modulo `2^w` (spec/04 R90). -/
def wrap (w : Nat) (x : Int) : Nat := (x % ((2 ^ w : Nat) : Int)).toNat

/-- The larger of two integers. -/
def imaxInt (a b : Int) : Int := if a < b then b else a

/-- The smaller of two integers. -/
def iminInt (a b : Int) : Int := if b < a then b else a

/-- `x` held between `lo` and `hi` (spec/06 R124). -/
def clampInt (lo hi x : Int) : Int := iminInt (imaxInt x lo) hi

/-- The `n` bytes of a value, least significant first (spec/00 R1). -/
def toBytes : Nat → Nat → List Byte
  | 0, _ => []
  | n + 1, v => BitVec.ofNat 8 v :: toBytes n (v / 256)

/-- The value of a byte string, least significant byte first (spec/00 R1). -/
def ofBytes : List Byte → Nat
  | [] => 0
  | b :: bs => b.toNat + 256 * ofBytes bs

/-- The 64-bit value of a register pair: the even register holds bits `[31:0]` (spec/00 R1). -/
def pairOf (lo hi : Word) : Dword := hi ++ lo

/-- Bits `[31:0]` of a 64-bit value. -/
def loWord (d : Dword) : Word := d.extractLsb' 0 32

/-- Bits `[63:32]` of a 64-bit value. -/
def hiWord (d : Dword) : Word := d.extractLsb' 32 32

/-- A natural number as a register word. -/
def toWord (n : Nat) : Word := BitVec.ofNat 32 n

/-- A natural number as a 64-bit value. -/
def toDword (n : Nat) : Dword := BitVec.ofNat 64 n

/-- `n div d`, rounded up. -/
def ceilDiv (n d : Nat) : Nat := (n + d - 1) / d

/-- One bit as a number. -/
def bitNat (b : Bool) : Nat := if b then 1 else 0

/-- The numbers `lo` to `lo + n - 1`, in rising order. -/
def rangeFrom : Nat → Nat → List Nat
  | _, 0 => []
  | lo, n + 1 => lo :: rangeFrom (lo + 1) n

/-- The numbers below `n` whose bit is set in a mask, in rising order. -/
def maskList (n mask : Nat) : List Nat := (rangeFrom 0 n).filter (bitOf mask)

/-- The mask of a list of bit numbers. -/
def maskOf (l : List Nat) : Nat := l.foldl (fun m i => m ||| (1 <<< i)) 0

/-- A mask without the bits of another. -/
def maskMinus (a b : Nat) : Nat := a ^^^ (a &&& b)

/-- The first element of a list that passes a test, with the list where it was replaced or removed. -/
def updateFirst {α : Type} (p : α → Bool) (f : α → List α) : List α → List α
  | item :: rest => bif p item then f item ++ rest else item :: updateFirst p f rest
  | [] => []

/-- A list with the element at place `i`, if any, changed. -/
def modifyAt {α : Type} (f : α → α) : Nat → List α → List α
  | i, item :: rest => if i = 0 then f item :: rest else item :: modifyAt f (i - 1) rest
  | _, [] => []

/-- A list cut into pieces of `n` elements; `fuel` bounds the number of pieces. -/
def chunksOf {α : Type} (n : Nat) : Nat → List α → List (List α)
  | 0, _ => []
  | fuel + 1, l => if l.isEmpty then [] else l.take n :: chunksOf n fuel (l.drop n)

/-- The sum of a list of integers. -/
def sumInt (l : List Int) : Int := l.foldl (· + ·) 0

/-- The sum of a list of natural numbers. -/
def sumNat (l : List Nat) : Nat := l.foldl (· + ·) 0

/-- A byte string with its bytes from `off` on replaced. -/
def overlay (base : List Byte) (off : Nat) (new : List Byte) : List Byte :=
  base.take off ++ new ++ base.drop (off + new.length)

/-- The `len` bytes at `off` of a string, as a number. -/
def fieldAt (l : List Byte) (off len : Nat) : Nat := ofBytes ((l.drop off).take len)

/-- The greatest `r` with `r * r ≤ n`, built bit by bit from bit `k - 1` down. -/
def isqrtBits (n : Nat) : Nat → Nat → Nat
  | 0, r => r
  | k + 1, r =>
    let t := r + 2 ^ k
    isqrtBits n k (if t * t ≤ n then t else r)

/-- The integer square root, rounded down. -/
def isqrt (n : Nat) : Nat := isqrtBits n (n.log2 / 2 + 1) 0

end Sys2Proof.Machine
end

