-- ==== Sys2Proof/Syntax.lean ====
section
/-! DEFINITION. The instructions and events of the K4: one constructor per row of spec/opcode_table.json.

Rows with an encoding carry the fields that spec/02 R42 and their entries give them; `m` is the switch marker
(spec/02 R29). Rows without an encoding are the part's other indivisible steps (spec/95); their doc starts with
EVENT, and their fields name what the event is about. The bundle's prefix words are not part of an instruction:
`Cur` in Machine/State.lean holds them while the bundle executes. -/

namespace Sys2Proof

/-- The type of a floating-point operand (spec/02 R49). -/
inductive FpType where
  | f32 | f64 | f16 | bf16
  deriving DecidableEq, Repr

/-- The five rounding modes, codes 0 to 4 (spec/04 R96). -/
inductive RMode where
  | rne | rtz | rup | rdn | rna
  deriving DecidableEq, Repr

/-- The operations an atomic performs at its home (spec/12 R267, R268). -/
inductive AtomicOp where
  | add | and | or | xor | xchg | smin | smax | umin | umax | cas | fadd | fadda (saturate : Bool) | lr | sc | fmax | fmin
  deriving DecidableEq, Repr

/-- Who holds a lease (spec/11 R229). -/
inductive Holder where
  | l1 (core : Nat) | rdc (die : Nat)
  deriving DecidableEq, Repr

/-- The better of the two sampling sets of a local store, or neither (spec/11 R255). -/
inductive CarveMove where
  | moreL1 | lessL1 | stay
  deriving DecidableEq, Repr

/-- Port states, codes 0 to 4 (spec/15 R332). -/
inductive PortState where
  | down | training | up | degraded | fenced
  deriving DecidableEq, Repr

/-- The two kinds of trap that an encoding takes (spec/02 R52). -/
inductive EncodingFate where
  | illegal | reserved
  deriving DecidableEq, Repr

/-- The fault kinds, codes 0x01 to 0x0B (spec/20 R420). -/
inductive FaultKind where
  | page | pageAttribute | writeProtection | protectionKey | access | alignment | unsupportedAtomic | freeThread
  | codeIntegrity | denArea | peerUnreachable
  deriving DecidableEq, Repr

/-- The sources of trace records (spec/14 R310). -/
inductive TraceSource where
  | core (i : Nat) | matrix (cluster : Nat) | row (cluster : Nat) | brock (cluster : Nat) | copy (core : Nat)
  | hub (i : Nat)
  deriving DecidableEq, Repr

/-- Where an uncorrectable soft error strikes: the structure classes of spec/20 R443. -/
inductive SoftLoc where
  | vreg (core slot lane reg : Nat)
  | sreg (core slot reg : Nat)
  | l1Line (core line : Nat)
  | teamWord (core : Nat) (team : Nat) (word : Nat)
  | privLine (core ctx grid va : Nat)
  | icache (core line : Nat)
  | tlb (entry : Nat)
  | lastPage (core slot lane : Nat)
  | walker (entry : Nat)
  | l2Line (line : Nat)
  | rdcLine (die line : Nat)
  | hbmLine (line : Nat)
  | accElem (cluster tile elem : Nat)
  | weightBlock (cluster block : Nat)
  | staged (cluster : Nat) (seq : Word)
  | denOrReservation (ctx grid : Nat)
  | hub (ctx : Nat)
  | unowned
  deriving DecidableEq, Repr

/-- The instructions and events of the Kwevos K4. The events that only the outside world causes stand last. -/
inductive Instr where
  /-- Short form, OP 0 (spec/02 R40). -/
  | mov (a d : BitVec 5) (m : Bool)
  /-- Short form, OP 1 (spec/02 R40). -/
  | iaddShort (a d : BitVec 5) (m : Bool)
  /-- Short form, OP 2 (spec/02 R40). -/
  | isubShort (a d : BitVec 5) (m : Bool)
  /-- Short form, OP 3 (spec/02 R40). -/
  | andShort (a d : BitVec 5) (m : Bool)
  /-- Short form, OP 4 (spec/02 R40). -/
  | orShort (a d : BitVec 5) (m : Bool)
  /-- Short form, OP 5 (spec/02 R40). -/
  | xorShort (a d : BitVec 5) (m : Bool)
  /-- Short form, OP 6 (spec/02 R40). -/
  | shlShort (a d : BitVec 5) (m : Bool)
  /-- Short form, OP 7 (spec/02 R40). -/
  | shrlShort (a d : BitVec 5) (m : Bool)
  /-- Short form, OP 8 (spec/02 R40). -/
  | faddShort (a d : BitVec 5) (m : Bool)
  /-- Short form, OP 9 (spec/02 R40). -/
  | fsubShort (a d : BitVec 5) (m : Bool)
  /-- Short form, OP 10 (spec/02 R40). -/
  | fmulShort (a d : BitVec 5) (m : Bool)
  /-- Short form, OP 11 (spec/02 R40). -/
  | fmaxShort (a d : BitVec 5) (m : Bool)
  /-- Short form, OP 12 (spec/02 R40). -/
  | fminShort (a d : BitVec 5) (m : Bool)
  /-- Short form, OP 13 (spec/02 R40). -/
  | imulShort (a d : BitVec 5) (m : Bool)
  /-- Short form, OP 14: a signed 5-bit immediate (spec/02 R40). -/
  | movi5 (i d : BitVec 5) (m : Bool)
  /-- Short form, OP 15 (spec/02 R40). -/
  | nop (m : Bool)
  /-- `FADD.t vD, vA, vB` (spec/07 R149). -/
  | fadd (t : FpType) (b a d : BitVec 7) (m : Bool)
  /-- `FSUB.t vD, vA, vB` (spec/07 R149). -/
  | fsub (t : FpType) (b a d : BitVec 7) (m : Bool)
  /-- `FMUL.t vD, vA, vB` (spec/07 R149). -/
  | fmul (t : FpType) (b a d : BitVec 7) (m : Bool)
  /-- `FNMUL.t vD, vA, vB` (spec/07 R149). -/
  | fnmul (t : FpType) (b a d : BitVec 7) (m : Bool)
  /-- `FMA.t vD, vA, vB` (spec/07 R149). -/
  | fma (t : FpType) (b a d : BitVec 7) (m : Bool)
  /-- `FMS.t vD, vA, vB` (spec/07 R149). -/
  | fms (t : FpType) (b a d : BitVec 7) (m : Bool)
  /-- `FDIV.t vD, vA, vB` (spec/07 R149). -/
  | fdiv (t : FpType) (b a d : BitVec 7) (m : Bool)
  /-- `FREM.t vD, vA, vB` (spec/07 R149). -/
  | frem (t : FpType) (b a d : BitVec 7) (m : Bool)
  /-- `FMIN.t vD, vA, vB` (spec/07 R149). -/
  | fmin (t : FpType) (b a d : BitVec 7) (m : Bool)
  /-- `FMAX.t vD, vA, vB` (spec/07 R149). -/
  | fmax (t : FpType) (b a d : BitVec 7) (m : Bool)
  /-- `FSQRT.t vD, vA` (spec/07 R149). -/
  | fsqrt (t : FpType) (a d : BitVec 7) (m : Bool)
  /-- `FRSQ.t vD, vA` (spec/07 R149). -/
  | frsq (t : FpType) (a d : BitVec 7) (m : Bool)
  /-- `FCMP.t.cc pN, vA, vB` (spec/07 R155). -/
  | fcmp (t : FpType) (b a : BitVec 7) (c : BitVec 4) (p : BitVec 3) (m : Bool)
  /-- `FCMP.sig` (spec/07 R155). -/
  | fcmpSig (t : FpType) (b a : BitVec 7) (c : BitVec 4) (p : BitVec 3) (m : Bool)
  /-- `FCVT.name.rm vD, vA` (spec/07 R160, R161). -/
  | fcvt (r : BitVec 3) (c a d : BitVec 7) (m : Bool)
  /-- `FFN.fn.t vD, vA` (spec/08 R166, R167). -/
  | ffn (t : FpType) (c a d : BitVec 7) (m : Bool)
  /-- `FSCALE.t vD, vA, vB` (spec/07 R156). -/
  | fscale (t : FpType) (b a d : BitVec 7) (m : Bool)
  /-- `FLOGB.t vD, vA` (spec/07 R157). -/
  | flogb (t : FpType) (a d : BitVec 7) (m : Bool)
  /-- `FSGN.t vD, vA, vB` (spec/07 R158). -/
  | fsgn (t : FpType) (b a d : BitVec 7) (m : Bool)
  /-- `FCLASS.t vD, vA` (spec/07 R159). -/
  | fclass (t : FpType) (a d : BitVec 7) (m : Bool)
  /-- `ROWOP.red` with the sub-operation SUM (spec/08 R170, R180). -/
  | rowopRedSum (t : BitVec 6) (q p : BitVec 8) (m : Bool)
  /-- `ROWOP.red` with the sub-operation MAX (spec/08 R170, R180). -/
  | rowopRedMax (t : BitVec 6) (q p : BitVec 8) (m : Bool)
  /-- `ROWOP.red` with the sub-operation MIN (spec/08 R170, R180). -/
  | rowopRedMin (t : BitVec 6) (q p : BitVec 8) (m : Bool)
  /-- `ROWOP.red` with the sub-operation LSE (spec/08 R170, R180). -/
  | rowopRedLse (t : BitVec 6) (q p : BitVec 8) (m : Bool)
  /-- `ROWOP.red` with the sub-operation NORM (spec/08 R170, R180). -/
  | rowopRedNorm (t : BitVec 6) (q p : BitVec 8) (m : Bool)
  /-- `ROWOP.red` with the sub-operation SSQ (spec/08 R170, R180). -/
  | rowopRedSsq (t : BitVec 6) (q p : BitVec 8) (m : Bool)
  /-- `ROWOP.smx` (spec/08 R181). -/
  | rowopSmx (t : BitVec 6) (q p : BitVec 8) (m : Bool)
  /-- `ROWOP.stat` (spec/08 R182). -/
  | rowopStat (t : BitVec 6) (q p : BitVec 8) (m : Bool)
  /-- `ROWOP.upd` (spec/08 R184). -/
  | rowopUpd (t : BitVec 6) (q p : BitVec 8) (m : Bool)
  /-- `IADD.k vD, vA, vB` (spec/06 R124). -/
  | iadd (k : BitVec 2) (b a d : BitVec 7) (m : Bool)
  /-- `ISUB.k vD, vA, vB` (spec/06 R124). -/
  | isub (k : BitVec 2) (b a d : BitVec 7) (m : Bool)
  /-- `IMUL.k vD, vA, vB` (spec/06 R124). -/
  | imul (k : BitVec 2) (b a d : BitVec 7) (m : Bool)
  /-- `IMAD.k vD, vA, vB` (spec/06 R124). -/
  | imad (k : BitVec 2) (b a d : BitVec 7) (m : Bool)
  /-- `IDIV.k vD, vA, vB` (spec/06 R125). -/
  | idiv (k : BitVec 2) (b a d : BitVec 7) (m : Bool)
  /-- `IREM.k vD, vA, vB` (spec/06 R125). -/
  | irem (k : BitVec 2) (b a d : BitVec 7) (m : Bool)
  /-- `LOGIC.op vD, vA, vB` (spec/06 R127). -/
  | logic (o : BitVec 3) (b a d : BitVec 7) (m : Bool)
  /-- `SHIFT.op vD, vA, vB` (spec/06 R128). -/
  | shift (o : BitVec 3) (b a d : BitVec 7) (m : Bool)
  /-- `IMIN.k vD, vA, vB` (spec/06 R124). -/
  | imin (k : BitVec 2) (b a d : BitVec 7) (m : Bool)
  /-- `IMAX.k vD, vA, vB` (spec/06 R124). -/
  | imax (k : BitVec 2) (b a d : BitVec 7) (m : Bool)
  /-- `ICMP.k.cc pN, vA, vB` (spec/06 R126). -/
  | icmp (k : BitVec 2) (b a : BitVec 7) (c : BitVec 4) (p : BitVec 3) (m : Bool)
  /-- `BITS.op vD, vA` (spec/06 R129). -/
  | bits (o : BitVec 3) (a d : BitVec 7) (m : Bool)
  /-- `BFE.U vD, vA, vB` (spec/06 R130). -/
  | bfeU (b a d : BitVec 7) (m : Bool)
  /-- `BFE.S vD, vA, vB` (spec/06 R130). -/
  | bfeS (b a d : BitVec 7) (m : Bool)
  /-- `BFI vD, vA, vB` (spec/06 R130). -/
  | bfi (b a d : BitVec 7) (m : Bool)
  /-- `SEL vD, pN, vA, vB` (spec/06 R131). -/
  | sel (p : BitVec 3) (b a d : BitVec 7) (m : Bool)
  /-- `LEA.sc vD:D+1, vA:A+1, vB` (spec/06 R132). -/
  | lea (x : Bool) (c : BitVec 2) (b a d : BitVec 7) (m : Bool)
  /-- `PLOP.op pD, pA, pB` (spec/06 R133). -/
  | plop (o b a d : BitVec 3) (m : Bool)
  /-- `IADDI vD, vA, imm` (spec/06 R134). -/
  | iaddi (i : BitVec 10) (a d : BitVec 7) (m : Bool)
  /-- `ANDI vD, vA, imm` (spec/06 R134). -/
  | andi (i : BitVec 10) (a d : BitVec 7) (m : Bool)
  /-- `ORI vD, vA, imm` (spec/06 R134). -/
  | ori (i : BitVec 10) (a d : BitVec 7) (m : Bool)
  /-- `XORI vD, vA, imm` (spec/06 R134). -/
  | xori (i : BitVec 10) (a d : BitVec 7) (m : Bool)
  /-- `SHFI.op vD, vA, n` (spec/06 R134). -/
  | shfi (f : BitVec 3) (n : BitVec 6) (a d : BitVec 7) (m : Bool)
  /-- `ICMPI.cc pN, vA, imm` (spec/06 R134). -/
  | icmpi (i : BitVec 10) (a : BitVec 7) (c : BitVec 4) (p : BitVec 3) (m : Bool)
  /-- `MOVIL vD, imm` (spec/06 R134). -/
  | movil (i : BitVec 17) (d : BitVec 7) (m : Bool)
  /-- `MOVIH vD, imm` (spec/06 R134). -/
  | movih (i : BitVec 16) (d : BitVec 7) (m : Bool)
  /-- `SHFL.mode vD, vA, vB` (spec/06 R135). -/
  | shfl (f : BitVec 2) (b a d : BitVec 7) (m : Bool)
  /-- `VXS` (spec/06 R137). -/
  | vxsBcast (w : Bool) (s : BitVec 9) (d : BitVec 7) (m : Bool)
  /-- `VXS` (spec/06 R137). -/
  | vxsReadf (w : Bool) (s : BitVec 9) (d : BitVec 7) (m : Bool)
  /-- `VXS` (spec/06 R137). -/
  | vxsReadi (w : Bool) (s : BitVec 9) (d : BitVec 7) (m : Bool)
  /-- `VOTE.any pD, pA` (spec/06 R136). -/
  | voteAny (a d : BitVec 3) (m : Bool)
  /-- `VOTE.all pD, pA` (spec/06 R136). -/
  | voteAll (a d : BitVec 3) (m : Bool)
  /-- `VOTE.ballot vD:D+1, pA` (spec/06 R136). -/
  | voteBallot (a : BitVec 3) (d : BitVec 7) (m : Bool)
  /-- `VOTE.eq pD, vA` (spec/06 R136). -/
  | voteEq (a : BitVec 7) (d : BitVec 3) (m : Bool)
  /-- `GRED.op.type vD, vA` (spec/06 R138). -/
  | gred (o : BitVec 3) (t a d : BitVec 7) (m : Bool)
  /-- `LDG.size.ord vD, [sB:B+1 + vA + imm]` (spec/12 R257, R261). -/
  | ldg (o : BitVec 2) (z : BitVec 3) (b : BitVec 5) (a d : BitVec 7) (m : Bool)
  /-- `LDG.m8`, the deprecated eight-word load (spec/12 R265). -/
  | ldm8 (o : BitVec 2) (b : BitVec 5) (a d : BitVec 7) (m : Bool)
  /-- `STG.size.ord` (spec/12 R257 to R262). -/
  | stg (o : BitVec 2) (z : BitVec 3) (b : BitVec 5) (a d : BitVec 7) (m : Bool)
  /-- `LDT.size.ord` (spec/12 R257 to R262). -/
  | ldt (o : BitVec 2) (z : BitVec 3) (b : BitVec 5) (a d : BitVec 7) (m : Bool)
  /-- `STT.size.ord` (spec/12 R257 to R262). -/
  | stt (o : BitVec 2) (z : BitVec 3) (b : BitVec 5) (a d : BitVec 7) (m : Bool)
  /-- `LDP.size.ord` (spec/12 R257 to R262). -/
  | ldp (o : BitVec 2) (z : BitVec 3) (b : BitVec 5) (a d : BitVec 7) (m : Bool)
  /-- `STP.size.ord` (spec/12 R257 to R262). -/
  | stp (o : BitVec 2) (z : BitVec 3) (b : BitVec 5) (a d : BitVec 7) (m : Bool)
  /-- `ATOM.op.w vD, [vA:A+1 + imm], vB` (spec/12 R267). -/
  | atom (f : BitVec 3) (w : Bool) (b : BitVec 6) (a d : BitVec 7) (m : Bool)
  /-- `ATOMX` (spec/12 R267, R268). -/
  | atomxUmax (w : Bool) (b : BitVec 6) (a d : BitVec 7) (m : Bool)
  /-- `ATOMX` (spec/12 R267, R268). -/
  | atomxCas (w : Bool) (b : BitVec 6) (a d : BitVec 7) (m : Bool)
  /-- `ATOMX` (spec/12 R267, R268). -/
  | atomxFadd (w : Bool) (b : BitVec 6) (a d : BitVec 7) (m : Bool)
  /-- `ATOMX.fadda`: anchored accumulation (spec/12 R268). -/
  | atomxFadda (w : Bool) (b : BitVec 6) (a : BitVec 7) (s : Bool) (m : Bool)
  /-- `ATOMX.lr` (spec/11 R249, spec/12 R268). -/
  | atomxLr (w : Bool) (a d : BitVec 7) (m : Bool)
  /-- `ATOMX` (spec/12 R268). -/
  | atomxSc (w : Bool) (b : BitVec 6) (a d : BitVec 7) (m : Bool)
  /-- `ATOMX` (spec/12 R268). -/
  | atomxFmax (w : Bool) (b : BitVec 6) (a d : BitVec 7) (m : Bool)
  /-- `ATOMX` (spec/12 R268). -/
  | atomxFmin (w : Bool) (b : BitVec 6) (a d : BitVec 7) (m : Bool)
  /-- `CACHE` (spec/12 R271). -/
  | cachePref (b : BitVec 5) (a n : BitVec 7) (m : Bool)
  /-- `CACHE` (spec/12 R271). -/
  | cacheLinv (b : BitVec 5) (a n : BitVec 7) (m : Bool)
  /-- `CACHE` (spec/12 R271). -/
  | cachePwb (b : BitVec 5) (a n : BitVec 7) (m : Bool)
  /-- `CACHE` (spec/12 R271). -/
  | cachePinv (b : BitVec 5) (a n : BitVec 7) (m : Bool)
  /-- `COPY` (spec/12 R272 to R276). -/
  | copyLoad (t : BitVec 6) (q p : BitVec 8) (m : Bool)
  /-- `COPY` (spec/12 R272 to R276). -/
  | copyStore (t : BitVec 6) (q p : BitVec 8) (m : Bool)
  /-- `COPY` (spec/12 R272 to R276). -/
  | copyMove (t : BitVec 6) (q p : BitVec 8) (m : Bool)
  /-- `COPY` (spec/12 R272 to R276). -/
  | copyNetred (t : BitVec 6) (q p : BitVec 8) (m : Bool)
  /-- `MMA` (spec/10 R203, R212 to R221). -/
  | mma (t : BitVec 6) (q p : BitVec 8) (m : Bool)
  /-- `MMAT` (spec/10 R203, R212 to R221). -/
  | mmat (t : BitVec 6) (q p : BitVec 8) (m : Bool)
  /-- `WLOAD` (spec/10 R203, R212 to R221). -/
  | wload (t : BitVec 6) (q p : BitVec 8) (m : Bool)
  /-- `ACCX.ST` (spec/10 R203, R212 to R221). -/
  | accxSt (t : BitVec 6) (q p : BitVec 8) (m : Bool)
  /-- `ACCX.LD` (spec/10 R203, R212 to R221). -/
  | accxLd (t : BitVec 6) (q p : BitVec 8) (m : Bool)
  /-- `ACCX.ADD` (spec/10 R203, R212 to R221). -/
  | accxAdd (t : BitVec 6) (q p : BitVec 8) (m : Bool)
  /-- `ACCX.ZERO` (spec/10 R203, R212 to R221). -/
  | accxZero (t : BitVec 6) (q p : BitVec 8) (m : Bool)
  /-- `QUANT` (spec/10 R203, R212 to R221). -/
  | quant (t : BitVec 6) (q p : BitVec 8) (m : Bool)
  /-- `DEQ` (spec/10 R203, R212 to R221). -/
  | deq (t : BitVec 6) (q p : BitVec 8) (m : Bool)
  /-- `QPAIR` (spec/10 R203, R212 to R221). -/
  | qpair (t : BitVec 6) (q p : BitVec 8) (m : Bool)
  /-- `CVTT` (spec/10 R203, R212 to R221). -/
  | cvtt (t : BitVec 6) (q p : BitVec 8) (m : Bool)
  /-- `SALU.op sSD, sSA` (spec/06 R139). -/
  | salu (f : BitVec 6) (s d : BitVec 9) (m : Bool)
  /-- `SIMM.op sSD, imm` (spec/06 R140). -/
  | simm (i : BitVec 12) (f : BitVec 3) (d : BitVec 9) (m : Bool)
  /-- `SMEM.ld32`, `.ld64`, `.ld128` (spec/06 R141). -/
  | smemLoad (f : BitVec 6) (s d : BitVec 9) (m : Bool)
  /-- `SMEM.st32`, `.st64`, `.st128` (spec/06 R141). -/
  | smemStore (f : BitVec 6) (s d : BitVec 9) (m : Bool)
  /-- `SSYS` (spec/06 R142). -/
  | ssysRd (s d : BitVec 9) (m : Bool)
  /-- `SSYS` (spec/06 R142). -/
  | ssysWr (s d : BitVec 9) (m : Bool)
  /-- `SSYS` (spec/06 R142). -/
  | ssysRd64 (s d : BitVec 9) (m : Bool)
  /-- `SSYS` (spec/06 R142). -/
  | ssysWr64 (s d : BitVec 9) (m : Bool)
  /-- `SSYS` (spec/06 R142). -/
  | ssysMbrd (s d : BitVec 9) (m : Bool)
  /-- `SSYS` (spec/06 R142). -/
  | ssysMbwr (s d : BitVec 9) (m : Bool)
  /-- `SSYS` on a per-thread register (spec/06 R142). -/
  | ssysVrd (s : BitVec 9) (d : BitVec 7) (m : Bool)
  /-- `SSYS` on a per-thread register (spec/06 R142). -/
  | ssysVwr (s : BitVec 9) (d : BitVec 7) (m : Bool)
  /-- EVENT: the held `SSYS.wr64` of `PKR` reaches every core and engine (spec/19 R412). -/
  | pkrWrite (core slot : Nat)
  /-- `BRA label` (spec/17 R364). -/
  | bra (o : BitVec 24) (m : Bool)
  /-- `CALL label` (spec/17 R364). -/
  | call (o : BitVec 24) (m : Bool)
  /-- `BRC pN, label` (spec/17 R364). -/
  | brc (o : BitVec 20) (n : Bool) (p : BitVec 3) (m : Bool)
  /-- `BRU.nz sI, label`, `BRU.z` (spec/17 R364). -/
  | bru (o : BitVec 14) (z : Bool) (s : BitVec 9) (m : Bool)
  /-- `RET` (spec/17 R366). -/
  | ret (m : Bool)
  /-- `JMPR vD:D+1`, `JMPR.link` (spec/17 R366). -/
  | jmpr (x : Bool) (d : BitVec 7) (m : Bool)
  /-- `MEET` (spec/17 R367). -/
  | meet (x : BitVec 3) (s : BitVec 9) (d : BitVec 7) (m : Bool)
  /-- `EXIT` (spec/17 R368). -/
  | exit (m : Bool)
  /-- `NEXT.tk vD:D+1` (spec/17 R369). -/
  | next (k : BitVec 3) (d : BitVec 7) (m : Bool)
  /-- `SPAWN.tk vD:D+1` (spec/17 R370). -/
  | spawn (k : BitVec 3) (d : BitVec 7) (m : Bool)
  /-- `SUSP vD:D+1, sS` (spec/17 R371, R372). -/
  | susp (s : BitVec 9) (d : BitVec 7) (m : Bool)
  /-- `YIELD` (spec/17 R373). -/
  | yield (m : Bool)
  /-- `FUSE sD, sA` (spec/17 R375). -/
  | fuse (s d : BitVec 9) (m : Bool)
  /-- `SPLIT sD, pN` (spec/17 R376). -/
  | split (p : BitVec 3) (d : BitVec 9) (m : Bool)
  /-- `ELECT sD, pN` (spec/17 R377). -/
  | elect (p : BitVec 3) (d : BitVec 9) (m : Bool)
  /-- `GSYNC` (spec/17 R378). -/
  | gsync (m : Bool)
  /-- `GINFO sD, sel` (spec/17 R377). -/
  | ginfo (s d : BitVec 9) (m : Bool)
  /-- `BAR.level.op n` (spec/16 R354, spec/17 R379). -/
  | barArrive (l : BitVec 2) (n : BitVec 9) (m : Bool)
  /-- `BAR.level.op n` (spec/16 R354, spec/17 R379). -/
  | barWait (l : BitVec 2) (n : BitVec 9) (m : Bool)
  /-- `BAR.level.op n` (spec/16 R354, spec/17 R379). -/
  | barSync (l : BitVec 2) (n : BitVec 9) (m : Bool)
  /-- `FENCE.TEAM` (spec/11 R238). -/
  | fenceTeam (m : Bool)
  /-- `FENCE.CREW` (spec/11 R238). -/
  | fenceCrew (m : Bool)
  /-- `FENCE.DEV` (spec/11 R238). -/
  | fenceDev (m : Bool)
  /-- `FENCE.SYS` (spec/11 R238). -/
  | fenceSys (m : Bool)
  /-- `WAITT tlN, sA:A+1` (spec/12 R278). -/
  | waitt (s : BitVec 9) (t : BitVec 6) (m : Bool)
  /-- `TLSIG tlN` (spec/12 R279). -/
  | tlsig (t : BitVec 6) (m : Bool)
  /-- `WAITV` (spec/17 R381). -/
  | waitv (m : Bool)
  /-- `SUCCOK` (spec/17 R381). -/
  | succok (m : Bool)
  /-- `CSET cN, sSA` (spec/10 R223). -/
  | cset (s : BitVec 9) (c : BitVec 4) (m : Bool)
  /-- `CSIGN cN, sSA` (spec/10 R223). -/
  | csign (s : BitVec 9) (c : BitVec 4) (m : Bool)
  /-- `GARM gN` (spec/17 R382). -/
  | garm (g : BitVec 4) (m : Bool)
  /-- `GSET gN, sA` (spec/17 R382). -/
  | gset (s : BitVec 9) (g : BitVec 4) (m : Bool)
  /-- `DROPEN n, sA:A+1` (spec/13 R301). -/
  | dropen (s : BitVec 9) (n : BitVec 4) (m : Bool)
  /-- `DRCLOSE n` (spec/13 R301). -/
  | drclose (n : BitVec 4) (m : Bool)
  /-- `DMODE.off`, `.fwd`, `.rev` (spec/13 R297). -/
  | dmode (d : BitVec 2) (m : Bool)
  /-- `ADJRD sD, sA:A+1` (spec/13 R302). -/
  | adjrd (s d : BitVec 9) (m : Bool)
  /-- `ADJCLR sA:A+1, sD` (spec/13 R302). -/
  | adjclr (s d : BitVec 9) (m : Bool)
  /-- `TAPEPOS.rdhead` (spec/13 R303). -/
  | tapeposRdhead (d : BitVec 9) (m : Bool)
  /-- `TAPEPOS.wrhead` (spec/13 R303). -/
  | tapeposWrhead (d : BitVec 9) (m : Bool)
  /-- `TAPEPOS.rdseg` (spec/13 R303). -/
  | tapeposRdseg (n : BitVec 4) (d : BitVec 9) (m : Bool)
  /-- `TAPEPOS.wrseg` (spec/13 R303). -/
  | tapeposWrseg (n : BitVec 4) (d : BitVec 9) (m : Bool)
  /-- `SYS.nop` (spec/20 R440). -/
  | sysNop (m : Bool)
  /-- `TRAP n` (spec/20 R440). -/
  | trap (n : BitVec 8) (m : Bool)
  /-- `BKPT n` (spec/20 R440). -/
  | bkpt (n : BitVec 8) (m : Bool)
  /-- `RTRAP` (spec/20 R441). -/
  | rtrap (m : Bool)
  /-- `EVT code, sA:A+1` (spec/14 R320). -/
  | evt (s : BitVec 9) (c : BitVec 8) (m : Bool)
  /-- `EVTM code, sA` (spec/14 R320). -/
  | evtm (s : BitVec 9) (c : BitVec 8) (m : Bool)
  /-- EVENT: the current path's bundle decodes to no instruction (spec/02 R52). -/
  | encodingNotInstruction (kind : EncodingFate) (first : Word)
  /-- EVENT: a word of the current path's bundle cannot be fetched (spec/02 R27, spec/03 R64). -/
  | instructionFetchFault (addr : Dword) (kind : FaultKind)
  /-- EVENT: a correction slew of the DTB ends (spec/14 R307). -/
  | correctionSlewEnd 
  /-- EVENT: the host's coherence point acknowledges a store or returns an atomic's result (spec/12 R270). -/
  | cxlAcknowledgement (id : Nat) (data : List Byte)
  /-- EVENT: the outstanding load or reduction `id` of the gang returns (spec/12 R261, spec/06 R138). -/
  | loadReturn (core slot id : Nat)
  /-- EVENT: the buffered store `id` of the core arrives at its home slice (spec/11 R234). -/
  | storeArrival (core id : Nat)
  /-- EVENT: the outstanding atomic `id` of the gang executes at its home slice (spec/11 R247). -/
  | atomicAtHome (core slot id : Nat)
  /-- EVENT: the owning core acknowledges the crew-remote store `id` (spec/12 R262). -/
  | crewStoreAck (core slot id : Nat)
  /-- EVENT: a held fence or release proceeds (spec/11 R238). -/
  | fenceRelease (core slot path : Nat)
  /-- EVENT: a lease runs out at its holder (spec/11 R230). -/
  | leaseExpiry (holder : Holder) (line : Nat)
  /-- EVENT: a reservation is cleared 8,192 clocks after its `LR` (spec/11 R249). -/
  | lrReservationTimeout (core slot lane : Nat)
  /-- EVENT: the end of a core's 65,536-clock interval, with the direction of the better hit rate (spec/11 R255). -/
  | carveoutInterval (core : Nat) (move : CarveMove)
  /-- EVENT: a walk asked for by the core finishes (spec/19 R407). -/
  | pageWalkComplete (core ctx : Nat) (va : Dword)
  /-- EVENT: a code page's chunk is hashed at page-in and compared with the registered leaf hash (spec/03 R64). -/
  | codePageVerify (frame : Nat) (leaves : List (BitVec 512))
  /-- EVENT: Brock takes the next parking entry (spec/05 R110). -/
  | brockAccept (cluster : Nat)
  /-- EVENT: Brock decides the element it holds, or passes it on (spec/05 R110). -/
  | brockDecide (cluster : Nat)
  /-- EVENT: the Sett sequencer resolves an entry (spec/05 R111). -/
  | settResolve (cluster : Nat) (seq : Word)
  /-- EVENT: the current path has used its fairness quantum (spec/16 R339). -/
  | quantumExpiry (core slot : Nat)
  /-- EVENT: the management engine withholds an issue slot (spec/01 R25). -/
  | issueSlotWithheld (core pipe : Nat)
  /-- EVENT: a den's timer expires (spec/16 R346). -/
  | denTimerExpiry (cluster den : Nat)
  /-- EVENT: a waiting den forms its gang on a freed slot (spec/16 R347). -/
  | denGangFormOnSlot (cluster den : Nat)
  /-- EVENT: a waiting continuation record's condition holds (spec/16 R350). -/
  | continuationRunnable (ctx : Nat) (addr : Dword)
  /-- EVENT: a grid ends (spec/16 R358). -/
  | gridEnd (ctx grid : Nat)
  /-- EVENT: the row engine starts its next command (spec/08 R169). -/
  | rowCommandStart (cluster : Nat)
  /-- EVENT: the row engine processes one chunk (spec/08 R176). -/
  | rowChunk (cluster : Nat)
  /-- EVENT: the oldest row command completes (spec/08 R169). -/
  | rowCommandComplete (cluster : Nat)
  /-- EVENT: Rook grants the engine to a ready entry (spec/09 R197). -/
  | rookGrant (cluster : Nat)
  /-- EVENT: an entry has been ready for 16,384 clocks (spec/09 R197). -/
  | rookAging (cluster id : Nat)
  /-- EVENT: the dealer examines its oldest ready `MMAT` (spec/09 R201). -/
  | dealerExamine (table : Nat)
  /-- EVENT: a granted pass starts (spec/09 R188). -/
  | passStart (cluster : Nat)
  /-- EVENT: a pass ends (spec/09 R195). -/
  | passEnd (cluster : Nat)
  /-- EVENT: `WLOAD`, `ACCX` or a `QNT` command processes one unit (spec/10 R208). -/
  | engineUnit (cluster : Nat)
  /-- EVENT: the oldest granted matrix command completes (spec/05 R115, spec/09 R197). -/
  | matrixCommandComplete (cluster : Nat)
  /-- EVENT: the copy engine context reads the record of the command at its head (spec/12 R273). -/
  | copyCommandStart (core : Nat)
  /-- EVENT: the copy engine context moves one box row (spec/12 R275). -/
  | copyUnit (core : Nat)
  /-- EVENT: a copy command completes (spec/12 R275). -/
  | copyCommandComplete (core : Nat)
  /-- EVENT: the switch's decision, the exact sum, arrives (spec/15 R331). -/
  | netredResult (core : Nat) (sum : Option Int)
  /-- EVENT: no decision came in time, or the sequence failed (spec/15 R331). -/
  | netredTimeout (core : Nat)
  /-- EVENT: a write into a tenant's launch window (spec/03 R70). -/
  | launchWindowWrite (ctx offset : Nat) (data : List Byte)
  /-- EVENT: placement places the next crew that fits (spec/18 R392, R393). -/
  | teamPlacement 
  /-- EVENT: a head team has waited 65,536 clocks (spec/18 R393). -/
  | backfillTimeout (ctx : Nat) (pri : BitVec 2)
  /-- EVENT: a write into a tenant's node window (spec/18 R386, R387). -/
  | nodeArm (ctx offset : Nat) (data : List Byte)
  /-- EVENT: a host load from a tenant's node window (spec/18 R386). -/
  | nodeStatusRead (ctx offset size : Nat)
  /-- EVENT: the walker copy unit copies one 4 KiB piece (spec/18 R389). -/
  | walkerCopyPiece 
  /-- EVENT: a bulk copy completes (spec/18 R389). -/
  | walkerCopyComplete 
  /-- EVENT: a class-D message from a peer arrives (spec/15 R324). -/
  | peerStoreArrival (dev tenant id : Nat) (runs : List (Nat × Nat × List Byte))
  /-- EVENT: a class-N notification from a peer is applied (spec/15 R327). -/
  | peerNotification (dev tenant id : Nat) (runs : List (Nat × Nat × List Byte))
  /-- EVENT: a class-L record from a peer is accepted (spec/15 R326). -/
  | peerLaunchRecord (dev tenant id : Nat) (runs : List (Nat × Nat × List Byte))
  /-- EVENT: a class-A atomic from a peer executes (spec/15 R324). -/
  | peerAtomic (dev tenant id : Nat) (op : AtomicOp) (wide : Bool) (pa : Nat) (xy : Dword × Dword) (rm : RMode) (anchor : Int)
  /-- EVENT: a class-S response from a peer arrives (spec/15 R324, R334). -/
  | peerResponse (id : Nat) (ok : Bool) (data : List Byte)
  /-- EVENT: a port changes state (spec/15 R332). -/
  | linkPortStateChange (port : Nat) (st : PortState)
  /-- EVENT: a destination has been unreachable beyond `LNKTMO` (spec/15 R333). -/
  | linkUnreachableTimeout (dev : Nat)
  /-- EVENT: a host write arrives at its home slice (spec/11 R243). -/
  | hostWrite (identity pa : Nat) (data : List Byte)
  /-- EVENT: a host read of device memory (spec/11 R243). -/
  | hostRead (identity pa len : Nat)
  /-- EVENT: a host atomic (spec/11 R248). -/
  | hostAtomic (identity pa : Nat) (sysat : Bool) (op : AtomicOp) (wide : Bool) (x y : Dword)
  /-- EVENT: a PTP message disciplines the DTB (spec/14 R305, R306). -/
  | ptpMessage (src : BitVec 2) (ptpNs : Nat)
  /-- EVENT: the lock source is lost (spec/14 R306). -/
  | ptpSourceLost 
  /-- EVENT: a sink writes the oldest record of a source's buffer (spec/14 R315). -/
  | traceSinkWrite (src : TraceSource)
  /-- EVENT: a sink writes a LOSS record (spec/14 R316). -/
  | lossRecord (ctx : Nat)
  /-- EVENT: a tenant's ring has stayed full for 2^TMO us (spec/14 R317). -/
  | losslessTimeout (ctx : Nat)
  /-- EVENT: a waiting fault record is written (spec/20 R424). -/
  | faultQueueDrain (ctx : Nat)
  /-- EVENT: a malformed write to the command window (spec/20 R427). -/
  | mgmtWindowMalformedWrite (offset size : Nat)
  /-- EVENT: the management command `CTXNEW`, given by its 64-byte record (spec/20 R428; R399). -/
  | ctxnew (rec : BitVec 512)
  /-- EVENT: the management command `CTXDEL`, given by its 64-byte record (spec/20 R428; R401). -/
  | ctxdel (rec : BitVec 512)
  /-- EVENT: the management command `TLBINV`, given by its 64-byte record (spec/20 R428; R409). -/
  | tlbinv (rec : BitVec 512)
  /-- EVENT: the management command `GRANT`, given by its 64-byte record (spec/20 R428; R415). -/
  | grant (rec : BitVec 512)
  /-- EVENT: the management command `LINKADM`, given by its 64-byte record (spec/20 R428; R416). -/
  | linkadm (rec : BitVec 512)
  /-- EVENT: the management command `REGWR`, given by its 64-byte record (spec/20 R428; R430). -/
  | regwr (rec : BitVec 512)
  /-- EVENT: the management command `REGRD`, given by its 64-byte record (spec/20 R428; R430). -/
  | regrd (rec : BitVec 512)
  /-- EVENT: the management command `REPLAY`, given by its 64-byte record (spec/20 R428; R431). -/
  | replay (rec : BitVec 512)
  /-- EVENT: the management command `KILL`, given by its 64-byte record (spec/20 R428; R438). -/
  | kill (rec : BitVec 512)
  /-- EVENT: the management command `PREEMPT`, given by its 64-byte record (spec/20 R428; R446). -/
  | preempt (rec : BitVec 512)
  /-- EVENT: the management command `RESUME`, given by its 64-byte record (spec/20 R428; R448). -/
  | resume (rec : BitVec 512)
  /-- EVENT: the management command `RESYNC`, given by its 64-byte record (spec/20 R428; R449). -/
  | resync (rec : BitVec 512)
  /-- EVENT: the oldest ended command's completion is written (spec/20 R429). -/
  | commandCompletion 
  /-- EVENT: a corrected soft error (spec/20 R443). -/
  | softErrorCorrected (cls : BitVec 4)
  /-- EVENT: an uncorrectable soft error (spec/20 R443). -/
  | softErrorUncorrectable (loc : SoftLoc)
  /-- EVENT: device reset, with the images of MR0 to MR5 (spec/19 R417). -/
  | deviceReset (images : List (List Byte))
  /-- EVENT: SPDM request (spec/19 R418). -/
  | getVersion (req : Nat)
  /-- EVENT: SPDM request (spec/19 R418). -/
  | getCapabilities (req : Nat)
  /-- EVENT: SPDM request (spec/19 R418). -/
  | negotiateAlgorithms (req : Nat) (mldsa87 sha3 : Bool)
  /-- EVENT: SPDM request (spec/19 R418). -/
  | getDigests (req : Nat)
  /-- EVENT: SPDM request (spec/19 R418). -/
  | getCertificate (req offset len : Nat)
  /-- EVENT: SPDM request (spec/19 R418). -/
  | challenge (req : Nat) (nonce : List Byte)
  /-- EVENT: SPDM request (spec/19 R418). -/
  | getMeasurements (req : Nat) (nonce : List Byte)
  /-- EVENT: a firmware update is measured (spec/19 R417). -/
  | firmwareUpdate (image : List Byte)
  /-- EVENT: a port retransmits a flit (spec/15 R332). -/
  | flitRetransmission (port : Nat)
  deriving DecidableEq, Repr

end Sys2Proof
end

