-- ==== Sys2Proof/Machine/Float.lean ====
section
/-! DEFINITION. Number formats, exact values and the one rounding of spec/04: `round(x, fmt, rm)` (R78 to R101), and the
arithmetic of spec/07 on encodings. Every function is exact on natural numbers; nothing rounds but `roundExact` and
`roundToInt`. -/

namespace Sys2Proof.Machine

/-- A binary floating-point format (spec/04 R80, R83). `ocp` marks E4M3, which has no infinity. -/
structure FloatFmt where
  width : Nat
  ebits : Nat
  fbits : Nat
  ocp   : Bool
  deriving DecidableEq, Repr

/-- FP32 (spec/04 R80). -/
def fmt32 : FloatFmt := ⟨32, 8, 23, false⟩
/-- FP64 (spec/04 R80). -/
def fmt64 : FloatFmt := ⟨64, 11, 52, false⟩
/-- FP16 (spec/04 R80). -/
def fmt16 : FloatFmt := ⟨16, 5, 10, false⟩
/-- BF16 (spec/04 R80). -/
def fmtB16 : FloatFmt := ⟨16, 8, 7, false⟩
/-- E4M3 (spec/04 R83). -/
def fmtE4M3 : FloatFmt := ⟨8, 4, 3, true⟩
/-- E5M2 (spec/04 R83). -/
def fmtE5M2 : FloatFmt := ⟨8, 5, 2, false⟩

/-- The exponent bias of a format. -/
def fmtBias (f : FloatFmt) : Int := 2 ^ (f.ebits - 1) - 1

/-- The exponent of the smallest normal number (spec/04 R81). -/
def fmtEmin (f : FloatFmt) : Int := 1 - fmtBias f

/-- The exponent of the largest finite number: E4M3 reaches 2^8 (spec/04 R80, R83). -/
def fmtEmax (f : FloatFmt) : Int := if f.ocp then fmtBias f + 1 else fmtBias f

/-- The significand of the largest finite number, as an integer of `fbits + 1` bits (spec/04 R80, R83). -/
def fmtMaxSig (f : FloatFmt) : Nat := if f.ocp then 2 ^ (f.fbits + 1) - 2 else 2 ^ (f.fbits + 1) - 1

/-- The sign bit in place. -/
def fmtSign (f : FloatFmt) (neg : Bool) : Nat := if neg then 2 ^ (f.width - 1) else 0

/-- The infinity of a sign; E4M3 has none, and gives its canonical NaN (spec/04 R83). -/
def fmtInf (f : FloatFmt) (neg : Bool) : Nat :=
  if f.ocp then 2 ^ (f.width - 1) - 1 else fmtSign f neg + (2 ^ f.ebits - 1) * 2 ^ f.fbits

/-- The canonical NaN (spec/04 R82, R83). -/
def fmtNaN (f : FloatFmt) : Nat :=
  if f.ocp then 2 ^ (f.width - 1) - 1 else (2 ^ f.ebits - 1) * 2 ^ f.fbits + 2 ^ (f.fbits - 1)

/-- The largest finite number of a sign. -/
def fmtMax (f : FloatFmt) (neg : Bool) : Nat :=
  fmtSign f neg + (fmtEmax f + fmtBias f).toNat * 2 ^ f.fbits + (fmtMaxSig f - 2 ^ f.fbits)

/-- What an encoding stands for (spec/04 R81, R83): a NaN, an infinity, or `(-1)^neg * m * 2^e`. -/
inductive FVal where
  | nan (signalling : Bool)
  | inf (neg : Bool)
  | fin (neg : Bool) (m : Nat) (e : Int)
  deriving DecidableEq, Repr

/-- The value of an encoding (spec/04 R81, R83). -/
def fdecode (f : FloatFmt) (bits : Nat) : FVal :=
  let neg := bitOf bits (f.width - 1)
  let ex := bitsOf bits (f.width - 2) f.fbits
  let fr := bits % 2 ^ f.fbits
  if ex = 2 ^ f.ebits - 1 ∧ ¬ f.ocp then
    if fr = 0 then .inf neg else .nan (!(bitOf fr (f.fbits - 1)))
  else if f.ocp ∧ ex = 2 ^ f.ebits - 1 ∧ fr = 2 ^ f.fbits - 1 then .nan false
  else if ex = 0 then .fin neg fr (fmtEmin f - f.fbits)
  else .fin neg (2 ^ f.fbits + fr) ((ex : Int) - fmtBias f - f.fbits)

/-- The five sticky flags of `FSTAT` (spec/04 R100): NV, DZ, OF, UF, NX from bit 0. -/
abbrev Flags := BitVec 5

/-- No flag. -/
def flagNone : Flags := 0#5
/-- Invalid operation. -/
def flagNV : Flags := 1#5
/-- Division by zero. -/
def flagDZ : Flags := 2#5
/-- Overflow. -/
def flagOF : Flags := 4#5
/-- Underflow. -/
def flagUF : Flags := 8#5
/-- Inexact. -/
def flagNX : Flags := 16#5

/-- A flag raised on a condition. -/
def flagIf (c : Bool) (f : Flags) : Flags := if c then f else flagNone

/-- An encoding with the flags its delivery raises. -/
structure FRes where
  bits  : Nat
  flags : Flags
  deriving DecidableEq, Repr

/-- The exact value `(-1)^neg * (mag + t) * 2^exp`, where `t` is 0, or strictly between 0 and 1 when `sticky`. A sticky
value carries more bits than any rounding of it keeps. -/
structure Exact where
  neg    : Bool
  mag    : Nat
  exp    : Int
  sticky : Bool
  deriving DecidableEq, Repr

/-- An exact signed multiple of a power of two. -/
structure Dyadic where
  m : Int
  e : Int
  deriving DecidableEq, Repr

/-- The exact value of a dyadic. -/
def dyExact (d : Dyadic) : Exact := ⟨decide (d.m < 0), d.m.natAbs, d.e, false⟩

/-- The dyadic of a finite encoding's parts. -/
def dyOf (neg : Bool) (m : Nat) (e : Int) : Dyadic := ⟨if neg then -(m : Int) else m, e⟩

/-- `d` written at a lower exponent. -/
def dyAt (d : Dyadic) (e : Int) : Int := d.m * 2 ^ (d.e - e).toNat

/-- The exact sum. -/
def dyAdd (a b : Dyadic) : Dyadic :=
  let e := iminInt a.e b.e
  ⟨dyAt a e + dyAt b e, e⟩

/-- The exact negation. -/
def dyNeg (a : Dyadic) : Dyadic := ⟨-a.m, a.e⟩

/-- The exact product. -/
def dyMul (a b : Dyadic) : Dyadic := ⟨a.m * b.m, a.e + b.e⟩

/-- The exact sum of a list. -/
def dySum (l : List Dyadic) : Dyadic := l.foldl (fun a b => if b.m = 0 then a else if a.m = 0 then b else dyAdd a b) ⟨0, 0⟩

/-- Whether `a < b`. -/
def dyLt (a b : Dyadic) : Bool :=
  let e := iminInt a.e b.e
  decide (dyAt a e < dyAt b e)

/-- Whether a magnitude's discarded part rounds it away from zero (spec/04 R96). `cmp` compares the part with one half:
below, equal, above. -/
def roundsUp (rm : RMode) (neg odd inexact : Bool) (cmp : Ordering) : Bool :=
  match rm with
  | .rne => cmp == .gt || (cmp == .eq && odd)
  | .rtz => false
  | .rup => inexact && !neg
  | .rdn => inexact && neg
  | .rna => cmp != .lt

/-- A magnitude rounded to a multiple of `2^drop`, in units of it, and whether that lost anything (spec/04 R96). -/
def roundMag (rm : RMode) (neg : Bool) (mag : Nat) (sticky : Bool) (drop : Int) : Nat × Bool :=
  if drop ≤ 0 then (mag <<< (-drop).toNat, sticky)
  else
    let k := drop.toNat
    let q := mag >>> k
    let r := mag % 2 ^ k
    let half := 2 ^ (k - 1)
    let cmp : Ordering := if r < half then .lt else if half < r then .gt else if sticky then .gt else .eq
    let inexact := r != 0 || sticky
    (if roundsUp rm neg (q % 2 == 1) inexact cmp then q + 1 else q, inexact)

/-- The overflow result of a format (spec/04 R97; E4M3 spec/04 R83). -/
def overflowResult (f : FloatFmt) (rm : RMode) (neg : Bool) : Nat :=
  if f.ocp then fmtMax f neg
  else match rm with
    | .rne | .rna => fmtInf f neg
    | .rtz => fmtMax f neg
    | .rup => if neg then fmtMax f neg else fmtInf f neg
    | .rdn => if neg then fmtInf f neg else fmtMax f neg

/-- `round(x, fmt, rm)` of spec/04 R97 for a value that is not zero, or a zero of the sign `x.neg`. -/
def roundExact (f : FloatFmt) (rm : RMode) (x : Exact) : FRes :=
  if x.mag = 0 ∧ ¬ x.sticky then ⟨fmtSign f x.neg, flagNone⟩
  else
    let lead : Int := (x.mag.log2 : Int)
    let (q0, nx0) := roundMag rm x.neg x.mag x.sticky (lead - f.fbits)
    let up := decide (2 ^ (f.fbits + 1) ≤ q0)
    let q := if up then q0 / 2 else q0
    let ex : Int := lead + x.exp + (if up then 1 else 0)
    if ex < fmtEmin f then
      let (s, nx) := roundMag rm x.neg x.mag x.sticky (fmtEmin f - f.fbits - x.exp)
      ⟨fmtSign f x.neg + s, if nx then flagUF ||| flagNX else flagNone⟩
    else if fmtEmax f < ex ∨ (ex = fmtEmax f ∧ fmtMaxSig f < q) then
      ⟨overflowResult f rm x.neg, flagOF ||| flagNX⟩
    else
      ⟨fmtSign f x.neg + (ex + fmtBias f).toNat * 2 ^ f.fbits + (q - 2 ^ f.fbits), flagIf nx0 flagNX⟩

/-- The value rounded to an integer, and whether that lost anything (spec/07 R163). -/
def roundToInt (rm : RMode) (x : Exact) : Int × Bool :=
  let (q, nx) := roundMag rm x.neg x.mag x.sticky (-x.exp)
  (if x.neg then -(q : Int) else q, nx)

/-- `round` of an exact sum of which at least one term is not zero: an exact zero is +0, or −0 under RDN (spec/04 R98). -/
def roundSum (f : FloatFmt) (rm : RMode) (d : Dyadic) : FRes :=
  if d.m = 0 then ⟨fmtSign f (rm == .rdn), flagNone⟩ else roundExact f rm (dyExact d)

/-- The sign of a sum whose terms are all zeros, by their signs (IEEE 754-2019 addition; spec/04 R98). -/
def zeroSumNeg (rm : RMode) (negs : List Bool) : Bool :=
  if negs.all id then !negs.isEmpty else if negs.all (! ·) then false else rm == .rdn

/-- The canonical NaN with flags. -/
def nanRes (f : FloatFmt) (fl : Flags) : FRes := ⟨fmtNaN f, fl⟩

/-- Whether a value is a signalling NaN. -/
def isSnan : FVal → Bool
  | .nan s => s
  | _ => false

/-- Whether a value is a NaN. -/
def isNan : FVal → Bool
  | .nan _ => true
  | _ => false

/-- Whether a value is a zero. -/
def isZero : FVal → Bool
  | .fin _ m _ => m == 0
  | _ => false

/-- Whether a value is an infinity. -/
def isInf : FVal → Bool
  | .inf _ => true
  | _ => false

/-- Whether a value is finite and not zero. -/
def isFinNz : FVal → Bool
  | .fin _ m _ => m != 0
  | _ => false

/-- The sign of a value that is not a NaN. -/
def fneg : FVal → Bool
  | .nan _ => false
  | .inf n => n
  | .fin n _ _ => n

/-- The exact value of a finite operand, 0 for others. -/
def fdy : FVal → Dyadic
  | .fin n m e => dyOf n m e
  | _ => ⟨0, 0⟩

/-- A value with its sign reversed. -/
def fnegate : FVal → FVal
  | .nan s => .nan s
  | .inf n => .inf (!n)
  | .fin n m e => .fin (!n) m e

/-- The quiet or signalling NaN rows of spec/07 R151, if one applies. -/
def nanRow (f : FloatFmt) (vs : List FVal) : Option FRes :=
  if vs.any isSnan then some (nanRes f flagNV)
  else if vs.any isNan then some (nanRes f flagNone)
  else none

/-- `a + b` (spec/07 R150, R151). -/
def faddVal (f : FloatFmt) (rm : RMode) (a b : FVal) : FRes :=
  match nanRow f [a, b] with
  | some r => r
  | none =>
    match a, b with
    | .inf x, .inf y => if x = y then ⟨fmtInf f x, flagNone⟩ else nanRes f flagNV
    | .inf x, _ => ⟨fmtInf f x, flagNone⟩
    | _, .inf y => ⟨fmtInf f y, flagNone⟩
    | _, _ =>
      if isZero a && isZero b then ⟨fmtSign f (zeroSumNeg rm [fneg a, fneg b]), flagNone⟩
      else roundSum f rm (dyAdd (fdy a) (fdy b))

/-- `a * b`, negated before rounding when `neg` (spec/07 R150, R151). -/
def fmulVal (f : FloatFmt) (rm : RMode) (neg : Bool) (a b : FVal) : FRes :=
  match nanRow f [a, b] with
  | some r => r
  | none =>
    let s := xor neg (xor (fneg a) (fneg b))
    if (isInf a && isZero b) || (isZero a && isInf b) then nanRes f flagNV
    else if isInf a || isInf b then ⟨fmtInf f s, flagNone⟩
    else
      let p := dyMul (fdy a) (fdy b)
      roundExact f rm ⟨s, p.m.natAbs, p.e, false⟩

/-- `a * b + d` with one rounding (spec/07 R150, R151). -/
def fmaVal (f : FloatFmt) (rm : RMode) (a b d : FVal) : FRes :=
  if [a, b, d].any isSnan then nanRes f flagNV
  else if (isInf a && isZero b) || (isZero a && isInf b) then nanRes f flagNV
  else if [a, b, d].any isNan then nanRes f flagNone
  else
    let s := xor (fneg a) (fneg b)
    if isInf a || isInf b then
      (if isInf d && fneg d != s then nanRes f flagNV else ⟨fmtInf f s, flagNone⟩)
    else if isInf d then ⟨fmtInf f (fneg d), flagNone⟩
    else if (isZero a || isZero b) && isZero d then ⟨fmtSign f (zeroSumNeg rm [s, fneg d]), flagNone⟩
    else roundSum f rm (dyAdd (dyMul (fdy a) (fdy b)) (fdy d))

/-- The exact quotient of two positive magnitudes, with `keep` or more significant bits. -/
def divExact (neg : Bool) (keep ma : Nat) (ea : Int) (mb : Nat) (eb : Int) : Exact :=
  let k := keep + mb.log2 + 1
  let n := ma <<< k
  ⟨neg, n / mb, ea - eb - k, n % mb != 0⟩

/-- `a / b` (spec/07 R150, R151). -/
def fdivVal (f : FloatFmt) (rm : RMode) (a b : FVal) : FRes :=
  match nanRow f [a, b] with
  | some r => r
  | none =>
    let s := xor (fneg a) (fneg b)
    match a, b with
    | .inf _, .inf _ => nanRes f flagNV
    | .inf _, _ => ⟨fmtInf f s, flagNone⟩
    | _, .inf _ => ⟨fmtSign f s, flagNone⟩
    | .fin _ ma ea, .fin _ mb eb =>
      if mb = 0 then (if ma = 0 then nanRes f flagNV else ⟨fmtInf f s, flagDZ⟩)
      else if ma = 0 then ⟨fmtSign f s, flagNone⟩
      else roundExact f rm (divExact s (f.fbits + 4) ma ea mb eb)
    | _, _ => nanRes f flagNone

/-- The exact square root of a positive dyadic, with `keep` or more significant bits. -/
def sqrtExact (keep m : Nat) (e : Int) : Exact :=
  let odd := e % 2 == 1
  let m' := if odd then 2 * m else m
  let e' := if odd then e - 1 else e
  let n := m' <<< (2 * keep)
  let r := isqrt n
  ⟨false, r, e' / 2 - keep, r * r != n⟩

/-- The square root (spec/07 R150, R151). -/
def fsqrtVal (f : FloatFmt) (rm : RMode) (a : FVal) : FRes :=
  match nanRow f [a] with
  | some r => r
  | none =>
    match a with
    | .inf n => if n then nanRes f flagNV else ⟨fmtInf f false, flagNone⟩
    | .fin n m e =>
      if m = 0 then ⟨fmtSign f n, flagNone⟩
      else if n then nanRes f flagNV
      else roundExact f rm (sqrtExact (f.fbits + 4) m e)
    | _ => nanRes f flagNone

/-- The exact reciprocal square root of a positive dyadic, with `keep` or more significant bits. -/
def rsqrtExact (keep m : Nat) (e : Int) : Exact :=
  let odd := e % 2 == 1
  let m' := if odd then 2 * m else m
  let e' := if odd then e - 1 else e
  let k := keep + m'.log2 + 2
  let r := isqrt ((1 <<< (2 * k)) / m')
  ⟨false, r, -(e' / 2) - k, r * r * m' != 1 <<< (2 * k)⟩

/-- Whether `FRSQ` of this operand is one of the special cases of spec/07 R153, which never escalate. -/
def frsqSpecial : FVal → Bool
  | .fin n m _ => m == 0 || n
  | _ => true

/-- The reciprocal square root (spec/07 R153). -/
def frsqVal (f : FloatFmt) (rm : RMode) (a : FVal) : FRes :=
  match nanRow f [a] with
  | some r => r
  | none =>
    match a with
    | .inf n => if n then nanRes f flagNV else ⟨0, flagNone⟩
    | .fin n m e =>
      if m = 0 then ⟨fmtInf f n, flagDZ⟩
      else if n then nanRes f flagNV
      else roundExact f rm (rsqrtExact (f.fbits + 4) m e)
    | _ => nanRes f flagNone

/-- The IEEE remainder (spec/07 R152). -/
def fremVal (f : FloatFmt) (a b : FVal) : FRes :=
  match nanRow f [a, b] with
  | some r => r
  | none =>
    match a, b with
    | .inf _, _ => nanRes f flagNV
    | .fin n m e, .inf _ => roundExact f .rne ⟨n, m, e, false⟩
    | .fin n ma ea, .fin _ mb eb =>
      if mb = 0 then nanRes f flagNV
      else
        let e := iminInt ea eb
        let x := ma <<< (ea - e).toNat
        let y := mb <<< (eb - e).toNat
        let q := x / y
        let r := x % y
        let up := decide (y < 2 * r) || (decide (2 * r = y) && q % 2 == 1)
        let d : Int := if up then (r : Int) - y else r
        if d = 0 then ⟨fmtSign f n, flagNone⟩
        else roundExact f .rne (dyExact ⟨if n then -d else d, e⟩)
    | _, _ => nanRes f flagNone

/-- Whether `a` lies below `b` in the order of spec/07 R154: −∞ < finite < +∞, −0 < +0. Not for NaNs. -/
def ordLess (a b : FVal) : Bool :=
  match a, b with
  | .inf x, .inf y => x && !y
  | .inf x, _ => x
  | _, .inf y => !y
  | _, _ =>
    if isZero a && isZero b then fneg a && !(fneg b) else dyLt (fdy a) (fdy b)

/-- `FMIN` or `FMAX` on two encodings (spec/07 R154). -/
def fminmaxBits (f : FloatFmt) (isMax : Bool) (a b : Nat) : FRes :=
  let va := fdecode f a
  let vb := fdecode f b
  if isNan va || isNan vb then nanRes f (flagIf (isSnan va || isSnan vb) flagNV)
  else if isMax then ⟨if ordLess va vb then b else a, flagNone⟩
  else ⟨if ordLess vb va then b else a, flagNone⟩

/-- Whether two values that are not NaNs are related as `lt`, with −0 equal to +0 (spec/07 R155). -/
def cmpLess (a b : FVal) : Bool := if isZero a && isZero b then false else ordLess a b

/-- The condition `cc` of `FCMP` (spec/07 R155). -/
def fcmpCond (cc : Nat) (a b : FVal) : Bool :=
  let un := isNan a || isNan b
  let lt := !un && cmpLess a b
  let gt := !un && cmpLess b a
  let eq := !un && !lt && !gt
  match cc with
  | 0 => eq
  | 1 => !eq
  | 2 => lt
  | 3 => lt || eq
  | 4 => gt
  | 5 => gt || eq
  | 6 => !un
  | _ => un

/-- `a * 2^n`, rounded once (spec/07 R156). -/
def fscaleVal (f : FloatFmt) (rm : RMode) (a : FVal) (n : Int) : FRes :=
  match nanRow f [a] with
  | some r => r
  | none =>
    match a with
    | .inf s => ⟨fmtInf f s, flagNone⟩
    | .fin s m e => if m = 0 then ⟨fmtSign f s, flagNone⟩ else roundExact f rm ⟨s, m, e + n, false⟩
    | _ => nanRes f flagNone

/-- `floor(log2 |a|)` in the format (spec/07 R157). -/
def flogbVal (f : FloatFmt) (a : FVal) : FRes :=
  match nanRow f [a] with
  | some r => r
  | none =>
    match a with
    | .inf _ => ⟨fmtInf f false, flagNone⟩
    | .fin _ m e =>
      if m = 0 then ⟨fmtInf f true, flagDZ⟩
      else roundExact f .rne (dyExact ⟨e + (m.log2 : Int), 0⟩)
    | _ => nanRes f flagNone

/-- The class mask of an encoding (spec/07 R159). -/
def fclassMask (f : FloatFmt) (bits : Nat) : Nat :=
  match fdecode f bits with
  | .nan s => if s then 2 ^ 8 else 2 ^ 9
  | .inf n => if n then 2 ^ 0 else 2 ^ 7
  | .fin n m e =>
    if m = 0 then (if n then 2 ^ 3 else 2 ^ 4)
    else if m < 2 ^ f.fbits ∧ e = fmtEmin f - f.fbits then (if n then 2 ^ 2 else 2 ^ 5)
    else (if n then 2 ^ 1 else 2 ^ 6)

/-- A conversion between floating-point formats (spec/07 R162). `sat` selects the saturating E5M2 codes. -/
def fconvert (src dst : FloatFmt) (rm : RMode) (sat : Bool) (bits : Nat) : FRes :=
  match fdecode src bits with
  | .nan s => nanRes dst (flagIf s flagNV)
  | .inf n =>
    if dst.ocp then nanRes dst flagNV
    else if sat then ⟨fmtMax dst n, flagOF ||| flagNX⟩
    else ⟨fmtInf dst n, flagNone⟩
  | .fin n m e =>
    let r := roundExact dst rm ⟨n, m, e, false⟩
    if sat && (r.flags &&& flagOF) != 0#5 then ⟨fmtMax dst n, r.flags⟩ else r

/-- A conversion to an integer of `w` bits (spec/07 R163). -/
def fToInt (src : FloatFmt) (rm : RMode) (w : Nat) (signed : Bool) (bits : Nat) : FRes :=
  let lo : Int := if signed then -(2 ^ (w - 1) : Nat) else 0
  let hi : Int := if signed then (2 ^ (w - 1) : Nat) - 1 else (2 ^ w : Nat) - 1
  match fdecode src bits with
  | .nan _ => ⟨0, flagNV⟩
  | .inf n => ⟨wrap w (if n then lo else hi), flagNV⟩
  | .fin n m e =>
    let (k, nx) := roundToInt rm ⟨n, m, e, false⟩
    if k < lo then ⟨wrap w lo, flagNV⟩
    else if hi < k then ⟨wrap w hi, flagNV⟩
    else ⟨wrap w k, flagIf nx flagNX⟩

/-- A conversion from an integer (spec/07 R161). -/
def fOfInt (dst : FloatFmt) (rm : RMode) (k : Int) : FRes :=
  if k = 0 then ⟨0, flagNone⟩ else roundExact dst rm (dyExact ⟨k, 0⟩)

/-- `roundToIntegralExact` (spec/07 R164). -/
def frint (f : FloatFmt) (rm : RMode) (bits : Nat) : FRes :=
  match fdecode f bits with
  | .nan s => nanRes f (flagIf s flagNV)
  | .inf n => ⟨fmtInf f n, flagNone⟩
  | .fin n m e =>
    let (k, nx) := roundToInt rm ⟨n, m, e, false⟩
    if k = 0 then ⟨fmtSign f n, flagIf nx flagNX⟩
    else ⟨(roundExact f .rne (dyExact ⟨k, 0⟩)).bits, flagIf nx flagNX⟩

/-- The rounded sum of the values of a gang, a row or a list, by the rule of spec/06 R138. -/
def fsumVals (f : FloatFmt) (rm : RMode) (vs : List FVal) : FRes :=
  let posInf := vs.any (fun v => isInf v && !(fneg v))
  let negInf := vs.any (fun v => isInf v && fneg v)
  if vs.any isNan then nanRes f (flagIf (vs.any isSnan) flagNV)
  else if posInf && negInf then nanRes f flagNV
  else if posInf then ⟨fmtInf f false, flagNone⟩
  else if negInf then ⟨fmtInf f true, flagNone⟩
  else if vs.all isZero then ⟨fmtSign f (zeroSumNeg rm (vs.map fneg)), flagNone⟩
  else roundSum f rm (dySum (vs.map fdy))

/-- The least or greatest of a list of encodings under the order of spec/07 R154, by the rule of spec/06 R138. -/
def fextremeBits (f : FloatFmt) (isMax : Bool) (l : List Nat) : FRes :=
  let vs := l.map (fdecode f)
  if vs.any isNan then nanRes f (flagIf (vs.any isSnan) flagNV)
  else match l with
    | [] => nanRes f flagNone
    | x :: xs => ⟨xs.foldl (fun a b => (fminmaxBits f isMax a b).bits) x, flagNone⟩

/-- The rounding mode of a code 0 to 4 (spec/04 R96). -/
def rmodeOf : Nat → Option RMode
  | 0 => some .rne
  | 1 => some .rtz
  | 2 => some .rup
  | 3 => some .rdn
  | 4 => some .rna
  | _ => none

/-- The code of a rounding mode (spec/04 R96). -/
def rmodeCode : RMode → Nat
  | .rne => 0
  | .rtz => 1
  | .rup => 2
  | .rdn => 3
  | .rna => 4

/-- The format of an operand type's lanes (spec/02 R49). -/
def typeFmt : FpType → FloatFmt
  | .f32 => fmt32
  | .f64 => fmt64
  | .f16 => fmt16
  | .bf16 => fmtB16

/-- An anchored accumulator cell after a contribution (spec/04 R92 to R94): the new `N`, the flags, whether the
contribution was lost, and whether it overflowed under the trap outcome. -/
structure AxRes where
  n     : Int
  flags : Flags
  lost  : Bool
  trap  : Bool
  deriving DecidableEq, Repr

/-- The lower bound of an AX128 cell (spec/04 R91). -/
def axLo : Int := -(2 ^ 127 : Nat)
/-- The upper bound of an AX128 cell (spec/04 R91). -/
def axHi : Int := (2 ^ 127 : Nat) - 1

/-- One contribution to an AX128 cell (spec/04 R92 to R94). -/
def axAdd (anchor : Int) (saturate : Bool) (n : Int) (x : FVal) : AxRes :=
  let atBound := saturate && (n == axLo || n == axHi)
  match x with
  | .nan _ => ⟨n, flagNV, false, false⟩
  | .inf s =>
    if !saturate then ⟨n, flagNone, false, true⟩
    else if atBound then ⟨n, flagOF, false, false⟩
    else ⟨if s then axLo else axHi, flagOF, false, false⟩
  | .fin s m e =>
    let (k, nx) := roundToInt .rne ⟨s, m, e + (96 - anchor), false⟩
    let fl := flagIf nx flagNX
    if k = 0 then ⟨n, fl, m != 0, false⟩
    else if atBound then ⟨n, flagOF ||| fl, false, false⟩
    else
      let t := n + k
      if t < axLo ∨ axHi < t then
        (if saturate then ⟨if t < axLo then axLo else axHi, flagOF ||| fl, false, false⟩
         else ⟨n, flagNone, false, true⟩)
      else ⟨t, fl, false, false⟩

/-- An AX128 cell read back (spec/04 R95). -/
def axRead (anchor : Int) (f : FloatFmt) (rm : RMode) (n : Int) : FRes :=
  if n = 0 then ⟨0, flagNone⟩ else roundExact f rm (dyExact ⟨n, anchor - 96⟩)

end Sys2Proof.Machine
end

