-- ==== Sys2Proof/Machine/Elem.lean ====
section
/-! DEFINITION. The functions of `FFN` (spec/08 R167), each rounded once: a fixed-point approximation with an error bound is
refined until both ends of its interval round to the same bits and flags. -/

namespace Sys2Proof.Machine

/-- An approximation: the value lies strictly within `err * 2^exp` of `mid * 2^exp`. -/
structure Near where
  mid : Int
  err : Nat
  exp : Int
  deriving DecidableEq, Repr

/-- The error bound that every approximation below keeps, in units of its last place. -/
def nearErr : Nat := 2 ^ 20

/-- `2^p`. -/
def one (p : Nat) : Int := ((2 ^ p : Nat) : Int)

/-- `m * 2^e` in units of `2^-p`, rounded down. -/
def fixOf (p : Nat) (m e : Int) : Int :=
  if 0 ≤ e + p then m * 2 ^ (e + p).toNat else m / 2 ^ (-(e + p)).toNat

/-- A product in units of `2^-p`. -/
def fixMul (p : Nat) (a b : Int) : Int := (a * b) / one p

/-- The sum of `t / (2k + 1)`, `t` divided by `n2` from term to term, with alternating signs where `alt`. -/
def oddSeries (n2 : Nat) (alt : Bool) : Nat → Nat → Nat → Int → Int
  | 0, _, _, acc => acc
  | fuel + 1, k, t, acc =>
    if t = 0 then acc
    else oddSeries n2 alt fuel (k + 1) (t / n2) (if alt && k % 2 == 1 then acc - (t / (2 * k + 1) : Nat) else acc + (t / (2 * k + 1) : Nat))

/-- ln 2 in units of `2^-p`, by `2 artanh(1/3)`. -/
def ln2Fix (p : Nat) : Int := oddSeries 9 false (p + 2) 0 (2 ^ (p + 1) / 3) 0

/-- π in units of `2^-p`, by `16 arctan(1/5) - 4 arctan(1/239)`. -/
def piFix (p : Nat) : Int :=
  oddSeries 25 true (p + 8) 0 (2 ^ (p + 4) / 5) 0 - oddSeries 57121 true (p + 8) 0 (2 ^ (p + 2) / 239) 0

/-- The sum of `t r^k / (k + 1)(k + 2)...`, term by term. -/
def expSeries (p : Nat) (r : Int) : Nat → Nat → Int → Int → Int
  | 0, _, _, acc => acc
  | fuel + 1, k, t, acc =>
    if t = 0 ∨ t = -1 then acc
    else
      let t' := fixMul p t r / ((k + 1 : Nat) : Int)
      expSeries p r fuel (k + 1) t' (acc + t')

/-- The exponential of a value in units of `2^-p`: the mantissa in the same units and the power of two. -/
def expFix (p : Nat) (a : Int) : Int × Int :=
  let l := ln2Fix p
  let k := (2 * a + l) / (2 * l)
  let r := a - k * l
  (expSeries p r (p + 4) 0 (one p) (one p), k)

/-- The sum of `t (-r2)^k / ((k + 1)(k + 2))...`, as sine and cosine take it. -/
def trigSeries (p : Nat) (r2 : Int) : Nat → Nat → Int → Int → Int
  | 0, _, _, acc => acc
  | fuel + 1, k, t, acc =>
    if t = 0 ∨ t = -1 then acc
    else
      let t' := -(fixMul p t r2) / (((k + 1) * (k + 2) : Nat) : Int)
      trigSeries p r2 fuel (k + 2) t' (acc + t')

/-- The sine of a reduced value in units of `2^-p`. -/
def sinFix (p : Nat) (r : Int) : Int := trigSeries p (fixMul p r r) (p + 4) 1 r r

/-- The cosine of a reduced value in units of `2^-p`. -/
def cosFix (p : Nat) (r : Int) : Int := trigSeries p (fixMul p r r) (p + 4) 0 (one p) (one p)

/-- The sum of `t z2^k / (2k + 1)` for a signed ratio. -/
def atanhSeries (p : Nat) (z2 : Int) : Nat → Nat → Int → Int → Int
  | 0, _, _, acc => acc
  | fuel + 1, k, t, acc =>
    if t = 0 ∨ t = -1 then acc
    else atanhSeries p z2 fuel (k + 1) (fixMul p t z2) (acc + t / ((2 * k + 1 : Nat) : Int))

/-- The natural logarithm of `m * 2^e`, `m` positive, in units of `2^-p`. -/
def lnFix (p : Nat) (m : Nat) (e : Int) : Int :=
  let l := m.log2
  let y0 := fixOf p m (-(l : Int))
  let big := decide (3 * one p ≤ 2 * y0)
  let y := if big then fixOf p m (-(l : Int) - 1) else y0
  let k := (l : Int) + e + (if big then 1 else 0)
  let z := ((y - one p) * one p) / (y + one p)
  k * ln2Fix p + 2 * atanhSeries p (fixMul p z z) (p + 4) 0 z 0

/-- A value close below 1, or close above -1. -/
def justInside (neg : Bool) (k : Nat) : Near := ⟨if neg then -(one k - 1) else one k - 1, 1, -(k : Int)⟩

/-- A value beyond every format's range. -/
def farOut (neg : Bool) : Near := ⟨if neg then -3 else 3, 1, 20000⟩

/-- A value below every format's range, not zero. -/
def farIn (neg : Bool) : Near := ⟨if neg then -3 else 3, 1, -20000⟩

/-- The exponential of `m * 2^e`. -/
def nearExp (p : Nat) (m e : Int) : Near :=
  let (v, k) := expFix p (fixOf p m e)
  ⟨v, nearErr, k - p⟩

/-- Whether `|m * 2^e|` is at least 2048. -/
def isLarge (m e : Int) : Bool := decide (11 ≤ (m.natAbs.log2 : Int) + e)

/-- The sine (0) or cosine (1) of a quadrant's remainder. -/
def quadrant (p : Nat) (n : Int) (r : Int) (cosine : Bool) : Near :=
  let q := ((n + (if cosine then 1 else 0)) % 4).toNat
  let v := match q with
    | 0 => sinFix p r
    | 1 => cosFix p r
    | 2 => -(sinFix p r)
    | _ => -(cosFix p r)
  ⟨v, nearErr, -(p : Int)⟩

/-- The sine or cosine of `m * 2^e`, with the argument reduced by π/2 (spec/08 R167). -/
def nearTrig (p : Nat) (m e : Int) (cosine : Bool) : Near :=
  let ext := ((m.natAbs.log2 : Int) + e + 2).toNat + 24
  let q := p + ext
  let h := piFix q / 2
  let a := fixOf q m e
  let n := (2 * a + h) / (2 * h)
  quadrant p n ((a - n * h) / one ext) cosine

/-- The sine or cosine of π times `m * 2^e`, with the argument reduced exactly (spec/08 R167). -/
def nearTrigPi (p : Nat) (m e : Int) (cosine : Bool) : Near :=
  let f := (-e).toNat + 2
  let a := m * 2 ^ (e + f).toNat
  let n := (4 * a + one f) / (2 * one f)
  let r := 2 * a - n * one f
  quadrant p n (fixMul p (fixOf p r (-(f : Int) - 1)) (piFix p)) cosine

/-- Terms of the error function's series with positive terms. -/
def erfSeries (p : Nat) (a2 : Int) : Nat → Nat → Int → Int → Int
  | 0, _, _, acc => acc
  | fuel + 1, n, t, acc =>
    if t = 0 then acc
    else
      let t' := 2 * fixMul p t a2 / ((2 * n + 3 : Nat) : Int)
      erfSeries p a2 fuel (n + 1) t' (acc + t')

/-- The error function of `m * 2^e`, `m` positive and the value below 8. -/
def nearErf (p : Nat) (m e : Int) : Near :=
  let q := p + 128
  let a := fixOf q m e
  let sum := erfSeries q (fixMul q a a) (q + 400) 0 a a
  let (v, k) := expFix q (fixOf q (-(m * m)) (2 * e))
  let g := if 0 ≤ k then v * 2 ^ k.toNat else v / 2 ^ (-k).toNat
  let root := ((isqrt ((piFix q).toNat * 2 ^ q) : Nat) : Int)
  let w := 2 * fixMul q sum g * one q / root
  ⟨w / one 128, nearErr, -(p : Int)⟩

/-- The approximation of function `code` of the finite non-special value `m * 2^e` at precision `p`. -/
def nearFn (code p : Nat) (m e : Int) : Near :=
  let neg := decide (m < 0)
  match code with
  | 0 => if isLarge m e then (if neg then farIn false else farOut false) else nearExp p m e
  | 1 =>
    if isLarge m e then (if neg then farIn false else farOut false)
    else
      let a := fixOf p m e
      let k := (2 * a + one p) / (2 * one p)
      let r := fixMul p (a - k * one p) (ln2Fix p)
      ⟨expSeries p r (p + 4) 0 (one p) (one p), nearErr, k - p⟩
  | 2 =>
    if isLarge m e then (if neg then justInside true 3000 else farOut false)
    else
      let (v, k) := expFix p (fixOf p m e)
      if 0 ≤ k then ⟨v * 2 ^ k.toNat - one p, nearErr * 2 ^ k.toNat, -(p : Int)⟩
      else ⟨v / 2 ^ (-k).toNat - one p, nearErr, -(p : Int)⟩
  | 3 => ⟨lnFix p m.natAbs e, nearErr, -(p : Int)⟩
  | 4 => ⟨lnFix p m.natAbs e * one p / ln2Fix p, nearErr, -(p : Int)⟩
  | 5 =>
    let f := (-e).toNat
    ⟨lnFix p (m * 2 ^ (e + f).toNat + one f).toNat (-(f : Int)), nearErr, -(p : Int)⟩
  | 6 => nearTrig p m e false
  | 7 => nearTrig p m e true
  | 8 => nearTrigPi p m e false
  | 9 => nearTrigPi p m e true
  | 10 =>
    if isLarge m e then justInside neg 3000
    else
      let (v, k) := expFix p (fixOf p (-2 * (m.natAbs : Int)) e)
      let t := if 0 ≤ k then v * 2 ^ k.toNat else v / 2 ^ (-k).toNat
      let w := (one p - t) * one p / (one p + t)
      ⟨if neg then -w else w, nearErr, -(p : Int)⟩
  | 11 =>
    if isLarge m e then (if neg then farIn false else justInside false 2900)
    else
      let (v, k) := expFix p (fixOf p (-(m.natAbs : Int)) e)
      let t := if 0 ≤ k then v * 2 ^ k.toNat else v / 2 ^ (-k).toNat
      ⟨(if neg then t else one p) * one p / (one p + t), nearErr, -(p : Int)⟩
  | _ =>
    if 3 ≤ (m.natAbs.log2 : Int) + e then justInside neg 90
    else
      let w := nearErf p m.natAbs e
      ⟨if neg then -w.mid else w.mid, w.err, w.exp⟩

/-- The rounding of an approximated value, where both ends of its interval agree (spec/04 R97). -/
def roundNear (f : FloatFmt) (rm : RMode) (a : Near) : Option FRes :=
  let mag := a.mid.natAbs
  if mag ≤ a.err then none
  else
    let neg := decide (a.mid < 0)
    let lo := roundExact f rm ⟨neg, mag - a.err, a.exp, true⟩
    let hi := roundExact f rm ⟨neg, mag + a.err - 1, a.exp, true⟩
    if lo.bits = hi.bits ∧ lo.flags = hi.flags then some lo else none

/-- The precisions that are tried in turn: from 128 bits to 2^65 (log entry 9). -/
def nearSteps : List Nat := (rangeFrom 0 30).map (fun k => 128 * 4 ^ k)

/-- A value that does not lie on the format's grid, rounded: the first precision that decides it. -/
def decideNear (f : FloatFmt) (rm : RMode) (near : Nat → Near) : List Nat → Option FRes
  | [] => none
  | p :: ps =>
    match roundNear f rm (near p) with
    | some r => some r
    | none => decideNear f rm near ps

/-- Twice a dyadic value as an integer, where it is one: `n` for `n / 2`. -/
def halves (m : Nat) (e : Int) : Option Nat :=
  if 0 ≤ e + 1 then some (m * 2 ^ (e + 1).toNat)
  else
    let d := 2 ^ (-(e + 1)).toNat
    if m % d = 0 then some (m / d) else none

/-- The exponent of a positive dyadic power of two. -/
def powerOf (m : Nat) (e : Int) : Option Int := if m = 2 ^ m.log2 then some ((m.log2 : Int) + e) else none

/-- The special and exact results of a function (spec/08 R167). -/
def ffnExact (f : FloatFmt) (rm : RMode) (code : Nat) (x : FVal) : Option FRes :=
  let zero := fun (n : Bool) => some (⟨fmtSign f n, flagNone⟩ : FRes)
  let inf := fun (n : Bool) => some (⟨fmtInf f n, flagNone⟩ : FRes)
  let num := fun (k : Int) (e : Int) => some (roundExact f .rne ⟨decide (k < 0), k.natAbs, e, false⟩)
  match x with
  | .nan s => some (nanRes f (flagIf s flagNV))
  | .inf n =>
    match code with
    | 0 | 1 => if n then zero false else inf false
    | 2 => if n then num (-1) 0 else inf false
    | 3 | 4 | 5 => if n then some (nanRes f flagNV) else inf false
    | 6 | 7 | 8 | 9 => some (nanRes f flagNV)
    | 10 | 13 => num (if n then -1 else 1) 0
    | 11 => if n then zero false else num 1 0
    | _ => zero n
  | .fin n m e =>
    if m = 0 then
      match code with
      | 0 | 1 | 7 | 9 => num 1 0
      | 3 | 4 => some ⟨fmtInf f true, flagDZ⟩
      | 11 => num 1 (-1)
      | 12 => some ⟨fmtInf f n, flagDZ⟩
      | _ => zero n
    else
      match code with
      | 1 =>
        match halves m e with
        | some h =>
          if h % 2 = 0 then
            let k : Int := if n then -((h / 2 : Nat) : Int) else ((h / 2 : Nat) : Int)
            if k < fmtEmin f - f.fbits ∨ fmtEmax f < k then none else num 1 k
          else none
        | none => none
      | 3 | 4 =>
        if n then some (nanRes f flagNV)
        else match powerOf m e with
          | some k => if k = 0 then zero false else if code = 4 then num k 0 else none
          | none => none
      | 5 =>
        if n then
          let one' := dyAt ⟨1, 0⟩ (iminInt 0 e)
          let v := dyAt ⟨m, e⟩ (iminInt 0 e)
          if v = one' then some ⟨fmtInf f true, flagDZ⟩ else if one' < v then some (nanRes f flagNV) else none
        else none
      | 8 =>
        match halves m e with
        | some h => if h % 2 = 0 then zero n else num ((if h % 4 = 1 then 1 else -1) * (if n then -1 else 1)) 0
        | none => none
      | 9 =>
        match halves m e with
        | some h => if h % 2 = 1 then zero false else num (if h % 4 = 0 then 1 else -1) 0
        | none => none
      | 12 => some (fdivVal f rm (.fin false 1 0) x)
      | _ => none

/-- Whether `FFN` delivers a value that never escalates: a special or exact one (spec/08 R167). -/
def ffnPlain (f : FloatFmt) (code : Nat) (x : FVal) : Bool :=
  if code = 12 then
    match x with
    | .fin _ m e => if m = 0 then true else (powerOf m e).any (fun k => decide (fmtEmin f - f.fbits ≤ -k) && decide (-k ≤ fmtEmax f))
    | _ => true
  else (ffnExact f .rne code x).isSome

/-- `FFN` function `code` of an encoding (spec/08 R167). A value that no precision decides is a free value (log entry 9). -/
def ffnVal (f : FloatFmt) (rm : RMode) (code bits : Nat) : FRes :=
  let x := fdecode f bits
  match ffnExact f rm code x with
  | some r => r
  | none =>
    let d := fdy x
    if code = 1 ∧ ¬ isLarge d.m d.e ∧ (halves d.m.natAbs d.e).any (· % 2 == 0) then
      roundExact f rm ⟨false, 1, fixOf 0 d.m d.e, false⟩
    else
    match decideNear f rm (fun p => nearFn code p d.m d.e) nearSteps with
    | some r => r
    | none => ⟨Config.undecided code [bits, f.width] (rmodeCode rm) % 2 ^ f.width, flagNX⟩

end Sys2Proof.Machine
end

