-- ==== Sys2Proof/Decode.lean ====
section
/-! DEFINITION. Instruction words (spec/02): the formats of R42, the operand limits of R34 and of each entry, the decoder,
the prefix words and their placement (R44 to R47), the order of the checks (R52, R53), and the encoder. -/

namespace Sys2Proof

/-- A delimited code word: a halfword or a long word (spec/02 R26). -/
inductive CodeWord where
  | short (h : Half)
  | long (w : Word)
  deriving DecidableEq, Repr

/-- Why a bundle is not an instruction (spec/02 R52). -/
inductive DecodeError where
  | illegalEncoding
  | reservedField
  deriving DecidableEq, Repr

/-- The operand type of a 2-bit code (spec/02 R49). -/
def fpTypeOf (c : BitVec 2) : FpType :=
  match c.toNat with
  | 0 => .f32
  | 1 => .f64
  | 2 => .f16
  | _ => .bf16

/-- The 2-bit code of an operand type (spec/02 R49). -/
def fpTypeCode : FpType → BitVec 2
  | .f32 => 0#2
  | .f64 => 1#2
  | .f16 => 2#2
  | .bf16 => 3#2

/-! ### The formats -/

/-- A short word (spec/02 R39). -/
def shortWord (op : BitVec 4) (a d : BitVec 5) (m : Bool) : Half := a ++ d ++ op ++ BitVec.ofBool m ++ 0#1

/-- A word of format `LV` (spec/02 R42). -/
def lvWord (maj : BitVec 6) (fn : BitVec 3) (b a d : BitVec 7) (m : Bool) : Word :=
  fn ++ b ++ a ++ d ++ maj ++ BitVec.ofBool m ++ 1#1

/-- A word of format `LI` (spec/02 R42). -/
def liWord (maj : BitVec 6) (i : BitVec 10) (a d : BitVec 7) (m : Bool) : Word :=
  i ++ a ++ d ++ maj ++ BitVec.ofBool m ++ 1#1

/-- A word of format `LW` (spec/02 R42). -/
def lwWord (maj : BitVec 6) (i : BitVec 17) (d : BitVec 7) (m : Bool) : Word :=
  i ++ d ++ maj ++ BitVec.ofBool m ++ 1#1

/-- A word of format `LS` (spec/02 R42). -/
def lsWord (maj : BitVec 6) (fn : BitVec 6) (s d : BitVec 9) (m : Bool) : Word :=
  fn ++ s ++ d ++ maj ++ BitVec.ofBool m ++ 1#1

/-- A word of format `LT` (spec/02 R42). -/
def ltWord (maj : BitVec 6) (i : BitVec 12) (fn : BitVec 3) (d : BitVec 9) (m : Bool) : Word :=
  i ++ fn ++ d ++ maj ++ BitVec.ofBool m ++ 1#1

/-- A word of format `LX` (spec/02 R42). -/
def lxWord (maj : BitVec 6) (x : BitVec 3) (fn : BitVec 5) (s : BitVec 9) (d : BitVec 7) (m : Bool) : Word :=
  x ++ fn ++ s ++ d ++ maj ++ BitVec.ofBool m ++ 1#1

/-- A word of format `LM` (spec/02 R42). -/
def lmWord (maj : BitVec 6) (o : BitVec 2) (z : BitVec 3) (b : BitVec 5) (a d : BitVec 7) (m : Bool) : Word :=
  o ++ z ++ b ++ a ++ d ++ maj ++ BitVec.ofBool m ++ 1#1

/-- A word of format `LA` with its width bit (spec/12 R266). -/
def laWord (maj : BitVec 6) (fn : BitVec 3) (w : Bool) (b : BitVec 6) (a d : BitVec 7) (m : Bool) : Word :=
  fn ++ BitVec.ofBool w ++ b ++ a ++ d ++ maj ++ BitVec.ofBool m ++ 1#1

/-- A word of format `LE` (spec/02 R42). -/
def leWord (maj : BitVec 6) (fn : BitVec 2) (t : BitVec 6) (q p : BitVec 8) (m : Bool) : Word :=
  fn ++ t ++ q ++ p ++ maj ++ BitVec.ofBool m ++ 1#1

/-- A word of format `LC` (spec/02 R42). -/
def lcWord (maj : BitVec 6) (o : BitVec 24) (m : Bool) : Word := o ++ maj ++ BitVec.ofBool m ++ 1#1

/-- A word of format `LB` (spec/02 R42). -/
def lbWord (maj : BitVec 6) (o : BitVec 20) (n : Bool) (p : BitVec 3) (m : Bool) : Word :=
  o ++ BitVec.ofBool n ++ p ++ maj ++ BitVec.ofBool m ++ 1#1

/-- A word of format `LU` (spec/02 R42). -/
def luWord (maj : BitVec 6) (o : BitVec 14) (z : Bool) (s : BitVec 9) (m : Bool) : Word :=
  o ++ BitVec.ofBool z ++ s ++ maj ++ BitVec.ofBool m ++ 1#1

/-! ### Operand limits -/

/-- Whether a register number is even (spec/02 R34). -/
def evenReg {n : Nat} (r : BitVec n) : Bool := r.toNat % 2 == 0

/-- Whether a register number opens a quad. -/
def quadReg {n : Nat} (r : BitVec n) : Bool := r.toNat % 4 == 0

/-- Whether the registers of an FP64 operand list are even (spec/02 R34, R49). -/
def fpRegs (t : FpType) (rs : List (BitVec 7)) : Bool := t != .f64 || rs.all evenReg

/-- The registers a conversion's source and destination span: `none` for an unlisted code (spec/07 R161). -/
def fcvtSpans (c : Nat) : Option (Nat × Nat) :=
  match c with
  | 0 => some (1, 2)
  | 1 => some (2, 1)
  | 2 | 3 | 4 | 5 => some (1, 1)
  | 6 | 7 => some (2, 1)
  | 8 | 9 => some (2, 1)
  | 10 | 11 => some (1, 2)
  | 12 | 13 => some (1, 1)
  | 16 | 17 | 18 | 19 | 20 => some (1, 1)
  | 21 | 22 | 23 => some (4, 1)
  | 24 | 25 => some (1, 4)
  | 26 | 27 | 28 | 29 => some (1, 1)
  | 32 | 33 => some (1, 1)
  | 34 | 35 => some (2, 1)
  | 36 | 37 => some (1, 2)
  | 38 | 39 => some (2, 2)
  | 40 | 41 | 42 | 43 => some (1, 1)
  | 48 | 49 => some (1, 1)
  | 50 | 51 => some (1, 2)
  | 52 | 53 => some (2, 1)
  | 54 | 55 => some (2, 2)
  | 56 | 57 | 58 | 59 => some (1, 1)
  | 60 => some (1, 1)
  | 61 => some (2, 2)
  | 62 | 63 => some (1, 1)
  | _ => none

/-- Whether a register opens a span of `n` registers: a pair is even, a quad a multiple of 4 (spec/07 R160). -/
def spanReg (n : Nat) (r : BitVec 7) : Bool := r.toNat % n == 0

/-- The limits of `FCVT` (spec/07 R160, R161). -/
def fcvtLegal (r : BitVec 3) (c a d : BitVec 7) : Bool :=
  r != 5#3 && r != 6#3 &&
  match fcvtSpans c.toNat with
  | some (na, nd) => spanReg na a && spanReg nd d
  | none => false

/-- The data register of an access of size code `z`: even for b64, a multiple of 4 for b128 (spec/12 R257). -/
def sizeReg (z : BitVec 3) (d : BitVec 7) : Bool :=
  (z != 5#3 || evenReg d) && (z != 6#3 || quadReg d)

/-- The limits of a load (spec/12 R257). -/
def loadLegal (o : BitVec 2) (z : BitVec 3) (d : BitVec 7) : Bool := o != 3#2 && z != 7#3 && sizeReg z d

/-- The limits of a store (spec/12 R257). -/
def storeLegal (o : BitVec 2) (z : BitVec 3) (d : BitVec 7) : Bool :=
  o != 3#2 && z != 1#3 && z != 3#3 && z != 7#3 && sizeReg z d

/-- The limits of an atomic whose data is `v[B]`, a pair when `w` (spec/12 R266). -/
def atomLegal (w : Bool) (b : BitVec 6) (a d : BitVec 7) : Bool :=
  evenReg a && (!w || (evenReg b && evenReg d))

/-- The 32-bit gang registers that `SSYS.rd` reads (spec/06 R143). -/
def ssysRd32 (n : Nat) : Bool :=
  [0x002, 0x003, 0x004, 0x005, 0x010, 0x011, 0x012, 0x017, 0x018, 0x020, 0x021, 0x022, 0x023, 0x024].contains n

/-- The 32-bit gang registers that `SSYS.wr` writes (spec/06 R143). -/
def ssysWr32 (n : Nat) : Bool := [0x010, 0x011, 0x012, 0x018, 0x020, 0x021, 0x022, 0x023, 0x024].contains n

/-- The 64-bit registers that `SSYS.rd64` reads (spec/06 R143). -/
def ssysRdWide (n : Nat) : Bool := [0x008, 0x009, 0x013, 0x019].contains n

/-- The per-thread registers that `SSYS.vrd` reads (spec/06 R143). -/
def ssysVrdReg (n : Nat) : Bool := [0x000, 0x001, 0x014, 0x015, 0x016].contains n

/-- The per-thread registers of 64 bits (spec/06 R143). -/
def ssysVWide (n : Nat) : Bool := [0x000, 0x014, 0x015].contains n

/-- The barrier numbers of each level (spec/02 R51). -/
def barRange (l : BitVec 2) (n : BitVec 9) : Bool :=
  match l.toNat with
  | 0 => n.toNat < 16
  | 1 => n.toNat < 8
  | 2 => n.toNat < 4
  | _ => n.toNat < 256

/-- Whether the operand fields of an instruction meet the limits of R34 and of its entry, without its prefixes. An event
has no encoding and no limit. `c15` in `CSIGN` is an illegal encoding, as R222 says, where R205 names the operand-format trap (the model's
choice, log entry 110). -/
def operandsLegal : Instr → Bool
  | .fadd t b a d _ | .fsub t b a d _ | .fmul t b a d _ | .fnmul t b a d _ | .fma t b a d _ | .fms t b a d _
  | .fdiv t b a d _ | .frem t b a d _ | .fmin t b a d _ | .fmax t b a d _ | .fsgn t b a d _ => fpRegs t [b, a, d]
  | .fsqrt t a d _ | .frsq t a d _ | .flogb t a d _ => fpRegs t [a, d]
  | .fscale t _ a d _ => fpRegs t [a, d]
  | .fclass t a _ _ => fpRegs t [a]
  | .fcmp t b a c _ _ | .fcmpSig t b a c _ _ => fpRegs t [b, a] && decide (c.toNat < 8)
  | .fcvt r c a d _ => fcvtLegal r c a d
  | .ffn t c a d _ => fpRegs t [a, d] && decide (c.toNat ≤ 13)
  | .rowopRedSum _ q p _ | .rowopRedMax _ q p _ | .rowopRedMin _ q p _ | .rowopRedLse _ q p _
  | .rowopRedNorm _ q p _ | .rowopRedSsq _ q p _ | .rowopSmx _ q p _ | .rowopStat _ q p _
  | .rowopUpd _ q p _ => decide (q.toNat ≤ 252) && decide (p.toNat ≤ 252)
  | .imad k _ _ d _ => decide (k.toNat < 2) || evenReg d
  | .idiv k _ _ _ _ | .irem k _ _ _ _ | .imin k _ _ _ _ | .imax k _ _ _ _ => decide (k.toNat < 2)
  | .icmp k _ _ c _ _ => decide (k.toNat < 2) && decide (c.toNat < 6)
  | .shift o _ a d _ => decide (o.toNat < 5) || (evenReg a && evenReg d)
  | .bits o _ _ _ => decide (o.toNat < 5)
  | .lea _ _ _ a d _ => evenReg a && evenReg d
  | .shfi f n a d _ => if f.toNat < 5 then decide (n.toNat < 32) else evenReg a && evenReg d
  | .icmpi _ _ c _ _ => decide (c.toNat % 8 < 6)
  | .vxsBcast w s d _ | .vxsReadf w s d _ | .vxsReadi w s d _ => !w || (evenReg s && evenReg d)
  | .voteBallot _ d _ => evenReg d
  | .gred o t a d _ =>
    decide (o.toNat < 6) && decide (t.toNat < 6) && (decide (o.toNat < 3) || decide (t.toNat < 4)) &&
    (!([2, 3, 5].contains t.toNat) || (evenReg a && evenReg d))
  | .ldg o z _ _ d _ | .ldt o z _ _ d _ | .ldp o z _ _ d _ => loadLegal o z d
  | .ldm8 o _ _ d _ => o != 3#2 && d.toNat % 8 == 0
  | .stg o z _ _ d _ | .stt o z _ _ d _ | .stp o z _ _ d _ => storeLegal o z d
  | .atom _ w b a d _ => atomLegal w b a d
  | .atomxUmax w b a d _ | .atomxFadd w b a d _ | .atomxFmax w b a d _ | .atomxFmin w b a d _ => atomLegal w b a d
  | .atomxCas w b a d _ => evenReg a && evenReg b && (!w || (quadReg b && evenReg d))
  | .atomxFadda w b a _ _ => evenReg a && (!w || evenReg b)
  | .atomxLr w a d _ => evenReg a && (!w || evenReg d)
  | .atomxSc w b a _ _ => evenReg a && (!w || evenReg b)
  | .copyLoad _ q p _ | .copyStore _ q p _ | .copyMove _ q p _ => decide (q.toNat ≤ 250) && decide (p.toNat ≤ 254)
  | .copyNetred _ _ p _ => decide (p.toNat ≤ 254)
  | .mma _ _ p _ | .mmat _ _ p _ | .accxSt _ _ p _ | .accxLd _ _ p _ | .accxAdd _ _ p _
  | .accxZero _ _ p _ => decide (p.toNat ≤ 254)
  | .quant _ _ p _ | .deq _ _ p _ | .qpair _ _ p _ | .cvtt _ _ p _ => decide (p.toNat ≤ 252)
  | .salu f s d _ => decide (f.toNat ≤ 20) && (decide (f.toNat < 18) || (evenReg s && evenReg d))
  | .simm _ f d _ => f != 7#3 || evenReg d
  | .smemLoad f s d _ =>
    evenReg s && decide (f.toNat < 3) && (f != 1#6 || evenReg d) && (f != 2#6 || quadReg d)
  | .smemStore f s d _ =>
    evenReg s && decide (3 ≤ f.toNat) && decide (f.toNat < 6) && (f != 4#6 || evenReg d) && (f != 5#6 || quadReg d)
  | .ssysRd s _ _ => ssysRd32 s.toNat
  | .ssysWr s _ _ => ssysWr32 s.toNat
  | .ssysRd64 s d _ => ssysRdWide s.toNat && evenReg d
  | .ssysWr64 s d _ => s == 0x013#9 && evenReg d
  | .ssysMbrd s d _ | .ssysMbwr s d _ => decide (s.toNat < 256) && evenReg d
  | .ssysVrd s d _ => ssysVrdReg s.toNat && (!(ssysVWide s.toNat) || evenReg d)
  | .ssysVwr s d _ => (s == 0x014#9 || s == 0x015#9) && evenReg d
  | .jmpr _ d _ => evenReg d
  | .meet x s d _ =>
    match x.toNat with
    | 0 => evenReg d && s == 0#9
    | 1 => evenReg s && d == 0#7
    | 2 => d == 0#7 && s == 0#9
    | 3 => true
    | _ => false
  | .next k d _ | .spawn k d _ => decide (k.toNat ≤ 4) && evenReg d
  | .susp s d _ => evenReg s && decide (s.toNat ≤ 506) && evenReg d
  | .ginfo s d _ => decide (s.toNat ≤ 4) && (decide (2 ≤ s.toNat) || evenReg d)
  | .barArrive l n _ | .barWait l n _ | .barSync l n _ => barRange l n
  | .waitt s _ _ => evenReg s
  | .cset _ c _ | .csign _ c _ => c != 15#4
  | .dropen s _ _ => evenReg s
  | .dmode d _ => d != 3#2
  | .adjrd s _ _ => evenReg s
  | .adjclr s _ _ => evenReg s
  | .tapeposRdhead d _ | .tapeposWrhead d _ => evenReg d
  | .tapeposRdseg _ d _ | .tapeposWrseg _ d _ => quadReg d
  | .evt s _ _ => evenReg s
  | .evtm s _ _ => evenReg s && decide (s.toNat ≤ 502)
  | _ => true

/-! ### The decoder -/

/-- A short instruction (spec/02 R39, R40). -/
def decodeShort (h : Half) : Option Instr :=
  let a := h.extractLsb' 11 5
  let d := h.extractLsb' 6 5
  let m := h.getLsbD 1
  match (h.extractLsb' 2 4).toNat with
  | 0 => some (.mov a d m)
  | 1 => some (.iaddShort a d m)
  | 2 => some (.isubShort a d m)
  | 3 => some (.andShort a d m)
  | 4 => some (.orShort a d m)
  | 5 => some (.xorShort a d m)
  | 6 => some (.shlShort a d m)
  | 7 => some (.shrlShort a d m)
  | 8 => some (.faddShort a d m)
  | 9 => some (.fsubShort a d m)
  | 10 => some (.fmulShort a d m)
  | 11 => some (.fmaxShort a d m)
  | 12 => some (.fminShort a d m)
  | 13 => some (.imulShort a d m)
  | 14 => some (.movi5 a d m)
  | _ => if a = 0#5 ∧ d = 0#5 then some (.nop m) else none

/-- `FLOW` (spec/17 R365). -/
def decodeFlow (x : BitVec 3) (fn : BitVec 5) (s : BitVec 9) (d : BitVec 7) (m : Bool) : Option Instr :=
  match fn.toNat with
  | 0 => if x = 0#3 ∧ s = 0#9 ∧ d = 0#7 then some (.ret m) else none
  | 1 => if x.extractLsb' 1 2 = 0#2 ∧ s = 0#9 then some (.jmpr (x.getLsbD 0) d m) else none
  | 2 => some (.meet x s d m)
  | 3 => if x = 0#3 ∧ s = 0#9 ∧ d = 0#7 then some (.exit m) else none
  | 4 => if s = 0#9 then some (.next x d m) else none
  | 5 => if s = 0#9 then some (.spawn x d m) else none
  | 6 => if x = 0#3 then some (.susp s d m) else none
  | 7 => if x = 0#3 ∧ s = 0#9 ∧ d = 0#7 then some (.yield m) else none
  | _ => none

/-- `SYNC` (spec/02 R50, spec/12 R277, spec/17 R380, spec/10 R222). -/
def decodeSync (fn : BitVec 6) (s d : BitVec 9) (m : Bool) : Option Instr :=
  match fn.toNat with
  | 0 => if s = 0#9 ∧ d = 0#9 then some (.fenceTeam m) else none
  | 1 => if s = 0#9 ∧ d = 0#9 then some (.fenceCrew m) else none
  | 2 => if s = 0#9 ∧ d = 0#9 then some (.fenceDev m) else none
  | 3 => if s = 0#9 ∧ d = 0#9 then some (.fenceSys m) else none
  | 4 => if d.extractLsb' 6 3 = 0#3 then some (.waitt s (d.extractLsb' 0 6) m) else none
  | 5 => if d.extractLsb' 6 3 = 0#3 ∧ s = 0#9 then some (.tlsig (d.extractLsb' 0 6) m) else none
  | 6 => if s = 0#9 ∧ d = 0#9 then some (.waitv m) else none
  | 7 => if s = 0#9 ∧ d = 0#9 then some (.succok m) else none
  | 8 => if d.extractLsb' 4 5 = 0#5 then some (.cset s (d.extractLsb' 0 4) m) else none
  | 9 => if d.extractLsb' 4 5 = 0#5 then some (.csign s (d.extractLsb' 0 4) m) else none
  | 10 => if d.extractLsb' 4 5 = 0#5 ∧ s = 0#9 then some (.garm (d.extractLsb' 0 4) m) else none
  | 11 => if d.extractLsb' 4 5 = 0#5 then some (.gset s (d.extractLsb' 0 4) m) else none
  | _ => none

/-- `DIFF` (spec/13 R299, R300). -/
def decodeDiff (fn : BitVec 6) (s d : BitVec 9) (m : Bool) : Option Instr :=
  match fn.toNat with
  | 0 => if d.extractLsb' 4 5 = 0#5 then some (.dropen s (d.extractLsb' 0 4) m) else none
  | 1 => if d.extractLsb' 4 5 = 0#5 ∧ s = 0#9 then some (.drclose (d.extractLsb' 0 4) m) else none
  | 2 => if d.extractLsb' 2 7 = 0#7 ∧ s = 0#9 then some (.dmode (d.extractLsb' 0 2) m) else none
  | 3 => some (.adjrd s d m)
  | 4 => some (.adjclr s d m)
  | 5 =>
    if s.getLsbD 8 = false ∧ s.extractLsb' 2 2 = 0#2 then
      match (s.extractLsb' 0 2).toNat with
      | 0 => if s.extractLsb' 4 4 = 0#4 then some (.tapeposRdhead d m) else none
      | 1 => if s.extractLsb' 4 4 = 0#4 then some (.tapeposWrhead d m) else none
      | 2 => some (.tapeposRdseg (s.extractLsb' 4 4) d m)
      | _ => some (.tapeposWrseg (s.extractLsb' 4 4) d m)
    else none
  | _ => none

/-- `SYS` (spec/20 R439, spec/14 R319). -/
def decodeSys (fn : BitVec 6) (s d : BitVec 9) (m : Bool) : Option Instr :=
  match fn.toNat with
  | 0 => if s = 0#9 ∧ d = 0#9 then some (.sysNop m) else none
  | 1 => if s = 0#9 ∧ d.getLsbD 8 = false then some (.trap (d.extractLsb' 0 8) m) else none
  | 2 => if s = 0#9 ∧ d.getLsbD 8 = false then some (.bkpt (d.extractLsb' 0 8) m) else none
  | 3 => if s = 0#9 ∧ d = 0#9 then some (.rtrap m) else none
  | 4 => if d.getLsbD 8 = false then some (.evt s (d.extractLsb' 0 8) m) else none
  | 5 => if d.getLsbD 8 = false then some (.evtm s (d.extractLsb' 0 8) m) else none
  | _ => none

/-- `GANG` (spec/17 R374). -/
def decodeGang (fn : BitVec 6) (s d : BitVec 9) (m : Bool) : Option Instr :=
  match fn.toNat with
  | 0 => some (.fuse s d m)
  | 1 => if s.extractLsb' 3 6 = 0#6 then some (.split (s.extractLsb' 0 3) d m) else none
  | 2 => if s.extractLsb' 3 6 = 0#6 then some (.elect (s.extractLsb' 0 3) d m) else none
  | 3 => if s = 0#9 ∧ d = 0#9 then some (.gsync m) else none
  | 4 => some (.ginfo s d m)
  | _ => none

/-- `SSYS` (spec/06 R142). -/
def decodeSsys (fn : BitVec 6) (s d : BitVec 9) (m : Bool) : Option Instr :=
  match fn.toNat with
  | 0 => some (.ssysRd s d m)
  | 1 => some (.ssysWr s d m)
  | 2 => some (.ssysRd64 s d m)
  | 3 => some (.ssysWr64 s d m)
  | 4 => some (.ssysMbrd s d m)
  | 5 => some (.ssysMbwr s d m)
  | 6 => if d.extractLsb' 7 2 = 0#2 then some (.ssysVrd s (d.extractLsb' 0 7) m) else none
  | 7 => if d.extractLsb' 7 2 = 0#2 then some (.ssysVwr s (d.extractLsb' 0 7) m) else none
  | _ => none

/-- `VOTE` (spec/06 R136). -/
def decodeVote (fn : BitVec 3) (b a d : BitVec 7) (m : Bool) : Option Instr :=
  let a3 := a.extractLsb' 0 3
  let d3 := d.extractLsb' 0 3
  let az := a.extractLsb' 3 4 = 0#4
  let dz := d.extractLsb' 3 4 = 0#4
  if b ≠ 0#7 then none
  else match fn.toNat with
    | 0 => if az ∧ dz then some (.voteAny a3 d3 m) else none
    | 1 => if az ∧ dz then some (.voteAll a3 d3 m) else none
    | 2 => if az then some (.voteBallot a3 d m) else none
    | 3 => if dz then some (.voteEq a d3 m) else none
    | _ => none

/-- `VXS` (spec/06 R137). -/
def decodeVxs (x : BitVec 3) (fn : BitVec 5) (s : BitVec 9) (d : BitVec 7) (m : Bool) : Option Instr :=
  if x.extractLsb' 1 2 ≠ 0#2 then none
  else match fn.toNat with
    | 0 => some (.vxsBcast (x.getLsbD 0) s d m)
    | 1 => some (.vxsReadf (x.getLsbD 0) s d m)
    | 2 => some (.vxsReadi (x.getLsbD 0) s d m)
    | _ => none

/-- `ATOMX` (spec/12 R267, R268). -/
def decodeAtomx (fn : BitVec 3) (w : Bool) (b : BitVec 6) (a d : BitVec 7) (m : Bool) : Option Instr :=
  match fn.toNat with
  | 0 => some (.atomxUmax w b a d m)
  | 1 => some (.atomxCas w b a d m)
  | 2 => some (.atomxFadd w b a d m)
  | 3 => if d.extractLsb' 1 6 = 0#6 then some (.atomxFadda w b a (d.getLsbD 0) m) else none
  | 4 => if b = 0#6 then some (.atomxLr w a d m) else none
  | 5 => some (.atomxSc w b a d m)
  | 6 => some (.atomxFmax w b a d m)
  | _ => some (.atomxFmin w b a d m)

/-- `CACHE` (spec/12 R271). -/
def decodeCache (o : BitVec 2) (z : BitVec 3) (b : BitVec 5) (a n : BitVec 7) (m : Bool) : Option Instr :=
  if o ≠ 0#2 then none
  else match z.toNat with
    | 0 => some (.cachePref b a n m)
    | 1 => some (.cacheLinv b a n m)
    | 2 => some (.cachePwb b a n m)
    | 3 => some (.cachePinv b a n m)
    | _ => none

/-- An arithmetic word of the floating-point majors (spec/07 R149). -/
def decodeFp (maj : Nat) (fn : BitVec 3) (b a d : BitVec 7) (m : Bool) : Option Instr :=
  let t := fpTypeOf (fn.extractLsb' 0 2)
  let bz := b = 0#7
  let c := d.extractLsb' 3 4
  let p := d.extractLsb' 0 3
  match maj, fn.getLsbD 2 with
  | 0x00, false => some (.fadd t b a d m)
  | 0x00, true => some (.fsub t b a d m)
  | 0x01, false => some (.fmul t b a d m)
  | 0x01, true => some (.fnmul t b a d m)
  | 0x02, false => some (.fma t b a d m)
  | 0x02, true => some (.fms t b a d m)
  | 0x03, false => some (.fdiv t b a d m)
  | 0x03, true => some (.frem t b a d m)
  | 0x04, false => some (.fmin t b a d m)
  | 0x04, true => some (.fmax t b a d m)
  | 0x05, false => if bz then some (.fsqrt t a d m) else none
  | 0x05, true => if bz then some (.frsq t a d m) else none
  | 0x06, false => some (.fcmp t b a c p m)
  | 0x06, true => some (.fcmpSig t b a c p m)
  | 0x08, false => some (.ffn t b a d m)
  | 0x08, true => none
  | 0x09, false => some (.fscale t b a d m)
  | 0x09, true => if bz then some (.flogb t a d m) else none
  | 0x0A, false => some (.fsgn t b a d m)
  | 0x0A, true => if bz then some (.fclass t a d m) else none
  | _, _ => none

/-- An integer word of format `LV` (spec/06). -/
def decodeInt (maj : Nat) (fn : BitVec 3) (b a d : BitVec 7) (m : Bool) : Option Instr :=
  let k := fn.extractLsb' 0 2
  let c := d.extractLsb' 3 4
  let p := d.extractLsb' 0 3
  match maj, fn.getLsbD 2 with
  | 0x0C, false => some (.iadd k b a d m)
  | 0x0C, true => some (.isub k b a d m)
  | 0x0D, false => some (.imul k b a d m)
  | 0x0D, true => some (.imad k b a d m)
  | 0x0E, false => some (.idiv k b a d m)
  | 0x0E, true => some (.irem k b a d m)
  | 0x0F, _ => some (.logic fn b a d m)
  | 0x10, _ => some (.shift fn b a d m)
  | 0x11, false => some (.imin k b a d m)
  | 0x11, true => some (.imax k b a d m)
  | 0x12, false => some (.icmp k b a c p m)
  | 0x12, true => none
  | 0x13, _ => if b = 0#7 then some (.bits fn a d m) else none
  | 0x14, false =>
    match k.toNat with
    | 0 => some (.bfeU b a d m)
    | 1 => some (.bfeS b a d m)
    | 2 => some (.bfi b a d m)
    | _ => none
  | 0x14, true => none
  | 0x15, _ => some (.sel fn b a d m)
  | 0x16, x => some (.lea x k b a d m)
  | 0x17, _ =>
    if b.extractLsb' 3 4 = 0#4 ∧ a.extractLsb' 3 4 = 0#4 ∧ c = 0#4 then
      some (.plop fn (b.extractLsb' 0 3) (a.extractLsb' 0 3) p m)
    else none
  | 0x20, false => some (.shfl k b a d m)
  | 0x20, true => none
  | 0x22, _ => decodeVote fn b a d m
  | 0x23, _ => some (.gred fn b a d m)
  | _, _ => none

/-- A word of format `LI` or `LW` (spec/06 R134). -/
def decodeImm (maj : Nat) (w : Word) (m : Bool) : Option Instr :=
  let i := w.extractLsb' 22 10
  let a := w.extractLsb' 15 7
  let d := w.extractLsb' 8 7
  match maj with
  | 0x18 => some (.iaddi i a d m)
  | 0x19 => some (.andi i a d m)
  | 0x1A => some (.ori i a d m)
  | 0x1B => some (.xori i a d m)
  | 0x1C => if i.getLsbD 6 = false then some (.shfi (i.extractLsb' 7 3) (i.extractLsb' 0 6) a d m) else none
  | 0x1D => some (.icmpi i a (d.extractLsb' 3 4) (d.extractLsb' 0 3) m)
  | 0x1E => some (.movil (w.extractLsb' 15 17) d m)
  | 0x1F => if w.getLsbD 31 = false then some (.movih (w.extractLsb' 15 16) d m) else none
  | _ => none

/-- A word of format `LM` (spec/12 R257, R265, R271). -/
def decodeMem (maj : Nat) (o : BitVec 2) (z : BitVec 3) (b : BitVec 5) (a d : BitVec 7) (m : Bool) : Option Instr :=
  match maj with
  | 0x24 => if z = 7#3 then some (.ldm8 o b a d m) else some (.ldg o z b a d m)
  | 0x25 => some (.stg o z b a d m)
  | 0x26 => some (.ldt o z b a d m)
  | 0x27 => some (.stt o z b a d m)
  | 0x28 => some (.ldp o z b a d m)
  | 0x29 => some (.stp o z b a d m)
  | 0x2C => decodeCache o z b a d m
  | _ => none

/-- A word of format `LE`. The rows of one encoding that a register tells apart decode to the first of them: `ROWOP.red`
to its sum, `ACCX` to its store (spec/08 R180, spec/10 R215). -/
def decodeEngine (maj : Nat) (fn : BitVec 2) (t : BitVec 6) (q p : BitVec 8) (m : Bool) : Option Instr :=
  match maj, fn.toNat with
  | 0x0B, 0 => some (.rowopRedSum t q p m)
  | 0x0B, 1 => some (.rowopSmx t q p m)
  | 0x0B, 2 => some (.rowopStat t q p m)
  | 0x0B, 3 => some (.rowopUpd t q p m)
  | 0x2D, 0 => some (.copyLoad t q p m)
  | 0x2D, 1 => some (.copyStore t q p m)
  | 0x2D, 2 => some (.copyMove t q p m)
  | 0x2D, 3 => some (.copyNetred t q p m)
  | 0x2E, 0 => some (.mma t q p m)
  | 0x2E, 1 => some (.mmat t q p m)
  | 0x2E, 2 => some (.wload t q p m)
  | 0x2E, 3 => some (.accxSt t q p m)
  | 0x2F, 0 => some (.quant t q p m)
  | 0x2F, 1 => some (.deq t q p m)
  | 0x2F, 2 => some (.qpair t q p m)
  | 0x2F, 3 => some (.cvtt t q p m)
  | _, _ => none

/-- A word of format `LS`. -/
def decodeScalar (maj : Nat) (fn : BitVec 6) (s d : BitVec 9) (m : Bool) : Option Instr :=
  match maj with
  | 0x30 => some (.salu fn s d m)
  | 0x32 => if fn.toNat < 3 then some (.smemLoad fn s d m) else some (.smemStore fn s d m)
  | 0x33 => decodeSsys fn s d m
  | 0x39 => decodeGang fn s d m
  | 0x3A =>
    if fn.extractLsb' 0 2 ≠ 0#2 ∨ s ≠ 0#9 then none
    else match (fn.extractLsb' 2 2).toNat with
      | 0 => some (.barArrive (fn.extractLsb' 4 2) d m)
      | 1 => some (.barWait (fn.extractLsb' 4 2) d m)
      | 2 => some (.barSync (fn.extractLsb' 4 2) d m)
      | _ => none
  | 0x3B => decodeSync fn s d m
  | 0x3C => decodeDiff fn s d m
  | 0x3D => decodeSys fn s d m
  | _ => none

/-- The major opcode of a long word (spec/02 R41). -/
def majorOf (w : Word) : Nat := (w.extractLsb' 2 6).toNat

/-- A long non-prefix instruction by its major opcode (spec/02 R48), before the operand limits. -/
def decodeLongRaw (w : Word) : Option Instr :=
  let m := w.getLsbD 1
  let maj := majorOf w
  let d7 := w.extractLsb' 8 7
  let a7 := w.extractLsb' 15 7
  let b7 := w.extractLsb' 22 7
  let f3 := w.extractLsb' 29 3
  let d9 := w.extractLsb' 8 9
  let s9 := w.extractLsb' 17 9
  let f6 := w.extractLsb' 26 6
  if maj = 0x07 then some (.fcvt f3 b7 a7 d7 m)
  else if maj = 0x0B then decodeEngine maj (w.extractLsb' 30 2) (w.extractLsb' 24 6) (w.extractLsb' 16 8) (w.extractLsb' 8 8) m
  else if maj < 0x0B then decodeFp maj f3 b7 a7 d7 m
  else if maj < 0x18 then decodeInt maj f3 b7 a7 d7 m
  else if maj < 0x20 then decodeImm maj w m
  else if maj = 0x21 then decodeVxs f3 (w.extractLsb' 24 5) (w.extractLsb' 15 9) d7 m
  else if maj < 0x24 then decodeInt maj f3 b7 a7 d7 m
  else if maj = 0x2A then some (.atom f3 (w.getLsbD 28) (w.extractLsb' 22 6) a7 d7 m)
  else if maj = 0x2B then decodeAtomx f3 (w.getLsbD 28) (w.extractLsb' 22 6) a7 d7 m
  else if maj < 0x2D then decodeMem maj (w.extractLsb' 30 2) (w.extractLsb' 27 3) (w.extractLsb' 22 5) a7 d7 m
  else if maj < 0x30 then decodeEngine maj (w.extractLsb' 30 2) (w.extractLsb' 24 6) (w.extractLsb' 16 8) (w.extractLsb' 8 8) m
  else if maj = 0x31 then some (.simm (w.extractLsb' 20 12) (w.extractLsb' 17 3) d9 m)
  else if maj = 0x34 then some (.bra (w.extractLsb' 8 24) m)
  else if maj = 0x35 then some (.call (w.extractLsb' 8 24) m)
  else if maj = 0x36 then some (.brc (w.extractLsb' 12 20) (w.getLsbD 11) (w.extractLsb' 8 3) m)
  else if maj = 0x37 then some (.bru (w.extractLsb' 18 14) (w.getLsbD 17) d9 m)
  else if maj = 0x38 then decodeFlow f3 (w.extractLsb' 24 5) (w.extractLsb' 15 9) d7 m
  else if maj < 0x3E then decodeScalar maj f6 s9 d9 m
  else none

/-- A decoded instruction whose operands meet their limits, or nothing (spec/02 R52). -/
def checkOperands : Option Instr → Option Instr
  | some i => if operandsLegal i then some i else none
  | none => none

/-- The instruction a code word holds without prefixes (spec/02 R48, R52). -/
def decodeWord : CodeWord → Option Instr
  | .short h => if h.getLsbD 0 then none else checkOperands (decodeShort h)
  | .long w => if w.getLsbD 0 then checkOperands (decodeLongRaw w) else none

/-! ### Prefixes and bundles -/

/-- The fields of a `PFX` word (spec/02 R44). -/
structure Pfx where
  rsvd  : BitVec 4
  hint  : BitVec 4
  nt    : Bool
  wid   : BitVec 2
  gen   : Bool
  gslot : BitVec 4
  rnd   : BitVec 3
  pen   : Bool
  pneg  : Bool
  pidx  : BitVec 3
  deriving DecidableEq, Repr

/-- A `PFX` whose fields are all default (spec/02 R44). -/
def pfxNone : Pfx := ⟨0#4, 0#4, false, 0#2, false, 0#4, 7#3, false, false, 0#3⟩

/-- The fields of a `PFX` word (spec/02 R44). -/
def pfxOf (w : Word) : Pfx :=
  { rsvd := w.extractLsb' 28 4, hint := w.extractLsb' 24 4, nt := w.getLsbD 23, wid := w.extractLsb' 21 2,
    gen := w.getLsbD 20, gslot := w.extractLsb' 16 4, rnd := w.extractLsb' 13 3, pen := w.getLsbD 12,
    pneg := w.getLsbD 11, pidx := w.extractLsb' 8 3 }

/-- The majors that accept a predicate (spec/02 R45). -/
def acceptsPredicate (maj : Nat) : Bool :=
  (maj < 0x0B) || (0x0C ≤ maj && maj < 0x2D) || maj == 0x34 || maj == 0x35 || maj == 0x38

/-- The majors that accept a rounding override (spec/02 R45). -/
def acceptsRnd (maj : Nat) : Bool := maj < 4 || maj == 0x05 || maj == 0x08 || maj == 0x09

/-- The majors that accept a guard (spec/02 R45). -/
def acceptsGuard (maj : Nat) : Bool := maj == 0x0B || (0x2D ≤ maj && maj < 0x30)

/-- The majors that accept a width override (spec/02 R45). -/
def acceptsWid (maj : Nat) : Bool := [0x0C, 0x11, 0x12, 0x18, 0x1D].contains maj

/-- The majors that accept NT (spec/02 R45). -/
def acceptsNt (maj : Nat) : Bool := maj == 0x24 || maj == 0x25

/-- The majors that accept `PFXI` (spec/02 R45). -/
def acceptsImm (maj : Nat) : Bool := (0x18 ≤ maj && maj < 0x1E) || (0x24 ≤ maj && maj < 0x2D) || maj == 0x31

/-- Whether a `PFX` may stand before an instruction of a major (spec/02 R44, R45, R52), its RSVD apart. -/
def pfxLegal (p : Pfx) (maj : Nat) : Bool :=
  (!p.pen || acceptsPredicate maj) && (p.rnd == 7#3 || acceptsRnd maj) && (!p.gen || acceptsGuard maj) &&
  (p.wid == 0#2 || acceptsWid maj) && (!p.nt || acceptsNt maj) &&
  p.rnd != 5#3 && p.rnd != 6#3 && (p.gen || p.gslot == 0#4) && (p.pen || (p.pneg == false && p.pidx == 0#3))

/-- The 32-bit immediate of an `LI` instruction (spec/02 R46). -/
def immLI (i : BitVec 10) (x : Option (BitVec 24)) : Word :=
  match x with
  | none => i.signExtend 32
  | some e => e.extractLsb' 0 22 ++ i

/-- The 32-bit immediate of an `LT` instruction (spec/02 R46). -/
def immLT (i : BitVec 12) (x : Option (BitVec 24)) : Word :=
  match x with
  | none => i.signExtend 32
  | some e => e.extractLsb' 0 20 ++ i

/-- The equality that R46 asks of a `PFXI` before an `LI` instruction. -/
def extLegalLI (e : BitVec 24) : Bool := e.getLsbD 23 == e.getLsbD 21 && e.getLsbD 22 == e.getLsbD 21

/-- The equality that R46 asks of a `PFXI` before an `LT` instruction. -/
def extLegalLT (e : BitVec 24) : Bool :=
  e.getLsbD 23 == e.getLsbD 19 && e.getLsbD 22 == e.getLsbD 19 && e.getLsbD 21 == e.getLsbD 19 && e.getLsbD 20 == e.getLsbD 19

/-- Whether a `PFXI` suits the instruction: the equalities of R46, and the limits that the entries of `SHFI` and of
`SIMM.shli`, `.shrli` set on the combined immediate (spec/06 R134, R140). -/
def immLegal (x : Option (BitVec 24)) : Instr → Bool
  | .iaddi _ _ _ _ | .andi _ _ _ _ | .ori _ _ _ _ | .xori _ _ _ _ | .icmpi _ _ _ _ _ => x.all extLegalLI
  | .shfi _ _ _ _ _ => x.all (fun e => e == 0#24)
  | .simm i f _ _ => x.all extLegalLT && (!(f == 5#3 || f == 6#3) || decide ((immLT i x).toNat < 32))
  | _ => true

/-- Whether a width override suits the instruction's registers and kind (spec/02 R47, spec/06 R122 to R126, R134). -/
def widLegal (wid : BitVec 2) : Instr → Bool
  | .iadd _ b a d _ | .isub _ b a d _ | .imin _ b a d _ | .imax _ b a d _ =>
    wid != 1#2 || (evenReg b && evenReg a && evenReg d)
  | .icmp _ b a _ _ _ => wid != 1#2 || (evenReg b && evenReg a)
  | .iaddi _ a d _ => wid.toNat < 2 && (wid != 1#2 || (evenReg a && evenReg d))
  | .icmpi _ a _ _ _ => wid.toNat < 2 && (wid != 1#2 || evenReg a)
  | _ => true

/-- A bundle: its prefix fields and its instruction (spec/02 R28). -/
structure Bundle where
  pfx   : Pfx
  imm24 : Option (BitVec 24)
  instr : Instr
  deriving DecidableEq, Repr

/-- Whether a code word is a prefix word (spec/02 R28). -/
def isPrefixWord : CodeWord → Bool
  | .short _ => false
  | .long w => decide (0x3E ≤ majorOf w)

/-- The first `PFX` of a list of prefix words, if any. -/
def findPfx : List Word → Option Word
  | [] => none
  | w :: ws => if majorOf w = 0x3F then some w else findPfx ws

/-- The first `PFXI` of a list of prefix words, if any. -/
def findPfxi : List Word → Option Word
  | [] => none
  | w :: ws => if majorOf w = 0x3E then some w else findPfxi ws

/-- Whether prefix words obey R45: at most one of each kind, none with its marker set. -/
def prefixesLegal (ps : List Word) : Bool :=
  decide (ps.length ≤ 2) && ps.all (fun w => !(w.getLsbD 1)) &&
  (decide (ps.length < 2) || ((findPfx ps).isSome && (findPfxi ps).isSome))

/-- The prefix words and the last word of a delimited bundle (spec/02 R28). -/
def splitBundle : List CodeWord → List Word × Option CodeWord
  | [] => ([], none)
  | [w] => if isPrefixWord w then ((match w with | .long x => [x] | .short _ => []), none) else ([], some w)
  | w :: ws =>
    let r := splitBundle ws
    match w with
    | .long x => (x :: r.1, r.2)
    | .short _ => r

/-- The major of a bundle's instruction word; a short word is of no major. -/
def codeMajor : CodeWord → Option Nat
  | .short _ => none
  | .long w => some (majorOf w)

/-- Whether an instruction bars every prefix, one whose fields are all default too: `EVT` and `EVTM` (spec/14 R321, log entry 84). -/
def barsPrefix : Instr → Bool
  | .evt _ _ _ | .evtm _ _ _ => true
  | _ => false

/-- A delimited bundle decoded, by steps 2 to 4 of R53. `legal` stands for the checks of step 3 that need the machine's
state (R35). -/
def decodeBundle (legal : Pfx → Instr → Bool) (ws : List CodeWord) : Except DecodeError Bundle :=
  let (ps, last) := splitBundle ws
  let pfx := match findPfx ps with | some w => pfxOf w | none => pfxNone
  let imm := (findPfxi ps).map (fun w => w.extractLsb' 8 24)
  match last with
  | none => .error .illegalEncoding
  | some c =>
    let placed :=
      match codeMajor c with
      | none => ps.isEmpty
      | some maj => prefixesLegal ps && pfxLegal pfx maj && (imm.isNone || acceptsImm maj)
    match decodeWord c with
    | none => .error .illegalEncoding
    | some i =>
      if placed && (ps.isEmpty || !(barsPrefix i)) && immLegal imm i && widLegal pfx.wid i && legal pfx i then
        (if pfx.rsvd = 0#4 then .ok ⟨pfx, imm, i⟩ else .error .reservedField)
      else .error .illegalEncoding

/-! ### The encoder -/

/-- The word of an instruction; an event has none (spec/02 R40 to R42 and each entry). -/
def encode : Instr → Option CodeWord
  | .mov a d m => some (.short (shortWord 0#4 a d m))
  | .iaddShort a d m => some (.short (shortWord 1#4 a d m))
  | .isubShort a d m => some (.short (shortWord 2#4 a d m))
  | .andShort a d m => some (.short (shortWord 3#4 a d m))
  | .orShort a d m => some (.short (shortWord 4#4 a d m))
  | .xorShort a d m => some (.short (shortWord 5#4 a d m))
  | .shlShort a d m => some (.short (shortWord 6#4 a d m))
  | .shrlShort a d m => some (.short (shortWord 7#4 a d m))
  | .faddShort a d m => some (.short (shortWord 8#4 a d m))
  | .fsubShort a d m => some (.short (shortWord 9#4 a d m))
  | .fmulShort a d m => some (.short (shortWord 10#4 a d m))
  | .fmaxShort a d m => some (.short (shortWord 11#4 a d m))
  | .fminShort a d m => some (.short (shortWord 12#4 a d m))
  | .imulShort a d m => some (.short (shortWord 13#4 a d m))
  | .movi5 i d m => some (.short (shortWord 14#4 i d m))
  | .nop m => some (.short (shortWord 15#4 0#5 0#5 m))
  | .fadd t b a d m => some (.long (lvWord 0x00#6 (0#1 ++ fpTypeCode t) b a d m))
  | .fsub t b a d m => some (.long (lvWord 0x00#6 (1#1 ++ fpTypeCode t) b a d m))
  | .fmul t b a d m => some (.long (lvWord 0x01#6 (0#1 ++ fpTypeCode t) b a d m))
  | .fnmul t b a d m => some (.long (lvWord 0x01#6 (1#1 ++ fpTypeCode t) b a d m))
  | .fma t b a d m => some (.long (lvWord 0x02#6 (0#1 ++ fpTypeCode t) b a d m))
  | .fms t b a d m => some (.long (lvWord 0x02#6 (1#1 ++ fpTypeCode t) b a d m))
  | .fdiv t b a d m => some (.long (lvWord 0x03#6 (0#1 ++ fpTypeCode t) b a d m))
  | .frem t b a d m => some (.long (lvWord 0x03#6 (1#1 ++ fpTypeCode t) b a d m))
  | .fmin t b a d m => some (.long (lvWord 0x04#6 (0#1 ++ fpTypeCode t) b a d m))
  | .fmax t b a d m => some (.long (lvWord 0x04#6 (1#1 ++ fpTypeCode t) b a d m))
  | .fsqrt t a d m => some (.long (lvWord 0x05#6 (0#1 ++ fpTypeCode t) 0#7 a d m))
  | .frsq t a d m => some (.long (lvWord 0x05#6 (1#1 ++ fpTypeCode t) 0#7 a d m))
  | .fcmp t b a c p m => some (.long (lvWord 0x06#6 (0#1 ++ fpTypeCode t) b a (c ++ p) m))
  | .fcmpSig t b a c p m => some (.long (lvWord 0x06#6 (1#1 ++ fpTypeCode t) b a (c ++ p) m))
  | .fcvt r c a d m => some (.long (lvWord 0x07#6 r c a d m))
  | .ffn t c a d m => some (.long (lvWord 0x08#6 (0#1 ++ fpTypeCode t) c a d m))
  | .fscale t b a d m => some (.long (lvWord 0x09#6 (0#1 ++ fpTypeCode t) b a d m))
  | .flogb t a d m => some (.long (lvWord 0x09#6 (1#1 ++ fpTypeCode t) 0#7 a d m))
  | .fsgn t b a d m => some (.long (lvWord 0x0A#6 (0#1 ++ fpTypeCode t) b a d m))
  | .fclass t a d m => some (.long (lvWord 0x0A#6 (1#1 ++ fpTypeCode t) 0#7 a d m))
  | .rowopRedSum t q p m | .rowopRedMax t q p m | .rowopRedMin t q p m | .rowopRedLse t q p m
  | .rowopRedNorm t q p m | .rowopRedSsq t q p m => some (.long (leWord 0x0B#6 0#2 t q p m))
  | .rowopSmx t q p m => some (.long (leWord 0x0B#6 1#2 t q p m))
  | .rowopStat t q p m => some (.long (leWord 0x0B#6 2#2 t q p m))
  | .rowopUpd t q p m => some (.long (leWord 0x0B#6 3#2 t q p m))
  | .iadd k b a d m => some (.long (lvWord 0x0C#6 (0#1 ++ k) b a d m))
  | .isub k b a d m => some (.long (lvWord 0x0C#6 (1#1 ++ k) b a d m))
  | .imul k b a d m => some (.long (lvWord 0x0D#6 (0#1 ++ k) b a d m))
  | .imad k b a d m => some (.long (lvWord 0x0D#6 (1#1 ++ k) b a d m))
  | .idiv k b a d m => some (.long (lvWord 0x0E#6 (0#1 ++ k) b a d m))
  | .irem k b a d m => some (.long (lvWord 0x0E#6 (1#1 ++ k) b a d m))
  | .logic o b a d m => some (.long (lvWord 0x0F#6 o b a d m))
  | .shift o b a d m => some (.long (lvWord 0x10#6 o b a d m))
  | .imin k b a d m => some (.long (lvWord 0x11#6 (0#1 ++ k) b a d m))
  | .imax k b a d m => some (.long (lvWord 0x11#6 (1#1 ++ k) b a d m))
  | .icmp k b a c p m => some (.long (lvWord 0x12#6 (0#1 ++ k) b a (c ++ p) m))
  | .bits o a d m => some (.long (lvWord 0x13#6 o 0#7 a d m))
  | .bfeU b a d m => some (.long (lvWord 0x14#6 0#3 b a d m))
  | .bfeS b a d m => some (.long (lvWord 0x14#6 1#3 b a d m))
  | .bfi b a d m => some (.long (lvWord 0x14#6 2#3 b a d m))
  | .sel p b a d m => some (.long (lvWord 0x15#6 p b a d m))
  | .lea x c b a d m => some (.long (lvWord 0x16#6 (BitVec.ofBool x ++ c) b a d m))
  | .plop o b a d m => some (.long (lvWord 0x17#6 o (0#4 ++ b) (0#4 ++ a) (0#4 ++ d) m))
  | .iaddi i a d m => some (.long (liWord 0x18#6 i a d m))
  | .andi i a d m => some (.long (liWord 0x19#6 i a d m))
  | .ori i a d m => some (.long (liWord 0x1A#6 i a d m))
  | .xori i a d m => some (.long (liWord 0x1B#6 i a d m))
  | .shfi f n a d m => some (.long (liWord 0x1C#6 (f ++ 0#1 ++ n) a d m))
  | .icmpi i a c p m => some (.long (liWord 0x1D#6 i a (c ++ p) m))
  | .movil i d m => some (.long (lwWord 0x1E#6 i d m))
  | .movih i d m => some (.long (lwWord 0x1F#6 (0#1 ++ i) d m))
  | .shfl f b a d m => some (.long (lvWord 0x20#6 (0#1 ++ f) b a d m))
  | .vxsBcast w s d m => some (.long (lxWord 0x21#6 (0#2 ++ BitVec.ofBool w) 0#5 s d m))
  | .vxsReadf w s d m => some (.long (lxWord 0x21#6 (0#2 ++ BitVec.ofBool w) 1#5 s d m))
  | .vxsReadi w s d m => some (.long (lxWord 0x21#6 (0#2 ++ BitVec.ofBool w) 2#5 s d m))
  | .voteAny a d m => some (.long (lvWord 0x22#6 0#3 0#7 (0#4 ++ a) (0#4 ++ d) m))
  | .voteAll a d m => some (.long (lvWord 0x22#6 1#3 0#7 (0#4 ++ a) (0#4 ++ d) m))
  | .voteBallot a d m => some (.long (lvWord 0x22#6 2#3 0#7 (0#4 ++ a) d m))
  | .voteEq a d m => some (.long (lvWord 0x22#6 3#3 0#7 a (0#4 ++ d) m))
  | .gred o t a d m => some (.long (lvWord 0x23#6 o t a d m))
  | .ldg o z b a d m => some (.long (lmWord 0x24#6 o z b a d m))
  | .ldm8 o b a d m => some (.long (lmWord 0x24#6 o 7#3 b a d m))
  | .stg o z b a d m => some (.long (lmWord 0x25#6 o z b a d m))
  | .ldt o z b a d m => some (.long (lmWord 0x26#6 o z b a d m))
  | .stt o z b a d m => some (.long (lmWord 0x27#6 o z b a d m))
  | .ldp o z b a d m => some (.long (lmWord 0x28#6 o z b a d m))
  | .stp o z b a d m => some (.long (lmWord 0x29#6 o z b a d m))
  | .atom f w b a d m => some (.long (laWord 0x2A#6 f w b a d m))
  | .atomxUmax w b a d m => some (.long (laWord 0x2B#6 0#3 w b a d m))
  | .atomxCas w b a d m => some (.long (laWord 0x2B#6 1#3 w b a d m))
  | .atomxFadd w b a d m => some (.long (laWord 0x2B#6 2#3 w b a d m))
  | .atomxFadda w b a s m => some (.long (laWord 0x2B#6 3#3 w b a (0#6 ++ BitVec.ofBool s) m))
  | .atomxLr w a d m => some (.long (laWord 0x2B#6 4#3 w 0#6 a d m))
  | .atomxSc w b a d m => some (.long (laWord 0x2B#6 5#3 w b a d m))
  | .atomxFmax w b a d m => some (.long (laWord 0x2B#6 6#3 w b a d m))
  | .atomxFmin w b a d m => some (.long (laWord 0x2B#6 7#3 w b a d m))
  | .cachePref b a n m => some (.long (lmWord 0x2C#6 0#2 0#3 b a n m))
  | .cacheLinv b a n m => some (.long (lmWord 0x2C#6 0#2 1#3 b a n m))
  | .cachePwb b a n m => some (.long (lmWord 0x2C#6 0#2 2#3 b a n m))
  | .cachePinv b a n m => some (.long (lmWord 0x2C#6 0#2 3#3 b a n m))
  | .copyLoad t q p m => some (.long (leWord 0x2D#6 0#2 t q p m))
  | .copyStore t q p m => some (.long (leWord 0x2D#6 1#2 t q p m))
  | .copyMove t q p m => some (.long (leWord 0x2D#6 2#2 t q p m))
  | .copyNetred t q p m => some (.long (leWord 0x2D#6 3#2 t q p m))
  | .mma t q p m => some (.long (leWord 0x2E#6 0#2 t q p m))
  | .mmat t q p m => some (.long (leWord 0x2E#6 1#2 t q p m))
  | .wload t q p m => some (.long (leWord 0x2E#6 2#2 t q p m))
  | .accxSt t q p m | .accxLd t q p m | .accxAdd t q p m | .accxZero t q p m =>
    some (.long (leWord 0x2E#6 3#2 t q p m))
  | .quant t q p m => some (.long (leWord 0x2F#6 0#2 t q p m))
  | .deq t q p m => some (.long (leWord 0x2F#6 1#2 t q p m))
  | .qpair t q p m => some (.long (leWord 0x2F#6 2#2 t q p m))
  | .cvtt t q p m => some (.long (leWord 0x2F#6 3#2 t q p m))
  | .salu f s d m => some (.long (lsWord 0x30#6 f s d m))
  | .simm i f d m => some (.long (ltWord 0x31#6 i f d m))
  | .smemLoad f s d m | .smemStore f s d m => some (.long (lsWord 0x32#6 f s d m))
  | .ssysRd s d m => some (.long (lsWord 0x33#6 0#6 s d m))
  | .ssysWr s d m => some (.long (lsWord 0x33#6 1#6 s d m))
  | .ssysRd64 s d m => some (.long (lsWord 0x33#6 2#6 s d m))
  | .ssysWr64 s d m => some (.long (lsWord 0x33#6 3#6 s d m))
  | .ssysMbrd s d m => some (.long (lsWord 0x33#6 4#6 s d m))
  | .ssysMbwr s d m => some (.long (lsWord 0x33#6 5#6 s d m))
  | .ssysVrd s d m => some (.long (lsWord 0x33#6 6#6 s (0#2 ++ d) m))
  | .ssysVwr s d m => some (.long (lsWord 0x33#6 7#6 s (0#2 ++ d) m))
  | .bra o m => some (.long (lcWord 0x34#6 o m))
  | .call o m => some (.long (lcWord 0x35#6 o m))
  | .brc o n p m => some (.long (lbWord 0x36#6 o n p m))
  | .bru o z s m => some (.long (luWord 0x37#6 o z s m))
  | .ret m => some (.long (lxWord 0x38#6 0#3 0#5 0#9 0#7 m))
  | .jmpr x d m => some (.long (lxWord 0x38#6 (0#2 ++ BitVec.ofBool x) 1#5 0#9 d m))
  | .meet x s d m => some (.long (lxWord 0x38#6 x 2#5 s d m))
  | .exit m => some (.long (lxWord 0x38#6 0#3 3#5 0#9 0#7 m))
  | .next k d m => some (.long (lxWord 0x38#6 k 4#5 0#9 d m))
  | .spawn k d m => some (.long (lxWord 0x38#6 k 5#5 0#9 d m))
  | .susp s d m => some (.long (lxWord 0x38#6 0#3 6#5 s d m))
  | .yield m => some (.long (lxWord 0x38#6 0#3 7#5 0#9 0#7 m))
  | .fuse s d m => some (.long (lsWord 0x39#6 0#6 s d m))
  | .split p d m => some (.long (lsWord 0x39#6 1#6 (0#6 ++ p) d m))
  | .elect p d m => some (.long (lsWord 0x39#6 2#6 (0#6 ++ p) d m))
  | .gsync m => some (.long (lsWord 0x39#6 3#6 0#9 0#9 m))
  | .ginfo s d m => some (.long (lsWord 0x39#6 4#6 s d m))
  | .barArrive l n m => some (.long (lsWord 0x3A#6 (l ++ 0#2 ++ 0#2) 0#9 n m))
  | .barWait l n m => some (.long (lsWord 0x3A#6 (l ++ 1#2 ++ 0#2) 0#9 n m))
  | .barSync l n m => some (.long (lsWord 0x3A#6 (l ++ 2#2 ++ 0#2) 0#9 n m))
  | .fenceTeam m => some (.long (lsWord 0x3B#6 0#6 0#9 0#9 m))
  | .fenceCrew m => some (.long (lsWord 0x3B#6 1#6 0#9 0#9 m))
  | .fenceDev m => some (.long (lsWord 0x3B#6 2#6 0#9 0#9 m))
  | .fenceSys m => some (.long (lsWord 0x3B#6 3#6 0#9 0#9 m))
  | .waitt s t m => some (.long (lsWord 0x3B#6 4#6 s (0#3 ++ t) m))
  | .tlsig t m => some (.long (lsWord 0x3B#6 5#6 0#9 (0#3 ++ t) m))
  | .waitv m => some (.long (lsWord 0x3B#6 6#6 0#9 0#9 m))
  | .succok m => some (.long (lsWord 0x3B#6 7#6 0#9 0#9 m))
  | .cset s c m => some (.long (lsWord 0x3B#6 8#6 s (0#5 ++ c) m))
  | .csign s c m => some (.long (lsWord 0x3B#6 9#6 s (0#5 ++ c) m))
  | .garm g m => some (.long (lsWord 0x3B#6 10#6 0#9 (0#5 ++ g) m))
  | .gset s g m => some (.long (lsWord 0x3B#6 11#6 s (0#5 ++ g) m))
  | .dropen s n m => some (.long (lsWord 0x3C#6 0#6 s (0#5 ++ n) m))
  | .drclose n m => some (.long (lsWord 0x3C#6 1#6 0#9 (0#5 ++ n) m))
  | .dmode d m => some (.long (lsWord 0x3C#6 2#6 0#9 (0#7 ++ d) m))
  | .adjrd s d m => some (.long (lsWord 0x3C#6 3#6 s d m))
  | .adjclr s d m => some (.long (lsWord 0x3C#6 4#6 s d m))
  | .tapeposRdhead d m => some (.long (lsWord 0x3C#6 5#6 0#9 d m))
  | .tapeposWrhead d m => some (.long (lsWord 0x3C#6 5#6 1#9 d m))
  | .tapeposRdseg n d m => some (.long (lsWord 0x3C#6 5#6 (0#1 ++ n ++ 2#4) d m))
  | .tapeposWrseg n d m => some (.long (lsWord 0x3C#6 5#6 (0#1 ++ n ++ 3#4) d m))
  | .sysNop m => some (.long (lsWord 0x3D#6 0#6 0#9 0#9 m))
  | .trap n m => some (.long (lsWord 0x3D#6 1#6 0#9 (0#1 ++ n) m))
  | .bkpt n m => some (.long (lsWord 0x3D#6 2#6 0#9 (0#1 ++ n) m))
  | .rtrap m => some (.long (lsWord 0x3D#6 3#6 0#9 0#9 m))
  | .evt s c m => some (.long (lsWord 0x3D#6 4#6 s (0#1 ++ c) m))
  | .evtm s c m => some (.long (lsWord 0x3D#6 5#6 s (0#1 ++ c) m))
  | _ => none

/-- A `PFX` word (spec/02 R44). -/
def pfxWord (p : Pfx) : Word :=
  p.rsvd ++ p.hint ++ BitVec.ofBool p.nt ++ p.wid ++ BitVec.ofBool p.gen ++ p.gslot ++ p.rnd ++ BitVec.ofBool p.pen ++
    BitVec.ofBool p.pneg ++ p.pidx ++ 0x3F#6 ++ 0#1 ++ 1#1

/-- A `PFXI` word (spec/02 R44). -/
def pfxiWord (i : BitVec 24) : Word := i ++ 0x3E#6 ++ 0#1 ++ 1#1

/-- The halfwords of a code word, in the order they are stored (spec/02 R26). -/
def codeHalves : CodeWord → List Half
  | .short h => [h]
  | .long w => [w.extractLsb' 0 16, w.extractLsb' 16 16]

/-- The bytes of a halfword, least significant first (spec/02 R26). -/
def halfBytes (h : Half) : List Byte := [h.extractLsb' 0 8, h.extractLsb' 8 8]

/-- The bytes of a code word in memory (spec/02 R26). -/
def codeBytes (c : CodeWord) : List Byte := (codeHalves c).flatMap halfBytes

/-- The code word of a stored first halfword and of the halfword after it: the length bit selects (spec/02 R26). -/
def codeWordOf (h0 h1 : Half) : CodeWord := if h0.getLsbD 0 then .long (h1 ++ h0) else .short h0

/-- The code word whose bits, numbered as spec/opcode_table.json numbers them, are `w`. -/
def codeWordOfBits (w : Nat) : CodeWord := codeWordOf (BitVec.ofNat 16 w) (BitVec.ofNat 16 (w / 2 ^ 16))

/-- The bytes of the word with bits `w`, as the hardware stores them: two of a short word, four of a long one. -/
def tableWordBytes (w : Nat) : List Byte := codeBytes (codeWordOfBits w)

/-- The code words of a byte string, in order; `fuel` bounds their number. -/
def wordsOfBytes : Nat → List Byte → List CodeWord
  | 0, _ => []
  | fuel + 1, b0 :: b1 :: rest =>
    let h0 : Half := b1 ++ b0
    if h0.getLsbD 0 then
      match rest with
      | b2 :: b3 :: rest' => .long ((b3 ++ b2 : Half) ++ h0) :: wordsOfBytes fuel rest'
      | _ => []
    else .short h0 :: wordsOfBytes fuel rest
  | _ + 1, _ => []

/-- The instruction the decoder reads from a word whose bits are `w`, laid out as the hardware stores it. `nbits` of them
are given; a code word carries its own length bit, so the others do not matter. -/
def decodeTableWord (nbits w : Nat) : Option Instr :=
  match decodeBundle (fun _ _ => true) (wordsOfBytes 1 (tableWordBytes (w % 2 ^ nbits))) with
  | .ok b => some b.instr
  | .error _ => none

end Sys2Proof
end

