-- ==== Sys2Proof/Machine/Sparse.lean ====
section
/-! DEFINITION. Sparse maps as plain data: lists of (key, value) pairs in one canonical form, with strictly rising keys
and no entry equal to what an unlisted key reads as. -/

namespace Sys2Proof.Machine

/-- A sparse map from numbers to `α`, as a list. -/
abbrev Sparse (α : Type) := List (Nat × α)

/-- Whether a sparse map is in canonical form: keys strictly rising and above `lo`, no default value listed. -/
def sparseWfFrom {α : Type} [DecidableEq α] (d : α) (lo : Nat) : Sparse α → Bool
  | [] => true
  | (k, v) :: r => decide (lo ≤ k) && decide (v ≠ d) && sparseWfFrom d (k + 1) r

/-- The canonical form of a sparse map whose unlisted keys read `d`. -/
def sparseWf {α : Type} [DecidableEq α] (d : α) (m : Sparse α) : Bool := sparseWfFrom d 0 m

/-- What key `k` reads as. -/
def sparseGet {α : Type} (d : α) (m : Sparse α) (k : Nat) : α :=
  match m with
  | [] => d
  | (k', v) :: r => if k' = k then v else if k < k' then d else sparseGet d r k

/-- The map with key `k` holding `v`; a default value removes the entry. -/
def sparseSet {α : Type} [DecidableEq α] (d : α) (m : Sparse α) (k : Nat) (v : α) : Sparse α :=
  match m with
  | [] => if v = d then [] else [(k, v)]
  | (k', v') :: r =>
    if k' < k then (k', v') :: sparseSet d r k v
    else if k' = k then (if v = d then r else (k, v) :: r)
    else if v = d then (k', v') :: r else (k, v) :: (k', v') :: r

/-- Several keys set in turn. -/
def sparseSetAll {α : Type} [DecidableEq α] (d : α) (m : Sparse α) (l : List (Nat × α)) : Sparse α :=
  l.foldl (fun m kv => sparseSet d m kv.1 kv.2) m

/-- Consecutive keys from `k` set to the elements of a list. -/
def sparseWriteRun {α : Type} [DecidableEq α] (d : α) (m : Sparse α) (k : Nat) : List α → Sparse α
  | [] => m
  | v :: vs => sparseWriteRun d (sparseSet d m k v) (k + 1) vs

/-- The values of `n` consecutive keys from `k`. -/
def sparseReadRun {α : Type} (d : α) (m : Sparse α) (k : Nat) : Nat → List α
  | 0 => []
  | n + 1 => sparseGet d m k :: sparseReadRun d m (k + 1) n

end Sys2Proof.Machine
end

