-- ==== Sys2Proof/Machine/State.lean ====
section
/-! DEFINITION. The state of the K4 as plain data: everything the spec gives the machine, and the model's own fields,
which say so. INVENTORY.md lists every field with its rule and its reset value. -/

namespace Sys2Proof.Machine

/-! ### Memory -/

/-- Memory as (address, byte) pairs in canonical form. An unlisted address reads 0 (log entry 4). -/
abbrev Memory := Sparse Byte

/-- What an unlisted byte of memory reads as: the spec gives no contents before the first write (DESIGN CHOICE 0, log
entry 4). -/
def memDefault : Byte := 0#8

/-- The canonical form of a memory. -/
def Memory.wf (m : Memory) : Bool := sparseWf memDefault m

/-! ### Threads -/

/-- A register in flight (spec/02 R30, R31): a destination with its result once it has returned, or a data register;
`clobbered` when it was written meanwhile. -/
structure Inflight where
  op        : Nat
  reg       : Nat
  data      : Bool
  clobbered : Bool
  result    : Option Word
  deriving DecidableEq, Repr

/-- A pending element of a vector register (spec/05 R112): the register, the lane of a packed register or both. -/
structure PendElem where
  reg  : Nat
  half : Nat
  fmt  : Nat
  seq  : Word
  deriving DecidableEq, Repr

/-- A trap's code and the ADDR and INFO fields of its frame (spec/20 R433). `pc` is the bundle that caused it, `npc` the
resume address and `defer` the mark of a trap raised at a marker (spec/20 R435). -/
structure TrapInfo where
  code : Nat
  addr : Dword
  info : Word
  pc   : Dword
  npc  : Dword
  dfr  : Bool
  deriving DecidableEq, Repr

/-- One thread (spec/00 R12, spec/02 R33, spec/06 R143). `uid` is the model's own name of it. `tidx` is its t of spec/11
R252, none for a spawned thread; `lastPc` is its last bundle address (spec/11 R487); `spawned` says that it has created its thread at a
`SPAWN` that holds its path for the others' slots (spec/16 R351); `owes` names its stores that a destination has not acknowledged yet,
issued in a gang that it has left (spec/11 R237). -/
structure Thread where
  uid       : Nat
  lpos      : Nat
  v         : Sparse Word
  preds     : BitVec 8
  meet      : Dword
  link      : Dword
  tid       : Dword
  tidx      : Option Nat
  inHandler : Bool
  inflight  : List Inflight
  pend      : List PendElem
  poison    : List Nat
  lr        : Option (Nat × Nat)
  lastPage  : Option (Nat × Nat × Dword)
  lastPc    : Dword
  spawned   : Bool
  owes      : List Nat
  dfrTrap   : Option TrapInfo
  deriving DecidableEq, Repr

/-! ### Holds -/

/-- What a held path waits for (spec/16 R336). `ids` name outstanding accesses. -/
inductive Cond where
  /-- The results of the path's own threads (spec/02 R29). -/
  | results
  /-- A fence of scope 0 to 3 over the accesses outstanding when it issued (spec/11 R238). -/
  | fence (scope : Nat) (ids : List Nat)
  /-- The timeline counter has reached a value (spec/12 R278). -/
  | timeline (t : Nat) (n : Dword)
  /-- Every predecessor grid has ended (spec/17 R381). -/
  | predecessors
  /-- The threads' barrier phase has completed (spec/16 R354): the key of the barrier and the phase waited for. -/
  | barrier (key : Nat) (phase : Nat)
  /-- The siblings stand at the meeting address (spec/16 R341). -/
  | meet
  /-- Every thread of the gang stands at a `GSYNC` (spec/17 R378). -/
  | gsync
  /-- The partners of a `FUSE` (spec/17 R375). -/
  | fuse (key : Word) (n : Nat)
  /-- No element of the path's threads is pending (spec/05 R114). -/
  | resolved
  /-- No element of the gang is pending, and its reductions and floating-point atomics have returned (spec/04 R101). -/
  | flagsSettled
  /-- The write-through buffer has room for `n` stores (spec/16 R359). -/
  | bufferSlot (n : Nat)
  /-- The engine's queue has a free slot: 0 matrix, 1 row, 2 copy (spec/16 R359). -/
  | queueSlot (unit : Nat)
  /-- The den area has `n` free slots (spec/16 R351). -/
  | denArea (n : Nat)
  /-- A gang slot with room for a gang of `size` is free, `less` threads moving into it (spec/17 R376). -/
  | gangSlot (size less : Nat)
  /-- The die's wait table has `n` free entries (spec/20 R421). -/
  | waitSlot (n : Nat)
  /-- The trace buffer has a free record (spec/14 R317). -/
  | traceSlot
  /-- Accesses or engine commands of the path have finished: acquire, `ADJRD`, `PKR` and their like. -/
  | done (ids : List Nat)
  /-- The mode barrier (spec/13 R297). -/
  | modeBarrier (phase : Nat)
  deriving DecidableEq, Repr

/-- What a path does when its hold ends: go on at its program counter (`m`: past the bundle's marker too), run its bundle
again, or take a trap there. -/
inductive After where
  | go (m : Bool)
  | again
  | trap (t : TrapInfo)
  deriving DecidableEq, Repr

/-- A hold: its condition and what follows it. -/
structure Hold where
  cond  : Cond
  after : After
  deriving DecidableEq, Repr

/-- Entry `ent` of the path table (spec/16 R338). `passed` says that the waits of the bundle at `pc` are over (the model's own
mark of a release that has waited); `met` that it was released at its meeting address (spec/16 R341); `sub` counts the stores of the bundle
at `pc` that have entered the write-through buffer, of an `ADJCLR` that fills it (spec/13 R302, spec/16 R359). -/
structure Path where
  ent    : Nat
  pc     : Dword
  mask   : Nat
  hold   : Option Hold
  passed : Bool
  met    : Bool
  sub    : Nat
  deriving DecidableEq, Repr

/-- Why a sub-gang is parked (spec/00 R9; spec/05 R113; spec/20 R422). -/
inductive ParkCause where
  /-- A pending element of the thread at a position, by its entry's sequence number: the thread may leave the gang before it resolves. -/
  | elem (lpos reg half : Nat) (seq : Word)
  /-- A fault: the wait-table key (page or token), and the fault. -/
  | fault (byPage : Bool) (key : Nat) (kind : FaultKind)
  /-- No path-table entry in a taped mode (spec/13 R298). -/
  | noEntry
  /-- On the way to a den: its results have not returned, or no den is free (spec/16 R348, spec/17 R369). -/
  | noDen
  /-- On the way to a trap's delivery: held as at a marker (spec/20 R434). -/
  | trapWait
  deriving DecidableEq, Repr

/-- A parked sub-gang (spec/16 R348; spec/20 R422). `addrs` keeps each faulting thread's position and address for the trap of a
`REPLAY` of MODE 1 (spec/20 R431, R433); `mark` says that its results have to return before it issues, since a marked branch sent it
here (spec/02 R29); `met` that it has issued its bundle before, past its meeting address (spec/16 R341). -/
structure Parked where
  uid      : Nat
  mask     : Nat
  pc       : Dword
  cause    : ParkCause
  k        : Nat
  trap     : Option TrapInfo
  released : Bool
  addrs    : List (Nat × Nat)
  mark     : Bool
  met      : Bool
  deriving DecidableEq, Repr

/-! ### Outstanding accesses -/

/-- One lane's part of an access: its address, its home attribute, its target kind (spec/19 R404; 7 stands for a
system-atomic page of device memory) and peer, its size in bytes, its offset in the lane's access, its first register, and its
data (`x` the lower eight bytes, `y` the upper ones; for a compare and swap `y` the new value; for one byte of a load `x` the
byte and `y` 1 once it has been read). Position 64 stands for scalar registers, register 1024 for data that no register
holds. -/
structure LanePart where
  lpos   : Nat
  va     : Nat
  pa     : Nat
  home   : Nat
  tgt    : Nat
  dev    : Nat
  size   : Nat
  off    : Nat
  reg    : Nat
  x      : Dword
  y      : Dword
  deriving DecidableEq, Repr

/-- What an outstanding operation of a gang is. -/
inductive OutKind where
  /-- A global load: size code, order code. -/
  | load (size : Nat) (streaming : Bool)
  /-- A team-memory load. -/
  | loadTeam (size : Nat)
  /-- A private load. -/
  | loadPriv (size : Nat)
  /-- An `SMEM` load of 1, 2 or 4 words. -/
  | loadScalar (words : Nat)
  /-- A gang reduction (spec/06 R138): operation and type. -/
  | gred (op ty : Nat)
  /-- An atomic group at one address (spec/12 R267, R268). -/
  | atomic (op : AtomicOp) (wide : Bool) (rm : RMode) (anchor : Int)
  /-- A store in the write-through buffer (spec/11 R233). -/
  | store
  /-- A store or atomic that the system coherence point or a peer acknowledges (spec/11 R244, R270). -/
  | external
  /-- A crew-remote store (spec/12 R262). -/
  | crewStore
  /-- The read of `ADJRD` (spec/13 R302). -/
  | adjRead
  /-- The scalar registers of a posted engine command, in flight until the posting threads' marker (spec/02 R30). -/
  | command
  /-- A store to the executing team's memory, performed at once, whose data registers are in flight until the marker (spec/12
  R262). -/
  | localTeam
  /-- A private store, likewise. -/
  | localPriv
  /-- A write of `PKR` that has not reached every core and engine (spec/19 R412): the value is the part's `x`. -/
  | pkrWrite
  deriving DecidableEq, Repr

/-- A result on its way back from the unit that performed an access (spec/14 R308): the tick it arrives at the earliest, its thread, or 64
for the gang's scalar registers, the registers with their values and those that are poisoned, the flags, whether a contribution is lost,
the trap to come, and whether it is of the steps of an `LDM8` that faulted. -/
structure Answer where
  due     : Nat
  lpos    : Nat
  regs    : List (Nat × Word)
  bad     : List Nat
  flags   : Flags
  lost    : Bool
  trap    : Option TrapInfo
  stepped : Bool
  deriving DecidableEq, Repr

/-- An outstanding operation of a gang: a load, a store, an atomic, a reduction. `whole` says that its parts are one event
(spec/11 R245); otherwise each part is an event of its own. `got` holds the results that are on their way back. -/
structure OutOp where
  id    : Nat
  kind  : OutKind
  pc    : Dword
  mask  : Nat
  whole : Bool
  parts : List LanePart
  born  : Nat
  got   : List Answer
  deriving DecidableEq, Repr

/-- The tape record that a line of a taped store leaves when it is performed (spec/13 R289, R292): its fields but for OLD, and where its
bytes go (`off` counts from its start). -/
structure TapeRec where
  entry : Nat
  link  : Nat
  line  : Nat
  hmask : Nat
  team  : Nat
  ix    : Nat
  seq   : Nat
  parts : List LanePart
  deriving DecidableEq, Repr

/-- A store held in a core's write-through buffer: one event at its home slice, or, where it is not `whole`, one event for
each byte (spec/11 R233, R245, R246). `tape` is the record that a line of a taped store in FWD leaves (spec/13 R292). -/
structure BufStore where
  id    : Nat
  core  : Nat
  slot  : Nat
  ctx   : Nat
  grid  : Nat
  whole : Bool
  parts : List LanePart
  born  : Nat
  tape  : Option TapeRec
  deriving DecidableEq, Repr

/-! ### Gangs -/

/-- An operation that has the gang's `GWCT` in flight (spec/02 R30): the threads that have not passed their marker since, and the
value before it. -/
structure GwctFly where
  op   : Nat
  mask : Nat
  old  : Dword
  deriving DecidableEq, Repr

/-- One gang (spec/02 R37, spec/16 R343). `team` is none in a gang of free threads. The engine command queue of the gang is
the part of `State.cmds` that names its `uid` (the model's own name of it). -/
structure Gang where
  uid      : Nat
  core     : Nat
  slot     : Nat
  pipe     : Nat
  ctx      : Nat
  grid     : Nat
  team     : Option Nat
  ix       : Nat
  size     : Nat
  sregs    : Sparse Word
  sflight  : List Inflight
  spoison  : List Nat
  rm       : Word
  fstat    : Word
  anchor   : Word
  nfcnt    : Word
  gwct     : Dword
  gwctFly  : List GwctFly
  escb     : Word
  escs     : Word
  escpr    : Word
  escqs    : Word
  trstl    : Word
  tapeHead : Dword
  tapeSeq  : BitVec 21
  wake     : Nat
  threads  : List Thread
  paths    : List Path
  curPath  : Nat
  quantum  : Nat
  parked   : List Parked
  out      : List OutOp
  deriving DecidableEq, Repr

/-! ### Teams, crews, grids -/

/-- A barrier (spec/16 R353, R354): its phase, for each thread the phase it last arrived in, and the tick at which its last phase completed
(spec/14 R308). -/
structure Barrier where
  key     : Nat
  phase   : Nat
  arrived : List (Nat × Nat)
  doneAt  : Nat
  deriving DecidableEq, Repr

/-- A `BARDONE` event that is to come on a core when the message of the completion arrives (spec/14 R308, R311): its payload, its launch tag
and the gang whose action completed the barrier. -/
structure BarDone where
  core    : Nat
  ctx     : Nat
  payload : Nat
  tag     : Dword
  actor   : Option (Nat × Nat)
  due     : Nat
  deriving DecidableEq, Repr

/-- A convergence register (spec/10 R223): the set size, the count, and the first posting of the round. -/
structure Conv where
  size  : Nat
  count : Nat
  first : Option Nat
  deriving DecidableEq, Repr

/-- A guard slot (spec/17 R382). -/
inductive Guard where
  | isPending | isTrue | isFalse
  deriving DecidableEq, Repr

/-- A resident team (spec/16 R357). `uid` is the model's own name of its placement. `live` holds the threads that have not exited; `modeReq` the modes asked for at the
mode barrier (spec/13 R297). -/
structure Team where
  uid     : Nat
  ctx     : Nat
  grid    : Nat
  index   : Nat
  crew    : Nat
  rank    : Nat
  core    : Nat
  mem     : Memory
  poison  : List Nat
  bars    : List Barrier
  conv    : Sparse Conv
  guards  : Sparse Guard
  dmode   : Nat
  modeReq : List (Nat × Nat)
  tiles   : List Nat
  slices  : List Nat
  live    : List Nat
  retired : Bool
  deriving DecidableEq, Repr

/-- A crew of one to four teams (spec/16 R353). -/
structure Crew where
  ctx     : Nat
  grid    : Nat
  index   : Nat
  cluster : Nat
  bars    : List Barrier
  deriving DecidableEq, Repr

/-- The fields of a kernel descriptor that outlive acceptance (spec/03 R68). -/
structure Kernel where
  entry  : Dword
  clist  : Dword
  gang   : Nat
  team   : Nat
  crew   : Nat
  vregs  : Nat
  acc    : Nat
  argw   : Nat
  tmem   : Nat
  l1min  : Nat
  pwords : Nat
  deriving DecidableEq, Repr

/-- The fields of a launch record (spec/03 R69). -/
structure Launch where
  tag     : Dword
  early   : Bool
  cores   : Bool
  pri     : Nat
  doneN   : Nat
  nteams  : Nat
  gtab    : Dword
  trapent : Dword
  pbase   : Dword
  args    : Dword
  kdesc   : Dword
  deriving DecidableEq, Repr

/-- A continuation record that its grid keeps (spec/16 R349): its address, whether that is a virtual one of its tenant (a record of
`SUSP`) or a place in the den area (a record of `SPAWN`), its timer index (R346), and the stores of its thread that are not acknowledged yet (spec/11 R237). -/
structure ContRec where
  addr : Nat
  virt : Bool
  k    : Nat
  owes : List Nat
  deriving DecidableEq, Repr

/-- A grid, from its acceptance to its end (spec/03 R71, spec/16 R358). `index` is its launch log index, `node` the node
that launched it, `uid` the model's own name of it, `logCopy` the address of its launch record's copy in the log, 0 where there
is none (R70), `placed` the number of its teams placed, `noDec` says that its DONE node was refused early (spec/18 R390), `groups` the valid group entries' members. `tlAt` holds the ticks of each timeline's latest advances, `succAt` and `predsAt` those of
`SUCCOK` and of the last predecessor's end, from which their messages count (spec/14 R308). -/
structure Grid where
  uid       : Nat
  ctx       : Nat
  index     : Nat
  launch    : Launch
  kernel    : Kernel
  argWords  : List Word
  logCopy   : Dword
  node      : Option Nat
  placed    : Nat
  lastClus  : Option Nat
  started   : Bool
  waitFrom  : Option Nat
  blocked   : Bool
  tls       : Sparse (Dword × Nat)
  tlAt      : Sparse (List Nat)
  succok    : Bool
  succAt    : Nat
  preds     : List Nat
  predsAt   : Nat
  noDec     : Bool
  groups    : Sparse (Option (List Nat))
  gwct      : Dword
  conts     : List ContRec
  bars      : List Barrier
  freeLive  : List Nat
  killed    : Option Nat
  teamsDone : Nat
  heard     : Nat
  deriving DecidableEq, Repr

/-! ### Dens -/

/-- A thread waiting in a den: a team or core-bound thread with its state, or a continuation record in memory (spec/16
R345). -/
inductive DenItem where
  | thread (t : Thread) (k : Nat)
  | record (r : ContRec) (slot : Option Nat)
  deriving DecidableEq, Repr

/-- Who owns a den (spec/16 R345; spec/17 R369). -/
inductive DenOwner where
  | team (index : Nat)
  | free
  | freeOnCore (core : Nat)
  deriving DecidableEq, Repr

/-- A den (spec/16 R345, R346). `expiry` is the tick its timer expires at; `waiting` holds since when it waits for a slot. -/
structure Den where
  id      : Nat
  cluster : Nat
  ctx     : Nat
  grid    : Nat
  pc      : Dword
  owner   : DenOwner
  items   : List DenItem
  expiry  : Nat
  waiting : Option Nat
  full    : Bool
  deriving DecidableEq, Repr

/-! ### Engines -/

/-- The engine commands. -/
inductive EngKind where
  | row (fn : Nat)
  | copy (fn : Nat)
  | mma | mmat | wload | accx
  | qnt (fn : Nat)
  deriving DecidableEq, Repr

/-- How far a command has come. -/
inductive EngStage where
  /-- The first posting of a convergence round that is not filled (spec/09 R199). -/
  | forming
  /-- Posted, in its gang's queue or its engine's queue. -/
  | queued
  /-- Granted by Rook, or started by its engine. -/
  | running
  /-- All of its units are done; its elements and writes may still be outstanding. -/
  | finished
  /-- To be discarded with error status, or as a false guard says. -/
  | dropped (err : Bool)
  deriving DecidableEq, Repr

/-- A message of a copy command to a peer device: a read request with its data once it has come, or a store that is not
acknowledged (spec/12 R274, spec/15 R323, R324). -/
structure FarOp where
  id   : Nat
  dev  : Nat
  pa   : Nat
  size : Nat
  data : Option (List Byte)
  deriving DecidableEq, Repr

/-- An engine command (spec/08 R169, spec/10 R203, spec/12 R272). `ops` are the captured scalar registers by number; `unit`
counts chunks or units done; `key` is the wait-table key it is held under; `aged` says that Rook
treats it as priority 3 (spec/09 R197); `order` numbers the grants and starts of its engine;
`aux` holds what the engine has read at the start and the counts of its status word; `far` its requests to peers, `acks` its
stores to them. -/
structure EngCmd where
  id      : Nat
  kind    : EngKind
  ctx     : Nat
  grid    : Nat
  team    : Option Nat
  gang    : Nat
  core    : Nat
  slot    : Nat
  cluster : Nat
  pc      : Dword
  tl      : Nat
  guard   : Option Nat
  sampled : Option Bool
  ops     : List (Nat × Word)
  rm      : RMode
  anchor  : Word
  stage   : EngStage
  readyAt : Option Nat
  unit    : Nat
  units   : Nat
  err     : Bool
  flags   : Flags
  aged    : Bool
  gwct    : Nat
  key     : Option (Bool × Nat)
  entered : Bool
  joins   : List Nat
  order   : Nat
  aux     : List Nat
  far     : List FarOp
  acks    : List FarOp
  born    : Nat
  deriving DecidableEq, Repr

/-- An element in the parking queue (spec/05 R107), with the stage that decides it, its result and its flags, which its
payload determines (R103, R104; the model's own fields). `payload` holds the operands in the order in which R108 lays them out, `place`
where an element of a row or a `.st` element goes, `opnds` the operands that its approximation depends on, `near` its result under
round-to-nearest-even (the model's own). Stage 4 says that it waits in the fast unit for room in the queue
(R109). -/
structure ParkEntry where
  cluster : Nat
  seq     : Word
  stage   : Nat
  kind    : Nat
  ctx     : Nat
  core    : Nat
  slot    : Nat
  lane    : Nat
  reg     : Nat
  half    : Nat
  tile    : Nat
  elem    : Nat
  rm      : RMode
  fmt     : Nat
  opc     : Nat
  parts   : Nat
  ptime   : Nat
  since   : Nat
  payload : List Nat
  place   : List Nat
  cmd     : Nat
  decider : Nat
  result  : Nat
  flags   : Flags
  opnds   : List Nat
  near    : FRes
  soft    : Bool
  deriving DecidableEq, Repr

/-- One trace record on its way to a sink (spec/14 R309, R317): `hold` is the gang, by core and slot, that it holds while its buffer is
full, since clock `since`; `mode` and `sink` the MODE and SINK of `TRCFG` when its event was generated (R313). -/
structure TraceRec where
  src   : TraceSource
  ctx   : Nat
  sys   : Bool
  bytes : List Byte
  hold  : Option (Nat × Nat)
  since : Nat
  mode  : Nat
  sink  : Nat
  deriving DecidableEq, Repr

/-! ### Caches -/

/-- A line under a lease (spec/11 R229, R230). -/
structure CacheLine where
  holder : Holder
  line   : Nat
  bytes  : List Byte
  expiry : Nat
  deriving DecidableEq, Repr

/-- What a home slice keeps of a line's grants to one requester (spec/11 R230, R231): the latest expiry among them, and the expiry
and the length of the last. -/
structure Lease where
  line    : Nat
  holder  : Holder
  expiry  : Nat
  last    : Nat
  len     : Nat
  dropped : Bool
  written : Bool
  deriving DecidableEq, Repr

/-- A thread that has left its gang and owns a word of a private line: the word, and the gang slot, the position and the last bundle
of the thread (spec/11 R487). -/
structure LineOwner where
  word : Nat
  slot : Nat
  lpos : Nat
  pc   : Dword
  deriving DecidableEq, Repr

/-- A private line in an L1 (spec/11 R252, R254): the global address of its first byte and its 128 bytes, which are 32 words of
neighbouring threads. Bit k of `valid` says that word k is the thread's own copy, bit k of `dirty` that byte k has been written since
the last write-back, bit k of `poison` that a soft error has struck word k (spec/20 R443, R444); `left` names owners that have left their
gangs (R487). -/
structure PrivLine where
  core   : Nat
  ctx    : Nat
  grid   : Nat
  va     : Nat
  bytes  : List Byte
  valid  : Nat
  dirty  : Nat
  left   : List LineOwner
  poison : Nat
  deriving DecidableEq, Repr

/-- The code of a launch at the head of its queue, prefetched (spec/03 R77): the launch, the lines, the cores whose instruction caches hold
them in their reserved ways, and the cores where a gang of the launch has made them ordinary lines. -/
structure CodeAhead where
  ctx   : Nat
  grid  : Nat
  lines : List Nat
  held  : List Nat
  past  : List Nat
  deriving DecidableEq, Repr

/-- A cached translation (spec/19 R407): in the TLB of a core, or, where `core` is 1000 + d, in the shared TLB of die d (4 the hub
die). -/
structure TlbEntry where
  core : Nat
  ctx  : Nat
  page : Nat
  pte  : Dword
  bits : Nat
  deriving DecidableEq, Repr

/-- A pointer entry that a die's walkers cache (spec/19 R407): its level 3 to 1, and the virtual addresses that it serves, as the
address divided by 2^(12 + 9·level). -/
structure WalkEntry where
  die   : Nat
  ctx   : Nat
  level : Nat
  page  : Nat
  pte   : Dword
  deriving DecidableEq, Repr

/-! ### Faults -/

/-- A fault record (spec/20 R425). -/
structure FaultRec where
  addr   : Dword
  pc     : Dword
  tag    : Dword
  ts     : Dword
  mask   : Dword
  token  : Word
  grid   : Word
  team   : Word
  rkind  : Nat
  code   : Nat
  die    : Nat
  scls   : Nat
  sidx   : Nat
  gslot  : Nat
  acc    : Nat
  half   : Bool
  keyed  : Bool
  detail : Nat
  deriving DecidableEq, Repr

/-- What waits under a wait-table key (spec/20 R421). -/
inductive WaitItem where
  | parked (core slot uid : Nat)
  | engine (cmd : Nat)
  | walker
  | privLine (core va : Nat)
  deriving DecidableEq, Repr

/-- A wait-table entry (spec/20 R421). -/
structure WaitEntry where
  die    : Nat
  ctx    : Nat
  byPage : Bool
  key    : Nat
  items  : List WaitItem
  since  : Nat
  deriving DecidableEq, Repr

/-! ### Tenant contexts -/

/-- An open region entry (spec/13 R283, R284, R291). -/
structure Region where
  etype  : Nat
  ovf    : Bool
  anchor : Int
  pbase  : Nat
  psize  : Nat
  sbase  : Nat
  tbase  : Nat
  tlim   : Nat
  tp     : Nat
  deriving DecidableEq, Repr

/-- A dependence node that is not free (spec/18 R386). `early` is the name of the grid that made the node early-queued
(R390), `dec` says that that grid's decrement has come, `ended` that its grid has ended. -/
structure Node where
  kind  : Nat
  src   : Dword
  dst   : Dword
  len   : Nat
  succ  : List Nat
  count : Nat
  state : Nat
  early : Option Nat
  dec   : Bool
  ended : Bool
  deriving DecidableEq, Repr

/-- A decrement of a dependence node that has reached the walker and is not applied yet (spec/18 R388, spec/14 R317): the context, the node,
k, and the grid whose end it is. -/
structure Decrement where
  ctx  : Nat
  node : Nat
  k    : Nat
  src  : Option Nat
  deriving DecidableEq, Repr

/-- A tenant context that is not free (spec/19 R399, R400; spec/20 R430). `save` is 0 resident, 1 saving, 2 saved (spec/20 R451), 3 saved
and to be restored by a `RESUME` that has not ended; `trPend` and `fqPend` are the completion times of the records that stand in the trace ring
and the fault queue behind `trwr` and `fqwr`, which the release has not passed yet (spec/14 R315, spec/20 R423). -/
structure Ctx where
  id       : Nat
  ptbase   : Dword
  coreset  : BitVec 96
  pkr      : Dword
  grants   : Sparse Dword
  sysgrp   : List Nat
  leasecfg : Dword
  trcfg    : Dword
  trbase   : Dword
  trsize   : Dword
  trwr     : Dword
  trrd     : Dword
  denbase  : Dword
  densize  : Dword
  fqbase   : Dword
  fqsize   : Dword
  fqwr     : Dword
  fqrd     : Dword
  fqctl    : Dword
  logbase  : Dword
  mbox     : Sparse Dword
  regions  : Sparse (Option Region)
  nodes    : Sparse (Option Node)
  queues   : List (List Nat)
  logUsed  : List Nat
  denUsed  : List Nat
  waitRecs : List FaultRec
  fqlost   : Nat
  kills    : Nat
  save     : Nat
  trLost   : Nat
  trFall   : Bool
  trSince  : Option Nat
  trPend   : List Nat
  fqPend   : List Nat
  deriving DecidableEq, Repr

/-- The work of a context that `PREEMPT` has saved (spec/20 R446, R447): `tiles`, `weights` and their poison stand under the
places that they were saved from. -/
structure Saved where
  ctx     : Nat
  area    : Dword
  gangs   : List Gang
  teams   : List Team
  crews   : List Crew
  dens    : List Den
  cmds    : List EngCmd
  waits   : List WaitEntry
  tiles   : Sparse Word
  weights : Sparse (Option Byte)
  tpoison : List Nat
  wpoison : List Nat
  deriving DecidableEq, Repr

/-! ### The device -/

/-- A link port (spec/15 R332, spec/20 R452): `since` is when it last left states 2 and 3, which R333 counts from. -/
structure Port where
  state   : PortState
  lost    : Nat
  retrans : Nat
  since   : Nat
  deriving DecidableEq, Repr

/-- A trace sink's counts (spec/20 R452). -/
structure Sink where
  written : Nat
  drops   : Nat
  deriving DecidableEq, Repr

/-- A producer that waits for a slot of a queue, in the list that the queue keeps (spec/18 R397): a held path with the condition
it waits for, the engine command `cmd`, or, for an entry of a wait table, `item`: a walker copy (`slot` its node, `ent` its context) or a
private line (`slot` its grid, `ent` its context). -/
structure Waiter where
  queue : Nat
  core  : Nat
  slot  : Nat
  ent   : Nat
  pc    : Dword
  cond  : Cond
  cmd   : Nat
  item  : Option WaitItem
  since : Nat
  deriving DecidableEq, Repr

/-- A management command whose completion is not written yet (spec/20 R429): `ids` names the accesses and `elems` the parked elements, by
cluster and SEQ, that it waits for, `held`
says that its save or restoration is in progress. -/
structure Completion where
  done   : Dword
  seq    : Nat
  op     : Nat
  status : Nat
  ctx    : Nat
  ids    : List Nat
  elems  : List (Nat × Word)
  held   : Bool
  deriving DecidableEq, Repr

/-- A bulk copy of the walker copy unit (spec/18 R389); `held` is the page of the fault that holds it. -/
structure WalkCopy where
  ctx  : Nat
  node : Nat
  off  : Nat
  gwct : Nat
  held : Option Nat
  deriving DecidableEq, Repr

/-- An answer of the SPDM responder (spec/19 R418), without the layout of the SPDM standard. -/
inductive SpdmAnswer where
  | error
  | version
  | capabilities
  | algorithms
  /-- The digest of the certificate chain. -/
  | digests (hash : BitVec 512)
  /-- A part of the certificate chain. -/
  | certificate (bytes : List Byte)
  /-- A signed report: the nonce, the measurement registers, the signature; `full` where it carries the registers themselves. -/
  | report (full : Bool) (nonce : List Byte) (mrs : List (BitVec 512)) (signature : List Byte)
  deriving DecidableEq, Repr

/-- The SPDM responder (spec/19 R418): the requesters with whom algorithms are agreed, and the answers given, each to its
requester. -/
structure Spdm where
  agreed : List Nat
  out    : List (Nat × SpdmAnswer)
  deriving DecidableEq, Repr

/-- The bundle in execution (the model's own field): who executes it, where it stands, and its prefix fields. `first` is
the bundle's first word (spec/20 R433). -/
structure Cur where
  live  : Bool
  core  : Nat
  slot  : Nat
  path  : Nat
  pc    : Dword
  wpc   : Dword
  npc   : Dword
  first : Word
  pfx   : Pfx
  imm   : Option (BitVec 24)
  deriving DecidableEq, Repr

/-- A message sent to a peer device (spec/15 R323, R324): the device, the class (0 D, 1 N, 2 L, 3 A, 4 Q, 5 S), the model's own name of
it, which a class-S message shares with its request, the operation and the threads it belongs to, what it asks for, and its runs: address,
size, data; `err` marks an error response (R334), and a request that was refused and whose fault waits for an entry of the wait table. -/
structure Msg where
  dev   : Nat
  cls   : Nat
  id    : Nat
  op    : Nat
  lanes : List Nat
  kind  : OutKind
  parts : List (Nat × Nat × List Byte)
  err   : Bool
  deriving DecidableEq, Repr

/-- A message of class N or L (1 or 2) that has arrived from a peer and waits for its turn (spec/15 R324): the completion time of the
pair's earlier stores, and its runs. -/
structure PeerMsg where
  dev    : Nat
  tenant : Nat
  id     : Nat
  cls    : Nat
  after  : Nat
  runs   : List (Nat × Nat × List Byte)
  deriving DecidableEq, Repr

/-- The whole machine. -/
structure State where
  /-- The model's own: the events that come next, oldest first (log entry 2). -/
  agenda    : List Instr
  /-- The model's own: the bundle in execution (log entry 2). -/
  cur       : Cur
  /-- The model's own: the counter of free values (log entry 3). -/
  freeCtr   : Nat
  /-- The model's own: the next name of an access, a command, a thread or a sub-gang. -/
  nextId    : Nat
  dtb       : Nat
  clk       : Nat
  mem       : Memory
  hostMem   : Memory
  /-- The verified code pages (spec/03 R64): first frame and number of frames. -/
  verified  : List (Nat × Nat)
  /-- The code pages whose hashes did not match, as reported to the driver (spec/03 R64). -/
  codeBad   : List (Nat × Nat)
  gangs     : List Gang
  teams     : List Team
  crews     : List Crew
  grids     : List Grid
  ctxs      : List Ctx
  dens      : List Den
  cmds      : List EngCmd
  waiters   : List Waiter
  wbuf      : List BufStore
  lines     : List CacheLine
  leases    : List Lease
  privLines : List PrivLine
  tlb       : List TlbEntry
  walkCache : List WalkEntry
  /-- The ordinary lines that the cores' instruction caches hold (spec/01 R16): core and line. -/
  icache    : List (Nat × Nat)
  /-- What stands in the instruction caches' reserved ways (spec/03 R77). -/
  ahead     : List CodeAhead
  waits     : List WaitEntry
  tokens    : List Nat
  parkq     : List ParkEntry
  parkSeq   : Sparse Word
  escTotals : Sparse Nat
  tiles     : Sparse Word
  tilePend  : List Nat
  tilePoison : List Nat
  weights   : Sparse (Option Byte)
  wPoison   : List Nat
  dealer    : Sparse Nat
  carve     : Sparse Nat
  rr        : Sparse Nat
  yielded   : List (Nat × Nat)
  withheld  : List (Nat × Nat)
  traceBuf  : List TraceRec
  traceSeq  : Sparse Nat
  memPoison : List Nat
  dtborg    : Dword
  dtbOffs   : Word
  dtbSrc    : Nat
  dtbState  : Nat
  dtbSlew   : Nat
  /-- The first lock has set `DTBORG` (spec/14 R305). -/
  dtbLocked : Bool
  lnktmo    : Dword
  systrbase : Dword
  systrsize : Dword
  systrwr   : Dword
  systrrd   : Dword
  linkTable : Sparse Dword
  devNo     : Nat
  ports     : List Port
  unreach   : List Nat
  mrs       : List (BitVec 512)
  fenced    : Bool
  nres      : Nat
  softCorr  : Sparse Nat
  softUnc   : Sparse Nat
  sinks     : List Sink
  completions : List Completion
  mgmtBad   : Nat
  peerBad   : Nat
  msix      : List Nat
  copies    : List WalkCopy
  decs      : List Decrement
  saved     : List Saved
  spdm      : Spdm
  sent      : List Msg
  hostOut   : List (List Byte)
  rrCtx     : Nat
  /-- The latest completion time of a peer device's stores (spec/15 R324). -/
  peerGwct  : Sparse Nat
  /-- What has arrived from peers and waits for its turn, oldest first (spec/15 R324). -/
  peerIn    : List PeerMsg
  /-- The completion times of the records behind `systrwr` (spec/14 R315). -/
  sysPend   : List Nat
  /-- The source that each trace sink took a record from last (spec/14 R317). -/
  sinkRr    : Sparse Nat
  /-- The device stays in its boot ROM: an image failed its signature check (spec/19 R417). -/
  inRom     : Bool
  barDones  : List BarDone
  deriving DecidableEq, Repr

/-- Why a step stops. -/
inductive Fault where
  /-- Raised by `step` when the head of the agenda is an encoded instruction: the agenda names events only. Safe: it stops a
  state that no run from reset reaches. -/
  | agendaNotEvent
  deriving DecidableEq, Repr

/-- Why a step has no meaning. -/
inductive Refusal where
  /-- Raised by `exec` for an instruction that this model has not reached. Safe: nothing can be proved of its effect. -/
  | notModelled (mnemonic : String)
  deriving DecidableEq, Repr

/-- No bundle in execution. -/
def Cur.none : Cur := ⟨false, 0, 0, 0, 0, 0, 0, 0, pfxNone, Option.none⟩

/-- The machine right after device reset (spec/14 R305, spec/15 R332, spec/19 R399, spec/20 R430; log entries 2 to 6). -/
def State.reset : State :=
  { agenda := [], cur := Cur.none, freeCtr := 0, nextId := 1, dtb := 0, clk := 0, mem := [], hostMem := [], verified := [], codeBad := [],
    gangs := [], teams := [], crews := [], grids := [], ctxs := [], dens := [], cmds := [], waiters := [], wbuf := [],
    lines := [], leases := [], privLines := [], tlb := [], walkCache := [], icache := [], ahead := [], waits := [], tokens := [1, 1, 1, 1], parkq := [],
    parkSeq := [], escTotals := [], tiles := [], tilePend := [], tilePoison := [], weights := [], wPoison := [],
    dealer := [], carve := [], rr := [], yielded := [], withheld := [], traceBuf := [], traceSeq := [], memPoison := [],
    dtborg := 0, dtbOffs := 0, dtbSrc := 0, dtbState := 0, dtbSlew := 0, dtbLocked := false, lnktmo := 1000, systrbase := 0, systrsize := 0,
    systrwr := 0, systrrd := 0, linkTable := [], devNo := 0, ports := List.replicate 24 ⟨.down, 0, 0, 0⟩, unreach := [],
    mrs := List.replicate 16 0, fenced := false, nres := 0, softCorr := [], softUnc := [],
    sinks := List.replicate 4 ⟨0, 0⟩, completions := [], mgmtBad := 0, peerBad := 0, msix := [], copies := [], decs := [],
    saved := [], spdm := ⟨[], []⟩, sent := [], hostOut := [], rrCtx := 0, peerGwct := [],
    peerIn := [], sysPend := [], sinkRr := [], inRom := false, barDones := [] }

end Sys2Proof.Machine
end

