-- ==== Sys2Proof/Machine/Objects.lean ====
section
/-! DEFINITION. Finding and changing the objects of the state: gangs, threads, teams, crews, grids, contexts; and the places
of the units (spec/01 R14). -/

namespace Sys2Proof.Machine

/-- One of a non-empty list, as the free choice says; of one element, that one. -/
def pickOne {α : Type} (c i : Nat) (d : α) : List α → α
  | [] => d
  | [x] => x
  | l => l.getD (Config.freeNat c i % l.length) d

/-- The die of a core (spec/01 R14). -/
def coreDie (c : Nat) : Nat := c / 96
/-- The cluster of a core (spec/01 R14). -/
def coreCluster (c : Nat) : Nat := c / 4
/-- The die of a cluster (spec/01 R14). -/
def clusterDie (c : Nat) : Nat := c / 24
/-- The table of a cluster (spec/01 R14). -/
def clusterTable (c : Nat) : Nat := c / 4

/-- The hub die's number where the spec codes dies (spec/14 R309). -/
def hubDie : Nat := 4

/-- The copy of the DTB that a die holds (spec/14 R308). -/
def dieNow (s : State) (die : Nat) : Nat := s.dtb - Config.dieSkew die % 33

/-- The least ticks that a message between units of two dies takes: 48, or 2 clocks, which are more than 18 ticks, within one (spec/14
R308). -/
def msgTicks (a b : Nat) : Nat := if a = b then 19 else 48

/-- `dtb()` at a core (spec/00 R9). -/
def coreNow (s : State) (core : Nat) : Nat := dieNow s (coreDie core)

/-- A list with its first element that meets a test changed. -/
def updFirst {α : Type} (p : α → Bool) (f : α → α) : List α → List α
  | item :: rest => bif p item then f item :: rest else item :: updFirst p f rest
  | [] => []

/-- The gang in a slot of a core. -/
def findGang (s : State) (core slot : Nat) : Option Gang :=
  s.gangs.find? (fun g => g.core == core && g.slot == slot)

/-- The state with the gang in a slot changed. -/
def updGang (s : State) (core slot : Nat) (f : Gang → Gang) : State :=
  { s with gangs := updFirst (fun g => g.core == core && g.slot == slot) f s.gangs }

/-- The state without the gang in a slot. -/
def dropGang (s : State) (core slot : Nat) : State :=
  { s with gangs := s.gangs.filter (fun g => !(g.core == core && g.slot == slot)) }

/-- The thread at a position of a gang. -/
def findThread (g : Gang) (l : Nat) : Option Thread := g.threads.find? (fun t => t.lpos == l)

/-- The gang with the threads of a mask changed. -/
def updThreads (g : Gang) (mask : Nat) (f : Thread → Thread) : Gang :=
  { g with threads := g.threads.map (fun t => if bitOf mask t.lpos then f t else t) }

/-- The gang with the thread at a position changed. -/
def updThread (g : Gang) (l : Nat) (f : Thread → Thread) : Gang :=
  { g with threads := g.threads.map (fun t => if t.lpos == l then f t else t) }

/-- The threads of a mask, in rising position. -/
def threadsOf (g : Gang) (mask : Nat) : List Thread := g.threads.filter (fun t => bitOf mask t.lpos)

/-- The mask of all threads of a gang that have not exited. -/
def gangMask (g : Gang) : Nat := maskOf (g.threads.map (·.lpos))

/-- The path in an entry of the path table. -/
def findPath (g : Gang) (ent : Nat) : Option Path := g.paths.find? (fun p => p.ent == ent)

/-- The gang with a path changed; a path without threads is freed (spec/16 R338). -/
def updPath (g : Gang) (ent : Nat) (f : Path → Path) : Gang :=
  { g with paths := (g.paths.map (fun p => if p.ent == ent then f p else p)).filter (fun p => p.mask != 0) }

/-- The lowest free entry of a path table (spec/16 R338). -/
def freeEntry (g : Gang) : Option Nat := (rangeFrom 0 8).find? (fun e => g.paths.all (fun p => p.ent != e))

/-- A resident team. -/
def findTeam (s : State) (ctx grid index : Nat) : Option Team :=
  s.teams.find? (fun t => t.ctx == ctx && t.grid == grid && t.index == index)

/-- The state with a team changed. -/
def updTeam (s : State) (ctx grid index : Nat) (f : Team → Team) : State :=
  { s with teams := updFirst (fun t => t.ctx == ctx && t.grid == grid && t.index == index) f s.teams }

/-- The team of a gang. -/
def gangTeam (s : State) (g : Gang) : Option Team := g.team.bind (findTeam s g.ctx g.grid)

/-- A resident crew. -/
def findCrew (s : State) (ctx grid index : Nat) : Option Crew :=
  s.crews.find? (fun t => t.ctx == ctx && t.grid == grid && t.index == index)

/-- The state with a crew changed. -/
def updCrew (s : State) (ctx grid index : Nat) (f : Crew → Crew) : State :=
  { s with crews := updFirst (fun t => t.ctx == ctx && t.grid == grid && t.index == index) f s.crews }

/-- A grid by its log index. -/
def findGrid (s : State) (ctx index : Nat) : Option Grid := s.grids.find? (fun g => g.ctx == ctx && g.index == index)

/-- The state with a grid changed. -/
def updGrid (s : State) (ctx index : Nat) (f : Grid → Grid) : State :=
  { s with grids := updFirst (fun g => g.ctx == ctx && g.index == index) f s.grids }

/-- A tenant context that is not free. -/
def findCtx (s : State) (id : Nat) : Option Ctx := s.ctxs.find? (fun c => c.id == id)

/-- The state with a context changed. -/
def updCtx (s : State) (id : Nat) (f : Ctx → Ctx) : State :=
  { s with ctxs := updFirst (fun c => c.id == id) f s.ctxs }

/-- The engine command of a name. -/
def findCmd (s : State) (id : Nat) : Option EngCmd := s.cmds.find? (fun c => c.id == id)

/-- The state with an engine command changed. -/
def updCmd (s : State) (id : Nat) (f : EngCmd → EngCmd) : State :=
  { s with cmds := updFirst (fun c => c.id == id) f s.cmds }

/-- A cluster's total of an escalation count: 0 `ESCB`, 1 `ESCS`, 2 `ESCPR`, 3 `ESCQS` (spec/05 R117). -/
def countEsc (s : State) (cluster k n : Nat) : State :=
  { s with escTotals := sparseSet 0 s.escTotals (cluster * 4 + k) ((sparseGet 0 s.escTotals (cluster * 4 + k) + n) % 2 ^ 64) }

/-- Whether a context's work is on the device: `PREEMPT` neither saves nor has saved it (spec/20 R446, R448). -/
def resident (s : State) (ctx : Nat) : Bool := (findCtx s ctx).all (fun c => c.save == 0)

/-- A new name and the state that has given it out. -/
def newId (s : State) : Nat × State := (s.nextId, { s with nextId := s.nextId + 1 })

/-- The kernel of a gang. -/
def gangKernel (s : State) (g : Gang) : Option Kernel := (findGrid s g.ctx g.grid).map (·.kernel)

/-- The declared vector register count of a gang's kernel (spec/02 R35). -/
def gangVregs (s : State) (g : Gang) : Nat := ((gangKernel s g).map (·.vregs)).getD 128

/-- The private words of a thread: 0 for a spawned one (spec/11 R253). -/
def plimOf (s : State) (g : Gang) (t : Thread) : Nat :=
  match t.tidx with
  | none => 0
  | some _ => ((gangKernel s g).map (·.pwords)).getD 0

/-- The tag of a grid's launch, 0 for none (spec/03 R69). -/
def gridTag (s : State) (ctx grid : Nat) : Dword := ((findGrid s ctx grid).map (·.launch.tag)).getD 0

/-- The differentiable mode of a gang's team: OFF for free threads (spec/13 R286). -/
def gangMode (s : State) (g : Gang) : Nat := ((gangTeam s g).map (·.dmode)).getD 0

/-- The `TEAM` register of a gang (spec/06 R143). -/
def gangTeamReg (g : Gang) : Word :=
  match g.team with
  | some i => toWord i
  | none => 0xFFFFFFFF#32

/-! ### The bundle in execution -/

/-- The gang whose bundle executes. -/
def curGang (s : State) : Option Gang := if s.cur.live then findGang s s.cur.core s.cur.slot else none

/-- The state with the executing gang changed. -/
def updCur (s : State) (f : Gang → Gang) : State := updGang s s.cur.core s.cur.slot f

/-- The threads of the executing path. -/
def curMask (s : State) (g : Gang) : Nat := ((findPath g s.cur.path).map (·.mask)).getD 0

/-- The value of a predicate of a thread: p7 reads 1 (spec/02 R36). -/
def readP (t : Thread) (p : Nat) : Bool := if p = 7 then true else t.preds.getLsbD p

/-- A predicate written: a write to p7 is discarded (spec/02 R36). -/
def writeP (t : Thread) (p : Nat) (b : Bool) : Thread :=
  if p = 7 then t
  else { t with preds := (t.preds &&& ~~~(BitVec.twoPow 8 p)) ||| (if b then BitVec.twoPow 8 p else 0#8) }

/-- Whether a thread's `PFX` predicate lets it act (spec/02 R47). -/
def predOn (c : Cur) (t : Thread) : Bool := !c.pfx.pen || (readP t c.pfx.pidx.toNat != c.pfx.pneg)

/-- Whether a thread is active: it is on the executing path, and its `PFX` predicate lets it act (spec/06 R120). -/
def isActive (s : State) (g : Gang) (t : Thread) : Bool := bitOf (curMask s g) t.lpos && predOn s.cur t

/-- The active threads of the executing path (spec/06 R120). -/
def activeThreads (s : State) (g : Gang) : List Thread := g.threads.filter (isActive s g)

/-- The gang with its active threads changed. -/
def updActive (s : State) (g : Gang) (f : Thread → Thread) : Gang :=
  { g with threads := g.threads.map (fun t => if isActive s g t then f t else t) }

/-- The mask of the active threads. -/
def activeMask (s : State) (g : Gang) : Nat := maskOf ((activeThreads s g).map (·.lpos))

/-- The rounding mode in effect: the override, or `RM` (spec/07 R146). -/
def curRM (s : State) (g : Gang) : RMode :=
  match rmodeOf s.cur.pfx.rnd.toNat with
  | some m => m
  | none => (rmodeOf (g.rm.toNat % 8)).getD .rne

/-- The dynamic rounding mode in `RM` (spec/04 R99). -/
def dynRM (g : Gang) : RMode := (rmodeOf (g.rm.toNat % 8)).getD .rne

/-! ### Ports -/

/-- Whether a port carries traffic: it is up or degraded (spec/15 R332). -/
def carries (p : Port) : Bool := p.state == .up || p.state == .degraded

/-- Whether a port that carries traffic reaches the switches (spec/15 R332). -/
def switchUp (s : State) : Bool := s.ports.any carries

end Sys2Proof.Machine
end

