-- ==== Sys2Proof/Machine/Flags.lean ====
section
/-! DEFINITION. The status flags: how `FSTAT` accumulates them (spec/04 R100, R101), the escalation counters (spec/05 R117),
and the flags that each operation raises, which Float.lean computes with its result. -/

namespace Sys2Proof.Machine

/-- `FSTAT` with flags ORed in (spec/04 R101). -/
def fstatOr (w : Word) (f : Flags) : Word := w ||| f.zeroExtend 32

/-- The lost count of an `FSTAT` value (spec/04 R100). -/
def fstatLost (w : Word) : Nat := bitsOf w.toNat 15 8

/-- `FSTAT` with `n` more lost contributions, saturating at 255 (spec/04 R92, R100). -/
def fstatLose (w : Word) (n : Nat) : Word :=
  (w &&& 0xFFFF00FF#32) ||| toWord (min 255 (fstatLost w + n) * 256)

/-- The bits of `FSTAT` that a write changes (spec/04 R100). -/
def fstatMask : Word := 0x0000FF1F#32

/-- A gang with flags ORed into its `FSTAT`. -/
def gangOrFlags (g : Gang) (f : Flags) : Gang := { g with fstat := fstatOr g.fstat f }

/-- A gang with a lost count added. -/
def gangLose (g : Gang) (n : Nat) : Gang := if n = 0 then g else { g with fstat := fstatLose g.fstat n }

/-- A gang with its `GWCT` raised to a completion time (spec/11 R235). -/
def gangGwct (g : Gang) (t : Nat) : Gang := { g with gwct := if g.gwct.toNat < t then toDword t else g.gwct }

/-- The flags of a list of results. -/
def orFlags (l : List Flags) : Flags := l.foldl (· ||| ·) flagNone

end Sys2Proof.Machine
end

