-- ==== Sys2Proof/Machine/Operands.lean ====
section
/-! DEFINITION. Operand forms: vector and scalar registers and pairs, with the choices that R31 leaves for registers in
flight, pending elements (spec/05 R112), poison (spec/20 R444), packed lanes (spec/02 R49, spec/06 R122), and the registers
an instruction names (spec/02 R35). -/

namespace Sys2Proof.Machine

/-! ### Registers -/

/-- The destination entries of a register in flight, the latest first. -/
def flightsOf (l : List Inflight) (r : Nat) : List Inflight := l.filter (fun f => f.reg == r && !f.data)

/-- The value a read of a register gets: its value, or, once results have returned, any of them instead, chosen for each
thread and each read (spec/02 R31). `c` is the free-value counter and `k` the read's number in the bundle. -/
def readFlight (c lpos k r : Nat) (v : Word) (l : List Inflight) : Word :=
  pickOne c ((lpos * 1024 + r) * 16 + k) v (v :: (flightsOf l r).filterMap (·.result))

/-- What `v[r]` of a thread holds. -/
def vreg (t : Thread) (r : Nat) : Word := sparseGet 0#32 t.v r

/-- Operand `k` of the bundle: `v[r]` of a thread (spec/02 R31, R33). -/
def readV (c : Nat) (t : Thread) (k : Nat) (r : Nat) : Word := readFlight c t.lpos k r (vreg t r) t.inflight

/-- The pair `v[r]:v[r+1]` of a thread (spec/00 R1). -/
def readVPair (c : Nat) (t : Thread) (k : Nat) (r : Nat) : Dword := pairOf (readV c t k r) (readV c t k (r + 1))

/-- What `s[r]` of a gang holds. -/
def sreg (g : Gang) (r : Nat) : Word := sparseGet 0#32 g.sregs r

/-- Operand `k` of the bundle: `s[r]` of the gang. -/
def readS (c : Nat) (g : Gang) (k : Nat) (r : Nat) : Word := readFlight c 64 k r (sreg g r) g.sflight

/-- The pair `s[r]:s[r+1]` of the gang. -/
def readSPair (c : Nat) (g : Gang) (k : Nat) (r : Nat) : Dword := pairOf (readS c g k r) (readS c g k (r + 1))

/-- The in-flight entries after a write of a register: they are marked. -/
def clobber (l : List Inflight) (r : Nat) : List Inflight :=
  l.map (fun f => if f.reg == r then { f with clobbered := true } else f)

/-- `v[r]` of a thread written (spec/02 R31): the write clears the register's poison (spec/20 R444). -/
def writeV (t : Thread) (r : Nat) (w : Word) : Thread :=
  { t with v := sparseSet 0#32 t.v r w, inflight := clobber t.inflight r, poison := t.poison.filter (· != r) }

/-- Several registers of a thread written in turn. -/
def writeVs (t : Thread) (l : List (Nat × Word)) : Thread := l.foldl (fun t rw => writeV t rw.1 rw.2) t

/-- `s[r]` of a gang written. -/
def writeS (g : Gang) (r : Nat) (w : Word) : Gang :=
  { g with sregs := sparseSet 0#32 g.sregs r w, sflight := clobber g.sflight r, spoison := g.spoison.filter (· != r) }

/-- The pair `s[r]:s[r+1]` of a gang written. -/
def writeSPair (g : Gang) (r : Nat) (d : Dword) : Gang := writeS (writeS g r (loWord d)) (r + 1) (hiWord d)

/-- The writes of a value to a register, or to a pair when `wide`. -/
def regWrites (wide : Bool) (r : Nat) (n : Nat) : List (Nat × Word) :=
  if wide then [(r, toWord n), (r + 1, toWord (n >>> 32))] else [(r, toWord n)]

/-- What a register holds once its results in flight are taken in: the result; of several results any, and, where the register
was written after the latest was put in flight, any of them or the written value (spec/02 R31). -/
def settleReg (c lpos r : Nat) (l : List Inflight) (v : Word) : Word :=
  match flightsOf l r with
  | [] => v
  | f :: fs =>
    let ws := (f :: fs).filterMap (·.result) ++ (if f.clobbered then [v] else [])
    pickOne c ((lpos * 1024 + r) * 16 + 15) v ws

/-- The registers of a file once results in flight are taken in. -/
def settleRegs (c lpos : Nat) (l : List Inflight) (v : Sparse Word) : Sparse Word :=
  ((l.filter (fun f => !f.data)).map (·.reg)).foldl (fun v r => sparseSet 0#32 v r (settleReg c lpos r l (sparseGet 0#32 v r))) v

/-- A thread at its marker: its results are in its registers and nothing of it is in flight (spec/02 R29 to R31). -/
def settleThread (c : Nat) (t : Thread) : Thread :=
  { t with v := settleRegs c t.lpos t.inflight t.v, inflight := [] }

/-- The scalar registers at a marker: the entries that are not kept are taken in; a kept one of the same register counts as written
meanwhile. -/
def settleScalars (c : Nat) (g : Gang) (keep : Inflight → Bool) : Gang :=
  let done := g.sflight.filter (fun f => !(keep f))
  { g with
    sregs := settleRegs c 64 done g.sregs
    sflight := (g.sflight.filter keep).map (fun f =>
      if !f.data && (flightsOf done f.reg).any (·.result.isSome) then { f with clobbered := true } else f) }

/-! ### Pending elements and poison -/

/-- Whether a pending element covers a register: an FP64 element covers its pair (spec/05 R107). -/
def pendCovers (p : PendElem) (r : Nat) : Bool := p.reg == r || (p.fmt == 1 && p.reg + 1 == r)

/-- The element a thread parks on: the pending one in the lowest-numbered register among those it accesses, lane 0 first
(spec/02 R32). -/
def pendHit (t : Thread) (regs : List Nat) : Option PendElem :=
  (t.pend.filter (fun p => regs.any (pendCovers p))).foldl
    (fun b p => match b with
      | none => some p
      | some q => if p.reg < q.reg ∨ (p.reg = q.reg ∧ p.half < q.half) then some p else some q) none

/-- The poisoned register a thread reads, if any (spec/20 R444). -/
def poisonHit (t : Thread) (regs : List Nat) : Option Nat := regs.find? (fun r => t.poison.contains r)

/-! ### Packed lanes -/

/-- The lane width and the lane count of an integer operand (spec/06 R122). -/
def widLanes (wid : BitVec 2) : Nat × Nat :=
  match wid.toNat with
  | 0 => (32, 1)
  | 1 => (64, 1)
  | 2 => (16, 2)
  | _ => (8, 4)

/-- Lane `j` of width `w` of a value. -/
def laneOf (w j n : Nat) : Nat := (n >>> (w * j)) % 2 ^ w

/-- Lanes of width `w` packed, lane 0 lowest. -/
def packLanes (w : Nat) : List Nat → Nat
  | [] => 0
  | x :: xs => x % 2 ^ w + (packLanes w xs) * 2 ^ w

/-- Whether a floating-point type is held in a pair. -/
def fpWide (t : FpType) : Bool := t == .f64

/-- The number of lanes of a floating-point type. -/
def fpLanes (t : FpType) : Nat :=
  match t with
  | .f16 | .bf16 => 2
  | _ => 1

/-- A floating-point operand: the register's bits, or the pair's (spec/02 R49). -/
def readFp (c : Nat) (t : Thread) (ty : FpType) (k r : Nat) : Nat :=
  if fpWide ty then (readVPair c t k r).toNat else (readV c t k r).toNat

/-- The registers that a floating-point operand spans. -/
def fpSpan (ty : FpType) (r : Nat) : List Nat := if fpWide ty then [r, r + 1] else [r]

/-- An operation on each lane of the type, with the results packed and the flags ORed (spec/04 R101, spec/07 R145). -/
def mapLanes (ty : FpType) (f : Nat → FRes) : FRes :=
  let w := (typeFmt ty).width
  let rs := (rangeFrom 0 (fpLanes ty)).map f
  ⟨packLanes w (rs.map (·.bits)), orFlags (rs.map (·.flags))⟩

/-! ### The registers an instruction names (spec/02 R35) -/

/-- The vector registers that a floating-point register field spans. -/
def topFp (t : FpType) (r : BitVec 7) : Nat := r.toNat + (if t = .f64 then 2 else 1)

/-- One more than the highest register of a field that names `n` registers. -/
def topReg {k : Nat} (r : BitVec k) (n : Nat) : Nat := r.toNat + n

/-- The registers that a memory access of a size code moves. -/
def sizeRegs (z : BitVec 3) : Nat :=
  match z.toNat with
  | 5 => 2
  | 6 => 4
  | 7 => 8
  | _ => 1

/-- The greatest of a list of numbers. -/
def maxNat (l : List Nat) : Nat := l.foldl max 0

/-- One more than the highest vector register that an instruction names, 0 when it names none (spec/02 R35). -/
def vregTop (p : Pfx) : Instr → Nat
  | .mov a d _ | .iaddShort a d _ | .isubShort a d _ | .andShort a d _ | .orShort a d _ | .xorShort a d _
  | .shlShort a d _ | .shrlShort a d _ | .faddShort a d _ | .fsubShort a d _ | .fmulShort a d _ | .fmaxShort a d _
  | .fminShort a d _ | .imulShort a d _ => max (topReg a 1) (topReg d 1)
  | .movi5 _ d _ => topReg d 1
  | .fadd t b a d _ | .fsub t b a d _ | .fmul t b a d _ | .fnmul t b a d _ | .fma t b a d _ | .fms t b a d _
  | .fdiv t b a d _ | .frem t b a d _ | .fmin t b a d _ | .fmax t b a d _ | .fsgn t b a d _ =>
    maxNat [topFp t b, topFp t a, topFp t d]
  | .fsqrt t a d _ | .frsq t a d _ | .flogb t a d _ | .ffn t _ a d _ => max (topFp t a) (topFp t d)
  | .fcmp t b a _ _ _ | .fcmpSig t b a _ _ _ => max (topFp t a) (topFp t b)
  | .fcvt _ c a d _ =>
    match fcvtSpans c.toNat with
    | some (na, nd) => max (topReg a na) (topReg d nd)
    | none => 0
  | .fscale t b a d _ => maxNat [topReg b 1, topFp t a, topFp t d]
  | .fclass t a d _ => max (topFp t a) (topReg d 1)
  | .iadd _ b a d _ | .isub _ b a d _ | .imin _ b a d _ | .imax _ b a d _ =>
    let n := if p.wid = 1#2 then 2 else 1
    maxNat [topReg b n, topReg a n, topReg d n]
  | .imul _ b a d _ | .idiv _ b a d _ | .irem _ b a d _ | .logic _ b a d _ | .bfeU b a d _ | .bfeS b a d _
  | .bfi b a d _ | .sel _ b a d _ | .shfl _ b a d _ => maxNat [topReg b 1, topReg a 1, topReg d 1]
  | .imad k b a d _ => maxNat [topReg b 1, topReg a 1, topReg d (if 2 ≤ k.toNat then 2 else 1)]
  | .shift o b a d _ => let n := if 5 ≤ o.toNat then 2 else 1
    maxNat [topReg b 1, topReg a n, topReg d n]
  | .icmp _ b a _ _ _ => let n := if p.wid = 1#2 then 2 else 1
    max (topReg b n) (topReg a n)
  | .bits _ a d _ | .andi _ a d _ | .ori _ a d _ | .xori _ a d _ => max (topReg a 1) (topReg d 1)
  | .lea _ _ b a d _ => maxNat [topReg b 1, topReg a 2, topReg d 2]
  | .iaddi _ a d _ => let n := if p.wid = 1#2 then 2 else 1
    max (topReg a n) (topReg d n)
  | .shfi f _ a d _ => let n := if 5 ≤ f.toNat then 2 else 1
    max (topReg a n) (topReg d n)
  | .icmpi _ a _ _ _ => topReg a (if p.wid = 1#2 then 2 else 1)
  | .movil _ d _ | .movih _ d _ => topReg d 1
  | .vxsBcast w _ d _ | .vxsReadf w _ d _ | .vxsReadi w _ d _ => topReg d (if w then 2 else 1)
  | .voteBallot _ d _ => topReg d 2
  | .voteEq a _ _ => topReg a 1
  | .gred _ t a d _ => let n := if [2, 3, 5].contains t.toNat then 2 else 1
    max (topReg a n) (topReg d n)
  | .ldg _ z _ a d _ | .stg _ z _ a d _ | .ldt _ z _ a d _ | .stt _ z _ a d _ | .ldp _ z _ a d _ | .stp _ z _ a d _ =>
    max (topReg a 1) (topReg d (sizeRegs z))
  | .ldm8 _ _ a d _ => max (topReg a 1) (topReg d 8)
  | .atom _ w b a d _ | .atomxUmax w b a d _ | .atomxFadd w b a d _ | .atomxFmax w b a d _ | .atomxFmin w b a d _ =>
    let n := if w then 2 else 1
    maxNat [topReg b n, topReg a 2, topReg d n]
  | .atomxCas w b a d _ => maxNat [topReg b (if w then 4 else 2), topReg a 2, topReg d (if w then 2 else 1)]
  | .atomxFadda w b a _ _ => max (topReg b (if w then 2 else 1)) (topReg a 2)
  | .atomxLr w a d _ => max (topReg a 2) (topReg d (if w then 2 else 1))
  | .atomxSc w b a d _ => maxNat [topReg b (if w then 2 else 1), topReg a 2, topReg d 1]
  | .cachePref _ a _ _ | .cacheLinv _ a _ _ | .cachePwb _ a _ _ | .cachePinv _ a _ _ => topReg a 1
  | .ssysVrd s d _ | .ssysVwr s d _ => topReg d (if ssysVWide s.toNat then 2 else 1)
  | .jmpr _ d _ | .next _ d _ | .spawn _ d _ | .susp _ d _ => topReg d 2
  | .meet x _ d _ => if x = 0#3 then topReg d 2 else 0
  | _ => 0

/-- Whether every vector register of a bundle lies below the declared count (spec/02 R35). -/
def vregsLegal (vregs : Nat) (p : Pfx) (i : Instr) : Bool := decide (vregTop p i ≤ vregs)

end Sys2Proof.Machine
end

