-- ==== Sys2Proof/Machine/Memory.lean ====
section
/-! DEFINITION. Global memory: translation (spec/19 R403 to R410), the checks of an access (spec/12 R263), grants and keys
(spec/19 R411 to R415), home slices and completion times (spec/11 R228 to R236). -/

namespace Sys2Proof.Machine

/-- The size of device memory, 768 GiB (spec/01 R16). -/
def deviceBytes : Nat := 768 * 2 ^ 30

/-- What an access does (spec/20 R425). -/
inductive Acc where
  | read | write | atomic | fetch
  deriving DecidableEq, Repr

/-- The ACC code of a fault record (spec/20 R425). -/
def accCode : Acc → Nat
  | .read => 0
  | .write => 1
  | .atomic => 2
  | .fetch => 3

/-- The code of a fault kind (spec/20 R420). -/
def faultCode : FaultKind → Nat
  | .page => 1
  | .pageAttribute => 2
  | .writeProtection => 3
  | .protectionKey => 4
  | .access => 5
  | .alignment => 6
  | .unsupportedAtomic => 7
  | .freeThread => 8
  | .codeIntegrity => 9
  | .denArea => 10
  | .peerUnreachable => 11

/-- Whether a fault is keyed by its page (spec/20 R420). -/
def faultByPage : FaultKind → Bool
  | .page | .pageAttribute | .writeProtection | .protectionKey | .access | .codeIntegrity => true
  | _ => false

/-! ### Bytes of memory -/

/-- One byte of device memory. -/
def memByte (s : State) (pa : Nat) : Byte := sparseGet memDefault s.mem pa

/-- `n` bytes of device memory from `pa`. -/
def memBytes (s : State) (pa n : Nat) : List Byte := sparseReadRun memDefault s.mem pa n

/-- Device memory with bytes written from `pa`. -/
def memWrite (s : State) (pa : Nat) (l : List Byte) : State := { s with mem := sparseWriteRun memDefault s.mem pa l }

/-- `n` bytes of host memory. -/
def hostBytes (s : State) (pa n : Nat) : List Byte := sparseReadRun memDefault s.hostMem pa n

/-- Host memory with bytes written. -/
def hostWriteAt (s : State) (pa : Nat) (l : List Byte) : State :=
  { s with hostMem := sparseWriteRun memDefault s.hostMem pa l }

/-! ### Grants and keys -/

/-- Whether a grant entry covers an address with the right asked for (spec/19 R415). -/
def grantCovers (e : Dword) (host write : Bool) (pa : Nat) : Bool :=
  let n := e.toNat
  let blk := pa / 2 ^ 21
  bitOf n 3 == host && bitOf n (if write then 1 else 0) && decide (bitsOf n 36 10 ≤ blk) && decide (blk < bitsOf n 63 37)

/-- Whether a context's grants allow an access to a physical address (spec/19 R414, R415). -/
def grantAllows (c : Ctx) (host write : Bool) (pa : Nat) : Bool := c.grants.any (fun e => grantCovers e.2 host write pa)

/-- Whether every byte of a run is granted: the first and the last byte lie in one or two 2 MiB blocks. -/
def grantRun (c : Ctx) (host write : Bool) (pa n : Nat) : Bool :=
  grantAllows c host write pa && grantAllows c host write (pa + n - 1)

/-- Whether `PKR` denies an access to a page of a key (spec/19 R411). -/
def pkrDenies (pkr : Dword) (key : Nat) (acc : Acc) : Bool :=
  let rd := bitOf pkr.toNat (2 * key)
  let wd := bitOf pkr.toNat (2 * key + 1)
  match acc with
  | .read => rd
  | .write => wd
  | .atomic => rd || wd
  | .fetch => false

/-! ### Page tables -/

/-- PFN as a physical address (spec/19 R404). -/
def ptePa (e : Dword) : Nat := bitsOf e.toNat 63 28 * 4096
/-- PEER (spec/19 R404). -/
def ptePeer (e : Dword) : Nat := bitsOf e.toNat 26 17
/-- TGT (spec/19 R404). -/
def pteTgt (e : Dword) : Nat := bitsOf e.toNat 16 14
/-- PKEY (spec/19 R404). -/
def pteKey (e : Dword) : Nat := bitsOf e.toNat 13 9
/-- SYSAT (spec/11 R248). -/
def pteSysat (e : Dword) : Bool := bitOf e.toNat 8
/-- HOME (spec/11 R228). -/
def pteHome (e : Dword) : Nat := bitsOf e.toNat 7 5
/-- SZ64 (spec/19 R405). -/
def pteSz64 (e : Dword) : Bool := bitOf e.toNat 4
/-- X (spec/19 R404). -/
def pteX (e : Dword) : Bool := bitOf e.toNat 3
/-- W (spec/19 R404). -/
def pteW (e : Dword) : Bool := bitOf e.toNat 2
/-- LEAF (spec/19 R404). -/
def pteLeaf (e : Dword) : Bool := bitOf e.toNat 1
/-- V (spec/19 R404). -/
def pteV (e : Dword) : Bool := bitOf e.toNat 0

/-- Whether a leaf of a page of `2^bits` bytes obeys the map of spec/19 R404. -/
def leafLegal (e : Dword) (bits : Nat) : Bool :=
  let n := e.toNat
  !(bitOf n 27) && (ptePeer e == 0 || (2 ≤ pteTgt e && pteTgt e ≤ 4)) && pteTgt e != 7 && decide (pteHome e ≤ 4) &&
  (pteHome e == 0 || pteTgt e == 0) && (!(pteSz64 e) || bits == 16) && ptePa e % 2 ^ bits == 0 &&
  (!(pteX e) || (!(pteW e) && pteTgt e == 0)) &&
  (!(3 ≤ pteTgt e && pteTgt e ≤ 6) || (!(pteSz64 e) && !(pteSysat e) && bits == 12))

/-- A translation: the leaf and the size of its page, as a power of two. -/
structure Trans where
  pte  : Dword
  bits : Nat
  deriving DecidableEq, Repr

/-- The page-table entry at an address, checked against the tenant's grants for a read (spec/19 R415). -/
def readPte (s : State) (c : Ctx) (pa : Nat) : Except FaultKind Dword :=
  if grantRun c false false pa 8 then .ok (toDword (ofBytes (memBytes s pa 8))) else .error .access

/-- The result of a level-0 entry: a 4 KiB leaf, or the first entry of its 64 KiB group (spec/19 R404, R405). -/
def walkLeaf0 (s : State) (c : Ctx) (table idx : Nat) (e : Dword) : Except FaultKind Trans :=
  if pteSz64 e then
    match readPte s c (table + 8 * (idx / 16 * 16)) with
    | .error k => .error k
    | .ok f => if pteSz64 f && pteV f && pteLeaf f && leafLegal f 16 then .ok ⟨f, 16⟩ else .error .pageAttribute
  else if leafLegal e 12 then .ok ⟨e, 12⟩ else .error .pageAttribute

/-- The pointer entry that a die's walkers cache for an address at a level (spec/19 R407). -/
def walkCached (s : State) (die ctx lvl va : Nat) : Option Dword :=
  (s.walkCache.find? (fun e => e.die == die && e.ctx == ctx && e.level == lvl && e.page == va / 2 ^ (12 + 9 * lvl))).map (·.pte)

/-- The walk from a table of a level down by a die's walker (spec/19 R403, R404). A cached pointer entry may serve in place of the
entry in memory (R407). -/
def walkFrom (s : State) (c : Ctx) (die va : Nat) : Nat → Nat → Except FaultKind Trans
  | 0, table =>
    let idx := bitsOf va 20 12
    match readPte s c (table + 8 * idx) with
    | .error k => .error k
    | .ok e =>
      if !(pteV e) then .error .page
      else if !(pteLeaf e) then .error .pageAttribute
      else walkLeaf0 s c table idx e
  | lvl + 1, table =>
    let sh := 12 + 9 * (lvl + 1)
    let entry : Except FaultKind Dword := match walkCached s die c.id (lvl + 1) va with
      | some e => if Config.freeBit s.freeCtr (17 * 2 ^ 20 + die * 4 + lvl) then .ok e else readPte s c (table + 8 * bitsOf va (sh + 8) sh)
      | none => readPte s c (table + 8 * bitsOf va (sh + 8) sh)
    match entry with
    | .error k => .error k
    | .ok e =>
      if !(pteV e) then .error .page
      else if pteLeaf e then
        (if lvl + 1 = 3 then .error .pageAttribute
         else if leafLegal e sh then .ok ⟨e, sh⟩ else .error .pageAttribute)
      else if bitsOf e.toNat 27 2 ≠ 0 then .error .pageAttribute
      else walkFrom s c die va lvl (ptePa e)

/-- The walk of a context's tables by a die's walker (spec/19 R403). -/
def walkTables (s : State) (die ctx va : Nat) : Except FaultKind Trans :=
  match findCtx s ctx with
  | none => .error .page
  | some c => if 2 ^ 48 ≤ va then .error .page else walkFrom s c die va 3 c.ptbase.toNat

/-- The pointer entries that a walk passes from a level down, each with its level. -/
def walkPointers (s : State) (c : Ctx) (va : Nat) : Nat → Nat → List (Nat × Dword)
  | 0, _ => []
  | lvl + 1, table =>
    let sh := 12 + 9 * (lvl + 1)
    match readPte s c (table + 8 * bitsOf va (sh + 8) sh) with
    | .error _ => []
    | .ok e => if pteV e && !(pteLeaf e) then (lvl + 1, e) :: walkPointers s c va lvl (ptePa e) else []

/-- The physical address that a translation gives. -/
def transPa (t : Trans) (va : Nat) : Nat := ptePa t.pte + va % 2 ^ t.bits

/-- The place of a die's shared TLB among the TLBs. -/
def sharedTlb (die : Nat) : Nat := 1000 + die

/-- A cached translation of a TLB that covers an address (spec/19 R407). -/
def tlbFind (s : State) (core ctx va : Nat) : Option TlbEntry :=
  s.tlb.find? (fun e => e.core == core && e.ctx == ctx && e.page == va / 2 ^ e.bits)

/-- The translation of an address through a die's shared TLB: a cached one may serve, or the tables are walked again (spec/19 R407,
R408). `i` tells the choices of one step apart. -/
def translateShared (s : State) (die ctx va i : Nat) : Except FaultKind Trans :=
  match tlbFind s (sharedTlb die) ctx va with
  | some e => if Config.freeBit s.freeCtr (18 * 2 ^ 20 + i) then .ok ⟨e.pte, e.bits⟩ else walkTables s die ctx va
  | none => walkTables s die ctx va

/-- The translation of an address at a core: its own TLB may serve, or the shared one of its die (spec/19 R407, R408). -/
def translate (s : State) (core ctx va i : Nat) : Except FaultKind Trans :=
  match tlbFind s core ctx va with
  | some e => if Config.freeBit s.freeCtr (2 ^ 20 + i) then .ok ⟨e.pte, e.bits⟩ else translateShared s (coreDie core) ctx va i
  | none => translateShared s (coreDie core) ctx va i

/-- The entries of a TLB: 256 in a core's, 8,192 in a die's shared one (spec/19 R407). -/
def tlbSize (place : Nat) : Nat := if place < 1000 then 256 else 8192

/-- The TLBs without one entry of a full one; which entry makes room is not stated. -/
def tlbEvict (s : State) (place : Nat) : State :=
  match s.tlb.filter (fun e => e.core == place) with
  | [] => s
  | e :: es =>
    if es.length + 1 < tlbSize place then s
    else
      let out := pickOne s.freeCtr (19 * 2 ^ 20 + place) e (e :: es)
      { s with tlb := s.tlb.filter (fun x => x != out) }

/-- The state with a translation installed in one TLB (spec/19 R407). -/
def tlbPut (s : State) (place ctx va : Nat) (t : Trans) : State :=
  match tlbFind s place ctx va with
  | some _ => s
  | none =>
    let s1 := tlbEvict s place
    { s1 with tlb := ⟨place, ctx, va / 2 ^ t.bits, t.pte, t.bits⟩ :: s1.tlb }

/-- The pointer entries of a walk put into the cache of a die's walkers (spec/19 R407). -/
def cachePointers (s : State) (die ctx va : Nat) : State :=
  match findCtx s ctx with
  | none => s
  | some c =>
    { s with walkCache := (walkPointers s c va 3 c.ptbase.toNat).foldl (fun l x =>
        if (walkCached s die ctx x.1 va).isSome then l else ⟨die, ctx, x.1, va / 2 ^ (12 + 9 * x.1), x.2⟩ :: l) s.walkCache }

/-- The state with a translation installed in a die's shared TLB, with the pointer entries of its walk (spec/19 R407). -/
def sharedInstall (s : State) (die ctx va : Nat) (t : Trans) : State :=
  cachePointers (tlbPut s (sharedTlb die) ctx va t) die ctx va

/-- The state with a translation installed at a core: in its TLB and in the shared one of its die (spec/19 R407). -/
def tlbInstall (s : State) (core ctx va : Nat) (t : Trans) : State :=
  match tlbFind s core ctx va with
  | some _ => s
  | none => tlbPut (sharedInstall s (coreDie core) ctx va t) core ctx va t

/-- The translation of a thread's data access: the last-page register serves a hit (spec/19 R406). -/
def translateThread (s : State) (g : Gang) (t : Thread) (va : Nat) : Except FaultKind Trans :=
  match t.lastPage with
  | some (page, bits, pte) =>
    if page = va / 2 ^ bits ∧ va < 2 ^ 48 then .ok ⟨pte, bits⟩ else translate s g.core g.ctx va t.lpos
  | none => translate s g.core g.ctx va t.lpos

/-- `PKR` as the check of an access sees it: while a write of it has not reached every core and engine, either value, for
each thread on its own (spec/19 R412). `i` tells the threads apart. -/
def pkrSeen (s : State) (c : Ctx) (i : Nat) : Dword :=
  match s.gangs.findSome? (fun g => if g.ctx == c.id then g.out.findSome? (fun o =>
      if o.kind == .pkrWrite then o.parts.head?.map (·.x) else none) else none) with
  | none => c.pkr
  | some v => if Config.freeBit s.freeCtr (5 * 2 ^ 20 + i) then v else c.pkr

/-- The number of a page's 4 KiB frame. -/
def frameOf (pa : Nat) : Nat := pa / 4096

/-- Whether the page that a translation maps is verified code (spec/03 R64). -/
def pageVerified (s : State) (t : Trans) : Bool :=
  s.verified.any (fun v => decide (v.1 ≤ frameOf (ptePa t.pte)) && decide (frameOf (ptePa t.pte) + 2 ^ (t.bits - 12) ≤ v.1 + v.2))

/-- Checks 6 to 8 of spec/12 R263 on a translated access of `n` bytes, or those of a fetch (spec/03 R64, spec/19 R404). A fetch from a
page that is neither granted nor verified takes the access fault: the spec gives the two no order (DESIGN CHOICE, log entry 79). A
store to a peer that cannot be reached is issued: only loads and atomics take the fault of spec/15 R333. -/
def checkPage (s : State) (ctx i : Nat) (t : Trans) (va n : Nat) (acc : Acc) : Option FaultKind :=
  match findCtx s ctx with
  | none => some .page
  | some c =>
    let pa := transPa t va
    let wr := acc == .write || acc == .atomic
    if acc = .fetch then
      (if !(pteX t.pte) then some .codeIntegrity
       else if !(grantRun c false false pa n) then some .access
       else if !(pageVerified s t) then some .codeIntegrity
       else none)
    else if wr && !(pteW t.pte) then some .writeProtection
    else if pkrDenies (pkrSeen s c i) (pteKey t.pte) acc then some .protectionKey
    else
      let rdOk := fun (w : Bool) =>
        match pteTgt t.pte with
        | 0 => grantRun c false w pa n
        | 1 => grantRun c true w pa n
        | _ => true
      if (acc == .write || rdOk false) && (!wr || rdOk true) then
        (if acc != .write && (2 ≤ pteTgt t.pte && pteTgt t.pte ≤ 4) && s.unreach.contains (ptePeer t.pte) then some .peerUnreachable
         else none)
      else some .access

/-- A translation with checks 5 to 8 of spec/12 R263 on an access of `n` bytes. -/
def checkedTrans (s : State) (ctx va n : Nat) (acc : Acc) : Except FaultKind Trans → Except FaultKind Trans
  | .error k => .error k
  | .ok t =>
    match checkPage s ctx 99 t va n acc with
    | some k => .error k
    | none => .ok t

/-- The translation of a core's access for a whole path or for a private line, with checks 5 to 8 (spec/19 R407). -/
def translateChecked (s : State) (core ctx va n : Nat) (acc : Acc) : Except FaultKind Trans :=
  checkedTrans s ctx va n acc (translate s core ctx va 99)

/-- The translation of an engine's or the hub's access through the shared TLB of its die, with checks 5 to 8 (spec/19 R407). -/
def unitTranslate (s : State) (die ctx va n : Nat) (acc : Acc) : Except FaultKind Trans :=
  checkedTrans s ctx va n acc (translateShared s die ctx va 99)

/-! ### Homes, leases and completion times -/

/-- The line of a physical address. -/
def lineOf (pa : Nat) : Nat := pa / 128

/-- The home die of a physical address under a HOME attribute (spec/11 R228). -/
def homeDie (home pa : Nat) : Nat := if home = 4 then bitsOf pa 13 12 else home % 4

/-- The home slice of a line within its die (spec/11 R228). -/
def homeSlice (pa : Nat) : Nat := bitsOf pa 10 7 ^^^ bitsOf pa 14 11 ^^^ bitsOf pa 18 15

/-- The latest E + 32 over the leases outstanding on a line (spec/11 R230, R234). -/
def leaseBound (s : State) (line now : Nat) : Nat :=
  s.leases.foldl (fun m l => if l.line == line && decide (now < l.expiry + 32) then max m (l.expiry + 32) else m) 0

/-- The completion time of a write to a line that arrives now (spec/11 R234). -/
def lineGwct (s : State) (home pa : Nat) : Nat :=
  let now := dieNow s (homeDie home pa)
  max now (leaseBound s (lineOf pa) now)

/-- The lines that a run of bytes touches. -/
def linesOf (pa n : Nat) : List Nat := if n = 0 then [] else rangeFrom (lineOf pa) (lineOf (pa + n - 1) + 1 - lineOf pa)

/-- The reservations on written blocks cleared, of threads in gangs and in dens; the writer's own survives (spec/11 R249). -/
def clearReservations (s : State) (pa n : Nat) (writer : Option Nat) : State :=
  let lo := pa / 64
  let hi := (pa + n - 1) / 64
  let clear := fun (t : Thread) =>
    match t.lr with
    | some (b, _) => if decide (lo ≤ b) && decide (b ≤ hi) && writer != some t.uid then { t with lr := none } else t
    | none => t
  { s with
    gangs := s.gangs.map (fun g => { g with threads := g.threads.map clear })
    dens := s.dens.map (fun d => { d with items := d.items.map (fun i =>
      match i with
      | .thread t k => .thread (clear t) k
      | .record r sl => .record r sl) }) }

/-- Whether a line of code lies in none of the code frames that have lost their verification. -/
def codeKept (lost : List (Nat × Nat)) (line : Nat) : Bool :=
  lost.all (fun v => !(decide (v.1 ≤ line / 32) && decide (line / 32 < v.1 + v.2)))

/-- A write that arrives at its home slice: the bytes, the leases' next grants, the reservations, the verification of code
frames and the poison of whole lines (spec/11 R231, R234, R236, R249; spec/03 R64; spec/20 R444). Answers the completion
time too. `writer` is the writing thread, none for other agents. -/
def homeWrite (s : State) (home pa : Nat) (l : List Byte) (writer : Option Nat) : State × Nat :=
  if l.isEmpty then (s, 0)
  else
    let ls := linesOf pa l.length
    let gw := maxNat (ls.map (fun n => lineGwct s home (n * 128)))
    let s1 := memWrite s pa l
    let hit := fun (v : Nat × Nat) => decide (frameOf pa < v.1 + v.2) && decide (v.1 ≤ frameOf (pa + l.length - 1))
    let lost := s1.verified.filter hit
    let s2 := { s1 with
      leases := s1.leases.map (fun e => if ls.contains e.line then { e with written := true } else e)
      verified := s1.verified.filter (fun v => !(hit v))
      icache := s1.icache.filter (fun x => codeKept lost x.2)
      ahead := s1.ahead.map (fun a => { a with lines := a.lines.filter (codeKept lost) })
      memPoison := s1.memPoison.filter (fun n => !(decide (pa ≤ n * 128) && decide (n * 128 + 128 ≤ pa + l.length))) }
    (clearReservations s2 pa l.length writer, gw)

/-- A write of several runs, each an address and a size, as one event: the lines that they cover whole lose their poison (spec/20 R444). -/
def cleanLines (s : State) (runs : List (Nat × Nat)) : State :=
  if s.memPoison.isEmpty then s
  else { s with memPoison := s.memPoison.filter (fun n =>
    !((rangeFrom (n * 128) 128).all (fun a => runs.any (fun r => decide (r.1 ≤ a) && decide (a < r.1 + r.2))))) }

/-- Several runs written as one event, with the latest completion time. -/
def homeWrites (s : State) (home : Nat) (writer : Option Nat) (runs : List (Nat × List Byte)) : State × Nat :=
  let w := runs.foldl (fun (a : State × Nat) r => let b := homeWrite a.1 home r.1 r.2 writer; (b.1, max a.2 b.2)) (s, 0)
  (cleanLines w.1 (runs.map (fun r => (r.1, r.2.length))), w.2)

/-! ### Accesses of other agents of the device -/

/-- A read at home by an engine, the hub or the management engine: weak, at home (spec/12 R274). -/
def readHome (s : State) (pa n : Nat) : List Byte := memBytes s pa n

/-- A write by the device itself to physical memory (spec/20 R423, R429). -/
def deviceWrite (s : State) (pa : Nat) (l : List Byte) : State := (homeWrite s 4 pa l none).1

end Sys2Proof.Machine
end

