-- ==== Sys2Proof/Machine/Cache.lean ====
section
/-! DEFINITION. The caches: leases and the lines under them (spec/11 R229 to R232), private lines (spec/11 R252 to R254, R487), the
room of an L1 and of a remote-data cache (spec/01 R16), the load path (spec/12 R261) and the write-through buffer (spec/11
R233). -/

namespace Sys2Proof.Machine

/-! ### Leases -/

/-- The die whose clock a lease's holder reads. -/
def holderDie : Holder → Nat
  | .l1 c => coreDie c
  | .rdc d => d

/-- The maximum lease of a context in ticks: 32·2^LMAX ns (spec/11 R232). -/
def leaseMax (s : State) (ctx : Nat) : Nat :=
  match findCtx s ctx with
  | some c => 512 * 2 ^ (c.leasecfg.toNat % 16)
  | none => 512

/-- The length of the next grant of a line to a holder (spec/11 R231); whether the last lease has run out is read on its holder's
clock. -/
def leaseLen (s : State) (line : Nat) (h : Holder) (lmax : Nat) : Nat :=
  match s.leases.find? (fun e => e.line == line && e.holder == h) with
  | none => 512
  | some e =>
    if e.written then 512
    else if e.dropped then min e.len lmax
    else if e.last ≤ dieNow s (holderDie h) then min (2 * e.len) lmax
    else min e.len lmax

/-- The state after a home slice has granted a lease, with the expiry (spec/11 R230, R231). -/
def grantLease (s : State) (ctx home line : Nat) (h : Holder) : State × Nat :=
  let now := dieNow s (homeDie home (line * 128))
  let len := leaseLen s line h (leaseMax s ctx)
  let e := now + len
  let old := s.leases.find? (fun x => x.line == line && x.holder == h)
  let outst := match old with | some o => max o.expiry e | none => e
  ({ s with leases := ⟨line, h, outst, e, len, false, false⟩ :: s.leases.filter (fun x => !(x.line == line && x.holder == h)) }, e)

/-- A line held by a cache under an unexpired lease, by the holder's own clock (spec/11 R230). -/
def heldLine (s : State) (h : Holder) (die line : Nat) : Option CacheLine :=
  s.lines.find? (fun c => c.holder == h && c.line == line && decide (dieNow s die < c.expiry))

/-- A line dropped from a cache, if it holds it; its lease counts as dropped where, by its holder's clock, it has not run out (spec/11
R231). -/
def dropLine (s : State) (h : Holder) (line : Nat) : State :=
  if s.lines.all (fun x => !(x.holder == h && x.line == line)) then s
  else { s with
    lines := s.lines.filter (fun x => !(x.holder == h && x.line == line))
    leases := s.leases.map (fun e =>
      if e.holder == h && e.line == line && decide (dieNow s (holderDie h) < e.last) then { e with dropped := true } else e) }

/-! ### Private lines (spec/11 R252 to R254, R487) -/

/-- The global address of private word `w` of a thread (spec/11 R252). -/
def privAddr (s : State) (g : Gang) (t : Thread) (w : Nat) : Nat :=
  match findGrid s g.ctx g.grid, t.tidx with
  | some gr, some n => gr.launch.pbase.toNat + n / 64 * 64 * gr.kernel.pwords * 4 + w * 256 + n % 64 * 4
  | _, _ => 0

/-- The t of the thread that owns word `k` of a private line: R252 read backwards. -/
def wordOwner (s : State) (ctx grid va k : Nat) : Nat :=
  match findGrid s ctx grid with
  | none => 0
  | some gr =>
    let off := va + 4 * k - gr.launch.pbase.toNat
    off / (256 * gr.kernel.pwords) * 64 + off % 256 / 4

/-- A private line of a core, clean or dirty, by an address in it. -/
def findPriv (s : State) (core ctx grid va : Nat) : Option PrivLine :=
  s.privLines.find? (fun l => l.core == core && l.ctx == ctx && l.grid == grid && l.va == va / 128 * 128)

/-- Whether two private lines are the same line of the same core. -/
def samePriv (l x : PrivLine) : Bool := x.core == l.core && x.ctx == l.ctx && x.grid == l.grid && x.va == l.va

/-- A private line changed; one of which no word is valid is dropped. -/
def setPriv (s : State) (l : PrivLine) : State :=
  { s with privLines := s.privLines.flatMap (fun x => if samePriv l x then (if l.valid = 0 then [] else [l]) else [x]) }

/-- `n` bytes of what a page maps: device memory, the host's, or the own node window, which reads 0 (spec/18 R386). -/
def pageBytes (s : State) (t : Trans) (pa n : Nat) : List Byte :=
  match pteTgt t.pte with
  | 1 => hostBytes s pa n
  | 5 => List.replicate n 0#8
  | _ => memBytes s pa n

/-- A store of a whole unit to the own node window, other than a gang's to one slot, put on its way: it is discarded there and reported as
a node error (spec/18 R386). -/
def windowStore (s : State) (core ctx grid pa n : Nat) : State :=
  let (id, s1) := newId s
  { s1 with wbuf := ⟨id, core, 64, ctx, grid, false, [⟨64, pa, pa, 0, 5, 0, n, 0, 1024, 0, 0⟩], s.dtb, none⟩ :: s1.wbuf }

/-- The words that a line holds, each with its address: a write-back writes all of them (spec/12 R271, spec/25 R476). -/
def lineRuns (l : PrivLine) : List (Nat × List Byte) :=
  (maskList 32 l.valid).map (fun k => (l.va + 4 * k, (rangeFrom (4 * k) 4).map (fun j => l.bytes.getD j memDefault)))

/-- The translation of a private line for a fill or a write-back, under checks 5 to 8 (spec/11 R487). Peer memory and launch windows are
reached by their own instructions only (spec/15 R322). -/
def privTrans (s : State) (core ctx va n : Nat) (acc : Acc) : Except FaultKind Trans :=
  match translateChecked s core ctx va n acc with
  | .error k => .error k
  | .ok t => if 2 ≤ pteTgt t.pte ∧ pteTgt t.pte ≠ 5 then .error .access else .ok t

/-- A private line written back to its home and kept clean (spec/11 R254, R487): the state and the completion time, or the fault of
its check. Poison goes with the line (spec/20 R444). -/
def writeBackLine (s : State) (l : PrivLine) : Except FaultKind (State × Nat) :=
  match privTrans s l.core l.ctx l.va 128 .write with
  | .error k => .error k
  | .ok tr =>
    let (s1, gw) : State × Nat := match pteTgt tr.pte with
      | 1 => ((lineRuns l).foldl (fun s x => hostWriteAt s (transPa tr x.1) x.2) s, 0)
      | 5 => (windowStore s l.core l.ctx l.grid (transPa tr l.va) 128, 0)
      | _ => homeWrites s (pteHome tr.pte) none ((lineRuns l).map (fun x => (transPa tr x.1, x.2)))
    let s2 := setPriv { s1 with
      memPoison := if l.poison = 0 then s1.memPoison else lineOf (transPa tr l.va) :: s1.memPoison } { l with dirty := 0 }
    .ok (updGrid s2 l.ctx l.grid (fun g => { g with gwct := if g.gwct.toNat < gw then toDword gw else g.gwct }), gw)

/-- A private line dropped from its L1. -/
def dropPriv (s : State) (l : PrivLine) : State := setPriv s { l with valid := 0 }

/-- A dirty line written back and dropped, a clean one dropped; none where its write-back would fail (spec/11 R487). -/
def evictPriv (s : State) (l : PrivLine) : Option State :=
  if l.dirty = 0 then some (dropPriv s l)
  else
    match writeBackLine s l with
    | .ok x => some (dropPriv x.1 l)
    | .error _ => none

/-! ### Room in a cache (spec/01 R16, spec/11 R255) -/

/-- The lines that a core's L1 has room for: what team memory leaves of its local store; the model lets an L1 hold one line at
least (log entry 80). -/
def l1Lines (s : State) (core : Nat) : Nat := max 1 ((512 * 1024 - sparseGet 0 s.carve core) / 128)

/-- The lines in a core's L1: those under leases and private ones. -/
def l1Count (s : State) (core : Nat) : Nat :=
  (s.lines.filter (fun c => c.holder == .l1 core)).length + (s.privLines.filter (fun l => l.core == core)).length

/-- What the L1 may evict: each leased line dropped, or each private line that can be written back. -/
def victims (s : State) (core : Nat) : List State :=
  (s.lines.filter (fun c => c.holder == .l1 core)).map (fun c => dropLine s (.l1 core) c.line) ++
  (s.privLines.filter (fun l => l.core == core)).filterMap (evictPriv s)

/-- One line of a core's L1 evicted; which one is not stated. -/
def evictL1 (s : State) (core : Nat) : State :=
  match victims s core with
  | [] => s
  | x :: xs => pickOne s.freeCtr (21 * 2 ^ 20 + l1Count s core) x (x :: xs)

/-- Room made for one more line in a core's L1. -/
def roomL1 (s : State) (core : Nat) : State := if l1Count s core < l1Lines s core then s else evictL1 s core

/-- The lines in a die's remote-data cache. -/
def rdcLines (s : State) (die : Nat) : List CacheLine := s.lines.filter (fun c => c.holder == .rdc die)

/-- Room made for one more line in a die's remote-data cache of 32 MiB; which line leaves is not stated. -/
def roomRdc (s : State) (die : Nat) : State :=
  if (rdcLines s die).length < 2 ^ 18 then s
  else
    match rdcLines s die with
    | [] => s
    | x :: xs => dropLine s (.rdc die) (pickOne s.freeCtr (22 * 2 ^ 20 + die) x (x :: xs)).line

/-- Room made for one more line of a holder. -/
def roomFor (s : State) : Holder → State
  | .l1 c => roomL1 s c
  | .rdc d => roomRdc s d

/-- Whether a holder has room for one more line. -/
def hasRoom (s : State) : Holder → Bool
  | .l1 c => decide (l1Count s c < l1Lines s c)
  | .rdc d => decide ((rdcLines s d).length < 2 ^ 18)

/-- The state with a line put into a cache, in the place of its older copy, or of another line where the cache is full; an L1 full of
private lines that cannot be written back takes none. -/
def putLine (s : State) (c : CacheLine) : State :=
  let s1 := { s with lines := s.lines.filter (fun x => !(x.holder == c.holder && x.line == c.line)) }
  let s2 := roomFor s1 c.holder
  if hasRoom s2 c.holder then { s2 with lines := c :: s2.lines } else s2

/-- The lines that a core may read under leases dropped, from its L1 and from its die's remote-data cache: what a thread from another core
reads there is no older than what it has read before (spec/11 R236; log entry 113). -/
def freshCaches (s : State) (core : Nat) : State :=
  (s.lines.filter (fun c => c.holder == .l1 core || c.holder == .rdc (coreDie core))).foldl (fun s c => dropLine s c.holder c.line) s

/-! ### Private accesses (spec/11 R252 to R254, R487) -/

/-- Whether a t belongs to no thread of a grid: its place lies past its team's last thread (spec/11 R252). -/
def ownerless (s : State) (ctx grid n : Nat) : Bool :=
  (findGrid s ctx grid).any (fun gr => decide (gr.kernel.team ≤ n % ((gr.kernel.team + 63) / 64 * 64)))

/-- The words of a line that belong to threads on a core or to no thread: those that a core's copy of the line holds. -/
def coreWords (s : State) (core ctx grid va : Nat) : Nat :=
  maskOf ((rangeFrom 0 32).filter (fun k =>
    let n := wordOwner s ctx grid va k
    ownerless s ctx grid n || s.gangs.any (fun g => g.core == core && g.ctx == ctx && g.grid == grid &&
      g.threads.any (fun t => t.tidx == some n))))

/-- Bytes with the words of a mask taken from another string. -/
def mixWords (mask : Nat) (new old : List Byte) : List Byte :=
  (rangeFrom 0 128).map (fun k => if bitOf mask (k / 4) then new.getD k memDefault else old.getD k memDefault)

/-- Whether a core's L1 holds a thread's word at a global address. -/
def privHeld (s : State) (g : Gang) (va : Nat) : Bool :=
  (findPriv s g.core g.ctx g.grid va).any (fun l => bitOf l.valid (va % 128 / 4))

/-- A private line put into a core's L1, or the core's copy of it with more words valid. -/
def addWords (s : State) (g : Gang) (va mask poison : Nat) (b : List Byte) : State :=
  match findPriv s g.core g.ctx g.grid va with
  | some l =>
    let add := maskMinus mask l.valid
    setPriv s { l with bytes := mixWords add b l.bytes, valid := l.valid ||| add, poison := l.poison ||| (poison &&& add) }
  | none =>
    let s1 := roomL1 s g.core
    { s1 with privLines := s1.privLines ++ [⟨g.core, g.ctx, g.grid, va / 128 * 128, b, mask, 0, [], poison &&& mask⟩] }

/-- The line of a thread's word filled from its home, if the core does not hold the word (spec/11 R487); a fill that its check does
not let through changes nothing. -/
def fillPriv (s : State) (g : Gang) (va : Nat) : State :=
  if privHeld s g va then s
  else
    match privTrans s g.core g.ctx va 4 .read with
    | .error _ => s
    | .ok tr =>
      let base := va / 128 * 128
      let mask := coreWords s g.core g.ctx g.grid base ||| (1 <<< (va % 128 / 4))
      addWords (tlbInstall s g.core g.ctx va tr) g va mask (if s.memPoison.contains (lineOf (transPa tr base)) then 2 ^ 32 - 1 else 0)
        (pageBytes s tr (transPa tr base) 128)

/-- The check of a private access's words as fills: the first fault, with the global address. A word that the core holds is not
translated (spec/11 R487). -/
def privCheck (s : State) (g : Gang) (t : Thread) (p n : Nat) : Option (FaultKind × Nat) :=
  (rangeFrom (p / 4) ((p + n - 1) / 4 + 1 - p / 4)).findSome? (fun w =>
    let va := privAddr s g t w
    if privHeld s g va then none
    else
      match privTrans s g.core g.ctx va 4 .read with
      | .ok _ => none
      | .error k => some (k, va))

/-- The words of a thread's private array that a run of bytes touches. -/
def privWords (p n : Nat) : List Nat := if n = 0 then [] else rangeFrom (p / 4) ((p + n - 1) / 4 + 1 - p / 4)

/-- The four bytes of a thread's private word as its core reads them: its copy of the line (spec/11 R254). A word that left the L1
after its access was checked and that can no longer be filled is a free value. -/
def privWord (s : State) (g : Gang) (t : Thread) (w : Nat) : List Byte :=
  let va := privAddr s g t w
  let s1 := fillPriv s g va
  match findPriv s1 g.core g.ctx g.grid va with
  | some l =>
    if bitOf l.valid (va % 128 / 4) then (rangeFrom (va % 128) 4).map (fun k => l.bytes.getD k memDefault)
    else toBytes 4 (Config.freeNat s.freeCtr (23 * 2 ^ 20 + w))
  | none => toBytes 4 (Config.freeNat s.freeCtr (23 * 2 ^ 20 + w))

/-- `n` bytes of a thread's private array from offset `p`. -/
def privRead (s : State) (g : Gang) (t : Thread) (p n : Nat) : List Byte :=
  (((privWords p n).flatMap (privWord s g t)).drop (p % 4)).take n

/-- The lines of a run of private bytes filled (spec/11 R487). -/
def privFill (s : State) (g : Gang) (t : Thread) (p n : Nat) : State :=
  (privWords p n).foldl (fun s w => fillPriv s g (privAddr s g t w)) s

/-- Whether a private word is poisoned in its core's L1 (spec/20 R444). -/
def privPoison (s : State) (g : Gang) (t : Thread) (w : Nat) : Bool :=
  let va := privAddr s g t w
  (findPriv (fillPriv s g va) g.core g.ctx g.grid va).any (fun l => bitOf l.poison (va % 128 / 4))

/-- A line in the L1 that holds a thread's word: filled, or, where the fill is not let through, taken without its other words. -/
def claimPriv (s : State) (g : Gang) (va : Nat) : State :=
  let s1 := fillPriv s g va
  if privHeld s1 g va then s1 else addWords s1 g va (1 <<< (va % 128 / 4)) 0 (List.replicate 128 memDefault)

/-- Bytes of one private word written: the core's line becomes dirty (spec/11 R254); a whole word loses its poison (spec/20 R444). -/
def privWriteWord (s : State) (g : Gang) (va off : Nat) (l : List Byte) : State :=
  let s1 := claimPriv s g va
  match findPriv s1 g.core g.ctx g.grid va with
  | none => s1
  | some x =>
    let at0 := va % 128 + off
    setPriv s1 { x with
      bytes := overlay x.bytes at0 l
      dirty := x.dirty ||| maskOf (rangeFrom at0 l.length)
      poison := if l.length = 4 then maskMinus x.poison (1 <<< (va % 128 / 4)) else x.poison }

/-- Private bytes written from an offset, word by word. -/
def privWrite (s : State) (g : Gang) (t : Thread) (p : Nat) (l : List Byte) : State :=
  (privWords p l.length).foldl (fun s w =>
    let lo := max p (4 * w)
    let hi := min (p + l.length) (4 * w + 4)
    privWriteWord s g (privAddr s g t w) (lo - 4 * w) ((l.drop (lo - p)).take (hi - lo))) s

/-- The private lines of a core that hold a thread's own word. -/
def threadLines (s : State) (core ctx grid tidx : Nat) : List PrivLine :=
  s.privLines.filter (fun l => l.core == core && l.ctx == ctx && l.grid == grid &&
    (maskList 32 l.valid).any (fun k => wordOwner s ctx grid l.va k == tidx))

/-- The bit of a thread's word in a line. -/
def ownWord (s : State) (l : PrivLine) (tidx : Nat) : Nat :=
  maskOf ((rangeFrom 0 32).filter (fun k => wordOwner s l.ctx l.grid l.va k == tidx))

/-- Whether a word of a line is dirty. -/
def dirtyWord (l : PrivLine) (k : Nat) : Bool := (l.dirty >>> (4 * k)) % 16 != 0

/-- Whether the word of a thread in a line is dirty. -/
def ownDirty (s : State) (l : PrivLine) (tidx : Nat) : Bool := (maskList 32 (ownWord s l tidx)).any (dirtyWord l)

/-- The fault that the write-back of a thread's lines meets first, with its address (spec/11 R487). -/
def privLinesCheck (s : State) (g : Gang) (t : Thread) : Option (FaultKind × Nat) :=
  match t.tidx with
  | none => none
  | some n => (threadLines s g.core g.ctx g.grid n).findSome? (fun l =>
      if ownDirty s l n then
        (match privTrans s l.core l.ctx l.va 128 .write with
         | .ok _ => none
         | .error k => some (k, l.va))
      else none)

/-- A thread's private words off a core: its dirty lines are written back, and the core's copies of its words go (spec/11 R254). -/
def privLinesBack (s : State) (g : Gang) (t : Thread) : State :=
  match t.tidx with
  | none => s
  | some n => (threadLines s g.core g.ctx g.grid n).foldl (fun s l =>
      let s1 := if ownDirty s l n then (match writeBackLine s l with | .ok x => x.1 | .error _ => s) else s
      match findPriv s1 l.core l.ctx l.grid l.va with
      | some x => setPriv s1 { x with valid := maskMinus x.valid (ownWord s x n) }
      | none => s1) s

/-- The private lines that hold words of threads leaving their gang remember the threads' last bundles (spec/11 R487). -/
def markLines (s : State) (g : Gang) (ts : List Thread) : State :=
  if s.privLines.isEmpty then s
  else { s with privLines := s.privLines.map (fun l =>
    if l.core == g.core && l.ctx == g.ctx && l.grid == g.grid then
      { l with left := ts.flatMap (fun t => match t.tidx with
          | none => []
          | some n => (maskList 32 (ownWord s l n)).map (fun k => ⟨k, g.slot, t.lpos, t.lastPc⟩)) ++ l.left }
    else l) }

/-- The gang slot, the position and the last bundle of the thread that owns a word of a private line. -/
def ownerOf (s : State) (l : PrivLine) (k : Nat) : Option LineOwner :=
  let n := wordOwner s l.ctx l.grid l.va k
  match s.gangs.findSome? (fun g => if g.ctx == l.ctx && g.grid == l.grid then
      (g.threads.find? (fun t => t.tidx == some n)).map (fun t => (⟨k, g.slot, t.lpos, t.lastPc⟩ : LineOwner)) else none) with
  | some o => some o
  | none => l.left.find? (fun o => o.word == k)

/-! ### Loads (spec/12 R260, R261) -/

/-- The bytes of a global line for a core from the remote-data cache of its die or from its home, with the caches as they then stand;
`keep` puts the line into the core's L1. -/
def fetchHome (s : State) (core ctx home line : Nat) (keep : Bool) : State × List Byte :=
  let die := coreDie core
  if homeDie home (line * 128) = die then
    let b := memBytes s (line * 128) 128
    if keep then
      let (s1, e) := grantLease s ctx home line (.l1 core)
      (putLine s1 ⟨.l1 core, line, b, e⟩, b)
    else (s, b)
  else
    match heldLine s (.rdc die) die line with
    | some c => (if keep then putLine s ⟨.l1 core, line, c.bytes, c.expiry⟩ else s, c.bytes)
    | none =>
      let b := memBytes s (line * 128) 128
      let (s1, e) := grantLease s ctx home line (.rdc die)
      let s2 := putLine s1 ⟨.rdc die, line, b, e⟩
      (if keep then putLine s2 ⟨.l1 core, line, b, e⟩ else s2, b)

/-- The bytes of a global line for a core: an L1 line under its lease, the remote-data cache, or the home (spec/12 R261). A streaming
load is served by no L1 line and leaves none (spec/12 R260): an older copy would let the thread read an older value later (spec/11 R236). -/
def fetchLine (s : State) (core ctx home line : Nat) (streaming : Bool) : State × List Byte :=
  if streaming then fetchHome (dropLine s (.l1 core) line) core ctx home line false
  else
    match heldLine s (.l1 core) (coreDie core) line with
    | some c => (s, c.bytes)
    | none => fetchHome s core ctx home line true

/-- Whether a line of device memory that a run touches is poisoned (spec/20 R444). -/
def linePoison (s : State) (pa n : Nat) : Bool := (linesOf pa n).any (fun l => s.memPoison.contains l)

/-- The data of a part as bytes. -/
def partBytes (p : LanePart) : List Byte := (toBytes 8 p.x.toNat ++ toBytes 8 p.y.toNat).take p.size

/-- The byte of a buffered store of a core at an address, the youngest first (spec/11 R233). -/
def bufferByte (buf : List BufStore) (core pa : Nat) : Option Byte :=
  match buf with
  | [] => none
  | b :: bs =>
    if b.core = core then
      match b.parts.reverse.find? (fun p => p.tgt == 0 && decide (p.pa ≤ pa) && decide (pa < p.pa + p.size)) with
      | some p => (partBytes p)[pa - p.pa]?
      | none => bufferByte bs core pa
    else bufferByte bs core pa

/-- `n` bytes of a line's bytes from an address, overlaid with the core's buffered stores. -/
def lineSlice (s : State) (core : Nat) (bytes : List Byte) (pa n : Nat) : List Byte :=
  (rangeFrom pa n).map (fun a => (bufferByte s.wbuf core a).getD (bytes.getD (a % 128) memDefault))

/-- A global load of `n` bytes within one line at a core (spec/12 R261). -/
def loadRun (s : State) (core ctx home pa n : Nat) (streaming : Bool) : State × List Byte :=
  let (s1, b) := fetchLine s core ctx home (lineOf pa) streaming
  (s1, lineSlice s1 core b pa n)

/-- A global load of `n` bytes that may span two lines. -/
def loadGlobal (s : State) (core ctx home pa n : Nat) (streaming : Bool) : State × List Byte :=
  let first := min n (128 - pa % 128)
  let (s1, a) := loadRun s core ctx home pa first streaming
  if first = n then (s1, a)
  else
    let (s2, b) := loadRun s1 core ctx home (pa + first) (n - first) streaming
    (s2, a ++ b)

/-- The L1 of a core with a store's bytes in the copy it holds (spec/11 R233). -/
def updateL1 (s : State) (core pa : Nat) (l : List Byte) : State :=
  { s with lines := s.lines.map (fun c =>
      if c.holder == .l1 core then
        { c with bytes := (rangeFrom 0 128).map (fun k =>
            let a := c.line * 128 + k
            if decide (pa ≤ a) && decide (a < pa + l.length) then l.getD (a - pa) memDefault else c.bytes.getD k memDefault) }
      else c) }

/-- The die's remote-data cache without the lines a store touches (spec/11 R233). -/
def dropRdc (s : State) (die pa n : Nat) : State :=
  { s with lines := s.lines.filter (fun c => !(c.holder == .rdc die && (linesOf pa n).contains c.line)) }

/-- Bytes of a core's own access performed at home at once, with the effects of a store on the core's L1 and its die's remote-data cache
(spec/11 R233), and the completion time. -/
def ownWrite (s : State) (core home pa : Nat) (b : List Byte) (writer : Option Nat) : State × Nat :=
  let w := homeWrite s home pa b writer
  (dropRdc (updateL1 w.1 core pa b) (coreDie core) pa b.length, w.2)

/-- The youngest entries first: a store put into its core's write-through buffer, with its L1 and remote-data cache effects
(spec/11 R233). -/
def bufferStore (s : State) (b : BufStore) : State :=
  let s1 := b.parts.foldl (fun s p =>
    if p.tgt = 0 then dropRdc (updateL1 s b.core p.pa (partBytes p)) (coreDie b.core) p.pa p.size else s) s
  { s1 with wbuf := b :: s1.wbuf }

/-- How many stores a core's write-through buffer holds. -/
def bufferCount (s : State) (core : Nat) : Nat := (s.wbuf.filter (fun b => b.core == core)).length

end Sys2Proof.Machine
end

