-- ==== Sys2Proof/Machine/Trace.lean ====
section
/-! DEFINITION. What the device reports: trace events (spec/14 R309 to R317) and the tenants' fault queues (spec/20 R423 to
R426). -/

namespace Sys2Proof.Machine

/-- A trace source's number in `State.traceSeq` (the model's own numbering). -/
def srcNum : TraceSource → Nat
  | .core i => i
  | .copy i => 384 + i
  | .matrix i => 768 + i
  | .row i => 864 + i
  | .brock i => 960 + i
  | .hub i => 1056 + i

/-- The DIE, source class and source index of a record (spec/14 R309, R310). -/
def srcFields : TraceSource → Nat × Nat × Nat
  | .core i => (coreDie i, 0, i % 96)
  | .matrix i => (clusterDie i, 1, i % 24)
  | .row i => (clusterDie i, 2, i % 24)
  | .brock i => (clusterDie i, 3, i % 24)
  | .copy i => (coreDie i, 4, i % 96)
  | .hub i => (hubDie, 5, i)

/-- The records a source's emission buffer holds (spec/14 R317). -/
def srcDepth : TraceSource → Nat
  | .core _ => 32
  | _ => 16

/-- `TRCFG`.MODE as it acts: the fallback of R317 is sampling behaviour. -/
def traceMode (c : Ctx) : Nat := if c.trFall then 1 else bitsOf c.trcfg.toNat 1 0

/-- Whether an event of a class is generated for a tenant (spec/14 R313). -/
def traceOn (c : Ctx) (cls : Nat) : Bool := bitsOf c.trcfg.toNat 1 0 != 0 && bitOf c.trcfg.toNat (32 + cls)

/-- The 64 bytes of a trace record (spec/14 R309). -/
def traceBytes (payload ts seq kind ctx : Nat) (sys lossy : Bool) (src : TraceSource) (tag : Nat) : List Byte :=
  let (die, cls, idx) := srcFields src
  toBytes 64 (payload % 2 ^ 384 * 2 ^ 128 + ts % 2 ^ 64 * 2 ^ 64 + seq % 2 ^ 16 * 2 ^ 48 + kind % 256 * 2 ^ 40 +
    ctx % 32 * 2 ^ 35 + bitNat sys * 2 ^ 34 + bitNat lossy * 2 ^ 33 + die * 2 ^ 28 + cls * 2 ^ 24 + idx % 256 * 2 ^ 16 +
    tag % 2 ^ 16)

/-- The records that wait in or for a source's buffer. -/
def srcQueue (s : State) (src : TraceSource) : List TraceRec := s.traceBuf.filter (fun r => r.src == src)

/-- The sink of a tenant (spec/14 R313). -/
def ctxSink (c : Ctx) : Nat := bitsOf c.trcfg.toNat 3 2

/-- A sink's counts changed. -/
def updSink (s : State) (n : Nat) (f : Sink → Sink) : State := { s with sinks := modifyAt f n s.sinks }

/-- A record that is dropped: its tenant's sink counts it (spec/14 R316, spec/20 R452). -/
def dropTrace (s : State) (c : Ctx) (sink : Nat) : State :=
  updSink (updCtx s c.id (fun c => { c with trLost := c.trLost + 1 })) sink (fun k => { k with drops := k.drops + 1 })

/-- An event of a tenant generated at a source (spec/14 R309 to R317). `hold` is the gang whose action it is, which a full
buffer holds in lossless mode. -/
def emitFor (s : State) (src : TraceSource) (ctx kind payload : Nat) (tag : Dword) (hold : Option (Nat × Nat)) : State :=
  match findCtx s ctx with
  | none => s
  | some c =>
    if !(traceOn c (kind / 16)) then s
    else
      let key := srcNum src * 64 + ctx
      let seq := sparseGet 0 s.traceSeq key
      let zkey := key + 1000000
      let nz := sparseGet 0 s.traceSeq zkey
      let s1 := { s with traceSeq := sparseSet 0 (sparseSet 0 s.traceSeq key (seq + 1)) zkey (if kind / 16 = 0 then nz + 1 else nz) }
      let mode := traceMode c
      let thinned := mode == 1 && kind / 16 == 0 && nz % 2 ^ bitsOf c.trcfg.toNat 39 36 != 0
      if thinned then s1
      else if mode == 1 && decide (srcDepth src ≤ (srcQueue s src).length) then dropTrace s1 c (ctxSink c)
      else
        let bytes := traceBytes payload (dieNow s (srcFields src).1) seq kind ctx false (mode == 1) src tag.toNat
        { s1 with traceBuf := s1.traceBuf ++ [⟨src, ctx, false, bytes, if mode = 2 then hold else none, s.clk, bitsOf c.trcfg.toNat 1 0, bitsOf c.trcfg.toNat 3 2⟩] }

/-- An event of a tenant that a gang of the source's core causes, or none. -/
def emit (s : State) (src : TraceSource) (ctx kind payload : Nat) (tag : Dword) (slot : Option Nat) : State :=
  emitFor s src ctx kind payload tag (match src, slot with | .core c, some sl => some (c, sl) | _, _ => none)

/-- The gang whose bundle executes, as the cause of an event. -/
def actor (s : State) : Option (Nat × Nat) := if s.cur.live then some (s.cur.core, s.cur.slot) else none

/-- An event that belongs to no tenant (spec/14 R311: `LINKST`, `DTBSTATE`). -/
def emitSys (s : State) (src : TraceSource) (kind payload : Nat) : State :=
  let key := srcNum src * 64 + 32
  let seq := sparseGet 0 s.traceSeq key
  let bytes := traceBytes payload (dieNow s (srcFields src).1) seq kind 0 true false src 0
  { s with
    traceSeq := sparseSet 0 s.traceSeq key (seq + 1)
    traceBuf := s.traceBuf ++ [⟨src, 0, true, bytes, none, s.clk, 1, 0⟩] }

/-- Whether a record that waits for its buffer holds a gang (spec/14 R317). -/
def traceHolds (s : State) (core slot : Nat) : Bool :=
  s.traceBuf.any (fun r => r.hold == some (core, slot) && ((srcQueue s r.src).drop (srcDepth r.src)).contains r)

/-- Whether a record that waits for its buffer holds a unit (spec/14 R317). -/
def unitTraceHeld (s : State) (src : TraceSource) : Bool :=
  match (srcQueue s src).drop (srcDepth src) with
  | [] => false
  | _ => true

/-! ### Fault records -/

/-- A number of zeros. -/
def noMask : Dword := 0#64

/-- The 64 bytes of a fault record (spec/20 R425). -/
def faultBytes (r : FaultRec) : List Byte :=
  toBytes 64 (r.addr.toNat * 2 ^ 448 + r.pc.toNat * 2 ^ 384 + r.tag.toNat * 2 ^ 320 + r.ts.toNat * 2 ^ 256 +
    r.mask.toNat * 2 ^ 192 + r.token.toNat * 2 ^ 160 + r.grid.toNat * 2 ^ 128 + r.team.toNat * 2 ^ 96 +
    r.rkind % 256 * 2 ^ 88 + r.code % 256 * 2 ^ 80 + r.die % 16 * 2 ^ 76 + r.scls % 16 * 2 ^ 72 + r.sidx % 256 * 2 ^ 64 +
    r.gslot % 64 * 2 ^ 58 + r.acc % 4 * 2 ^ 56 + bitNat r.half * 2 ^ 55 + bitNat r.keyed * 2 ^ 54 + r.detail % 2 ^ 48)

/-- The offset in a ring of a size at which the record stands that comes `n` records behind an offset. -/
def ringOff (size wr : Dword) (n : Nat) : Nat := (wr.toNat + 64 * n) % size.toNat

/-- Whether a ring has no room for a record behind `n` that the release has not passed; one of size 0 never has (spec/14 R313, R315; spec/20
R423, R430). -/
def ringFull (size wr rd : Dword) (n : Nat) : Bool := size == 0#64 || ringOff size wr (n + 1) == rd.toNat

/-- The number of records whose completion times have passed before the first whose has not: a release passes them (spec/14 R315). -/
def passedRecs (now : Nat) (pend : List Nat) : Nat := (pend.takeWhile (fun t => decide (t ≤ now))).length

/-- Whether a context's fault queue is full. -/
def fqFull (c : Ctx) : Bool := ringFull c.fqsize c.fqwr c.fqrd c.fqPend.length

/-- A record written into a queue with room, as a store with the tenant's identity; `FQWR` follows with the release (spec/20 R423,
R486). -/
def writeFaultRec (s : State) (c : Ctx) (r : FaultRec) : State :=
  let pa := c.fqbase.toNat + ringOff c.fqsize c.fqwr c.fqPend.length
  if grantRun c false true pa 64 then
    let w := homeWrite s 4 pa (faultBytes r) none
    updCtx w.1 c.id (fun c => { c with fqPend := c.fqPend ++ [w.2] })
  else updCtx s c.id (fun c => { c with fqlost := min (c.fqlost + 1) (2 ^ 32 - 1) })

/-- A context's waiting records written, oldest first, while its queue has room (spec/20 R424). The number bounds the records. -/
def drainRecs (s : State) (ctx : Nat) : Nat → State
  | 0 => s
  | n + 1 =>
    match findCtx s ctx with
    | none => s
    | some c =>
      match c.waitRecs with
      | [] => s
      | r :: rest =>
        if fqFull c then s
        else
          let c1 := { c with waitRecs := rest }
          drainRecs (writeFaultRec (updCtx s ctx (fun _ => c1)) c1 r) ctx n

/-- A record for a context's queue (spec/20 R424): the waiting records go first; with no room, records of RKIND 0 and 1 wait, others
are counted. -/
def postFault (s0 : State) (ctx : Nat) (r : FaultRec) : State :=
  let s := drainRecs s0 ctx (((findCtx s0 ctx).map (·.waitRecs.length)).getD 0)
  match findCtx s ctx with
  | none => s
  | some c =>
    if fqFull c then
      (if r.rkind < 2 then updCtx s ctx (fun c => { c with waitRecs := c.waitRecs ++ [r] })
       else updCtx s ctx (fun c => { c with fqlost := min (c.fqlost + 1) (2 ^ 32 - 1) }))
    else writeFaultRec s c r

/-- A record with the fields that no kind fills at 0 (spec/20 R425). -/
def blankRec (s : State) (ctx : Nat) (grid : Option Nat) (src : TraceSource) (rkind code : Nat) : FaultRec :=
  let (die, cls, idx) := srcFields src
  { addr := 0, pc := 0, tag := (grid.map (gridTag s ctx)).getD 0, ts := toDword (dieNow s die), mask := 0, token := 0,
    grid := (grid.map toWord).getD 0xFFFFFFFF#32, team := 0xFFFFFFFF#32, rkind := rkind, code := code, die := die,
    scls := cls, sidx := idx, gslot := 0, acc := 0, half := false, keyed := false, detail := 0 }

end Sys2Proof.Machine
end

