-- ==== Sys2Proof/Machine/Gangs.lean ====
section
/-! DEFINITION. Gangs at work: paths (spec/16 R338 to R342), the resources of a core (spec/01 R18, spec/16 R347, spec/18
R391, R392), dens (spec/16 R345 to R350), barriers (spec/16 R353 to R356) and retirement (spec/16 R357). -/

namespace Sys2Proof.Machine

/-! ### Paths -/

/-- Whether an outstanding operation is a variable-latency result that a marker waits for (spec/02 R29, R30). A store that another agent
acknowledges is none: only fences are said to wait for that (the model's choice, log entry 102). -/
def markerWaits : OutKind → Bool
  | .external | .crewStore | .pkrWrite | .command | .localTeam | .localPriv => false
  | _ => true

/-- Whether an operation is nothing but registers in flight: it is over once its threads have passed their marker. -/
def markerEnds : OutKind → Bool
  | .command | .localTeam | .localPriv => true
  | _ => false

/-- Whether threads of a mask have results outstanding (spec/02 R29). -/
def resultsOut (g : Gang) (mask : Nat) : Bool := g.out.any (fun o => markerWaits o.kind && (o.mask &&& mask) != 0)

/-- The registers of an operation that no marker waits for, as threads pass their marker. -/
def passMarker (mask : Nat) (o : OutOp) : OutOp := if markerWaits o.kind then o else { o with mask := maskMinus o.mask mask }

/-- A `GWCT` in flight as threads pass their marker. -/
def passGwct (mask : Nat) (l : List GwctFly) : List GwctFly :=
  (l.map (fun f => { f with mask := maskMinus f.mask mask })).filter (fun f => f.mask != 0)

/-- The threads of a mask past their marker: their results, and the scalar results of their operations, are taken in. -/
def settleMask (c : Nat) (g : Gang) (mask : Nat) : Gang :=
  let g0 := updThreads g mask (settleThread c)
  let g1 := { g0 with
    out := (g0.out.map (passMarker mask)).filter (fun o => !(markerEnds o.kind) || o.mask != 0)
    gwctFly := passGwct mask g0.gwctFly }
  let busy := g1.out.filter (fun o => (o.mask &&& maskMinus (gangMask g1) mask) != 0 || (o.mask &&& mask) != 0)
  settleScalars c g1 (fun f => busy.any (fun o => o.id == f.op))

/-- The hold of a marked bundle, if its marker has something to wait for (spec/02 R29). -/
def markerHold (g : Gang) (m : Bool) (mask : Nat) : Option Hold :=
  if m && resultsOut g mask then some ⟨.results, .go false⟩ else none

/-- A path put into the table at a program counter, if an entry is free. `met` says that its threads are past the meeting there (spec/16
R341). -/
def addPath (g : Gang) (pc : Dword) (mask : Nat) (h : Option Hold) (met : Bool) : Option Gang :=
  match freeEntry g with
  | none => none
  | some e => some { g with paths := g.paths ++ [⟨e, pc, mask, h, false, met, 0⟩] }

/-- Threads on their way to a den, as a sub-gang without an entry (spec/16 R342, R348). -/
def parkForDen (s : State) (core slot : Nat) (mask : Nat) (pc : Dword) (k : Nat) : State :=
  let (uid, s1) := newId s
  updGang s1 core slot (fun g => { g with parked := g.parked ++ [⟨uid, mask, pc, .noDen, k, none, false, [], false, false⟩] })

/-- Threads that find no entry in a taped mode park without one (spec/13 R298). They keep their marker (spec/02 R29) and their meeting
(spec/16 R341). -/
def parkNoEntry (s : State) (core slot : Nat) (mask : Nat) (pc : Dword) (m met : Bool) : State :=
  let (uid, s1) := newId s
  updGang s1 core slot (fun g => { g with parked := g.parked ++ [⟨uid, mask, pc, .noEntry, 0, none, true, [], m, met⟩] })

/-- Threads that need a path: a free entry, or a den, or, in a taped mode, a parking place (spec/16 R338, R342; spec/13
R298). -/
def placePath (s : State) (core slot : Nat) (pc : Dword) (mask : Nat) (m met : Bool) : State :=
  match findGang s core slot with
  | none => s
  | some g =>
    if mask = 0 then s
    else match addPath g pc mask (markerHold g m mask) met with
      | some g' => updGang s core slot (fun _ => g')
      | none => if gangMode s g = 0 then parkForDen s core slot mask pc 0 else parkNoEntry s core slot mask pc m met

/-- A path divided by target: the first group keeps the entry, the others take entries in order (spec/16 R338). `m` is the
bundle's marker, which each resulting path is held at on its own (spec/02 R29). -/
def dividePath (s : State) (core slot ent : Nat) (m : Bool) (groups : List (Dword × Nat)) : State :=
  match groups.filter (fun x => x.2 != 0) with
  | [] => s
  | (pc, mask) :: rest =>
    let s1 := updGang s core slot (fun g =>
      let h := markerHold g m mask
      let g1 := if m && !(resultsOut g mask) then settleMask s.freeCtr g mask else g
      updPath g1 ent (fun p => { p with pc := pc, mask := mask, hold := h, passed := false, met := false, sub := 0 }))
    let s2 := rest.foldl (fun s x => placePath s core slot x.1 x.2 m false) s1
    if m then
      rest.foldl (fun s x => updGang s core slot (fun g => if resultsOut g x.2 then g else settleMask s.freeCtr g x.2)) s2
    else s2

/-- Whether a path of a gang is its current one. -/
def isCurrent (g : Gang) (p : Path) : Bool := p.ent == g.curPath

/-- Threads removed from every path of a gang. Where the current path is left empty, the gang goes on from the next entry in table order
with a new quantum (spec/16 R339). -/
def offPaths (g : Gang) (mask : Nat) : Gang :=
  let ps := (g.paths.map (fun p => { p with mask := maskMinus p.mask mask })).filter (fun p => p.mask != 0)
  let gone := g.paths.any (isCurrent g) && !(ps.any (isCurrent g))
  { g with paths := ps, curPath := if gone then (g.curPath + 1) % 8 else g.curPath, quantum := if gone then 0 else g.quantum }

/-- Groups of threads by target, in rising order of their lowest position (spec/16 R338). -/
def groupTargets (l : List (Nat × Dword)) : List (Dword × Nat) :=
  l.foldl (fun acc x =>
    if acc.any (fun y => y.1 == x.2) then acc.map (fun y => if y.1 == x.2 then (y.1, y.2 ||| (1 <<< x.1)) else y)
    else acc ++ [(x.2, 1 <<< x.1)]) []

/-! ### Resources of a core -/

/-- A gang's vector register bytes (spec/01 R18). -/
def gangBytes (s : State) (g : Gang) : Nat := g.size * gangVregs s g * 4

/-- The gangs of a core. -/
def coreGangs (s : State) (core : Nat) : List Gang := s.gangs.filter (fun g => g.core == core)

/-- The core that a den's waiting threads keep their slots on (spec/16 R345). -/
def denCore (s : State) (d : Den) : Option Nat :=
  match d.owner with
  | .team i => (findTeam s d.ctx d.grid i).map (·.core)
  | .freeOnCore c => some c
  | .free => none

/-- The threads that wait in dens bound to a core. -/
def denThreads (s : State) (core : Nat) : Nat :=
  sumNat ((s.dens.filter (fun d => denCore s d == some core)).map (fun d => d.items.length))

/-- The vector register bytes of the threads that wait in dens bound to a core. -/
def denBytes (s : State) (core : Nat) : Nat :=
  sumNat ((s.dens.filter (fun d => denCore s d == some core)).map (fun d =>
    d.items.length * ((findGrid s d.ctx d.grid).map (·.kernel.vregs)).getD 128 * 4))

/-- The pipe a gang of a size takes: the one with fewest threads among those where it fits (spec/18 R392). `occ` holds the
pipe and the size of each gang of the core. -/
def choosePipe (occ : List (Nat × Nat)) (size : Nat) : Option Nat :=
  let load := fun p => sumNat ((occ.filter (fun x => x.1 == p)).map (·.2))
  let fits := (rangeFrom 0 16).filter (fun p =>
    decide ((occ.filter (fun x => x.1 == p)).length < 4) && decide (load p + size ≤ 128))
  fits.foldl (fun b p => match b with
    | none => some p
    | some q => if load p < load q then some p else some q) none

/-- The pipes that gangs of some sizes take one after the other. -/
def choosePipes (occ : List (Nat × Nat)) : List Nat → Option (List Nat)
  | [] => some []
  | z :: zs =>
    match choosePipe occ z with
    | none => none
    | some p => (choosePipes (occ ++ [(p, z)]) zs).map (fun l => p :: l)

/-- The lowest free gang slots of a core. -/
def freeSlots (s : State) (core : Nat) : List Nat :=
  (rangeFrom 0 64).filter (fun i => (coreGangs s core).all (fun g => g.slot != i))

/-- The slots and pipes that `n` gangs of a size take on a core, under R18. `keep` holds back four slots and the room of
four gangs of the largest footprint among the resident kernels and, where a team is being placed, its own (spec/16 R347); `less`
threads of a den move into the gangs. -/
def fitGangs (s : State) (core n size vregs less : Nat) (keep placing : Bool) : Option (List (Nat × Nat)) :=
  let gs := coreGangs s core
  let foot := (s.teams.filter (fun t => t.core == core && !t.retired)).filterMap (fun t =>
    (findGrid s t.ctx t.grid).map (fun g => (g.kernel.gang, g.kernel.gang * g.kernel.vregs * 4))) ++
    (if placing then [(size, size * vregs * 4)] else [])
  let bigT := maxNat (foot.map (·.1))
  let bigB := maxNat (foot.map (·.2))
  let occ := gs.map (fun g => (g.pipe, g.size))
  let threads := sumNat (gs.map (·.size)) + denThreads s core - less + n * size
  let bytes := sumNat (gs.map (gangBytes s)) + denBytes s core - less * vregs * 4 + n * size * vregs * 4
  let slots := (freeSlots s core).take n
  if slots.length < n ∨ gs.length + n > (if keep then 60 else 64) then none
  else if threads + (if keep then 4 * bigT else 0) > 2048 then none
  else if bytes + (if keep then 4 * bigB else 0) > 512 * 1024 then none
  else match choosePipes occ (List.replicate n size) with
    | none => none
    | some ps =>
      if keep && (choosePipes (occ ++ ps.map (fun p => (p, size))) (List.replicate 4 bigT)).isNone then none
      else some (slots.zip ps)

/-! ### Gangs formed -/

/-- The scalar registers at gang start (spec/02 R37, spec/03 R70, R72). -/
def startScalars (s : State) (ctx grid : Nat) : Sparse Word :=
  match findGrid s ctx grid with
  | some gr =>
    sparseSetAll 0#32 [] ([(0, loWord gr.launch.args), (1, hiWord gr.launch.args)] ++
      (rangeFrom 2 32).zip (gr.argWords.take 32) ++ [(34, loWord gr.logCopy), (35, hiWord gr.logCopy)])
  | none => []

/-- A gang as it starts: all its threads on one path (spec/02 R37, R38; spec/16 R346). -/
def newGang (s : State) (uid core slot pipe ctx grid : Nat) (team : Option Nat) (ix size : Nat) (ths : List Thread)
    (pc : Dword) : Gang :=
  { uid := uid, core := core, slot := slot, pipe := pipe, ctx := ctx, grid := grid, team := team, ix := ix, size := size,
    sregs := startScalars s ctx grid, sflight := [], spoison := [], rm := 0, fstat := 0, anchor := 0, nfcnt := 0, gwct := 0, gwctFly := [],
    escb := 0, escs := 0, escpr := 0, escqs := 0, trstl := 0, tapeHead := 0, tapeSeq := 0, wake := 0, threads := ths,
    paths := [⟨0, pc, maskOf (ths.map (·.lpos)), none, false, false, 0⟩], curPath := 0, quantum := 0, parked := [], out := [] }

/-- A thread with every register at 0. -/
def blankThread (uid lpos : Nat) (tid : Dword) (tidx : Option Nat) : Thread :=
  { uid := uid, lpos := lpos, v := [], preds := 0, meet := 0xFFFFFFFFFFFFFFFF#64, link := 0, tid := tid, tidx := tidx,
    inHandler := false, inflight := [], pend := [], poison := [], lr := none, lastPage := none, lastPc := 0, spawned := false,
    owes := [], dfrTrap := none }

/-- The thread a continuation record restores (spec/16 R349, R350). -/
def recordThread (uid lpos : Nat) (rec : List Byte) : Thread :=
  let nreg := bitsOf (fieldAt rec 0 4) 15 11
  let rlist := fieldAt rec 0 16 / 2 ^ 16
  let tix := bitsOf (fieldAt rec 16 8) 63 22
  let regs := (rangeFrom 0 nreg).map (fun k => (bitsOf rlist (7 * k + 6) (7 * k), toWord (fieldAt rec (64 + 4 * k) 4)))
  { blankThread uid lpos 0xFFFFFFFFFFFFFFFF#64 (if tix = 2 ^ 42 - 1 then none else some tix) with
    v := sparseSetAll 0#32 [] regs
    preds := BitVec.ofNat 8 (fieldAt rec 16 1 % 128)
    meet := toDword (fieldAt rec 32 8)
    link := toDword (fieldAt rec 24 8) }

/-! ### Dens -/

/-- The length of a den's timer in ticks (spec/16 R346). -/
def denTicks (k : Nat) : Nat := ceilDiv (160 * (256 * 4 ^ k)) 17

/-- The timer index of an item. -/
def itemK : DenItem → Nat
  | .thread _ k => k
  | .record r _ => r.k

/-- A den's table: 32 dens for a cluster (spec/16 R345). -/
def denCount (s : State) (cluster : Nat) : Nat := (s.dens.filter (fun d => d.cluster == cluster)).length

/-- The den of a key, if the cluster has it. -/
def findDen (s : State) (cluster ctx grid : Nat) (pc : Dword) (o : DenOwner) : Option Den :=
  s.dens.find? (fun d => d.cluster == cluster && d.ctx == ctx && d.grid == grid && d.pc == pc && d.owner == o)

/-- The gang size of a grid's kernel. -/
def gridGangSize (s : State) (ctx grid : Nat) : Nat := ((findGrid s ctx grid).map (·.kernel.gang)).getD 8

/-- Where a continuation record lies for a die: its HOME attribute, 5 for the own node window, and its physical address, if its tenant may
read and write it there now: a record of `SUSP` is translated, one of `SPAWN` lies in the den area; both are checked against the grants
(spec/19 R398, R414). -/
def recordPlace (s : State) (die ctx : Nat) (r : ContRec) : Option (Nat × Nat) :=
  if r.virt then
    match unitTranslate s die ctx r.addr 128 .read, unitTranslate s die ctx r.addr 128 .write with
    | .ok _, .ok tr => if pteTgt tr.pte = 0 then some (pteHome tr.pte, transPa tr r.addr)
      else if pteTgt tr.pte = 5 then some (5, transPa tr r.addr) else none
    | _, _ => none
  else
    (findCtx s ctx).bind (fun c =>
      if grantRun c false false r.addr 128 && grantRun c false true r.addr 128 then some (4, r.addr) else none)

/-- The 128 bytes of a record at its place; the own node window reads 0 (spec/18 R386). -/
def placeBytes (s : State) (p : Nat × Nat) : List Byte := if p.1 = 5 then List.replicate 128 0#8 else memBytes s p.2 128

/-- The record of a formed thread: STATE becomes 1 (spec/16 R350). -/
def markResumed (s : State) (core ctx grid home pa : Nat) : State :=
  if home = 5 then windowStore s core ctx grid (pa + 1) 1
  else (homeWrite s home (pa + 1) [(memByte s (pa + 1)) ||| 1#8] none).1

/-- The threads that items form, with the state after their records are marked and their den-area slots freed. A record that its tenant
cannot reach any more forms no thread and stays with its grid (log entry 81). -/
def formThreads (s : State) (die ctx grid : Nat) : Nat → List DenItem → State × List Thread
  | _, [] => (s, [])
  | l, .thread t _ :: rest =>
    let (s1, ts) := formThreads s die ctx grid (l + 1) rest
    (s1, { t with lpos := l } :: ts)
  | l, .record r sl :: rest =>
    match recordPlace s die ctx r with
    | none => formThreads s die ctx grid l rest
    | some (home, pa) =>
      let (uid, s1) := newId s
      let t := { recordThread uid l (placeBytes s (home, pa)) with owes := r.owes }
      let s2 := markResumed s1 (die * 96) ctx grid home pa
      let s3 := updGrid s2 ctx grid (fun g => { g with freeLive := uid :: g.freeLive, conts := g.conts.filter (· != r) })
      let s4 := match sl with
        | some n => updCtx s3 ctx (fun c => { c with denUsed := c.denUsed.filter (· != n) })
        | none => s3
      let (s5, ts) := formThreads s4 die ctx grid (l + 1) rest
      (s5, t :: ts)

/-- The cores of a cluster that a free den may form its gang on: those its tenant's partition grants (spec/16 R345). -/
def denCores (s : State) (d : Den) : List Nat :=
  match denCore s d with
  | some c => [c]
  | none =>
    match findCtx s d.ctx with
    | some c => if c.coreset.getLsbD d.cluster then rangeFrom (d.cluster * 4) 4 else []
    | none => []

/-- The slot and the pipe that a den's next gang finds on a core (spec/16 R347). -/
def denFit (s : State) (d : Den) (core : Nat) : Option (Nat × Nat) :=
  let size := gridGangSize s d.ctx d.grid
  let vregs := ((findGrid s d.ctx d.grid).map (·.kernel.vregs)).getD 128
  let bound := (denCore s d).isSome
  (fitGangs s core 1 size vregs (if bound then min size d.items.length else 0) (!bound) false).bind (·.head?)

/-- Whether a path held at a `SPLIT` of a core for a gang slot would find one now (spec/17 R376). -/
def splitFits (s : State) (w : Waiter) : Bool :=
  match w.cond with
  | .gangSlot size less =>
    (findGang s w.core w.slot).any (fun g => resident s g.ctx && (findPath g w.ent).any (fun p => p.pc == w.pc) &&
      (fitGangs s w.core 1 size (gangVregs s g) less true false).isSome)
  | _ => false

/-- Whether a path that has waited for a gang slot of a core for longer than a den would find one now: it goes first (spec/18 R397). -/
def splitFirst (s : State) (d : Den) (core : Nat) : Bool :=
  s.waiters.any (fun w => w.queue == 7000 + core && d.waiting.all (fun k => decide (w.since < k)) && splitFits s w)

/-- Where a den's next gang fits in its turn (spec/16 R347, spec/18 R397): the core, the slot and the pipe. -/
def denPlace (s : State) (d : Den) : Option (Nat × Nat × Nat) :=
  (denCores s d).findSome? (fun c => if splitFirst s d c then none else (denFit s d c).map (fun x => (c, x.1, x.2)))

/-- Whether a den that has waited for a gang slot no less long than a path finds one on its core now: it goes first (spec/18 R397). -/
def denBefore (s : State) (core since : Nat) : Bool :=
  s.dens.any (fun d => d.waiting.any (fun k => decide (k ≤ since)) && resident s d.ctx && (denCores s d).contains core && (denFit s d core).isSome)

/-- A den waits for a gang slot with room. -/
def waitDen (s : State) (id : Nat) : State :=
  { s with dens := s.dens.map (fun x => if x.id == id then { x with waiting := some (x.waiting.getD s.clk) } else x) }

/-- Whether a den that has waited longer than another finds a slot now: it forms first (spec/16 R347). -/
def olderDen (s : State) (d : Den) : Bool :=
  s.dens.any (fun x => x.id != d.id && resident s x.ctx && (denPlace s x).isSome &&
    x.waiting.any (fun k => match d.waiting with | none => true | some n => decide (k < n) || (k == n && decide (x.id < d.id))))

/-- A den without its first items; one that still holds threads starts its timer again, and one that holds none is freed (spec/16
R346). -/
def denRest (now size : Nat) (d : Den) : List Den :=
  match d.items.drop size with
  | [] => []
  | i :: is => [{ d with items := i :: is, waiting := none, full := decide (size ≤ is.length + 1), expiry := now + denTicks (itemK i) }]

/-- A den forms one gang of the threads that arrived first, in a slot of a core (spec/16 R346). Threads that come from other cores find no
older copies of what they have read (spec/11 R236). -/
def formOne (s : State) (d : Den) (core slot pipe : Nat) : State :=
  let size := gridGangSize s d.ctx d.grid
  let s0 := match d.owner with
    | .free => freshCaches s core
    | _ => s
  let (s1, ths) := formThreads s0 (coreDie core) d.ctx d.grid 0 (d.items.take size)
  let (uid, s2) := newId s1
  let team := match d.owner with | .team i => some i | _ => none
  let gang := newGang s2 uid core slot pipe d.ctx d.grid team slot size ths d.pc
  { s2 with
    gangs := if ths.isEmpty then s2.gangs else s2.gangs ++ [{ gang with wake := s.dtb + msgTicks 0 1 }]
    dens := s2.dens.flatMap (fun x => if x.id == d.id then denRest (dieNow s (clusterDie d.cluster)) size d else [x]) }

/-- A den forms a gang, and further ones while it holds a full gang; with no slot, or behind an older den that finds one, it waits
(spec/16 R346, R347). The number bounds the gangs. -/
def formGangs (s : State) (id : Nat) : Nat → State
  | 0 => s
  | n + 1 =>
    match s.dens.find? (fun d => d.id == id) with
    | none => s
    | some d =>
      match denPlace s d with
      | none => waitDen s id
      | some (core, slot, pipe) =>
        if olderDen s d then waitDen s id
        else
          let s1 := formOne s d core slot pipe
          if (s1.dens.find? (fun x => x.id == id)).any (·.full) then formGangs s1 id n else s1

/-- A den forms its gangs, or waits for a slot (spec/16 R346, R347). -/
def formDen (s : State) (id : Nat) : State :=
  formGangs s id (((s.dens.find? (fun d => d.id == id)).map (fun d => d.items.length)).getD 0)

/-- The den owner of a gang's threads (spec/16 R345, spec/17 R369). -/
def denOwnerOf (g : Gang) : DenOwner :=
  match g.team with
  | some i => .team i
  | none => .freeOnCore g.core

/-- Whether a sub-gang of a cluster that was formed before a name waits for a den of its own: it enters one first (spec/16 R348). -/
def denAwaited (s : State) (cluster uid : Nat) : Bool :=
  s.gangs.any (fun g => coreCluster g.core == cluster && g.parked.any (fun p => p.cause == .noDen && decide (p.uid < uid) &&
    !(resultsOut g p.mask) && (findDen s cluster g.ctx g.grid p.pc (denOwnerOf g)).isNone))

/-- An item that enters the den of its key; none when the cluster's table is full, or where a new den is due to threads that have waited
longer (spec/16 R345, R346, R348). `uid` is the name of its sub-gang, or the latest name. -/
def enterDen (s : State) (uid cluster ctx grid : Nat) (pc : Dword) (o : DenOwner) (it : DenItem) : Option State :=
  let now := dieNow s (clusterDie cluster)
  let size := gridGangSize s ctx grid
  match findDen s cluster ctx grid pc o with
  | some d =>
    let n := d.items.length + 1
    let s1 := { s with dens := s.dens.map (fun x =>
      if x.id == d.id then { x with items := x.items ++ [it], full := decide (size ≤ n) } else x) }
    some (if size ≤ n then formDen s1 d.id else s1)
  | none =>
    if 32 ≤ denCount s cluster || denAwaited s cluster uid then none
    else
      let (id, s1) := newId s
      let d : Den := ⟨id, cluster, ctx, grid, pc, o, [it], now + denTicks (itemK it), none, decide (size ≤ 1)⟩
      some { s1 with dens := s1.dens ++ [d] }

/-- Whether nothing of a gang is left: no thread, no access, no engine command, no element in the parking queue (spec/16 R357, spec/17
R368, spec/05 R114). -/
def gangOver (s : State) (g : Gang) : Bool :=
  g.threads.isEmpty && g.out.isEmpty && s.wbuf.all (fun b => !(b.core == g.core && b.slot == g.slot)) &&
  s.cmds.all (fun c => c.gang != g.uid) &&
  s.parkq.all (fun e => !(e.cmd == 0 && e.cluster * 4 + e.core == g.core && e.slot == g.slot))

/-- A gang slot freed once its last thread has gone and its accesses and commands have returned (spec/16 R357). -/
def retireGang (s : State) (core slot : Nat) : State :=
  match findGang s core slot with
  | none => s
  | some g => if gangOver s g then dropGang s core slot else s

/-- Every gang slot freed that can be. -/
def freeGangs (s : State) : State := if s.gangs.any (gangOver s) then { s with gangs := s.gangs.filter (fun g => !(gangOver s g)) } else s

/-- Whether an operation is a store that its destination acknowledges: no marker waits for it, so its thread may leave the gang before. -/
def isStray : OutKind → Bool
  | .external | .crewStore => true
  | _ => false

/-- A thread about to leave its gang, with the names of its stores that are not acknowledged (spec/11 R237). -/
def owing (g : Gang) (t : Thread) : Thread :=
  { t with owes := (g.out.filter (fun o => isStray o.kind && bitOf o.mask t.lpos)).map (·.id) ++ t.owes }

/-- An unacknowledged store of a gang that threads have left: it is theirs no more by its positions. -/
def strayOp (mask : Nat) (o : OutOp) : OutOp := if isStray o.kind then { o with mask := maskMinus o.mask mask } else o

/-- Threads taken off a gang, alive. -/
def removeThreads (g : Gang) (mask : Nat) : Gang :=
  let g1 := offPaths g mask
  { g1 with
    out := g1.out.map (strayOp mask)
    gwctFly := passGwct mask g1.gwctFly
    threads := g1.threads.filter (fun t => !(bitOf mask t.lpos))
    parked := (g1.parked.map (fun p => { p with mask := maskMinus p.mask mask })).filter (fun p => p.mask != 0) }

/-- A sub-gang on its way to a den enters it, thread by thread, once its results are in (spec/16 R348, spec/17 R369). -/
def tryDen (s : State) (core slot uid : Nat) : State :=
  match findGang s core slot with
  | none => s
  | some g =>
    match g.parked.find? (fun p => p.uid == uid && p.cause == .noDen) with
    | none => s
    | some p =>
      if resultsOut g p.mask then s
      else
        let g1 := settleMask s.freeCtr g p.mask
        let s1 := markLines (updGang s core slot (fun _ => g1)) g1 (threadsOf g1 p.mask)
        let s2 := (threadsOf g1 p.mask).foldl (fun s t =>
          match enterDen (updGang s core slot (fun g => removeThreads g (1 <<< t.lpos))) uid (coreCluster core) g.ctx g.grid p.pc
              (denOwnerOf g) (.thread { owing g1 t with lastPage := none } p.k) with
          | some s' => s'
          | none => s) s1
        retireGang s2 core slot

/-- Every sub-gang of a gang that is on its way to a den tries to enter it. -/
def tryDens (s : State) (core slot : Nat) : State :=
  match findGang s core slot with
  | none => s
  | some g => (g.parked.filter (fun p => p.cause == .noDen)).foldl (fun s p => tryDen s core slot p.uid) s

/-! ### Barriers -/

/-- The key of barrier `n` of a level; the mode barrier's is 2048 (spec/13 R297). -/
def barKey (level n : Nat) : Nat := level * 256 + n

/-- The key of the mode barrier (spec/13 R297). -/
def modeKey : Nat := 2048

/-- A barrier of a list, at phase 0 where none is listed. -/
def getBar (l : List Barrier) (key : Nat) : Barrier := (l.find? (fun b => b.key == key)).getD ⟨key, 0, [], 0⟩

/-- A list with a barrier put into it. -/
def putBar (l : List Barrier) (b : Barrier) : List Barrier := b :: l.filter (fun x => x.key != b.key)

/-- The teams that a barrier's participants belong to (spec/16 R353). -/
def barTeams (s : State) (ctx grid : Nat) (team : Team) (key : Nat) : List Team :=
  match key / 256 with
  | 1 => s.teams.filter (fun t => t.ctx == ctx && t.grid == grid && t.crew == team.crew)
  | 2 => s.teams.filter (fun t => t.ctx == ctx && t.grid == grid)
  | 3 =>
    let members := match findGrid s ctx grid with
      | some g => (sparseGet none g.groups (key % 256)).getD []
      | none => []
    s.teams.filter (fun t => t.ctx == ctx && t.grid == grid && members.contains t.index)
  | _ => [team]

/-- The barrier of a key, where its level holds it. -/
def readBar (s : State) (team : Team) (key : Nat) : Barrier :=
  match key / 256 with
  | 1 => getBar (((findCrew s team.ctx team.grid team.crew).map (·.bars)).getD []) key
  | 2 | 3 => getBar (((findGrid s team.ctx team.grid).map (·.bars)).getD []) key
  | _ => getBar (((findTeam s team.ctx team.grid team.index).map (·.bars)).getD []) key

/-- The state with a barrier changed. -/
def writeBar (s : State) (team : Team) (b : Barrier) : State :=
  match b.key / 256 with
  | 1 => updCrew s team.ctx team.grid team.crew (fun c => { c with bars := putBar c.bars b })
  | 2 | 3 => updGrid s team.ctx team.grid (fun c => { c with bars := putBar c.bars b })
  | _ => updTeam s team.ctx team.grid team.index (fun c => { c with bars := putBar c.bars b })

/-- The phase a thread last arrived in. -/
def lastArrival (b : Barrier) (uid : Nat) : Option Nat := (b.arrived.find? (fun x => x.1 == uid)).map (·.2)

/-- A thread's arrival recorded (spec/16 R354). -/
def barArriveOne (b : Barrier) (uid : Nat) : Barrier :=
  { b with arrived := (uid, b.phase) :: b.arrived.filter (fun x => x.1 != uid) }

/-- The mode switch at the completion of the mode barrier: the new mode, or the region-access trap for the arrived paths
(spec/13 R297). -/
def completeMode (s : State) (team : Team) (phase : Nat) : State :=
  let reqs := (team.modeReq.filter (fun x => team.live.contains x.1)).map (·.2)
  let agree := match reqs with | [] => true | m :: ms => ms.all (· == m)
  let s1 := updTeam s team.ctx team.grid team.index (fun t =>
    { t with dmode := if agree then reqs.headD t.dmode else t.dmode, modeReq := [] })
  if agree then s1
  else
    { s1 with gangs := s1.gangs.map (fun g =>
        if g.ctx == team.ctx && g.grid == team.grid && g.team == some team.index then
          { g with paths := g.paths.map (fun p =>
              if p.hold.any (fun h => h.cond == .modeBarrier phase) then
                { p with hold := some ⟨.modeBarrier phase, .trap ⟨6, 0, 0xFFFFFFFF#32, p.pc - 4, p.pc - 4, false⟩⟩ }
              else p) }
        else g) }

/-- The least ticks of the message that tells a core of a barrier's completion: a team's barrier lies in its core, a crew's in one cluster
(spec/14 R308). -/
def barTicks (key : Nat) : Nat :=
  match key / 256 with
  | 1 => msgTicks 0 0
  | 2 | 3 => msgTicks 0 1
  | _ => 0

/-- The `BARDONE` events of the cores that the message of a completion has reached (spec/14 R308, R311). -/
def sendBarDones (s : State) : State :=
  let here := fun (b : BarDone) => decide (b.due ≤ s.dtb)
  (s.barDones.filter here).foldl (fun s b => emitFor s (.core b.core) b.ctx 0x0A b.payload b.tag b.actor)
    { s with barDones := s.barDones.filter (fun b => !(here b)) }

/-- A barrier whose participants have all arrived completes its phase (spec/16 R354): `BARDONE` on each core that holds a
participant, once the message is there. -/
def completeBar (s : State) (team0 : Team) (key : Nat) : State :=
  let team := (findTeam s team0.ctx team0.grid team0.index).getD team0
  let b := readBar s team key
  let teams := barTeams s team.ctx team.grid team key
  let parts := teams.flatMap (·.live)
  if parts.isEmpty || !(parts.all (fun u => lastArrival b u == some b.phase)) then s
  else
    let s1 := writeBar s team { b with phase := b.phase + 1, doneAt := s.dtb }
    if key = modeKey then completeMode s1 team b.phase
    else
      let cores := (teams.filter (fun t => !t.live.isEmpty)).foldl (fun l t => if l.contains t.core then l else l ++ [t.core]) []
      sendBarDones { s1 with barDones := s1.barDones ++ cores.map (fun c =>
        ⟨c, team.ctx, key / 256 + key % 256 * 4, gridTag s team.ctx team.grid, actor s, s.dtb + barTicks key⟩) }

/-- Every barrier that a team's threads take part in is looked at again, after threads have exited (spec/16 R353). -/
def recheckBars (s : State) (ctx grid index : Nat) : State :=
  match findTeam s ctx grid index with
  | none => s
  | some t =>
    let keys := t.bars.map (·.key) ++ (((findCrew s ctx grid t.crew).map (·.bars)).getD []).map (·.key) ++
      (((findGrid s ctx grid).map (·.bars)).getD []).map (·.key)
    let others := s.teams.filter (fun x => x.ctx == ctx && x.grid == grid)
    keys.foldl (fun s k =>
      match (barTeams s ctx grid t k) with
      | [] => s
      | _ => if k / 256 = 3 then others.foldl (fun s o => completeBar s o k) s else completeBar s t k) s

/-! ### Retirement -/

/-- Whether an engine command that names a team is not complete. -/
def teamBusy (s : State) (t : Team) : Bool :=
  s.cmds.any (fun c => c.ctx == t.ctx && c.grid == t.grid && c.team == some t.index)

/-- A team retires when its last thread has exited: convergence registers, guards and barriers are freed. A command that its guard still
holds counts as guarded false, one whose guard is set keeps the guard's value: nothing can set or arm the slot any more (spec/16 R357,
spec/09 R202). -/
def retireTeam (s : State) (ctx grid index : Nat) : State :=
  match findTeam s ctx grid index with
  | none => s
  | some t =>
    if t.retired || !t.live.isEmpty then s
    else
      let s1 := emitFor s (.core t.core) ctx 0x04 (t.index % 2 ^ 32 + t.core % 512 * 2 ^ 32) (gridTag s ctx grid) (actor s)
      let s2 := updTeam s1 ctx grid index (fun t => { t with retired := true, bars := [], conv := [] })
      let s3 := { s2 with cmds := (s2.cmds.filter (fun c => !(c.stage == .forming && c.ctx == ctx && c.grid == grid && c.team == some index))).map (fun c =>
        if c.ctx == ctx && c.grid == grid && c.team == some index && c.stage == .queued && c.sampled == none then
          match c.guard with
          | some n => { c with sampled := some (sparseGet .isFalse t.guards n == .isTrue) }
          | none => c
        else c) }
      let s4 := updTeam s3 ctx grid index (fun t => { t with guards := [] })
      updGrid s4 ctx grid (fun g => { g with teamsDone := g.teamsDone + 1, heard := s.dtb })

/-- An outstanding operation without the threads of a mask: a load that nobody waits for is discarded, a store or an atomic
completes as if its thread lived (spec/17 R368), and a reduction and the read of an adjoint bring their flags (spec/06 R138, spec/13
R302). -/
def dropLoads (mask : Nat) (o : OutOp) : List OutOp :=
  match o.kind with
  | .gred _ _ | .adjRead => [{ o with mask := maskMinus o.mask mask }]
  | .load _ _ | .loadTeam _ | .loadPriv _ | .loadScalar _ | .command | .localTeam | .localPriv =>
    let m := maskMinus o.mask mask
    if m = 0 then []
    else [{ o with mask := m, parts := o.parts.filter (fun p => !(bitOf mask p.lpos)), got := o.got.filter (fun a => !(bitOf mask a.lpos)) }]
  | _ => [o]

/-- Threads leave for good: by `EXIT`, or for their team by `SUSP` (spec/17 R368, R372). Gang, barriers and team follow. -/
def exitThreads (s : State) (core slot mask : Nat) : State :=
  match findGang s core slot with
  | none => s
  | some g =>
    let uids := (threadsOf g mask).map (·.uid)
    let g1 := removeThreads g mask
    let g2 := { g1 with out := g1.out.flatMap (dropLoads mask) }
    let s1 := markLines (updGang s core slot (fun _ => g2)) g (threadsOf g mask)
    let s2 := match g.team with
      | some i => updTeam s1 g.ctx g.grid i (fun t => { t with live := t.live.filter (fun u => !(uids.contains u)) })
      | none => updGrid s1 g.ctx g.grid (fun t => { t with freeLive := t.freeLive.filter (fun u => !(uids.contains u)) })
    let s3 := match g.team with
      | some i => retireTeam (recheckBars s2 g.ctx g.grid i) g.ctx g.grid i
      | none => s2
    retireGang s3 core slot

end Sys2Proof.Machine
end

