-- ==== Sys2Proof/Machine/Ops.lean ====
section
/-! DEFINITION. The shared operations of the instructions: parking and faults (spec/00 R9, spec/20 R420 to R426), taking a
trap and killing a launch (spec/20 R433 to R437), stores to team memory (spec/12 R262), the writing of registers
(spec/02 R31), and the frames in which lane-wise and uniform bundles execute (spec/02 R29, R32; spec/06 R120, R121). -/

namespace Sys2Proof.Machine

/-- A meaning's outcome: every meaning of this model answers a next state. -/
abbrev Res := Host.Outcome State Fault Refusal

/-! ### Parking -/

/-- The payload of `PARK` and `UNPARK` (spec/14 R311). -/
def parkPayload (mask slot : Nat) (pc : Dword) (cause : Nat) : Nat :=
  mask % 2 ^ 64 + slot % 64 * 2 ^ 64 + pc.toNat * 2 ^ 70 + cause % 256 * 2 ^ 134

/-- The code of a parked sub-gang's cause (spec/20 R420). -/
def causeCode : ParkCause → Nat
  | .fault _ _ k => faultCode k
  | _ => 0xFF

/-- Whether parking for a cause clears the threads' reservations (spec/11 R249). -/
def clearsLr : ParkCause → Bool
  | .elem _ _ _ _ | .fault _ _ _ => true
  | _ => false

/-- Threads of a path split off as a parked sub-gang (spec/00 R9, spec/05 R113). Answers the sub-gang's name too. -/
def parkThreads (s : State) (core slot mask : Nat) (pc : Dword) (cause : ParkCause) (k : Nat) (t : Option TrapInfo) :
    State × Nat :=
  let (uid, s1) := newId s
  (updGang s1 core slot (fun g =>
    let g1 := if clearsLr cause then updThreads (offPaths g mask) mask (fun t => { t with lr := none }) else offPaths g mask
    { g1 with parked := g1.parked ++ [⟨uid, mask, pc, cause, k, t, false, [], false, true⟩] }), uid)

/-- The `PARK` event of a sub-gang (spec/02 R32, spec/14 R311). -/
def emitPark (s : State) (g : Gang) (mask : Nat) (pc : Dword) (cause : Nat) : State :=
  emit s (.core g.core) g.ctx 0x05 (parkPayload mask g.slot pc cause) (gridTag s g.ctx g.grid) (some g.slot)

/-- A thread that parks: its position, the position of the element's thread, and the element. -/
abbrev PendUse := Nat × Nat × PendElem

/-- The threads that access pending elements, each with the element it parks on (spec/02 R32). -/
def pendUses (ts : List Thread) (regs : List Nat) : List PendUse :=
  ts.filterMap (fun t => (pendHit t regs).map (fun e => (t.lpos, t.lpos, e)))

/-- The distinct elements on which threads park, each with its threads (spec/02 R32). -/
def pendGroups (us : List PendUse) : List (PendUse × Nat) :=
  us.foldl (fun acc u =>
    let same := fun (x : PendUse × Nat) => x.1.2.2.seq == u.2.2.seq && x.1.2.2.reg == u.2.2.reg && x.1.2.2.half == u.2.2.half
    if acc.any same then acc.map (fun x => if same x then (x.1, x.2 ||| (1 <<< u.1)) else x)
    else acc ++ [(u, 1 <<< u.1)]) []

/-- Threads that access pending elements park, one sub-gang for each element (spec/02 R32, spec/05 R117). -/
def parkUses (s : State) (g : Gang) (us : List PendUse) : State :=
  (pendGroups us).foldl (fun s x =>
    let s1 := (parkThreads s g.core g.slot x.2 s.cur.pc (.elem x.1.2.1 x.1.2.2.reg x.1.2.2.half x.1.2.2.seq) 0 none).1
    let s2 := updGang s1 g.core g.slot (fun g => { g with escpr := g.escpr + 1 })
    emitPark (countEsc s2 (coreCluster g.core) 2 1) g x.2 s.cur.pc 0xFF) s

/-! ### Faults -/

/-- One thread's fault: its position, the kind, the address and the access. -/
structure LaneFault where
  lpos : Nat
  kind : FaultKind
  addr : Nat
  acc  : Acc
  deriving DecidableEq, Repr

/-- Whether a token keys an entry of a die's wait table (spec/20 R421). -/
def tokenLive (s : State) (die count : Nat) : Bool :=
  s.waits.any (fun w => w.die == die && !w.byPage && w.key % 2 ^ 30 == count) ||
  s.saved.any (fun v => v.waits.any (fun w => w.die == die && !w.byPage && w.key % 2 ^ 30 == count))

/-- The next count of a die that keys no entry: it wraps from 2^30 - 1 to 1 (spec/20 R421). The second number bounds the counts
tried: there is one more than there are entries. -/
def nextCount (s : State) (die : Nat) : Nat → Nat → Nat
  | 0, n => n
  | fuel + 1, n =>
    let k := if n = 0 ∨ 2 ^ 30 ≤ n then 1 else n
    if tokenLive s die k then nextCount s die fuel (k + 1) else k

/-- A new fault token of a die (spec/20 R421). -/
def newToken (s : State) (die : Nat) : Nat × State :=
  let live := sumNat (s.saved.map (fun v => v.waits.length)) + s.waits.length
  let c := nextCount s die (live + 2) (s.tokens.getD die 1)
  (die * 2 ^ 30 + c, { s with tokens := s.tokens.set die (if c + 1 = 2 ^ 30 then 1 else c + 1) })

/-- The entries of a die's wait table (spec/20 R421). -/
def waitCount (s : State) (die : Nat) : Nat := (s.waits.filter (fun w => w.die == die)).length

/-- Whether a key has an entry. -/
def waitHas (s : State) (die ctx : Nat) (byPage : Bool) (key : Nat) : Bool :=
  s.waits.any (fun w => w.die == die && w.ctx == ctx && w.byPage == byPage && w.key == key)

/-- An item listed under a key: it joins the key's entry, or opens one (spec/20 R421). -/
def joinWait (s : State) (die ctx : Nat) (byPage : Bool) (key : Nat) (it : WaitItem) : State :=
  if waitHas s die ctx byPage key then
    { s with waits := s.waits.map (fun w =>
        if w.die == die && w.ctx == ctx && w.byPage == byPage && w.key == key then { w with items := w.items ++ [it] } else w) }
  else { s with waits := s.waits ++ [⟨die, ctx, byPage, key, [it], dieNow s die⟩] }

/-- The faults of a bundle grouped as its records are: by kind, and by page where the kind is keyed by page. -/
def faultGroups (fs : List LaneFault) : List (LaneFault × Nat) :=
  fs.foldl (fun acc f =>
    let same := fun (x : LaneFault × Nat) => x.1.kind == f.kind && x.1.acc == f.acc && (!(faultByPage f.kind) || x.1.addr / 4096 == f.addr / 4096)
    if acc.any same then acc.map (fun x => if same x then (x.1, x.2 ||| (1 <<< f.lpos)) else x)
    else acc ++ [(f, 1 <<< f.lpos)]) []

/-- How many new wait-table entries a bundle's faults need. -/
def newEntries (s : State) (die ctx : Nat) (gs : List (LaneFault × Nat)) : Nat :=
  (gs.filter (fun x => !(faultByPage x.1.kind && waitHas s die ctx true (x.1.addr / 4096)))).length

/-- The fault record of threads of a gang (spec/20 R425, R426). -/
def threadRec (s : State) (g : Gang) (mask : Nat) (pc : Dword) (kind : FaultKind) (addr : Nat) (acc : Acc) (token : Nat) :
    FaultRec :=
  { blankRec s g.ctx (some g.grid) (.core g.core) 0 (faultCode kind) with
    addr := toDword addr, pc := pc, mask := toDword mask, token := toWord token, team := gangTeamReg g, gslot := g.slot,
    acc := accCode acc, keyed := faultByPage kind }

/-- The addresses of the faulting threads kept with their sub-gang (spec/20 R431, R433). -/
def keepAddrs (uid : Nat) (addrs : List (Nat × Nat)) (g : Gang) : Gang :=
  { g with parked := g.parked.map (fun p => if p.uid == uid then { p with addrs := addrs } else p) }

/-- One group of faulting threads: its record, its wait-table entry and its parked sub-gang (spec/00 R9, spec/20 R420 to
R425). -/
def faultGroup (s : State) (g : Gang) (pc : Dword) (f : LaneFault) (mask : Nat) (addrs : List (Nat × Nat)) : State :=
  let die := coreDie g.core
  let byPage := faultByPage f.kind
  let (key, s1) := if byPage then (f.addr / 4096, s) else newToken s die
  let (s2, uid) := parkThreads s1 g.core g.slot mask pc (.fault byPage key f.kind) 0 none
  let s3 := joinWait (updGang s2 g.core g.slot (keepAddrs uid addrs)) die g.ctx byPage key (.parked g.core g.slot uid)
  let s4 := postFault s3 g.ctx (threadRec s3 g mask pc f.kind f.addr f.acc (if byPage then 0 else key))
  emitPark s4 g mask pc (faultCode f.kind)

/-- The faults of a bundle (spec/00 R9). -/
def faultThreads (s : State) (g : Gang) (pc : Dword) (fs : List LaneFault) : State :=
  (faultGroups fs).foldl (fun s x =>
    faultGroup s g pc x.1 x.2 ((fs.filter (fun f => bitOf x.2 f.lpos)).map (fun f => (f.lpos, f.addr)))) s

/-- A fault of one thread that parks all threads of its path (spec/20 R419). -/
def faultPath (s : State) (g : Gang) (pc : Dword) (mask : Nat) (f : LaneFault) : State :=
  faultGroup s g pc f mask ((threadsOf g mask).map (fun t => (t.lpos, f.addr)))

/-! ### Holds -/

/-- The queue whose slot a condition waits for (the model's own numbering of the queues of spec/16 R359). -/
def slotQueue (core ctx : Nat) : Cond → Option Nat
  | .bufferSlot _ => some core
  | .queueSlot 0 => some (1000 + coreCluster core)
  | .queueSlot 1 => some (2000 + coreCluster core)
  | .queueSlot _ => some (3000 + core)
  | .waitSlot _ => some (5000 + coreDie core)
  | .denArea _ => some (6000 + ctx)
  | .gangSlot _ _ => some (7000 + core)
  | _ => none

/-- The executing path entered into the waiting list of the queue that it is held for (spec/18 R397). -/
def joinQueue (s : State) (c : Cond) : State :=
  match curGang s with
  | none => s
  | some g =>
    match slotQueue g.core g.ctx c with
    | none => s
    | some q =>
      if s.waiters.any (fun w => w.queue == q && w.core == g.core && w.slot == g.slot && w.ent == s.cur.path && w.cmd == 0 && w.item.isNone) then s
      else { s with waiters := s.waiters ++ [⟨q, g.core, g.slot, s.cur.path, s.cur.pc, c, 0, none, s.clk⟩] }

/-- A path held (spec/16 R336). -/
def holdPath (s : State) (c : Cond) (a : After) : State :=
  updCur (joinQueue s c) (fun g => updPath g s.cur.path (fun p => { p with hold := some ⟨c, a⟩ }))

/-- Whether the waits of the executing bundle are over. -/
def curPassed (s : State) : Bool :=
  match curGang s with
  | none => false
  | some g => ((findPath g s.cur.path).map (·.passed)).getD false

/-! ### Completion times -/

/-- A completion time taken into a gang's `GWCT` and its grid's latest (spec/11 R235, spec/16 R358). -/
def raiseGwct (s : State) (core slot ctx grid t : Nat) : State :=
  let s1 := updGang s core slot (fun g => if g.ctx == ctx && g.grid == grid then gangGwct g t else g)
  updGrid s1 ctx grid (fun g => { g with gwct := if g.gwct.toNat < t then toDword t else g.gwct })

/-! ### Team memory -/

/-- Bytes put into team memory; whole words lose their poison (spec/20 R444). -/
def teamPut (s : State) (ctx grid team off : Nat) (b : List Byte) : State :=
  updTeam s ctx grid team (fun t =>
    { t with
      mem := sparseWriteRun memDefault t.mem off b
      poison := t.poison.filter (fun w => !(decide (off ≤ 4 * w) && decide (4 * w + 4 ≤ off + b.length))) })

/-- A part of a store whose data the store has taken: no register holds them any more. -/
def takenPart (p : LanePart) : LanePart := { p with reg := 1024 }

/-- The data registers of a team's stores in flight to some bytes of its memory no longer matter: their value has been seen or
replaced (spec/02 R31). -/
def teamSeen (s : State) (ctx grid team off n : Nat) : State :=
  let hit := fun (p : LanePart) => p.dev == team && decide (p.pa < off + n) && decide (off < p.pa + p.size)
  if s.gangs.all (fun g => g.out.all (fun o => o.kind != .localTeam)) then s
  else
    { s with gangs := s.gangs.map (fun g => if g.ctx == ctx && g.grid == grid then
        { g with out := g.out.map (fun o => if o.kind == .localTeam then
            { o with parts := o.parts.map (fun p => if hit p then takenPart p else p) } else o) } else g) }

/-- Bytes written to team memory. -/
def teamWrite (s : State) (ctx grid team off : Nat) (b : List Byte) : State :=
  teamPut (teamSeen s ctx grid team off b.length) ctx grid team off b

/-- The same for a thread's private stores in flight. -/
def privSeen (s : State) (core slot lpos p n : Nat) : State :=
  let hit := fun (q : LanePart) => q.lpos == lpos && decide (q.va < p + n) && decide (p < q.va + q.size)
  updGang s core slot (fun g => { g with out := g.out.map (fun o => if o.kind == .localPriv then
    { o with parts := o.parts.map (fun q => if hit q then takenPart q else q) } else o) })

/-! ### Killing a launch -/

/-- A command that a kill finds: one that runs a pass completes it, another, a posting whose round is not filled among them, ends with
error status (spec/20 R437). -/
def killCmd (c : EngCmd) : EngCmd :=
  match c.kind, c.stage with
  | .mma, .running | .mmat, .running | _, .finished => c
  | _, _ => { c with stage := .dropped true, key := none }

/-- The den-area slots of records of a context (spec/16 R351). -/
def recordSlots (s : State) (ctx : Nat) (recs : List ContRec) : List Nat :=
  match findCtx s ctx with
  | none => []
  | some c => (recs.filter (fun r => !r.virt)).map (fun r => (r.addr - c.denbase.toNat) / 128)

/-- The mark of a tile element that an entry of the parking queue resolves (spec/05 R115). -/
def pendKey (e : ParkEntry) : Nat := (e.cluster * 16 + e.tile) * 2 ^ 14 + e.elem

/-- The physical tiles, or weight slices, of teams, each with its cluster: `cluster * 16 + place`. -/
def teamPlaces (ts : List Team) (f : Team → List Nat) : List Nat := ts.flatMap (fun t => (f t).map (fun k => coreCluster t.core * 16 + k))

/-- A saved context's work without a killed grid's, its tiles and weights among it (spec/20 R437, R446). -/
def killSaved (ctx grid : Nat) (v : Saved) : Saved :=
  if v.ctx != ctx then v
  else
    let gs := v.gangs.filter (fun g => g.grid == grid)
    let ts := v.teams.filter (fun t => t.grid == grid)
    let tiles := teamPlaces ts (·.tiles)
    let slices := teamPlaces ts (·.slices)
    let ids := (v.cmds.filter (fun c => c.grid == grid)).map (·.id)
    { v with
      gangs := v.gangs.filter (fun g => g.grid != grid)
      teams := v.teams.filter (fun t => t.grid != grid)
      crews := v.crews.filter (fun t => t.grid != grid)
      dens := v.dens.filter (fun d => d.grid != grid)
      cmds := v.cmds.filter (fun c => c.grid != grid)
      waits := (v.waits.map (fun w => { w with items := w.items.filter (fun i =>
        match i with
        | .parked c sl _ => !(gs.any (fun g => g.core == c && g.slot == sl))
        | .engine id => !(ids.contains id)
        | _ => true) })).filter (fun w => !w.items.isEmpty)
      tiles := v.tiles.filter (fun x => !(tiles.contains (x.1 / 2 ^ 14))), weights := v.weights.filter (fun x => !(slices.contains (x.1 / 2 ^ 18)))
      tpoison := v.tpoison.filter (fun k => !(tiles.contains (k / 2 ^ 14)))
      wpoison := v.wpoison.filter (fun k => !(slices.contains (k * 64 / 2 ^ 18))) }

/-- A launch killed (spec/20 R437 steps 1 to 4): its gangs stop, its loads are discarded, its commands, parking entries,
wait-table entries, records and dens go. Step 5 is the grid's end. -/
def killGrid (s : State) (ctx grid code : Nat) : State :=
  match findGrid s ctx grid with
  | none => s
  | some gr =>
    if gr.killed.isSome then s
    else
      let mine := fun (g : Gang) => g.ctx == ctx && g.grid == grid
      let gs := s.gangs.filter mine
      let cmdIds := (s.cmds.filter (fun c => c.ctx == ctx && c.grid == grid)).map (·.id)
      let slots := recordSlots s ctx gr.conts
      let mineEntry := fun (e : ParkEntry) => e.ctx == ctx &&
        (if e.cmd = 0 then gs.any (fun g => g.core == e.cluster * 4 + e.core && g.slot == e.slot) else cmdIds.contains e.cmd)
      let marks := (s.parkq.filter (fun e => mineEntry e && (e.kind == 3 || e.kind == 4))).map pendKey
      let s1 := { s with
        gangs := s.gangs.map (fun g => if mine g then
          { g with threads := [], paths := [], parked := [], out := g.out.flatMap (dropLoads (2 ^ 64 - 1)) } else g)
        cmds := s.cmds.map (fun c => if c.ctx == ctx && c.grid == grid then killCmd c else c)
        parkq := s.parkq.filter (fun e => !(mineEntry e))
        tilePend := s.tilePend.filter (fun k => !(marks.contains k))
        waits := (s.waits.map (fun w => { w with items := w.items.filter (fun i =>
          match i with
          | .parked c sl _ => !(gs.any (fun g => g.core == c && g.slot == sl))
          | .engine id => !(cmdIds.contains id)
          | .privLine c va => !(s.privLines.any (fun l => l.ctx == ctx && l.grid == grid && l.core == c && l.va == va && w.ctx == ctx))
          | .walker => true) })).filter (fun w => !w.items.isEmpty)
        dens := s.dens.filter (fun d => !(d.ctx == ctx && d.grid == grid))
        teams := s.teams.map (fun t => if t.ctx == ctx && t.grid == grid then { t with live := [], retired := true, conv := [] } else t)
        saved := s.saved.map (killSaved ctx grid) }
      let s2 := updCtx s1 ctx (fun c => { c with queues := c.queues.map (fun q => q.filter (· != grid)), denUsed := c.denUsed.filter (fun n => !(slots.contains n)), kills := c.kills + 1 })
      let s3 := updGrid s2 ctx grid (fun g => { g with killed := some code, conts := [], freeLive := [] })
      gs.foldl (fun s g => retireGang s g.core g.slot) s3

/-! ### Traps -/

/-- A trap of a bundle of the executing path (spec/20 R433, R435). -/
def trapInfo (s : State) (code addr : Nat) (info : Word) : TrapInfo :=
  { code := code, addr := toDword addr, info := info, pc := s.cur.pc,
    npc := if code = 0x10 ∨ code = 0x11 then s.cur.npc else s.cur.pc, dfr := false }

/-- The trap frame of a thread (spec/20 R435). -/
def trapFrame (s : State) (g : Gang) (t : Thread) (i : TrapInfo) : Nat :=
  i.pc.toNat * 2 ^ 448 + i.npc.toNat * 2 ^ 384 + i.addr.toNat * 2 ^ 320 + t.link.toNat * 2 ^ 256 + t.meet.toNat * 2 ^ 192 +
  i.info.toNat * 2 ^ 160 + i.code % 256 * 2 ^ 152 + (t.preds.toNat % 128 + 128) * 2 ^ 144 + t.lpos % 64 * 2 ^ 138 +
  g.slot % 64 * 2 ^ 132 + gangMode s g % 4 * 2 ^ 130 + bitNat i.dfr * 2 ^ 129 + (gangTeamReg g).toNat * 2 ^ 96 +
  coreNow s g.core % 2 ^ 64 * 2 ^ 32

/-- The private offset of a thread's trap frame (spec/20 R434). -/
def frameOff (s : State) (g : Gang) (t : Thread) : Nat := 4 * (plimOf s g t - 16)

/-- The check of a thread's frame before it is written (spec/20 R436). -/
def frameFault (s : State) (g : Gang) (t : Thread) : Option FaultKind :=
  (rangeFrom (plimOf s g t - 16) 16).findSome? (fun w =>
    match privTrans s g.core g.ctx (privAddr s g t w) 4 .write with
    | .ok _ => none
    | .error k => some k)

/-- The cause by which a trap of threads kills its launch (spec/20 R436): the CODE of the record. -/
def killCause (s : State) (g : Gang) (ts : List Thread) (code : Nat) : Option Nat :=
  let trapent := ((findGrid s g.ctx g.grid).map (·.launch.trapent)).getD 0
  if ts.any (·.inHandler) then some 0xFD
  else if trapent = 0 then some code
  else if ts.any (fun t => decide (plimOf s g t < 16)) then some code
  else if ts.any (fun t => (frameFault s g t).isSome) then some 0xFC
  else none

/-- The information record of frames that cannot be written (spec/20 R436). -/
def frameRecord (s : State) (g : Gang) (ts : List Thread) (pc : Dword) : State :=
  let bad := ts.filter (fun t => (frameFault s g t).isSome)
  match bad with
  | [] => s
  | t :: _ =>
    let kind := (frameFault s g t).getD .page
    postFault s g.ctx { threadRec s g (maskOf (bad.map (·.lpos))) pc kind (privAddr s g t (plimOf s g t - 16)) .write 0 with
      keyed := true }

/-- The thread at its handler (spec/20 R434 steps 4 and 5). -/
def enterHandler (s : State) (g : Gang) (t : Thread) : Thread :=
  { t with inHandler := true, link := toDword (frameOff s g t), meet := 0xFFFFFFFFFFFFFFFF#64 }

/-- Threads that no path holds take a trap (spec/20 R434 steps 2 to 6). -/
def deliverTrap (s : State) (core slot mask : Nat) (i : TrapInfo) : State :=
  match findGang s core slot with
  | none => s
  | some g =>
    let ts := threadsOf g mask
    match killCause s g ts i.code with
    | some code => killGrid (if code = 0xFC then frameRecord s g ts i.pc else s) g.ctx g.grid code
    | none =>
      let trapent := ((findGrid s g.ctx g.grid).map (·.launch.trapent)).getD 0
      let s1 := emit s (.core core) g.ctx 0x09 (i.code + i.pc.toNat * 2 ^ 8 + mask % 2 ^ 64 * 2 ^ 72) (gridTag s g.ctx g.grid) (some slot)
      let s2 := ts.foldl (fun s t => privWrite s g t (frameOff s g t) (toBytes 64 (trapFrame s g t i))) s1
      let s3 := updGang s2 core slot (fun g' => updThreads g' mask (enterHandler s g))
      placePath s3 core slot trapent mask false false

/-- A sub-gang on its way to a trap is delivered once its results are in (spec/20 R434 step 1). -/
def tryTrap (s : State) (core slot uid : Nat) : State :=
  match findGang s core slot with
  | none => s
  | some g =>
    match g.parked.find? (fun p => p.uid == uid) with
    | some p =>
      match p.trap with
      | some i =>
        if resultsOut g p.mask then s
        else
          let g1 := settleMask s.freeCtr { g with parked := g.parked.filter (fun q => q.uid != uid) } p.mask
          deliverTrap (updGang s core slot (fun _ => g1)) core slot p.mask i
      | none => s
    | none => s

/-- Threads on their way to a trap: off their path, held as at a marker (spec/20 R434 step 1). -/
def trapThreads (s : State) (core slot mask : Nat) (i : TrapInfo) : State :=
  if mask = 0 then s else (parkThreads s core slot mask i.pc .trapWait 0 (some i)).1

/-- The threads of a path whose adjoint-overflow trap is due: they have passed the marker of its bundle (spec/12 R268, spec/13
R294). -/
def dueThreads (g : Gang) (p : Path) : List Thread :=
  (threadsOf g p.mask).filter (fun t => t.dfrTrap.isSome && t.inflight.isEmpty)

/-- Threads whose deferred trap is due leave their path for it; the frame resumes after the marker bundle (spec/20 R435). -/
def dueTraps (s : State) (core slot : Nat) : State :=
  match findGang s core slot with
  | none => s
  | some g =>
    g.paths.foldl (fun s p => (dueThreads g p).foldl (fun s t =>
      match t.dfrTrap with
      | none => s
      | some i =>
        let s1 := updGang s core slot (fun g => updThread g t.lpos (fun t => { t with dfrTrap := none }))
        trapThreads s1 core slot (1 <<< t.lpos) { i with npc := p.pc, dfr := true }) s) s

/-- Every trap of a gang that waits for nothing is delivered. -/
def deliverTraps (s : State) (core slot : Nat) : State :=
  let s1 := dueTraps s core slot
  match findGang s1 core slot with
  | none => s1
  | some g => (g.parked.filter (fun p => p.cause == .trapWait)).foldl (fun s p => tryTrap s core slot p.uid) s1

/-- The traps of the executing gang delivered. -/
def deliverCur (s : State) : State := deliverTraps s s.cur.core s.cur.slot

/-- Every thread of the executing path takes a trap whose cause lies in the encoding (spec/00 R10). -/
def trapPath (s : State) (code addr : Nat) (info : Word) : State :=
  match curGang s with
  | none => s
  | some g => deliverCur (trapThreads s g.core g.slot (curMask s g) (trapInfo s code addr info))

/-- One thread of the executing path takes a trap (spec/00 R10). -/
def trapLane (s : State) (lpos code addr : Nat) (info : Word) : State :=
  deliverCur (trapThreads s s.cur.core s.cur.slot (1 <<< lpos) (trapInfo s code addr info))

/-- Threads of the executing path on their way to traps: those that take one and the same trap take it together. -/
def trapLanes (s : State) (l : List (Nat × Nat × Nat × Word)) : State :=
  let keys := l.foldl (fun acc x => if acc.contains x.2 then acc else acc ++ [x.2]) ([] : List (Nat × Nat × Word))
  keys.foldl (fun s k =>
    trapThreads s s.cur.core s.cur.slot (maskOf ((l.filter (fun x => x.2 == k)).map (·.1))) (trapInfo s k.1 k.2.1 k.2.2)) s

/-! ### Paths that go on -/

/-- The executing path moved to an address past its bundle; a marked bundle holds it for its results (spec/02 R29). -/
def movePath (s : State) (m : Bool) (pc : Dword) : State :=
  deliverCur (updCur s (fun g =>
    match findPath g s.cur.path with
    | none => g
    | some p =>
      let h := markerHold g m p.mask
      let g1 := if m && h.isNone then settleMask s.freeCtr g p.mask else g
      updPath g1 s.cur.path (fun p => { p with pc := pc, hold := h, passed := false, met := false, sub := 0 })))

/-- The executing path moved to the next bundle. -/
def finishPath (s : State) (m : Bool) : State := movePath s m s.cur.npc

/-- The threads of the executing path whose predicate is true take a trap whose cause lies in an operand of theirs all; the others go
on past the bundle (spec/00 R10, spec/02 R47). -/
def trapActive (s : State) (m : Bool) (code addr : Nat) (info : Word) : State :=
  match curGang s with
  | none => s
  | some g => finishPath (deliverCur (trapThreads s g.core g.slot (activeMask s g) (trapInfo s code addr info))) m

/-- The executing path moved to the next bundle and held there. -/
def finishHeld (s : State) (m : Bool) (c : Cond) : State :=
  deliverCur (updCur s (fun g => updPath g s.cur.path (fun p =>
    { p with pc := s.cur.npc, hold := some ⟨c, .go m⟩, passed := false, met := false, sub := 0 })))

/-- The executing path divided by the addresses its threads go to (spec/16 R338). -/
def divideCur (s : State) (m : Bool) (targets : List (Nat × Dword)) : State :=
  deliverCur (dividePath s s.cur.core s.cur.slot s.cur.path m (groupTargets targets))


/-! ### Return from a trap -/

/-- The trap frame a thread reads back (spec/20 R441). -/
def readFrame (s : State) (g : Gang) (t : Thread) : Nat := ofBytes (privRead s g t (frameOff s g t) 64)

/-- The thread that a frame restores (spec/20 R441). -/
def restoreFrame (t : Thread) (f : Nat) : Thread :=
  { t with
    link := toDword (bitsOf f 319 256), meet := toDword (bitsOf f 255 192), preds := BitVec.ofNat 8 (bitsOf f 150 144),
    inHandler := false }

/-- The address that a frame resumes at (spec/20 R441). -/
def frameNpc (f : Nat) : Dword := toDword (bitsOf f 447 384)

/-! ### Registers written by a bundle (spec/02 R31) -/

/-- A part whose data register was overwritten while it was in flight. -/
def overwritePart (cas32 : Bool) (lpos r : Nat) (w : Word) (p : LanePart) : LanePart :=
  if p.lpos != lpos || p.reg = 1024 || r < p.reg then p
  else if p.size = 1 then
    (if r = p.reg + p.off / 4 then { p with x := toDword (bitsOf w.toNat (8 * (p.off % 4) + 7) (8 * (p.off % 4))) } else p)
  else if cas32 then
    (match r - p.reg with
     | 0 => { p with x := pairOf w (hiWord p.x) }
     | 1 => { p with y := pairOf w (hiWord p.y) }
     | _ => p)
  else
    match r - p.reg with
    | 0 => { p with x := pairOf w (hiWord p.x) }
    | 1 => { p with x := pairOf (loWord p.x) w }
    | 2 => { p with y := pairOf w (hiWord p.y) }
    | 3 => { p with y := pairOf (loWord p.y) w }
    | _ => p

/-- Whether an outstanding operation is a 32-bit compare and swap, whose new value stands in the register after the
comparand. -/
def isCas32 : OutKind → Bool
  | .atomic .cas false _ _ => true
  | _ => false

/-- A part of a store or an atomic whose data register is overwritten: the new value for it, or the old one for good (spec/02 R31). -/
def overwriteOp (kind : OutKind) (takes : Bool) (lpos r : Nat) (w : Word) (p : LanePart) : LanePart :=
  if takes then overwritePart (isCas32 kind) lpos r w p else if p.lpos == lpos then takenPart p else p

/-- The stores of a gang to local memory whose data register was overwritten with effect: memory receives the new value. -/
def rewriteLocal (s : State) (core slot lpos : Nat) (ids : List Nat) : State :=
  match findGang s core slot with
  | none => s
  | some g =>
    (g.out.filter (fun o => ids.contains o.id)).foldl (fun s o =>
      (o.parts.filter (fun p => p.lpos == lpos && p.reg != 1024)).foldl (fun s p =>
        match o.kind, findThread g lpos with
        | .localTeam, _ => teamPut s g.ctx g.grid p.dev p.pa (partBytes p)
        | .localPriv, some t => privWrite s g t p.va (partBytes p)
        | _, _ => s) s) s

/-- The first write of a register seen by the accesses and commands that hold it as data in flight (spec/02 R31): an access takes the new
value or keeps the old one, as it chooses for the thread; a command chooses for each scalar register. Later writes of the register find
the choice made (spec/25 R478). -/
def overwriteData (s : State) (core slot lpos r : Nat) (w : Word) (l : List Inflight) : State :=
  let hits := (l.filter (fun f => f.data && f.reg == r && !f.clobbered)).map (·.op)
  if hits.isEmpty then s
  else
    let takes := fun (id : Nat) => Config.freeBit s.freeCtr (24 * 2 ^ 20 + lpos * 4096 + id % 4096)
    let change := fun (k : OutKind) (id : Nat) (ps : List LanePart) =>
      if hits.contains id then ps.map (overwriteOp k (takes id) lpos r w) else ps
    let s1 := { s with
      wbuf := s.wbuf.map (fun b => { b with parts := change .store b.id b.parts })
      gangs := s.gangs.map (fun g => if g.core == core && g.slot == slot then
        { g with out := g.out.map (fun o => { o with parts := change o.kind o.id o.parts }) } else g)
      cmds := s.cmds.map (fun c => if hits.contains c.id && Config.freeBit s.freeCtr (25 * 2 ^ 20 + r * 4096 + c.id % 4096) then
        { c with ops := c.ops.map (fun o => if o.1 == r then (r, w) else o) } else c) }
    rewriteLocal s1 core slot lpos (hits.filter takes)

/-- What a lane of a bundle produces: vector registers, predicates and flags. -/
structure LaneOut where
  vw : List (Nat × Word)
  pw : List (Nat × Bool)
  fl : Flags
  deriving DecidableEq, Repr

/-- A lane that writes one vector register. -/
def outV (r : Nat) (w : Word) : LaneOut := ⟨[(r, w)], [], flagNone⟩

/-- A lane that writes one predicate. -/
def outP (p : Nat) (b : Bool) : LaneOut := ⟨[], [(p, b)], flagNone⟩

/-- A lane that writes nothing. -/
def outNone : LaneOut := ⟨[], [], flagNone⟩

/-- The vector and predicate registers of a thread after its lane. -/
def laneThread (t : Thread) (o : LaneOut) : Thread := o.pw.foldl (fun t x => writeP t x.1 x.2) (writeVs t o.vw)

/-- What each thread of the executing gang produces, in the order of the gang's threads: nothing where it is not active. -/
def laneOuts (s : State) (g : Gang) (f : Thread → LaneOut) : List (Option LaneOut) :=
  let mask := curMask s g
  g.threads.map (fun t => if bitOf mask t.lpos && predOn s.cur t then some (f t) else none)

/-- A thread after its lane, if it is active. -/
def outThread (t : Thread) : Option LaneOut → Thread
  | some o => laneThread t o
  | none => t

/-- The flags that a thread's lane raises. -/
def outFlags : Option LaneOut → Flags
  | some o => o.fl
  | none => flagNone

/-- The register writes of a thread's lane seen by what holds the registers in flight as data (spec/02 R31). -/
def outData (g : Gang) (s : State) (x : Thread × Option LaneOut) : State :=
  match x.2 with
  | none => s
  | some o =>
    if x.1.inflight.isEmpty then s
    else o.vw.foldl (fun s rw => overwriteData s g.core g.slot x.1.lpos rw.1 rw.2 x.1.inflight) s

/-- The results of the lanes of the executing path, written together after all operands have been read. -/
def writeLanes (s : State) (outs : List (Option LaneOut)) : State :=
  match curGang s with
  | none => s
  | some g =>
    updCur ((g.threads.zip outs).foldl (outData g) s) (fun g =>
      gangOrFlags { g with threads := List.zipWith outThread g.threads outs } (orFlags (outs.map outFlags)))

/-- Scalar registers of the executing gang written. -/
def writeScalars (s : State) (l : List (Nat × Word)) : State :=
  match curGang s with
  | none => s
  | some g =>
    let s1 := if g.sflight.isEmpty then s
      else l.foldl (fun s rw => overwriteData s g.core g.slot 64 rw.1 rw.2 g.sflight) s
    updCur s1 (fun g => l.foldl (fun g rw => writeS g rw.1 rw.2) g)

/-! ### Lane-wise and uniform bundles -/

/-- INFO of the uncorrectable-soft-error trap: where a register of a thread lies is not stated, so it is a free value. -/
def poisonPlace (c lpos r : Nat) : Word := toWord (Config.freeNat c (3 * 2 ^ 20 + lpos * 128 + r))

/-- The threads that read a poisoned register take the uncorrectable-soft-error trap (spec/20 R444). -/
def trapPoison (s : State) (ts : List Thread) (regs : List Nat) : State :=
  trapLanes s (ts.filterMap (fun t =>
    (poisonHit t regs).map (fun r => (t.lpos, 0x0F, 0, poisonPlace s.freeCtr t.lpos r))))

/-- The active threads ready to act: those that access pending elements have parked, those that read poison have trapped
(spec/02 R32, spec/20 R444). -/
def readyLanes (s : State) (rd wr : List Nat) : State :=
  match curGang s with
  | none => s
  | some g =>
    let ts := activeThreads s g
    let hit := ts.filter (fun t => (pendHit t (rd ++ wr)).isSome)
    let s1 := if hit.isEmpty then s else parkUses s g (pendUses hit (rd ++ wr))
    trapPoison s1 (ts.filter (fun t => (pendHit t (rd ++ wr)).isNone)) rd

/-- A lane-wise bundle: each active thread reads its operands, and the results are written (spec/06 R120). -/
def laneOp (m : Bool) (rd wr : List Nat) (f : Gang → Thread → LaneOut) (s : State) : State :=
  let s1 := readyLanes s rd wr
  match curGang s1 with
  | none => s1
  | some g =>
    finishPath (writeLanes s1 (laneOuts s1 g (f g))) m

/-- The poisoned scalar register that a uniform bundle reads for some thread, if any (spec/20 R444). -/
def scalarPoison (s : State) (g : Gang) (rd : List Nat) : Option Nat :=
  if activeMask s g = 0 then none else g.spoison.find? (rd.contains ·)

/-- INFO of the uncorrectable-soft-error trap for a scalar register, which is not stated either. -/
def scalarPlace (c r : Nat) : Word := toWord (Config.freeNat c (3 * 2 ^ 20 + 2 ^ 14 + r))

/-- The active threads of a bundle take the uncorrectable-soft-error trap where it reads a poisoned scalar register for them (spec/20
R444). -/
def trapScalar (s : State) (rs : List Nat) : State :=
  match curGang s with
  | none => s
  | some g =>
    match scalarPoison s g rs with
    | none => s
    | some r => trapLanes s ((activeThreads s g).map (fun t => (t.lpos, 0x0F, 0, scalarPlace s.freeCtr r)))

/-- A uniform bundle whose body says itself where the path goes: a poisoned operand traps the threads that read it (spec/20 R444). -/
def uniRaw (m : Bool) (rd : List Nat) (body : Gang → State → State) (s : State) : State :=
  match curGang s with
  | none => s
  | some g =>
    match scalarPoison s g rd with
    | some r => trapActive s m 0x0F 0 (scalarPlace s.freeCtr r)
    | none => body g s

/-- A uniform bundle: it executes once for its path on the scalar unit (spec/06 R121). -/
def uniOp (m : Bool) (rd : List Nat) (body : Gang → State → State) (s : State) : State :=
  uniRaw m rd (fun g s => finishPath (body g s) m) s

end Sys2Proof.Machine
end

