-- ==== Sys2Proof/Machine/Schedule.lean ====
section
/-! DEFINITION. What a step does around an instruction: holds and their release (spec/16 R336), the choice of a path (spec/16
R338 to R341), and the fetch of a bundle (spec/02 R26 to R28, R53; spec/03 R64). -/

namespace Sys2Proof.Machine

/-! ### Fences -/

/-- Whether an outstanding operation is one that a fence of a scope waits for (spec/11 R238): the path's own loads and atomics, then the
gang's crew-remote stores, then its stores and atomics, then those that another agent acknowledges. -/
def fenceWaits (scope mask : Nat) (o : OutOp) : Bool :=
  match o.kind with
  | .load _ _ | .loadTeam _ | .loadPriv _ | .loadScalar _ | .adjRead => (o.mask &&& mask) != 0
  | .gred _ _ | .pkrWrite | .command | .localTeam | .localPriv => false
  | .crewStore => decide (1 ≤ scope)
  | .atomic _ _ _ _ => decide (2 ≤ scope) || (o.mask &&& mask) != 0
  | .store => decide (2 ≤ scope)
  | .external => decide (3 ≤ scope)

/-- The accesses that a fence of a path waits for (spec/11 R238). -/
def fenceIds (g : Gang) (scope mask : Nat) : List Nat := (g.out.filter (fenceWaits scope mask)).map (·.id)

/-- Whether the condition of a fence holds (spec/11 R238): the accesses have returned and, from device scope up, the core's
time has reached the gang's `GWCT`. -/
def fenceOver (s : State) (g : Gang) (scope : Nat) (ids : List Nat) : Bool :=
  g.out.all (fun o => !(ids.contains o.id)) && (decide (scope < 2) || decide (g.gwct.toNat ≤ coreNow s g.core))

/-- A bundle that first waits as a fence does: it is held and executes again once the fence is over (spec/11 R238, R239). -/
def afterFence (scope : Nat) (k : State → State) (s : State) : State :=
  match curGang s with
  | none => s
  | some g =>
    let ids := fenceIds g scope (curMask s g)
    if curPassed s || fenceOver s g scope ids then k s else holdPath s (.fence scope ids) .again

/-- A bundle whose threads are first held as at a marker (spec/17 R369, R372, R376). -/
def afterResults (mask : Nat) (k : State → State) (s : State) : State :=
  match curGang s with
  | none => s
  | some g =>
    if resultsOut g mask then holdPath s .results .again
    else
      let g1 := settleMask s.freeCtr g mask
      let s1 := updCur s (fun _ => g1)
      if g1.paths.any (fun p => !(dueThreads g1 p).isEmpty) then deliverCur s1 else k s1

/-! ### Conditions of holds -/

/-- The siblings of a thread: the threads of its gang with its `MEET` value that have not left for a den (spec/16 R341,
R348). -/
def siblings (g : Gang) (meet : Dword) : List Thread :=
  let gone := (g.parked.filter (fun p => p.cause == .noDen)).map (·.mask)
  g.threads.filter (fun t => t.meet == meet && gone.all (fun m => !(bitOf m t.lpos)))

/-- Whether a path stands held at a meeting address. -/
def heldAt (p : Path) (pc : Dword) : Bool := p.pc == pc && p.hold.any (fun h => h.cond == .meet)

/-- Whether every sibling of a path's threads is held at its address (spec/16 R341). -/
def meetingFull (g : Gang) (p : Path) : Bool :=
  (siblings g p.pc).all (fun t => g.paths.any (fun q => bitOf q.mask t.lpos && heldAt q p.pc))

/-- Whether a path stands held at a `GSYNC`. -/
def heldGsync (p : Path) : Bool := p.hold.any (fun h => h.cond == .gsync)

/-- The threads of a gang that have not left it for a den. -/
def presentMask (g : Gang) : Nat :=
  (g.parked.filter (fun p => p.cause == .noDen)).foldl (fun m p => maskMinus m p.mask) (gangMask g)

/-- Whether every thread of the gang is held at a `GSYNC` (spec/17 R378). -/
def gsyncFull (g : Gang) : Bool :=
  maskMinus (presentMask g) ((g.paths.filter heldGsync).foldl (fun m p => m ||| p.mask) 0) == 0

/-- A grid's timeline counter: its value and its error count (spec/11 R250, spec/12 R278). -/
def tlOf (s : State) (ctx grid n : Nat) : Dword × Nat :=
  ((findGrid s ctx grid).map (fun g => sparseGet (0, 0) g.tls n)).getD (0, 0)

/-- A timeline counter's value as a core knows it: without the advances whose message, which may come from another die, has not had time to
arrive (spec/14 R308). -/
def gridTlKnown (s : State) (g : Grid) (n : Nat) : Nat :=
  (sparseGet (0, 0) g.tls n).1.toNat - ((sparseGet [] g.tlAt n).filter (fun t => decide (s.dtb < t + msgTicks 0 1))).length

/-- The same for a grid named by its context and index. -/
def tlKnown (s : State) (ctx grid n : Nat) : Nat := ((findGrid s ctx grid).map (fun g => gridTlKnown s g n)).getD 0

/-- The slots of a tenant's den area (spec/16 R351). -/
def denSlots (c : Ctx) : Nat := c.densize.toNat / 128

/-- The lowest free slots of a tenant's den area, no more than a gang needs (spec/16 R351). -/
def freeDenSlots (c : Ctx) : List Nat :=
  (rangeFrom 0 (min (denSlots c) (c.denUsed.length + 64))).filter (fun n => !(c.denUsed.contains n))

/-- Whether a core's write-through buffer has room for `n` stores: it holds 64 (spec/16 R359). -/
def bufferRoom (s : State) (core n : Nat) : Bool := decide (bufferCount s core + n ≤ 64)

/-- The commands in an engine's queue: 1 row engine of a cluster, 2 copy engine context of a core (spec/16 R359). -/
def queueCount (s : State) (core unit : Nat) : Nat :=
  (s.cmds.filter (fun c =>
    match c.kind with
    | .row _ => unit == 1 && c.cluster == coreCluster core
    | .copy _ => unit == 2 && c.core == core
    | _ => false)).length

/-- Whether a command holds an entry of its cluster's reservation table: from its posting to its grant (spec/09 R196, spec/16
R359). -/
def inTable (c : EngCmd) : Bool :=
  match c.kind with
  | .row _ | .copy _ => false
  | _ => c.entered && c.stage == .queued

/-- The entries of the reservation table that a core's commands hold. -/
def tableUsed (s : State) (core : Nat) : Nat := (s.cmds.filter (fun c => inTable c && c.core == core)).length

/-- The entries of the reservation table free for a core: its own four, then the shared sixteen (spec/09 R196). -/
def tableFree (s : State) (core : Nat) : Nat :=
  let above := sumNat ((rangeFrom (coreCluster core * 4) 4).map (fun c => tableUsed s c - 4))
  (4 - tableUsed s core) + (16 - above)

/-- The user of the parking queue that an element belongs to: cores 0 to 3, 4 the matrix engine, 5 the row engine (spec/05 R106). -/
def entryUser (e : ParkEntry) : Nat := if e.kind < 2 then e.core else if e.kind = 2 then 5 else 4

/-- The entries of the parking queue that a user holds (spec/05 R106). -/
def parkUsed (s : State) (cluster user : Nat) : Nat :=
  sumNat ((s.parkq.filter (fun e => e.cluster == cluster && e.stage != 4 && entryUser e == user)).map (·.parts))

/-- The reserve of a user of the parking queue: cores 0 to 3, 4 the matrix engine, 5 the row engine (spec/05 R106). -/
def parkReserve (user : Nat) : Nat := if user = 5 then 8 else 16

/-- The entries of the parking queue free for a user: its own reserve, then the shared ones (spec/05 R106). -/
def parkFree (s : State) (cluster user : Nat) : Nat :=
  let above := sumNat ((rangeFrom 0 6).map (fun u => parkUsed s cluster u - parkReserve u))
  (parkReserve user - parkUsed s cluster user) + (168 - above)

/-- Whether an element that waits in a fast unit finds free entries (spec/05 R106, R109): among its user's reserved ones, behind the user's
earlier elements, or among the shared ones, which are given in the order of request. -/
def entryFree (s : State) (e : ParkEntry) : Bool :=
  let u := entryUser e
  let early := (s.parkq.takeWhile (fun x => !(x.cluster == e.cluster && x.seq == e.seq))).filter (fun x => x.cluster == e.cluster && x.stage == 4)
  if e.parts ≤ parkReserve u - parkUsed s e.cluster u then early.all (fun x => entryUser x != u)
  else early.isEmpty && decide (e.parts ≤ parkFree s e.cluster u)

/-- An element held in the fast unit enters the parking queue, if there is room for it (spec/05 R109). -/
def admitEntry (s : State) (e : ParkEntry) : State :=
  if entryFree s e then
    { s with parkq := s.parkq.map (fun x => if x.cluster == e.cluster && x.seq == e.seq
        then { x with stage := 0, ptime := dieNow s (clusterDie e.cluster), since := s.dtb } else x) }
  else s

/-- Every element held in a fast unit that finds room enters its parking queue, in SEQ order (spec/05 R109). -/
def admitHeld (s : State) : State := (s.parkq.filter (fun e => e.stage == 4)).foldl admitEntry s

/-- Whether an element of the parking queue belongs to an instruction of a gang. -/
def gangEntry (g : Gang) (e : ParkEntry) : Bool := e.cmd == 0 && e.cluster * 4 + e.core == g.core && e.slot == g.slot

/-- Whether a gang stalls: an escalating element of its instruction has found no free entry (spec/05 R109). -/
def escStalled (s : State) (g : Gang) : Bool := s.parkq.any (fun e => e.stage == 4 && gangEntry g e)

/-- Whether a queue has room for a producer of a core (spec/16 R359). -/
def slotRoom (s : State) (core ctx : Nat) : Cond → Bool
  | .bufferSlot n => bufferRoom s core n
  | .queueSlot 0 => decide (0 < tableFree s core)
  | .queueSlot u => decide (queueCount s core u < 16)
  | .waitSlot n => decide (waitCount s (coreDie core) + n ≤ 4096)
  | .denArea n => ((findCtx s ctx).map (fun c => decide (n ≤ (freeDenSlots c).length))).getD true
  | _ => true

/-- Whether no gang of a grid of a resident context is left: its private lines are being written back for its end. -/
def gridLeft (s : State) (ctx grid : Nat) : Bool := !(resident s ctx) || s.gangs.all (fun g => !(g.ctx == ctx && g.grid == grid))

/-- Whether a waiting producer still waits where it began to: its path stands at its bundle, its command has no entry or has not gone on,
its access is outstanding, its copy is not held, its line is still to be written back. -/
def stillWaits (s : State) (w : Waiter) : Bool :=
  match w.item with
  | some (.privLine core va) => gridLeft s w.ent w.slot && s.privLines.any (fun l => l.core == core && l.ctx == w.ent && l.va == va && l.dirty != 0)
  | some _ => s.copies.any (fun c => c.ctx == w.ent && c.node == w.slot && c.held.isNone)
  | none =>
    if w.cmd = 0 then
      (match findGang s w.core w.slot with
       | none => false
       | some g => (findPath g w.ent).any (fun p => p.pc == w.pc))
    else
      match w.queue / 1000 with
      | 1 => (findCmd s w.cmd).any (fun c => !c.entered && c.stage == .queued)
      | _ => (findCmd s w.cmd).any (fun c => c.key.isNone && (c.stage == .running || c.stage == .finished)) ||
        s.gangs.any (fun g => g.out.any (fun o => o.id == w.cmd))

/-- The context of a waiting producer. -/
def waiterCtx (s : State) (w : Waiter) : Nat :=
  if w.item.isSome then w.ent
  else if w.cmd = 0 then ((findGang s w.core w.slot).map (·.ctx)).getD 0
  else
    match findCmd s w.cmd with
    | some c => c.ctx
    | none => ((s.gangs.find? (fun g => g.out.any (fun o => o.id == w.cmd))).map (·.ctx)).getD 0

/-- Whether a waiting producer could take a slot now. -/
def waiterRoom (s : State) (w : Waiter) : Bool := slotRoom s w.core (waiterCtx s w) w.cond

/-- Whether a producer may take a slot before those that wait in front of it (spec/18 R397): in a queue with reserved entries
no producer of its core and none that could take a slot may stand before it, in another queue none at all. -/
def slotTurn (s : State) (core q : Nat) (me : Waiter → Bool) : Bool :=
  ((s.waiters.filter (fun w => w.queue == q && stillWaits s w)).takeWhile (fun w => !(me w))).all (fun w =>
    q / 1000 == 1 && w.core != core && !(waiterRoom s w))

/-- Whether a path may take the slots it needs (spec/16 R359, spec/18 R397). -/
def slotReady (s : State) (g : Gang) (ent : Nat) (c : Cond) : Bool :=
  slotRoom s g.core g.ctx c &&
  (match slotQueue g.core g.ctx c with
   | none => true
   | some q =>
     let me := fun (w : Waiter) => w.cmd == 0 && w.item.isNone && w.core == g.core && w.slot == g.slot && w.ent == ent
     slotTurn s g.core q me &&
     !(q / 1000 == 7 && denBefore s g.core (((s.waiters.find? (fun w => w.queue == q && me w)).map (·.since)).getD s.clk)))

/-- Whether the executing path may take the slots it needs. -/
def curSlot (s : State) (g : Gang) (c : Cond) : Bool := slotReady s g s.cur.path c

/-- The slots of the die's wait table that a bundle's faults need. -/
def faultSlots (s : State) (g : Gang) (fs : List LaneFault) : Cond :=
  .waitSlot (newEntries s (coreDie g.core) g.ctx (faultGroups fs))

/-- Whether the die's wait table can take a bundle's faults (spec/20 R421). -/
def faultRoom (s : State) (g : Gang) (fs : List LaneFault) : Bool :=
  newEntries s (coreDie g.core) g.ctx (faultGroups fs) == 0 || curSlot s g (faultSlots s g fs)

/-- Threads of the executing path take a fault (spec/20 R419); with no room in the die's wait table the path is held first (spec/20
R421). -/
def faultMasked (s : State) (g : Gang) (mask : Nat) (f : LaneFault) : State :=
  if faultRoom s g [f] then faultPath s g s.cur.pc mask f else holdPath s (.waitSlot 1) .again

/-- Every thread of the executing path whose predicate is true takes a fault (spec/20 R419, spec/02 R47). -/
def faultCur (s : State) (kind : FaultKind) (addr : Nat) (acc : Acc) : State :=
  match curGang s with
  | none => s
  | some g => faultMasked s g (activeMask s g) ⟨0, kind, addr, acc⟩

/-- The executing path with some threads held at an address and the others moved past the bundle. The held threads keep the
entry (log entry 12). -/
def splitHeld (s : State) (m : Bool) (held : Nat) (pc : Dword) (c : Cond) (a : After) : State :=
  match curGang s with
  | none => s
  | some g =>
    let rest := maskMinus (curMask s g) held
    let s1 := updCur (joinQueue s c) (fun g => updPath g s.cur.path (fun p => { p with mask := held, pc := pc, hold := some ⟨c, a⟩, passed := false, met := false, sub := 0 }))
    let s2 := placePath s1 g.core g.slot s.cur.npc rest m false
    if m then updCur s2 (fun g => if resultsOut g rest then g else settleMask s.freeCtr g rest) else s2

/-- Whether a hold is one for a slot of a queue, which holds the issue of the whole gang (spec/16 R359): the write-through buffer, an
engine's queue or the wait table. `SPAWN` holds its path only (spec/16 R351). -/
def stallsGang : Cond → Bool
  | .bufferSlot _ | .queueSlot _ | .waitSlot _ => true
  | _ => false

/-- Whether a gang's issue is held for a slot of a queue. -/
def gangStalled (g : Gang) : Bool := g.paths.any (fun p => p.hold.any (fun h => stallsGang h.cond))

/-- Whether an engine command of a gang has not been accepted yet (spec/02 R29). -/
def postingHeld (g : Gang) : Bool := g.paths.any (fun p => p.hold.any (fun h => match h.cond with | .queueSlot _ => true | _ => false))

/-- Whether a phase of a barrier of a gang's team has completed, and the message of it has had time to arrive (spec/16 R354, spec/14
R308). -/
def barOver (s : State) (g : Gang) (key phase : Nat) : Bool :=
  match gangTeam s g with
  | some t =>
    let b := readBar s t key
    decide (phase < b.phase) && decide (b.doneAt + barTicks key ≤ s.dtb)
  | none => true

/-- Whether a grid's predecessors are known at its cores to have ended: the message of the last one's end has had time to arrive (spec/17
R381, spec/14 R308). -/
def predsOver (s : State) (g : Gang) : Bool :=
  ((findGrid s g.ctx g.grid).map (fun x => x.preds.isEmpty && decide (x.predsAt ≤ s.dtb))).getD true

/-- Whether the condition of a hold holds (spec/16 R336). -/
def condHolds (s : State) (g : Gang) (p : Path) : Cond → Bool
  | .results => !(resultsOut g p.mask) && !(postingHeld g)
  | .fence scope ids => fenceOver s g scope ids
  | .timeline n v => decide (v.toNat ≤ tlKnown s g.ctx g.grid n)
  | .predecessors => predsOver s g
  | .barrier key phase => barOver s g key phase
  | .meet => meetingFull g p
  | .gsync => gsyncFull g
  | .fuse _ _ => false
  | .resolved => (threadsOf g p.mask).all (fun t => t.pend.isEmpty)
  | .flagsSettled => g.threads.all (fun t => t.pend.isEmpty) && s.parkq.all (fun e => !(gangEntry g e)) && g.out.all (fun o =>
      match o.kind with
      | .gred _ _ | .adjRead | .atomic .fadd _ _ _ | .atomic (.fadda _) _ _ _ | .atomic .fmax _ _ _ | .atomic .fmin _ _ _ => false
      | _ => true)
  | .gangSlot size less => (fitGangs s g.core 1 size (gangVregs s g) less true false).isSome && slotReady s g p.ent (.gangSlot size less)
  | .bufferSlot n => slotReady s g p.ent (.bufferSlot n)
  | .queueSlot u => slotReady s g p.ent (.queueSlot u)
  | .denArea n => slotReady s g p.ent (.denArea n)
  | .waitSlot n => slotReady s g p.ent (.waitSlot n)
  | .traceSlot => !(traceHolds s g.core g.slot)
  | .done ids => g.out.all (fun o => !(ids.contains o.id)) && s.cmds.all (fun c => !(ids.contains c.id)) &&
      s.wbuf.all (fun b => !(ids.contains b.id))
  | .modeBarrier phase => barOver s g modeKey phase

/-- Whether a hold's condition is a fence's. -/
def isFence : Cond → Bool
  | .fence _ _ => true
  | _ => false

/-- Whether the end of a hold ends the waits of its bundle, which then executes again: a fence's or a `WAITT`'s. -/
def isWait : Cond → Bool
  | .fence _ _ | .timeline _ _ => true
  | _ => false

/-- A path that goes on after its hold: past the bundle's marker, if it has one (spec/02 R29). -/
def goOn (c : Nat) (m : Bool) (g : Gang) (ent : Nat) : Gang :=
  match findPath g ent with
  | none => g
  | some p =>
    if m && resultsOut g p.mask then updPath g ent (fun p => { p with hold := some ⟨.results, .go false⟩ })
    else
      let g1 := if m then settleMask c g p.mask else g
      updPath g1 ent (fun p => { p with hold := none })

/-- The paths held at one meeting address form one path, which is released there (spec/16 R341). -/
def meetRelease (g : Gang) (p : Path) : Gang :=
  let all := g.paths.filter (fun q => heldAt q p.pc && (siblings g p.pc).any (fun t => bitOf q.mask t.lpos))
  let mask := all.foldl (fun m q => m ||| q.mask) 0
  let keep := all.foldl (fun e q => min e q.ent) p.ent
  { g with paths := (g.paths.filter (fun q => q.ent == keep || !(all.any (fun x => x.ent == q.ent)))).map (fun q =>
      if q.ent == keep then { q with mask := mask, hold := none, met := true } else q) }

/-- The paths held at one `GSYNC` made one path (spec/17 R378). -/
def gsyncMerge (g : Gang) : Gang :=
  let held := g.paths.filter heldGsync
  let same := fun (q x : Path) => x.pc == q.pc && x.hold == q.hold
  { g with paths := (g.paths.filter (fun q => !(heldGsync q) || held.all (fun x => !(same q x) || decide (q.ent ≤ x.ent)))).map (fun q =>
      if heldGsync q then { q with mask := (held.filter (same q)).foldl (fun m x => m ||| x.mask) 0 } else q) }

/-- Every thread held at a `GSYNC` goes on (spec/17 R378). -/
def gsyncRelease (c : Nat) (g0 : Gang) : Gang :=
  let g := gsyncMerge g0
  (g.paths.filter heldGsync).foldl (fun g q => goOn c (q.hold.any (fun h => h.after == .go true)) g q.ent) g

/-- A held path whose condition holds is released (spec/16 R336). -/
def releasePath (s : State) (core slot ent : Nat) : State :=
  match findGang s core slot with
  | none => s
  | some g =>
    match findPath g ent with
    | none => s
    | some p =>
      match p.hold with
      | none => s
      | some h =>
        if !(condHolds s g p h.cond) then s
        else
          match h.cond with
          | .meet => updGang s core slot (fun g => meetRelease g p)
          | .gsync => deliverTraps (updGang s core slot (gsyncRelease s.freeCtr)) core slot
          | _ =>
            match h.after with
            | .go m => deliverTraps (updGang s core slot (fun g => goOn s.freeCtr (m || h.cond == .results) g ent)) core slot
            | .again => updGang s core slot (fun g => updPath g ent (fun p =>
                { p with hold := none, passed := p.passed || isWait h.cond }))
            | .trap t => deliverTraps (trapThreads s core slot p.mask t) core slot

/-- A held path of a gang whose condition holds. -/
def releasable (s : State) (g : Gang) : Option Nat :=
  (g.paths.find? (fun p => match p.hold with | some h => condHolds s g p h.cond | none => false)).map (·.ent)

/-- A gang and a path of it that can be released. -/
def findRelease (s : State) : Option (Nat × Nat × Nat) :=
  s.gangs.findSome? (fun g => (releasable s g).map (fun e => (g.core, g.slot, e)))

/-- The sub-gangs of the device, each with its gang. -/
def subGangs (s : State) : List (Gang × Parked) := s.gangs.flatMap (fun g => g.parked.map (fun p => (g, p)))

/-- Whether a sub-gang's wait for a trap or for a den is over: its results are in, and for a den one is free. -/
def mayMove (s : State) (x : Gang × Parked) : Bool :=
  match x.2.cause with
  | .trapWait => !(resultsOut x.1 x.2.mask)
  | .noDen => !(resultsOut x.1 x.2.mask) &&
      (decide (denCount s (coreCluster x.1.core) < 32) ||
        (findDen s (coreCluster x.1.core) x.1.ctx x.1.grid x.2.pc (denOwnerOf x.1)).isSome)
  | _ => false

/-- The sub-gang that began to wait first among those on their way to a trap or to a den whose wait is over (spec/16 R348, spec/18
R397). -/
def findMove (s : State) : Option (Nat × Nat × Nat × Bool) :=
  ((subGangs s).filter (mayMove s)).foldl (fun b x =>
    match b with
    | some (_, _, uid, _) => if x.2.uid < uid then some (x.1.core, x.1.slot, x.2.uid, x.2.cause == .trapWait) else b
    | none => some (x.1.core, x.1.slot, x.2.uid, x.2.cause == .trapWait)) none

/-! ### The choice of a path -/

/-- The threads of a path that must be held at its address before they issue (spec/16 R341). -/
def meetMask (g : Gang) (p : Path) : Nat :=
  if p.met || p.passed then 0 else maskOf (((threadsOf g p.mask).filter (fun t => t.meet == p.pc)).map (·.lpos))

/-- Whether a path may be merged into one that is about to issue at its address (spec/16 R340, R341). -/
def mergeable (g : Gang) (pc : Dword) (q : Path) : Bool := q.hold.isNone && q.pc == pc && !q.passed && meetMask g q == 0

/-- Whether a released sub-gang may merge with a ready path: nothing holds it at its address (spec/02 R29, spec/16 R341). -/
def mayMerge (g : Gang) (p : Parked) : Bool :=
  !(p.mark && resultsOut g p.mask) && (p.met || (threadsOf g p.mask).all (fun t => t.meet != p.pc))

/-- A released sub-gang rejoins its gang: it merges with a ready path at its address or takes an entry, or goes to a den
(spec/05 R112, R113; spec/13 R298). One that a marked branch sent here is held for its results first (spec/02 R29). -/
def rejoin (s : State) (core slot : Nat) (p : Parked) : State :=
  match findGang s core slot with
  | none => s
  | some g =>
    let s1 := updGang s core slot (fun g =>
      let g1 := { g with parked := g.parked.filter (fun q => q.uid != p.uid) }
      if p.mark && !(resultsOut g p.mask) then settleMask s.freeCtr g1 p.mask else g1)
    match (if mayMerge g p then g.paths.find? (mergeable g p.pc) else none) with
    | some q => updGang s1 core slot (fun g => updPath g q.ent (fun q => { q with mask := q.mask ||| p.mask, met := q.met || p.met }))
    | none =>
      if p.cause == .noEntry && (freeEntry g).isNone then s else placePath s1 core slot p.pc p.mask p.mark p.met

/-- Every released sub-gang of a gang rejoins it. -/
def rejoinAll (s : State) (core slot : Nat) : State :=
  match findGang s core slot with
  | none => s
  | some g => (g.parked.filter (·.released)).foldl (fun s p => rejoin s core slot p) s

/-- Whether a gang has something to issue: a ready path, or a released sub-gang. -/
def gangReady (s : State) (g : Gang) : Bool :=
  (g.paths.any (fun p => p.hold.isNone) || g.parked.any (fun p => p.released && (p.cause != .noEntry || (freeEntry g).isSome))) &&
  decide (g.wake ≤ s.dtb) && !(gangStalled g) && !(escStalled s g) && !(traceHolds s g.core g.slot) && resident s g.ctx

/-- The path a gang issues: the current one while it is ready, else the next ready one in table order (spec/16 R339). -/
def pickPath (g : Gang) : Option Path :=
  let ready := fun (e : Nat) => g.paths.find? (fun p => p.ent == e && p.hold.isNone)
  (rangeFrom 0 8).findSome? (fun k => ready ((g.curPath + k) % 8))

/-- A gang whose current path is held, or gone, goes on to the next ready one in table order, with a new quantum (spec/16 R339). -/
def switchHeld (g : Gang) : Gang :=
  if g.paths.any (fun p => p.ent == g.curPath && p.hold.isNone) then g
  else
    match pickPath g with
    | some p => { g with curPath := p.ent, quantum := 0 }
    | none => g

/-- The gang with its chosen path current, merged with every other ready path at its address (spec/16 R339, R340). -/
def choosePath (g : Gang) (p : Path) : Gang :=
  let others := g.paths.filter (fun q => q.ent != p.ent && !p.passed && mergeable g p.pc q)
  let mask := others.foldl (fun m q => m ||| q.mask) p.mask
  { g with
    paths := (g.paths.filter (fun q => !(others.any (fun x => x.ent == q.ent)))).map (fun q =>
      if q.ent == p.ent then { q with mask := mask, met := q.met || others.any (·.met) } else q)
    curPath := p.ent
    quantum := if g.curPath = p.ent then g.quantum + 1 else 1 }

/-- A ready path of a gang that has reached the meeting address of some of its threads (spec/16 R341). -/
def findMeet (g : Gang) : Option Path := g.paths.find? (fun p => p.hold.isNone && meetMask g p != 0)

/-- Threads held at their meeting address; the path's other threads go on as a path of their own (spec/16 R341). -/
def holdAtMeet (s : State) (core slot : Nat) (p : Path) (mask : Nat) : State :=
  let s1 := updGang s core slot (fun g => updPath g p.ent (fun q => { q with mask := mask, hold := some ⟨.meet, .go false⟩ }))
  placePath s1 core slot p.pc (maskMinus p.mask mask) false false

/-! ### Fetch -/

/-- One halfword of code, or the fault of its fetch (spec/02 R26, R27; spec/03 R64). -/
def fetchHalf (s : State) (core ctx va : Nat) : Except FaultKind Half :=
  match translateChecked s core ctx va 2 .fetch with
  | .error k => .error k
  | .ok t =>
    let b := memBytes s (transPa t va) 2
    .ok (b.getD 1 0 ++ b.getD 0 0)

/-- One code word, its length in bytes, or the address and the kind of a fetch fault. -/
def fetchWord (s : State) (core ctx va : Nat) : Except (Nat × FaultKind) (CodeWord × Nat) :=
  match fetchHalf s core ctx va with
  | .error k => .error (va, k)
  | .ok h0 =>
    if h0.getLsbD 0 then
      match fetchHalf s core ctx (va + 2) with
      | .error k => .error (va + 2, k)
      | .ok h1 => .ok (.long (h1 ++ h0), 4)
    else .ok (.short h0, 2)

/-- The words of the bundle at an address with their addresses: up to three, ending with the first that is no prefix word
(spec/02 R28). -/
def fetchBundle (s : State) (core ctx : Nat) : Nat → Nat → Except (Nat × FaultKind) (List (Nat × CodeWord × Nat))
  | 0, _ => .ok []
  | fuel + 1, va =>
    match fetchWord s core ctx va with
    | .error e => .error e
    | .ok (w, n) =>
      if isPrefixWord w then
        (match fetchBundle s core ctx fuel (va + n) with
         | .error e => .error e
         | .ok l => .ok ((va, w, n) :: l))
      else .ok [(va, w, n)]

/-- The first word of a bundle, zero-extended. -/
def firstWord : List (Nat × CodeWord × Nat) → Word
  | [] => 0
  | (_, .short h, _) :: _ => h.zeroExtend 32
  | (_, .long w, _) :: _ => w

/-- The address of a bundle's last word and of the bundle after it. -/
def lastWord : List (Nat × CodeWord × Nat) → Nat × Nat
  | [] => (0, 0)
  | [(va, _, n)] => (va, va + n)
  | _ :: r => lastWord r

/-- The instruction, or the event, that a path's bundle executes, with the bundle's record in `cur`. -/
def fetchInstr (s : State) (g : Gang) (p : Path) : Instr × Cur :=
  let base : Cur := { Cur.none with live := true, core := g.core, slot := g.slot, path := p.ent, pc := p.pc, wpc := p.pc, npc := p.pc }
  match fetchBundle s g.core g.ctx 3 p.pc.toNat with
  | .error (va, k) => (.instructionFetchFault (toDword va) k, base)
  | .ok ws =>
    let cur := { base with wpc := toDword (lastWord ws).1, npc := toDword (lastWord ws).2, first := firstWord ws }
    match decodeBundle (vregsLegal (gangVregs s g)) (ws.map (fun x => x.2.1)) with
    | .ok b => (b.instr, { cur with pfx := b.pfx, imm := b.imm24 })
    | .error .illegalEncoding => (.encodingNotInstruction .illegal cur.first, cur)
    | .error .reservedField => (.encodingNotInstruction .reserved cur.first, cur)

end Sys2Proof.Machine
end

