-- ==== Sys2Proof/Machine/Staged.lean ====
section
/-! DEFINITION. Staged evaluation (spec/05): which elements escalate, the parking queue, and how an element resolves. -/

namespace Sys2Proof.Machine

/-- The FMT code of a format (spec/05 R107). -/
def fmtCode (f : FloatFmt) : Nat :=
  match f.width, f.ebits, f.fbits with
  | 32, _, _ => 0
  | 64, _, _ => 1
  | 16, 5, _ => 2
  | 16, _, _ => 3
  | _, 4, _ => 4
  | _, _, _ => 5

/-- The stage that decides an element whose bound is not published: 0 fast, 1 Brock, 2 Sett (spec/05 R104). -/
def stageOf (op : Nat) (operands : List Nat) (fmt : Nat) : Nat := Config.stageOf op operands fmt % 3

/-- The sequence number of a cluster's next parking entry (spec/05 R107). -/
def nextSeq (s : State) (cluster : Nat) : Word := sparseGet 0#32 s.parkSeq cluster

/-- An element that asks for entries of its cluster's parking queue, under the next sequence number: it stands in the fast unit until it
is admitted (spec/05 R106, R107, R109). -/
def parkEntry (s : State) (e : ParkEntry) : State :=
  let q := nextSeq s e.cluster
  { s with
    parkq := s.parkq ++ [{ e with seq := q, stage := 4, ptime := dieNow s (clusterDie e.cluster), since := s.dtb }]
    parkSeq := sparseSet 0#32 s.parkSeq e.cluster (q + toWord e.parts) }

/-- An entry of a vector destination, its owner given by a gang and a thread position. -/
def lanePark (g : Gang) (kind lpos reg half : Nat) (rm : RMode) (f : FloatFmt) (opc parts : Nat) (payload : List Nat)
    (decider : Nat) (r near : FRes) : ParkEntry :=
  { cluster := coreCluster g.core, seq := 0, stage := 0, kind := kind, ctx := g.ctx, core := g.core % 4, slot := g.slot,
    lane := lpos, reg := reg, half := half, tile := 0, elem := 0, rm := rm, fmt := fmtCode f, opc := opc, parts := parts,
    ptime := 0, since := 0, payload := payload, place := [], cmd := 0, decider := decider, result := r.bits, flags := r.flags,
    opnds := payload, near := near, soft := false }

/-! ### Resolution -/

/-- A lane of a register replaced: a packed lane, a word or a pair. -/
def replaceLane (f : FloatFmt) (reg half bits : Nat) (old : Word) : List (Nat × Word) :=
  if f.width = 16 then
    [(reg, toWord (if half = 0 then old.toNat / 65536 * 65536 + bits % 65536 else old.toNat % 65536 + bits % 65536 * 65536))]
  else regWrites (f.width == 64) reg bits

/-- The destination format of a FMT code. -/
def codeFmt (c : Nat) : FloatFmt :=
  match c with
  | 0 => fmt32
  | 1 => fmt64
  | 2 => fmt16
  | 3 => fmtB16
  | 4 => fmtE4M3
  | _ => fmtE5M2

/-- The bits that an entry resolves to: its result, or, after an uncorrectable soft error, the canonical NaN (spec/05 R119). -/
def entryBits (e : ParkEntry) : Nat := if e.soft then fmtNaN (codeFmt e.fmt) else e.result

/-- The flags that an entry resolves with: none after an uncorrectable soft error (spec/05 R119). -/
def entryFlags (e : ParkEntry) : Flags := if e.soft then flagNone else e.flags

/-- Whether a thread owns the pending element of an entry. -/
def ownsElem (e : ParkEntry) (t : Thread) : Bool := t.pend.any (fun p => p.seq == e.seq)

/-- A thread whose element is resolved: the element is written, or poisoned with every register it lies in, and its mark is cleared
(spec/05 R112, R119). -/
def resolveThread (e : ParkEntry) (t : Thread) : Thread :=
  if ownsElem e t then
    let ws := replaceLane (codeFmt e.fmt) e.reg e.half (entryBits e) (vreg t e.reg)
    { t with
      v := sparseSetAll 0#32 t.v ws
      pend := t.pend.filter (fun p => p.seq != e.seq)
      poison := if e.soft then ws.map (·.1) ++ t.poison else t.poison }
  else t

/-- A thread in a den resolved likewise. -/
def resolveItem (e : ParkEntry) : DenItem → DenItem
  | .thread t k => .thread (resolveThread e t) k
  | .record r sl => .record r sl

/-- The sub-gangs that wait on an element released (spec/05 R112). -/
def releaseElem (e : ParkEntry) (p : Parked) : Parked :=
  match p.cause with
  | .elem _ _ _ q => if q == e.seq then { p with released := true } else p
  | _ => p

/-- A gang in which an element resolves: its threads, the sub-gangs that wait on the element, and, in the gang that issued it, the flags
and the count (spec/05 R112, R117). -/
def resolveGang (e : ParkEntry) (g : Gang) : Gang :=
  let g1 := { g with threads := g.threads.map (resolveThread e), parked := g.parked.map (releaseElem e) }
  if g.core == e.cluster * 4 + e.core && g.slot == e.slot then
    let g2 := gangOrFlags g1 (entryFlags e)
    if e.stage = 2 then { g2 with escs := g2.escs + 1 } else { g2 with escb := g2.escb + 1 }
  else g1

/-- The sub-gangs of a gang that an element releases. -/
def freedBy (e : ParkEntry) (g : Gang) : List Parked :=
  g.parked.filter (fun p => !p.released && (releaseElem e p).released)

/-- An element of a vector destination resolves, as one event, wherever its thread is by then: in a gang of the cluster or in a den
(spec/05 R112, R117). -/
def resolveLane (s : State) (e : ParkEntry) : State :=
  let near := fun (g : Gang) => coreCluster g.core == e.cluster
  let s1 := { s with
    parkq := s.parkq.filter (fun x => !(x.cluster == e.cluster && x.seq == e.seq))
    gangs := s.gangs.map (fun g => if near g then resolveGang e g else g)
    dens := s.dens.map (fun d => if d.cluster == e.cluster then { d with items := d.items.map (resolveItem e) } else d) }
  (s.gangs.filter near).foldl (fun s g => (freedBy e g).foldl (fun s p =>
    emit s (.core g.core) g.ctx 0x06 (parkPayload p.mask g.slot p.pc 0xFF) (gridTag s g.ctx g.grid) (some g.slot)) s) s1

/-! ### Staged lanes -/

/-- One lane of a staged instruction: its operand, its result, that under round-to-nearest-even, and whether it may escalate. -/
structure StagedLane where
  half  : Nat
  x     : Nat
  res   : FRes
  near  : FRes
  stage : Nat
  deriving DecidableEq, Repr

/-- The lanes of a thread's staged result: `f` gives a lane's result, `plain` whether it never escalates. -/
def stagedLanes (ty : FpType) (opc : Nat) (rm : RMode) (f : RMode → Nat → FRes) (plain : Nat → Bool) (x : Nat) : List StagedLane :=
  let fmt := typeFmt ty
  (rangeFrom 0 (fpLanes ty)).map (fun j =>
    let a := laneOf fmt.width j x
    ⟨j, a, f rm a, f .rne a, if plain a then 0 else stageOf opc [a] (fmtCode fmt)⟩)

/-- The registers that the decided lanes of a thread write; an escalated lane keeps its old bits. -/
def decidedWrites (ty : FpType) (d : Nat) (old : Word) (l : List StagedLane) : List (Nat × Word) :=
  let f := typeFmt ty
  if fpLanes ty = 1 then
    l.flatMap (fun x => if x.stage = 0 then regWrites (fpWide ty) d x.res.bits else [])
  else
    (l.filter (·.stage == 0)).foldl (fun acc x => replaceLane f d x.half x.res.bits ((acc.head?.map (·.2)).getD old)) []

/-- One escalated lane: its element is marked pending, and it asks for an entry (spec/05 R106 to R109, R112). -/
def escalate (rm : RMode) (fmt : FloatFmt) (opc d : Nat) (s : State) (lpos : Nat) (x : StagedLane) : State :=
  match curGang s with
  | none => s
  | some g =>
    let q := nextSeq s (coreCluster g.core)
    let s1 := updCur s (fun g => updThread g lpos (fun t => { t with pend := ⟨d, x.half, fmtCode fmt, q⟩ :: t.pend }))
    parkEntry s1 (lanePark g 0 lpos d x.half rm fmt opc 1 [x.x] x.stage x.res x.near)

/-- A staged lane-wise instruction of one operand (spec/05 R104; spec/07 R153, spec/08 R168). Elements that find no free entry wait in the
fast unit, and their gang issues nothing (spec/05 R109). -/
def stagedOp (m : Bool) (ty : FpType) (opc a d : Nat) (f : RMode → Nat → FRes) (plain : Nat → Bool) (s : State) : State :=
  let s1 := readyLanes s (fpSpan ty a) (fpSpan ty d)
  match curGang s1 with
  | none => s1
  | some g =>
    let rm := curRM s1 g
    let mask := curMask s1 g
    let work := g.threads.map (fun t =>
      (t, if bitOf mask t.lpos && predOn s1.cur t then some (stagedLanes ty opc rm f plain (readFp s.freeCtr t ty 0 a)) else none))
    let waiting := fun (l : Option (List StagedLane)) => (l.getD []).filter (·.stage != 0)
    let s2 := writeLanes s1 (work.map (fun w => w.2.map (fun l =>
      ⟨decidedWrites ty d (vreg w.1 d) l, [], orFlags ((l.filter (·.stage == 0)).map (·.res.flags))⟩)))
    let s3 := work.foldl (fun s w =>
      (waiting w.2).foldl (fun s x => escalate rm (typeFmt ty) opc d s w.1.lpos x) s) s2
    finishPath (admitHeld s3) m

end Sys2Proof.Machine
end

