-- ==== Sys2Proof/Machine/Fp.lean ====
section
/-! DEFINITION. The floating-point instructions (spec/07), `FFN` (spec/08 R166 to R168), and the short floating-point forms
(spec/02 R40). -/

namespace Sys2Proof.Machine

/-- A lane-wise floating-point operation of two sources (spec/07 R145, R150). -/
def fpOp2 (m : Bool) (ty : FpType) (b a d : Nat) (f : FloatFmt → RMode → Nat → Nat → FRes) (s : State) : State :=
  let fmt := typeFmt ty
  laneOp m (fpSpan ty b ++ fpSpan ty a) (fpSpan ty d) (fun g t =>
    let x := readFp s.freeCtr t ty 0 a
    let y := readFp s.freeCtr t ty 1 b
    let w := fmt.width
    let rs := (rangeFrom 0 (fpLanes ty)).map (fun j => f fmt (curRM s g) (laneOf w j x) (laneOf w j y))
    ⟨regWrites (fpWide ty) d (packLanes w (rs.map (·.bits))), [], orFlags (rs.map (·.flags))⟩) s

/-- A lane-wise floating-point operation of one source. -/
def fpOp1 (m : Bool) (ty : FpType) (a d : Nat) (f : FloatFmt → RMode → Nat → FRes) (s : State) : State :=
  let fmt := typeFmt ty
  laneOp m (fpSpan ty a) (fpSpan ty d) (fun g t =>
    let r := mapLanes ty (fun j => f fmt (curRM s g) (laneOf fmt.width j (readFp s.freeCtr t ty 0 a)))
    ⟨regWrites (fpWide ty) d r.bits, [], r.flags⟩) s

/-- A fused multiply and add with its destination as the addend (spec/07 R150). -/
def fpFma (m : Bool) (ty : FpType) (negD : Bool) (b a d : Nat) (s : State) : State :=
  let fmt := typeFmt ty
  laneOp m (fpSpan ty b ++ fpSpan ty a ++ fpSpan ty d) (fpSpan ty d) (fun g t =>
    let x := readFp s.freeCtr t ty 0 a
    let y := readFp s.freeCtr t ty 1 b
    let z := readFp s.freeCtr t ty 2 d
    let r := mapLanes ty (fun j =>
      let v := fdecode fmt (laneOf fmt.width j z)
      fmaVal fmt (curRM s g) (fdecode fmt (laneOf fmt.width j x)) (fdecode fmt (laneOf fmt.width j y)) (if negD then fnegate v else v))
    ⟨regWrites (fpWide ty) d r.bits, [], r.flags⟩) s

/-- Two encodings added (spec/07 R150, R151). -/
def faddBits (f : FloatFmt) (rm : RMode) (x y : Nat) : FRes := faddVal f rm (fdecode f x) (fdecode f y)

/-- The difference of two encodings (spec/07 R150, R151). -/
def fsubBits (f : FloatFmt) (rm : RMode) (x y : Nat) : FRes := faddVal f rm (fdecode f x) (fnegate (fdecode f y))

/-- The product of two encodings (spec/07 R150, R151). -/
def fmulBits (neg : Bool) (f : FloatFmt) (rm : RMode) (x y : Nat) : FRes := fmulVal f rm neg (fdecode f x) (fdecode f y)

/-- `FADD` (spec/07 R150). -/
def execFadd (t : FpType) (b a d : BitVec 7) (m : Bool) (s : State) : Res := .next (fpOp2 m t b.toNat a.toNat d.toNat faddBits s)

/-- `FSUB` (spec/07 R150). -/
def execFsub (t : FpType) (b a d : BitVec 7) (m : Bool) (s : State) : Res := .next (fpOp2 m t b.toNat a.toNat d.toNat fsubBits s)

/-- `FMUL` (spec/07 R150). -/
def execFmul (t : FpType) (b a d : BitVec 7) (m : Bool) (s : State) : Res :=
  .next (fpOp2 m t b.toNat a.toNat d.toNat (fmulBits false) s)

/-- `FNMUL`: the product is negated before it is rounded (spec/07 R150). -/
def execFnmul (t : FpType) (b a d : BitVec 7) (m : Bool) (s : State) : Res :=
  .next (fpOp2 m t b.toNat a.toNat d.toNat (fmulBits true) s)

/-- `FMA` (spec/07 R150). -/
def execFma (t : FpType) (b a d : BitVec 7) (m : Bool) (s : State) : Res := .next (fpFma m t false b.toNat a.toNat d.toNat s)

/-- `FMS` (spec/07 R150). -/
def execFms (t : FpType) (b a d : BitVec 7) (m : Bool) (s : State) : Res := .next (fpFma m t true b.toNat a.toNat d.toNat s)

/-- `FDIV` (spec/07 R150). -/
def execFdiv (t : FpType) (b a d : BitVec 7) (m : Bool) (s : State) : Res :=
  .next (fpOp2 m t b.toNat a.toNat d.toNat (fun f rm x y => fdivVal f rm (fdecode f x) (fdecode f y)) s)

/-- `FREM` (spec/07 R152). -/
def execFrem (t : FpType) (b a d : BitVec 7) (m : Bool) (s : State) : Res :=
  .next (fpOp2 m t b.toNat a.toNat d.toNat (fun f _ x y => fremVal f (fdecode f x) (fdecode f y)) s)

/-- `FMIN` (spec/07 R154). -/
def execFmin (t : FpType) (b a d : BitVec 7) (m : Bool) (s : State) : Res :=
  .next (fpOp2 m t b.toNat a.toNat d.toNat (fun f _ x y => fminmaxBits f false x y) s)

/-- `FMAX` (spec/07 R154). -/
def execFmax (t : FpType) (b a d : BitVec 7) (m : Bool) (s : State) : Res :=
  .next (fpOp2 m t b.toNat a.toNat d.toNat (fun f _ x y => fminmaxBits f true x y) s)

/-- `FSQRT` (spec/07 R150). -/
def execFsqrt (t : FpType) (a d : BitVec 7) (m : Bool) (s : State) : Res :=
  .next (fpOp1 m t a.toNat d.toNat (fun f rm x => fsqrtVal f rm (fdecode f x)) s)

/-- `FRSQ`, a staged result of OPC 14 (spec/07 R153). -/
def execFrsq (t : FpType) (a d : BitVec 7) (m : Bool) (s : State) : Res :=
  let f := typeFmt t
  .next (stagedOp m t 14 a.toNat d.toNat (fun rm x => frsqVal f rm (fdecode f x)) (fun x => frsqSpecial (fdecode f x)) s)

/-- `FFN`, a staged result whose OPC is the function code (spec/08 R167, R168). -/
def execFfn (t : FpType) (c a d : BitVec 7) (m : Bool) (s : State) : Res :=
  let f := typeFmt t
  .next (stagedOp m t c.toNat a.toNat d.toNat (fun rm x => ffnVal f rm c.toNat x) (fun x => ffnPlain f c.toNat (fdecode f x)) s)

/-- The flag of a comparison: NV for a signalling NaN, or for any NaN (spec/07 R155). -/
def fcmpFlags (sig : Bool) (a b : FVal) : Flags :=
  flagIf (isSnan a || isSnan b || (sig && (isNan a || isNan b))) flagNV

/-- A comparison: the condition must hold in every lane (spec/07 R155). -/
def fpCompare (m sig : Bool) (ty : FpType) (b a cc p : Nat) (s : State) : State :=
  let fmt := typeFmt ty
  laneOp m (fpSpan ty b ++ fpSpan ty a) [] (fun _ t =>
    let x := readFp s.freeCtr t ty 0 a
    let y := readFp s.freeCtr t ty 1 b
    let vs := (rangeFrom 0 (fpLanes ty)).map (fun j =>
      (fdecode fmt (laneOf fmt.width j x), fdecode fmt (laneOf fmt.width j y)))
    ⟨[], [(p, vs.all (fun v => fcmpCond cc v.1 v.2))], orFlags (vs.map (fun v => fcmpFlags sig v.1 v.2))⟩) s

/-- `FCMP` (spec/07 R155). -/
def execFcmp (t : FpType) (b a : BitVec 7) (c : BitVec 4) (p : BitVec 3) (m : Bool) (s : State) : Res :=
  .next (fpCompare m false t b.toNat a.toNat c.toNat p.toNat s)

/-- `FCMP.sig` (spec/07 R155). -/
def execFcmpSig (t : FpType) (b a : BitVec 7) (c : BitVec 4) (p : BitVec 3) (m : Bool) (s : State) : Res :=
  .next (fpCompare m true t b.toNat a.toNat c.toNat p.toNat s)

/-- `FSCALE` (spec/07 R156): the scale is a signed word, or a signed half for each packed lane. -/
def execFscale (t : FpType) (b a d : BitVec 7) (m : Bool) (s : State) : Res :=
  let fmt := typeFmt t
  .next (laneOp m ([b.toNat] ++ fpSpan t a.toNat) (fpSpan t d.toNat) (fun g th =>
    let x := readFp s.freeCtr th t 0 a.toNat
    let n := (readV s.freeCtr th 1 b.toNat).toNat
    let r := mapLanes t (fun j =>
      fscaleVal fmt (curRM s g) (fdecode fmt (laneOf fmt.width j x))
        (if fpLanes t = 1 then signedOf 32 n else signedOf 16 (laneOf 16 j n)))
    ⟨regWrites (fpWide t) d.toNat r.bits, [], r.flags⟩) s)

/-- `FLOGB` (spec/07 R157). -/
def execFlogb (t : FpType) (a d : BitVec 7) (m : Bool) (s : State) : Res :=
  .next (fpOp1 m t a.toNat d.toNat (fun f _ x => flogbVal f (fdecode f x)) s)

/-- An encoding with the sign bit of another (spec/07 R158). -/
def fsgnBits (f : FloatFmt) (x y : Nat) : Nat := x % 2 ^ (f.width - 1) + bitNat (bitOf y (f.width - 1)) * 2 ^ (f.width - 1)

/-- `FSGN` (spec/07 R158). -/
def execFsgn (t : FpType) (b a d : BitVec 7) (m : Bool) (s : State) : Res :=
  .next (fpOp2 m t b.toNat a.toNat d.toNat (fun f _ x y => ⟨fsgnBits f x y, flagNone⟩) s)

/-- `FCLASS` (spec/07 R159): a mask in one register, one for each packed lane. -/
def execFclass (t : FpType) (a d : BitVec 7) (m : Bool) (s : State) : Res :=
  let fmt := typeFmt t
  .next (laneOp m (fpSpan t a.toNat) [d.toNat] (fun _ th =>
    let x := readFp s.freeCtr th t 0 a.toNat
    outV d.toNat (toWord (packLanes 16 ((rangeFrom 0 (fpLanes t)).map (fun j => fclassMask fmt (laneOf fmt.width j x)))))) s)

/-! ### Conversion -/

/-- What a conversion code takes and gives (spec/07 R161): the source lanes' width, the destination lanes' width, the lane
count, and the conversion of one lane. -/
structure CvtRow where
  sw : Nat
  dw : Nat
  n  : Nat
  f  : RMode → Nat → FRes

/-- A row that converts between floating-point formats. -/
def cvtFf (a b : FloatFmt) (sw dw n : Nat) (sat : Bool) : CvtRow := ⟨sw, dw, n, fun rm x => fconvert a b rm sat (x % 2 ^ a.width)⟩

/-- A row that converts to an integer (spec/07 R163). -/
def cvtFi (a : FloatFmt) (w : Nat) (signed : Bool) (n : Nat) : CvtRow := ⟨a.width, w, n, fun rm x => fToInt a rm w signed x⟩

/-- A row that converts from an integer. -/
def cvtIf (w : Nat) (signed : Bool) (b : FloatFmt) (n : Nat) : CvtRow :=
  ⟨w, b.width, n, fun rm x => fOfInt b rm (if signed then signedOf w x else (x : Int))⟩

/-- A row that rounds to an integral value (spec/07 R164). -/
def cvtRint (a : FloatFmt) (n : Nat) : CvtRow := ⟨a.width, a.width, n, fun rm x => frint a rm x⟩

/-- The rows of the conversion table (spec/07 R161). -/
def cvtRow (code : Nat) : Option CvtRow :=
  match code with
  | 0 => some (cvtFf fmt32 fmt64 32 64 1 false)
  | 1 => some (cvtFf fmt64 fmt32 64 32 1 false)
  | 2 => some (cvtFf fmt32 fmt16 32 32 1 false)
  | 3 => some (cvtFf fmt16 fmt32 32 32 1 false)
  | 4 => some (cvtFf fmt32 fmtB16 32 32 1 false)
  | 5 => some (cvtFf fmtB16 fmt32 32 32 1 false)
  | 6 => some (cvtFf fmt64 fmt16 64 32 1 false)
  | 7 => some (cvtFf fmt64 fmtB16 64 32 1 false)
  | 8 => some (cvtFf fmt32 fmt16 32 16 2 false)
  | 9 => some (cvtFf fmt32 fmtB16 32 16 2 false)
  | 10 => some (cvtFf fmt16 fmt32 16 32 2 false)
  | 11 => some (cvtFf fmtB16 fmt32 16 32 2 false)
  | 12 => some (cvtFf fmt16 fmtB16 16 16 2 false)
  | 13 => some (cvtFf fmtB16 fmt16 16 16 2 false)
  | 16 => some (cvtFf fmt32 fmtE4M3 32 32 1 false)
  | 17 => some (cvtFf fmt32 fmtE5M2 32 32 1 false)
  | 18 => some (cvtFf fmt32 fmtE5M2 32 32 1 true)
  | 19 => some (cvtFf fmtE4M3 fmt32 32 32 1 false)
  | 20 => some (cvtFf fmtE5M2 fmt32 32 32 1 false)
  | 21 => some (cvtFf fmt32 fmtE4M3 32 8 4 false)
  | 22 => some (cvtFf fmt32 fmtE5M2 32 8 4 false)
  | 23 => some (cvtFf fmt32 fmtE5M2 32 8 4 true)
  | 24 => some (cvtFf fmtE4M3 fmt32 8 32 4 false)
  | 25 => some (cvtFf fmtE5M2 fmt32 8 32 4 false)
  | 26 => some (cvtFf fmtB16 fmtE4M3 16 8 2 false)
  | 27 => some (cvtFf fmtB16 fmtE5M2 16 8 2 false)
  | 28 => some (cvtFf fmtE4M3 fmtB16 8 16 2 false)
  | 29 => some (cvtFf fmtE5M2 fmtB16 8 16 2 false)
  | 32 => some (cvtFi fmt32 32 true 1)
  | 33 => some (cvtFi fmt32 32 false 1)
  | 34 => some (cvtFi fmt64 32 true 1)
  | 35 => some (cvtFi fmt64 32 false 1)
  | 36 => some (cvtFi fmt32 64 true 1)
  | 37 => some (cvtFi fmt32 64 false 1)
  | 38 => some (cvtFi fmt64 64 true 1)
  | 39 => some (cvtFi fmt64 64 false 1)
  | 40 => some (cvtFi fmt16 16 true 2)
  | 41 => some (cvtFi fmt16 16 false 2)
  | 42 => some (cvtFi fmtB16 16 true 2)
  | 43 => some (cvtFi fmtB16 16 false 2)
  | 48 => some (cvtIf 32 true fmt32 1)
  | 49 => some (cvtIf 32 false fmt32 1)
  | 50 => some (cvtIf 32 true fmt64 1)
  | 51 => some (cvtIf 32 false fmt64 1)
  | 52 => some (cvtIf 64 true fmt32 1)
  | 53 => some (cvtIf 64 false fmt32 1)
  | 54 => some (cvtIf 64 true fmt64 1)
  | 55 => some (cvtIf 64 false fmt64 1)
  | 56 => some (cvtIf 16 true fmt16 2)
  | 57 => some (cvtIf 16 false fmt16 2)
  | 58 => some (cvtIf 16 true fmtB16 2)
  | 59 => some (cvtIf 16 false fmtB16 2)
  | 60 => some (cvtRint fmt32 1)
  | 61 => some (cvtRint fmt64 1)
  | 62 => some (cvtRint fmt16 2)
  | 63 => some (cvtRint fmtB16 2)
  | _ => none

/-- The registers from `r` on as one number. -/
def readRun (c : Nat) (t : Thread) (k r : Nat) : Nat → Nat
  | 0 => 0
  | n + 1 => (readV c t k r).toNat + 2 ^ 32 * readRun c t k (r + 1) n

/-- The rounding mode of `FCVT`: its own field, or `RM` (spec/07 R146). -/
def cvtRM (r : BitVec 3) (g : Gang) : RMode :=
  match rmodeOf r.toNat with
  | some m => m
  | none => dynRM g

/-- `FCVT` (spec/07 R160 to R164). Bits of a destination register that no lane fills are 0. -/
def execFcvt (r : BitVec 3) (c a d : BitVec 7) (m : Bool) (s : State) : Res :=
  match cvtRow c.toNat, fcvtSpans c.toNat with
  | some row, some (na, nd) =>
    .next (laneOp m (rangeFrom a.toNat na) (rangeFrom d.toNat nd) (fun g t =>
      let x := readRun s.freeCtr t 0 a.toNat na
      let rs := (rangeFrom 0 row.n).map (fun j => row.f (cvtRM r g) (laneOf row.sw j x))
      let out := packLanes row.dw (rs.map (·.bits))
      ⟨(rangeFrom 0 nd).map (fun k => (d.toNat + k, toWord (out >>> (32 * k)))), [], orFlags (rs.map (·.flags))⟩) s)
  | _, _ => .next (trapPath s 0x01 0 s.cur.first)

/-! ### Short forms (spec/02 R40) -/

/-- A short floating-point form: FP32, `vD := vD op vA`, in the dynamic rounding mode. -/
def fpShort (m : Bool) (a d : Nat) (f : RMode → Nat → Nat → FRes) (s : State) : State :=
  laneOp m [a, d] [d] (fun g t =>
    let r := f (dynRM g) (readV s.freeCtr t 0 d).toNat (readV s.freeCtr t 1 a).toNat
    ⟨[(d, toWord r.bits)], [], r.flags⟩) s

/-- `FADD` is `FADD.f32 vD, vD, vA`. -/
def execFaddShort (a d : BitVec 5) (m : Bool) (s : State) : Res := .next (fpShort m a.toNat d.toNat (faddBits fmt32) s)

/-- `FSUB` is `FSUB.f32 vD, vD, vA`. -/
def execFsubShort (a d : BitVec 5) (m : Bool) (s : State) : Res := .next (fpShort m a.toNat d.toNat (fsubBits fmt32) s)

/-- `FMUL` is `FMUL.f32 vD, vD, vA`. -/
def execFmulShort (a d : BitVec 5) (m : Bool) (s : State) : Res := .next (fpShort m a.toNat d.toNat (fmulBits false fmt32) s)

/-- `FMAX` is `FMAX.f32 vD, vD, vA`. -/
def execFmaxShort (a d : BitVec 5) (m : Bool) (s : State) : Res :=
  .next (fpShort m a.toNat d.toNat (fun _ => fminmaxBits fmt32 true) s)

/-- `FMIN` is `FMIN.f32 vD, vD, vA`. -/
def execFminShort (a d : BitVec 5) (m : Bool) (s : State) : Res :=
  .next (fpShort m a.toNat d.toNat (fun _ => fminmaxBits fmt32 false) s)

end Sys2Proof.Machine
end

