-- ==== Sys2Proof/Machine/Hash.lean ====
section
/-! DEFINITION. SHA3-512, the hash of code chunks and of measurements (spec/03 R62, R64; spec/19 R417): the sponge of FIPS 202
with a rate of 72 bytes. -/

namespace Sys2Proof.Machine

/-- The 25 lanes of the permutation's state, lane `x + 5 y` at place `x + 5 y`. -/
abbrev Lanes := List Dword

/-- A lane of the state. -/
def laneAt (a : Lanes) (x y : Nat) : Dword := a.getD (x % 5 + 5 * (y % 5)) 0

/-- The rotation offsets of the step ρ, for lane `x + 5 y`. -/
def rotOffsets : List Nat :=
  [0, 1, 62, 28, 27, 36, 44, 6, 55, 20, 3, 10, 43, 25, 39, 41, 45, 15, 21, 8, 18, 2, 61, 56, 14]

/-- The round constants of the step ι. -/
def roundConstants : List Dword :=
  [0x0000000000000001#64, 0x0000000000008082#64, 0x800000000000808A#64, 0x8000000080008000#64,
   0x000000000000808B#64, 0x0000000080000001#64, 0x8000000080008081#64, 0x8000000000008009#64,
   0x000000000000008A#64, 0x0000000000000088#64, 0x0000000080008009#64, 0x000000008000000A#64,
   0x000000008000808B#64, 0x800000000000008B#64, 0x8000000000008089#64, 0x8000000000008003#64,
   0x8000000000008002#64, 0x8000000000000080#64, 0x000000000000800A#64, 0x800000008000000A#64,
   0x8000000080008081#64, 0x8000000000008080#64, 0x0000000080000001#64, 0x8000000080008008#64]

/-- The step θ. -/
def stepTheta (a : Lanes) : Lanes :=
  let c := (rangeFrom 0 5).map (fun x => laneAt a x 0 ^^^ laneAt a x 1 ^^^ laneAt a x 2 ^^^ laneAt a x 3 ^^^ laneAt a x 4)
  let d := (rangeFrom 0 5).map (fun x => c.getD ((x + 4) % 5) 0 ^^^ (c.getD ((x + 1) % 5) 0).rotateLeft 1)
  (rangeFrom 0 25).map (fun i => a.getD i 0 ^^^ d.getD (i % 5) 0)

/-- The steps ρ and π: lane (x, y) of the result is the rotated lane (x + 3 y, x). -/
def stepRhoPi (a : Lanes) : Lanes :=
  (rangeFrom 0 25).map (fun i =>
    let x := i % 5
    let y := i / 5
    let j := (x + 3 * y) % 5 + 5 * x
    (a.getD j 0).rotateLeft (rotOffsets.getD j 0))

/-- The step χ. -/
def stepChi (a : Lanes) : Lanes :=
  (rangeFrom 0 25).map (fun i =>
    let x := i % 5
    let y := i / 5
    laneAt a x y ^^^ (~~~(laneAt a (x + 1) y) &&& laneAt a (x + 2) y))

/-- One round. -/
def keccakRound (a : Lanes) (rc : Dword) : Lanes :=
  match stepChi (stepRhoPi (stepTheta a)) with
  | [] => []
  | x :: r => (x ^^^ rc) :: r

/-- The permutation Keccak-f[1600]. -/
def keccakF (a : Lanes) : Lanes := roundConstants.foldl keccakRound a

/-- A block of 72 bytes absorbed. -/
def absorb (a : Lanes) (block : List Byte) : Lanes :=
  keccakF ((rangeFrom 0 25).map (fun i => a.getD i 0 ^^^ toDword (fieldAt block (8 * i) 8)))

/-- A message padded to whole blocks: the suffix 01, then 1 0* 1. -/
def sha3Pad (m : List Byte) : List Byte :=
  let r := 72 - m.length % 72
  m ++ (if r = 1 then [0x86#8] else [0x06#8] ++ List.replicate (r - 2) 0#8 ++ [0x80#8])

/-- SHA3-512 as 64 bytes. -/
def sha3Bytes (m : List Byte) : List Byte :=
  let a := (chunksOf 72 (m.length / 72 + 2) (sha3Pad m)).foldl absorb (List.replicate 25 0#64)
  (a.take 8).flatMap (fun d => toBytes 8 d.toNat)

/-- SHA3-512 as a number whose byte `k` is the hash's byte `k`. -/
def sha3 (m : List Byte) : BitVec 512 := BitVec.ofNat 512 (ofBytes (sha3Bytes m))

/-- The leaf hash of a chunk (spec/03 R62). -/
def leafHash (chunk : List Byte) : BitVec 512 := sha3 (0#8 :: chunk)

end Sys2Proof.Machine
end

