-- ==== Sys2Proof/Machine/Access.lean ====
section
/-! DEFINITION. The issue of memory accesses: addresses (spec/12 R258), the checks of each thread (spec/12 R263), the indivisible
events of a gang access (spec/11 R245, R246), and the operations put in flight (spec/02 R30). -/

namespace Sys2Proof.Machine

/-! ### Addresses and sizes -/

/-- The sign-extended `PFXI` immediate, 0 without one (spec/12 R258). -/
def immExt (c : Cur) : Dword :=
  match c.imm with
  | none => 0
  | some i => i.signExtend 64

/-- The scalar pair of an `LM` access (spec/12 R258). -/
def basePair (sb : Nat) : List Nat := [2 * sb, 2 * sb + 1]

/-- The address that a thread's `LM` access forms (spec/12 R258). -/
def laneAddr (s : State) (g : Gang) (t : Thread) (sb a : Nat) : Nat :=
  (readSPair s.freeCtr g 0 (2 * sb) + (readV s.freeCtr t 0 a).zeroExtend 64 + immExt s.cur).toNat

/-- The bytes that a size code moves (spec/12 R259, R265). -/
def sizeBytes (z : Nat) : Nat :=
  match z with
  | 0 | 1 => 1
  | 2 | 3 => 2
  | 4 => 4
  | 5 => 8
  | 6 => 16
  | _ => 32

/-- The registers that an access of a size code loads or stores from `d` on (spec/12 R259). -/
def sizeSpan (z d : Nat) : List Nat :=
  rangeFrom d (match z with
    | 5 => 2
    | 6 => 4
    | 7 => 8
    | _ => 1)

/-- The data of a store: the registers from `d` on as one number (spec/12 R259). -/
def storeData (c : Nat) (t : Thread) (z d : Nat) : Nat :=
  packLanes 32 ((sizeSpan z d).map (fun r => (readV c t 1 r).toNat)) % 2 ^ (8 * sizeBytes z)

/-! ### Regions (spec/13 R284 to R288) -/

/-- The open region entry that some byte of a range lies in. -/
def regionHit (s : State) (ctx va n : Nat) : Option (Nat × Region) :=
  match findCtx s ctx with
  | none => none
  | some c => c.regions.findSome? (fun e =>
      match e.2 with
      | some r => if r.pbase < va + n ∧ va < r.pbase + r.psize then some (e.1, r) else none
      | none => none)

/-- The size of a region's elements (spec/13 R283). -/
def elemSize (r : Region) : Nat := if r.etype = 0 then 4 else 2

/-- The size code that an access within a region must have (spec/13 R287). -/
def elemCode (r : Region) : Nat := if r.etype = 0 then 4 else 2

/-- The region entry whose rules a thread's `LDG` or `STG` breaks, if any (spec/13 R287). -/
def regionBreach (s : State) (g : Gang) (z va : Nat) : Option Nat :=
  if gangMode s g = 0 then none
  else
    match regionHit s g.ctx va (sizeBytes z) with
    | none => none
    | some (k, r) => if z = elemCode r ∧ va % elemSize r = 0 then none else some k

/-- The region entry that a thread's atomic or `SMEM` access touches in a taped mode, if any (spec/13 R288). -/
def regionBarred (s : State) (g : Gang) (va n : Nat) : Option Nat :=
  if gangMode s g = 0 then none else (regionHit s g.ctx va n).map (·.1)

/-- The address of the adjoint cell of an element (spec/13 R284). -/
def cellAddr (r : Region) (va : Nat) : Nat := r.sbase + 16 * ((va - r.pbase) / elemSize r)

/-! ### One thread's access -/

/-- A thread's access that passes its checks: the operation it belongs to, what groups it with other threads' accesses, its
parts, its translations, and the registers it puts in flight. -/
structure OkLane where
  lpos  : Nat
  kind  : OutKind
  key   : List Nat
  whole : Bool
  parts : List LanePart
  trs   : List (Nat × Trans)
  dst   : List Nat
  data  : List Nat
  deriving DecidableEq, Repr

/-- What the checks of a thread's access answer. -/
inductive LaneRes where
  | ok (l : List OkLane)
  | trap (code addr : Nat) (info : Word)
  | fault (f : LaneFault)
  deriving DecidableEq, Repr

/-- The target kind of a part: 7 stands for a system-atomic page of device memory. -/
def tgtOf (t : Trans) : Nat := if pteTgt t.pte = 0 ∧ pteSysat t.pte then 7 else pteTgt t.pte

/-- A run of bytes cut at the 4 KiB boundary. -/
def pageRuns (x n : Nat) : List (Nat × Nat) :=
  let a := min n (4096 - x % 4096)
  if a = n then [(x, n)] else [(x, a), (x + a, n - a)]

/-- The thread whose translation an access of `n` bytes takes: for an aligned one, which is part of a line event, the lowest active thread
with an aligned access in the same line, for any other the thread itself (spec/19 R410). `addr` gives each thread's address. -/
def leader (s : State) (g : Gang) (addr : Thread → Nat) (n : Nat) (t : Thread) : Thread :=
  if addr t % n = 0 then ((activeThreads s g).find? (fun u => addr u % n == 0 && addr u / 128 == addr t / 128)).getD t else t

/-- Checks 5 to 8 of spec/12 R263 on one run of a thread's access, with the translation of its line's leader `u` (spec/19 R410); a load
from a launch window raises the access fault (spec/15 R322). -/
def checkRun (s : State) (g : Gang) (u t : Thread) (x n : Nat) (acc : Acc) : Except LaneFault (Nat × Trans) :=
  match translateThread s g u x with
  | .error k => .error ⟨t.lpos, k, x, acc⟩
  | .ok tr =>
    match checkPage s g.ctx t.lpos tr x n acc with
    | some k => .error ⟨t.lpos, k, x, acc⟩
    | none =>
      if (acc == .read && [3, 4, 6].contains (pteTgt tr.pte)) || (acc == .atomic && decide (3 ≤ pteTgt tr.pte)) then
        .error ⟨t.lpos, .access, x, acc⟩
      else .ok (x, tr)

/-- Checks 5 to 8 of spec/12 R263 on every byte of a thread's access. -/
def checkRuns (s : State) (g : Gang) (u t : Thread) (acc : Acc) : List (Nat × Nat) → Except LaneFault (List (Nat × Trans))
  | [] => .ok []
  | (x, n) :: r =>
    match checkRun s g u t x n acc with
    | .error f => .error f
    | .ok a =>
      match checkRuns s g u t acc r with
      | .error f => .error f
      | .ok l => .ok (a :: l)

/-- One part of an access at an address that a translation serves. -/
def partAt (trs : List (Nat × Trans)) (lpos va size off reg : Nat) (data : Nat) : LanePart :=
  match trs.find? (fun t => t.1 / 4096 == va / 4096) with
  | none => ⟨lpos, va, 0, 0, 0, 0, size, off, reg, toDword data, toDword (data / 2 ^ 64)⟩
  | some t => ⟨lpos, va, transPa t.2 va, pteHome t.2.pte, tgtOf t.2, ptePeer t.2.pte, size, off, reg, toDword data,
      toDword (data / 2 ^ 64)⟩

/-- The parts of an access of `n` bytes: one where it is naturally aligned, else one for each byte (spec/11 R245, R246). -/
def partsAt (trs : List (Nat × Trans)) (lpos va n reg data : Nat) : List LanePart :=
  if va % n = 0 then [partAt trs lpos va n 0 reg data]
  else (rangeFrom 0 n).map (fun j => partAt trs lpos (va + j) 1 j reg (data / 256 ^ j % 256))

/-- Whether a part lies in a window that takes one block of a gang's store: a launch window, or the node window (spec/15 R326, spec/18
R386). -/
def blockWindow (p : LanePart) : Bool := p.tgt == 3 || p.tgt == 5 || p.tgt == 6

/-- What groups an access: its window, its line, its notification, or, where it is misaligned, its thread (spec/11 R245, R246; spec/15
R323, R326, R327). -/
def accessKey (lpos : Nat) (parts : List LanePart) : List Nat :=
  match parts.find? blockWindow with
  | some w => [w.tgt, w.dev, 0, 0]
  | none =>
    match parts with
    | [p] => if p.tgt = 4 then [4, p.dev, p.lpos, 1] else [p.tgt, p.dev, lineOf p.pa, 0]
    | _ => [lpos]

/-- A thread's load of global memory after its checks. -/
def loadLane (s : State) (g : Gang) (u t : Thread) (va n reg : Nat) (kind : OutKind) (dst : List Nat) : LaneRes :=
  match checkRuns s g u t .read (pageRuns va n) with
  | .error f => .fault f
  | .ok trs =>
    let parts := partsAt trs t.lpos va n reg 0
    .ok [⟨t.lpos, kind, accessKey t.lpos parts, decide (va % n = 0), parts, trs, dst, []⟩]

/-- Whether a store to a target enters the write-through buffer: to device memory, or to an own window; others are acknowledged
by their destination (spec/12 R262). -/
def ownTarget (p : LanePart) : Bool := p.tgt == 0 || p.tgt == 5 || p.tgt == 6

/-- The operations of a thread's store: its parts that the write-through buffer takes, those that a destination acknowledges, and those
in a peer's launch window. -/
def storeLanes (lpos : Nat) (whole : Bool) (parts : List LanePart) (trs : List (Nat × Trans)) (dregs : List Nat) : List OkLane :=
  let lane := fun (kind : OutKind) (ps : List LanePart) =>
    if ps.isEmpty then [] else [(⟨lpos, kind, accessKey lpos ps, whole && !(ps.any blockWindow), ps, trs, [], dregs⟩ : OkLane)]
  let far := parts.filter (fun p => !(ownTarget p))
  lane .store (parts.filter ownTarget) ++ lane .external (far.filter (fun p => !(blockWindow p))) ++ lane .external (far.filter blockWindow)

/-- A thread's store to global memory after its checks. -/
def storeLane (s : State) (g : Gang) (u t : Thread) (va n reg data : Nat) (dregs : List Nat) : LaneRes :=
  match checkRuns s g u t .write (pageRuns va n) with
  | .error f => .fault f
  | .ok trs => .ok (storeLanes t.lpos (decide (va % n = 0)) (partsAt trs t.lpos va n reg data) trs dregs)

/-! ### Order within a thread (spec/11 R237) -/

/-- The space an outstanding operation accesses: 0 global, 1 team, 2 private, 3 none. -/
def opSpace : OutKind → Nat
  | .load _ _ | .loadScalar _ | .atomic _ _ _ _ | .external | .adjRead => 0
  | .loadTeam _ | .crewStore => 1
  | .loadPriv _ => 2
  | _ => 3

/-- Whether two parts access a common byte of a space. -/
def partsOverlap (space : Nat) (p q : LanePart) : Bool :=
  p.dev == q.dev && p.tgt % 7 == q.tgt % 7 &&
  (if space = 2 then decide (p.va < q.va + q.size) && decide (q.va < p.va + p.size)
   else decide (p.pa < q.pa + q.size) && decide (q.pa < p.pa + p.size))

/-- The threads that a part belongs to: one of its operation's, or, for an access of a whole path, the path's. -/
def partMask (mask : Nat) (p : LanePart) : Nat := if p.lpos = 64 then mask else mask &&& (1 <<< p.lpos)

/-- Whether a part of an operation of threads `m` and one of an operation of threads `n` are accesses of one thread to a common byte of a
space (spec/11 R237). -/
def partsClash (space m n : Nat) (p q : LanePart) : Bool := (partMask m p &&& partMask n q) != 0 && partsOverlap space p q

/-- Whether an operation acts at its home, past the write-through buffer. -/
def actsHome : OutKind → Bool
  | .atomic _ _ _ _ | .adjRead => true
  | _ => false

/-- The die of the unit that performs a part of an access: the home slice's, or the hub's for host memory and windows. -/
def partDie (p : LanePart) : Nat := if p.tgt = 0 then homeDie p.home p.pa else hubDie

/-- The least ticks of the message that carries a part of an access to the unit that performs it, and of the one that brings its result
back (spec/14 R308). A core's own store holds its team memory and its private lines. -/
def partTicks (s : State) (g : Gang) (kind : OutKind) (p : LanePart) : Nat :=
  match kind with
  | .loadTeam _ | .crewStore => if (findTeam s g.ctx g.grid p.dev).any (fun t => t.core == g.core) then 0 else msgTicks 0 0
  | .load _ _ | .loadScalar _ | .atomic _ _ _ _ | .adjRead | .external => msgTicks (coreDie g.core) (partDie p)
  | _ => 0

/-- Whether an access's message has had time to arrive at the unit that performs it and, where that acknowledges a store, the answer
too (spec/14 R308). The results of loads and atomics are on their way once they have been performed. -/
def opReached (s : State) (g : Gang) (o : OutOp) : Bool :=
  let ways := match o.kind with
    | .crewStore | .external => 2
    | _ => 1
  o.parts.all (fun p => decide (o.born + ways * partTicks s g o.kind p ≤ s.dtb))

/-- Whether a buffered store's message has had time to arrive at the units that perform it (spec/14 R308). -/
def storeReached (s : State) (b : BufStore) : Bool :=
  b.parts.all (fun p => decide (b.born + msgTicks (coreDie b.core) (partDie p) ≤ s.dtb))

/-- The unacknowledged stores of threads of a gang that they issued in gangs they have left (spec/11 R237). -/
def owedOps (s : State) (g : Gang) (mask : Nat) : List OutOp :=
  let ids := (threadsOf g mask).flatMap (·.owes)
  if ids.isEmpty then [] else (s.gangs.flatMap (·.out)).filter (fun x => ids.contains x.id)

/-- Whether an operation must wait: for its messages' time (spec/14 R308), for an earlier access of the same thread to an
overlapping address (spec/11 R237), or, where the write-through buffer does not serve it, for a store of its core there
(spec/11 R225, R236; spec/13 R302). -/
def opBlocked (s : State) (g : Gang) (o : OutOp) : Bool :=
  let sp := opSpace o.kind
  !(opReached s g o) || g.out.any (fun x => decide (x.id < o.id) && opSpace x.kind == sp && sp != 3 &&
    x.parts.any (fun p => o.parts.any (partsClash sp x.mask o.mask p))) ||
  (owedOps s g o.mask).any (fun x => opSpace x.kind == sp && x.parts.any (fun p => o.parts.any (partsOverlap sp p))) ||
  (sp == 0 && s.wbuf.any (fun b => b.core == g.core &&
    (b.parts.any (fun p => o.parts.any (fun q => (q.tgt != 0 || actsHome o.kind) && partsOverlap 0 p q)) ||
     b.tape.any (fun r => r.parts.any (fun p => o.parts.any (partsOverlap 0 p))))))

/-- The outstanding accesses of a gang that stores of threads `mask` must wait for: earlier ones of the same thread to overlapping
addresses (spec/11 R237). -/
def olderAccesses (s : State) (g : Gang) (space mask : Nat) (parts : List LanePart) : List Nat :=
  (g.out.filter (fun o => opSpace o.kind == space && o.parts.any (fun p => parts.any (partsClash space o.mask mask p)))).map (·.id) ++
  ((owedOps s g mask).filter (fun o => opSpace o.kind == space && o.parts.any (fun p => parts.any (partsOverlap space p)))).map (·.id)

/-- The accesses that an access performed at home at once must wait for: those of the same threads to overlapping addresses, and its
core's buffered stores there (spec/11 R236, R237). -/
def homeWaits (s : State) (g : Gang) (mask : Nat) (parts : List LanePart) : List Nat :=
  olderAccesses s g 0 mask parts ++
  (s.wbuf.filter (fun b => b.core == g.core && b.parts.any (fun p => parts.any (partsOverlap 0 p)))).map (·.id)

/-! ### Operations put in flight -/

/-- Whether an operation is the steps of an `LDM8` before the one that faulted (spec/12 R265). -/
def steppedLoad (o : OutOp) : Bool :=
  match o.kind with
  | .load 7 _ => if o.parts.isEmpty then o.got.any (·.stepped) else decide (sumNat (o.parts.map (·.size)) < 32)
  | _ => false

/-- The accesses of a bundle grouped as its events are. -/
def groupLanes (ls : List OkLane) : List (OkLane × List OkLane) :=
  ls.foldl (fun acc l =>
    let same := fun (x : OkLane × List OkLane) => x.1.kind == l.kind && x.1.key == l.key
    if acc.any same then acc.map (fun x => if same x then (x.1, x.2 ++ [l]) else x) else acc ++ [(l, [l])]) []

/-- The registers of an operation marked in flight for a thread (spec/02 R30). -/
def flyLane (id : Nat) (l : OkLane) (t : Thread) : Thread :=
  { t with inflight := l.dst.map (fun r => ⟨id, r, false, false, none⟩) ++ l.data.map (fun r => ⟨id, r, true, false, none⟩) ++ t.inflight }

/-- Whether a group of accesses enters the write-through buffer: a store to device memory or to an own window. -/
def buffered (l : OkLane) : Bool := l.kind == .store

/-- The class of the message that carries a part to a peer (spec/15 R322, R324). -/
def msgClass (kind : OutKind) (p : LanePart) : Nat :=
  match kind with
  | .atomic _ _ _ _ => 3
  | _ => if p.tgt = 3 then 2 else if p.tgt = 4 then 1 else 0

/-- Whether a part goes to a peer device. -/
def toPeer (p : LanePart) : Bool := decide (2 ≤ p.tgt) && decide (p.tgt ≤ 4)

/-- What parts of one message have in common: for class D the line, for N and A the thread, for L the window (spec/15 R322, R323,
R326, R327). -/
def msgKey (kind : OutKind) (p : LanePart) : List Nat :=
  match msgClass kind p with
  | 0 => [p.dev, 0, lineOf p.pa]
  | 2 => [p.dev, 2]
  | c => [p.dev, c, p.lpos]

/-- The runs of a message: those of its parts, or, for a notification, the thread's whole store (spec/15 R327). -/
def msgRuns (cls : Nat) (ps : List LanePart) : List (Nat × Nat × List Byte) :=
  match cls, ps with
  | 1, p :: _ => [(p.pa, sumNat (ps.map (·.size)), ps.flatMap partBytes)]
  | _, _ => ps.map (fun p => (p.pa, p.size, partBytes p))

/-- The block of 64 bytes that a gang's store forms in a window, if its parts are 4 of 16 bytes, 8 of 8 or 16 of 4 that write it exactly
(spec/15 R326, spec/18 R386). The runs are addresses, sizes and data. -/
def runsBlock (l : List (Nat × Nat × List Byte)) : Option (Nat × List Byte) :=
  match l with
  | [] => none
  | (a, z, _) :: _ =>
    let base := a / 64 * 64
    let at_ := fun (k : Nat) => l.filter (fun r => r.1 == base + z * k)
    if [4, 8, 16].contains z && l.all (fun r => r.2.1 == z && r.2.2.length == z) && l.length == 64 / z &&
        (rangeFrom 0 (64 / z)).all (fun k => (at_ k).length == 1) then
      some (base, (rangeFrom 0 (64 / z)).flatMap (fun k => (at_ k).flatMap (·.2.2)))
    else none

/-- The block that the parts of a whole store form in one window. -/
def windowBlock (parts : List LanePart) : Option (Nat × List Byte) :=
  match parts with
  | [] => none
  | p :: _ => if blockWindow p && parts.all (fun q => q.tgt == p.tgt && q.dev == p.dev) then runsBlock (msgRuns 2 parts) else none

/-- The runs of a class-L message: a store of all the active threads that forms a block is one run of 64 bytes, any other store its threads'
runs (spec/15 R326; log entry 116). -/
def blockRuns (whole : Bool) (cls : Nat) (ps : List LanePart) : List (Nat × Nat × List Byte) :=
  match (if whole && cls == 2 then windowBlock ps else none) with
  | some b => [(b.1, 64, b.2)]
  | none => msgRuns cls ps

/-- An item put into the group of those like it, or into a new one. -/
def gatherIn {α : Type} (like : α → α → Bool) (x : α) : List (List α) → List (List α)
  | [] => [[x]]
  | l :: r => if l.any (like x) then (l ++ [x]) :: r else l :: gatherIn like x r

/-- The groups of like items, each in its order. -/
def gather {α : Type} (like : α → α → Bool) (l : List α) : List (List α) := l.foldl (fun acc x => gatherIn like x acc) []

/-- The messages of an operation sent, each under a name of its own, in the order of its threads (spec/15 R323, R325). A store's message
carries the bytes that its registers hold as it is issued (DESIGN CHOICE, log entry 103). -/
def sendMsgs (s : State) (op : Nat) (kind : OutKind) (whole : Bool) (parts : List LanePart) : State :=
  (gather (fun p q => msgKey kind p == msgKey kind q) (parts.filter toPeer)).foldl (fun s ps =>
    match ps with
    | [] => s
    | p :: _ =>
      let (id, s1) := newId s
      let cls := msgClass kind p
      { s1 with sent := s1.sent ++ [⟨p.dev, cls, id, op, ps.map (·.lpos), kind, blockRuns whole cls ps, false⟩] }) s

/-- Whether an operation has the gang's `GWCT` in flight (spec/02 R30). -/
def writesGwct : OutKind → Bool
  | .store | .external | .atomic _ _ _ _ => true
  | _ => false

/-- The gang's `GWCT` in flight for threads because of an operation (spec/02 R30). -/
def flyGwct (id : Nat) (kind : OutKind) (mask : Nat) (g : Gang) : Gang :=
  if writesGwct kind then { g with gwctFly := ⟨id, mask, g.gwct⟩ :: g.gwctFly } else g

/-- The threads that lanes act for: their own, or the executing path's. -/
def lanesMask (s : State) (g : Gang) (ls : List OkLane) : Nat :=
  if ls.any (fun l => l.lpos == 64) then curMask s g else maskOf (ls.map (·.lpos))

/-- One event of a bundle put in flight, with its registers and `GWCT`; a store enters the write-through buffer (spec/11 R233), messages
are sent to peers. -/
def issueGroup (s : State) (g : Gang) (x : OkLane × List OkLane) : State × Nat :=
  let (id, s1) := newId s
  let parts := x.2.flatMap (·.parts)
  let mask := lanesMask s g x.2
  let s2 := updGang s1 g.core g.slot (fun g =>
    let g1 := flyGwct id x.1.kind mask (x.2.foldl (fun g l => updThread g l.lpos (flyLane id l)) g)
    { g1 with out := g1.out ++ [⟨id, x.1.kind, s.cur.pc, mask, x.1.whole, if buffered x.1 then [] else parts, s.dtb, []⟩] })
  let s3 := sendMsgs s2 id x.1.kind x.1.whole parts
  (if buffered x.1 then bufferStore s3 ⟨id, g.core, g.slot, g.ctx, g.grid, x.1.whole, parts, s.dtb, none⟩ else s3, id)

/-- The translations of a thread's access recorded: its last-page register, and the core's TLB (spec/19 R406, R407). -/
def noteLane (s : State) (g : Gang) (l : OkLane) : State :=
  l.trs.foldl (fun s x =>
    let s1 := tlbInstall s g.core g.ctx x.1 x.2
    updGang s1 g.core g.slot (fun g => updThread g l.lpos (fun t =>
      { t with lastPage := some (x.1 / 2 ^ x.2.bits, x.2.bits, x.2.pte) }))) s

/-- Whether an operation is answered by a peer device: its path is held until then (log entry 14). -/
def fromPeer (x : OkLane × List OkLane) : Bool :=
  match x.1.kind with
  | .load _ _ | .atomic _ _ _ _ => x.2.any (fun l => l.parts.any (fun p => p.tgt == 2))
  | _ => false

/-- A part as pieces of at most eight bytes. -/
def halfParts (p : LanePart) : List LanePart :=
  if p.size ≤ 8 then [p]
  else [{ p with size := 8, y := 0 }, { p with va := p.va + 8, pa := p.pa + 8, size := p.size - 8, off := p.off + 8, x := p.y, y := 0 }]

/-- Whether a thread's access goes to a peer's memory in class D, and is no `LDM8`. -/
def lineAccess (l : OkLane) : Bool :=
  l.parts.any (fun p => p.tgt == 2) &&
  match l.kind with
  | .external => true
  | .load z _ => z != 7
  | _ => false

/-- The accesses of a bundle to peers' memory made one operation where one of them is misaligned, so that each line is one message for all
its threads (spec/15 R323). -/
def joinLines (ls : List OkLane) : List OkLane :=
  if ls.any (fun l => lineAccess l && !l.whole) then
    ls.map (fun l => if lineAccess l then { l with key := [2], whole := false, parts := l.parts.flatMap halfParts } else l)
  else ls

/-- The accesses of a bundle put in flight. Answers the operations that hold the path: all of them for an acquiring load
(spec/11 R240), else those that a peer answers. A store that forms one block in a window is whole there (spec/15 R326). -/
def issueLanes (acquire : Bool) (s : State) (g : Gang) (ls : List OkLane) : State × List Nat :=
  let s1 := ls.foldl (fun s l => noteLane s g l) s
  let forms := (windowBlock (ls.flatMap (·.parts))).isSome
  (groupLanes (if forms then ls.map (fun l => { l with whole := true }) else joinLines ls)).foldl (fun (a : State × List Nat) x =>
    let (s2, id) := issueGroup a.1 g x
    (s2, if acquire || fromPeer x then a.2 ++ [id] else a.2)) (s1, [])

/-! ### A bundle of accesses -/

/-- The faults among the lanes of a bundle. -/
def laneFaults (ls : List (Thread × LaneRes)) : List LaneFault :=
  ls.filterMap (fun x => match x.2 with | .fault f => some f | _ => none)

/-- The traps among the lanes of a bundle. -/
def laneTraps (ls : List (Thread × LaneRes)) : List (Nat × Nat × Nat × Word) :=
  ls.filterMap (fun x => match x.2 with | .trap c a i => some (x.1.lpos, c, a, i) | _ => none)

/-- The accesses that pass. -/
def laneOks (ls : List (Thread × LaneRes)) : List OkLane :=
  ls.flatMap (fun x => match x.2 with | .ok l => l | _ => [])

/-- What an access instruction does after its lanes have been checked: a hold first, an effect on threads that fault, and
the effect of the lanes that pass, with the operations that hold the path. -/
structure AccessPlan where
  lane    : State → Gang → Thread → LaneRes
  hold    : State → Gang → List OkLane → Option Cond
  part    : State → Gang → LaneFault → State
  perform : State → Gang → List OkLane → State × List Nat

/-- A bundle of accesses (spec/12 R261 to R264): each active thread is checked; threads that fault or trap leave, the others'
accesses are final. `rs` are the scalar registers it reads. -/
def accessOp (m : Bool) (rs rd wr : List Nat) (p : AccessPlan) (s : State) : State :=
  let s1 := trapScalar (readyLanes s rd wr) rs
  match curGang s1 with
  | none => s1
  | some g =>
    let ls := (activeThreads s1 g).map (fun t => (t, p.lane s1 g t))
    let faults := laneFaults ls
    let oks := laneOks ls
    if !(faultRoom s1 g faults) then deliverCur (holdPath s1 (faultSlots s1 g faults) .again)
    else
      match p.hold s1 g oks with
      | some c => deliverCur (holdPath s1 c .again)
      | none =>
        let s2 := faults.foldl (fun s f => p.part s g f) s1
        let s3 := faultThreads s2 g s.cur.pc faults
        let s4 := trapLanes s3 (laneTraps ls)
        let (s5, ids) := p.perform s4 g oks
        if ids.isEmpty then finishPath s5 m else finishHeld s5 m (.done ids)

/-- The hold of a store: earlier overlapping accesses of its threads, then room in the write-through buffer (spec/11 R237,
spec/16 R359). -/
def storeHold (space : Nat) (s : State) (g : Gang) (ls : List OkLane) : Option Cond :=
  let older := olderAccesses s g space (lanesMask s g ls) (ls.flatMap (·.parts))
  let need := ((groupLanes ls).filter (fun x => buffered x.1)).length
  if !older.isEmpty then some (.done older)
  else if need != 0 && !(curSlot s g (.bufferSlot need)) then some (.bufferSlot need)
  else none

/-- A fault without an effect on its thread. -/
def noPart (s : State) (_ : Gang) (_ : LaneFault) : State := s

/-- No hold. -/
def noHold (_ : State) (_ : Gang) (_ : List OkLane) : Option Cond := none

/-- A path's uniform access: a fault or a trap of it acts for every thread of the path (spec/06 R141, spec/00 R10). -/
def uniformFault (s : State) (f : LaneFault) : State := deliverCur (faultCur s f.kind f.addr f.acc)

end Sys2Proof.Machine
end

