-- ==== Sys2Proof/Machine/Tape.lean ====
section
/-! DEFINITION. Differentiable regions: the stores and loads of a team in FWD or REV (spec/13 R289 to R296), the mode switch
(spec/13 R297), and the `DIFF` instructions (spec/13 R299 to R303). -/

namespace Sys2Proof.Machine

/-! ### Lines of a taped store -/

/-- A thread's part of a taped store: its region entry and its checked part. -/
structure TapePart where
  entry : Nat
  reg   : Region
  part  : LanePart
  deriving DecidableEq, Repr

/-- A region line of a taped store: its virtual address, its entry, and its parts in rising position. -/
structure TapeLine where
  line  : Nat
  entry : Nat
  reg   : Region
  parts : List LanePart
  deriving DecidableEq, Repr

/-- A line put into a list of lines in rising order of address. -/
def insertLine (x : TapePart) : List TapeLine → List TapeLine
  | [] => [⟨x.part.va / 128 * 128, x.entry, x.reg, [x.part]⟩]
  | l :: ls =>
    let a := x.part.va / 128 * 128
    if a = l.line then { l with parts := l.parts ++ [x.part] } :: ls
    else if a < l.line then ⟨a, x.entry, x.reg, [x.part]⟩ :: l :: ls
    else l :: insertLine x ls

/-- The region lines that a store's threads touch, in rising order of address (spec/13 R292). -/
def tapeLines (l : List TapePart) : List TapeLine := l.foldl (fun acc x => insertLine x acc) []

/-- The halfwords of a line that parts touch (spec/13 R289). -/
def halfMask (ps : List LanePart) : Nat :=
  ps.foldl (fun m p => (rangeFrom (p.va % 128 / 2) ((p.size + 1) / 2)).foldl (fun m h => m ||| (1 <<< h)) m) 0

/-- The physical address and the home attribute of a line, from one of its parts. -/
def linePa (l : TapeLine) : Nat × Nat :=
  match l.parts with
  | [] => (0, 0)
  | p :: _ => (p.pa / 128 * 128, p.home)

/-- The bytes of a line that a halfword mask names; the others are 0. -/
def maskHalves (mask : Nat) (b : List Byte) : List Byte :=
  (b.zip (rangeFrom 0 128)).map (fun x => if bitOf mask (x.2 / 2) then x.1 else 0#8)

/-- The 160 bytes of a tape record (spec/13 R289). -/
def tapeRecord (old : List Byte) (link line hmask teamix gangix region seq : Nat) : List Byte :=
  toBytes 32 (link % 2 ^ 64 * 2 ^ 192 + line % 2 ^ 64 * 2 ^ 128 + hmask % 2 ^ 64 * 2 ^ 64 + teamix % 2 ^ 32 * 2 ^ 32 +
    gangix % 128 * 2 ^ 25 + region % 16 * 2 ^ 21 + seq % 2 ^ 21) ++ old

/-- A region entry of a context changed. -/
def updRegion (s : State) (ctx n : Nat) (f : Region → Region) : State :=
  updCtx s ctx (fun c => { c with regions := sparseSet none c.regions n ((sparseGet none c.regions n).map f) })

/-- A region entry of a context. -/
def regionOf (s : State) (ctx n : Nat) : Option Region := (findCtx s ctx).bind (fun c => sparseGet none c.regions n)

/-- The runs of an access of the gang checked, with their translations; a load from a window raises the access fault (spec/15 R322). -/
def gangRuns (s : State) (g : Gang) (acc : Acc) : List (Nat × Nat) → Except LaneFault (List (Nat × Trans))
  | [] => .ok []
  | (x, n) :: r =>
    match translateChecked s g.core g.ctx x n acc with
    | .error k => .error ⟨0, k, x, acc⟩
    | .ok t =>
      if acc == .read && [3, 4, 6].contains (pteTgt t.pte) then .error ⟨0, .access, x, acc⟩
      else match gangRuns s g acc r with
        | .error f => .error f
        | .ok l => .ok ((x, t) :: l)

/-- The same for what a taped store touches: device memory only (log entry 15), or the own node window, which takes any load and any store
(spec/18 R386). -/
def deviceRuns (s : State) (g : Gang) (acc : Acc) (runs : List (Nat × Nat)) : Except LaneFault (List (Nat × Trans)) :=
  match gangRuns s g acc runs with
  | .error f => .error f
  | .ok l =>
    match l.find? (fun x => pteTgt x.2.pte != 0 && !(pteTgt x.2.pte == 5 && acc != .atomic)) with
    | some x => .error ⟨0, .access, x.1, acc⟩
    | none => .ok l

/-- The parts of runs that translations serve, as accesses of the whole path. -/
def runParts (trs : List (Nat × Trans)) (runs : List (Nat × Nat)) : List LanePart := runs.map (fun r => partAt trs 64 r.1 r.2 0 1024 0)

/-- Bytes written at home to a run that translations serve, with the completion time. -/
def writeRuns (s : State) (core : Nat) (trs : List (Nat × Trans)) (va : Nat) (b : List Byte) (writer : Option Nat) : State × Nat :=
  (pageRuns va b.length).foldl (fun (a : State × Nat) r =>
    let p := partAt trs 0 r.1 r.2 0 0 0
    let w := ownWrite a.1 core p.home p.pa ((b.drop (r.1 - va)).take r.2) writer
    (w.1, max a.2 w.2)) (s, 0)

/-- The bytes that a part of a load reads at its home, as the core sees them: its buffered stores first (spec/11 R233). What a peer's
memory holds is the peer's, a free value (log entry 85). -/
def homeBytes (s : State) (core : Nat) (p : LanePart) : List Byte :=
  match p.tgt with
  | 1 => hostBytes s p.pa p.size
  | 2 => (rangeFrom 0 p.size).map (fun k => BitVec.ofNat 8 (Config.freeNat s.freeCtr (26 * 2 ^ 20 + p.va % 128 + k)))
  | 5 => List.replicate p.size 0#8
  | _ => (rangeFrom p.pa p.size).map (fun a => (bufferByte s.wbuf core a).getD (memByte s a))

/-- Bytes read at home of a run that translations serve. -/
def readRuns (s : State) (core : Nat) (trs : List (Nat × Trans)) (va n : Nat) : List Byte :=
  (runParts trs (pageRuns va n)).flatMap (homeBytes s core)

/-! ### Forward stores -/

/-- The records that a store needs of each entry. -/
def tapeNeeds (ls : List TapeLine) : List (Nat × Nat) :=
  ls.foldl (fun acc l =>
    if acc.any (fun x => x.1 == l.entry) then acc.map (fun x => if x.1 == l.entry then (x.1, x.2 + 1) else x)
    else acc ++ [(l.entry, 1)]) []

/-- The first line whose entry has no room for the store's records (spec/13 R291). -/
def tapeFull (s : State) (ctx : Nat) (ls : List TapeLine) : Option TapeLine :=
  let needs := tapeNeeds ls
  ls.find? (fun l =>
    match regionOf s ctx l.entry, needs.find? (fun x => x.1 == l.entry) with
    | some r, some n => decide (r.tlim < r.tp + 160 * n.2)
    | _, _ => true)

/-- The lines with the addresses of their records: those of one entry at consecutive addresses (spec/13 R291). -/
def tapeAddrs (s : State) (ctx : Nat) (ls : List TapeLine) : List (TapeLine × Nat) :=
  (ls.zip (rangeFrom 0 ls.length)).map (fun x =>
    let before := ((ls.take x.2).filter (fun y => y.entry == x.1.entry)).length
    (x.1, (((regionOf s ctx x.1.entry).map (·.tp)).getD 0) + 160 * before))

/-- Where a record's bytes go. -/
def recordParts (trs : List (Nat × Trans)) (va : Nat) : List LanePart :=
  (pageRuns va 160).map (fun r => partAt trs 64 r.1 r.2 (r.1 - va) 1024 0)

/-- One line pushed (spec/13 R292): its store enters the write-through buffer with its record, which becomes the head; its data registers
and `GWCT` are in flight (spec/02 R30). `ls` are the store's lanes, `whole` says that the line is all of the store. -/
def tapePush (g : Gang) (trs : List (Nat × Trans)) (ls : List OkLane) (whole : Bool) (s : State) (x : TapeLine × Nat) : State :=
  match findGang s g.core g.slot with
  | none => s
  | some g1 =>
    let (id, s1) := newId s
    let seq := g1.tapeSeq + 1
    let mask := maskOf (x.1.parts.map (·.lpos))
    let mine := ls.filter (fun l => l.parts.any (fun p => x.1.parts.contains p))
    let s2 := updGang s1 g.core g.slot (fun g =>
      let h := flyGwct id .store mask (mine.foldl (fun g l => updThread g l.lpos (flyLane id l)) g)
      { h with tapeHead := toDword x.2, tapeSeq := seq, out := h.out ++ [⟨id, .store, s.cur.pc, mask, true, [], s.dtb, []⟩] })
    let s3 := bufferStore s2 ⟨id, g.core, g.slot, g.ctx, g.grid, whole, x.1.parts, s.dtb,
      some ⟨x.1.entry, g1.tapeHead.toNat, x.1.line, halfMask x.1.parts, g.team.getD 0, g.ix, seq.toNat, recordParts trs x.2⟩⟩
    updRegion s3 g.ctx x.1.entry (fun r => { r with tp := r.tp + 160 })

/-- The region parts of checked stores. -/
def tapeParts (s : State) (g : Gang) (ls : List OkLane) : List TapePart :=
  ls.flatMap (fun l => l.parts.filterMap (fun p => (regionHit s g.ctx p.va p.size).map (fun x => ⟨x.1, x.2, p⟩)))

/-- Whether a checked store lies in an open region. -/
def inRegion (s : State) (g : Gang) (l : OkLane) : Bool := l.parts.any (fun p => (regionHit s g.ctx p.va p.size).isSome)

/-- A fault that parks every active thread of the path with the first fault found (spec/13 R292, R296). -/
def tapeFault (m : Bool) (s : State) (g : Gang) (f : LaneFault) : State :=
  let s1 := faultPath s g s.cur.pc (activeMask s g) f
  finishPath s1 m

/-- A trap of every active thread of the path. -/
def tapeTrap (m : Bool) (s : State) (g : Gang) (code addr entry : Nat) : State :=
  finishPath (trapThreads s g.core g.slot (activeMask s g) (trapInfo s code addr (toWord entry))) m

/-- The lines that a store to a page that is neither device memory nor the own node window touches (log entry 15). -/
def farLine (ls : List TapeLine) : Option LaneFault :=
  ls.findSome? (fun l => l.parts.findSome? (fun p => if p.tgt % 7 ≠ 0 ∧ p.tgt ≠ 5 then some ⟨p.lpos, .access, p.va, .write⟩ else none))

/-- What a store that touches an open region does once its threads are checked: a fault of the whole path, a trap of it, or what it waits
for and then its effect. -/
inductive TapeRes where
  | fault (f : LaneFault)
  | trap (code addr entry : Nat)
  | go (waits : List Nat) (effect : State → State)

/-- The `GWCT` of a store in REV in flight for its threads until their marker (spec/02 R30). -/
def tapeFly (s : State) (g : Gang) (ls : List OkLane) : State :=
  let (id, s1) := newId s
  updGang s1 g.core g.slot (flyGwct id .store (lanesMask s g ls))

/-- The part of a store outside every region issued as an ordinary store, and the path moved on (spec/13 R292, R295). -/
def ordinaryRest (m : Bool) (g : Gang) (ls : List OkLane) (s0 s : State) : State :=
  finishPath (issueLanes false s g (ls.filter (fun l => !(inRegion s0 g l)))).1 m

/-- A store in FWD that touches an open region (spec/13 R291 to R293). -/
def fwdStore (m : Bool) (s : State) (g : Gang) (ls : List OkLane) : TapeRes :=
  let lines := tapeLines (tapeParts s g ls)
  match farLine lines with
  | some f => .fault f
  | none =>
    match tapeFull s g.ctx lines with
    | some l => .trap 0x08 l.line l.entry
    | none =>
      let recs := tapeAddrs s g.ctx lines
      let runs := recs.flatMap (fun x => pageRuns x.2 160)
      match deviceRuns s g .write runs with
      | .error f => .fault f
      | .ok trs =>
        .go (homeWaits s g (lanesMask s g ls) (runParts trs runs))
          (fun s' => ordinaryRest m g ls s (recs.foldl (tapePush g trs ls (decide (lines.length = 1) && ls.all (inRegion s g))) s'))

/-! ### Reverse stores -/

/-- A record as a store pops it: its address, its bytes and its translations. -/
structure Popped where
  line  : TapeLine
  addr  : Nat
  bytes : List Byte
  deriving DecidableEq, Repr

/-- Why a pop cannot go on: a fault, or a record out of order. -/
inductive PopStop where
  | fault (f : LaneFault)
  | order (line entry : Nat)
  deriving DecidableEq, Repr

/-- The records of a gang's chain from a head on, at most `n` of them: every page of theirs is translated before any record is checked
(spec/13 R296). -/
def chainRecords (s : State) (g : Gang) : Nat → Nat → Except LaneFault (List (Nat × List Byte))
  | 0, _ => .ok []
  | n + 1, head =>
    if head = 0 then .ok []
    else
      match deviceRuns s g .read (pageRuns head 160) with
      | .error f => .error f
      | .ok trs =>
        let b := readRuns s g.core trs head 160
        match chainRecords s g n (fieldAt b 24 8) with
        | .error f => .error f
        | .ok r => .ok ((head, b) :: r)

/-- Whether a record is the one that a line pops (spec/13 R296). -/
def recordFits (l : TapeLine) (b : List Byte) : Bool :=
  fieldAt b 16 8 == l.line && fieldAt b 8 8 == halfMask l.parts && bitsOf (fieldAt b 0 4) 24 21 == l.entry

/-- The lines with the records that they pop, each checked in pop order (spec/13 R296). -/
def popOrder : List TapeLine → List (Nat × List Byte) → Except PopStop (List Popped)
  | [], _ => .ok []
  | l :: _, [] => .error (.order l.line l.entry)
  | l :: ls, (a, b) :: rs =>
    if recordFits l b then
      (match popOrder ls rs with
       | .error e => .error e
       | .ok r => .ok (⟨l, a, b⟩ :: r))
    else .error (.order l.line l.entry)

/-- The records that a store pops, in descending address order (spec/13 R296). -/
def popRecords (s : State) (g : Gang) (head : Nat) (ls : List TapeLine) : Except PopStop (List Popped) :=
  match chainRecords s g ls.length head with
  | .error f => .error (.fault f)
  | .ok rs => popOrder ls rs

/-- The cells that a store's threads exchange, checked as atomics (spec/13 R296). -/
def cellRuns (s : State) (g : Gang) (ls : List TapeLine) : Except LaneFault (List (Nat × Trans)) :=
  deviceRuns s g .atomic (ls.flatMap (fun l => l.parts.map (fun p => (cellAddr l.reg p.va, 16))))

/-- The cell of a thread's element. -/
def cellPart (trs : List (Nat × Trans)) (l : TapeLine) (p : LanePart) : LanePart := partAt trs p.lpos (cellAddr l.reg p.va) 16 0 0 0

/-- One thread's exchange of a cell (spec/13 R295): the rounded adjoint, its flags, and the completion time; a poisoned cell poisons the
register (spec/20 R444). -/
def exchangeCell (s : State) (g : Gang) (trs : List (Nat × Trans)) (l : TapeLine) (p : LanePart) : State × LaneOut × Nat :=
  let cp := cellPart trs l p
  let n := signedOf 128 (ofBytes (memBytes s cp.pa 16))
  let f := if l.reg.etype = 0 then fmt32 else fmtB16
  let r := axRead l.reg.anchor f (dynRM g) n
  let w := ownWrite s g.core cp.home cp.pa (toBytes 16 0) ((findThread g p.lpos).map (·.uid))
  let s1 := if linePoison s cp.pa 16 then
      updGang w.1 g.core g.slot (fun g => updThread g p.lpos (fun t => { t with poison := p.reg :: t.poison }))
    else w.1
  (s1, ⟨[(p.reg, toWord r.bits)], [], r.flags⟩, w.2)

/-- The halfwords of a record's line restored as one event (spec/13 R295); in the own node window the store is discarded (spec/18 R386). -/
def restoreLine (s : State) (g : Gang) (l : TapeLine) (b : List Byte) : State × Nat :=
  let (pa, home) := linePa l
  let old := b.drop 32
  let hm := halfMask l.parts
  let core := g.core
  if l.parts.any (fun p => p.tgt == 5) then (windowStore s core g.ctx g.grid pa 128, 0)
  else ((rangeFrom 0 64).filter (bitOf hm)).foldl (fun (a : State × Nat) h =>
    let w := ownWrite a.1 core home (pa + 2 * h) ((old.drop (2 * h)).take 2) none
    (w.1, max a.2 w.2)) (s, 0)

/-- One line popped (spec/13 R295): the exchanges in rising position, the restoring write, the head. The results are in flight
until the marker. -/
def popLine (g : Gang) (trs : List (Nat × Trans)) (s : State) (x : Popped) : State :=
  let (s1, outs, gw1) := x.line.parts.foldl (fun (a : State × List (Nat × LaneOut) × Nat) p =>
    let e := exchangeCell a.1 g trs x.line p
    (e.1, a.2.1 ++ [(p.lpos, e.2.1)], max a.2.2 e.2.2)) (s, [], 0)
  let (s2, gw2) := restoreLine s1 g x.line x.bytes
  let (id, s3) := newId s2
  let s4 := updGang s3 g.core g.slot (fun g =>
    let g1 := outs.foldl (fun g o => updThread g o.1 (fun t =>
      { t with inflight := o.2.vw.map (fun w => ⟨id, w.1, false, false, some w.2⟩) ++ t.inflight })) g
    gangOrFlags { g1 with tapeHead := toDword (fieldAt x.bytes 24 8) } (orFlags (outs.map (·.2.fl))))
  raiseGwct s4 g.core g.slot g.ctx g.grid (max gw1 gw2)

/-- A store in REV that touches an open region (spec/13 R295, R296). -/
def revStore (m : Bool) (s : State) (g : Gang) (ls : List OkLane) : TapeRes :=
  let lines := (tapeLines (tapeParts s g ls)).reverse
  match farLine lines with
  | some f => .fault f
  | none =>
    match cellRuns s g lines with
    | .error f => .fault f
    | .ok trs =>
      match popRecords s g g.tapeHead.toNat lines with
      | .error (.fault f) => .fault f
      | .error (.order line entry) => .trap 0x07 line entry
      | .ok recs =>
        .go (homeWaits s g (lanesMask s g ls) (lines.flatMap (fun l => l.parts ++ l.parts.map (cellPart trs l))))
          (fun s' => ordinaryRest m g ls s (recs.foldl (popLine g trs) (tapeFly s' g ls)))

/-! ### Reverse loads -/

/-- A thread's load in REV of an element of an open region: an addition into its cell (spec/13 R294). `u` leads its line. -/
def revLane (s : State) (g : Gang) (u t : Thread) (va d : Nat) (r : Region) : LaneRes :=
  match checkRun s g u t va (elemSize r) .read with
  | .error f => .fault f
  | .ok tr =>
    let ca := cellAddr r va
    match checkRun s g t t ca 16 .atomic with
    | .error f => .fault f
    | .ok tc =>
      if pteTgt tc.2.pte = 1 ∨ pteSysat tc.2.pte then .fault ⟨t.lpos, .unsupportedAtomic, ca, .atomic⟩
      else
        let w := (readV s.freeCtr t 1 d).toNat
        let x := if r.etype = 0 then w else w % 65536 * 65536
        let p := partAt [tc] t.lpos ca 16 0 d x
        .ok [⟨t.lpos, .atomic (.fadda r.ovf) false (dynRM g) r.anchor, [p.tgt, p.dev, p.pa], false, [p], [tr, tc], [d], []⟩]

/-! ### `DMODE` -/

/-- `DMODE` (spec/13 R297): a release, then the arrival at the mode barrier. -/
def execDmode (d : BitVec 2) (m : Bool) (s : State) : Res :=
  match curGang s with
  | none => .next s
  | some g0 =>
    match gangTeam s g0 with
    | none => .next (deliverCur (faultCur s .freeThread 0 .read))
    | some _ =>
      .next (afterFence 2 (fun s =>
        match curGang s with
        | none => s
        | some g =>
          match gangTeam s g with
          | none => s
          | some t =>
            let b := readBar s t modeKey
            let uids := (threadsOf g (curMask s g)).map (·.uid)
            let s1 := updTeam s t.ctx t.grid t.index (fun t =>
              { t with modeReq := uids.map (fun u => (u, d.toNat)) ++ t.modeReq.filter (fun x => !(uids.contains x.1)) })
            let s2 := writeBar s1 t (uids.foldl barArriveOne b)
            let s3 := finishHeld s2 m (.modeBarrier b.phase)
            match findTeam s3 t.ctx t.grid t.index with
            | none => s3
            | some t1 => completeBar s3 t1 modeKey) s)

/-! ### Regions opened and closed -/

/-- Whether two ranges share an address: an empty one shares none. -/
def rangesMeet (a b : Nat × Nat) : Bool := decide (max a.1 b.1 < min a.2 b.2)

/-- The primal, shadow and tape ranges of a region (spec/13 R285). -/
def regionRanges (r : Region) : List (Nat × Nat) :=
  [(r.pbase, r.pbase + r.psize), (r.sbase, r.sbase + r.psize / elemSize r * 16), (r.tbase, r.tlim)]

/-- Whether no two of some ranges overlap. -/
def disjointAll : List (Nat × Nat) → Bool
  | [] => true
  | x :: xs => xs.all (fun y => !(rangesMeet x y)) && disjointAll xs

/-- The region that a descriptor names (spec/13 R283). -/
def descRegion (n : Nat) : Region :=
  { etype := n % 2, ovf := bitOf n 2, anchor := signedOf 12 (bitsOf n 31 20), pbase := bitsOf n 255 192, psize := bitsOf n 319 256,
    sbase := bitsOf n 383 320, tbase := bitsOf n 447 384, tlim := bitsOf n 511 448, tp := bitsOf n 447 384 }

/-- The checks of a region that `DROPEN` installs (spec/13 R283, R285, R301). -/
def regionLegal (c : Ctx) (n : Nat) (r : Region) : Bool :=
  r.pbase % 128 == 0 && r.psize % 128 == 0 && r.psize != 0 && r.sbase % 16 == 0 && r.tbase % 32 == 0 && r.tlim % 32 == 0 &&
  decide (r.tbase ≤ r.tlim) && (sparseGet none c.regions n).isNone && disjointAll (regionRanges r) &&
  c.regions.all (fun e => match e.2 with
    | some o => (regionRanges o).all (fun x => (regionRanges r).all (fun y => !(rangesMeet x y)))
    | none => true)

/-- `DROPEN` (spec/13 R301). -/
def execDropen (sr : BitVec 9) (n : BitVec 4) (m : Bool) (s : State) : Res :=
  .next (uniRaw m [sr.toNat, sr.toNat + 1] (fun g s =>
    let va := (readSPair s.freeCtr g 0 sr.toNat).toNat
    if va % 64 ≠ 0 then trapPath s 0x06 va (toWord n.toNat)
    else
      match gangRuns s g .read [(va, 64)] with
      | .error f => uniformFault s f
      | .ok trs =>
        let older := homeWaits s g (curMask s g) (partsAt trs 64 va 64 0 0)
        if !older.isEmpty then holdPath s (.done older) .again
        else
        let desc := ofBytes (readRuns s g.core trs va 64)
        match findCtx s g.ctx with
        | none => s
        | some c =>
          if bitsOf desc 191 32 ≠ 0 ∨ bitsOf desc 19 3 ≠ 0 ∨ bitOf desc 1 then trapPath s 0x02 0 s.cur.first
          else if !(regionLegal c n.toNat (descRegion desc)) then trapPath s 0x06 va (toWord n.toNat)
          else finishPath (updCtx s g.ctx (fun c => { c with regions := sparseSet none c.regions n.toNat (some (descRegion desc)) })) m) s)

/-- `DRCLOSE` (spec/13 R301). -/
def execDrclose (n : BitVec 4) (m : Bool) (s : State) : Res :=
  .next (uniOp m [] (fun g s => updCtx s g.ctx (fun c => { c with regions := sparseSet none c.regions n.toNat none })) s)

/-! ### Cells read and cleared -/

/-- The open entry of an element's address, none where it is no element (spec/13 R302). -/
def elementAt (s : State) (g : Gang) (va : Nat) : Option (Nat × Region) :=
  match regionHit s g.ctx va 1 with
  | none => none
  | some x => if va % elemSize x.2 = 0 then some x else none

/-- `ADJRD` (spec/13 R302): one 16-byte load of the cell; the result is in flight until the marker. -/
def execAdjrd (sa d : BitVec 9) (m : Bool) (s : State) : Res :=
  .next (uniRaw m [sa.toNat, sa.toNat + 1] (fun g s =>
    let va := (readSPair s.freeCtr g 0 sa.toNat).toNat
    match elementAt s g va with
    | none => trapPath s 0x06 va (match regionHit s g.ctx va 1 with | some x => toWord x.1 | none => 0xFFFFFFFF#32)
    | some (_, r) =>
      match gangRuns s g .read [(cellAddr r va, 16)] with
      | .error f => uniformFault s f
      | .ok trs =>
        let p := partAt trs 64 (cellAddr r va) 16 (rmodeCode (dynRM g)) d.toNat (wrap 64 r.anchor)
        let (id, s1) := newId s
        let s2 := sendMsgs (updCur s1 (fun g =>
          { g with
            sflight := ⟨id, d.toNat, false, false, none⟩ :: g.sflight
            out := g.out ++ [⟨id, .adjRead, s.cur.pc, curMask s g, true, [p], s.dtb, []⟩] })) id .adjRead true [p]
        if p.tgt = 2 then finishHeld s2 m (.done [id]) else finishPath s2 m) s)

/-- The cells of an `ADJCLR` as stores of the gang, one line each (spec/13 R302). -/
def clearRuns (base n : Nat) : List (Nat × Nat) :=
  (linesOf base (16 * n)).map (fun l =>
    let lo := max base (l * 128)
    (lo, min (base + 16 * n) (l * 128 + 128) - lo))

/-- The lanes of an `ADJCLR`: the stores of each line. -/
def clearLanes (trs : List (Nat × Trans)) (runs : List (Nat × Nat)) : List OkLane :=
  (runs.zip (rangeFrom 0 runs.length)).flatMap (fun x =>
    (storeLanes 64 true ((rangeFrom 0 (x.1.2 / 16)).map (fun j => partAt trs 64 (x.1.1 + 16 * j) 16 0 1024 0)) [] []).map (fun l =>
      { l with key := [x.2] }))

/-- How far the executing path's bundle has come. -/
def curSub (s : State) (g : Gang) : Nat := ((findPath g s.cur.path).map (·.sub)).getD 0

/-- As many lanes of an `ADJCLR` as the write-through buffer has room for put into flight; the path is held for room for the rest, and goes
on after the last (spec/16 R359). -/
def clearSome (m : Bool) (lanes : List OkLane) (s : State) (g : Gang) : State :=
  let done := curSub s g
  let left := lanes.drop done
  let n := min left.length (64 - bufferCount s g.core)
  if n = 0 || !(curSlot s g (.bufferSlot 1)) then holdPath s (.bufferSlot 1) .again
  else
    let s1 := (left.take n).foldl (fun s l => (issueGroup s g (l, [l])).1) s
    if n = left.length then finishPath s1 m
    else holdPath (updCur s1 (fun g => updPath g s.cur.path (fun p => { p with sub := done + n, passed := true }))) (.bufferSlot 1) .again

/-- `ADJCLR` (spec/13 R302): weak 16-byte stores of zero. -/
def execAdjclr (sa d : BitVec 9) (m : Bool) (s : State) : Res :=
  .next (uniRaw m [sa.toNat, sa.toNat + 1, d.toNat] (fun g s =>
    let va := (readSPair s.freeCtr g 0 sa.toNat).toNat
    let n := (readS s.freeCtr g 1 d.toNat).toNat
    match elementAt s g va with
    | none => trapPath s 0x06 va (match regionHit s g.ctx va 1 with | some x => toWord x.1 | none => 0xFFFFFFFF#32)
    | some (k, r) =>
      if n = 0 ∨ 2 ^ 20 < n ∨ r.pbase + r.psize < va + elemSize r * n then trapPath s 0x06 va (toWord k)
      else
        let runs := clearRuns (cellAddr r va) n
        match gangRuns s g .write runs with
        | .error f => uniformFault s f
        | .ok trs =>
          let lanes := clearLanes trs runs
          let older := olderAccesses s g 0 (curMask s g) (lanes.flatMap (·.parts))
          if !older.isEmpty then holdPath s (.done older) .again else clearSome m lanes s g) s)

/-! ### `TAPEPOS` -/

/-- `TAPEPOS.rdhead` (spec/13 R303). -/
def execTapeposRdhead (d : BitVec 9) (m : Bool) (s : State) : Res :=
  .next (uniOp m [] (fun g s => writeScalars s (regWrites true d.toNat g.tapeHead.toNat)) s)

/-- `TAPEPOS.wrhead` (spec/13 R303). -/
def execTapeposWrhead (d : BitVec 9) (m : Bool) (s : State) : Res :=
  .next (uniRaw m [d.toNat, d.toNat + 1] (fun g s =>
    let v := readSPair s.freeCtr g 0 d.toNat
    if v.toNat % 32 ≠ 0 then trapPath s 0x06 v.toNat 0xFFFFFFFF#32
    else finishPath (updCur s (fun g => { g with tapeHead := v })) m) s)

/-- `TAPEPOS.rdseg` (spec/13 R303). -/
def execTapeposRdseg (n : BitVec 4) (d : BitVec 9) (m : Bool) (s : State) : Res :=
  .next (uniRaw m [] (fun g s =>
    match regionOf s g.ctx n.toNat with
    | none => trapPath s 0x06 0 (toWord n.toNat)
    | some r => finishPath (writeScalars s (regWrites true d.toNat r.tp ++ regWrites true (d.toNat + 2) r.tlim)) m) s)

/-- `TAPEPOS.wrseg` (spec/13 R303). -/
def execTapeposWrseg (n : BitVec 4) (d : BitVec 9) (m : Bool) (s : State) : Res :=
  .next (uniRaw m (rangeFrom d.toNat 4) (fun g s =>
    match regionOf s g.ctx n.toNat with
    | none => trapPath s 0x06 0 (toWord n.toNat)
    | some _ =>
      let tp := (readSPair s.freeCtr g 0 d.toNat).toNat
      let tl := (readSPair s.freeCtr g 1 (d.toNat + 2)).toNat
      if tp % 32 ≠ 0 ∨ tl % 32 ≠ 0 ∨ tl < tp then trapPath s 0x06 tp (toWord n.toNat)
      else finishPath (updRegion s g.ctx n.toNat (fun r => { r with tp := tp, tlim := tl })) m) s)

end Sys2Proof.Machine
end

