-- ==== Sys2Proof/Machine/MemOps.lean ====
section
/-! DEFINITION. Loads, stores, atomics and cache control (spec/12 R257 to R271; `SMEM`, spec/06 R141): their issue. What their
events do when they arrive stands in Arrive.lean. -/

namespace Sys2Proof.Machine

/-! ### Parts read at once -/

/-- The status of a dependence node as a load of its slot reads it (spec/18 R386). -/
def nodeStatus (s : State) (ctx n : Nat) : Nat :=
  match (findCtx s ctx).bind (fun c => sparseGet none c.nodes n) with
  | none => 0
  | some x => x.state * 2 ^ 16 + x.count % 2 ^ 16

/-- A load from the tenant's node window (spec/18 R386): the address's place in the 256 KiB window is its low 18 bits (log
entry 16). -/
def nodeLoad (s : State) (ctx pa n : Nat) : Nat :=
  if n = 8 ∧ pa % 64 = 0 then nodeStatus s ctx (pa % 2 ^ 18 / 64) else 0

/-- The bytes that a part of a global load reads, and whether they are poisoned (spec/12 R261, spec/11 R229). -/
def readPart (s : State) (core ctx : Nat) (streaming : Bool) (p : LanePart) : State × List Byte × Bool :=
  match p.tgt with
  | 0 =>
    let (s1, b) := loadGlobal s core ctx p.home p.pa p.size streaming
    (s1, b, linePoison s p.pa p.size)
  | 1 => (s, hostBytes s p.pa p.size, false)
  | 5 => (s, toBytes p.size (nodeLoad s ctx p.pa p.size), false)
  | _ => (s, memBytes s p.pa p.size, linePoison s p.pa p.size)

/-- The registers that a load of a size code writes from its bytes (spec/12 R259). -/
def loadRegs (z d : Nat) (b : List Byte) : List (Nat × Word) :=
  let n := ofBytes b
  match z with
  | 1 => [(d, toWord (wrap 32 (signedOf 8 n)))]
  | 3 => [(d, toWord (wrap 32 (signedOf 16 n)))]
  | _ => (sizeSpan z d).map (fun r => (r, toWord (n / 2 ^ (32 * (r - d)))))

/-! ### `LDG`, `STG` -/

/-- One thread's `LDG` (spec/12 R261, R263; spec/13 R287, R294). A load in REV reads `v[D]` as its addend, so poison there traps (spec/20
R444). -/
def ldgLane (z sb a d : Nat) (streaming : Bool) (s : State) (g : Gang) (t : Thread) : LaneRes :=
  let va := laneAddr s g t sb a
  let u := leader s g (fun x => laneAddr s g x sb a) (sizeBytes z) t
  match regionBreach s g z va with
  | some k => .trap 0x06 va (toWord k)
  | none =>
    match (if gangMode s g = 2 then regionHit s g.ctx va (sizeBytes z) else none) with
    | some (_, r) => if t.poison.contains d then .trap 0x0F 0 (poisonPlace s.freeCtr t.lpos d) else revLane s g u t va d r
    | none => loadLane s g u t va (sizeBytes z) d (.load z streaming) (sizeSpan z d)

/-- `LDG` (spec/12 R257 to R261). -/
def execLdg (o : BitVec 2) (z : BitVec 3) (b : BitVec 5) (a d : BitVec 7) (m : Bool) (s : State) : Res :=
  .next (accessOp m (basePair b.toNat) [a.toNat] (sizeSpan z.toNat d.toNat)
    ⟨ldgLane z.toNat b.toNat a.toNat d.toNat (o == 2), noHold, noPart, issueLanes (o == 1)⟩ s)

/-- The translations of the steps of a thread's `LDM8`: those before the first that fails, and its fault (spec/12 R265). `addr` gives each
thread's address. -/
def ldm8Steps (s : State) (g : Gang) (t : Thread) (addr : Thread → Nat) : Nat → Nat → List (List (Nat × Trans)) × Option LaneFault
  | _, 0 => ([], none)
  | i, n + 1 =>
    let at_ := fun x => (addr x + 4 * i) % 2 ^ 64
    match checkRuns s g (leader s g at_ 4 t) t .read (pageRuns (at_ t) 4) with
    | .error f => ([], some f)
    | .ok trs =>
      let r := ldm8Steps s g t addr (i + 1) n
      (trs :: r.1, r.2)

/-- The parts of the steps of an `LDM8`: each step is an access of its own (spec/12 R265). -/
def ldm8Parts (lpos va d : Nat) (steps : List (List (Nat × Trans))) : List LanePart :=
  (steps.zip (rangeFrom 0 8)).flatMap (fun x =>
    (partsAt x.1 lpos ((va + 4 * x.2) % 2 ^ 64) 4 d 0).map (fun p => { p with off := p.off + 4 * x.2 }))

/-- The operation of a thread's `LDM8`, as far as its steps go. -/
def ldm8Op (lpos va d : Nat) (streaming : Bool) (steps : List (List (Nat × Trans))) : OkLane :=
  ⟨lpos, .load 7 streaming, [lpos, 8], false, ldm8Parts lpos va d steps, steps.flatten, rangeFrom d steps.length, []⟩

/-- One thread's `LDM8` (spec/12 R265). -/
def ldm8Lane (sb a d : Nat) (streaming : Bool) (s : State) (g : Gang) (t : Thread) : LaneRes :=
  let va := laneAddr s g t sb a
  match regionBreach s g 7 va with
  | some k => .trap 0x06 va (toWord k)
  | none =>
    match ldm8Steps s g t (fun x => laneAddr s g x sb a) 0 8 with
    | (_, some f) => .fault f
    | (steps, none) => .ok [ldm8Op t.lpos va d streaming steps]

/-- The steps of an earlier `LDM8` of a thread at the same bundle, which faulted, that have not returned: the instruction starts again at
step 0, and its registers hold what it loads then (spec/12 R265). -/
def restartLdm8 (s : State) (g : Gang) (lpos : Nat) : State :=
  let old := fun (o : OutOp) => steppedLoad o && o.pc == s.cur.pc && bitOf o.mask lpos
  let ids := (g.out.filter old).map (·.id)
  if ids.isEmpty then s
  else updGang s g.core g.slot (fun g => updThread { g with out := g.out.filter (fun o => !(old o)) } lpos (fun t =>
    { t with inflight := t.inflight.filter (fun f => !(ids.contains f.op)) }))

/-- The steps before the one that faults are loads of their own: their registers receive what they load (spec/12 R265, spec/20 R442). -/
def ldm8Partial (sb a d : Nat) (streaming : Bool) (s : State) (g : Gang) (f : LaneFault) : State :=
  match findThread g f.lpos with
  | none => s
  | some t =>
    let s0 := restartLdm8 s g f.lpos
    match (ldm8Steps s g t (fun x => laneAddr s g x sb a) 0 8).1 with
    | [] => s0
    | x :: xs =>
      let l := ldm8Op t.lpos (laneAddr s g t sb a) d streaming (x :: xs)
      (issueGroup s0 g (l, [l])).1

/-- The loads of an `LDM8` put in flight (spec/12 R265). -/
def issueLdm8 (acquire : Bool) (s : State) (g : Gang) (ls : List OkLane) : State × List Nat :=
  issueLanes acquire (ls.foldl (fun s l => restartLdm8 s g l.lpos) s) g ls

/-- `LDM8` (spec/12 R265). -/
def execLdm8 (o : BitVec 2) (b : BitVec 5) (a d : BitVec 7) (m : Bool) (s : State) : Res :=
  .next (accessOp m (basePair b.toNat) [a.toNat] (sizeSpan 7 d.toNat)
    ⟨ldm8Lane b.toNat a.toNat d.toNat (o == 2), noHold, ldm8Partial b.toNat a.toNat d.toNat (o == 2), issueLdm8 (o == 1)⟩ s)

/-- One thread's `STG` (spec/12 R262, R263; spec/13 R287). -/
def stgLane (z sb a d : Nat) (s : State) (g : Gang) (t : Thread) : LaneRes :=
  let va := laneAddr s g t sb a
  match regionBreach s g z va with
  | some k => .trap 0x06 va (toWord k)
  | none => storeLane s g (leader s g (fun x => laneAddr s g x sb a) (sizeBytes z) t) t va (sizeBytes z) d (storeData s.freeCtr t z d) (sizeSpan z d)

/-- Whether a store of the executing path touches an open region in a taped mode (spec/13 R292, R295). -/
def stgTaped (z sb a : Nat) (s : State) (g : Gang) : Bool :=
  gangMode s g != 0 && (activeThreads s g).any (fun t => (regionHit s g.ctx (laneAddr s g t sb a) (sizeBytes z)).isSome)

/-- A store that touches an open region: the threads whose access breaks the region's rules trap; a fault of any thread parks
all (spec/13 R292, R296). One that traps as a whole has no effect, so it records no translation either (spec/13 R293). -/
def tapedStore (m : Bool) (z sb a d : Nat) (s : State) : State :=
  let rd := a :: sizeSpan z d
  let s1 := trapScalar (readyLanes s rd (sizeSpan z d)) (basePair sb)
  match curGang s1 with
  | none => s1
  | some g =>
    let ls := (activeThreads s1 g).map (fun t => (t, stgLane z sb a d s1 g t))
    let oks := laneOks ls
    let res := match laneFaults ls with
      | f :: _ => TapeRes.fault f
      | [] => if gangMode s1 g = 1 then fwdStore m s1 g oks else revStore m s1 g oks
    match res with
    | .fault f => if faultRoom s1 g [f] then tapeFault m s1 g f else deliverCur (holdPath s1 (.waitSlot 1) .again)
    | .trap code addr entry =>
      let s2 := trapLanes s1 (laneTraps ls)
      tapeTrap m s2 ((curGang s2).getD g) code addr entry
    | .go waits effect =>
      if !waits.isEmpty then deliverCur (holdPath s1 (.done waits) .again)
      else
        match storeHold 0 s1 g oks with
        | some c => deliverCur (holdPath s1 c .again)
        | none => effect (oks.foldl (fun s l => noteLane s g l) (trapLanes s1 (laneTraps ls)))

/-- A store: in a taped mode its region accesses are taped or inverted (spec/12 R262, spec/13 R286). -/
def stgOp (m : Bool) (z sb a d : Nat) (s : State) : State :=
  match curGang s with
  | none => s
  | some g =>
    if stgTaped z sb a s g then tapedStore m z sb a d s
    else accessOp m (basePair sb) (a :: sizeSpan z d) [] ⟨stgLane z sb a d, storeHold 0, noPart, issueLanes false⟩ s

/-- `STG` (spec/12 R257 to R262). -/
def execStg (o : BitVec 2) (z : BitVec 3) (b : BitVec 5) (a d : BitVec 7) (m : Bool) (s : State) : Res :=
  .next (if o = 1 then afterFence 2 (stgOp m z.toNat b.toNat a.toNat d.toNat) s else stgOp m z.toNat b.toNat a.toNat d.toNat s)

/-! ### Team memory -/

/-- The team that a team address names (spec/11 R226, R227): the executing team, or a member of its crew. -/
def addrTeam (s : State) (t : Team) (va : Nat) : Option Team :=
  let r := bitsOf va 31 28
  if r = 0 then some t
  else s.teams.find? (fun x => x.ctx == t.ctx && x.grid == t.grid && x.crew == t.crew && x.rank + 1 == r)

/-- The checks of a team access (spec/11 R227; spec/12 R258, R263): the named team, or the trap or fault. -/
def teamCheck (s : State) (g : Gang) (lpos va n : Nat) (acc : Acc) : Except LaneRes Team :=
  if 2 ^ 32 ≤ va then .error (.trap 0x04 va 0)
  else
    match gangTeam s g with
    | none => .error (.fault ⟨lpos, .freeThread, va, acc⟩)
    | some t =>
      match addrTeam s t va, gangKernel s g with
      | some x, some k => if k.tmem < va % 2 ^ 28 + n then .error (.trap 0x04 va 0) else .ok x
      | _, _ => .error (.trap 0x04 va 0)

/-- The parts of a team access: `pa` is the offset in team memory, `dev` the team (spec/11 R245, R246). -/
def teamParts (lpos va n team reg data : Nat) : List LanePart :=
  let off := va % 2 ^ 28
  if off % n = 0 then [⟨lpos, va, off, 0, 0, team, n, 0, reg, toDword data, toDword (data / 2 ^ 64)⟩]
  else (rangeFrom 0 n).map (fun j => ⟨lpos, va + j, off + j, 0, 0, team, 1, j, reg, toDword (data / 256 ^ j % 256), 0⟩)

/-- What groups team accesses into events. -/
def teamKey (lpos : Nat) (parts : List LanePart) : List Nat :=
  match parts with
  | [p] => [p.dev, p.pa / 128]
  | _ => [lpos]

/-- One thread's `LDT` (spec/12 R261). -/
def ldtLane (z sb a d : Nat) (s : State) (g : Gang) (t : Thread) : LaneRes :=
  let va := laneAddr s g t sb a
  match teamCheck s g t.lpos va (sizeBytes z) .read with
  | .error r => r
  | .ok x =>
    let parts := teamParts t.lpos va (sizeBytes z) x.index d 0
    .ok [⟨t.lpos, .loadTeam z, teamKey t.lpos parts, decide (parts.length = 1), parts, [], sizeSpan z d, []⟩]

/-- `LDT` (spec/12 R257 to R261). -/
def execLdt (o : BitVec 2) (z : BitVec 3) (b : BitVec 5) (a d : BitVec 7) (m : Bool) (s : State) : Res :=
  .next (accessOp m (basePair b.toNat) [a.toNat] (sizeSpan z.toNat d.toNat)
    ⟨ldtLane z.toNat b.toNat a.toNat d.toNat, noHold, noPart, issueLanes (o == 1)⟩ s)

/-- One thread's `STT` (spec/12 R262). -/
def sttLane (z sb a d : Nat) (s : State) (g : Gang) (t : Thread) : LaneRes :=
  let va := laneAddr s g t sb a
  match teamCheck s g t.lpos va (sizeBytes z) .write with
  | .error r => r
  | .ok x =>
    let parts := teamParts t.lpos va (sizeBytes z) x.index d (storeData s.freeCtr t z d)
    .ok [⟨t.lpos, if some x.index == g.team then .localTeam else .crewStore, teamKey t.lpos parts, decide (parts.length = 1), parts, [], [],
      sizeSpan z d⟩]

/-- Each store of a bundle to local memory performed at once, with its data registers in flight (spec/12 R262). -/
def performLocal (write : State → OkLane → LanePart → State) (s : State) (g : Gang) (ls : List OkLane) : State :=
  ls.foldl (fun s l => (issueGroup (l.parts.foldl (fun s p => write s l p) s) g (l, [l])).1) s

/-- The stores of a bundle to team memory: those to the executing team at once, those to another member of the crew when
the owning core acknowledges them (spec/12 R262). -/
def performStt (s : State) (g : Gang) (ls : List OkLane) : State × List Nat :=
  let s1 := performLocal (fun s _ p => teamWrite s g.ctx g.grid p.dev p.pa (partBytes p)) s g (ls.filter (fun l => l.kind == .localTeam))
  issueLanes false s1 g (ls.filter (fun l => l.kind != .localTeam))

/-- `STT` (spec/12 R257 to R262). -/
def sttOp (m : Bool) (z sb a d : Nat) (s : State) : State :=
  accessOp m (basePair sb) (a :: sizeSpan z d) [] ⟨sttLane z sb a d, storeHold 1, noPart, performStt⟩ s

/-- `STT` (spec/12 R257 to R262); a release waits as `FENCE.DEV` does (spec/12 R260). -/
def execStt (o : BitVec 2) (z : BitVec 3) (b : BitVec 5) (a d : BitVec 7) (m : Bool) (s : State) : Res :=
  .next (if o = 1 then afterFence 2 (sttOp m z.toNat b.toNat a.toNat d.toNat) s else sttOp m z.toNat b.toNat a.toNat d.toNat s)

/-! ### Private memory -/

/-- The checks of a private access (spec/11 R253, R487). -/
def privCheckLane (s : State) (g : Gang) (t : Thread) (p n : Nat) (acc : Acc) : Option LaneRes :=
  if plimOf s g t ≤ (p + n - 1) / 4 then some (.trap 0x05 p 0)
  else (privCheck s g t p n).map (fun x => .fault ⟨t.lpos, x.1, x.2, acc⟩)

/-- The parts of a private access. -/
def privParts (lpos p n reg data : Nat) : List LanePart :=
  if p % n = 0 then [⟨lpos, p, p, 0, 0, 0, n, 0, reg, toDword data, toDword (data / 2 ^ 64)⟩]
  else (rangeFrom 0 n).map (fun j => ⟨lpos, p + j, p + j, 0, 0, 0, 1, j, reg, toDword (data / 256 ^ j % 256), 0⟩)

/-- One thread's `LDP` (spec/12 R261). -/
def ldpLane (z sb a d : Nat) (s : State) (g : Gang) (t : Thread) : LaneRes :=
  let p := laneAddr s g t sb a
  match privCheckLane s g t p (sizeBytes z) .read with
  | some r => r
  | none =>
    let parts := privParts t.lpos p (sizeBytes z) d 0
    .ok [⟨t.lpos, .loadPriv z, if parts.length = 1 then [64] else [t.lpos], decide (parts.length = 1), parts, [], sizeSpan z d, []⟩]

/-- `LDP` (spec/12 R257 to R261). -/
def execLdp (o : BitVec 2) (z : BitVec 3) (b : BitVec 5) (a d : BitVec 7) (m : Bool) (s : State) : Res :=
  .next (accessOp m (basePair b.toNat) [a.toNat] (sizeSpan z.toNat d.toNat)
    ⟨ldpLane z.toNat b.toNat a.toNat d.toNat, noHold, noPart, issueLanes (o == 1)⟩ s)

/-- One thread's `STP` (spec/12 R262). -/
def stpLane (z sb a d : Nat) (s : State) (g : Gang) (t : Thread) : LaneRes :=
  let p := laneAddr s g t sb a
  match privCheckLane s g t p (sizeBytes z) .write with
  | some r => r
  | none =>
    .ok [⟨t.lpos, .localPriv, [t.lpos], true, privParts t.lpos p (sizeBytes z) d (storeData s.freeCtr t z d), [], [], sizeSpan z d⟩]

/-- The stores of a bundle to private memory (spec/11 R254). -/
def performStp (s : State) (g : Gang) (ls : List OkLane) : State × List Nat :=
  (performLocal (fun s l p =>
    match findThread g l.lpos with
    | none => s
    | some t => privWrite (privSeen s g.core g.slot l.lpos p.va p.size) g t p.va (partBytes p)) s g ls, [])

/-- The hold of a private store: earlier overlapping loads of its threads (spec/11 R237). -/
def stpHold (s : State) (g : Gang) (ls : List OkLane) : Option Cond :=
  let older := olderAccesses s g 2 (lanesMask s g ls) (ls.flatMap (·.parts))
  if older.isEmpty then none else some (.done older)

/-- `STP` (spec/12 R257 to R262). -/
def stpOp (m : Bool) (z sb a d : Nat) (s : State) : State :=
  accessOp m (basePair sb) (a :: sizeSpan z d) [] ⟨stpLane z sb a d, stpHold, noPart, performStp⟩ s

/-- `STP` (spec/12 R257 to R262); a release waits as `FENCE.DEV` does (spec/12 R260). -/
def execStp (o : BitVec 2) (z : BitVec 3) (b : BitVec 5) (a d : BitVec 7) (m : Bool) (s : State) : Res :=
  .next (if o = 1 then afterFence 2 (stpOp m z.toNat b.toNat a.toNat d.toNat) s else stpOp m z.toNat b.toNat a.toNat d.toNat s)

/-! ### Atomics -/

/-- The bytes of an atomic's operand in memory: 16 for an anchored cell (spec/12 R266). -/
def atomBytes (op : AtomicOp) (wide : Bool) : Nat :=
  match op with
  | .fadda _ => 16
  | _ => if wide then 8 else 4

/-- Whether an atomic is one that the system coherence point performs (spec/12 R270). -/
def cxlAtomic : AtomicOp → Bool
  | .fadd | .fadda _ | .fmax | .fmin | .lr | .sc => false
  | _ => true

/-- Whether an atomic is supported at its page's atomic point (spec/12 R270). -/
def atomSupported (op : AtomicOp) (tgt : Nat) : Bool :=
  match tgt with
  | 0 => true
  | 2 => op != .lr && op != .sc
  | _ => cxlAtomic op

/-- The registers of an atomic's data and of its returned value (spec/12 R267, R268). -/
def atomRegs (op : AtomicOp) (wide : Bool) (b d : Nat) : List Nat × List Nat :=
  let n := if wide then 2 else 1
  match op with
  | .lr => ([], rangeFrom d n)
  | .sc => (rangeFrom b n, [d])
  | .cas => (rangeFrom b (2 * n), rangeFrom d n)
  | .fadda _ => (rangeFrom b n, [])
  | _ => (rangeFrom b n, rangeFrom d n)

/-- The data of an atomic: its operand, and the new value of a compare and swap. -/
def atomData (c : Nat) (t : Thread) (op : AtomicOp) (wide : Bool) (b : Nat) : Dword × Dword :=
  match op, wide with
  | .lr, _ => (0, 0)
  | .cas, false => ((readV c t 1 b).zeroExtend 64, (readV c t 1 (b + 1)).zeroExtend 64)
  | .cas, true => (readVPair c t 1 b, readVPair c t 1 (b + 2))
  | _, false => ((readV c t 1 b).zeroExtend 64, 0)
  | _, true => (readVPair c t 1 b, 0)

/-- One thread's atomic (spec/12 R263, R266, R270). -/
def atomLane (op : AtomicOp) (wide : Bool) (b a d : Nat) (s : State) (g : Gang) (t : Thread) : LaneRes :=
  let va := (readVPair s.freeCtr t 0 a + immExt s.cur).toNat
  let n := atomBytes op wide
  match regionBarred s g va n with
  | some k => .trap 0x06 va (toWord k)
  | none =>
    if va % n ≠ 0 then .fault ⟨t.lpos, .alignment, va, .atomic⟩
    else
      match checkRun s g t t va n .atomic with
      | .error f => .fault f
      | .ok tr =>
        if !(atomSupported op (tgtOf tr.2)) then .fault ⟨t.lpos, .unsupportedAtomic, va, .atomic⟩
        else
          let (x, y) := atomData s.freeCtr t op wide b
          let (data, dst) := atomRegs op wide b d
          let p := { partAt [tr] t.lpos va n 0 b 0 with x := x, y := y }
          .ok [⟨t.lpos, .atomic op wide (dynRM g) g.anchor.toInt, [p.tgt, p.dev, p.pa], false, [p], [tr], dst, data⟩]

/-- An atomic instruction (spec/12 R266 to R270). -/
def atomOp (m : Bool) (op : AtomicOp) (wide : Bool) (b a d : Nat) (s : State) : State :=
  let (data, dst) := atomRegs op wide b d
  accessOp m [] ([a, a + 1] ++ data) dst ⟨atomLane op wide b a d, noHold, noPart, issueLanes false⟩ s

/-- The operation of an `ATOM` function (spec/12 R267). -/
def atomFn (f : Nat) : AtomicOp :=
  match f with
  | 0 => .add
  | 1 => .and
  | 2 => .or
  | 3 => .xor
  | 4 => .xchg
  | 5 => .smin
  | 6 => .smax
  | _ => .umin

/-- `ATOM` (spec/12 R267). -/
def execAtom (f : BitVec 3) (w : Bool) (b : BitVec 6) (a d : BitVec 7) (m : Bool) (s : State) : Res :=
  .next (atomOp m (atomFn f.toNat) w b.toNat a.toNat d.toNat s)

/-- `ATOMX.umax` (spec/12 R267). -/
def execAtomxUmax (w : Bool) (b : BitVec 6) (a d : BitVec 7) (m : Bool) (s : State) : Res :=
  .next (atomOp m .umax w b.toNat a.toNat d.toNat s)

/-- `ATOMX.cas` (spec/12 R268). -/
def execAtomxCas (w : Bool) (b : BitVec 6) (a d : BitVec 7) (m : Bool) (s : State) : Res :=
  .next (atomOp m .cas w b.toNat a.toNat d.toNat s)

/-- `ATOMX.fadd` (spec/12 R268). -/
def execAtomxFadd (w : Bool) (b : BitVec 6) (a d : BitVec 7) (m : Bool) (s : State) : Res :=
  .next (atomOp m .fadd w b.toNat a.toNat d.toNat s)

/-- `ATOMX.fadda` (spec/12 R268). -/
def execAtomxFadda (w : Bool) (b : BitVec 6) (a : BitVec 7) (sat : Bool) (m : Bool) (s : State) : Res :=
  .next (atomOp m (.fadda sat) w b.toNat a.toNat 0 s)

/-- `ATOMX.lr` (spec/11 R249, spec/12 R268). -/
def execAtomxLr (w : Bool) (a d : BitVec 7) (m : Bool) (s : State) : Res :=
  .next (atomOp m .lr w 0 a.toNat d.toNat s)

/-- `ATOMX.sc` (spec/11 R249, spec/12 R268). -/
def execAtomxSc (w : Bool) (b : BitVec 6) (a d : BitVec 7) (m : Bool) (s : State) : Res :=
  .next (atomOp m .sc w b.toNat a.toNat d.toNat s)

/-- `ATOMX.fmax` (spec/12 R268). -/
def execAtomxFmax (w : Bool) (b : BitVec 6) (a d : BitVec 7) (m : Bool) (s : State) : Res :=
  .next (atomOp m .fmax w b.toNat a.toNat d.toNat s)

/-- `ATOMX.fmin` (spec/12 R268). -/
def execAtomxFmin (w : Bool) (b : BitVec 6) (a d : BitVec 7) (m : Bool) (s : State) : Res :=
  .next (atomOp m .fmin w b.toNat a.toNat d.toNat s)

/-! ### `CACHE` -/

/-- The lines of device memory that a thread's `CACHE` names, those that its checks let through (spec/12 R271). -/
def cacheLines (s : State) (g : Gang) (t : Thread) (va n : Nat) : List (Nat × Nat) :=
  (rangeFrom 0 n).filterMap (fun k =>
    match checkRun s g t t ((va / 128 * 128 + 128 * k) % 2 ^ 64) 128 .read with
    | .ok (x, tr) => if tgtOf tr = 0 then some (pteHome tr.pte, lineOf (transPa tr x)) else none
    | .error _ => none)

/-- A `CACHE` function on global lines: no fault, no trap (spec/12 R271). -/
def cacheGlobal (m : Bool) (b a n : Nat) (f : State → Gang → Nat × Nat → State) (s : State) : State :=
  let s1 := trapScalar (readyLanes s [a] []) (basePair b)
  match curGang s1 with
  | none => s1
  | some g => finishPath ((activeThreads s1 g).foldl (fun s t => (cacheLines s g t (laneAddr s1 g t b a) n).foldl (fun s x => f s g x) s) s1) m

/-- `CACHE.pref` (spec/12 R271): the lines are fetched into L1 under leases. -/
def execCachePref (b : BitVec 5) (a n : BitVec 7) (m : Bool) (s : State) : Res :=
  .next (cacheGlobal m b.toNat a.toNat (n.toNat + 1) (fun s g x => (fetchLine s g.core g.ctx x.1 x.2 false).1) s)

/-- `CACHE.linv` (spec/11 R242, spec/12 R271): the leases in the core's L1 and its die's remote-data cache are dropped. -/
def execCacheLinv (b : BitVec 5) (a n : BitVec 7) (m : Bool) (s : State) : Res :=
  .next (cacheGlobal m b.toNat a.toNat (n.toNat + 1) (fun s g x =>
    dropLine (dropLine s (.l1 g.core) x.2) (.rdc (coreDie g.core)) x.2) s)

/-- The private lines of a core that hold one of some words of a thread, whichever thread wrote them (spec/12 R271). -/
def wordLines (s : State) (g : Gang) (t : Thread) (p n : Nat) : List PrivLine :=
  let vas := (rangeFrom (p / 4) n).map (fun w => privAddr s g t w)
  s.privLines.filter (fun l => l.core == g.core && l.ctx == g.ctx && l.grid == g.grid &&
    vas.any (fun a => a / 128 * 128 == l.va && bitOf l.valid (a % 128 / 4)))

/-- What a thread's `.pwb` or `.pinv` meets: a word beyond its `PLIM`, or a write-back that fails (spec/12 R271, spec/11
R487). -/
def flushCheck (s : State) (g : Gang) (t : Thread) (p n : Nat) : LaneRes :=
  if plimOf s g t < p / 4 + n then .trap 0x05 p 0
  else
    match ((wordLines s g t p n).filter (fun l => l.dirty != 0)).findSome? (fun l =>
        match privTrans s l.core l.ctx l.va 128 .write with
        | .ok _ => none
        | .error k => some (k, l.va)) with
    | some (k, va) => .fault ⟨t.lpos, k, va, .write⟩
    | none => .ok [⟨t.lpos, .store, [t.lpos], true, [⟨t.lpos, p, p, 0, 0, 0, 4 * n, 0, 1024, 0, 0⟩], [], [], []⟩]

/-- One line of a `.pwb` or `.pinv`: written back if it is dirty, with its completion time in `GWCT`, and, for `.pinv`, dropped (spec/12
R271). -/
def flushLine (g : Gang) (drop : Bool) (s : State) (d : PrivLine) : State :=
  let s1 := if d.dirty = 0 then s
    else
      match writeBackLine s d with
      | .ok x => raiseGwct x.1 g.core g.slot g.ctx g.grid x.2
      | .error _ => s
  if drop then (match findPriv s1 d.core d.ctx d.grid d.va with | some x => if x.dirty = 0 then dropPriv s1 x else s1 | none => s1) else s1

/-- The lines of a `.pwb` or `.pinv` (spec/12 R271). The stores that have put their words there are seen. -/
def performFlush (drop : Bool) (s : State) (g : Gang) (ls : List OkLane) : State × List Nat :=
  (ls.foldl (fun s l =>
    match findThread g l.lpos with
    | none => s
    | some t => l.parts.foldl (fun s p =>
        (wordLines s g t p.va (p.size / 4)).foldl (flushLine g drop) (privSeen s g.core g.slot l.lpos p.va p.size)) s) s, [])

/-- A `CACHE` function on private words (spec/12 R271). -/
def cachePrivate (drop m : Bool) (b a n : Nat) (s : State) : State :=
  accessOp m (basePair b) [a] [] ⟨fun s g t => flushCheck s g t (laneAddr s g t b a) n, noHold, noPart, performFlush drop⟩ s

/-- `CACHE.pwb` (spec/12 R271): the lines are kept clean. -/
def execCachePwb (b : BitVec 5) (a n : BitVec 7) (m : Bool) (s : State) : Res :=
  .next (cachePrivate false m b.toNat a.toNat (n.toNat + 1) s)

/-- `CACHE.pinv` (spec/12 R271): the lines are dropped. -/
def execCachePinv (b : BitVec 5) (a n : BitVec 7) (m : Bool) (s : State) : Res :=
  .next (cachePrivate true m b.toNat a.toNat (n.toNat + 1) s)

/-! ### `SMEM` -/

/-- The words of an `SMEM` function (spec/06 R141). -/
def smemWords (f : Nat) : Nat :=
  match f % 3 with
  | 0 => 1
  | 1 => 2
  | _ => 4

/-- The checks of an `SMEM` access (spec/06 R141, spec/12 R263). -/
def smemCheck (s : State) (g : Gang) (va n : Nat) (acc : Acc) : LaneRes :=
  match regionBarred s g va n with
  | some k => .trap 0x06 va (toWord k)
  | none =>
    if va % n ≠ 0 then .fault ⟨64, .alignment, va, acc⟩
    else
      match translateChecked s g.core g.ctx va n acc with
      | .error k => .fault ⟨64, k, va, acc⟩
      | .ok tr =>
        if acc == .read && [3, 4, 6].contains (pteTgt tr.pte) then .fault ⟨64, .access, va, acc⟩
        else .ok [⟨64, .store, [], true, [partAt [(va, tr)] 64 va n 0 1024 0], [(va, tr)], [], []⟩]

/-- The registers of an `SMEM` access marked in flight (spec/02 R30). -/
def flyS (id : Nat) (data : Bool) (regs : List Nat) (g : Gang) : Gang :=
  { g with sflight := regs.map (fun r => ⟨id, r, data, false, none⟩) ++ g.sflight }

/-- `SMEM` loads (spec/06 R141). -/
def execSmemLoad (f : BitVec 6) (sa d : BitVec 9) (m : Bool) (s : State) : Res :=
  let n := smemWords f.toNat
  .next (uniRaw m [sa.toNat, sa.toNat + 1] (fun g s =>
    let va := (readSPair s.freeCtr g 0 sa.toNat).toNat
    match smemCheck s g va (4 * n) .read with
    | .trap c a i => trapPath s c a i
    | .fault x => uniformFault s x
    | .ok ls =>
      let (id, s1) := newId s
      let parts := (ls.flatMap (·.parts)).map (fun p => { p with reg := d.toNat })
      let s2 := sendMsgs (updCur (ls.foldl (fun s l => l.trs.foldl (fun s x => tlbInstall s g.core g.ctx x.1 x.2) s) s1) (fun g =>
        let g1 := flyS id false (rangeFrom d.toNat n) g
        { g1 with out := g1.out ++ [⟨id, .loadScalar n, s.cur.pc, curMask s g, true, parts, s.dtb, []⟩] })) id (.loadScalar n) true parts
      if parts.any (fun p => p.tgt == 2) then finishHeld s2 m (.done [id]) else finishPath s2 m) s)

/-- `SMEM` stores (spec/06 R141). -/
def execSmemStore (f : BitVec 6) (sa d : BitVec 9) (m : Bool) (s : State) : Res :=
  let n := smemWords f.toNat
  .next (uniRaw m ([sa.toNat, sa.toNat + 1] ++ rangeFrom d.toNat n) (fun g s =>
    let va := (readSPair s.freeCtr g 0 sa.toNat).toNat
    let data := packLanes 32 ((rangeFrom d.toNat n).map (fun r => (readS s.freeCtr g 1 r).toNat))
    match smemCheck s g va (4 * n) .write with
    | .trap c a i => trapPath s c a i
    | .fault x => uniformFault s x
    | .ok ls =>
      let parts := (ls.flatMap (·.parts)).map (fun p => { p with reg := d.toNat, x := toDword data, y := toDword (data / 2 ^ 64) })
      let lanes := storeLanes 64 true parts (ls.flatMap (·.trs)) []
      match storeHold 0 s g lanes with
      | some c => holdPath s c .again
      | none =>
        let s1 := (ls.flatMap (·.trs)).foldl (fun s x => tlbInstall s g.core g.ctx x.1 x.2) s
        finishPath (lanes.foldl (fun s l =>
          let (s2, id) := issueGroup s g (l, [l])
          updCur s2 (flyS id true (rangeFrom d.toNat n))) s1) m) s)

end Sys2Proof.Machine
end

