-- ==== Sys2Proof/Machine/Sync.lean ====
section
/-! DEFINITION. Barriers (spec/16 R353 to R356, spec/17 R379), fences and timelines (spec/11 R238 to R240, spec/12 R277 to
R279), and early start (spec/17 R380, R381). -/

namespace Sys2Proof.Machine

/-! ### Barriers -/

/-- The barrier-misuse check (spec/16 R356). -/
def barMisuse (s : State) (g : Gang) (level n : Nat) : Bool :=
  match gangTeam s g, findGrid s g.ctx g.grid with
  | some t, some gr =>
    if level < 2 then false
    else if !gr.launch.cores then true
    else if level = 3 then
      (match sparseGet none gr.groups n with
       | none => true
       | some l => !(l.contains t.index))
    else false
  | _, _ => true

/-- The fence scope of a barrier level (spec/16 R355). -/
def barScope (level : Nat) : Nat := min level 2

/-- The threads of the executing path that last arrived in the current phase of a barrier. -/
def barWaiters (g : Gang) (mask : Nat) (b : Barrier) : Nat :=
  maskOf (((threadsOf g mask).filter (fun t => lastArrival b t.uid == some b.phase)).map (·.lpos))

/-- The arrivals of the executing path (spec/16 R354). Threads that have already arrived in the phase are held until it
completes and then execute the bundle again; when other threads share the path they leave it first. `wait` holds the arrived
threads for the phase, unless they complete it in the core. -/
def barArrivals (m wait : Bool) (key : Nat) (s : State) : State :=
  match curGang s with
  | none => s
  | some g =>
    match gangTeam s g with
    | none => s
    | some t =>
      let b := readBar s t key
      let mask := curMask s g
      let dup := barWaiters g mask b
      let fresh := maskMinus mask dup
      if fresh = 0 then holdPath s (.barrier key b.phase) .again
      else
        let s1 := if dup = 0 then s else placePath (updCur s (fun g => offPaths g dup)) g.core g.slot s.cur.pc dup false true
        let s2 := writeBar s1 t ((threadsOf g fresh).foldl (fun b x => barArriveOne b x.uid) b)
        let s3 := completeBar s2 t key
        if wait && !(barOver s3 g key b.phase) then finishHeld s3 m (.barrier key b.phase) else finishPath s3 m

/-- The waits of the executing path: threads whose last phase has not completed are held (spec/16 R354), and all are until the message of
a completion has had time to arrive (spec/14 R308). -/
def barWaits (m : Bool) (key : Nat) (s : State) : State :=
  match curGang s with
  | none => s
  | some g =>
    match gangTeam s g with
    | none => s
    | some t =>
      let b := readBar s t key
      let held := barWaiters g (curMask s g) b
      if held = 0 then
        (if b.phase = 0 ∨ barOver s g key (b.phase - 1) then finishPath s m else finishHeld s m (.barrier key (b.phase - 1)))
      else if held = curMask s g then finishHeld s m (.barrier key b.phase)
      else deliverCur (splitHeld s m held s.cur.npc (.barrier key b.phase) (.go m))

/-- A barrier operation of a level on a barrier, after its misuse check (spec/16 R356). `op` is its FN operation code. -/
def barOp (op : Nat) (l : BitVec 2) (n : BitVec 9) (k : Nat → State → State) (s : State) : State :=
  match curGang s with
  | none => s
  | some g =>
    if barMisuse s g l.toNat n.toNat then trapPath s 0x0E 0 (toWord (l.toNat * 16 + op * 4))
    else k (barKey l.toNat n.toNat) s

/-- `BAR.arrive` (spec/16 R354, R355). -/
def execBarArrive (l : BitVec 2) (n : BitVec 9) (m : Bool) (s : State) : Res :=
  .next (barOp 0 l n (fun key => afterFence (barScope l.toNat) (barArrivals m false key)) s)

/-- `BAR.wait` (spec/16 R354). -/
def execBarWait (l : BitVec 2) (n : BitVec 9) (m : Bool) (s : State) : Res :=
  .next (barOp 1 l n (barWaits m) s)

/-- `BAR.sync` (spec/16 R354, R355). -/
def execBarSync (l : BitVec 2) (n : BitVec 9) (m : Bool) (s : State) : Res :=
  .next (barOp 2 l n (fun key => afterFence (barScope l.toNat) (barArrivals m true key)) s)

/-! ### Fences -/

/-- A fence of a scope (spec/11 R238, spec/12 R277). -/
def fenceOp (scope : Nat) (m : Bool) (s : State) : State := afterFence scope (fun s => finishPath s m) s

/-- `FENCE.TEAM` (spec/11 R238). -/
def execFenceTeam (m : Bool) (s : State) : Res := .next (fenceOp 0 m s)

/-- `FENCE.CREW` (spec/11 R238). -/
def execFenceCrew (m : Bool) (s : State) : Res := .next (fenceOp 1 m s)

/-- `FENCE.DEV` (spec/11 R238). -/
def execFenceDev (m : Bool) (s : State) : Res := .next (fenceOp 2 m s)

/-- `FENCE.SYS` (spec/11 R238). -/
def execFenceSys (m : Bool) (s : State) : Res := .next (fenceOp 3 m s)

/-! ### Timelines -/

/-- `WAITT` (spec/12 R278): held until V reaches n, then ERRS is written over n. -/
def execWaitt (r : BitVec 9) (t : BitVec 6) (m : Bool) (s : State) : Res :=
  .next (uniRaw m [r.toNat, r.toNat + 1] (fun g s =>
    let n := readSPair s.freeCtr g 0 r.toNat
    if decide (n.toNat ≤ tlKnown s g.ctx g.grid t.toNat) || curPassed s then
      finishPath (writeScalars s (regWrites true r.toNat (tlOf s g.ctx g.grid t.toNat).2)) m
    else holdPath s (.timeline t.toNat n) .again) s)

/-- A timeline counter advanced by 1, with or without error status (spec/11 R250, spec/12 R278). -/
def advanceTl (s : State) (ctx grid n : Nat) (err : Bool) : State :=
  updGrid s ctx grid (fun g =>
    let v := sparseGet (0, 0) g.tls n
    let recent := (sparseGet [] g.tlAt n).filter (fun t => decide (s.dtb < t + msgTicks 0 1))
    { g with tls := sparseSet (0, 0) g.tls n (v.1 + 1, v.2 + bitNat err), tlAt := sparseSet [] g.tlAt n (s.dtb :: recent) })

/-- The payload of `CMDDONE` (spec/14 R311). -/
def cmdDonePayload (n : Nat) (v : Dword) (err dropped : Bool) : Nat :=
  n % 64 + v.toNat * 2 ^ 6 + bitNat err * 2 ^ 70 + bitNat dropped * 2 ^ 71

/-- `TLSIG` (spec/12 R279). -/
def execTlsig (t : BitVec 6) (m : Bool) (s : State) : Res :=
  .next (afterFence 2 (fun s =>
    match curGang s with
    | none => s
    | some g =>
      let s1 := advanceTl s g.ctx g.grid t.toNat false
      let v := (tlOf s1 g.ctx g.grid t.toNat).1
      finishPath (emit s1 (.core g.core) g.ctx 0x08 (cmdDonePayload t.toNat v false false) (gridTag s g.ctx g.grid) (some g.slot)) m) s)

/-! ### Early start -/

/-- `WAITV` (spec/17 R381). -/
def execWaitv (m : Bool) (s : State) : Res :=
  match curGang s with
  | none => .next s
  | some g =>
    if predsOver s g then .next (finishPath s m)
    else .next (finishHeld s m .predecessors)

/-- `SUCCOK` (spec/17 R381). -/
def execSuccok (m : Bool) (s : State) : Res :=
  match curGang s with
  | none => .next s
  | some g => .next (finishPath (updGrid s g.ctx g.grid (fun x => { x with succok := true, succAt := if x.succok then x.succAt else s.dtb })) m)

end Sys2Proof.Machine
end

