-- ==== Sys2Proof/Machine/Engine.lean ====
section
/-! DEFINITION. What the engines share: posting (spec/02 R30, spec/10 R203 to R205), guards at the queue heads (spec/09 R202),
accesses with their faults (spec/08 R176, spec/10 R208, spec/12 R275, spec/20 R421 to R426), and completion (spec/05 R115,
spec/11 R250, R251). -/

namespace Sys2Proof.Machine

/-! ### Commands and queues -/

/-- Whether a command is the row engine's. -/
def isRow (c : EngCmd) : Bool := match c.kind with | .row _ => true | _ => false

/-- Whether a command is a copy engine context's. -/
def isCopy (c : EngCmd) : Bool := match c.kind with | .copy _ => true | _ => false

/-- Whether a command is the matrix engine's. -/
def isMatrix (c : EngCmd) : Bool := !(isRow c) && !(isCopy c)

/-- Whether two commands stand in one queue: a cluster's row engine, a core's copy engine context, a gang's command queue
(spec/09 R202). -/
def sameQueue (a b : EngCmd) : Bool :=
  if isRow a then isRow b && a.cluster == b.cluster
  else if isCopy a then isCopy b && a.core == b.core
  else isMatrix b && a.gang == b.gang

/-- Whether a command still stands in front of others in its queue: a matrix command until its grant, another until its engine
has finished it. -/
def heldInQueue (c : EngCmd) : Bool :=
  match c.stage with
  | .queued => true
  | .running => !(isMatrix c)
  | _ => false

/-- Whether a command stands at the head of its queue (spec/09 R202). -/
def atHead (s : State) (c : EngCmd) : Bool :=
  c.stage == .queued && (c.entered || !(isMatrix c)) &&
  ((s.cmds.takeWhile (fun x => x.id != c.id)).all (fun x => !(sameQueue c x && heldInQueue x)))

/-- The team of a command. -/
def cmdTeam (s : State) (c : EngCmd) : Option Team := c.team.bind (findTeam s c.ctx c.grid)

/-- The value of a guard slot; a retired team's slots are free. -/
def guardOf (s : State) (c : EngCmd) (n : Nat) : Guard := ((cmdTeam s c).map (fun t => sparseGet .isFalse t.guards n)).getD .isFalse

/-- A command at the head of its queue with its guard sampled; a guard that is false discards it (spec/09 R202). -/
def sampleGuard (s : State) (c : EngCmd) : EngCmd :=
  if !(atHead s c) then c
  else
    match c.guard with
    | none => c
    | some n =>
      let v := match c.sampled with
        | some b => some b
        | none => match guardOf s c n with
          | .isPending => none
          | .isTrue => some true
          | .isFalse => some false
      if v = some false then { c with sampled := v, stage := .dropped false, order := 2 * s.nextId } else { c with sampled := v }

/-- Every guard of a command at a queue head sampled (spec/09 R202). -/
def sampleHeads (s : State) : State := if s.cmds.isEmpty then s else { s with cmds := s.cmds.map (sampleGuard s) }

/-- Whether a command's guard allows it: unguarded, or sampled true (spec/09 R202). -/
def guardAllows (c : EngCmd) : Bool := c.guard.isNone || c.sampled == some true

/-! ### Posting -/

/-- The values of captured scalar registers. -/
def cmdReg (c : EngCmd) (r : Nat) : Word := ((c.ops.find? (fun o => o.1 == r)).map (·.2)).getD 0

/-- A captured pair. -/
def cmdPair (c : EngCmd) (r : Nat) : Nat := (pairOf (cmdReg c r) (cmdReg c (r + 1))).toNat

/-- The pair `k` of a command's operand block: the registers are captured in the order of the block, then the control word or
the second block (spec/08 R171, spec/10 R203, spec/12 R272). -/
def blockPair (c : EngCmd) (k : Nat) : Nat :=
  match c.ops[2 * k]?, c.ops[2 * k + 1]? with
  | some a, some b => (pairOf a.2 b.2).toNat
  | _, _ => 0

/-- A command as a path posts it, its scalar registers captured (spec/10 R203, spec/08 R175, spec/09 R200). -/
def makeCmd (s : State) (g : Gang) (kind : EngKind) (tl : Nat) (regs : List Nat) (id : Nat) : EngCmd :=
  { id := id, kind := kind, ctx := g.ctx, grid := g.grid, team := g.team, gang := g.uid, core := g.core, slot := g.slot,
    cluster := coreCluster g.core, pc := s.cur.pc, tl := tl, guard := if s.cur.pfx.gen then some s.cur.pfx.gslot.toNat else none,
    sampled := none, ops := (regs.zip (rangeFrom 0 regs.length)).map (fun x => (x.1, readS s.freeCtr g (x.2 % 16) x.1)),
    rm := dynRM g, anchor := g.anchor, stage := .queued, readyAt := none, unit := 0, units := 0, err := false, flags := flagNone,
    aged := false, gwct := 0, key := none, entered := true, joins := [], order := 0, aux := [], far := [], acks := [], born := s.dtb }

/-- The registers of a posted command put in flight until the posting threads' marker (spec/02 R30). -/
def flyCmd (s : State) (g : Gang) (id : Nat) (regs : List Nat) : State :=
  let mask := curMask s g
  updCur s (fun g => { flyS id true regs g with out := g.out ++ [⟨id, .command, s.cur.pc, mask, true, [], s.dtb, []⟩] })

/-- The crew-remote stores of a gang that have not been acknowledged: a posting waits for them, so that its command observes them
(spec/10 R206). -/
def crewStores (g : Gang) : List Nat :=
  (g.out.filter (fun o => match o.kind with | .crewStore => true | _ => false)).map (·.id)

/-- A posting whose checks have passed: it waits for the path's crew-remote stores and for room in its queue, then `k` queues the
command (spec/16 R359, spec/18 R397). -/
def postCmd (m : Bool) (unit : Nat) (kind : EngKind) (tl : Nat) (regs : List Nat) (k : EngCmd → State → State) (s : State) : State :=
  match curGang s with
  | none => s
  | some g =>
    let older := crewStores g
    if !older.isEmpty then holdPath s (.done older) .again
    else if !(curSlot s g (.queueSlot unit)) then holdPath s (.queueSlot unit) .again
    else
      let (id, s1) := newId s
      finishPath (sampleHeads (k (makeCmd s g kind tl regs id) (flyCmd s1 g id regs))) m

/-- A command put at the end of the queues. -/
def queueCmd (c : EngCmd) (s : State) : State := { s with cmds := s.cmds ++ [c] }

/-- Whether the bundle's guard names a slot that the gang does not own (spec/17 R382). -/
def guardForeign (s : State) (g : Gang) : Bool := s.cur.pfx.gen && g.team.isNone

/-! ### Error records of the tenant's windows -/

/-- The launch and dependence logic as a source (spec/14 R310). -/
def hubLogic : TraceSource := .hub 32

/-- Whether the launch and dependence logic stands still for its trace records (spec/14 R317). -/
def hubHeld (s : State) : Bool := unitTraceHeld s hubLogic

/-- A launch-error record (spec/20 R425, R426). -/
def refuse (s : State) (ctx cause : Nat) (tag : Dword) (addr : Nat) : State :=
  postFault s ctx { blankRec s ctx none hubLogic 2 cause with addr := toDword addr, tag := tag }

/-- A node-error record (spec/20 R425, R426). -/
def nodeError (s : State) (ctx n code : Nat) : State :=
  postFault s ctx { blankRec s ctx none hubLogic 3 code with addr := toDword n, detail := nodeStatus s ctx n }

/-- What a unit's load of `n` bytes of the node window reads, in accesses of `size` bytes: an aligned 8-byte one gives a node's status,
any other 0 (spec/18 R386). -/
def windowBytes (s : State) (ctx pa n size : Nat) : List Byte :=
  (rangeFrom pa n).map (fun a => if size = 8 then (toBytes 8 (nodeLoad s ctx (a / 8 * 8) 8)).getD (a % 8) 0 else 0)

/-! ### Accesses -/

/-- The pages' pieces of a run of bytes. -/
def pagePieces : Nat → Nat → Nat → List (Nat × Nat)
  | 0, _, _ => []
  | fuel + 1, va, n =>
    if n = 0 then []
    else
      let a := min n (4096 - va % 4096)
      (va, a) :: pagePieces fuel (va + a) (n - a)

/-- The pieces of a run. -/
def runPieces (va n : Nat) : List (Nat × Nat) := pagePieces (n / 4096 + 2) va n

/-- The fault of an engine's access: its kind, address and access. -/
abbrev EngFault := FaultKind × Nat × Acc

/-- Whether a target denies a unit's access: peer memory but to a `COPY`, the windows of a peer, an own launch window but to a store, and
every window to an atomic (spec/15 R322). -/
def targetDenies (copy : Bool) (tgt : Nat) (acc : Acc) : Bool :=
  match tgt with
  | 0 | 1 => false
  | 2 => !copy || acc == .atomic
  | 5 => acc == .atomic
  | 6 => acc != .write
  | _ => true

/-- The pieces of an engine's access translated and checked (spec/19 R407, spec/08 R176), through the shared TLB of its die. -/
def engTrans (s : State) (c : EngCmd) (acc : Acc) : List (Nat × Nat) → Except EngFault (List (Nat × Trans))
  | [] => .ok []
  | (x, n) :: r =>
    match unitTranslate s (clusterDie c.cluster) c.ctx x n acc with
    | .error k => .error (k, x, acc)
    | .ok t =>
      if targetDenies (isCopy c) (pteTgt t.pte) acc then .error (.access, x, acc)
      else match engTrans s c acc r with
        | .error f => .error f
        | .ok l => .ok ((x, t) :: l)

/-- One extent of an engine's access: its space (0 global, 1 team memory), its address, its length, its access. -/
structure Extent where
  space : Nat
  va    : Nat
  n     : Nat
  acc   : Acc
  deriving DecidableEq, Repr

/-- The translations of all extents of a unit, or its fault (spec/08 R176, spec/10 R208, spec/12 R275). -/
def engExtents (s : State) (c : EngCmd) : List Extent → Except EngFault (List (Nat × Trans))
  | [] => .ok []
  | e :: r =>
    match (if e.space = 0 then engTrans s c e.acc (runPieces e.va e.n) else .ok []) with
    | .error f => .error f
    | .ok l =>
      match engExtents s c r with
      | .error f => .error f
      | .ok l' => .ok (l ++ l')

/-- The team that a command's team address names (spec/11 R226, R227). -/
def cmdAddrTeam (s : State) (c : EngCmd) (va : Nat) : Option Team := (cmdTeam s c).bind (fun t => addrTeam s t va)

/-- Bytes that an engine reads in accesses of `size` bytes, and whether one is poisoned (spec/20 R444). Global reads are weak and served
at home; peer bytes come from the command's answered requests, of which one without data is poisoned. -/
def engRead (s : State) (c : EngCmd) (trs : List (Nat × Trans)) (space va n : Nat) (size : Nat := 0) : List Byte × Bool :=
  if space = 1 then
    match cmdAddrTeam s c va with
    | none => (List.replicate n memDefault, false)
    | some t =>
      let off := va % 2 ^ 28
      (sparseReadRun memDefault t.mem off n, t.poison.any (fun w => decide (off < 4 * w + 4) && decide (4 * w < off + n)))
  else
    (runPieces va n).foldl (fun (a : List Byte × Bool) r =>
      let p := partAt trs 0 r.1 r.2 0 0 0
      match p.tgt with
      | 1 => (a.1 ++ hostBytes s p.pa r.2, a.2)
      | 2 =>
        let b := ((c.far.find? (fun f => f.dev == p.dev && decide (f.pa ≤ p.pa) && decide (p.pa + r.2 ≤ f.pa + f.size))).map (fun f =>
          ((f.data.getD []).drop (p.pa - f.pa)).take r.2)).getD []
        (a.1 ++ b ++ List.replicate (r.2 - b.length) memDefault, a.2 || b.isEmpty)
      | 5 => (a.1 ++ windowBytes s c.ctx p.pa r.2 size, a.2)
      | _ => (a.1 ++ memBytes s p.pa r.2, a.2 || linePoison s p.pa r.2)) ([], false)

/-- A command's latest completion time raised. -/
def cmdGwct (s : State) (id gw : Nat) : State := updCmd s id (fun c => { c with gwct := max c.gwct gw })

/-- Bytes that an engine writes: weak stores whose completion times hold back the command's completion (spec/11 R251); a store to
a peer is a message that the peer acknowledges; a store to a window of the tenant's own is discarded and reported (spec/15 R326, spec/18
R386). -/
def engWrite (s : State) (c : EngCmd) (trs : List (Nat × Trans)) (space va : Nat) (b : List Byte) : State :=
  if space = 1 then
    match cmdAddrTeam s c va with
    | none => s
    | some t => teamWrite s t.ctx t.grid t.index (va % 2 ^ 28) b
  else
    (runPieces va b.length).foldl (fun s r =>
      let p := partAt trs 0 r.1 r.2 0 0 0
      let d := (b.drop (r.1 - va)).take r.2
      match p.tgt with
      | 1 => hostWriteAt s p.pa d
      | 2 =>
        let (id, s1) := newId s
        { updCmd s1 c.id (fun c => { c with acks := c.acks ++ [⟨id, p.dev, p.pa, r.2, some d⟩] }) with
          sent := s1.sent ++ [⟨p.dev, 0, id, c.id, [], .external, [(p.pa, r.2, d)], false⟩] }
      | 5 => nodeError s c.ctx (p.pa % 2 ^ 18 / 64) 4
      | 6 => refuse s c.ctx 7 0 0
      | _ =>
        let w := homeWrite s p.home p.pa d none
        cmdGwct w.1 c.id w.2) s

/-- The trace source of a command (spec/14 R310). -/
def cmdSource (c : EngCmd) : TraceSource := if isRow c then .row c.cluster else if isCopy c then .copy c.core else .matrix c.cluster

/-- A command that writes nothing more and completes with error status (spec/19 R414, spec/20 R431). -/
def failCmd (s : State) (id : Nat) : State := updCmd s id (fun c => { c with key := none, stage := .dropped true })

/-- A command whose access is denied ends with error status; a row command first writes its status word (spec/08 R179, spec/19 R414). -/
def denyCmd (s : State) (c : EngCmd) : State :=
  if isRow c && c.stage == .running then updCmd s c.id (fun c => { c with key := none, stage := .finished, err := true }) else failCmd s c.id

/-- Whether the walk to an address ends at an entry that the tenant's grants do not cover: its access fault is keyed by page (spec/19
R415). -/
def walkDenied (s : State) (die ctx va : Nat) : Bool :=
  match translateShared s die ctx va 99 with
  | .error .access => true
  | _ => false

/-- The wait table of a die has an entry for a unit's fault, with its turn (spec/20 R421, spec/18 R397); `me` finds the unit among those
that wait. -/
def waitRoom (s : State) (die ctx : Nat) (byPage : Bool) (page : Nat) (me : Waiter → Bool) : Bool :=
  (byPage && waitHas s die ctx true page) || (decide (waitCount s die < 4096) && slotTurn s 9999 (5000 + die) me)

/-- A unit entered into the list of those that wait for an entry of a wait table (spec/18 R397). -/
def joinTable (s : State) (w : Waiter) (me : Waiter → Bool) : State :=
  if s.waiters.any (fun x => x.queue == w.queue && me x) then s else { s with waiters := s.waiters ++ [w] }

/-- A unit out of that list. -/
def leaveTable (s : State) (die : Nat) (me : Waiter → Bool) : State :=
  { s with waiters := s.waiters.filter (fun x => !(x.queue == 5000 + die && me x)) }

/-- A unit of a command held on a translation fault: its record, its wait-table entry (spec/08 R176, spec/20 R421, R425, R426).
With the wait table full the unit stays where it is and waits for an entry. An access that its target denies fails the command (spec/19
R414); one whose walk is denied is a fault like any other (R415). -/
def engFault (s : State) (c : EngCmd) (f : EngFault) (half : Bool) : State :=
  let die := clusterDie c.cluster
  let byPage := faultByPage f.1
  let me := fun (w : Waiter) => w.cmd == c.id
  if f.1 = .access ∧ !(walkDenied s die c.ctx f.2.1) then denyCmd s c
  else if !(waitRoom s die c.ctx byPage (f.2.1 / 4096) me) then
    joinTable s ⟨5000 + die, c.core, c.slot, 0, c.pc, .waitSlot 1, c.id, none, s.clk⟩ me
  else
    let (key, s1) := if byPage then (f.2.1 / 4096, s) else newToken s die
    let s2 := leaveTable (joinWait s1 die c.ctx byPage key (.engine c.id)) die me
    let s3 := updCmd s2 c.id (fun c => { c with key := some (byPage, key) })
    postFault s3 c.ctx { blankRec s3 c.ctx (some c.grid) (cmdSource c) 1 (faultCode f.1) with
      addr := toDword f.2.1, pc := c.pc, token := toWord (if byPage then 0 else key), acc := accCode f.2.2, half := half, keyed := byPage,
      team := (match c.team with | some i => toWord i | none => 0xFFFFFFFF#32), detail := c.tl % 64 + c.unit % 2 ^ 40 * 256 }

/-- A unit's translations installed in the shared TLB of its die (spec/19 R407). -/
def engInstall (s : State) (c : EngCmd) (trs : List (Nat × Trans)) : State :=
  trs.foldl (fun s t => sharedInstall s (clusterDie c.cluster) c.ctx t.1 t.2) s

/-- A unit's reads of team memory see the stores in flight to it as they stand (spec/02 R31). -/
def engSeen (s : State) (c : EngCmd) (es : List Extent) : State :=
  es.foldl (fun s e =>
    if e.space = 1 ∧ e.acc = .read then
      (match cmdAddrTeam s c e.va with
       | none => s
       | some t => teamSeen s t.ctx t.grid t.index (e.va % 2 ^ 28) e.n)
    else s) s

/-- A unit of a command: translated whole before it writes anything, or held on its fault (spec/08 R176, spec/10 R208, spec/12
R275). -/
def engUnit (s : State) (c : EngCmd) (half : Bool) (es : List Extent) (k : List (Nat × Trans) → State → State) : State :=
  match engExtents s c es with
  | .error f => engFault s c f half
  | .ok trs => k trs (engSeen (engInstall (leaveTable s (clusterDie c.cluster) (fun w => w.cmd == c.id)) c trs) c es)

/-- Whether a command's engine holds a pass or a row for elements in its fast unit that find no room in the parking queue (spec/05 R109,
spec/09 R195). -/
def engineHeld (s : State) (c : EngCmd) : Bool :=
  !(isCopy c) && s.parkq.any (fun e => e.stage == 4 && e.cluster == c.cluster && decide (2 ≤ e.kind) && ((e.kind == 2) == isRow c))

/-- Whether the posting of a command has had time to reach its engine (spec/14 R308). -/
def cmdReached (s : State) (c : EngCmd) : Bool := decide (c.born + msgTicks 0 0 ≤ s.dtb)

/-- Whether a command at work waits for nothing before its next unit but perhaps for a save: no fault, no trace record (spec/14 R317), no
pass or row that the engine holds (spec/05 R109). -/
def unitClear (s : State) (c : EngCmd) : Bool :=
  c.key.isNone && c.stage == .running && !(unitTraceHeld s (cmdSource c)) && !(engineHeld s c)

/-- Whether a command waits for nothing before its next unit: no save holds it but that of a granted pass (spec/20 R446). -/
def unitFree (s : State) (c : EngCmd) : Bool := unitClear s c && (resident s c.ctx || c.kind == .mma || c.kind == .mmat)

/-! ### Results of a command -/

/-- Flags of a command's results, and its error. -/
def cmdFlags (s : State) (id : Nat) (f : Flags) (err : Bool) : State :=
  updCmd s id (fun c => { c with flags := c.flags ||| f, err := c.err || err })

/-- A gang's flags, wherever the gang is held: resident or saved (spec/08 R184, spec/10 R207). -/
def updGangAnywhere (s : State) (uid : Nat) (f : Gang → Gang) : State :=
  { s with
    gangs := s.gangs.map (fun g => if g.uid == uid then f g else g)
    saved := s.saved.map (fun v => { v with gangs := v.gangs.map (fun g => if g.uid == uid then f g else g) }) }

/-- Whether everything a command did has come to its end: its posting and its guard have reached the engine, no element of it waits, its writes' completion times have passed, its
messages to peers are acknowledged (spec/05 R115, spec/11 R251). -/
def cmdSettled (s : State) (c : EngCmd) : Bool :=
  cmdReached s c && s.parkq.all (fun e => e.cmd != c.id) && decide (c.gwct ≤ dieNow s (clusterDie c.cluster)) && c.acks.isEmpty

/-- A command completes: its timeline advances, `CMDDONE` is emitted, its queue entry frees (spec/11 R250, spec/14 R311). -/
def completeCmd (s : State) (c : EngCmd) (err dropped : Bool) : State :=
  let s1 := advanceTl s c.ctx c.grid c.tl err
  let v := (tlOf s1 c.ctx c.grid c.tl).1
  let s2 := emit s1 (cmdSource c) c.ctx 0x08 (cmdDonePayload c.tl v err dropped) (gridTag s c.ctx c.grid) none
  sampleHeads { s2 with cmds := s2.cmds.filter (fun x => x.id != c.id) }

/-- The first command of a queue's engine that passes a test. -/
def firstCmd (s : State) (p : EngCmd → Bool) : Option EngCmd := s.cmds.find? p

/-- An entry of the parking queue for an element of a command (spec/05 R107, R108). -/
def cmdPark (c : EngCmd) (kind tile elem : Nat) (f : FloatFmt) (opc parts : Nat) (payload place opnds : List Nat) (decider : Nat)
    (r near : FRes) : ParkEntry :=
  { cluster := c.cluster, seq := 0, stage := 0, kind := kind, ctx := c.ctx, core := c.core % 4, slot := c.slot, lane := 0, reg := 0,
    half := 0, tile := tile, elem := elem, rm := c.rm, fmt := fmtCode f, opc := opc, parts := parts, ptime := 0, since := 0, payload := payload, place := place,
    cmd := c.id, decider := decider, result := r.bits, flags := r.flags, opnds := opnds, near := near, soft := false }

/-- Whether an engine holds an entry of a command in its fast unit for want of room (spec/05 R109). -/
def heldEntries (s : State) (c : EngCmd) : Bool := s.parkq.any (fun e => e.cmd == c.id && e.stage == 4)

/-- The entries of an engine's escalating elements: those that find no room stay in the fast unit, and the engine holds (spec/05
R109). -/
def engPark (s : State) (es : List ParkEntry) : State := admitHeld (es.foldl parkEntry s)

end Sys2Proof.Machine
end

