-- ==== Sys2Proof/Machine/RowArith.lean ====
section
/-! DEFINITION. The arithmetic of the row engine (spec/08 R180 to R184): each result is the exact value, rounded once. -/

namespace Sys2Proof.Machine

/-! ### Approximations -/

/-- The exponential of a value that is not positive, in units of `2^-p`; 0 below the last place. -/
def expTerm (p : Nat) (d : Dyadic) : Int :=
  if fixOf 0 d.m d.e ≤ -(p : Int) then 0
  else
    let (v, k) := expFix p (fixOf p d.m d.e)
    if 0 ≤ k then v * 2 ^ k.toNat else v / 2 ^ (-k).toNat

/-- The greatest of a list of dyadics. -/
def dyMax (x : Dyadic) (l : List Dyadic) : Dyadic := l.foldl (fun a b => if dyLt a b then b else a) x

/-- The sum of the exponentials of values relative to their greatest, in units of `2^-p`. -/
def expSum (p : Nat) (top : Dyadic) (l : List Dyadic) : Int := sumInt (l.map (fun x => expTerm p (dyAdd x (dyNeg top))))

/-- The logarithm of a sum of exponentials (spec/08 R180). -/
def nearLse (p : Nat) (top : Dyadic) (l : List Dyadic) : Near :=
  ⟨fixOf p top.m top.e + lnFix p (expSum p top l).toNat (-(p : Int)), (l.length + 2) * nearErr, -(p : Int)⟩

/-- One entry of a soft maximum (spec/08 R181). -/
def nearSmx (p : Nat) (top : Dyadic) (l : List Dyadic) (x : Dyadic) : Near :=
  let d := dyAdd x (dyNeg top)
  if isLarge d.m d.e then farIn false
  else
    let (v, k) := expFix p (fixOf p d.m d.e)
    ⟨v * one p / expSum p top l, (l.length + 2) * (2 * nearErr), k - p⟩

/-- How far under the greatest entry of a row another lies whose exponential counts only as something above zero: even 65,536 of them
sum to less than `2^-farBits` beside the greatest. -/
def farGap : Int := -5200

/-- A power of two below every place that the rounding of a row's result distinguishes. -/
def farBits : Nat := 7400

/-- Whether every entry of a row but the greatest, which may occur several times, lies far under it. -/
def farRow (top : Dyadic) (l : List Dyadic) : Bool :=
  l.all (fun x => (!(dyLt x top) && !(dyLt top x)) || dyLt (dyAdd x (dyNeg top)) ⟨farGap, 0⟩)

/-- How often the greatest entry of a row occurs. -/
def topCount (top : Dyadic) (l : List Dyadic) : Nat := (l.filter (fun x => !(dyLt x top) && !(dyLt top x))).length

/-- An approximated value rounded; one that no precision decides is a free value (log entry 9). -/
def roundNearOr (code : Nat) (ops : List Nat) (f : FloatFmt) (rm : RMode) (near : Nat → Near) : FRes :=
  match decideNear f rm near nearSteps with
  | some r => r
  | none => ⟨Config.undecided code ops (rmodeCode rm) % 2 ^ f.width, flagNX⟩

/-! ### Row reductions -/

/-- The rounding of a quotient of a dyadic that is not zero by a positive dyadic. -/
def roundQuot (f : FloatFmt) (rm : RMode) (a b : Dyadic) : FRes :=
  roundExact f rm (divExact (decide (a.m < 0)) (f.fbits + 4) a.m.natAbs a.e b.m.natAbs b.e)

/-- The value of a row's greatest or least entry in the result's format (spec/08 R180). -/
def rowExtreme (src f : FloatFmt) (rm : RMode) (isMax : Bool) (l : List Nat) : FRes :=
  let r := fextremeBits src isMax l
  if (l.map (fdecode src)).any isNan then nanRes f r.flags else fconvert src f rm false r.bits

/-- `LSE` of a row (spec/08 R180). Where one entry dominates, the value lies just above it, on no rounding boundary. -/
def rowLse (src f : FloatFmt) (rm : RMode) (l : List Nat) : FRes :=
  let vs := l.map (fdecode src)
  let fin := (vs.filter (fun v => !(isInf v))).map fdy
  match fin with
  | [] => if vs.any (fun v => !(fneg v)) then ⟨fmtInf f false, flagNone⟩ else ⟨fmtInf f true, flagNone⟩
  | x :: xs =>
    if vs.any (fun v => isInf v && !(fneg v)) then ⟨fmtInf f false, flagNone⟩
    else if l.length = 1 then fconvert src f rm false (l.headD 0)
    else if xs.isEmpty then roundSum f rm x
    else
      let top := dyMax x xs
      if farRow top (x :: xs) && topCount top (x :: xs) == 1 then roundSum f rm (dyAdd top ⟨1, -(farBits : Int)⟩)
      else roundNearOr 131 l f rm (fun p => nearLse p top (x :: xs))

/-- `NORM` of a row (spec/08 R180). -/
def rowNorm (f : FloatFmt) (rm : RMode) (vs : List FVal) : FRes :=
  if vs.any isInf then ⟨fmtInf f false, flagNone⟩
  else
    let q := dySum (vs.map (fun v => dyMul (fdy v) (fdy v)))
    if q.m = 0 then ⟨0, flagNone⟩ else roundExact f rm (sqrtExact (f.fbits + 4) q.m.natAbs q.e)

/-- The result of a row reduction 0 to 4 (spec/08 R180). -/
def rowReduce (sub : Nat) (src f : FloatFmt) (rm : RMode) (l : List Nat) : FRes :=
  let vs := l.map (fdecode src)
  if vs.any isNan then nanRes f (flagIf (vs.any isSnan) flagNV)
  else
    match sub with
    | 0 => fsumVals f rm vs
    | 1 => rowExtreme src f rm true l
    | 2 => rowExtreme src f rm false l
    | 3 => rowLse src f rm l
    | _ => rowNorm f rm vs

/-- The contribution of a row to an AX128 cell (spec/08 R180, SUB 5). -/
def rowSquares (vs : List FVal) : FVal :=
  if vs.any isNan then .nan false
  else if vs.any isInf then .inf false
  else
    let q := dySum (vs.map (fun v => dyMul (fdy v) (fdy v)))
    .fin false q.m.natAbs q.e

/-- Whether a row's result is a special value that never escalates. -/
def rowPlain (vs : List FVal) : Bool := vs.any (fun v => isNan v || isInf v)

/-! ### Soft maximum -/

/-- What decides a row of `.smx` (spec/08 R181). -/
inductive SmxCase where
  | nanRow (snan : Bool)
  | emptyRow
  | infRow (k : Nat)
  | plain
  deriving DecidableEq, Repr

/-- The case of a row's admissible entries (spec/08 R181). -/
def smxCase (vs : List FVal) : SmxCase :=
  let top := (vs.filter (fun v => isInf v && !(fneg v))).length
  if vs.any isNan then .nanRow (vs.any isSnan)
  else if vs.all (fun v => isInf v && fneg v) then .emptyRow
  else if top != 0 then .infRow top
  else .plain

/-- The result of one admissible entry (spec/08 R181). `adm` holds the row's admissible encodings. Where all other entries lie far under
the greatest, its result lies just below 1/k, k the number of times it occurs. -/
def smxEntry (src f : FloatFmt) (rm : RMode) (adm : List Nat) (x : Nat) : FRes :=
  let vs := adm.map (fdecode src)
  let v := fdecode src x
  match smxCase vs with
  | .nanRow sn => nanRes f (flagIf sn flagNV)
  | .emptyRow => ⟨0, flagNone⟩
  | .infRow k => if isInf v && !(fneg v) then roundQuot f rm ⟨1, 0⟩ ⟨(k : Int), 0⟩ else ⟨0, flagNone⟩
  | .plain =>
    if isInf v then ⟨0, flagNone⟩
    else
      let fin := (vs.filter (fun u => !(isInf u))).map fdy
      let d := fdy v
      if fin.all (fun u => !(dyLt u d) && !(dyLt d u)) then roundQuot f rm ⟨1, 0⟩ ⟨(fin.length : Int), 0⟩
      else
        let top := dyMax d fin
        if farRow top fin && !(dyLt d top) then roundQuot f rm ⟨2 ^ farBits - 1, -(farBits : Int)⟩ ⟨(topCount top fin : Int), 0⟩
        else roundNearOr 132 (x :: adm) f rm (fun p => nearSmx p top fin d)

/-! ### Mean and variance -/

/-- The mean of a row (spec/08 R182). -/
def rowMean (f : FloatFmt) (rm : RMode) (vs : List FVal) : FRes :=
  let r := fsumVals f rm vs
  if rowPlain vs || vs.all isZero then r
  else
    let q := dySum (vs.map fdy)
    if q.m = 0 then r else roundQuot f rm q ⟨(vs.length : Int), 0⟩

/-- The population variance of a row (spec/08 R182). -/
def rowVar (f : FloatFmt) (rm : RMode) (vs : List FVal) : FRes :=
  if vs.any isNan then nanRes f (flagIf (vs.any isSnan) flagNV)
  else if vs.any isInf then nanRes f flagNV
  else
    let n : Int := (vs.length : Int)
    let q := dySum (vs.map fdy)
    let z := dyAdd (dyMul ⟨n, 0⟩ (dySum (vs.map (fun v => dyMul (fdy v) (fdy v))))) (dyNeg (dyMul q q))
    if z.m = 0 then ⟨0, flagNone⟩ else roundQuot f rm z ⟨n * n, 0⟩

/-! ### The optimiser update (spec/08 R183, R184) -/

/-- The hyper-parameters of an update, and S. -/
structure UpdParams where
  lr   : FVal
  b1   : FVal
  b2   : FVal
  eps  : FVal
  wd   : FVal
  c1   : FVal
  c2   : FVal
  clip : FVal
  sq   : FVal
  deriving DecidableEq, Repr

/-- Whether a value is finite. -/
def isFin (v : FVal) : Bool := !(isNan v) && !(isInf v)

/-- Whether a hyper-parameter record is one that the engine accepts (spec/08 R183). A CLIP of -0 is taken as no clipping: whether it counts
as below +0 is not stated (DESIGN CHOICE, log entry 91). -/
def updAccepts (u : UpdParams) : Bool :=
  [u.lr, u.b1, u.b2, u.eps, u.wd, u.c1, u.c2, u.clip].all isFin && !(fneg u.clip && !(isZero u.clip)) &&
  (isFinNz u.eps && !(fneg u.eps)) && (isZero u.clip || (isFin u.sq && (isZero u.sq || !(fneg u.sq))))

/-- The root of a dyadic that is not negative, where it is itself dyadic. -/
def dyRoot (d : Dyadic) : Option Dyadic :=
  let odd := d.e % 2 == 1
  let m := if odd then 2 * d.m.natAbs else d.m.natAbs
  let r := isqrt m
  if r * r = m then some ⟨r, (if odd then d.e - 1 else d.e) / 2⟩ else none

/-- `c / √q` in units of `2^-p`, `q` positive. -/
def overRoot (p : Nat) (c q : Dyadic) : Int :=
  let odd := q.e % 2 == 1
  let m := if odd then 2 * q.m.natAbs else q.m.natAbs
  let e := c.e - (if odd then q.e - 1 else q.e) / 2 + p
  let j := p + 1200
  let root := isqrt (m <<< (2 * j))
  let t := if 0 ≤ e then (c.m.natAbs <<< (j + e.toNat)) / root else (c.m.natAbs <<< j) / (root <<< (-e).toNat)
  if c.m < 0 then -(t : Int) else t

/-- `√q` in units of `2^-p`. -/
def rootFix (p : Nat) (q : Dyadic) : Int :=
  let odd := q.e % 2 == 1
  let m := if odd then 2 * q.m.natAbs else q.m.natAbs
  let e := (if odd then q.e - 1 else q.e) / 2 + p
  let j := p + 1200
  let t := isqrt (m <<< (2 * j))
  if 0 ≤ e then ((t <<< e.toNat) >>> j : Nat) else ((t >>> (-e).toNat) >>> j : Nat)

/-- The complement `1 - b`, with the sign that an exact zero takes. -/
def oneMinus (rm : RMode) (b : FVal) : Dyadic × Bool :=
  let d := dyAdd ⟨1, 0⟩ (dyNeg (fdy b))
  (d, if d.m = 0 then rm == .rdn else decide (d.m < 0))

/-- A sum of terms rounded: where all are zeros, by their signs (spec/04 R98). -/
def roundTerms (f : FloatFmt) (rm : RMode) (ts : List (Dyadic × Bool)) : FRes :=
  if ts.all (fun t => t.1.m == 0) then ⟨fmtSign f (zeroSumNeg rm (ts.map (·.2))), flagNone⟩
  else roundSum f rm (dySum (ts.map (·.1)))

/-- Whether the gradient is clipped: CLIP is not 0 and √S exceeds it (spec/08 R184). -/
def updClips (u : UpdParams) : Bool := !(isZero u.clip) && dyLt (dyMul (fdy u.clip) (fdy u.clip)) (fdy u.sq)

/-- The first moment (spec/08 R184). -/
def updM (rm : RMode) (u : UpdParams) (m g : FVal) : FRes :=
  let (k, kn) := oneMinus rm u.b1
  let a := dyMul (fdy u.b1) (fdy m)
  let b := dyMul k (fdy g)
  let ts := [(a, xor (fneg u.b1) (fneg m)), (b, xor kn (fneg g))]
  if !(updClips u) || b.m == 0 then roundTerms fmt32 rm ts
  else
    let c := dyMul b (fdy u.clip)
    match dyRoot (fdy u.sq) with
    | some r =>
      let n := dyAdd (dyMul a r) c
      if n.m = 0 then roundSum fmt32 rm n else roundQuot fmt32 rm n r
    | none => roundNearOr 133 [] fmt32 rm (fun p => ⟨fixOf p a.m a.e + overRoot p c (fdy u.sq), nearErr, -(p : Int)⟩)

/-- The second moment (spec/08 R184). -/
def updV (rm : RMode) (u : UpdParams) (v g : FVal) : FRes :=
  let (k, kn) := oneMinus rm u.b2
  let a := dyMul (fdy u.b2) (fdy v)
  let b := dyMul k (dyMul (fdy g) (fdy g))
  let ts := [(a, xor (fneg u.b2) (fneg v)), (b, kn)]
  if !(updClips u) || b.m == 0 then roundTerms fmt32 rm ts
  else
    let n := dyAdd (dyMul a (fdy u.sq)) (dyMul b (dyMul (fdy u.clip) (fdy u.clip)))
    if n.m = 0 then roundSum fmt32 rm n else roundQuot fmt32 rm n (fdy u.sq)

/-- The weight (spec/08 R184), from the rounded moments. No value is stated where a moment has overflowed or the root's operand
is negative: the result is a free value (DESIGN CHOICE, log entry 18). -/
def updW (rm : RMode) (u : UpdParams) (w : FVal) (m v : Nat) : FRes :=
  let m' := fdecode fmt32 m
  let v' := fdecode fmt32 v
  let q := dyMul (fdy u.c2) (fdy v')
  if !(isFin m') || !(isFin v') || decide (q.m < 0) then
    ⟨Config.undecided 134 [m, v] (rmodeCode rm) % 2 ^ 32, BitVec.ofNat 5 (Config.undecided 135 [m, v] (rmodeCode rm))⟩
  else
    let lw := dyMul (fdy u.lr) (dyMul (fdy u.wd) (fdy w))
    let a := dyAdd (fdy w) (dyNeg lw)
    let b := dyMul (fdy u.lr) (dyMul (fdy u.c1) (fdy m'))
    let s1 := !(xor (fneg u.lr) (xor (fneg u.c1) (fneg m')))
    let s2 := !(xor (fneg u.lr) (xor (fneg u.wd) (fneg w)))
    if b.m = 0 then roundTerms fmt32 rm [(fdy w, fneg w), (b, s1), (dyNeg lw, s2)]
    else
      match dyRoot q with
      | some r =>
        let den := dyAdd r (fdy u.eps)
        let n := dyAdd (dyMul a den) (dyNeg b)
        if n.m = 0 then roundSum fmt32 rm n else roundQuot fmt32 rm n den
      | none =>
        roundNearOr 136 [m, v] fmt32 rm (fun p =>
          let x := p + 1200
          let den := rootFix x q + fixOf x (fdy u.eps).m (fdy u.eps).e
          let t := fixOf (2 * x) b.m b.e / den
          ⟨(fixOf x a.m a.e - t) / one 1200, nearErr, -(p : Int)⟩)

/-- Whether an element of an update is skipped (spec/08 R184). -/
def updSkips (w m v g : FVal) : Bool := !(isFin g) || !(isFin w) || !(isFin m) || !(isFin v) || (isFinNz v && fneg v)

end Sys2Proof.Machine
end

