-- ==== Sys2Proof/Machine/Row.lean ====
section
/-! DEFINITION. The row engine (spec/08 R169 to R184): the posting of `ROWOP`, its chunks, its results and its status word. -/

namespace Sys2Proof.Machine

/-! ### The operand blocks (spec/08 R171, R172) -/

/-- The function of a row command: 0 `.red`, 1 `.smx`, 2 `.stat`, 3 `.upd`. -/
def rowFn (c : EngCmd) : Nat := match c.kind with | .row f => f | _ => 0

/-- `ROWW` (spec/08 R172). -/
def rowW (c : EngCmd) : Nat := blockPair c 0
/-- Rows. -/
def rowRows (c : EngCmd) : Nat := bitsOf (rowW c) 63 48 + 1
/-- Elements per row. -/
def rowLen (c : EngCmd) : Nat := bitsOf (rowW c) 47 32 + 1
/-- Source space. -/
def rowSsp (c : EngCmd) : Nat := bitsOf (rowW c) 31 30
/-- Destination space. -/
def rowDsp (c : EngCmd) : Nat := bitsOf (rowW c) 29 28
/-- Source element type. -/
def rowStype (c : EngCmd) : Nat := bitsOf (rowW c) 27 26
/-- Result type. -/
def rowDtype (c : EngCmd) : Nat := bitsOf (rowW c) 25 24
/-- Sub-operation. -/
def rowSub (c : EngCmd) : Nat := bitsOf (rowW c) 23 20
/-- MASK. -/
def rowMasked (c : EngCmd) : Bool := bitOf (rowW c) 19
/-- SAT. -/
def rowSat (c : EngCmd) : Bool := bitOf (rowW c) 18
/-- ARG. -/
def rowArg (c : EngCmd) : Nat := bitsOf (rowW c) 11 0
/-- `SRC`. -/
def rowSrc (c : EngCmd) : Nat := blockPair c 1
/-- `PITCH`. -/
def rowPitch (c : EngCmd) : Nat := blockPair c 2
/-- `MASK`. -/
def rowMask (c : EngCmd) : Nat := blockPair c 3
/-- `DST`. -/
def rowDst (c : EngCmd) : Nat := blockPair c 4
/-- `DPITCH`. -/
def rowDpitch (c : EngCmd) : Nat := blockPair c 5
/-- `AUX`. -/
def rowAux (c : EngCmd) : Nat := blockPair c 6
/-- `STATUS`. -/
def rowStatus (c : EngCmd) : Nat := blockPair c 7

/-- The format of a type code (spec/08 R172). -/
def rowFmt (n : Nat) : FloatFmt :=
  match n with
  | 0 => fmt32
  | 1 => fmt64
  | 2 => fmt16
  | _ => fmtB16

/-- The bytes of an element of a type. -/
def rowSize (n : Nat) : Nat := (rowFmt n).width / 8

/-- Whether a command adds into AX128 cells. -/
def rowSsq (c : EngCmd) : Bool := rowFn c == 0 && rowSub c == 5

/-- The bytes of a result: 16 for a cell. -/
def rowDsize (c : EngCmd) : Nat := if rowSsq c then 16 else rowSize (rowDtype c)

/-- Whether a command writes one result per row. -/
def rowPerRow (c : EngCmd) : Bool := rowFn c == 0 || rowFn c == 2

/-! ### Checks at issue (spec/08 R173) -/

/-- Whether the fields of `ROWW` are ones that the operation allows. `sub` is the sub-operation that `.red` names. -/
def rowFields (c : EngCmd) (sub : Nat) : Bool :=
  let fn := rowFn c
  decide (rowSsp c ≤ 1) && decide (rowDsp c ≤ 1) && (if fn = 0 then rowSub c == sub else rowSub c == 0) &&
  (fn == 1 || !(rowMasked c)) && (rowSsq c || !(rowSat c)) &&
  (if rowSsq c then rowDtype c == 0 && rowDsp c == 0
   else if fn = 3 then rowArg c / 256 == 0 && rowStype c != 1 && rowDtype c == 0 && rowSsp c == 0 && rowDsp c == 0
   else rowArg c == 0)

/-- Whether addresses and pitches are multiples of the element sizes. The pairs `MASK` and `AUX` of an operation that does not use them are
not looked at: no outcome is stated where they are not 0 (DESIGN CHOICE, log entry 89). -/
def rowAligned (c : EngCmd) : Bool :=
  let ss := rowSize (rowStype c)
  let ds := rowDsize c
  rowSrc c % ss == 0 && bitsOf (rowPitch c) 31 0 % ss == 0 && rowDst c % ds == 0 && bitsOf (rowDpitch c) 31 0 % ds == 0 &&
  bitsOf (rowDpitch c) 63 32 == 0 && (rowFn c != 2 || rowAux c % ds == 0) && (rowFn c != 3 || rowAux c % 64 == 0) &&
  rowStatus c % 16 == 0

/-- The last byte of a run of rows. -/
def rowsSpan (n pitch len : Nat) : Nat := (n - 1) * pitch + len

/-- The extents of a command that lie in team memory. -/
def rowTeamExtents (c : EngCmd) : List (Nat × Nat) :=
  let n := rowRows c
  (if rowSsp c = 1 then
    (rowSrc c, rowsSpan n (bitsOf (rowPitch c) 31 0) (rowLen c * rowSize (rowStype c))) ::
      (if rowMasked c then [(rowMask c, rowsSpan n (bitsOf (rowPitch c) 63 32) (ceilDiv (rowLen c) 8))] else [])
   else []) ++
  (if rowDsp c = 1 then
    (rowDst c, if rowPerRow c then n * rowDsize c else rowsSpan n (bitsOf (rowDpitch c) 31 0) (rowLen c * rowDsize c)) ::
      (if rowFn c = 2 then [(rowAux c, n * rowDsize c)] else [])
   else [])

/-- Whether an extent lies in the declared team memory of a team of the crew (spec/11 R227). -/
def teamExtentOk (s : State) (g : Gang) (va n : Nat) : Bool :=
  match gangTeam s g, gangKernel s g with
  | some t, some k => decide (va < 2 ^ 32) && (addrTeam s t va).isSome && decide (va % 2 ^ 28 + n ≤ k.tmem)
  | _, _ => false

/-- What the checks of a posting answer. -/
inductive PostCheck where
  | ok
  | trap (code : Nat) (addr : Nat) (info : Word)
  | freeThread (addr : Nat) (acc : Acc)
  deriving DecidableEq, Repr

/-- The checks of a row command at issue (spec/08 R173). Of a reserved field and an illegal encoding in one command the reserved field traps
(the model's choice, log entry 106). -/
def rowCheck (s : State) (g : Gang) (c : EngCmd) (sub : Nat) : PostCheck :=
  let team := rowTeamExtents c
  if bitsOf (rowW c) 17 12 ≠ 0 then .trap 0x02 0 s.cur.first
  else if !(rowFields c sub) || !(rowAligned c) then .trap 0x01 0 s.cur.first
  else if g.team.isNone then
    (match team with
     | (va, _) :: _ => if team.all (fun e => decide (e.1 < 2 ^ 32)) then .freeThread va (if rowSsp c = 1 then .read else .write) else .trap 0x01 0 s.cur.first
     | [] => if guardForeign s g then .freeThread 0 .read else .ok)
  else if team.all (fun e => teamExtentOk s g e.1 e.2) then .ok else .trap 0x01 0 s.cur.first

/-- A posting after its checks: a trap or a fault acts for every thread of the path. -/
def checkedPost (chk : PostCheck) (k : State → State) (s : State) : State :=
  match chk with
  | .ok => k s
  | .trap code addr info => trapPath s code addr info
  | .freeThread addr acc => deliverCur (faultCur s .freeThread addr acc)

/-- `ROWOP` (spec/08 R169 to R175). -/
def rowopOp (fn sub : Nat) (t : BitVec 6) (q p : BitVec 8) (m : Bool) (s : State) : State :=
  let regs := rangeFrom (2 * p.toNat) 8 ++ rangeFrom (2 * q.toNat) 8
  uniRaw m regs (fun g s =>
    let c := makeCmd s g (.row fn) t.toNat regs 0
    checkedPost (rowCheck s g c sub) (postCmd m 1 (.row fn) t.toNat regs (fun c s =>
      queueCmd { c with units := rowRows c * ceilDiv (rowLen c) 256, aux := [0, 0, 0, 0] } s)) s) s

/-- `ROWOP.red` SUM (spec/08 R180). -/
def execRowopRedSum (t : BitVec 6) (q p : BitVec 8) (m : Bool) (s : State) : Res := .next (rowopOp 0 0 t q p m s)
/-- `ROWOP.red` MAX (spec/08 R180). -/
def execRowopRedMax (t : BitVec 6) (q p : BitVec 8) (m : Bool) (s : State) : Res := .next (rowopOp 0 1 t q p m s)
/-- `ROWOP.red` MIN (spec/08 R180). -/
def execRowopRedMin (t : BitVec 6) (q p : BitVec 8) (m : Bool) (s : State) : Res := .next (rowopOp 0 2 t q p m s)
/-- `ROWOP.red` LSE (spec/08 R180). -/
def execRowopRedLse (t : BitVec 6) (q p : BitVec 8) (m : Bool) (s : State) : Res := .next (rowopOp 0 3 t q p m s)
/-- `ROWOP.red` NORM (spec/08 R180). -/
def execRowopRedNorm (t : BitVec 6) (q p : BitVec 8) (m : Bool) (s : State) : Res := .next (rowopOp 0 4 t q p m s)
/-- `ROWOP.red` SSQ (spec/08 R180). -/
def execRowopRedSsq (t : BitVec 6) (q p : BitVec 8) (m : Bool) (s : State) : Res := .next (rowopOp 0 5 t q p m s)
/-- `ROWOP.smx` (spec/08 R181). -/
def execRowopSmx (t : BitVec 6) (q p : BitVec 8) (m : Bool) (s : State) : Res := .next (rowopOp 1 0 t q p m s)
/-- `ROWOP.stat` (spec/08 R182). -/
def execRowopStat (t : BitVec 6) (q p : BitVec 8) (m : Bool) (s : State) : Res := .next (rowopOp 2 0 t q p m s)
/-- `ROWOP.upd` (spec/08 R183). -/
def execRowopUpd (t : BitVec 6) (q p : BitVec 8) (m : Bool) (s : State) : Res := .next (rowopOp 3 0 t q p m s)

/-! ### Rows -/

/-- The bytes of a row of `n` elements from element `j` on, read as elements, and whether one is poisoned. -/
def readElems (s : State) (c : EngCmd) (trs : List (Nat × Trans)) (space va size n : Nat) : List Nat × Bool :=
  let r := engRead s c trs space va (n * size) size
  ((chunksOf size (n + 1) r.1).map ofBytes, r.2)

/-- The address of row `i` of the source. -/
def rowAddr (c : EngCmd) (i : Nat) : Nat := rowSrc c + i * bitsOf (rowPitch c) 31 0

/-- The hyper-parameter record and S that an update has read (spec/08 R183). -/
def updRec (c : EngCmd) : Nat := c.aux.getD 5 0

/-- The hyper-parameters of an update (spec/08 R183). -/
def updParams (c : EngCmd) : UpdParams :=
  let f := fun (lo : Nat) => fdecode fmt32 (bitsOf (updRec c) (lo + 31) lo)
  ⟨f 0, f 32, f 64, f 96, f 128, f 160, f 192, f 224, fdecode fmt64 (c.aux.getD 4 0)⟩

/-- The first rows of the moments (spec/08 R183). -/
def updBases (c : EngCmd) : Nat × Nat := (bitsOf (updRec c) 511 448, bitsOf (updRec c) 447 384)

/-- What the engine holds of a row: its elements from `from_` on, its mask bits, the weights and moments of an update, and what
is poisoned. -/
structure RowData where
  base   : Nat
  xs     : List Nat
  mask   : List Bool
  ws     : List Nat
  ms     : List Nat
  vs     : List Nat
  poison : Bool
  deriving DecidableEq, Repr

/-- A row, or the part of an update's row, as the engine reads it. What a mask excludes is not read for its value, poisoned or not (spec/08
R181). -/
def rowRead (s : State) (c : EngCmd) (trs : List (Nat × Trans)) (row j n : Nat) : RowData :=
  let ss := rowSize (rowStype c)
  let x := readElems s c trs (rowSsp c) (rowAddr c row + j * ss) ss n
  let mb := if rowMasked c then
      engRead s c trs (rowSsp c) (rowMask c + row * bitsOf (rowPitch c) 63 32) (ceilDiv (rowLen c) 8)
    else ([], false)
  let mask := (rangeFrom 0 n).map (fun k => ((mb.1.getD (k / 8) 0).getLsbD (k % 8)))
  if rowFn c = 3 then
    let off := row * bitsOf (rowDpitch c) 31 0 + 4 * j
    let w := readElems s c trs 0 (rowDst c + off) 4 n
    let m := readElems s c trs 0 ((updBases c).1 + off) 4 n
    let v := readElems s c trs 0 ((updBases c).2 + off) 4 n
    ⟨j, x.1, mask, w.1, m.1, v.1, x.2 || w.2 || m.2 || v.2⟩
  else
    let used := fun (k : Nat) => !(mask.getD k false) && (readElems s c trs (rowSsp c) (rowAddr c row + (j + k) * ss) ss 1).2
    ⟨j, x.1, mask, [], [], [], mb.2 || (x.2 && (!(rowMasked c) || (rangeFrom 0 n).any used))⟩

/-- One result: where it goes, its format and its value. -/
structure RowRes where
  space : Nat
  va    : Nat
  fmt   : FloatFmt
  res   : FRes
  deriving DecidableEq, Repr

/-- One element's results: they are written together. -/
structure RowItem where
  elem  : Nat
  sub   : Nat
  outs  : List RowRes
  plain : Bool
  deriving DecidableEq, Repr

/-- The element index of a whole-row result (spec/05 R108). -/
def wholeRow : Nat := 2 ^ 64 - 1

/-- Result `k` of a row: of `.red` and `.stat` the result of number `k`, of `.smx` and `.upd` that of element `k`. A skipped
element of an update has none. -/
def rowItem (c : EngCmd) (row : Nat) (d : RowData) (k : Nat) : RowItem :=
  let src := rowFmt (rowStype c)
  let f := rowFmt (rowDtype c)
  let vs := d.xs.map (fdecode src)
  let nan : FRes := nanRes f flagNone
  match rowFn c with
  | 0 => ⟨wholeRow, 0, [⟨rowDsp c, rowDst c + row * rowDsize c, f, if d.poison then nan else rowReduce (rowSub c) src f c.rm d.xs⟩],
      d.poison || rowPlain vs⟩
  | 1 =>
    let adm := ((d.xs.zip d.mask).filter (fun x => !x.2)).map (·.1)
    let r := if d.poison then nan
      else if d.mask.getD k false then (match smxCase (adm.map (fdecode src)) with
        | .nanRow sn => nanRes f (flagIf sn flagNV)
        | _ => ⟨0, flagNone⟩)
      else smxEntry src f c.rm adm (d.xs.getD k 0)
    ⟨k, 0, [⟨rowDsp c, rowDst c + row * bitsOf (rowDpitch c) 31 0 + k * rowDsize c, f, r⟩],
      d.poison || d.mask.getD k false || smxCase (adm.map (fdecode src)) != .plain⟩
  | 2 => ⟨wholeRow, k, [⟨rowDsp c, (if k = 0 then rowDst c else rowAux c) + row * rowDsize c, f,
      if d.poison then nan else if k = 0 then rowMean f c.rm vs else rowVar f c.rm vs⟩], d.poison || rowPlain vs⟩
  | _ =>
    let i := k - d.base
    let u := updParams c
    let w := fdecode fmt32 (d.ws.getD i 0)
    let m := fdecode fmt32 (d.ms.getD i 0)
    let v := fdecode fmt32 (d.vs.getD i 0)
    let g := vs.getD i (.nan false)
    let off := row * bitsOf (rowDpitch c) 31 0 + 4 * k
    if d.poison then
      ⟨k, 0, [⟨0, rowDst c + off, fmt32, nan⟩, ⟨0, (updBases c).1 + off, fmt32, nan⟩, ⟨0, (updBases c).2 + off, fmt32, nan⟩], true⟩
    else if updSkips w m v g then ⟨k, 0, [], true⟩
    else
      let m' := updM c.rm u m g
      let v' := updV c.rm u v g
      let w' := updW c.rm u w m'.bits v'.bits
      ⟨k, 0, [⟨0, rowDst c + off, fmt32, w'⟩, ⟨0, (updBases c).1 + off, fmt32, m'⟩, ⟨0, (updBases c).2 + off, fmt32, v'⟩], false⟩

/-- The operands of an element: the row that a reduction or statistic takes; of a soft maximum the entry and the row's admissible ones; of
an update the element's own four values, the hyper-parameters and S (spec/05 R104). -/
def itemOperands (c : EngCmd) (d : RowData) (x : RowItem) : List Nat :=
  let k := x.elem - d.base
  match rowFn c with
  | 1 => d.xs.getD k 0 :: ((d.xs.zip d.mask).filter (fun y => !y.2)).map (·.1)
  | 3 => [d.xs.getD k 0, d.ws.getD k 0, d.ms.getD k 0, d.vs.getD k 0, updRec c % 2 ^ 256, c.aux.getD 4 0]
  | _ => d.xs

/-- What an element's approximation and stage depend on, beside its destination format: the operation and its operands (spec/05 R104). -/
def itemInputs (c : EngCmd) (d : RowData) (x : RowItem) : List Nat := [rowSub c, x.sub, rowStype c] ++ itemOperands c d x

/-- The stage that decides an element's results: fixed by the operation, its operands and its destination format (spec/05 R104). -/
def itemStage (c : EngCmd) (d : RowData) (x : RowItem) : Nat := if x.plain then 0 else stageOf (128 + rowFn c) (itemInputs c d x) (rowDtype c)

/-- The bytes of a result. -/
def resBytes (r : RowRes) : List Byte := toBytes (r.fmt.width / 8) r.res.bits

/-! ### Chunks (spec/08 R176) -/

/-- The chunks of a row. -/
def rowChunks (c : EngCmd) : Nat := ceilDiv (rowLen c) 256

/-- The row, the first element and the length of a command's next chunk. -/
def chunkAt (c : EngCmd) : Nat × Nat × Nat :=
  let n := rowChunks c
  let j := c.unit % n * 256
  (c.unit / n, j, min 256 (rowLen c - j))

/-- What a chunk reads and writes. A chunk that ends a row, or the first of a soft maximum, touches the whole row. -/
def chunkExtents (c : EngCmd) : List Extent :=
  let (row, j, n) := chunkAt c
  let ss := rowSize (rowStype c)
  let last := decide (j + n = rowLen c)
  let doff := row * bitsOf (rowDpitch c) 31 0
  let whole := [(⟨rowSsp c, rowAddr c row, rowLen c * ss, .read⟩ : Extent)] ++
    (if rowMasked c then [⟨rowSsp c, rowMask c + row * bitsOf (rowPitch c) 63 32, ceilDiv (rowLen c) 8, .read⟩] else [])
  match rowFn c with
  | 0 =>
    if last then whole ++ [⟨rowDsp c, rowDst c + row * rowDsize c, rowDsize c, if rowSsq c then .atomic else .write⟩]
    else [⟨rowSsp c, rowAddr c row + j * ss, n * ss, .read⟩]
  | 1 => whole ++ [⟨rowDsp c, rowDst c + doff + j * rowDsize c, n * rowDsize c, .write⟩]
  | 2 =>
    if last then whole ++ [⟨rowDsp c, rowDst c + row * rowDsize c, rowDsize c, .write⟩, ⟨rowDsp c, rowAux c + row * rowDsize c, rowDsize c, .write⟩]
    else [⟨rowSsp c, rowAddr c row + j * ss, n * ss, .read⟩]
  | _ =>
    ⟨0, rowAddr c row + j * ss, n * ss, .read⟩ ::
      ([rowDst c, (updBases c).1, (updBases c).2].flatMap (fun b =>
        [(⟨0, b + doff + 4 * j, 4 * n, .read⟩ : Extent), ⟨0, b + doff + 4 * j, 4 * n, .write⟩]))

/-- The elements whose results a chunk determines. -/
def chunkKeys (c : EngCmd) : List Nat :=
  let (_, j, n) := chunkAt c
  let last := decide (j + n = rowLen c)
  match rowFn c with
  | 0 => if last then [0] else []
  | 2 => if last then [0, 1] else []
  | _ => rangeFrom j n

/-- The data that a chunk's results depend on, each with its element: an update's poison is that of the element alone. -/
def chunkItems (s : State) (c : EngCmd) (trs : List (Nat × Trans)) : List (RowData × RowItem) :=
  let (row, j, n) := chunkAt c
  if rowFn c = 3 then
    let d := rowRead s c trs row j n
    (rangeFrom j n).map (fun k =>
      let d' := if d.poison then rowRead s c trs row k 1 else d
      (d', rowItem c row d' k))
  else
    let d := rowRead s c trs row 0 (rowLen c)
    (chunkKeys c).map (fun k => (d, rowItem c row d k))

/-- What a chunk adds to the counts of the status word: NANR, EMPTYC, NFC (spec/08 R179). A `SUM` row that is NaN because +inf meets -inf
is not counted in NANR: R179 counts rows with a NaN entry, R180 rows whose result is NaN (DESIGN CHOICE, log entry 90). -/
def chunkCounts (c : EngCmd) (items : List (RowData × RowItem)) : Nat × Nat × Nat :=
  let src := rowFmt (rowStype c)
  match rowFn c, items with
  | 3, l => (0, 0, (l.filter (fun x => x.2.outs.isEmpty)).length)
  | 1, (d, x) :: _ =>
    let vs := (((d.xs.zip d.mask).filter (fun x => !x.2)).map (·.1)).map (fdecode src)
    if x.elem ≠ 0 ∨ d.poison then (0, 0, 0)
    else match smxCase vs with
      | .nanRow _ => (1, 0, 0)
      | .emptyRow => (0, 1, 0)
      | _ => (0, 0, 0)
  | _, (d, _) :: _ => (bitNat (!d.poison && (d.xs.map (fdecode src)).any isNan), 0, 0)
  | _, [] => (0, 0, 0)

/-- The counts of a command raised. -/
def addCounts (n : Nat × Nat × Nat) (ovf : Bool) (c : EngCmd) : EngCmd :=
  let a := fun (i : Nat) => c.aux.getD i 0
  { c with aux := [a 0 + n.1, a 1 + n.2.1, a 2 + n.2.2, if ovf then 1 else a 3] ++ c.aux.drop 4 }

/-- A row's squares added into its cell, at the cell's home slice (spec/08 R180). A poisoned source or cell leaves the cell as it was, with
error status: the NaN that R444 puts in place of a result is none of a cell (the model's choice, log entry 107). -/
def addSquares (c : EngCmd) (trs : List (Nat × Trans)) (row : Nat) (s : State) : State :=
  let d := rowRead s c trs row 0 (rowLen c)
  let va := rowDst c + 16 * row
  let old := engRead s c trs 0 va 16
  if d.poison || old.2 then cmdFlags s c.id flagNone true
  else
    let r := axAdd (signedOf 12 (rowArg c)) (rowSat c) (signedOf 128 (ofBytes old.1)) (rowSquares (d.xs.map (fdecode (rowFmt (rowStype c)))))
    let s1 := if r.n = signedOf 128 (ofBytes old.1) then s else engWrite s c trs 0 va (toBytes 16 (wrap 128 r.n))
    let s2 := if r.lost then updGangAnywhere s1 c.gang (fun g => gangLose g 1) else s1
    let s3 := cmdFlags s2 c.id r.flags r.trap
    updCmd s3 c.id (addCounts (0, 0, 0) (r.trap || (r.flags &&& flagOF) != flagNone))

/-- Where the bytes of a result lie: pieces of memory, or a place in team memory (target 9). -/
def resPlaces (s : State) (c : EngCmd) (trs : List (Nat × Trans)) (r : RowRes) : List LanePart :=
  let n := r.fmt.width / 8
  if r.space = 1 then
    (match cmdAddrTeam s c r.va with
     | none => []
     | some t => [⟨0, r.va, r.va % 2 ^ 28, 0, 9, t.index, n, 0, 0, 0, 0⟩])
  else [partAt trs 0 r.va n 0 0 0]

/-- What the parking entry of an element captures: the command, the row, the element (spec/05 R108). -/
def itemPayload (c : EngCmd) (row : Nat) (x : RowItem) : List Nat := [c.id, row, x.elem]

/-- Where an element's results go: the number of its result, then for each result its place and the bits computed (the model's own). -/
def itemPlace (s : State) (c : EngCmd) (trs : List (Nat × Trans)) (x : RowItem) : List Nat :=
  x.sub :: x.outs.flatMap (fun r =>
    (resPlaces s c trs r).flatMap (fun p => [p.tgt, p.home, p.pa, p.dev, p.size, r.res.bits]))

/-- The writes that an entry's place describes. -/
def placeWrites : List Nat → List (LanePart × Nat)
  | tgt :: home :: pa :: dev :: size :: bits :: r => (⟨0, 0, pa, home, tgt, dev, size, 0, 0, 0, 0⟩, bits) :: placeWrites r
  | _ => []

/-- The writes of an element of a row that waits in the parking queue. -/
def entryWrites (e : ParkEntry) : List (LanePart × Nat) := placeWrites (e.place.drop 1)

/-- Whether two places have a byte in common. -/
def placesMeet (p q : LanePart) : Bool := p.tgt == q.tgt && p.dev == q.dev && decide (p.pa < q.pa + q.size) && decide (q.pa < p.pa + p.size)

/-- The places that elements of the cluster's earlier commands have still to write (spec/08 R169, R178). -/
def earlierPlaces (s : State) (c : EngCmd) : List LanePart :=
  (s.parkq.filter (fun e => e.kind == 2 && e.cluster == c.cluster && e.cmd != c.id && (findCmd s e.cmd).any (fun x => decide (x.order < c.order)))).flatMap
    (fun e => (entryWrites e).map (·.1))

/-- One element's results written, if the fast unit decides them (spec/05 R115). -/
def putItem (c : EngCmd) (trs : List (Nat × Trans)) (s : State) (x : RowData × RowItem) : State :=
  if itemStage c x.1 x.2 = 0 then
    cmdFlags (x.2.outs.foldl (fun s r => engWrite s c trs r.space r.va (resBytes r)) s) c.id (orFlags (x.2.outs.map (·.res.flags))) x.1.poison
  else s

/-- The parking entries of the elements that escalate (spec/05 R115). -/
def parkItems (s : State) (c : EngCmd) (trs : List (Nat × Trans)) (row : Nat) (items : List (RowData × RowItem)) : List ParkEntry :=
  let res := fun (x : RowItem) => (⟨((x.outs.head?).map (·.res.bits)).getD 0, orFlags (x.outs.map (·.res.flags))⟩ : FRes)
  (items.filter (fun x => itemStage c x.1 x.2 != 0)).map (fun x =>
    cmdPark c 2 0 0 (rowFmt (rowDtype c)) (rowFn c) 1 (itemPayload c row x.2) (itemPlace s c trs x.2) (itemInputs c x.1 x.2) (itemStage c x.1 x.2)
      (res x.2) (res (rowItem { c with rm := .rne } row x.1 x.2.elem)))

/-- The command past its chunk. -/
def nextUnit (c : EngCmd) : EngCmd :=
  { c with unit := c.unit + 1, stage := if c.units ≤ c.unit + 1 then .finished else c.stage }

/-- Whether a result of a chunk lies where an element of an earlier command has still to be written: two commands that write one
destination write in the order of R169 (spec/08 R178). -/
def chunkBehind (s : State) (c : EngCmd) (trs : List (Nat × Trans)) (outs : List RowRes) : Bool :=
  let early := earlierPlaces s c
  !early.isEmpty && (outs.flatMap (resPlaces s c trs)).any (fun p => early.any (placesMeet p))

/-- A chunk whose pages are translated (spec/08 R176). -/
def doChunk (c : EngCmd) (trs : List (Nat × Trans)) (s : State) : State :=
  let (row, j, n) := chunkAt c
  let items := if rowSsq c then [] else chunkItems s c trs
  let outs := if rowSsq c then [⟨0, rowDst c + 16 * row, ⟨128, 0, 0, false⟩, ⟨0, flagNone⟩⟩] else items.flatMap (·.2.outs)
  if chunkBehind s c trs outs then s
  else if rowSsq c then updCmd (if j + n = rowLen c then addSquares c trs row s else s) c.id nextUnit
  else
    let s1 := engPark (items.foldl (putItem c trs) s) (parkItems s c trs row items)
    updCmd s1 c.id (fun x => nextUnit (addCounts (chunkCounts c items) false x))

/-! ### Start, chunks, completion (spec/08 R169) -/

/-- The start of an update: its record is read, then S, and the record is checked (spec/08 R183). -/
def updStart (c : EngCmd) (s : State) : State :=
  engUnit s c false [⟨0, rowAux c, 64, .read⟩] (fun trs s =>
    let r := engRead s c trs 0 (rowAux c) 64
    let n := ofBytes r.1
    let sq := ((findCtx s c.ctx).map (fun x => sparseGet 0#64 x.mbox (rowArg c % 256))).getD 0
    let c1 := { c with aux := [0, 0, 0, 0, sq.toNat, n] }
    let bad := r.2 || bitsOf n 383 256 != 0 || (updBases c1).1 % 4 != 0 || (updBases c1).2 % 4 != 0 || !(updAccepts (updParams c1))
    updCmd s c.id (fun x => { x with aux := c1.aux, stage := if bad then .finished else x.stage, err := x.err || bad }))

/-- Whether an update has still to read its record. -/
def updUnread (c : EngCmd) : Bool := rowFn c == 3 && decide (c.aux.length < 6)

/-- EVENT: the row engine starts its next command (spec/08 R169). -/
def execRowCommandStart (cluster : Nat) (s0 : State) : Res :=
  let s := sampleHeads s0
  if s.cmds.any (fun c => isRow c && c.cluster == cluster && (c.stage == .running || heldEntries s c)) then .next s
  else
    match firstCmd s (fun c => isRow c && c.cluster == cluster && c.stage == .queued) with
    | none => .next s
    | some c =>
      if !(guardAllows c) || !(resident s c.ctx) || !(cmdReached s c) || unitTraceHeld s (cmdSource c) then .next s
      else
        let (id, s1) := newId s
        let c1 := { c with stage := .running, order := 2 * id + 1 }
        let s2 := updCmd s1 c.id (fun _ => c1)
        .next (if updUnread c1 then updStart c1 s2 else s2)

/-- EVENT: the row engine processes one chunk (spec/08 R176). -/
def execRowChunk (cluster : Nat) (s : State) : Res :=
  match firstCmd s (fun c => isRow c && c.cluster == cluster && c.stage == .running) with
  | none => .next s
  | some c =>
    if !(unitFree s c) then .next s
    else if updUnread c then .next (updStart c s)
    else .next (engUnit s c false (chunkExtents c) (doChunk c))

/-- The status word (spec/08 R179). -/
def statusWord (c : EngCmd) : Nat :=
  let a := fun (i : Nat) => c.aux.getD i 0
  a 2 % 2 ^ 32 * 2 ^ 96 + a 1 % 2 ^ 32 * 2 ^ 64 + a 0 % 2 ^ 32 * 2 ^ 32 + bitNat c.err * 2 ^ 15 + a 3 % 2 * 2 ^ 14 +
  bitNat (a 1 != 0) * 2 ^ 13 + c.flags.toNat

/-- Whether a command has a status word to write. Once it is written, `unit` stands beyond the chunks. -/
def statusDue (c : EngCmd) : Bool := rowStatus c != 0 && decide (c.unit ≤ c.units)

/-- The elements that a command skipped added to its gang's `NFCNT`, wherever its state is held (spec/08 R184). -/
def addNfc (s : State) (c : EngCmd) : State := updGangAnywhere s c.gang (fun g => { g with nfcnt := g.nfcnt + toWord (c.aux.getD 2 0) })

/-- The command of a cluster's row engine that was started first: commands complete in that order (spec/08 R169). -/
def firstStarted (s : State) (p : EngCmd → Bool) : Option EngCmd :=
  s.cmds.foldl (fun m c =>
    if !(p c) || c.stage == .queued || c.stage == .forming then m
    else match m with
      | none => some c
      | some d => if c.order < d.order then some c else m) none

/-- EVENT: the row command started first completes (spec/08 R169, R179, R184). The status word is written after every other result, and
its own completion time is waited for. -/
def execRowCommandComplete (cluster : Nat) (s : State) : Res :=
  match firstStarted s (fun c => isRow c && c.cluster == cluster) with
  | none => .next s
  | some c =>
    if !(cmdSettled s c) || c.key.isSome || unitTraceHeld s (cmdSource c) then .next s
    else
      match c.stage with
      | .dropped err => .next (completeCmd (addNfc s c) c err (!err))
      | .finished =>
        if statusDue c then
          .next (engUnit s c false [⟨0, rowStatus c, 16, .write⟩] (fun trs s =>
            updCmd (engWrite s c trs 0 (rowStatus c) (toBytes 16 (statusWord c))) c.id (fun x => { x with unit := x.units + 1 })))
        else
          .next (completeCmd (addNfc s c) c c.err false)
      | _ => .next s

/-! ### Resolution of row elements (spec/05 R112, R115) -/

/-- Bytes written to a place that an entry has kept. The target checks the request against the tenant's grants as they are now; a denied
write is a command error (spec/19 R414, R415). -/
def putPlace (s : State) (c : EngCmd) (p : LanePart) (b : List Byte) : State :=
  match p.tgt with
  | 9 => teamWrite s c.ctx c.grid p.dev p.pa b
  | 5 => nodeError s c.ctx (p.pa % 2 ^ 18 / 64) 4
  | 6 => refuse s c.ctx 7 0 0
  | tgt =>
    if !((findCtx s c.ctx).any (fun x => grantRun x (tgt == 1) true p.pa b.length)) then cmdFlags s c.id flagNone true
    else if tgt = 1 then hostWriteAt s p.pa b
    else
      let w := homeWrite s p.home p.pa b none
      cmdGwct w.1 c.id w.2

/-- The results of an element as the row now gives them, where it can still be read; none else. -/
def recompute (s : State) (c : EngCmd) (row elem sub : Nat) : Option (List FRes) :=
  let whole := if rowFn c = 3 then 1 else rowLen c
  let j := if rowFn c = 3 then elem else 0
  let c1 := { c with unit := row * rowChunks c + (if elem = wholeRow then rowChunks c - 1 else elem / 256) }
  match engExtents s c1 (chunkExtents c1) with
  | .error _ => none
  | .ok trs => some ((rowItem c row (rowRead s c trs row j whole) (if elem = wholeRow then sub else elem)).outs.map (·.res))

/-- A row element resolves: it is written to memory, with the old or the new row's result (spec/05 R115, spec/08 R178); a soft
error writes the canonical NaN with no flag (spec/05 R119). -/
def resolveRow (s : State) (e : ParkEntry) (c : EngCmd) : State :=
  let row := e.payload.getD 1 0
  let ws := entryWrites e
  let new := if Config.freeBit s.freeCtr (6 * 2 ^ 20) then recompute s c row (e.payload.getD 2 0) (e.place.headD 0) else none
  let f := codeFmt e.fmt
  let vals := match new with
    | some l => if l.length = ws.length then l.map (·.bits) else ws.map (·.2)
    | none => ws.map (·.2)
  let fl := match new with
    | some l => if l.length = ws.length then orFlags (l.map (·.flags)) else e.flags
    | none => e.flags
  let s1 := (ws.zip vals).foldl (fun s x => putPlace s c x.1.1 (toBytes x.1.1.size (if e.soft then fmtNaN f else x.2))) s
  cmdFlags s1 c.id (if e.soft then flagNone else fl) e.soft

end Sys2Proof.Machine
end

