-- ==== Sys2Proof/Machine/Copy.lean ====
section
/-! DEFINITION. The copy engine contexts (spec/12 R272 to R276) and the contribution to switch reductions (spec/15 R329 to
R331). -/

namespace Sys2Proof.Machine

/-! ### Posting (spec/12 R272) -/

/-- FN of a copy command: 0 `LOAD`, 1 `STORE`, 2 `MOVE`, 3 `NETRED`. -/
def copyFn (c : EngCmd) : Nat := match c.kind with | .copy f => f | _ => 0

/-- The control pair of `NETRED` (spec/12 R276). -/
def netCtl (c : EngCmd) : Nat := blockPair c 2
/-- GROUP. -/
def netGroup (c : EngCmd) : Nat := bitsOf (netCtl c) 47 32
/-- ANCHOR. -/
def netAnchor (c : EngCmd) : Int := signedOf 12 (bitsOf (netCtl c) 19 8)
/-- MBOX. -/
def netMbox (c : EngCmd) : Nat := bitsOf (netCtl c) 7 0

/-- The checks of a copy posting (spec/12 R272, R276; spec/11 R227). Bits [63:32] of the second pair of `NETRED` are reserved: where they are
not 0 the posting takes the reserved-field trap, which R276 names for its control pair (the model's choice, log entry 112). -/
def copyCheck (s : State) (g : Gang) (c : EngCmd) : PostCheck :=
  let va := blockPair c 1
  let acc : Acc := if copyFn c = 0 then .write else .read
  if copyFn c = 3 ∧ (bitsOf (netCtl c) 63 48 ≠ 0 ∨ bitsOf (netCtl c) 31 20 ≠ 0 ∨ bitsOf va 63 32 ≠ 0) then .trap 0x02 0 s.cur.first
  else if copyFn c < 2 ∧ 2 ^ 32 ≤ va then .trap 0x04 va 0
  else if g.team.isNone ∧ (copyFn c < 2 ∨ s.cur.pfx.gen) then .freeThread (if copyFn c < 2 then va else 0) acc
  else if copyFn c < 2 ∧ !(teamExtentOk s g va 1) then .trap 0x04 va 0
  else .ok

/-- A copy command's posting (spec/12 R272). -/
def copyPost (fn : Nat) (t : BitVec 6) (q p : BitVec 8) (m : Bool) (s : State) : State :=
  let regs := rangeFrom (2 * p.toNat) 4 ++ rangeFrom (2 * q.toNat) (if fn = 3 then 2 else 12)
  uniRaw m regs (fun g s =>
    let c := makeCmd s g (.copy fn) t.toNat regs 0
    checkedPost (copyCheck s g c) (postCmd m 2 (.copy fn) t.toNat regs queueCmd) s) s

/-- `COPY.load` (spec/12 R272). -/
def execCopyLoad (t : BitVec 6) (q p : BitVec 8) (m : Bool) (s : State) : Res := .next (copyPost 0 t q p m s)
/-- `COPY.store` (spec/12 R272). -/
def execCopyStore (t : BitVec 6) (q p : BitVec 8) (m : Bool) (s : State) : Res := .next (copyPost 1 t q p m s)
/-- `COPY.move` (spec/12 R272). -/
def execCopyMove (t : BitVec 6) (q p : BitVec 8) (m : Bool) (s : State) : Res := .next (copyPost 2 t q p m s)
/-- `COPY.netred` (spec/12 R272, R276). -/
def execCopyNetred (t : BitVec 6) (q p : BitVec 8) (m : Bool) (s : State) : Res := .next (copyPost 3 t q p m s)

/-! ### Peer memory (spec/15 R322, R323) -/

/-- The requests that a command's reads of peer memory need: one message per aligned 128-byte line. -/
def peerNeeds (trs : List (Nat × Trans)) (es : List Extent) : List (Nat × Nat × Nat) :=
  (es.filter (fun e => e.space == 0 && e.acc == .read)).flatMap (fun e =>
    (runPieces e.va e.n).flatMap (fun r =>
      let p := partAt trs 0 r.1 r.2 0 0 0
      if p.tgt = 2 then
        (linesOf p.pa r.2).map (fun l => (p.dev, max p.pa (l * 128), min (p.pa + r.2) (l * 128 + 128) - max p.pa (l * 128)))
      else []))

/-- A unit of a copy command with its peer reads: requests are sent, and the unit goes on once they are answered (spec/15 R323,
R324). -/
def copyAccess (s : State) (c : EngCmd) (es : List Extent) (k : List (Nat × Trans) → State → State) : State :=
  engUnit s c false es (fun trs s =>
    let need := (peerNeeds trs es).filter (fun x => !(c.far.any (fun f => f.dev == x.1 && f.pa == x.2.1 && f.size == x.2.2)))
    if !need.isEmpty then
      need.foldl (fun s x =>
        let (id, s1) := newId s
        { updCmd s1 c.id (fun c => { c with far := c.far ++ [⟨id, x.1, x.2.1, x.2.2, none⟩] }) with
          sent := s1.sent ++ [⟨x.1, 0, id, c.id, [], .load 0 false, [(x.2.1, x.2.2, [])], false⟩] }) s
    else if c.far.any (fun f => f.data.isNone) then s
    else updCmd (k trs s) c.id (fun c => { c with far := [] }))

/-! ### Shape records (spec/12 R273, R274) -/

/-- NDIM. -/
def shpDims (r : Nat) : Nat := bitsOf r 67 64
/-- ESZ in bytes. -/
def shpSize (r : Nat) : Nat := 2 ^ bitsOf r 70 68
/-- SWZ. -/
def shpSwz (r : Nat) : Bool := bitOf r 71
/-- BASE. -/
def shpBase (r : Nat) : Nat := bitsOf r 63 0
/-- STRIDE of a dimension. -/
def shpStride (r d : Nat) : Nat := bitsOf r (128 * d + 639) (128 * d + 576)
/-- EXTENT of a dimension. -/
def shpExtent (r d : Nat) : Nat := bitsOf r (128 * d + 575) (128 * d + 544)
/-- BOX of a dimension, in elements. -/
def shpBox (r d : Nat) : Nat := bitsOf r (128 * d + 543) (128 * d + 528) + 1

/-- Whether a record obeys the map of spec/12 R273. -/
def shpLegal (r : Nat) : Bool :=
  let n := shpDims r
  let z := shpSize r
  bitsOf r 511 72 == 0 && decide (1 ≤ n && n ≤ 12) && decide (bitsOf r 70 68 ≤ 4) && shpBase r % z == 0 &&
  (rangeFrom 0 n).all (fun d =>
    bitsOf r (128 * d + 527) (128 * d + 512) == 0 && shpStride r d % z == 0 && (d != 0 || shpStride r d == 0) && decide (1 ≤ shpExtent r d))

/-- Whether two records of a `MOVE` agree in NDIM, ESZ and BOX (spec/12 R273). -/
def shpAgree (a b : Nat) : Bool :=
  shpDims a == shpDims b && shpSize a == shpSize b && (rangeFrom 0 (shpDims a)).all (fun d => shpBox a d == shpBox b d)

/-- The box rows of a command: the elements of its box beyond dimension 0. -/
def boxRows (r : Nat) : Nat := (rangeFrom 1 (shpDims r - 1)).foldl (fun n d => n * shpBox r d) 1

/-- The box coordinates of row `u` in the dimensions from `d` on. -/
def rowCoords (r : Nat) : Nat → Nat → Nat → List Nat
  | 0, _, _ => []
  | n + 1, d, u => u % shpBox r d :: rowCoords r n (d + 1) (u / shpBox r d)

/-- A coordinate of a command (spec/12 R272). -/
def copyCoord (c : EngCmd) (d : Nat) : Int := signedOf 32 ((c.ops.getD (4 + d) (0, 0#32)).2.toNat)

/-- The tensor indices of row `u` in dimensions 1 and up. -/
def rowIndex (c : EngCmd) (r u : Nat) : List (Nat × Int) :=
  (rangeFrom 1 (shpDims r - 1)).zip ((rowCoords r (shpDims r - 1) 1 u)) |>.map (fun x => (x.1, copyCoord c x.1 + (x.2 : Int)))

/-- Whether an index is in bounds. -/
def inBounds (r d : Nat) (g : Int) : Bool := decide (0 ≤ g) && decide (g < (shpExtent r d : Int))

/-- Whether row `u` is in bounds in dimensions 1 and up. -/
def rowIn (c : EngCmd) (r u : Nat) : Bool := (rowIndex c r u).all (fun x => inBounds r x.1 x.2)

/-- The global address of element `b0` of row `u` (spec/12 R274). -/
def boxAddr (c : EngCmd) (r u b0 : Nat) : Nat :=
  wrap 64 ((shpBase r : Int) + (shpSize r : Int) * (copyCoord c 0 + (b0 : Int)) + sumInt ((rowIndex c r u).map (fun x => (shpStride r x.1 : Int) * x.2)))

/-- The in-bounds elements of row `u` of a record's tensor. -/
def rowElems (c : EngCmd) (r u : Nat) : List Nat :=
  if rowIn c r u then (rangeFrom 0 (shpBox r 0)).filter (fun b => inBounds r 0 (copyCoord c 0 + (b : Int))) else []

/-- The team address of a byte of row `u` (spec/12 R274, spec/09 R189). -/
def boxTeam (c : EngCmd) (r u o : Nat) : Nat :=
  let n := shpBox r 0 * shpSize r
  let w := o % 64 / 4
  if shpSwz r then blockPair c 1 + n * u + 64 * (o / 64) + 4 * (w ^^^ (u % 16)) + o % 4 else blockPair c 1 + n * u + o

/-- The record at the head: a copy command's first or second shape record, once read. -/
def shpOf (c : EngCmd) (k : Nat) : Nat := c.aux.getD k 0

/-- Whether the records allow the command to run (spec/12 R273, R274). -/
def copyLegal (s : State) (c : EngCmd) : Bool :=
  let r := shpOf c 0
  shpLegal r &&
  (if copyFn c = 2 then shpLegal (shpOf c 1) && shpAgree r (shpOf c 1)
   else
     (!(shpSwz r) || ((shpBox r 0 * shpSize r) % 64 == 0 && blockPair c 1 % 64 == 0)) &&
     (match cmdAddrTeam s c (blockPair c 1), findGrid s c.ctx c.grid with
      | some _, some g => decide (blockPair c 1 % 2 ^ 28 + shpSize r * shpBox r 0 * boxRows r ≤ g.kernel.tmem)
      | _, _ => false))

/-- The records of a command read (spec/12 R273). -/
def readShapes (c : EngCmd) (s : State) : State :=
  let addrs := blockPair c 0 :: (if copyFn c = 2 then [blockPair c 1] else [])
  if addrs.any (fun a => a % 64 != 0) then failCmd s c.id
  else
    copyAccess s c (addrs.map (fun a => ⟨0, a, 256, .read⟩)) (fun trs s =>
      let rs := addrs.map (fun a => engRead s c trs 0 a 256)
      let c1 := { c with aux := rs.map (fun r => ofBytes r.1) }
      if rs.any (·.2) || !(copyLegal s c1) then failCmd s c.id
      else updCmd s c.id (fun x => { x with aux := c1.aux, units := boxRows (shpOf c1 0) }))

/-! ### `NETRED` (spec/12 R276, spec/15 R329) -/

/-- A value written into the tenant's mailbox. -/
def netWrite (s : State) (c : EngCmd) (bits : Nat) : State :=
  updCtx s c.ctx (fun x => { x with mbox := sparseSet 0#64 x.mbox (netMbox c) (toDword bits) })

/-- Whether the write of a mailbox may take place: as `SSYS.mbwr` does after its `FENCE.DEV`, it waits for the accesses that the posting gang
made before the posting (spec/12 R276, spec/06 R142). -/
def netOrdered (s : State) (c : EngCmd) : Bool :=
  s.gangs.all (fun g => g.uid != c.gang ||
    (g.out.all (fun o => decide (c.id < o.id) || !(fenceWaits 2 (2 ^ 64 - 1) o)) && decide (g.gwct.toNat ≤ coreNow s g.core)))

/-- A decision that has come: the result is written into the mailbox as one event and the command is done, or it waits for the order of the
write. `aux` ends with the result. -/
def netFinish (s : State) (c : EngCmd) : State :=
  if c.unit = 2 && netOrdered s c then updCmd (netWrite s c (c.aux.getD 1 0)) c.id (fun x => { x with stage := .finished }) else s

/-- A result that waits to be written. -/
def netDecide (s : State) (c : EngCmd) (bits : Nat) (err : Bool) : State :=
  let c1 := { c with unit := 2, aux := [c.aux.getD 0 0, bits], err := c.err || err }
  netFinish (updCmd s c.id (fun _ => c1)) c1

/-- The contribution: the cell is read and sent in class Q (spec/12 R276, spec/15 R329). `aux` holds the time of the sending. -/
def sendCell (c : EngCmd) (s : State) : State :=
  let va := blockPair c 0
  if !(((findCtx s c.ctx).map (fun x => x.sysgrp.contains (netGroup c))).getD false) then failCmd s c.id
  else if va % 16 ≠ 0 then engFault s c (.alignment, va, .read) false
  else
    copyAccess s c [⟨0, va, 16, .read⟩] (fun trs s =>
      let r := engRead s c trs 0 va 16
      if r.2 then netDecide s c (fmtNaN fmt64) true
      else
        let (id, s1) := newId s
        { updCmd s1 c.id (fun x => { x with unit := 1, units := 2, aux := [coreNow s c.core] }) with
          sent := s1.sent ++ [⟨netGroup c, 4, id, c.id, [], .command, [(blockPair c 1 % 2 ^ 32, bitsOf (netCtl c) 19 8, r.1)], false⟩] })

/-- The contribution of a core that waits for its decision. -/
def waitingNet (s : State) (core : Nat) : Option EngCmd :=
  s.cmds.find? (fun c => c.core == core && c.kind == .copy 3 && c.stage == .running && c.unit == 1)

/-- The ticks of the DTB in a microsecond (spec/14 R305). -/
def tickMicro : Nat := 16000

/-- A time from 1 to 65,536 µs, in microseconds. -/
def microRange (n : Nat) : Nat := n % 65536 + 1

/-- The time at which a contribution has waited for the group's timeout and the link timeout together (spec/15 R331). The group's timeout
stands in the switches: the device model has it as a free value. -/
def netDeadline (s : State) (c : EngCmd) : Nat :=
  c.aux.getD 0 0 + tickMicro * (microRange (Config.freeNat c.id (21 * 2 ^ 20 + netGroup c)) + s.lnktmo.toNat)

/-- EVENT: the switch's decision arrives: the exact sum, which is rounded once and written into the mailbox, or the failure or rejection of
the contribution (spec/12 R276, spec/15 R330, R331). A decision that comes after the time has run out counts for nothing; none comes
while no port carries traffic (spec/15 R332). -/
def execNetredResult (core : Nat) (sum : Option Int) (s : State) : Res :=
  match waitingNet s core with
  | none => .next s
  | some c =>
    if netDeadline s c ≤ coreNow s core || !(switchUp s) then .next s
    else
      match sum with
      | none => .next (failCmd s c.id)
      | some n => .next (netDecide s c (roundSum fmt64 .rne ⟨n, netAnchor c - 96⟩).bits false)

/-- EVENT: no decision came in time (spec/15 R331). -/
def execNetredTimeout (core : Nat) (s : State) : Res :=
  match waitingNet s core with
  | none => .next s
  | some c => if netDeadline s c ≤ coreNow s core then .next (failCmd s c.id) else .next s

/-! ### Units (spec/12 R274, R275) -/

/-- The bytes of a poisoned element: which they are is not stated. -/
def freeBytes (s : State) (k n : Nat) : List Byte :=
  (rangeFrom 0 n).map (fun j => BitVec.ofNat 8 (Config.freeNat s.freeCtr (7 * 2 ^ 20 + k * 16 + j)))

/-- One element of a copy read: its bytes, and whether they are poisoned. -/
def copyElem (s : State) (c : EngCmd) (trs : List (Nat × Trans)) (u b0 : Nat) : List Byte × Bool :=
  let r := shpOf c 0
  let z := shpSize r
  let e := if copyFn c = 1 then
      (let l := (rangeFrom (z * b0) z).map (fun o => engRead s c trs 1 (boxTeam c r u o) 1)
       (l.flatMap (·.1), l.any (·.2)))
    else if (rowElems c r u).contains b0 then engRead s c trs 0 (boxAddr c r u b0) z z
    else (List.replicate z 0, false)
  if e.2 then (freeBytes s b0 z, true) else e

/-- The elements of a row that a command writes. -/
def copyTargets (c : EngCmd) (u : Nat) : List Nat :=
  match copyFn c with
  | 0 => rangeFrom 0 (shpBox (shpOf c 0) 0)
  | 1 => rowElems c (shpOf c 0) u
  | _ => rowElems c (shpOf c 1) u

/-- One element of a copy moved. -/
def copyPut (c : EngCmd) (trs : List (Nat × Trans)) (u : Nat) (s : State) (b0 : Nat) : State :=
  let r := shpOf c 0
  let z := shpSize r
  let e := copyElem s c trs u b0
  let s1 := if copyFn c = 0 then
      ((rangeFrom (z * b0) z).zip e.1).foldl (fun s x => engWrite s c trs 1 (boxTeam c r u x.1) [x.2]) s
    else engWrite s c trs 0 (boxAddr c (if copyFn c = 1 then r else shpOf c 1) u b0) e.1
  if e.2 then cmdFlags s1 c.id flagNone true else s1

/-- The global run of some elements of a row. -/
def copyRun (c : EngCmd) (r u : Nat) (l : List Nat) (acc : Acc) : List Extent :=
  match l with
  | [] => []
  | b :: _ => [⟨0, boxAddr c r u b, l.length * shpSize r, acc⟩]

/-- What a unit reads and writes: of a `MOVE` the source elements that its destination takes. -/
def copyExtents (c : EngCmd) (u : Nat) : List Extent :=
  let src := rowElems c (shpOf c 0) u
  let n := shpBox (shpOf c 0) 0 * shpSize (shpOf c 0)
  match copyFn c with
  | 0 => copyRun c (shpOf c 0) u src .read
  | 1 => (if src.isEmpty then [] else [⟨1, blockPair c 1 + n * u, n, .read⟩]) ++ copyRun c (shpOf c 0) u src .write
  | _ =>
    let dst := rowElems c (shpOf c 1) u
    copyRun c (shpOf c 0) u (src.filter (dst.contains ·)) .read ++ copyRun c (shpOf c 1) u dst .write

/-- One box row moved (spec/12 R275). -/
def copyRow (c : EngCmd) (s : State) : State :=
  copyAccess s c (copyExtents c c.unit) (fun trs s => updCmd ((copyTargets c c.unit).foldl (copyPut c trs c.unit) s) c.id nextUnit)

/-- Whether a command has still to read its shape records. -/
def copyUnread (c : EngCmd) : Bool := copyFn c != 3 && c.aux.isEmpty

/-- A copy command's next action: its records are read, then its rows are moved; `NETRED` sends its cell. -/
def copyAct (c : EngCmd) (s : State) : State :=
  if copyFn c = 3 then (if c.unit = 0 then sendCell c s else netFinish s c)
  else if copyUnread c then readShapes c s
  else copyRow c s

/-- EVENT: the copy engine context takes the command at its head and reads its record (spec/12 R273, R275). -/
def execCopyCommandStart (core : Nat) (s0 : State) : Res :=
  let s := sampleHeads s0
  if s.cmds.any (fun c => isCopy c && c.core == core && c.stage == .running) then .next s
  else
    match firstCmd s (fun c => isCopy c && c.core == core && c.stage == .queued) with
    | none => .next s
    | some c =>
      if !(guardAllows c) || !(resident s c.ctx) || !(cmdReached s c) || unitTraceHeld s (cmdSource c) then .next s
      else
        let (id, s1) := newId s
        let c1 := { c with stage := .running, order := 2 * id + 1 }
        .next (copyAct c1 (updCmd s1 c.id (fun _ => c1)))

/-- EVENT: the copy engine context moves one box row (spec/12 R275). -/
def execCopyUnit (core : Nat) (s : State) : Res :=
  match firstCmd s (fun c => isCopy c && c.core == core && c.stage == .running) with
  | none => .next s
  | some c => if unitFree s c || (c.unit == 2 && copyFn c == 3 && !(unitTraceHeld s (cmdSource c))) then .next (copyAct c s) else .next s

/-- EVENT: a copy command completes, in posting order (spec/12 R275). -/
def execCopyCommandComplete (core : Nat) (s : State) : Res :=
  match firstStarted s (fun c => isCopy c && c.core == core) with
  | none => .next s
  | some c =>
    if !(cmdSettled s c) || c.key.isSome || unitTraceHeld s (cmdSource c) then .next s
    else
      match c.stage with
      | .dropped err => .next (completeCmd s c err (!err))
      | .finished => .next (completeCmd s c c.err false)
      | _ => .next s

end Sys2Proof.Machine
end

