-- ==== Sys2Proof/Machine/Pass.lean ====
section
/-! DEFINITION. The arithmetic of the matrix engine: stored formats and BD records (spec/04 R83 to R88, spec/10 R204), the element
rule (spec/09 R194), the rounding test of a tile element (spec/05 R105, spec/09 R201). -/

namespace Sys2Proof.Machine

/-! ### Stored formats (spec/10 R204) -/

/-- The bytes of 32 elements of a format. -/
def fmtBytes32 (n : Nat) : Nat :=
  match n with
  | 0 => 128
  | 1 | 2 => 64
  | 3 | 4 => 32
  | 5 => 33
  | 6 => 25
  | _ => 17

/-- Whether a format is a block format. -/
def isBd (n : Nat) : Bool := decide (5 ≤ n)

/-- The bytes of one element; a block format's record is written byte-aligned. -/
def elemBytes (n : Nat) : Nat := if isBd n then 1 else fmtBytes32 n / 32

/-- The bytes of `n` elements in stored form: whole records of a block format. -/
def rowBytes (fmt n : Nat) : Nat := if isBd fmt then ceilDiv n 32 * fmtBytes32 fmt else n * elemBytes fmt

/-- The encoding of an element format that is no block format. -/
def tileFmt (n : Nat) : FloatFmt :=
  match n with
  | 0 => fmt32
  | 1 => fmt16
  | 2 => fmtB16
  | 3 => fmtE4M3
  | _ => fmtE5M2

/-- The width of an element of a block format. -/
def bdWidth (n : Nat) : Nat :=
  match n with
  | 5 => 8
  | 6 => 6
  | _ => 4

/-- The element of a block record (spec/04 R84 to R86). -/
def bdElem (fmt rec i : Nat) : FVal :=
  let scale := rec % 256
  if scale = 255 then .nan false
  else
    let w := bdWidth fmt
    let e := bitsOf (rec / 256) (w * i + w - 1) (w * i)
    let mag := e % 2 ^ (w - 2)
    let gap := 2 * (scale % 4) + 2
    let x : Int := (scale / 4 : Nat) - (if bitOf e (w - 1) then (gap : Int) else 0)
    if mag = 0 then .fin false 0 0 else .fin (bitOf e (w - 2)) mag (x - 31)

/-- Element `k` of a run in stored form. -/
def storedElem (fmt run k : Nat) : FVal :=
  if isBd fmt then
    let b := 8 * fmtBytes32 fmt
    bdElem fmt (bitsOf run (b * (k / 32) + b - 1) (b * (k / 32))) (k % 32)
  else
    let b := 8 * elemBytes fmt
    fdecode (tileFmt fmt) (bitsOf run (b * k + b - 1) (b * k))

/-- The elements of a run in stored form. -/
def storedElems (fmt run n : Nat) : List FVal := (rangeFrom 0 n).map (storedElem fmt run)

/-! ### Quantisation (spec/04 R87, R88) -/

/-- `q(v, X)` (spec/04 R87). -/
def bdRound (rm : RMode) (v : FVal) (x : Int) : Int :=
  let d := fdy v
  (roundToInt rm ⟨decide (d.m < 0), d.m.natAbs, d.e + 31 - x, false⟩).1

/-- The smallest base exponent that holds every element (spec/04 R87). -/
def bdBase (rm : RMode) (mmax : Int) (vs : List FVal) : Option Nat :=
  (rangeFrom 0 64).find? (fun e => vs.all (fun v => decide ((bdRound rm v e).natAbs ≤ mmax.natAbs)))

/-- One element under a base exponent and a gap: SEL and the signed magnitude (spec/04 R87). -/
def bdPick (rm : RMode) (mmax : Int) (e gap : Int) (v : FVal) : Bool × Int :=
  let k := bdRound rm v (e - gap)
  if k.natAbs ≤ mmax.natAbs then (true, k) else (false, clampInt (-mmax) mmax (bdRound rm v e))

/-- The value of a picked element. -/
def bdVal (e gap : Int) (p : Bool × Int) : Dyadic := ⟨p.2, e - (if p.1 then gap else 0) - 31⟩

/-- The exact total error of a gap (spec/04 R87). -/
def bdErr (rm : RMode) (mmax e gap : Int) (vs : List FVal) : Dyadic :=
  dySum (vs.map (fun v =>
    let d := dyAdd (fdy v) (dyNeg (bdVal e gap (bdPick rm mmax e gap v)))
    ⟨(d.m.natAbs : Int), d.e⟩))

/-- A quantised block: its record and its flags. -/
structure BdRes where
  bits  : Nat
  flags : Flags
  deriving DecidableEq, Repr

/-- The bits of a picked element (spec/04 R84, R87). -/
def bdBits (w : Nat) (p : Bool × Int) : Nat :=
  if p.2 = 0 then 0 else bitNat p.1 * 2 ^ (w - 1) + bitNat (decide (p.2 < 0)) * 2 ^ (w - 2) + p.2.natAbs

/-- The quantisation of 32 elements (spec/04 R87, R88). -/
def bdQuant (fmt : Nat) (rm : RMode) (vs : List FVal) : BdRes :=
  if vs.any (fun v => isNan v || isInf v) then ⟨255, flagNV⟩
  else
    let w := bdWidth fmt
    let mmax : Int := 2 ^ (w - 2) - 1
    let base := bdBase rm mmax vs
    let e := base.getD 63
    let gaps := (rangeFrom 0 4).filter (fun g => !(e == 63 && g == 3))
    let gapOf := fun (g : Nat) => (2 * g + 2 : Nat)
    let best := gaps.foldl (fun (b : Option (Nat × Dyadic)) g =>
      let err := bdErr rm mmax e (gapOf g) vs
      match b with
      | none => some (g, err)
      | some x => if dyLt err x.2 then some (g, err) else some x) none
    let g := (best.map (·.1)).getD 0
    let ps := vs.map (fun v => (v, bdPick rm mmax e (gapOf g) v))
    let nx := ps.any (fun x => (dyAdd (fdy x.1) (dyNeg (bdVal e (gapOf g) x.2))).m != 0)
    let uf := ps.any (fun x => isFinNz x.1 && x.2.2 == 0)
    ⟨e * 4 + g + 256 * packLanes w (ps.map (fun x => bdBits w x.2)),
      flagIf nx flagNX ||| flagIf uf flagUF ||| flagIf base.isNone flagOF⟩

/-! ### The element rule (spec/09 R194) -/

/-- Whether a product is that of a zero and an infinity. -/
def badProd (p : FVal × FVal) : Bool := (isZero p.1 && isInf p.2) || (isInf p.1 && isZero p.2)

/-- The infinite terms' signs. -/
def infTerms (c : Option FVal) (ps : List (FVal × FVal)) : List Bool :=
  (match c with | some v => if isInf v then [fneg v] else [] | none => []) ++
  (ps.filter (fun p => isInf p.1 || isInf p.2)).map (fun p => xor (fneg p.1) (fneg p.2))

/-- An infinite result: a format without one holds the canonical NaN with NV (spec/10 R216, spec/07 R162). -/
def infRes (f : FloatFmt) (neg : Bool) : FRes := if f.ocp then nanRes f flagNV else ⟨fmtInf f neg, flagNone⟩

/-- A special row of the element rule, if one applies (spec/09 R194). -/
def elemSpecial (f : FloatFmt) (c : Option FVal) (ps : List (FVal × FVal)) : Option FRes :=
  let ops := c.toList ++ ps.flatMap (fun p => [p.1, p.2])
  let infs := infTerms c ps
  if ops.any isSnan then some (nanRes f flagNV)
  else if ps.any badProd then some (nanRes f flagNV)
  else if ops.any isNan then some (nanRes f flagNone)
  else
    match infs with
    | [] => none
    | n :: r => if r.all (· == n) then some (infRes f n) else some (nanRes f flagNV)

/-- The element rule: the addend and the exact products, rounded once (spec/09 R194). -/
def elemRule (f : FloatFmt) (rm : RMode) (c : Option FVal) (ps : List (FVal × FVal)) : FRes :=
  match elemSpecial f c ps with
  | some r => r
  | none =>
    let terms := (c.toList.map fdy) ++ ps.map (fun p => dyMul (fdy p.1) (fdy p.2))
    if terms.all (fun t => t.m == 0) then
      ⟨fmtSign f (zeroSumNeg rm ((c.toList.map fneg) ++ ps.map (fun p => xor (fneg p.1) (fneg p.2)))), flagNone⟩
    else roundSum f rm (dySum terms)

/-! ### The rounding test (spec/05 R105, spec/09 R201) -/

/-- The exponent of a magnitude's leading bit. -/
def dyLead (d : Dyadic) : Int := (d.m.natAbs.log2 : Int) + d.e

/-- The exponent of the largest-magnitude term. -/
def topLead (l : List Dyadic) : Option Int :=
  ((l.filter (fun d => d.m != 0)).map dyLead).foldl (fun (b : Option Int) x => match b with | none => some x | some y => some (imaxInt x y)) none

/-- A term truncated towards zero at the bit of weight `2^lw`, in units of it, and whether it lost bits. -/
def truncAt (lw : Int) (d : Dyadic) : Int × Bool :=
  if lw ≤ d.e then (d.m * 2 ^ (d.e - lw).toNat, false)
  else
    let k := 2 ^ (lw - d.e).toNat
    let q := d.m.natAbs / k
    (if d.m < 0 then -(q : Int) else q, d.m.natAbs % k != 0)

/-- Whether the interval from `lo` to `hi`, integers of one weight, contains a point of the FP32 grid (spec/05 R105): zero, or a
value of at most 25 significant bits. -/
def hitsGrid (lo hi : Int) : Bool :=
  if lo ≤ 0 ∧ 0 ≤ hi then true
  else
    let a := min lo.natAbs hi.natAbs
    let b := max lo.natAbs hi.natAbs
    let sp := 2 ^ (a.log2 - 24)
    decide (ceilDiv a sp * sp ≤ b)

/-- The window's depth below the largest term: 120 bits, 200 in the FP32 class (spec/05 R105). -/
def windowBits (fp32 : Bool) : Int := if fp32 then 200 else 120

/-- A window sum: its value and its error bound, in units of `2^lw`. -/
structure Window where
  y  : Int
  e  : Int
  lw : Int
  deriving DecidableEq, Repr

/-- The window of some terms (spec/05 R105). -/
def windowOf (fp32 : Bool) (terms : List Dyadic) : Window :=
  match topLead terms with
  | none => ⟨0, 0, 0⟩
  | some t =>
    let lw := t - windowBits fp32
    let cut := terms.map (truncAt lw)
    ⟨sumInt (cut.map (·.1)), ((cut.filter (·.2)).length : Int), lw⟩

/-- Whether a tile element fails the rounding test and escalates (spec/05 R105). -/
def tileEscalates (fp32 : Bool) (c : Option FVal) (ps : List (FVal × FVal)) : Bool :=
  let w := windowOf fp32 ((c.toList.map fdy) ++ ps.map (fun p => dyMul (fdy p.1) (fdy p.2)))
  w.e != 0 && hitsGrid (w.y - w.e) (w.y + w.e)

/-- Whether an element of a table operation escalates: the combiner's test over the four quarters (spec/09 R201). -/
def joinEscalates (fp32 : Bool) (c : Option FVal) (qs : List (List (FVal × FVal))) : Bool :=
  let prods := fun (ps : List (FVal × FVal)) => ps.map (fun p => dyMul (fdy p.1) (fdy p.2))
  match topLead ((c.toList.map fdy) ++ qs.flatMap prods) with
  | none => false
  | some t =>
    let lw := t - windowBits fp32
    let parts := qs.map (fun ps => windowOf fp32 (prods ps))
    let cut := parts.map (fun w => truncAt lw ⟨w.y, w.lw⟩)
    let y := dySum ((cut.map (fun x => (⟨x.1, lw⟩ : Dyadic))) ++ c.toList.map fdy)
    let e := dySum ((parts.map (fun w => (⟨w.e, w.lw⟩ : Dyadic))) ++ [⟨((cut.filter (·.2)).length : Int), lw⟩])
    let u := iminInt y.e e.e
    e.m != 0 && hitsGrid (dyAt y u - dyAt e u) (dyAt y u + dyAt e u)

end Sys2Proof.Machine
end

