-- ==== Sys2Proof/Machine/Matrix.lean ====
section
/-! DEFINITION. The commands of the matrix engine up to their grant: operand words and checks (spec/10 R205, R209 to R219),
convergence registers (spec/09 R198, R199, spec/10 R222, R223), guards (spec/17 R382), the reservation table, Rook and the
dealer (spec/09 R196, R197, R201). -/

namespace Sys2Proof.Machine

/-! ### Operand words -/

/-- The control word of a matrix command: the last pair that it captures. -/
def ctlWord (c : EngCmd) : Nat :=
  match c.kind with
  | .mma | .mmat | .accx => blockPair c 2
  | .wload => blockPair c 1
  | .qnt _ => blockPair c 4
  | _ => 0

/-- The A operand word (spec/10 R209). -/
def aWord (c : EngCmd) : Nat := blockPair c 0
/-- The B operand word (spec/10 R210). -/
def bWord (c : EngCmd) : Nat := blockPair c 1
/-- AFMT. -/
def aFmt (c : EngCmd) : Nat := bitsOf (aWord c) 49 46
/-- BFMT. -/
def bFmt (c : EngCmd) : Nat := bitsOf (bWord c) 37 34
/-- M of a pass. -/
def passM (c : EngCmd) : Nat := 16 * 2 ^ bitsOf (aWord c) 45 44
/-- N of a pass. -/
def passN (c : EngCmd) : Nat := 16 * 2 ^ bitsOf (bWord c) 33 32
/-- ORD: whether A is fetched by columns. -/
def aCols (c : EngCmd) : Bool := bitOf (aWord c) 43
/-- SWZ. -/
def aSwz (c : EngCmd) : Bool := bitOf (aWord c) 42
/-- PITCH in bank lines. -/
def aPitch (c : EngCmd) : Nat := bitsOf (aWord c) 41 32
/-- The team address of A. -/
def aAddr (c : EngCmd) : Nat := bitsOf (aWord c) 31 0
/-- The weight offset of B. -/
def bOff (c : EngCmd) : Nat := bitsOf (bWord c) 31 0

/-- The class of a format, the widest first: 0 FP32, 1 16-bit, 2 8-bit, 3 BD4 (spec/09 R186). -/
def fmtClass (n : Nat) : Nat :=
  match n with
  | 0 => 0
  | 1 | 2 => 1
  | 7 => 3
  | _ => 2

/-- The class of a pass: that of its wider operand (spec/09 R186). -/
def passClass (c : EngCmd) : Nat := min (fmtClass (aFmt c)) (fmtClass (bFmt c))

/-- K of a pass's class (spec/09 R186). -/
def passK (c : EngCmd) : Nat := 16 * 2 ^ passClass c

/-- The clocks that a pass occupies the engine (spec/09 R186, R187). -/
def passClocks (c : EngCmd) : Nat := max 2 (passM c * passN c * passK c * (if passClass c = 0 then 16 else 8 / 2 ^ passClass c) / 131072)

/-- The bytes of a stored row of A (spec/09 R190). -/
def aRowBytes (c : EngCmd) : Nat := if aCols c then passM c * elemBytes (aFmt c) else rowBytes (aFmt c) (passK c)

/-- The stored rows of A (spec/09 R190). -/
def aRows (c : EngCmd) : Nat := if aCols c then passK c else passM c

/-- The offset from Bₐ of byte `o` of stored row `r` (spec/09 R189). -/
def aByte (c : EngCmd) (r o : Nat) : Nat :=
  let w := o % 64 / 4
  64 * aPitch c * r + 64 * (o / 64) + 4 * (if aSwz c then w ^^^ (r % 16) else w) + o % 4

/-- The clocks in which A is staged (spec/09 R188, R190). -/
def stageClocks (c : EngCmd) : Nat := ceilDiv (aRows c * aRowBytes c) 512 * (if aCols c && !(aSwz c) then 16 else 1)

/-- The bytes from Bₐ that A reaches over: its last stored row lies highest. -/
def aSpan (c : EngCmd) : Nat :=
  let n := aRowBytes c
  let line := (n - 1) / 64 * 64
  1 + maxNat ((rangeFrom line (n - line)).map (aByte c (aRows c - 1)))

/-- The column and row origins of a region: of a pass, of `ACCX`, of `CVTT`'s source. -/
def tileOrigin (c : EngCmd) : Nat × Nat :=
  match c.kind with
  | .accx => (16 * bitsOf (ctlWord c) 17 15, 16 * bitsOf (ctlWord c) 20 18)
  | .qnt _ => (16 * bitsOf (blockPair c 0) 6 4, 16 * bitsOf (blockPair c 0) 9 7)
  | _ => (16 * bitsOf (ctlWord c) 16 14, 16 * bitsOf (ctlWord c) 19 17)

/-- OP of `ACCX`: 0 `.st`, 1 `.ld`, 2 `.add`, 3 `.zero` (spec/10 R215). -/
def accOp (c : EngCmd) : Nat := bitsOf (ctlWord c) 31 30
/-- Memory space of `ACCX`. -/
def accSpace (c : EngCmd) : Nat := bitsOf (ctlWord c) 29 29
/-- Memory format of `ACCX`. -/
def accFmt (c : EngCmd) : Nat := bitsOf (ctlWord c) 28 25
/-- Rows of an `ACCX` region. -/
def accM (c : EngCmd) : Nat := 16 * 2 ^ bitsOf (ctlWord c) 24 23
/-- Columns of an `ACCX` region. -/
def accN (c : EngCmd) : Nat := 16 * 2 ^ bitsOf (ctlWord c) 22 21
/-- `XADDR`. -/
def accAddr (c : EngCmd) : Nat := blockPair c 0
/-- Memory row pitch of `ACCX`. -/
def accPitch (c : EngCmd) : Nat := bitsOf (ctlWord c) 63 32
/-- α of `ACCX` as FP32. -/
def accAlpha (c : EngCmd) : Nat := bitsOf (blockPair c 1) 31 0
/-- β of `ACCX` as FP32. -/
def accBeta (c : EngCmd) : Nat := bitsOf (blockPair c 1) 63 32

/-- FN of a `QNT` command: 0 `QUANT`, 1 `DEQ`, 2 `QPAIR`, 3 `CVTT`. -/
def qFn (c : EngCmd) : Nat := match c.kind with | .qnt f => f | _ => 0
/-- Source rows. -/
def qRows (c : EngCmd) : Nat := bitsOf (ctlWord c) 63 48 + 1
/-- Source columns. -/
def qCols (c : EngCmd) : Nat := bitsOf (ctlWord c) 47 32 + 1
/-- SFMT. -/
def qSfmt (c : EngCmd) : Nat := bitsOf (ctlWord c) 31 28
/-- DFMT. -/
def qDfmt (c : EngCmd) : Nat := bitsOf (ctlWord c) 27 24
/-- SSP. -/
def qSsp (c : EngCmd) : Nat := bitsOf (ctlWord c) 23 22
/-- DSP. -/
def qDsp (c : EngCmd) : Nat := bitsOf (ctlWord c) 21 20
/-- `QSRC`. -/
def qSrc (c : EngCmd) : Nat := blockPair c 0
/-- `QDST`. -/
def qDst (c : EngCmd) : Nat := blockPair c 1
/-- Source row pitch. -/
def qSpitch (c : EngCmd) : Nat := bitsOf (blockPair c 2) 31 0
/-- Destination row pitch: weight rows are packed (spec/10 R218). -/
def qDpitch (c : EngCmd) : Nat := if qDsp c = 2 then rowBytes (qDfmt c) (qCols c) else bitsOf (blockPair c 2) 63 32
/-- `QTDST`. -/
def qTdst (c : EngCmd) : Nat := blockPair c 3

/-- LEN of `WLOAD` in bytes. -/
def wlLen (c : EngCmd) : Nat := 64 * (bitsOf (ctlWord c) 63 48 + 1)

/-- CONV, the convergence register of a posting (spec/09 R198). -/
def convOf (c : EngCmd) : Nat :=
  match c.kind with
  | .wload => bitsOf (ctlWord c) 39 36
  | _ => bitsOf (ctlWord c) 7 4

/-- The tiles that a command names (spec/09 R197). -/
def cmdTileNames (c : EngCmd) : List Nat :=
  match c.kind with
  | .mma | .mmat => [bitsOf (ctlWord c) 3 0]
  | .accx => bitsOf (ctlWord c) 3 0 :: (if accOp c = 2 then [bitsOf (ctlWord c) 11 8] else [])
  | .qnt 3 => [bitsOf (qSrc c) 3 0]
  | _ => []

/-! ### Checks at posting (spec/10 R205) -/

/-- The field of each word that must be 0. -/
def rsvdBits (c : EngCmd) : Nat :=
  let w := ctlWord c
  match c.kind with
  | .mma | .mmat => bitsOf (aWord c) 63 50 + bitsOf (bWord c) 63 38 + bitsOf w 47 20 + bitsOf w 12 8
  | .wload => bitsOf w 47 40 + bitsOf w 35 32
  | .accx => bitsOf w 14 12
  | _ => bitsOf w 19 8 + bitsOf w 3 0

/-- The bytes of the weight slices of a team that a weight offset names: a retired member has none (spec/09 R191, spec/16 R357). -/
def sliceBytes (s : State) (t : Team) (off : Nat) : Option Nat :=
  (addrTeam s t off).bind (fun x => if x.retired then none else some (2 ^ 18 * x.slices.length))

/-- Whether a weight extent lies in the named team's slices (spec/09 R191). A gang of free threads names none: its fault follows. -/
def weightOk (s : State) (g : Gang) (off n : Nat) : Bool :=
  decide (off < 2 ^ 32) && off % 64 == 0 &&
  (match gangTeam s g with
   | none => true
   | some t => (sliceBytes s t off).any (fun b => decide (off % 2 ^ 28 + n ≤ b)))

/-- Whether a team extent lies in declared team memory. A gang of free threads has none: its fault follows. -/
def teamOk (s : State) (g : Gang) (va n : Nat) : Bool := decide (va < 2 ^ 32) && (g.team.isNone || teamExtentOk s g va n)

/-- Whether a tile number is below the declared count (spec/10 R205). -/
def tileOk (s : State) (g : Gang) (n : Nat) : Bool := decide (n < ((gangKernel s g).map (·.acc)).getD 0)

/-- Whether a tenant's partition grants the whole table of a cluster (spec/19 R402). -/
def tableGranted (s : State) (ctx cluster : Nat) : Bool :=
  match findCtx s ctx with
  | none => false
  | some x => (rangeFrom (clusterTable cluster * 4) 4).all (fun k => x.coreset.getLsbD k)

/-- Whether the fields of `MMA` and `MMAT` are ones that their entries allow (spec/09 R190, spec/10 R209 to R211). -/
def passFields (s : State) (g : Gang) (c : EngCmd) : Bool :=
  let w := ctlWord c
  let o := tileOrigin c
  decide (aFmt c < 8) && decide (bFmt c < 8) && ((aFmt c == 0) == (bFmt c == 0)) && aAddr c % 64 == 0 &&
  (!(aCols c) || (!(isBd (aFmt c)) && aRowBytes c % 64 == 0)) && decide (ceilDiv (aRowBytes c) 64 ≤ aPitch c) &&
  teamOk s g (aAddr c) (aSpan c) && weightOk s g (bOff c) (passN c * rowBytes (bFmt c) (passK c)) &&
  (if c.kind = .mmat then tableGranted s c.ctx c.cluster else bitsOf w 63 48 == 0) && decide (o.1 + passM c ≤ 128) && decide (o.2 + passN c ≤ 128) &&
  (cmdTileNames c).all (tileOk s g)

/-- Whether the fields of `WLOAD` are ones that its entry allows (spec/10 R214). -/
def wloadFields (s : State) (g : Gang) (c : EngCmd) : Bool :=
  blockPair c 0 % 64 == 0 && weightOk s g (bitsOf (ctlWord c) 31 0) (wlLen c)

/-- Whether an FP32 value is finite. -/
def isFinite (bits : Nat) : Bool := match fdecode fmt32 bits with | .fin _ _ _ => true | _ => false

/-- Whether the fields of `ACCX` are ones that its entry allows (spec/10 R215). -/
def accxFields (s : State) (g : Gang) (c : EngCmd) : Bool :=
  let op := accOp c
  let size := elemBytes (accFmt c)
  let o := tileOrigin c
  decide (accFmt c ≤ 4) && decide (o.1 + accM c ≤ 128) && decide (o.2 + accN c ≤ 128) &&
  (if op % 2 = 0 then isFinite (accAlpha c) && isFinite (accBeta c) else blockPair c 1 == 0) &&
  (if 2 ≤ op then accAddr c == 0 && accPitch c == 0
   else accAddr c % size == 0 && accPitch c % size == 0 &&
     (accSpace c == 0 || teamOk s g (accAddr c) (rowsSpan (accM c) (accPitch c) (accN c * size)))) &&
  (op == 2 || bitsOf (ctlWord c) 11 8 == 0) && (cmdTileNames c).all (tileOk s g)

/-- Whether a destination of `n` rows of a `QNT` command lies in declared storage. -/
def qDestOk (s : State) (g : Gang) (c : EngCmd) (va n pitch len : Nat) : Bool :=
  match qDsp c with
  | 0 => true
  | 1 => teamOk s g va (rowsSpan n pitch len)
  | _ => weightOk s g va (rowsSpan n pitch len)

/-- Whether the fields of a `QNT` command are ones that its entry allows (spec/10 R218, R219). -/
def qntFields (s : State) (g : Gang) (c : EngCmd) : Bool :=
  let fn := qFn c
  let nr := qRows c
  let nc := qCols c
  let narrow := fun (f : Nat) => decide (3 ≤ f && f ≤ 7)
  let wide := fun (f : Nat) => decide (f ≤ 2)
  let o := tileOrigin c
  (match fn with
   | 0 | 2 => wide (qSfmt c) && narrow (qDfmt c)
   | 1 => narrow (qSfmt c) && wide (qDfmt c)
   | _ => qSfmt c == 0 && decide (1 ≤ qDfmt c && qDfmt c ≤ 7)) &&
  (if fn = 3 then qSsp c == 2 else decide (qSsp c ≤ 1)) && decide (qDsp c ≤ (if fn = 1 then 1 else 2)) &&
  (!(isBd (qSfmt c) || isBd (qDfmt c)) || nc % 32 == 0) && (!(fn == 2 && isBd (qDfmt c)) || nr % 32 == 0) &&
  (fn != 3 || (decide (nr ≤ 128 - o.1) && decide (nc ≤ 128 - o.2) && bitsOf (qSrc c) 63 10 == 0)) &&
  (qDsp c != 2 || bitsOf (blockPair c 2) 63 32 == 0) && (fn == 2 || qTdst c == 0) &&
  (qSsp c != 1 || teamOk s g (qSrc c) (rowsSpan nr (qSpitch c) (rowBytes (qSfmt c) nc))) &&
  qDestOk s g c (qDst c) nr (qDpitch c) (rowBytes (qDfmt c) nc) &&
  (fn != 2 || qDestOk s g c (qTdst c) nc (rowBytes (qDfmt c) nr) (rowBytes (qDfmt c) nr)) && (cmdTileNames c).all (tileOk s g)

/-- The checks of a matrix command's posting, in the order of spec/10 R205. -/
def matrixCheck (s : State) (g : Gang) (c : EngCmd) (op : Nat) : PostCheck :=
  let ok := match c.kind with
    | .mma | .mmat => passFields s g c
    | .wload => wloadFields s g c
    | .accx => accxFields s g c
    | _ => qntFields s g c
  if c.kind == .accx && accOp c != op then .trap 0x01 0 s.cur.first
  else if rsvdBits c ≠ 0 then .trap 0x02 0 s.cur.first
  else if !ok then .trap 0x03 0 0
  else if g.team.isNone then .freeThread (match c.kind with | .mma | .mmat => aAddr c | _ => 0) .read
  else .ok

/-! ### The reservation table (spec/09 R196) -/

/-- Whether the table has an entry for a command of a core now. -/
def tableRoom (s : State) (c : EngCmd) : Bool :=
  decide (0 < tableFree s c.core) && slotTurn s c.core (1000 + c.cluster) (fun w => w.cmd == c.id)

/-- The command of a filled round enters the table at the end of its gang's queue, or waits for an entry as a producer of its
core (spec/09 R196, R199). The oldest posting of R197 is taken as the one that entered the table first: a gated command ranks by the filling
of its round, not by its first posting (DESIGN CHOICE, log entry 94). -/
def enterTable (s : State) (id : Nat) : State :=
  match findCmd s id with
  | none => s
  | some c =>
    let room := tableRoom s c
    let s1 := { s with cmds := s.cmds.filter (fun x => x.id != id) ++ [{ c with stage := .queued, entered := room, born := s.dtb }] }
    if room then s1
    else { s1 with waiters := s1.waiters ++ [⟨1000 + c.cluster, c.core, c.slot, 0, c.pc, .queueSlot 0, id, none, s.clk⟩] }

/-- Filled rounds that wait and now find an entry take it, in the order of the list (spec/18 R397). -/
def enterRounds (s : State) : State :=
  (s.waiters.filter (fun w => w.queue / 1000 == 1 && w.cmd != 0)).foldl (fun s w =>
    match findCmd s w.cmd with
    | none => s
    | some c =>
      if !c.entered && tableRoom s c then
        { updCmd s c.id (fun c => { c with entered := true }) with waiters := s.waiters.filter (fun x => x.cmd != c.id) }
      else s) s

/-! ### Convergence registers (spec/09 R199, spec/10 R223) -/

/-- A convergence register of a team. -/
def convReg (t : Team) (n : Nat) : Conv := sparseGet ⟨0, 0, none⟩ t.conv n

/-- A convergence register written. -/
def setConv (s : State) (t : Team) (n : Nat) (v : Conv) : State :=
  updTeam s t.ctx t.grid t.index (fun t => { t with conv := sparseSet ⟨0, 0, none⟩ t.conv n v })

/-- Signatures counted into rounds of `size`: from `count`, the first posting of the open round, and `left` signatures to count. A
filled round's command enters the table; `open_` makes the command of a posting. -/
def signRounds (size : Nat) (mk : State → Option (Nat × State)) : Nat → Nat → Option Nat → Nat → State → Nat × Option Nat × State
  | 0, count, first, _, s => (count, first, s)
  | fuel + 1, count, first, left, s =>
    if left = 0 then (count, first, s)
    else
      let (first1, s1) := match first with
        | some id => (some id, s)
        | none => match mk s with
          | some (id, s') => (some id, s')
          | none => (none, s)
      if left < size - count then (count + left, first1, s1)
      else
        let s2 := match first1 with
          | some id => enterTable s1 id
          | none => s1
        signRounds size mk fuel 0 none (left - (size - count)) s2

/-- `k` signatures on a register (spec/09 R199). -/
def signConv (s : State) (t : Team) (n k : Nat) (mk : State → Option (Nat × State)) : State :=
  let v := convReg t n
  let (count, first, s1) := signRounds v.size mk (k + 1) v.count v.first k s
  setConv s1 t n ⟨v.size, count, first⟩

/-- The command of a posting, forming a round: its registers are in flight until the posting threads' marker (spec/02 R30). -/
def formCmd (kind : EngKind) (tl : Nat) (regs : List Nat) (s : State) : Option (Nat × State) :=
  match curGang s with
  | none => none
  | some g =>
    let (id, s1) := newId s
    some (id, queueCmd { makeCmd s g kind tl regs id with stage := .forming } (flyCmd s1 g id regs))

/-- Whether a gang has a filled round that waits for an entry (spec/09 R196). -/
def roundWaits (s : State) (g : Gang) : Bool := s.cmds.any (fun c => c.gang == g.uid && !c.entered && c.stage == .queued)

/-- Whether a signing puts a command of the gang into the table: it fills a round whose first posting is the gang's. -/
def signEnters (s : State) (g : Gang) (v : Conv) (k : Nat) : Bool :=
  let own := match v.first with
    | none => true
    | some id => (findCmd s id).any (fun c => c.gang == g.uid)
  (decide (v.size ≤ v.count + k) && own) || decide (2 * v.size ≤ v.count + k)

/-- A gated posting signs its register (spec/09 R198, R199; spec/10 R223). -/
def signPost (m : Bool) (kind : EngKind) (tl n : Nat) (regs : List Nat) (s : State) : State :=
  match curGang s with
  | none => s
  | some g =>
    match gangTeam s g with
    | none => s
    | some t =>
      let older := crewStores g
      let v := convReg t n
      let k := (threadsOf g (curMask s g)).length
      if v.size = 0 then trapPath s 0x0C 0 (toWord n)
      else if !older.isEmpty then holdPath s (.done older) .again
      else if roundWaits s g && signEnters s g v k then holdPath s (.queueSlot 0) .again
      else finishPath (sampleHeads (signConv s t n k (formCmd kind tl regs))) m

/-- A matrix command's posting (spec/09 R198, spec/10 R205). -/
def matrixPost (kind : EngKind) (op : Nat) (t : BitVec 6) (regs : List Nat) (m : Bool) (s : State) : State :=
  uniRaw m regs (fun g s =>
    let c := makeCmd s g kind t.toNat regs 0
    checkedPost (matrixCheck s g c op) (fun s =>
      if convOf c = 15 then postCmd m 0 kind t.toNat regs queueCmd s else signPost m kind t.toNat (convOf c) regs s) s) s

/-- The registers of an operand block of `n` pairs and of the control word (spec/10 R203). -/
def postRegs (n : Nat) (q p : BitVec 8) : List Nat := rangeFrom (2 * p.toNat) (2 * n) ++ rangeFrom (2 * q.toNat) 2

/-- `MMA` (spec/10 R212). -/
def execMma (t : BitVec 6) (q p : BitVec 8) (m : Bool) (s : State) : Res := .next (matrixPost .mma 0 t (postRegs 2 q p) m s)
/-- `MMAT` (spec/10 R213). -/
def execMmat (t : BitVec 6) (q p : BitVec 8) (m : Bool) (s : State) : Res := .next (matrixPost .mmat 0 t (postRegs 2 q p) m s)
/-- `WLOAD` (spec/10 R214). -/
def execWload (t : BitVec 6) (q p : BitVec 8) (m : Bool) (s : State) : Res := .next (matrixPost .wload 0 t (postRegs 1 q p) m s)
/-- `ACCX.st` (spec/10 R216). -/
def execAccxSt (t : BitVec 6) (q p : BitVec 8) (m : Bool) (s : State) : Res := .next (matrixPost .accx 0 t (postRegs 2 q p) m s)
/-- `ACCX.ld` (spec/10 R216). -/
def execAccxLd (t : BitVec 6) (q p : BitVec 8) (m : Bool) (s : State) : Res := .next (matrixPost .accx 1 t (postRegs 2 q p) m s)
/-- `ACCX.add` (spec/10 R216). -/
def execAccxAdd (t : BitVec 6) (q p : BitVec 8) (m : Bool) (s : State) : Res := .next (matrixPost .accx 2 t (postRegs 2 q p) m s)
/-- `ACCX.zero` (spec/10 R216). -/
def execAccxZero (t : BitVec 6) (q p : BitVec 8) (m : Bool) (s : State) : Res := .next (matrixPost .accx 3 t (postRegs 2 q p) m s)
/-- `QUANT` (spec/10 R220). -/
def execQuant (t : BitVec 6) (q p : BitVec 8) (m : Bool) (s : State) : Res := .next (matrixPost (.qnt 0) 0 t (postRegs 4 q p) m s)
/-- `DEQ` (spec/10 R220). -/
def execDeq (t : BitVec 6) (q p : BitVec 8) (m : Bool) (s : State) : Res := .next (matrixPost (.qnt 1) 0 t (postRegs 4 q p) m s)
/-- `QPAIR` (spec/10 R221). -/
def execQpair (t : BitVec 6) (q p : BitVec 8) (m : Bool) (s : State) : Res := .next (matrixPost (.qnt 2) 0 t (postRegs 4 q p) m s)
/-- `CVTT` (spec/10 R220). -/
def execCvtt (t : BitVec 6) (q p : BitVec 8) (m : Bool) (s : State) : Res := .next (matrixPost (.qnt 3) 0 t (postRegs 4 q p) m s)

/-- `CSET` and `CSIGN`: a count out of range is an illegal encoding, a gang of free threads takes the fault (spec/10 R222,
R223). -/
def convOp (m : Bool) (lo : Nat) (r : BitVec 9) (k : Team → Nat → State → Option State) (c : BitVec 4) (s : State) : State :=
  uniRaw m [r.toNat] (fun g s =>
    let n := (readS s.freeCtr g 0 r.toNat).toNat
    if n < lo ∨ 1024 < n then trapPath s 0x01 0 s.cur.first
    else
      match gangTeam s g with
      | none => deliverCur (faultCur s .freeThread 0 .write)
      | some t =>
        match k t n s with
        | some s1 => finishPath s1 m
        | none => trapPath s 0x0C 0 (toWord c.toNat)) s

/-- `CSET` (spec/10 R222, R223). -/
def execCset (r : BitVec 9) (c : BitVec 4) (m : Bool) (s : State) : Res :=
  .next (convOp m 1 r (fun t n s =>
    if (convReg t c.toNat).count ≠ 0 then none else some (setConv s t c.toNat ⟨n, 0, none⟩)) c s)

/-- `CSIGN` (spec/10 R222, R223). -/
def execCsign (r : BitVec 9) (c : BitVec 4) (m : Bool) (s : State) : Res :=
  .next (convOp m 0 r (fun t n s =>
    if (convReg t c.toNat).size = 0 then none else some (sampleHeads (signConv s t c.toNat n (fun _ => none)))) c s)

/-! ### Guards (spec/17 R382) -/

/-- The commands that wait for a guard slot of a team hear of its change no sooner than a message takes (spec/14 R308). -/
def toldGuard (s : State) (t : Team) (n : Nat) : State :=
  { s with cmds := s.cmds.map (fun c =>
      if c.ctx == t.ctx && c.grid == t.grid && c.team == some t.index && c.guard == some n && c.sampled.isNone then { c with born := s.dtb } else c) }

/-- A guard slot changed, where its value allows it; else the guard-misuse trap. -/
def guardOp (m : Bool) (n : BitVec 4) (f : Guard → Option Guard) (s : State) : State :=
  match curGang s with
  | none => s
  | some g =>
    match gangTeam s g with
    | none => deliverCur (faultCur s .freeThread 0 .write)
    | some t =>
      match f (sparseGet .isFalse t.guards n.toNat) with
      | none => trapPath s 0x0D 0 (toWord n.toNat)
      | some v =>
        let s1 := updTeam s t.ctx t.grid t.index (fun t => { t with guards := sparseSet .isFalse t.guards n.toNat v })
        finishPath (sampleHeads (toldGuard s1 t n.toNat)) m

/-- `GARM` (spec/17 R382). -/
def execGarm (n : BitVec 4) (m : Bool) (s : State) : Res :=
  .next (guardOp m n (fun v => if v = .isPending then none else some .isPending) s)

/-- `GSET` (spec/17 R382). -/
def execGset (r : BitVec 9) (n : BitVec 4) (m : Bool) (s : State) : Res :=
  .next (uniRaw m [r.toNat] (fun g s =>
    guardOp m n (fun v => if v = .isPending then some (if readS s.freeCtr g 0 r.toNat = 0 then .isFalse else .isTrue) else none) s) s)

/-! ### Rook (spec/09 R197) -/

/-- The number of a tile element among all of the device's. -/
def tileKey (cluster phys row col : Nat) : Nat := (cluster * 16 + phys) * 2 ^ 14 + row * 128 + col

/-- The physical tile of a team's tile (spec/09 R193). -/
def physTile (t : Team) (n : Nat) : Nat := t.tiles.getD n 0

/-- The physical tiles that a command names. -/
def cmdTiles (s : State) (c : EngCmd) : List Nat :=
  match cmdTeam s c with
  | none => []
  | some t => (cmdTileNames c).map (physTile t)

/-- The rows and columns of a command's region in its tiles. -/
def cmdRegion (c : EngCmd) : Nat × Nat :=
  match c.kind with
  | .mma | .mmat => (passM c, passN c)
  | .accx => (accM c, accN c)
  | .qnt 3 => (qRows c, qCols c)
  | _ => (0, 0)

/-- Whether an element in some rows of a command's region is pending (spec/09 R193). -/
def rowsPending (s : State) (c : EngCmd) (row n : Nat) : Bool :=
  let o := tileOrigin c
  let cols := (cmdRegion c).2
  (cmdTiles s c).any (fun p => s.tilePend.any (fun k =>
    let r := k % 2 ^ 14 / 128
    let q := k % 128
    k / 2 ^ 14 == c.cluster * 16 + p && decide (o.1 + row ≤ r) && decide (r < o.1 + row + n) && decide (o.2 ≤ q) && decide (q < o.2 + cols)))

/-- Whether a command's region holds a pending element; of a table operation it is the member's quarter (spec/09 R201). -/
def regionPending (s : State) (c : EngCmd) : Bool :=
  let m := (cmdRegion c).1
  if c.kind = .mmat then rowsPending s c (c.cluster % 4 * (m / 4)) (m / 4) else rowsPending s c 0 m

/-- Whether two commands name one physical tile of their cluster. -/
def shareTile (s : State) (a b : EngCmd) : Bool := a.cluster == b.cluster && (cmdTiles s a).any (fun p => (cmdTiles s b).contains p)

/-- Whether an entry of the reservation table is ready (spec/09 R197). -/
def isReady (s : State) (c : EngCmd) : Bool :=
  isMatrix c && cmdReached s c && resident s c.ctx && inTable c && atHead s c && guardAllows c && !(regionPending s c) &&
  ((s.cmds.takeWhile (fun x => x.id != c.id)).all (fun x =>
    !(inTable x && x.team == c.team && x.ctx == c.ctx && x.grid == c.grid && shareTile s x c)))

/-- An entry's priority as Rook sees it: 3 once it has been ready for 16,384 clocks (spec/09 R197). -/
def rookPri (s : State) (c : EngCmd) : Nat := if c.aged || c.readyAt.any (fun n => decide (n + 16384 ≤ s.clk)) then 3 else ((findGrid s c.ctx c.grid).map (·.launch.pri)).getD 0

/-- The matrix commands of a cluster that the engine has taken and that no fault holds; one whose elements wait in the fast unit for room
in the parking queue is among them (spec/05 R109). One that a fault holds does not count towards Rook's one pass ahead (the model's choice,
log entry 109). -/
def engineBusy (s : State) (cluster : Nat) : List EngCmd :=
  s.cmds.filter (fun c => isMatrix c && c.cluster == cluster && ((c.stage == .running && c.key.isNone) || heldEntries s c))

/-- A command granted (spec/09 R197): the grants are numbered. `clk` of the grant stands first in `aux`. -/
def grantCmd (s : State) (c : EngCmd) (joins : List Nat) : State :=
  let (id, s1) := newId s
  sampleHeads (updCmd s1 c.id (fun c => { c with stage := .running, order := 2 * id + 1, joins := joins, aux := [s.clk] }))

/-- The entry that Rook grants: the highest priority, then the oldest posting (spec/09 R197). A table operation is granted by the
dealer (R201). -/
def rookPick (s : State) (cluster : Nat) : Option EngCmd :=
  (s.cmds.filter (fun c => c.cluster == cluster && c.kind != .mmat && isReady s c)).foldl (fun b c =>
    match b with
    | none => some c
    | some x => if rookPri s x < rookPri s c then some c else some x) none

/-- EVENT: Rook grants the engine to a ready entry, one pass ahead of the engine (spec/09 R197). -/
def execRookGrant (cluster : Nat) (s0 : State) : Res :=
  let s := sampleHeads s0
  if 2 ≤ (engineBusy s cluster).length then .next s
  else
    match rookPick s cluster with
    | none => .next s
    | some c => .next (enterRounds (grantCmd s c []))

/-- The clock since which an entry has been ready (spec/09 R197). -/
def markReady (s : State) : State :=
  if s.cmds.isEmpty then s
  else { s with cmds := s.cmds.map (fun c =>
    if c.stage == .queued && isMatrix c then
      (if isReady s c then { c with readyAt := some (c.readyAt.getD s.clk) } else { c with readyAt := none })
    else c) }

/-- EVENT: an entry has been ready for 16,384 clocks (spec/09 R197). -/
def execRookAging (cluster id : Nat) (s : State) : Res :=
  .next (updCmd s id (fun c =>
    if c.cluster == cluster && c.stage == .queued && c.readyAt.any (fun n => decide (n + 16384 ≤ s.clk)) then { c with aged := true } else c))

/-! ### Table operations (spec/09 R201) -/

/-- The oldest ready `MMAT` of a cluster that passes a test. -/
def readyMmat (s : State) (cluster : Nat) (p : EngCmd → Bool) : Option EngCmd :=
  s.cmds.find? (fun c => c.cluster == cluster && c.kind == .mmat && p c && isReady s c)

/-- The join key of a command. -/
def joinKey (c : EngCmd) : Nat := bitsOf (ctlWord c) 63 48

/-- The four postings of a join, in member order (spec/09 R201, spec/10 R213). -/
def joinOf (s : State) (table : Nat) (c : EngCmd) : Option (List EngCmd) :=
  let l := (rangeFrom 0 4).filterMap (fun q =>
    if table * 4 + q = c.cluster then some c
    else readyMmat s (table * 4 + q) (fun x => x.ctx == c.ctx && x.grid == c.grid && joinKey x == joinKey c))
  if l.length = 4 then some l else none

/-- Whether the four members of a join agree in shape and format (spec/10 R213). -/
def joinAgrees (l : List EngCmd) : Bool :=
  l.all (fun c => l.all (fun d => passM c == passM d && passN c == passN d && aFmt c == aFmt d && bFmt c == bFmt d))

/-- The grant of a join's four commands: members that disagree complete with error status, nothing written (spec/10 R213). -/
def grantJoin (s : State) (l : List EngCmd) : State :=
  let ids := l.map (·.id)
  let s1 := l.foldl (fun s c => grantCmd s c ids) s
  if joinAgrees l then s1
  else ids.foldl (fun s id => updCmd s id (fun c => { c with stage := .finished, err := true })) s1

/-- EVENT: the dealer examines its oldest ready `MMAT`; the right passes to the next member (spec/09 R201). A join is granted however many
passes the members have granted already: whether Rook's one pass ahead of the engine bounds it is not stated (DESIGN CHOICE, log entry
93). -/
def execDealerExamine (table : Nat) (s0 : State) : Res :=
  let s := sampleHeads s0
  let q := sparseGet 0 s.dealer table % 4
  let s1 := { s with dealer := sparseSet 0 s.dealer table ((q + 1) % 4) }
  match readyMmat s (table * 4 + q) (fun _ => true) with
  | none => .next s1
  | some c =>
    match joinOf s table c with
    | none => .next s1
    | some l => .next (enterRounds (grantJoin s1 l))

end Sys2Proof.Machine
end

