-- ==== Sys2Proof/Machine/MatrixRun.lean ====
section
/-! DEFINITION. The matrix engine at work: passes and their elements (spec/09 R186 to R195, R201), the commands that work in
units (spec/10 R208, R214 to R221), completion (spec/05 R115, spec/09 R197) and the resolution of tile elements (spec/05
R115). -/

namespace Sys2Proof.Machine

/-! ### Order within the engine -/

/-- Whether a command is a pass. -/
def isPass (c : EngCmd) : Bool := c.kind == .mma || c.kind == .mmat

/-- Whether a granted pass cannot go on before a command: it is of the command's gang or names a tile of it (spec/10 R206). -/
def passAwaits (s : State) (x : EngCmd) : Bool :=
  s.cmds.any (fun p => isPass p && p.stage == .running && p.cluster == x.cluster && decide (x.order < p.order) &&
    (p.gang == x.gang || shareTile s x p))

/-- Whether a command stops at its next unit for a save: its context is pre-empted and no granted pass needs it (spec/20 R446). -/
def stopsHere (s : State) (x : EngCmd) : Bool := !(isPass x) && !(resident s x.ctx) && !(passAwaits s x)

/-- Whether a command that the engine took earlier stands before this one: of its gang, on its tile, or held by no fault and no save
(spec/09 R197, spec/10 R206, R208, spec/20 R446). -/
def standsBefore (s : State) (c x : EngCmd) : Bool :=
  isMatrix x && x.cluster == c.cluster && decide (x.order < c.order) &&
  ((x.stage == .running && (x.gang == c.gang || shareTile s x c || (x.key.isNone && !(stopsHere s x)))) ||
   (x.stage == .finished && x.gang == c.gang && x.kind == .accx && s.parkq.any (fun e => e.cmd == x.id)))

/-- Whether the engine may work on a command now. A unit of a pre-empted context is still done where a granted pass needs it (spec/20
R446). -/
def engineMay (s : State) (c : EngCmd) : Bool :=
  (unitFree s c || (unitClear s c && passAwaits s c)) && !(s.cmds.any (standsBefore s c))

/-- Whether a granted pass has not started and stands behind a command that a fault holds, so that it cannot complete before a replay. The
number bounds the passes between. -/
def passStuck (s : State) : Nat → EngCmd → Bool
  | 0, _ => false
  | n + 1, c => c.unit == 0 && s.cmds.any (fun x => standsBefore s c x && (x.key.isSome || (isPass x && passStuck s n x)))

/-! ### Tiles and weights -/

/-- An element of a tile as FP32 (spec/09 R193). -/
def tileAt (s : State) (key : Nat) : Nat := (sparseGet 0#32 s.tiles key).toNat

/-- The key of element (i, j) of a command's region in its `n`-th tile. -/
def regionKey (s : State) (c : EngCmd) (n i j : Nat) : Nat :=
  let o := tileOrigin c
  tileKey c.cluster ((cmdTiles s c).getD n 0) (o.1 + i) (o.2 + j)

/-- Tile elements written: a write clears an element's poison (spec/20 R444). -/
def writeTiles (s : State) (l : List (Nat × Nat)) : State :=
  let keys := l.map (·.1)
  { s with
    tiles := sparseSetAll 0#32 s.tiles (l.map (fun x => (x.1, toWord x.2)))
    tilePoison := if s.tilePoison.isEmpty then [] else s.tilePoison.filter (fun k => !(keys.contains k)) }

/-- The place of a team's weight byte in its cluster's buffer (spec/09 R191). -/
def weightKey (t : Team) (off : Nat) : Nat := coreCluster t.core * 2 ^ 22 + t.slices.getD (off / 2 ^ 18) 0 * 2 ^ 18 + off % 2 ^ 18

/-- Bytes of the weight buffer, and whether one lies in a poisoned block (spec/09 R191, spec/20 R443). -/
def weightRead (s : State) (t : Team) (off n : Nat) : List Byte × Bool :=
  let keys := (rangeFrom off n).map (weightKey t)
  ((rangeFrom off n).map (fun o => (sparseGet none s.weights (weightKey t o)).getD (Config.weightByte t.uid o)),
   !(s.wPoison.isEmpty) && keys.any (fun k => s.wPoison.contains (k / 64)))

/-- Bytes written to the weight buffer; whole blocks lose their poison (spec/20 R444). -/
def weightWrite (s : State) (t : Team) (off : Nat) (b : List Byte) : State :=
  { s with
    weights := sparseSetAll none s.weights ((rangeFrom 0 b.length).zip b |>.map (fun x => (weightKey t (off + x.1), some x.2)))
    wPoison := if s.wPoison.isEmpty then []
      else s.wPoison.filter (fun k => !((rangeFrom 0 64).all (fun i => (rangeFrom 0 b.length).any (fun x => weightKey t (off + x) == k * 64 + i)))) }

/-! ### Passes (spec/09 R188 to R195) -/

/-- The members of a pass: the command, or the four commands of its join. -/
def passMembers (s : State) (c : EngCmd) : List EngCmd := if c.joins.isEmpty then [c] else c.joins.filterMap (findCmd s)

/-- Row `i` of A in stored form, and whether it holds poisoned data (spec/09 R189, R190). -/
def aSlice (s : State) (c : EngCmd) (i : Nat) : Nat × Bool :=
  let read := fun (a : Nat) => engRead s c [] 1 (aAddr c + a) 1
  let bytes := if aCols c then
      (rangeFrom 0 (passK c)).flatMap (fun k => (rangeFrom 0 (elemBytes (aFmt c))).map (fun b => read (aByte c k (i * elemBytes (aFmt c) + b))))
    else (rangeFrom 0 (aRowBytes c)).map (fun o => read (aByte c i o))
  (ofBytes (bytes.flatMap (·.1)), bytes.any (·.2))

/-- A staged: the poison of its rows, then its rows (spec/09 R188). -/
def stageA (s : State) (c : EngCmd) : List Nat :=
  let rows := (rangeFrom 0 (passM c)).map (aSlice s c)
  maskOf (((rangeFrom 0 (passM c)).zip rows).filterMap (fun x => if x.2.2 then some x.1 else none)) :: rows.map (·.1)

/-- Whether a pass may start: the engine is free for it, its A is staged and no element of its region is pending (spec/09 R188,
R193). -/
def passReady (s : State) (c : EngCmd) : Bool :=
  engineMay s c && c.unit == 0 && decide (c.aux.getD 0 0 + stageClocks c ≤ s.clk) && !(regionPending s c)

/-- A command's pass started: `aux` holds the clocks of the grant and of the start, then A. -/
def startPass (s : State) (c : EngCmd) : State :=
  updCmd (engSeen s c [⟨1, aAddr c, aSpan c, .read⟩]) c.id (fun x => { x with unit := 1, aux := [x.aux.getD 0 0, s.clk] ++ stageA s c })

/-- EVENT: a granted pass starts; the four of a join start together (spec/09 R188, R201). -/
def execPassStart (cluster : Nat) (s : State) : Res :=
  match s.cmds.find? (fun c => isPass c && c.cluster == cluster && passReady s c) with
  | none => .next s
  | some c =>
    let ms := passMembers s c
    if ms.all (passReady s) then .next (ms.foldl startPass s) else .next s

/-- Weight row `j` of a command's B in stored form, and whether it is poisoned (spec/09 R192, spec/10 R210). -/
def bSlice (s : State) (c : EngCmd) (j : Nat) : Nat × Bool :=
  match cmdAddrTeam s c (bOff c) with
  | none => (0, false)
  | some t =>
    let n := rowBytes (bFmt c) (passK c)
    let r := weightRead s t (bOff c % 2 ^ 28 + j * n) n
    (ofBytes r.1, r.2)

/-- One quarter of an element: the slices of A and of B. -/
structure Quarter where
  a      : Nat
  b      : Nat
  poison : Bool
  deriving DecidableEq, Repr

/-- The quarter that a member gives to element (i, j), `bs` its weight rows. -/
def quarterOf (c : EngCmd) (bs : List (Nat × Bool)) (i j : Nat) : Quarter :=
  let b := bs.getD j (0, false)
  ⟨c.aux.getD (3 + i) 0, b.1, bitOf (c.aux.getD 2 0) i || b.2⟩

/-- The terms of a quarter. -/
def quarterTerms (c : EngCmd) (q : Quarter) : List (FVal × FVal) :=
  (storedElems (aFmt c) q.a (passK c)).zip (storedElems (bFmt c) q.b (passK c))

/-- An element of a pass: where it goes, its result, whether it escalates, its quarters and addend. -/
structure PassElem where
  owner  : Nat
  key    : Nat
  res    : FRes
  esc    : Bool
  poison : Bool
  cbits  : Nat
  qs     : List Quarter
  deriving DecidableEq, Repr

/-- Element (i, j) of a pass whose row `i` belongs to `c` (spec/09 R194, R195, R201). In a joint pass whose members carry different rounding
modes the mode of the member that owns the row rounds it (DESIGN CHOICE, log entry 92). -/
def passElem (s : State) (c : EngCmd) (ms : List (EngCmd × List (Nat × Bool))) (i j : Nat) : PassElem :=
  let key := regionKey s c 0 i j
  let zero := bitOf (ctlWord c) 13
  let cb := if zero then 0 else tileAt s key
  let cv : Option FVal := some (fdecode fmt32 cb)
  let qs := ms.map (fun m => quarterOf m.1 m.2 i j)
  let terms := (ms.zip qs).map (fun x => quarterTerms x.1.1 x.2)
  let poison := qs.any (·.poison) || (!zero && s.tilePoison.contains key)
  let all := terms.flatten
  let r := if poison then nanRes fmt32 flagNone else elemRule fmt32 c.rm cv all
  let wide := passClass c == 0
  let esc := !poison && (elemSpecial fmt32 cv all).isNone &&
    (if ms.length = 1 then tileEscalates wide cv all else joinEscalates wide cv terms)
  ⟨c.id, key, r, esc, poison, cb, qs⟩

/-- The member that owns result row `i` (spec/09 R201). -/
def rowOwner (ms : List EngCmd) (c : EngCmd) (i : Nat) : EngCmd := if ms.length = 1 then c else ms.getD (i / (passM c / 4)) c

/-- Every element of a pass. -/
def passElems (s : State) (c : EngCmd) (ms : List EngCmd) : List PassElem :=
  let bs := ms.map (fun m => (m, (rangeFrom 0 (passN c)).map (bSlice s m)))
  (rangeFrom 0 (passM c)).flatMap (fun i => (rangeFrom 0 (passN c)).map (passElem s (rowOwner ms c i) bs i))

/-- The parking entry of an escalating element: Brock always decides it (spec/05 R107, R108, R110). -/
def tileEntry (c : EngCmd) (e : PassElem) : ParkEntry :=
  cmdPark c 3 (e.key / 2 ^ 14 % 16) (e.key % 2 ^ 14) fmt32 0 e.qs.length
    ([aFmt c, bFmt c, e.cbits] ++ e.qs.flatMap (fun q => [q.a, q.b])) [] [] 1 e.res e.res

/-- A pass's elements: those that the fast path decides are written, the others are pending and park (spec/09 R195), by
rows and within a row by columns (the model's choice of order, log entry 108). -/
def endPass (s : State) (c : EngCmd) (ms : List EngCmd) : State :=
  let es := passElems s c ms
  let fast := es.filter (fun e => !e.esc)
  let slow := es.filter (·.esc)
  let s1 := writeTiles s (fast.map (fun e => (e.key, e.res.bits)))
  let s2 := { s1 with tilePend := slow.map (·.key) ++ s1.tilePend }
  ms.foldl (fun s m =>
    let mine := fast.filter (fun e => e.owner == m.id)
    let s' := cmdFlags (updCmd s m.id (fun x => { x with unit := 2, stage := .finished, aux := [] })) m.id
      (orFlags (mine.map (·.res.flags))) (mine.any (·.poison))
    engPark s' ((slow.filter (fun e => e.owner == m.id)).map (tileEntry m))) s2

/-- Whether a pass has run its time (spec/09 R187). -/
def passOver (s : State) (c : EngCmd) : Bool :=
  isPass c && c.stage == .running && c.unit == 1 && decide (c.aux.getD 1 0 + passClocks c ≤ s.clk)

/-- EVENT: a pass ends (spec/09 R195, R201). -/
def execPassEnd (cluster : Nat) (s : State) : Res :=
  match s.cmds.find? (fun c => c.cluster == cluster && passOver s c && !(unitTraceHeld s (cmdSource c))) with
  | none => .next s
  | some c =>
    let ms := passMembers s c
    if ms.all (passOver s) then .next (endPass s (ms.headD c) ms) else .next s

/-! ### `WLOAD` (spec/10 R214) -/

/-- A 4 KiB piece of a `WLOAD`. -/
def wloadUnit (c : EngCmd) (s : State) : State :=
  let at_ := 4096 * c.unit
  let n := min 4096 (wlLen c - at_)
  let off := bitsOf (ctlWord c) 31 0
  engUnit s c false [⟨0, blockPair c 0 + at_, n, .read⟩] (fun trs s =>
    let r := engRead s c trs 0 (blockPair c 0 + at_) n
    let data := if r.2 then (rangeFrom 0 n).map (fun k => BitVec.ofNat 8 (Config.freeNat s.freeCtr (7 * 2 ^ 20 + k))) else r.1
    match cmdAddrTeam s c off with
    | none => s
    | some t => updCmd (cmdFlags (weightWrite s t (off % 2 ^ 28 + at_) data) c.id flagNone r.2) c.id nextUnit)

/-! ### `ACCX` (spec/10 R215 to R217) -/

/-- The memory element (i, j) of an `ACCX`. -/
def accElemAddr (c : EngCmd) (i j : Nat) : Nat := accAddr c + i * accPitch c + j * elemBytes (accFmt c)

/-- The parking entry of an escalating `ACCX` element (spec/10 R217); `place` says where a `.st` element goes. -/
def accEntry (c : EngCmd) (key : Nat) (f : FloatFmt) (va m t st : Nat) (place opnds : List Nat) (r near : FRes) : ParkEntry :=
  cmdPark c 4 (key / 2 ^ 14 % 16) (key % 2 ^ 14) f 0 1
    [if accOp c = 0 then accFmt c else 0, va, if accBeta c = 0 then 0 else m, accBeta c, t, accAlpha c] place opnds st r near

/-- What an `ACCX` element's approximation and stage depend on, beside its destination format (spec/05 R104). -/
def accInputs (c : EngCmd) (t m : Nat) : List Nat := [accAlpha c, t, accBeta c, m]

/-- The stage that decides an `ACCX` element of result `r` (spec/05 R104). `.st` to FP32 and `.add` share one function, which the spec
leaves open (the model's choice, log entry 105). A `.st` with α = 1 and β = +0 that needs no rounding never escalates: with such elements R473
fixes `ESCB` (DEDUCED, log entry 115). -/
def accStage (c : EngCmd) (ps : List (FVal × FVal)) (t m : Nat) (r : FRes) : Nat :=
  if (elemSpecial fmt32 none ps).isSome then 0
  else if accOp c = 0 ∧ accAlpha c = 0x3F800000 ∧ accBeta c = 0 ∧ r.flags &&& flagNX = flagNone then 0
  else stageOf 160 (accInputs c t m) (if accOp c = 0 then fmtCode (tileFmt (accFmt c)) else 0)

/-- The products of an `ACCX` element: β·m is absent where `.st` has β = +0 (spec/10 R216). -/
def accTerms (c : EngCmd) (t m : FVal) : List (FVal × FVal) :=
  (fdecode fmt32 (accAlpha c), t) :: (if accOp c = 0 ∧ accBeta c = 0 then [] else [(fdecode fmt32 (accBeta c), m)])

/-- One element of a row of `ACCX.st`. -/
def accStore (c : EngCmd) (trs : List (Nat × Trans)) (i : Nat) (s : State) (j : Nat) : State :=
  let f := tileFmt (accFmt c)
  let key := regionKey s c 0 i j
  let va := accElemAddr c i j
  let old := if accBeta c = 0 then ([], false) else engRead s c trs (accSpace c) va (elemBytes (accFmt c))
  let tv := fdecode fmt32 (tileAt s key)
  let mv := fdecode f (ofBytes old.1)
  let ps := accTerms c tv mv
  let poison := old.2 || s.tilePoison.contains key
  let r := if poison then nanRes f flagNone else elemRule f c.rm none ps
  let st := if poison then 0 else accStage c ps (tileAt s key) (ofBytes old.1) r
  if st = 0 then cmdFlags (engWrite s c trs (accSpace c) va (toBytes (elemBytes (accFmt c)) r.bits)) c.id r.flags poison
  else
    let place := (resPlaces s c trs ⟨accSpace c, va, f, r⟩).flatMap (fun p => [p.tgt, p.home, p.pa, p.dev, p.size, r.bits])
    let m32 := (fconvert f fmt32 .rne false (ofBytes old.1)).bits
    engPark s [accEntry c key f va m32 (tileAt s key) st place (accInputs c (tileAt s key) (ofBytes old.1)) r (elemRule f .rne none ps)]

/-- One element of a row of `ACCX.ld`. -/
def accLoad (c : EngCmd) (trs : List (Nat × Trans)) (i : Nat) (s : State) (j : Nat) : State :=
  let b := engRead s c trs (accSpace c) (accElemAddr c i j) (elemBytes (accFmt c))
  let r := if b.2 then nanRes fmt32 flagNone else fconvert (tileFmt (accFmt c)) fmt32 .rne false (ofBytes b.1)
  cmdFlags (writeTiles s [(regionKey s c 0 i j, r.bits)]) c.id r.flags b.2

/-- One element of a row of `ACCX.add`. -/
def accAdd (c : EngCmd) (i : Nat) (s : State) (j : Nat) : State :=
  let key := regionKey s c 0 i j
  let key2 := regionKey s c 1 i j
  let t := tileAt s key
  let t2 := tileAt s key2
  let ps := accTerms c (fdecode fmt32 t) (fdecode fmt32 t2)
  let poison := s.tilePoison.contains key || s.tilePoison.contains key2
  let r := if poison then nanRes fmt32 flagNone else elemRule fmt32 c.rm none ps
  let st := if poison then 0 else accStage c ps t t2 r
  if st = 0 then cmdFlags (writeTiles s [(key, r.bits)]) c.id r.flags poison
  else engPark { s with tilePend := key :: s.tilePend } [accEntry c key fmt32 0 t2 t st [] (accInputs c t t2) r (elemRule fmt32 .rne none ps)]

/-- A tile row of an `ACCX` (spec/10 R208, R216): with a pending element anywhere in its region the command holds at the pass boundary,
before its first row (spec/09 R193). -/
def accxUnit (c : EngCmd) (s : State) : State :=
  let i := c.unit
  let n := accN c * elemBytes (accFmt c)
  let cols := rangeFrom 0 (accN c)
  if i = 0 ∧ regionPending s c then s
  else
    match accOp c with
    | 0 => engUnit s c false (⟨accSpace c, accElemAddr c i 0, n, .write⟩ ::
          (if accBeta c = 0 then [] else [⟨accSpace c, accElemAddr c i 0, n, .read⟩])) (fun trs s =>
        updCmd (cols.foldl (accStore c trs i) s) c.id nextUnit)
    | 1 => engUnit s c false [⟨accSpace c, accElemAddr c i 0, n, .read⟩] (fun trs s =>
        updCmd (cols.foldl (accLoad c trs i) s) c.id nextUnit)
    | 2 => updCmd (cols.foldl (accAdd c i) s) c.id nextUnit
    | _ => updCmd (writeTiles s (cols.map (fun j => (regionKey s c 0 i j, 0)))) c.id nextUnit

/-! ### The `QNT` commands (spec/10 R218 to R221) -/

/-- A source run of a `QNT` command as FP32 encodings or wider values: the values with the flags of reading them, and whether one
is poisoned. -/
def qElems (s : State) (c : EngCmd) (trs : List (Nat × Trans)) (i j n : Nat) : List Nat × Bool :=
  if qSsp c = 2 then
    let keys := (rangeFrom j n).map (regionKey s c 0 i)
    (keys.map (tileAt s), keys.any (s.tilePoison.contains ·))
  else
    let size := elemBytes (qSfmt c)
    let r := engRead s c trs (qSsp c) (qSrc c + i * qSpitch c + j * size) (n * size)
    ((chunksOf size (n + 1) r.1).map ofBytes, r.2)

/-- One destination run converted: its bytes, flags. `vals` are encodings of SFMT (spec/10 R220), each with whether it is poisoned: the NaN
that it gives is a poison record for a block format (spec/20 R444). -/
def qConvert (c : EngCmd) (vals : List (Nat × Bool)) : List Byte × Flags :=
  let src := tileFmt (qSfmt c)
  if isBd (qDfmt c) then
    let recs := (chunksOf 32 (vals.length + 1) vals).map (fun b =>
      if b.any (·.2) then ⟨255, flagNone⟩ else bdQuant (qDfmt c) c.rm (b.map (fun x => fdecode src x.1)))
    (recs.flatMap (fun r => toBytes (fmtBytes32 (qDfmt c)) r.bits), orFlags (recs.map (·.flags)))
  else
    let dst := tileFmt (qDfmt c)
    let rs := vals.map (fun x => if x.2 then nanRes dst flagNone else fconvert src dst c.rm false x.1)
    (rs.flatMap (fun r => toBytes (elemBytes (qDfmt c)) r.bits), orFlags (rs.map (·.flags)))

/-- One element of `DEQ` (spec/10 R220): a poison record's elements raise NV. -/
def deqElem (c : EngCmd) (run k : Nat) : FRes :=
  let dst := tileFmt (qDfmt c)
  if isBd (qSfmt c) then
    (match storedElem (qSfmt c) run k with
     | .nan _ => nanRes dst flagNV
     | .inf n => ⟨fmtInf dst n, flagNone⟩
     | .fin n m e => roundExact dst c.rm ⟨n, m, e, false⟩)
  else
    let b := 8 * elemBytes (qSfmt c)
    fconvert (tileFmt (qSfmt c)) dst c.rm false (bitsOf run (b * k + b - 1) (b * k))

/-- Whether the bytes that element `k` of a `DEQ` row comes from, its own or its record's, are poisoned. -/
def deqBad (s : State) (c : EngCmd) (trs : List (Nat × Trans)) (i k : Nat) : Bool :=
  let n := if isBd (qSfmt c) then fmtBytes32 (qSfmt c) else elemBytes (qSfmt c)
  (engRead s c trs (qSsp c) (qSrc c + i * qSpitch c + (if isBd (qSfmt c) then k / 32 else k) * n) n).2

/-- A destination row written, in its space. -/
def qWrite (s : State) (c : EngCmd) (trs : List (Nat × Trans)) (va : Nat) (b : List Byte) : State :=
  if qDsp c = 2 then
    (match cmdAddrTeam s c va with
     | none => s
     | some t => weightWrite s t (va % 2 ^ 28) b)
  else engWrite s c trs (qDsp c) va b

/-- Destination row `i` of a `QNT` command: its bytes, its flags, and whether it read poison, which makes a NaN of each result that depends
on it (spec/20 R444). The transposed half's rows are the source's columns (spec/10 R221). -/
def qRow (s : State) (c : EngCmd) (trs : List (Nat × Trans)) (trans : Bool) (i : Nat) : List Byte × Flags × Bool :=
  let n := if trans then qRows c else qCols c
  if qFn c = 1 then
    let r := engRead s c trs (qSsp c) (qSrc c + i * qSpitch c) (rowBytes (qSfmt c) n)
    let rs := (rangeFrom 0 n).map (fun k => if r.2 && deqBad s c trs i k then nanRes (tileFmt (qDfmt c)) flagNone else deqElem c (ofBytes r.1) k)
    (rs.flatMap (fun x => toBytes (elemBytes (qDfmt c)) x.bits), orFlags (rs.map (·.flags)), r.2)
  else
    let e := if trans then
        (let l := (rangeFrom 0 n).map (fun r => qElems s c trs r i 1)
         (l.flatMap (·.1), l.map (·.2)))
      else
        (let r := qElems s c trs i 0 n
         (r.1, (rangeFrom 0 n).map (fun k => r.2 && (qElems s c trs i k 1).2)))
    let r := qConvert c (e.1.zip e.2)
    (r.1, r.2, e.2.any id)

/-- What a unit of a `QNT` command reads and writes. -/
def qExtents (c : EngCmd) (trans : Bool) (i dst len : Nat) : List Extent :=
  (if qSsp c = 2 then []
   else if trans then
     (rangeFrom 0 (qRows c)).map (fun r => (⟨qSsp c, qSrc c + r * qSpitch c + i * elemBytes (qSfmt c), elemBytes (qSfmt c), .read⟩ : Extent))
   else [⟨qSsp c, qSrc c + i * qSpitch c, rowBytes (qSfmt c) (qCols c), .read⟩]) ++
  (if qDsp c = 2 then [] else [⟨qDsp c, dst, len, .write⟩])

/-- A destination row of a `QNT` command (spec/10 R208, R218, R221); a `CVTT` holds at the pass boundary while an element of its region is
pending (R220). -/
def qntUnit (c : EngCmd) (s : State) : State :=
  let trans := decide (qRows c ≤ c.unit)
  let i := if trans then c.unit - qRows c else c.unit
  let len := rowBytes (qDfmt c) (if trans then qRows c else qCols c)
  let dst := if trans then qTdst c + i * len else qDst c + i * qDpitch c
  if qSsp c = 2 ∧ c.unit = 0 ∧ regionPending s c then s
  else
    engUnit s c trans (qExtents c trans i dst len) (fun trs s =>
      let r := qRow s c trs trans i
      updCmd (cmdFlags (qWrite s c trs dst r.1) c.id r.2.1 r.2.2) c.id nextUnit)

/-- The units of a command (spec/10 R208). -/
def cmdUnits (c : EngCmd) : Nat :=
  match c.kind with
  | .wload => ceilDiv (wlLen c) 4096
  | .accx => accM c
  | .qnt 2 => qRows c + qCols c
  | .qnt _ => qRows c
  | _ => 1

/-- EVENT: `WLOAD`, `ACCX` or a `QNT` command processes one unit (spec/10 R208). -/
def execEngineUnit (cluster : Nat) (s : State) : Res :=
  match s.cmds.find? (fun c => isMatrix c && !(isPass c) && c.cluster == cluster && engineMay s c) with
  | none => .next s
  | some c0 =>
    let c := { c0 with units := cmdUnits c0 }
    let s1 := updCmd s c.id (fun _ => c)
    match c.kind with
    | .wload => .next (wloadUnit c s1)
    | .accx => .next (accxUnit c s1)
    | _ => .next (qntUnit c s1)

/-! ### Completion (spec/05 R115, spec/09 R197, R201) -/

/-- The matrix command of a cluster that completes next: the first in grant order (spec/09 R197). -/
def oldestGranted (s : State) (cluster : Nat) : Option EngCmd :=
  (s.cmds.filter (fun c => isMatrix c && c.cluster == cluster && c.stage != .queued && c.stage != .forming)).foldl (fun b c =>
    match b with
    | none => some c
    | some x => if c.order < x.order then some c else some x) none

/-- Whether a command may complete now. -/
def mayComplete (s : State) (c : EngCmd) : Bool :=
  (oldestGranted s c.cluster).any (fun x => x.id == c.id) && c.stage != .running && cmdSettled s c && c.key.isNone &&
  !(unitTraceHeld s (cmdSource c))

/-- A matrix command completes: its flags reach the first posting gang, then its timeline advances (spec/10 R207). -/
def completeMatrix (s : State) (c : EngCmd) : State :=
  let s1 := updGangAnywhere s c.gang (fun g => gangOrFlags g c.flags)
  match c.stage with
  | .dropped err => completeCmd s1 c err (!err)
  | _ => completeCmd s1 c c.err false

/-- EVENT: the oldest granted matrix command completes; the four of a join complete at one event (spec/09 R197, R201). -/
def execMatrixCommandComplete (cluster : Nat) (s : State) : Res :=
  match oldestGranted s cluster with
  | none => .next s
  | some c =>
    let ms := passMembers s c
    if ms.all (mayComplete s) then .next (enterRounds (ms.foldl completeMatrix s)) else .next s

/-! ### Resolution of tile and `ACCX` elements (spec/05 R115, R119) -/

/-- An element of a matrix command resolves: into its tile, or to the memory that a `.st` element goes to. A soft error writes the
canonical NaN with no flag, and the command ends with error status. -/
def resolveTile (s : State) (e : ParkEntry) (c : EngCmd) : State :=
  let f := codeFmt e.fmt
  let bits := if e.soft then fmtNaN f else e.result
  let key := pendKey e
  let s1 := if e.kind = 4 ∧ accOp c = 0 then
      (placeWrites e.place).foldl (fun s x => putPlace s c x.1 (toBytes x.1.size bits)) s
    else { writeTiles s [(key, bits)] with tilePend := s.tilePend.filter (· != key) }
  cmdFlags s1 c.id (if e.soft then flagNone else e.flags) e.soft

/-! ### Brock's and the Sett sequencer's decision -/

/-- An entry resolves, as one event: for an engine element it is written, its flags are kept for the command, its entries are
freed, and it counts for the posting gang (spec/05 R112, R115, R117). -/
def resolveEntry (s : State) (e : ParkEntry) : State :=
  let s0 := countEsc s e.cluster (if e.stage = 2 then 1 else 0) 1
  if e.kind < 2 then resolveLane s0 e
  else
    match findCmd s0 e.cmd with
    | none => { s0 with parkq := s0.parkq.filter (fun x => !(x.cluster == e.cluster && x.seq == e.seq)) }
    | some c =>
      let s1 := if e.kind = 2 then resolveRow s0 e c else resolveTile s0 e c
      let s2 := updGangAnywhere s1 c.gang (fun g => if e.stage = 2 then { g with escs := g.escs + 1 } else { g with escb := g.escb + 1 })
      { s2 with parkq := s2.parkq.filter (fun x => !(x.cluster == e.cluster && x.seq == e.seq)) }

/-- One unit in the last place of a finite value. -/
def lastPlace (f : FloatFmt) (v : FVal) : Dyadic :=
  let least : Int := 2 - 2 ^ (f.ebits - 1)
  ⟨1, (if (fdy v).m = 0 then least else imaxInt (dyLead (fdy v)) least) - f.fbits⟩

/-- Half of a unit in the last place of a finite value. -/
def halfPlace (f : FloatFmt) (v : FVal) : Dyadic := ⟨1, (lastPlace f v).e - 1⟩

/-- The least exponent of a bound that an approximation `a`, an FP64 encoding, of an element can have whose result under
round-to-nearest-even is `r` (spec/05 R104): 2^b reaches from the value that `a` rounds to an exact value that rounds to `r`, or is `r`. -/
def boundExp (f : FloatFmt) (r : FRes) (a : Nat) : Option Int :=
  let v := fdecode f r.bits
  let y := fdecode fmt64 a
  if !(isFin v) || !(isFin y) then none
  else
    let d := dyAdd (fdy y) (dyNeg (fdy v))
    let slack := if r.flags &&& flagNX = flagNone then halfPlace fmt64 y else dyAdd (halfPlace f v) (halfPlace fmt64 y)
    let x := dyAdd ⟨(d.m.natAbs : Int), d.e⟩ (dyNeg slack)
    if x.m ≤ 0 then none else some (if x.m.natAbs = 2 ^ x.m.natAbs.log2 then dyLead x else dyLead x + 1)

/-- `APPROX` and `BEXP` of an element of a format whose method is not published: free values that keep the bound of spec/05 R104 for some
exact value that gives the element's result `r` under round-to-nearest-even (log entry 96). -/
def freeApprox (f : FloatFmt) (r : FRes) (n : Nat) : Nat × Nat :=
  let v := fdecode f r.bits
  let a := n % 2 ^ 64
  let a1 := if isFin (fdecode fmt64 a) || !(isFin v) then a else (fconvert f fmt64 .rne false r.bits).bits
  let b := imaxInt (-32767) (signedOf 16 (n / 2 ^ 64))
  (a1, wrap 16 (match boundExp f r a1 with
    | some k => imaxInt k b
    | none => b))

/-- `APPROX` and `BEXP` of an entry: of a tile element under the published bound (spec/05 R105, R107), else free. -/
def entryApprox (e : ParkEntry) : Nat × Nat :=
  if e.kind = 3 then
    let fmt := fun (i : Nat) => e.payload.getD i 0
    let wide := fmt 0 == 0
    let k := 16 * 2 ^ min (fmtClass (fmt 0)) (fmtClass (fmt 1))
    let c := fdy (fdecode fmt32 (fmt 2))
    let qs := (rangeFrom 0 e.parts).map (fun q =>
      ((storedElems (fmt 0) (fmt (3 + 2 * q)) k).zip (storedElems (fmt 1) (fmt (4 + 2 * q)) k)).map (fun p => dyMul (fdy p.1) (fdy p.2)))
    let w := if e.parts = 1 then windowOf wide (c :: qs.flatten)
      else
        let lw := ((topLead (c :: qs.flatten)).getD 0) - windowBits wide
        let parts := qs.map (windowOf wide)
        let cut := parts.map (fun w => truncAt lw ⟨w.y, w.lw⟩)
        let y := dySum (c :: cut.map (fun x => (⟨x.1, lw⟩ : Dyadic)))
        let er := dySum (⟨((cut.filter (·.2)).length : Int), lw⟩ :: parts.map (fun w => (⟨w.e, w.lw⟩ : Dyadic)))
        let u := iminInt y.e er.e
        ⟨dyAt y u, dyAt er u, u⟩
    let y := (roundSum fmt64 .rne ⟨w.y, w.lw⟩).bits
    let b : Int := if w.e ≤ 0 then -32768 else (if w.e.natAbs = 2 ^ w.e.natAbs.log2 then (w.e.natAbs.log2 : Int) else w.e.natAbs.log2 + 1) + w.lw
    (y, wrap 16 b)
  else
    freeApprox (codeFmt e.fmt) e.near (Config.approx (e.kind * 64 + e.opc) e.opnds e.fmt).toNat

/-- Bits [255:0] of part `k` of an element's entries (spec/05 R107). -/
def entryHeader (e : ParkEntry) (k : Nat) : Nat :=
  let a := entryApprox e
  e.ptime % 2 ^ 64 * 2 ^ 192 + a.1 % 2 ^ 64 * 2 ^ 128 + a.2 % 2 ^ 16 * 2 ^ 112 + (e.seq.toNat + k) % 2 ^ 32 * 2 ^ 80 + e.stage % 4 * 2 ^ 78 +
  e.kind % 8 * 2 ^ 75 + e.ctx % 32 * 2 ^ 70 + e.core % 4 * 2 ^ 68 + e.slot % 64 * 2 ^ 62 + e.lane % 64 * 2 ^ 56 + e.reg % 128 * 2 ^ 49 +
  e.half % 2 * 2 ^ 48 + e.tile % 16 * 2 ^ 44 + e.elem % 2 ^ 14 * 2 ^ 30 + rmodeCode e.rm * 2 ^ 27 + e.fmt % 8 * 2 ^ 24 + e.opc % 64 * 2 ^ 18 +
  k % 4 * 2 ^ 16 + bitNat (e.parts == k + 1) * 2 ^ 15

/-- `PAYLOAD` of part `k` of an element's entries, at its place in the entry (spec/05 R108, spec/10 R217). -/
def entryPayload (e : ParkEntry) (k : Nat) : Nat :=
  let p := fun (i : Nat) => e.payload.getD i 0
  let word := fun (lo hi v : Nat) => v % 2 ^ (hi + 1 - lo) * 2 ^ lo
  match e.kind with
  | 0 => word 256 319 (p 0)
  | 1 =>
    let w := (codeFmt e.fmt).width
    let n := 1792 / w
    2 ^ 256 * packLanes w ((e.payload.drop (n * k)).take n)
  | 2 => word 384 447 (p 0) + word 320 383 (p 1) + word 256 319 (p 2)
  | 3 =>
    word 1280 2047 (p (4 + 2 * k)) + word 512 1279 (p (3 + 2 * k)) + (if k = 0 then word 480 511 (p 2) else 0) + word 472 479 (p 0) +
    word 464 471 (p 1)
  | _ => word 448 451 (p 0) + word 384 447 (p 1) + word 352 383 (p 2) + word 320 351 (p 3) + word 288 319 (p 4) + word 256 287 (p 5)

/-- Part `k` of an element's entries, 256 bytes (spec/05 R106 to R108). -/
def entryImage (e : ParkEntry) (k : Nat) : Nat := entryPayload e k + entryHeader e k

/-- The launch tag of an entry's owner. -/
def entryTag (s : State) (e : ParkEntry) : Dword :=
  if e.kind < 2 then ((findGang s (e.cluster * 4 + e.core) e.slot).map (fun g => gridTag s g.ctx g.grid)).getD 0
  else ((findCmd s e.cmd).map (fun c => gridTag s c.ctx c.grid)).getD 0

/-- Whether an entry has been where it is for as long as the message that brought it takes at least (spec/14 R308). -/
def entryReached (s : State) (e : ParkEntry) : Bool := decide (e.since + msgTicks 0 0 ≤ s.dtb)

/-- The state with an entry moved to a stage. -/
def setStage (s : State) (cluster : Nat) (seq : Word) (st : Nat) : State :=
  { s with parkq := s.parkq.map (fun x => if x.cluster == cluster && x.seq == seq then { x with stage := st, since := s.dtb } else x) }

/-- Whether an entry is one of a gang that is being pre-empted: those go ahead of all others (spec/05 R118). -/
def drainsFirst (s : State) (e : ParkEntry) : Bool := decide (e.kind < 2) && s.ctxs.any (fun c => c.id == e.ctx && c.save == 1)

/-- EVENT: Brock takes the next parking entry, in SEQ order (spec/05 R110); an `ESC` event is generated for each entry of
the element (spec/14 R311). -/
def execBrockAccept (cluster : Nat) (s : State) : Res :=
  let wait := s.parkq.filter (fun e => e.cluster == cluster && e.stage == 0)
  let first := match wait.find? (drainsFirst s) with
    | some e => some e
    | none => wait.head?
  if unitTraceHeld s (.brock cluster) then .next s
  else
    match first with
    | none => .next s
    | some e =>
      let e1 := { e with stage := 1 }
      if !(entryReached s e) then .next s
      else .next ((rangeFrom 0 e.parts).foldl (fun s k => emit s (.brock cluster) e.ctx 0x07 (entryImage e1 k % 2 ^ 256) (entryTag s e) none)
        (setStage s cluster e.seq 1))

/-- EVENT: Brock decides an element that it holds, in any order, or passes it on to the Sett sequencer (spec/05 R110, R112). -/
def execBrockDecide (cluster : Nat) (s : State) : Res :=
  match s.parkq.filter (fun e => e.cluster == cluster && e.stage == 1 && entryReached s e) with
  | [] => .next s
  | d :: r =>
    let e := pickOne s.freeCtr (20 * 2 ^ 20 + cluster) d (d :: r)
    if e.decider = 2 ∧ !e.soft then .next (setStage s cluster e.seq 2) else .next (admitHeld (resolveEntry s e))

/-- EVENT: the Sett sequencer resolves an entry (spec/05 R111). -/
def execSettResolve (cluster : Nat) (seq : Word) (s : State) : Res :=
  match s.parkq.find? (fun e => e.cluster == cluster && e.seq == seq && e.stage == 2 && entryReached s e) with
  | none => .next s
  | some e => .next (admitHeld (resolveEntry s e))

end Sys2Proof.Machine
end

