-- ==== Sys2Proof/Machine/Place.lean ====
section
/-! DEFINITION. Placement: where teams fit (spec/18 R391), how crews are placed (R392), which launch is served (R393, R394), the
carve-out (spec/11 R255), and what retired teams free (spec/16 R357). -/

namespace Sys2Proof.Machine

/-! ### Where a team fits (spec/18 R391) -/

/-- The teams whose team memory a core holds (spec/16 R357). -/
def coreTeams (s : State) (core : Nat) : List Team := s.teams.filter (fun t => t.core == core)

/-- The kernel of a team. -/
def teamKernel (s : State) (t : Team) : Option Kernel := (findGrid s t.ctx t.grid).map (·.kernel)

/-- The team memory that a core's resident teams declare. -/
def coreTmem (s : State) (core : Nat) : Nat := sumNat ((coreTeams s core).filterMap (fun t => (teamKernel s t).map (·.tmem)))

/-- The largest minimum L1 of a core's resident kernels. -/
def coreL1min (s : State) (core : Nat) : Nat := maxNat ((coreTeams s core).filterMap (fun t => (teamKernel s t).map (·.l1min)))

/-- A size rounded up to 32 KiB. -/
def roundCarve (n : Nat) : Nat := ceilDiv n 32768 * 32768

/-- The free accumulator tiles of a cluster (spec/09 R193). -/
def freeTiles (s : State) (cluster : Nat) : List Nat :=
  let used := (s.teams.filter (fun t => coreCluster t.core == cluster)).flatMap (·.tiles)
  (rangeFrom 0 16).filter (fun k => !(used.contains k))

/-- The free weight slices of a cluster (spec/09 R191). -/
def freeSlices (s : State) (cluster : Nat) : List Nat :=
  let used := (s.teams.filter (fun t => coreCluster t.core == cluster)).flatMap (·.slices)
  (rangeFrom 0 16).filter (fun k => !(used.contains k))

/-- The slots and pipes that the gangs of a team of a kernel take on a core where it fits (spec/18 R391). -/
def teamFits (s : State) (k : Kernel) (core : Nat) : Option (List (Nat × Nat)) :=
  if 512 * 1024 < roundCarve (coreTmem s core + k.tmem) + max (coreL1min s core) k.l1min then none
  else if (freeTiles s (coreCluster core)).length < k.acc ∨ (freeSlices s (coreCluster core)).length < k.acc then none
  else fitGangs s core (k.team / k.gang) k.gang k.vregs 0 true true

/-! ### The carve-out (spec/11 R255) -/

/-- The team-memory part of a core's local store. -/
def carveOf (s : State) (core : Nat) : Nat := sparseGet 0 s.carve core

/-- The private lines of a core that a move of the boundary displaces: which lines it displaces is not stated. -/
def displaced (s : State) (core : Nat) : List PrivLine :=
  ((s.privLines.zip (rangeFrom 0 s.privLines.length)).filter (fun x =>
    x.1.core == core && Config.freeBit s.freeCtr (8 * 2 ^ 20 + x.2))).map (·.1)

/-- An L1 brought down to the lines that it has room for; the number bounds how many leave. -/
def shrinkL1 (core : Nat) : Nat → State → State
  | 0, s => s
  | n + 1, s => if l1Count s core ≤ l1Lines s core then s else shrinkL1 core n (evictL1 s core)

/-- The lines that a growing team-memory part displaces: leased lines are dropped, dirty private ones written back, and the rest fit into
the L1 part (spec/11 R254, R255, R487). -/
def displaceLines (s : State) (core : Nat) : State :=
  let gone := (s.lines.zip (rangeFrom 0 s.lines.length)).filter (fun x =>
    x.1.holder == .l1 core && Config.freeBit s.freeCtr (9 * 2 ^ 20 + x.2))
  let s1 := gone.foldl (fun s x => dropLine s (.l1 core) x.1.line) s
  let s2 := (displaced s core).foldl (fun s l => (evictPriv s l).getD s) s1
  shrinkL1 core (l1Count s2 core) s2

/-- The boundary of a core set; a larger team-memory part displaces lines. -/
def setCarve (s : State) (core t : Nat) : State :=
  let s1 := { s with carve := sparseSet 0 s.carve core t }
  if carveOf s core < t then displaceLines s1 core else s1

/-- The boundary moved, when a team is placed, to where its bounds allow: no less than the resident teams' memory needs, no more than the
largest L1MIN leaves (spec/11 R255). -/
def growCarve (s : State) (core : Nat) : State :=
  let t := min (max (carveOf s core) (roundCarve (coreTmem s core))) ((512 * 1024 - coreL1min s core) / 32768 * 32768)
  if carveOf s core = t then s else setCarve s core t

/-- EVENT: the end of a core's 65,536-clock interval: the boundary moves one step towards the better hit rate, within its bounds
(spec/11 R255). -/
def execCarveoutInterval (core : Nat) (move : CarveMove) (s : State) : Res :=
  let t := carveOf s core
  let want := match move with
    | .lessL1 => t + 32768
    | .moreL1 => t - 32768
    | .stay => t
  .next (if roundCarve (coreTmem s core) ≤ want ∧ want + coreL1min s core ≤ 512 * 1024 then setCarve s core want else s)

/-! ### Placing crews (spec/18 R392) -/

/-- The threads of one gang of a placed team (spec/02 R37, spec/11 R252). -/
def teamThreads (k : Kernel) (uid0 team gang : Nat) : List Thread :=
  (rangeFrom 0 k.gang).map (fun l =>
    let v0 := gang * k.gang + l
    { blankThread (uid0 + v0) l (toDword (team * k.team + v0)) (some (team * (ceilDiv k.team 64 * 64) + v0)) with
      v := sparseSet 0#32 [] 0 (toWord v0) })

/-- The elements of physical tiles of a cluster cleared: a new team's tiles hold 0 (spec/09 R193). -/
def clearTiles (s : State) (cluster : Nat) (l : List Nat) : State :=
  let mine := fun (k : Nat) => l.any (fun p => k / 2 ^ 14 == cluster * 16 + p)
  if l.isEmpty then s
  else { s with
    tiles := s.tiles.filter (fun x => !(mine x.1))
    tilePend := s.tilePend.filter (fun k => !(mine k))
    tilePoison := s.tilePoison.filter (fun k => !(mine k)) }

/-- The bytes of weight slices of a cluster forgotten: a new team's slices hold what the device chooses (spec/09 R191, log entry
7). -/
def clearSlices (s : State) (cluster : Nat) (l : List Nat) : State :=
  let mine := fun (k : Nat) => l.any (fun p => k / 2 ^ 18 == cluster * 16 + p)
  if l.isEmpty then s
  else { s with weights := s.weights.filter (fun x => !(mine x.1)), wPoison := s.wPoison.filter (fun k => !(mine (k * 64))) }

/-- One team placed on a core, its gangs in the slots and pipes found (spec/18 R392): it emits `TEAMGO` (spec/14 R311), which holds the
team's first gang where the core's buffer is full (R317). -/
def placeTeam (s : State) (gr : Grid) (core index crew rank : Nat) (sp : List (Nat × Nat)) : State :=
  let k := gr.kernel
  let cl := coreCluster core
  let tiles := (freeTiles s cl).take k.acc
  let slices := (freeSlices s cl).take k.acc
  let uid0 := s.nextId
  let n := sp.length
  let gangs := (sp.zip (rangeFrom 0 n)).map (fun x =>
    newGang s (uid0 + k.team + x.2) core x.1.1 x.1.2 gr.ctx gr.index (some index) x.2 k.gang (teamThreads k uid0 index x.2) gr.kernel.entry)
  let s1 := clearSlices (clearTiles { s with nextId := uid0 + k.team + n } cl tiles) cl slices
  let s2 := { s1 with
    gangs := s1.gangs ++ gangs
    teams := s1.teams ++ [⟨uid0, gr.ctx, gr.index, index, crew, rank, core, [], [], [], [], [], 0, [], tiles, slices, rangeFrom uid0 k.team, false⟩] }
  growCarve (emitFor s2 (.core core) gr.ctx 0x03 (index % 2 ^ 32 + core % 512 * 2 ^ 32) (gridTag s2 gr.ctx gr.index)
    ((sp.head?).map (fun x => (core, x.1)))) core

/-- Teams of a crew placed on cores of a cluster in rank order, each on the next core with room. -/
def placeRanks (gr : Grid) (crew : Nat) : List Nat → Nat → Nat → State → Option State
  | _, _, 0, s => some s
  | [], _, _, _ => none
  | c :: cs, rank, n + 1, s =>
    match teamFits s gr.kernel c with
    | none => placeRanks gr crew cs rank (n + 1) s
    | some sp => placeRanks gr crew cs (rank + 1) n (placeTeam s gr c (crew * gr.kernel.crew + rank) crew rank sp)

/-- The clusters that placement tries for a grid's next crew, in order (spec/18 R392). -/
def crewClusters (s : State) (gr : Grid) : List Nat :=
  match findCtx s gr.ctx with
  | none => []
  | some c =>
    let first := match gr.lastClus with
      | some n => n + 1
      | none => 0
    ((rangeFrom 0 96).map (fun k => (first + k) % 96)).filter (fun k => c.coreset.getLsbD k)

/-- The next crew of a grid placed in a cluster where all of its teams fit (spec/18 R392). -/
def placeCrew (s : State) (ctx index : Nat) : Option State :=
  match findGrid s ctx index with
  | none => none
  | some gr =>
    let crew := gr.placed / gr.kernel.crew
    (crewClusters s gr).findSome? (fun cl =>
      let s0 := { s with crews := s.crews ++ [⟨ctx, index, crew, cl, []⟩] }
      (placeRanks gr crew (rangeFrom (cl * 4) 4) 0 gr.kernel.crew s0).map (fun s1 =>
        updGrid s1 ctx index (fun g =>
          { g with placed := g.placed + g.kernel.crew, lastClus := some cl, waitFrom := none, blocked := false })))

/-- All crews of a grid placed together; `fuel` bounds their number. -/
def placeCrews (ctx index : Nat) : Nat → State → Option State
  | 0, _ => none
  | fuel + 1, s =>
    match findGrid s ctx index with
    | none => none
    | some gr =>
      if gr.launch.nteams ≤ gr.placed then some s
      else match placeCrew s ctx index with
        | none => none
        | some s1 => placeCrews ctx index fuel s1

/-- The most teams that the device can hold: 64 gangs on each core. -/
def maxTeams : Nat := 384 * 64

/-- Whether a whole grid fits at once on its tenant's clusters with no other work resident (spec/03 R71 check 5, spec/18 R391). -/
def gridFits (s : State) (gr : Grid) : Bool :=
  decide (gr.launch.nteams ≤ maxTeams) &&
  (placeCrews gr.ctx gr.index (maxTeams + 1)
    { s with gangs := [], teams := [], crews := [], dens := [], privLines := [], lines := [], traceBuf := [], grids := [gr] }).isSome

/-! ### Groups (spec/16 R352) -/

/-- The indices of a list checked: below the number of teams and rising without repeats. -/
def groupLegal (nteams : Nat) : List Nat → Bool
  | [] => true
  | [x] => decide (x < nteams)
  | x :: y :: r => decide (x < nteams) && decide (x < y) && groupLegal nteams (y :: r)

/-- A read of memory for a tenant by the hub, translated and checked; the address that could not be read otherwise (spec/03 R71). The
node window reads 0 (spec/18 R386). A page of a peer or of another window passes checks 5 to 8 as R71 words them; the model counts it as
one that cannot be read (DESIGN CHOICE, log entry 86). The bytes of a poisoned line are taken as they stand: R444 names no outcome for
them (DESIGN CHOICE, log entry 88). -/
def hubRead (s : State) (ctx va n : Nat) : Except Nat (List Byte) :=
  (runPieces va n).foldl (fun a r =>
    match a with
    | .error x => .error x
    | .ok l =>
      match unitTranslate s hubDie ctx r.1 r.2 .read with
      | .error _ => .error r.1
      | .ok t =>
        match pteTgt t.pte with
        | 0 => .ok (l ++ memBytes s (transPa t r.1) r.2)
        | 1 => .ok (l ++ hostBytes s (transPa t r.1) r.2)
        | 5 => .ok (l ++ windowBytes s ctx (transPa t r.1) r.2 0)
        | _ => .error r.1) (.ok [])

/-- COUNT of a group entry. -/
def groupCount (table : List Byte) (i : Nat) : Nat := fieldAt table (16 * i + 4) 4

/-- LIST of a group entry. -/
def groupList (table : List Byte) (i : Nat) : Nat := fieldAt table (16 * i + 8) 8

/-- The teams that a group entry names: none where it is unused or its list cannot be read. -/
def groupNames (s : State) (ctx : Nat) (table : List Byte) (i : Nat) : List Nat :=
  match hubRead s ctx (groupList table i) (4 * groupCount table i) with
  | .error _ => []
  | .ok b => (rangeFrom 0 (groupCount table i)).map (fun k => fieldAt b (4 * k) 4)

/-- Whether a group entry that names teams is legal but for the four-group rule (spec/16 R352). -/
def groupEntryOk (nteams : Nat) (table : List Byte) (i : Nat) (l : List Nat) : Bool :=
  fieldAt table (16 * i) 4 == 0 && groupList table i % 4 == 0 && !l.isEmpty && groupLegal nteams l

/-- The valid entries in order; one that names a team which four entries of lower index name is invalid. An invalid entry is an entry too
(spec/16 R352). `seen` holds what the entries before name. -/
def groupsFrom (s : State) (ctx nteams : Nat) (table : List Byte) : Nat → Nat → List (List Nat) → Sparse (Option (List Nat))
  | _, 0, _ => []
  | i, n + 1, seen =>
    let l := groupNames s ctx table i
    let rest := groupsFrom s ctx nteams table (i + 1) n (seen ++ [l])
    if groupEntryOk nteams table i l && l.all (fun t => decide ((seen.filter (fun m => m.contains t)).length < 4)) then (i, some l) :: rest else rest

/-- The group table read as the grid starts (spec/16 R352). -/
def readGroups (s : State) (gr : Grid) : Sparse (Option (List Nat)) :=
  let a := gr.launch.gtab.toNat
  if a = 0 then []
  else
    match hubRead s gr.ctx a 4096 with
    | .error _ => []
    | .ok b => groupsFrom s gr.ctx gr.launch.nteams b 0 256 []

/-- A grid that has started: its groups are read once. -/
def startGrid (s : State) (ctx index : Nat) : State :=
  updGrid s ctx index (fun g => if g.started then g else { g with started := true, groups := readGroups s g })

/-! ### Which launch is served (spec/18 R393, R394) -/

/-- The bytes of a continuation record, where its tenant can reach it (log entry 81). -/
def recordBytes (s : State) (ctx : Nat) (r : ContRec) : Option (List Byte) := (recordPlace s hubDie ctx r).map (placeBytes s)

/-- Whether the condition of a continuation record of a grid holds (spec/16 R349, R350). -/
def recordReady (s : State) (g : Grid) (r : ContRec) : Bool :=
  match recordBytes s g.ctx r with
  | none => false
  | some b =>
    let wval := fieldAt b 48 8
    let widx := fieldAt b 0 1
    match bitsOf (fieldAt b 1 1) 2 1 with
    | 0 => decide (wval ≤ gridTlKnown s g widx)
    | 1 => ((findCtx s g.ctx).map (fun c => (sparseGet 0#64 c.mbox widx).toNat != wval)).getD false
    | _ => true

/-- The records of a grid that no den holds. -/
def looseRecords (s : State) (g : Grid) : List ContRec :=
  let held := (s.dens.filter (fun d => d.ctx == g.ctx && d.grid == g.index)).flatMap (fun d => d.items.filterMap (fun i => match i with | .record r _ => some r | _ => none))
  g.conts.filter (fun a => !(held.contains a))

/-- Whether a grid has work that waits for capacity: a team, a den's gang or a runnable record that no den holds (spec/18 R390). -/
def wantsRoom (s : State) (ctx index : Nat) : Bool :=
  match findGrid s ctx index with
  | none => false
  | some g => decide (g.placed < g.launch.nteams) || (looseRecords s g).any (recordReady s g) ||
      s.dens.any (fun d => d.ctx == ctx && d.grid == index && d.waiting.isSome)

/-- Whether a waiting launch counts as the head of its queue: no predecessor's work waits for room (spec/18 R390), its context is resident
(spec/20 R448). -/
def headOpen (s : State) (g : Grid) : Bool := g.killed.isNone && g.preds.all (fun p => !(wantsRoom s g.ctx p)) && resident s g.ctx

/-- Whether a waiting launch may be placed at all now: its log copy's completion time has passed too (spec/03 R70), and so has the time of
the last message between the hub and its teams (spec/14 R308). -/
def launchOpen (s : State) (g : Grid) : Bool :=
  headOpen s g && decide (g.gwct.toNat ≤ dieNow s hubDie ∨ g.started) && decide (g.heard + msgTicks 0 hubDie ≤ s.dtb)

/-- The launches of a context and priority that wait, in queue order. -/
def queueOf (s : State) (ctx pri : Nat) : List Grid :=
  match findCtx s ctx with
  | none => []
  | some c => (c.queues.getD pri []).filterMap (findGrid s ctx)

/-- The heads of all queues (spec/18 R385); one that waits for its log copy is a head already (R394). -/
def queueHeads (s : State) : List Grid :=
  s.ctxs.flatMap (fun c => (rangeFrom 0 4).filterMap (fun p => (queueOf s c.id p).head?.bind (fun g => if headOpen s g then some g else none)))

/-- The contexts in round-robin order after the one served last (spec/18 R393). -/
def ctxOrder (s : State) : List Nat :=
  ((rangeFrom 1 32).map (fun k => (s.rrCtx + k) % 32)).filter (fun n => (findCtx s n).isSome)

/-- Whether a head stops the placement of others: it has waited 65,536 clocks, or is co-resident (spec/18 R393, R394). -/
def headStops (s : State) (g : Grid) : Bool := g.blocked || g.launch.cores || g.waitFrom.any (fun n => decide (n + 65536 ≤ s.clk))

/-- Whether a head stands before another that stops as well: higher priority, or the same and waiting longer. -/
def stopsFirst (h g : Grid) : Bool :=
  decide (g.launch.pri < h.launch.pri) || (h.launch.pri == g.launch.pri && decide (h.waitFrom.getD 0 < g.waitFrom.getD 0))

/-- Whether a launch may be placed beside the heads (spec/18 R393, R394). -/
def mayPlace (s : State) (heads : List Grid) (g : Grid) : Bool :=
  let isHead := heads.any (fun h => h.ctx == g.ctx && h.index == g.index)
  launchOpen s g && heads.all (fun h =>
    (h.ctx == g.ctx && h.index == g.index) || !(headStops s h) || decide (h.launch.pri < g.launch.pri) ||
    (isHead && headStops s g && !(stopsFirst h g)))

/-- The waiting launches in the order in which placement tries them (spec/18 R393): for each priority from the highest, the heads
of the contexts in turn, then the launches behind them. -/
def tryOrder (s : State) : List Grid :=
  [3, 2, 1, 0].flatMap (fun p =>
    let qs := (ctxOrder s).map (fun c => queueOf s c p)
    qs.flatMap (·.take 1) ++ qs.flatMap (·.drop 1))

/-- A launch with its next crew placed, or, when it is co-resident, all of them (spec/18 R392, R394). -/
def placeLaunch (s : State) (g : Grid) : Option State :=
  (if g.launch.cores then placeCrews g.ctx g.index (maxTeams + 1) s else placeCrew s g.ctx g.index).map (fun s1 =>
    let s2 := startGrid { s1 with rrCtx := g.ctx } g.ctx g.index
    if (findGrid s2 g.ctx g.index).any (fun x => decide (x.launch.nteams ≤ x.placed)) then
      updCtx s2 g.ctx (fun c => { c with queues := c.queues.map (fun q => q.filter (· != g.index)) })
    else s2)

/-- Whether a den waits for a slot that it would find now (spec/16 R347). -/
def denFirst (s : State) : Bool := s.dens.any (fun d => d.waiting.isSome && resident s d.ctx && (denPlace s d).isSome)

/-- EVENT: placement places the next crew that fits (spec/18 R392 to R394). -/
def execTeamPlacement (s : State) : Res :=
  if denFirst s then .next s
  else
    let heads := queueHeads s
    match (tryOrder s).findSome? (fun g => if mayPlace s heads g then placeLaunch s g else none) with
    | none => .next s
    | some s1 => .next s1

/-- EVENT: a head team has waited 65,536 clocks (spec/18 R393). -/
def execBackfillTimeout (ctx : Nat) (pri : BitVec 2) (s : State) : Res :=
  match (queueOf s ctx pri.toNat).head? with
  | none => .next s
  | some g =>
    .next (if g.waitFrom.any (fun n => decide (n + 65536 ≤ s.clk)) then updGrid s ctx g.index (fun g => { g with blocked := true }) else s)

/-- The clock since which each head's team has waited. -/
def markHeads (s : State) : State :=
  (queueHeads s).foldl (fun s g => if g.waitFrom.isSome then s else updGrid s g.ctx g.index (fun g => { g with waitFrom := some s.clk })) s

/-! ### What retired teams free (spec/16 R357) -/

/-- The runs of weight offsets that a command names. -/
def weightRuns (c : EngCmd) : List (Nat × Nat) :=
  match c.kind with
  | .mma | .mmat => [(bOff c, passN c * rowBytes (bFmt c) (passK c))]
  | .wload => [(bitsOf (ctlWord c) 31 0, wlLen c)]
  | .qnt _ =>
    (if qDsp c = 2 then
      (qDst c, rowsSpan (qRows c) (qDpitch c) (rowBytes (qDfmt c) (qCols c))) ::
        (if qFn c = 2 then [(qTdst c, qCols c * rowBytes (qDfmt c) (qRows c))] else [])
     else [])
  | _ => []

/-- Whether a command names the `n`-th slice of a team (spec/09 R191). -/
def namesSlice (s : State) (t : Team) (n : Nat) (c : EngCmd) : Bool :=
  c.ctx == t.ctx && c.grid == t.grid &&
  (weightRuns c).any (fun r => (cmdAddrTeam s c r.1).any (fun x => x.index == t.index) && decide (r.1 % 2 ^ 28 / 2 ^ 18 ≤ n) &&
    decide (n * 2 ^ 18 < r.1 % 2 ^ 28 + r.2))

/-- Whether a command names the `n`-th tile of a team (spec/09 R193). -/
def namesTile (t : Team) (n : Nat) (c : EngCmd) : Bool :=
  c.ctx == t.ctx && c.grid == t.grid && c.team == some t.index && (cmdTileNames c).contains n

/-- Whether an element of a physical tile is pending. -/
def tileWaits (s : State) (cluster phys : Nat) : Bool := s.tilePend.any (fun k => k / 2 ^ 14 == cluster * 16 + phys)

/-- A list of places of a retired team in which 16 stands for each that has gone back; once all have, it is empty. -/
def keepPlaces (keep : Nat → Nat → Bool) (l : List Nat) : List Nat :=
  let l1 := ((rangeFrom 0 l.length).zip l).map (fun x => if decide (x.2 < 16) && keep x.1 x.2 then x.2 else 16)
  if l1.all (· == 16) then [] else l1

/-- A retired team without the tiles and slices that no command names any more, and whose elements have resolved (spec/09 R191, R193). -/
def freeTeam (s : State) (t : Team) : Team :=
  if !t.retired then t
  else
    { t with
      tiles := keepPlaces (fun n p => s.cmds.any (namesTile t n) || tileWaits s (coreCluster t.core) p) t.tiles
      slices := keepPlaces (fun n _ => s.cmds.any (namesSlice s t n)) t.slices }

/-- Whether a crew's team memory is free: every team has retired, and nothing of the crew is on its way. -/
def crewGone (s : State) (ctx grid crew : Nat) : Bool :=
  let ts := s.teams.filter (fun t => t.ctx == ctx && t.grid == grid && t.crew == crew)
  ts.all (fun t => t.retired && t.tiles.isEmpty && t.slices.isEmpty && !(teamBusy s t)) &&
  s.gangs.all (fun g => !(g.ctx == ctx && g.grid == grid && ts.any (fun t => g.team == some t.index)))

/-- Retired teams' resources freed as soon as they may be (spec/16 R357). -/
def freeTeams (s : State) : State :=
  if s.teams.all (fun t => !t.retired) then s
  else
    let s1 := { s with teams := s.teams.map (freeTeam s) }
    let gone := s1.crews.filter (fun c => crewGone s1 c.ctx c.grid c.index)
    { s1 with
      teams := s1.teams.filter (fun t => !(gone.any (fun c => c.ctx == t.ctx && c.grid == t.grid && c.index == t.crew)))
      crews := s1.crews.filter (fun c => !(gone.any (fun x => x.ctx == c.ctx && x.grid == c.grid && x.index == c.index))) }

end Sys2Proof.Machine
end

