-- ==== Sys2Proof/Machine/Launch.lean ====
section
/-! DEFINITION. Launch acceptance (spec/03 R66 to R72), launch windows (spec/03 R70, spec/15 R326), the dependence walker (spec/18
R386 to R390), the end of a grid (spec/16 R358, spec/20 R437), and dens' and records' events (spec/16 R346 to R350). -/

namespace Sys2Proof.Machine

/-! ### Records and descriptors (spec/03 R66 to R69) -/

/-- The device stamp of the K4 (spec/03 R65). -/
def deviceStamp : Nat := 0x9C412E07B35AD816

/-- A launch record's fields. -/
def launchOf (n : Nat) : Launch :=
  { tag := toDword (bitsOf n 511 448), early := bitOf n 370, cores := bitOf n 369, pri := bitsOf n 367 366, doneN := bitsOf n 365 352,
    nteams := bitsOf n 351 320, gtab := toDword (bitsOf n 319 256), trapent := toDword (bitsOf n 255 192),
    pbase := toDword (bitsOf n 191 128), args := toDword (bitsOf n 127 64), kdesc := toDword (bitsOf n 63 0) }

/-- A kernel descriptor's fields. -/
def kernelOf (n : Nat) : Kernel :=
  { entry := toDword (bitsOf n 63 0), clist := toDword (bitsOf n 191 128), gang := 8 * 2 ^ bitsOf n 201 200, team := bitsOf n 212 202,
    crew := bitsOf n 215 213, vregs := bitsOf n 231 224, acc := bitsOf n 236 232, argw := bitsOf n 255 240, tmem := bitsOf n 287 256,
    l1min := bitsOf n 319 288, pwords := bitsOf n 351 320 }

/-- VER and the reserved fields of a launch record. -/
def recordForm (n : Nat) : Bool := bitsOf n 391 384 == 1 && bitsOf n 447 392 == 0 && bitsOf n 383 371 == 0 && !(bitOf n 368)

/-- The reserved fields of a kernel descriptor. -/
def descForm (n : Nat) : Bool := bitsOf n 511 448 == 0 && bitsOf n 239 237 == 0 && bitsOf n 223 216 == 0 && bitsOf n 199 192 == 0

/-- The alignments and ranges of a launch record, for a kernel's crew size (spec/03 R69). -/
def recordRanges (l : Launch) (crew : Nat) : Bool :=
  l.kdesc.toNat % 64 == 0 && l.args.toNat % 16 == 0 && l.pbase.toNat % 4096 == 0 && l.trapent.toNat % 2 == 0 && l.gtab.toNat % 4096 == 0 &&
  (decide (l.doneN ≤ 4095) || l.doneN == 0x3FFF) && decide (1 ≤ l.nteams) && l.nteams % crew == 0

/-- The alignments and ranges of a kernel descriptor (spec/03 R68). -/
def descRanges (k : Kernel) : Bool :=
  k.entry.toNat % 2 == 0 && decide (k.pwords ≤ 8192) && k.l1min % 32768 == 0 && decide (32768 ≤ k.l1min) && k.tmem % 1024 == 0 &&
  decide (k.tmem ≤ 480 * 1024) && decide (k.tmem + k.l1min ≤ 512 * 1024) && decide (k.argw ≤ 4096) && decide (k.acc ≤ 16) &&
  decide (16 ≤ k.vregs) && decide (k.vregs ≤ 128) && k.vregs % 8 == 0 && decide (1 ≤ k.crew) && decide (k.crew ≤ 4) &&
  decide (1 ≤ k.team) && decide (k.team ≤ 1024) && k.team % k.gang == 0

/-- Whether a version note lets the kernel run (spec/03 R66, R67). -/
def noteAllows (note : Nat) : Bool := decide (bitsOf note 7 0 ≤ 4) && !(bitOf note 9) && bitsOf note 31 10 == 0

/-! ### Acceptance (spec/03 R71) -/

/-- The lowest free index of a context's launch log. -/
def freeLog (c : Ctx) : Option Nat := (rangeFrom 0 1024).find? (fun n => !(c.logUsed.contains n))

/-- A grid as acceptance makes it. -/
def newGrid (ctx index : Nat) (l : Launch) (k : Kernel) (args : List Word) (node : Option Nat) (preds : List Nat) : Grid :=
  { uid := 0, ctx := ctx, index := index, launch := l, kernel := k, argWords := args, logCopy := 0, node := node, placed := 0, lastClus := none, started := false,
    waitFrom := none, blocked := false, tls := [], tlAt := [], succok := false, succAt := 0, preds := preds, predsAt := 0, noDec := false, groups := [], gwct := 0, conts := [],
    bars := [], freeLive := [], killed := none, teamsDone := 0, heard := 0 }

/-- The checks 1 to 5 of a record and its descriptor, in order: the first cause that refuses the launch. -/
def refusedBy (s : State) (ctx index rec desc : Nat) : Option Nat :=
  let l := launchOf rec
  let k := kernelOf desc
  if !(recordForm rec && descForm desc) then some 1
  else if !(descRanges k && recordRanges l k.crew) then some 2
  else if bitsOf desc 127 64 ≠ deviceStamp then some 3
  else if !(noteAllows (bitsOf desc 383 352)) then some 4
  else if l.cores && !(gridFits s (newGrid ctx index l k [] none [])) then some 5
  else none

/-- The kernel and the argument words of a record that passes checks 1 to 6, or the cause and the address of its refusal. Where KDESC is
not aligned no descriptor is read, so only the record's own VER and RSVD come before cause 2 (DESIGN CHOICE, log entry 87). -/
def checkLaunch (s : State) (ctx index rec : Nat) : Except (Nat × Nat) (Kernel × List Word) :=
  let l := launchOf rec
  if l.kdesc.toNat % 64 ≠ 0 then .error (if recordForm rec then 2 else 1, 0)
  else
    match hubRead s ctx l.kdesc.toNat 64 with
    | .error a => .error (8, a)
    | .ok d =>
      let desc := ofBytes d
      match refusedBy s ctx index rec desc with
      | some n => .error (n, 0)
      | none =>
        let k := kernelOf desc
        match hubRead s ctx l.args.toNat (4 * min k.argw 32) with
        | .error a => .error (8, a)
        | .ok b => .ok (k, (rangeFrom 0 (min k.argw 32)).map (fun i => toWord (fieldAt b (4 * i) 4)))

/-- The copy of a record written into the launch log, with its completion time, or the address that cannot be written (spec/03
R70, R71 step 7). -/
def writeLog (s : State) (c : Ctx) (index rec : Nat) : Except Nat (State × Nat) :=
  if c.logbase = 0 then .ok (s, 0)
  else
    let va := c.logbase.toNat + 64 * index
    match unitTranslate s hubDie c.id va 64 .write with
    | .error _ => .error va
    | .ok t =>
      if pteTgt t.pte = 0 then .ok (homeWrite s (pteHome t.pte) (transPa t va) (toBytes 64 rec) none)
      else if pteTgt t.pte = 1 then .ok (hostWriteAt s (transPa t va) (toBytes 64 rec), 0)
      else .error va

/-- The payload of `LAUNCH` (spec/14 R311). -/
def launchPayload (l : Launch) (index : Nat) : Nat := l.tag.toNat + index % 2 ^ 32 * 2 ^ 64 + l.nteams % 2 ^ 32 * 2 ^ 96 + l.pri * 2 ^ 128

/-- A record that reaches acceptance: an accepted grid joins the queue of its priority, or a launch-error record is written
(spec/03 R71, spec/18 R384). Answers whether it was accepted. `node` is the node that launched it, `preds` the grids before it
when it starts early. -/
def acceptRecord (s : State) (ctx rec : Nat) (node : Option Nat) (preds : List Nat) : State × Bool :=
  let l := launchOf rec
  match findCtx s ctx with
  | none => (s, false)
  | some c =>
    match freeLog c with
    | none => (refuse s ctx 6 l.tag 0, false)
    | some index =>
      match checkLaunch s ctx index rec with
      | .error e => (refuse s ctx e.1 l.tag e.2, false)
      | .ok (k, args) =>
        match writeLog s c index rec with
        | .error a => (refuse s ctx 9 l.tag a, false)
        | .ok (s1, gw) =>
          let (uid, s1) := newId s1
          let g := { newGrid ctx index l k args node preds with
            uid := uid, gwct := toDword gw, heard := s1.dtb, logCopy := if c.logbase = 0 then 0 else c.logbase + toDword (64 * index) }
          let s2 := { s1 with grids := s1.grids ++ [g] }
          let s3 := updCtx s2 ctx (fun c =>
            { c with logUsed := index :: c.logUsed, queues := modifyAt (fun q => q ++ [index]) l.pri c.queues })
          (emit s3 hubLogic ctx 0x01 (launchPayload l index) l.tag none, true)

/-! ### Launch windows (spec/03 R70, spec/15 R326) -/

/-- A write into a tenant's launch window: one aligned 64-byte block is a record, any other write is a launch error. -/
def windowWrite (s : State) (ctx offset : Nat) (data : List Byte) : State :=
  if data.length = 64 ∧ offset % 64 = 0 ∧ offset < 4096 then (acceptRecord s ctx (ofBytes data) none []).1
  else refuse s ctx 7 0 0

/-- EVENT: a write into a tenant's launch window (spec/03 R70). -/
def execLaunchWindowWrite (ctx offset : Nat) (data : List Byte) (s : State) : Res :=
  if hubHeld s then .next s else .next (windowWrite s ctx offset data)

/-! ### Nodes (spec/18 R386 to R390) -/

/-- A node that is not free. -/
def findNode (s : State) (ctx n : Nat) : Option Node := (findCtx s ctx).bind (fun c => sparseGet none c.nodes n)

/-- A node set, or freed. -/
def setNode (s : State) (ctx n : Nat) (v : Option Node) : State := updCtx s ctx (fun c => { c with nodes := sparseSet none c.nodes n v })

/-- A node descriptor's fields. -/
def nodeOf (d : Nat) : Node :=
  let ns := bitsOf d 191 188
  { kind := bitsOf d 1 0, src := toDword (bitsOf d 511 448), dst := toDword (bitsOf d 447 384), len := bitsOf d 383 320,
    succ := (rangeFrom 0 ns).map (fun k => bitsOf d (192 + 12 * k + 11) (192 + 12 * k)), count := bitsOf d 175 160, state := 1,
    early := none, dec := false, ended := false }

/-- Whether a descriptor obeys the map of spec/18 R386. -/
def nodeLegal (d : Nat) : Bool :=
  let n := nodeOf d
  decide (n.kind < 3) && bitsOf d 319 288 == 0 && bitsOf d 187 176 == 0 && bitsOf d 159 2 == 0 && decide (bitsOf d 191 188 ≤ 8) &&
  (if n.kind = 2 then n.src == 0#64 else n.src.toNat % 64 == 0) &&
  (if n.kind = 1 then n.dst.toNat % 64 == 0 && n.len % 64 == 0 && decide (64 ≤ n.len) && decide (n.len ≤ 2 ^ 40)
   else n.dst == 0#64 && n.len == 0)

/-- An enqueued node acts according to its kind (spec/18 R389): the state, and the successors that a node which completes at
once decrements. -/
def enqueueNode (s : State) (ctx n : Nat) : State × List Nat :=
  match findNode s ctx n with
  | none => (s, [])
  | some x =>
    let s1 := setNode s ctx n (some { x with state := 2 })
    match x.kind with
    | 0 =>
      match hubRead s ctx x.src.toNat 64 with
      | .error a => (setNode (refuse s1 ctx 8 0 a) ctx n none, [])
      | .ok b =>
        let r := acceptRecord s1 ctx (ofBytes b) (some n) []
        (if r.2 then r.1 else setNode r.1 ctx n none, [])
    | 1 => ({ s1 with copies := s1.copies ++ [⟨ctx, n, 0, 0, none⟩] }, [])
    | _ => (setNode s1 ctx n none, x.succ)

/-- A decrement of `k` as one event (spec/18 R387, R388, R390): the state, and the successors to decrement next. `src` is the own name of
the grid whose end it is. -/
def decrementNode (s : State) (ctx n k : Nat) (src : Option Nat) : State × List Nat :=
  match findNode s ctx n with
  | none => (nodeError s ctx n 3, [])
  | some x =>
    if x.state = 2 then
      (if x.early.isSome && x.early == src && !x.dec then
        (if x.ended then (setNode s ctx n none, x.succ) else (setNode s ctx n (some { x with count := 0, dec := true }), []))
       else (nodeError s ctx n 3, []))
    else if x.count < k then enqueueNode (setNode (nodeError s ctx n 1) ctx n (some { x with count := 0 })) ctx n
    else if x.count = k then enqueueNode (setNode s ctx n (some { x with count := 0 })) ctx n
    else (setNode s ctx n (some { x with count := x.count - k }), [])

/-- The decrements that have reached the walker applied in their order (spec/18 R388), each with what it makes follow; the logic stands
still while a trace record holds it (spec/14 R317). The number bounds them. -/
def runDecs : Nat → State → State
  | 0, s => s
  | n + 1, s =>
    match s.decs with
    | [] => s
    | d :: rest =>
      if hubHeld s then s
      else
        let r := decrementNode { s with decs := rest } d.ctx d.node d.k d.src
        runDecs n { r.1 with decs := r.1.decs ++ r.2.map (fun m => ⟨d.ctx, m, 1, none⟩) }

/-- More decrements than one event can cause: each of 4,096 nodes completes at most once, with eight successors. -/
def decrementFuel : Nat := 40000

/-- Decrements that reach the walker (spec/18 R388). -/
def decrementAll (s : State) (l : List Decrement) : State := runDecs decrementFuel { s with decs := s.decs ++ l }

/-- A list of nodes each decremented by one. -/
def decrementEach (s : State) (ctx : Nat) (l : List Nat) : State := decrementAll s (l.map (fun n => ⟨ctx, n, 1, none⟩))

/-- An arming write (spec/18 R387). -/
def armNode (s : State) (ctx n d : Nat) : State :=
  if (findNode s ctx n).isSome || !(nodeLegal d) then nodeError s ctx n 4
  else
    let s1 := setNode s ctx n (some (nodeOf d))
    if (nodeOf d).count = 0 then
      let r := enqueueNode s1 ctx n
      decrementEach r.1 ctx r.2
    else s1

/-- A write into a tenant's node window: one aligned 64-byte slot arms its node, any other write is a node error (spec/18 R386). -/
def nodeWrite (s : State) (ctx offset : Nat) (data : List Byte) : State :=
  if (findCtx s ctx).isNone then s
  else if data.length = 64 ∧ offset % 64 = 0 ∧ offset < 2 ^ 18 then armNode s ctx (offset / 64) (ofBytes data)
  else nodeError s ctx (offset % 2 ^ 18 / 64) 4

/-- EVENT: a write into a tenant's node window (spec/18 R386, R387). -/
def execNodeArm (ctx offset : Nat) (data : List Byte) (s : State) : Res :=
  if hubHeld s then .next s else .next (nodeWrite s ctx offset data)

/-- EVENT: a host load from a tenant's node window (spec/18 R386). -/
def execNodeStatusRead (ctx offset size : Nat) (s : State) : Res :=
  .next { s with hostOut := s.hostOut ++ [toBytes size (nodeLoad s ctx offset size)] }

/-! ### Early residency (spec/18 R390) -/

/-- The node that a grid that has executed `SUCCOK` could make early-queued, with its record. -/
def earlyNode (s : State) (g : Grid) : Option (Nat × Node × Nat) :=
  if !g.succok || decide (s.dtb < g.succAt + msgTicks 0 hubDie) || g.noDec || g.killed.isSome || g.launch.doneN = 0x3FFF then none
  else
    match findNode s g.ctx g.launch.doneN with
    | none => none
    | some x =>
      if x.state = 1 ∧ x.kind = 0 ∧ x.count = 1 then
        (match hubRead s g.ctx x.src.toNat 64 with
         | .error _ => none
         | .ok b => if bitOf (ofBytes b) 370 then some (g.launch.doneN, x, ofBytes b) else none)
      else none

/-- One grid's DONE node made early-queued, if it may be. -/
def earlyGrid (s : State) (g : Grid) : State :=
  match earlyNode s g with
  | none => s
  | some (n, x, rec) =>
    let s1 := setNode s g.ctx n (some { x with state := 2, early := some g.uid })
    let r := acceptRecord s1 g.ctx rec (some n) [g.index]
    if r.2 then r.1 else updGrid (setNode r.1 g.ctx n none) g.ctx g.index (fun x => { x with noDec := true })

/-- Every grid's DONE node made early-queued at the first moment it may be (spec/18 R390). -/
def earlyNodes (s : State) : State := s.grids.foldl (fun s g => if hubHeld s then s else earlyGrid s g) s

/-! ### The end of a grid (spec/16 R358, spec/20 R437) -/

/-- Whether nothing of a grid runs or waits any more; a saved context's grids do not end (spec/20 R448). -/
def gridQuiet (s : State) (g : Grid) : Bool :=
  s.cmds.all (fun c => !(c.ctx == g.ctx && c.grid == g.index)) && s.gangs.all (fun x => !(x.ctx == g.ctx && x.grid == g.index)) &&
  (g.killed.isSome || (resident s g.ctx && decide (g.launch.nteams ≤ g.teamsDone) && g.freeLive.isEmpty && g.conts.isEmpty))

/-- The dirty private lines of a grid. -/
def gridLines (s : State) (g : Grid) : List PrivLine := s.privLines.filter (fun l => l.ctx == g.ctx && l.grid == g.index)

/-- The threads that own a dirty word of a private line, as they stand or as they left their gangs (spec/11 R487). -/
def dirtyOwners (s : State) (l : PrivLine) : List LineOwner :=
  ((rangeFrom 0 32).filter (fun k => bitsOf l.dirty (4 * k + 3) (4 * k) != 0)).filterMap (ownerOf s l)

/-- The fault record of a private line that cannot be written back (spec/11 R487): one record names the first owner of a dirty word, with
those of its gang slot (log entry 98). -/
def lineRecord (s : State) (l : PrivLine) (k : FaultKind) : FaultRec :=
  let r := { blankRec s l.ctx (some l.grid) (.core l.core) 0 (faultCode k) with addr := toDword l.va, acc := 1, keyed := true }
  match dirtyOwners s l with
  | [] => r
  | o :: os =>
    { r with
      pc := o.pc, gslot := o.slot, mask := toDword (maskOf (o.lpos :: (os.filter (fun x => x.slot == o.slot)).map (·.lpos)))
      team := (match findGrid s l.ctx l.grid with
        | some g => toWord (wordOwner s l.ctx l.grid l.va o.word / (ceilDiv g.kernel.team 64 * 64))
        | none => 0xFFFFFFFF#32) }

/-- Whether a private line waits in its die's wait table. -/
def lineWaits (s : State) (l : PrivLine) : Bool :=
  s.waits.any (fun w => w.ctx == l.ctx && w.items.contains (.privLine l.core l.va))

/-- A private line among those that wait for an entry of a wait table. -/
def lineWaiter (l : PrivLine) (w : Waiter) : Bool := w.item == some (.privLine l.core l.va) && w.ent == l.ctx

/-- A private line written back and dropped for a save or a grid's end, or listed in the wait table with a record; with the table full it
stays and waits for an entry (spec/11 R254, R487; spec/18 R397; spec/20 R421). -/
def backLine (s : State) (l : PrivLine) : State :=
  let die := coreDie l.core
  if lineWaits s l then s
  else if l.dirty = 0 then dropPriv s l
  else
    match writeBackLine s l with
    | .ok x => leaveTable (dropPriv x.1 l) die (lineWaiter l)
    | .error k =>
      if !(waitRoom s die l.ctx true (l.va / 4096) (lineWaiter l)) then
        joinTable s ⟨5000 + die, l.core, l.grid, l.ctx, 0, .waitSlot 1, 0, some (.privLine l.core l.va), s.clk⟩ (lineWaiter l)
      else
        postFault (leaveTable (joinWait s die l.ctx true (l.va / 4096) (.privLine l.core l.va)) die (lineWaiter l)) l.ctx (lineRecord s l k)

/-- A grid's private lines written back; a killed grid's lines that cannot be are lost. -/
def backGrid (s : State) (g : Grid) : State :=
  let s1 := (gridLines s g).foldl backLine s
  if g.killed.isNone then s1
  else
    { s1 with
      privLines := s1.privLines.filter (fun l => !(l.ctx == g.ctx && l.grid == g.index))
      waits := (s1.waits.map (fun w => { w with items := w.items.filter (fun i =>
        match i with
        | .privLine c va => !((gridLines s1 g).any (fun l => l.core == c && l.va == va && w.ctx == l.ctx))
        | _ => true) })).filter (fun w => !w.items.isEmpty) }

/-- A grid taken out of the state: its teams, crews and log index are free, and no other grid waits for it. -/
def removeGrid (s : State) (ctx index : Nat) : State :=
  let s1 := { s with
    grids := (s.grids.filter (fun g => !(g.ctx == ctx && g.index == index))).map (fun g =>
      if g.ctx == ctx && g.preds.contains index then { g with preds := g.preds.filter (· != index), predsAt := s.dtb + msgTicks 0 hubDie } else g)
    teams := s.teams.filter (fun t => !(t.ctx == ctx && t.grid == index))
    crews := s.crews.filter (fun t => !(t.ctx == ctx && t.grid == index)) }
  updCtx s1 ctx (fun c => { c with logUsed := c.logUsed.filter (· != index), queues := c.queues.map (fun q => q.filter (· != index)) })

/-- The node that launched a grid, at the grid's end (spec/18 R389, R390): freed with its successors to decrement, or, when it was
early-queued and its decrement has not come, marked. -/
def endNode (s : State) (ctx : Nat) (node : Option Nat) : State × List Nat :=
  match node with
  | none => (s, [])
  | some n =>
    match findNode s ctx n with
    | none => (s, [])
    | some x =>
      if x.early.isSome && !x.dec then (setNode s ctx n (some { x with ended := true }), [])
      else (setNode s ctx n none, x.succ)

/-- A grid's end: `GRIDEND`, then the decrements of its DONE node and of its own node's successors; a killed grid releases nothing
and writes its record (spec/16 R358, spec/18 R389, spec/20 R437). -/
def endGrid (s : State) (g : Grid) : State :=
  match g.killed with
  | some code =>
    let s1 := postFault s g.ctx (blankRec s g.ctx (some g.index) hubLogic 6 code)
    let s2 := emit s1 hubLogic g.ctx 0x02 (g.launch.tag.toNat + g.index * 2 ^ 64) g.launch.tag none
    removeGrid (match g.node with | some n => setNode s2 g.ctx n none | none => s2) g.ctx g.index
  | none =>
    let s1 := emit s hubLogic g.ctx 0x02 (g.launch.tag.toNat + g.index * 2 ^ 64) g.launch.tag none
    let s2 := removeGrid s1 g.ctx g.index
    let r := endNode s2 g.ctx g.node
    let done : List Decrement := if g.launch.doneN = 0x3FFF ∨ g.noDec then [] else [⟨g.ctx, g.launch.doneN, 1, some g.uid⟩]
    decrementAll r.1 (done ++ r.2.map (fun m => ⟨g.ctx, m, 1, none⟩))

/-- EVENT: a grid ends, once the hub has heard of its last team (spec/14 R308), its private lines are written back and the completion
times of its writes have passed (spec/16 R358). -/
def execGridEnd (ctx grid : Nat) (s : State) : Res :=
  match findGrid s ctx grid with
  | none => .next s
  | some g =>
    if !(gridQuiet s g) || decide (s.dtb < g.heard + msgTicks 0 hubDie) || hubHeld s then .next s
    else
      let s1 := backGrid s g
      match findGrid s1 ctx grid with
      | none => .next s1
      | some g1 => if !(gridLines s1 g1).isEmpty || decide (dieNow s1 hubDie < g1.gwct.toNat) then .next s1 else .next (endGrid s1 g1)

/-! ### The walker copy unit (spec/18 R389) -/

/-- The copy that the unit works on: the first that no fault holds and whose context is resident. -/
def currentCopy (s : State) : Option WalkCopy := s.copies.find? (fun w => w.held.isNone && resident s w.ctx)

/-- A copy changed. -/
def updCopy (s : State) (ctx node : Nat) (f : WalkCopy → WalkCopy) : State :=
  { s with copies := s.copies.map (fun w => if w.ctx == ctx && w.node == node then f w else w) }

/-- The translations of the pages that a run touches, by the hub, or the fault. -/
def hubTrans (s : State) (ctx : Nat) (acc : Acc) : List (Nat × Nat) → Except EngFault (List (Nat × Trans))
  | [] => .ok []
  | (x, n) :: r =>
    match unitTranslate s hubDie ctx x n acc with
    | .error k => .error (k, x, acc)
    | .ok t =>
      if targetDenies false (pteTgt t.pte) acc then .error (.access, x, acc)
      else match hubTrans s ctx acc r with
        | .error f => .error f
        | .ok l => .ok ((x, t) :: l)

/-- The bytes of a run through its translations; the node window reads 0 (spec/18 R386). -/
def hubLoad (s : State) (ctx : Nat) (trs : List (Nat × Trans)) (va n : Nat) : List Byte :=
  (runPieces va n).flatMap (fun r =>
    let p := partAt trs 0 r.1 r.2 0 0 0
    match p.tgt with
    | 1 => hostBytes s p.pa r.2
    | 5 => windowBytes s ctx p.pa r.2 0
    | _ => memBytes s p.pa r.2)

/-- The lines of device memory of a run that are poisoned. -/
def hubPoison (s : State) (trs : List (Nat × Trans)) (va n : Nat) : Bool :=
  (runPieces va n).any (fun r =>
    let p := partAt trs 0 r.1 r.2 0 0 0
    p.tgt % 7 == 0 && linePoison s p.pa r.2)

/-- Bytes written through translations, with the latest completion time; a window of the tenant's own takes none, and says so (spec/15
R326, spec/18 R386). -/
def hubStore (s : State) (ctx : Nat) (trs : List (Nat × Trans)) (va : Nat) (b : List Byte) : State × Nat :=
  (runPieces va b.length).foldl (fun (a : State × Nat) r =>
    let p := partAt trs 0 r.1 r.2 0 0 0
    let d := (b.drop (r.1 - va)).take r.2
    match p.tgt with
    | 1 => (hostWriteAt a.1 p.pa d, a.2)
    | 5 => (nodeError a.1 ctx (p.pa % 2 ^ 18 / 64) 4, a.2)
    | 6 => (refuse a.1 ctx 7 0 0, a.2)
    | _ =>
      let w := homeWrite a.1 p.home p.pa d none
      (w.1, max a.2 w.2)) (s, 0)

/-- A copy among those that wait for an entry of a wait table. -/
def copyWaiter (w : WalkCopy) (x : Waiter) : Bool := x.item == some .walker && x.ent == w.ctx && x.slot == w.node

/-- A copy held on a fault at its piece: its record, and its entry in the wait table of die 0, for which it waits where the table is full
(spec/18 R389, R397; spec/20 R421). -/
def holdCopy (s : State) (w : WalkCopy) (f : EngFault) : State :=
  let page := f.2.1 / 4096
  if !(waitRoom s 0 w.ctx true page (copyWaiter w)) then
    joinTable s ⟨5000, 0, w.node, w.ctx, 0, .waitSlot 1, 0, some .walker, s.clk⟩ (copyWaiter w)
  else
    let s1 := updCopy (leaveTable (joinWait s 0 w.ctx true page .walker) 0 (copyWaiter w)) w.ctx w.node (fun w => { w with held := some page })
    postFault s1 w.ctx { blankRec s1 w.ctx none hubLogic 1 (faultCode f.1) with
      addr := toDword f.2.1, acc := accCode f.2.2, keyed := true, detail := w.off / 4096 % 2 ^ 40 * 256 }

/-- Translations that the hub has used, in the shared TLB of its die (spec/19 R407). -/
def hubInstall (s : State) (ctx : Nat) (trs : List (Nat × Trans)) : State := trs.foldl (fun s t => sharedInstall s hubDie ctx t.1 t.2) s

/-- EVENT: the walker copy unit copies one 4 KiB piece, translated before it is written (spec/18 R389). The bytes of a poisoned
line are not stated. -/
def execWalkerCopyPiece (s : State) : Res :=
  match currentCopy s with
  | none => .next s
  | some w =>
    match findNode s w.ctx w.node with
    | none => .next s
    | some x =>
      let n := min 4096 (x.len - w.off)
      let src := x.src.toNat + w.off
      let dst := x.dst.toNat + w.off
      if n = 0 ∨ hubHeld s then .next s
      else
        match hubTrans s w.ctx .read (runPieces src n) with
        | .error f => .next (holdCopy s w f)
        | .ok tr =>
          match hubTrans s w.ctx .write (runPieces dst n) with
          | .error f => .next (holdCopy s w f)
          | .ok tw =>
            let b := if hubPoison s tr src n then
                (rangeFrom 0 n).map (fun j => BitVec.ofNat 8 (Config.freeNat s.freeCtr (7 * 2 ^ 20 + j)))
              else hubLoad s w.ctx tr src n
            let r := hubStore (hubInstall (leaveTable s 0 (copyWaiter w)) w.ctx (tr ++ tw)) w.ctx tw dst b
            .next (updCopy r.1 w.ctx w.node (fun w => { w with off := w.off + n, gwct := max w.gwct r.2 }))

/-- EVENT: a bulk copy completes once the completion time of its last write has passed; its node is free and its successors are
decremented (spec/18 R389). -/
def execWalkerCopyComplete (s : State) : Res :=
  match currentCopy s with
  | none => .next s
  | some w =>
    match findNode s w.ctx w.node with
    | none => .next s
    | some x =>
      if w.off < x.len ∨ dieNow s hubDie < w.gwct ∨ hubHeld s then .next s
      else
        let s1 := { s with copies := s.copies.filter (fun y => !(y.ctx == w.ctx && y.node == w.node)) }
        .next (decrementEach (setNode s1 w.ctx w.node none) w.ctx x.succ)

/-! ### Dens and continuation records (spec/16 R346 to R350) -/

/-- EVENT: a den's timer expires: it forms a gang of the threads it holds, or waits for a slot (spec/16 R346, R347). -/
def execDenTimerExpiry (cluster den : Nat) (s : State) : Res :=
  match s.dens.find? (fun d => d.cluster == cluster && d.id == den) with
  | none => .next s
  | some d => if d.expiry ≤ dieNow s (clusterDie cluster) ∧ d.waiting.isNone ∧ resident s d.ctx then .next (formDen s den) else .next s

/-- EVENT: a waiting den forms its gang on a freed slot, the oldest that can first (spec/16 R347). -/
def execDenGangFormOnSlot (cluster den : Nat) (s : State) : Res :=
  match s.dens.find? (fun d => d.cluster == cluster && d.id == den) with
  | none => .next s
  | some d =>
    match d.waiting with
    | none => .next s
    | some _ =>
      if !(resident s d.ctx) || olderDen s d then .next s else .next (formDen s den)

/-- The clusters that a runnable record of a grid may enter a den of: granted, with a den for its key or a free one, and with
capacity for a gang (spec/16 R350). -/
def recordClusters (s : State) (g : Grid) (pc : Dword) : List Nat :=
  match findCtx s g.ctx with
  | none => []
  | some c => (rangeFrom 0 96).filter (fun cl => c.coreset.getLsbD cl &&
      (decide (denCount s cl < 32) || (findDen s cl g.ctx g.index pc .free).isSome) &&
      (rangeFrom (cl * 4) 4).any (fun k => (fitGangs s k 1 g.kernel.gang g.kernel.vregs 0 true false).isSome))

/-- The loose record of a context whose first byte stands at an address of its den area or of its grid's memory. -/
def looseRecord (s : State) (ctx addr : Nat) : Option (Grid × ContRec) :=
  s.grids.findSome? (fun g => if g.ctx == ctx then ((looseRecords s g).find? (fun r => r.addr == addr)).map (fun r => (g, r)) else none)

/-- EVENT: a waiting continuation record's condition holds: it enters the free den of its PC (spec/16 R350), with the k that its maker
supplied (R346). -/
def execContinuationRunnable (ctx : Nat) (addr : Dword) (s : State) : Res :=
  match looseRecord s ctx addr.toNat with
  | none => .next s
  | some (g, r) =>
    if !(recordReady s g r) || !(resident s ctx) then .next s
    else
      let pc := toDword (fieldAt ((recordBytes s ctx r).getD []) 40 8)
      match recordClusters s g pc with
      | [] => .next s
      | cl :: cls =>
        let l := cl :: cls
        let cluster := l.getD (Config.freeNat s.freeCtr (10 * 2 ^ 20) % l.length) cl
        .next ((enterDen s s.nextId cluster ctx g.index pc .free (.record r (recordSlots s ctx [r]).head?)).getD s)

end Sys2Proof.Machine
end

