-- ==== Sys2Proof/Machine/Arrive.lean ====
section
/-! DEFINITION. What accesses do when they arrive: loads that return (spec/12 R261), stores at their home slices (spec/11 R233,
R234), atomics (spec/11 R247, spec/12 R267 to R270), acknowledgements, leases, reservations and page walks. -/

namespace Sys2Proof.Machine

/-! ### Outstanding operations -/

/-- An outstanding operation of a gang. -/
def findOp (g : Gang) (id : Nat) : Option OutOp := g.out.find? (fun o => o.id == id)

/-- An operation of a gang's core changed, in every gang that holds it: `SPLIT` leaves it with both. -/
def updOps (s : State) (core id : Nat) (f : OutOp → OutOp) : State :=
  { s with gangs := s.gangs.map (fun g =>
      if g.core == core then { g with out := g.out.map (fun o => if o.id == id then f o else o) } else g) }

/-- An operation that is over: no gang of its core waits for it, and gangs that waited for nothing else retire (spec/16 R357). -/
def endOp (s : State) (core id : Nat) : State :=
  let mine := s.gangs.filter (fun g => g.core == core && g.out.any (fun o => o.id == id))
  let s1 := { s with gangs := s.gangs.map (fun g =>
    if g.core == core then { g with out := g.out.filter (fun o => o.id != id) } else g) }
  mine.foldl (fun s g => retireGang s g.core g.slot) s1

/-- In-flight registers of an operation given their results (spec/02 R31). -/
def setResults (id : Nat) (regs : List (Nat × Word)) (l : List Inflight) : List Inflight :=
  l.map (fun f =>
    if f.op == id && !f.data then
      (match regs.find? (fun x => x.1 == f.reg) with
       | some x => { f with result := some x.2 }
       | none => f)
    else f)

/-- The results of an operation for one thread, or for the gang's scalar registers at position 64; poisoned data poison their
registers, other data clear their poison (spec/20 R444). -/
def laneResults (id lpos : Nat) (regs : List (Nat × Word)) (poisoned : List Nat) (g : Gang) : Gang :=
  let clean := fun (l : List Nat) => poisoned ++ l.filter (fun r => !((regs.map (·.1)).contains r))
  if lpos = 64 then { g with sflight := setResults id regs g.sflight, spoison := clean g.spoison }
  else updThread g lpos (fun t => { t with inflight := setResults id regs t.inflight, poison := clean t.poison })

/-! ### Loads (spec/12 R261, R265) -/

/-- The bytes that a part of a load reads, and whether they are poisoned. -/
def loadPart (s : State) (g : Gang) (kind : OutKind) (p : LanePart) : State × List Byte × Bool :=
  match kind with
  | .load _ streaming => readPart s g.core g.ctx streaming p
  | .loadScalar _ => readPart s g.core g.ctx false p
  | .loadTeam _ =>
    match findTeam s g.ctx g.grid p.dev with
    | none => (s, List.replicate p.size memDefault, false)
    | some t => (teamSeen s g.ctx g.grid p.dev p.pa p.size, sparseReadRun memDefault t.mem p.pa p.size, t.poison.any (fun w => decide (p.pa < 4 * w + 4) && decide (4 * w < p.pa + p.size)))
  | .loadPriv _ =>
    match findThread g p.lpos with
    | none => (s, List.replicate p.size memDefault, false)
    | some t =>
      let s1 := privFill (privSeen s g.core g.slot p.lpos p.va p.size) g t p.va p.size
      (s1, privRead s1 g t p.va p.size, (privWords p.va p.size).any (privPoison s1 g t))
  | _ => (s, List.replicate p.size memDefault, false)

/-- The registers that a load of a kind writes from its bytes. -/
def kindRegs (kind : OutKind) (d : Nat) (b : List Byte) : List (Nat × Word) :=
  match kind with
  | .load z _ | .loadTeam z | .loadPriv z => loadRegs z d b
  | .loadScalar n => (rangeFrom 0 n).map (fun k => (d + k, toWord (fieldAt b (4 * k) 4)))
  | _ => []

/-- A result of registers alone, which is back after `ticks`. -/
def regAnswer (s : State) (ticks lpos : Nat) (regs : List (Nat × Word)) (bad : List Nat) : Answer :=
  ⟨s.dtb + ticks, lpos, regs, bad, flagNone, false, none, false⟩

/-- An operation without some parts and with more results on their way: its threads wait for it no more where none of theirs is left
(spec/02 R29). -/
def leaveParts (s : State) (g : Gang) (o : OutOp) (gone : LanePart → Bool) (answers : List Answer) : State :=
  let rest := o.parts.filter (fun p => !(gone p))
  let got := o.got ++ answers
  let lanes := rest.map (·.lpos) ++ got.map (·.lpos)
  if lanes.isEmpty then endOp s g.core o.id
  else updOps s g.core o.id (fun x => { x with parts := rest, got := got, mask := if lanes.contains 64 then x.mask else maskOf lanes })

/-- A result taken in by a gang: registers, flags, a lost contribution, a trap to come. The results of the steps of an `LDM8` that faulted
are in their registers for good: no marker is to come for them (spec/12 R265). -/
def takeAnswer (id : Nat) (g : Gang) (a : Answer) : Gang :=
  let g1 := gangLose (gangOrFlags (laneResults id a.lpos a.regs a.bad g) a.flags) (bitNat a.lost)
  updThread g1 a.lpos (fun t =>
    let t1 := if a.trap.isSome then { t with dfrTrap := a.trap } else t
    if a.stepped then
      let mine := t1.inflight.filter (fun f => f.op == id)
      let t2 := { t1 with inflight := t1.inflight.filter (fun f => f.op != id) }
      { writeVs t2 (mine.filterMap (fun f => f.result.map (fun w => (f.reg, w)))) with poison := t1.poison }
    else t1)

/-- The results of an operation whose time has come reach their gang. -/
def takeAnswers (s : State) (g : Gang) (o : OutOp) : State :=
  let here := fun (a : Answer) => decide (a.due ≤ s.dtb)
  leaveParts (updGang s g.core g.slot (fun g => (o.got.filter here).foldl (takeAnswer o.id) g)) g
    { o with got := o.got.filter (fun a => !(here a)) } (fun _ => false) []

/-- A whole load is performed: every part is read as one event (spec/11 R245). -/
def returnWhole (s : State) (g : Gang) (o : OutOp) : State :=
  let ticks := (o.parts.map (partTicks s g o.kind)).foldl max 0
  let r := o.parts.foldl (fun (a : State × List Answer) p =>
    let b := loadPart a.1 g o.kind p
    let regs := kindRegs o.kind p.reg b.2.1
    (b.1, a.2 ++ [regAnswer s ticks p.lpos regs (if b.2.2 then regs.map (·.1) else [])])) (s, [])
  leaveParts r.1 g o (fun _ => true) r.2

/-- Whether a part of a load in parts has been read. -/
def partRead (p : LanePart) : Bool := bitOf p.y.toNat 0

/-- The parts of a load in single bytes or steps that may be read next: those not read, of the first open step of an `LDM8`
(spec/12 R265), not at a peer. -/
def openParts (o : OutOp) : List LanePart :=
  let left := o.parts.filter (fun p => !(partRead p))
  let pool := match o.kind, left with
    | .load 7 _, p :: _ => left.filter (fun (q : LanePart) => q.off / 4 == p.off / 4)
    | _, _ => left
  pool.filter (fun p => p.tgt != 2)

/-- The bytes of a load whose parts have all been read, in their order. -/
def gatheredBytes (parts : List LanePart) : List Byte := parts.flatMap (fun p => toBytes p.size p.x.toNat)

/-- The result of a load in parts for one thread, all of whose parts have been read. -/
def gatherLane (s : State) (g : Gang) (o : OutOp) (lpos : Nat) : List Answer :=
  let ps := o.parts.filter (fun p => p.lpos == lpos)
  match ps with
  | [] => []
  | p :: _ =>
    let bad := (ps.filter (fun q => bitOf q.y.toNat 1)).map (fun q => q.reg + q.off / 4)
    let ticks := (ps.map (partTicks s g o.kind)).foldl max 0
    [{ regAnswer s ticks lpos (kindRegs o.kind p.reg (gatheredBytes ps)) bad with stepped := steppedLoad o }]

/-- A load in parts: the result of each thread whose last part has been read is on its way. -/
def finishParts (s : State) (g : Gang) (id : Nat) : State :=
  match (findGang s g.core g.slot).bind (fun g => findOp g id) with
  | none => s
  | some o =>
    let over_ := fun (lpos : Nat) => o.parts.all (fun p => p.lpos != lpos || partRead p)
    leaveParts s g o (fun p => over_ p.lpos) ((((o.parts.map (·.lpos)).eraseDups).filter over_).flatMap (gatherLane s g o))

/-- One part of a load read as an event of its own (spec/11 R246). -/
def returnPart (s : State) (g : Gang) (o : OutOp) : State :=
  match openParts o with
  | [] => s
  | d :: r =>
    let p := pickOne s.freeCtr 3 d (d :: r)
    let b := loadPart s g o.kind p
    let s1 := updGang b.1 g.core g.slot (fun g => { g with out := g.out.map (fun x =>
      if x.id == o.id then { x with parts := x.parts.map (fun q =>
        if q == p then { q with x := toDword (ofBytes b.2.1), y := toDword (1 + 2 * bitNat b.2.2) } else q) } else x) })
    finishParts s1 g o.id

/-- The read of an adjoint cell is performed: its bytes are rounded once (spec/13 R302, spec/04 R95). -/
def returnAdjoint (s : State) (g : Gang) (o : OutOp) (cell : List Byte) : State :=
  match o.parts with
  | [] => endOp s g.core o.id
  | p :: _ =>
    let r := axRead (signedOf 64 p.x.toNat) fmt32 ((rmodeOf p.off).getD .rne) (signedOf 128 (ofBytes cell))
    let bad := if p.tgt % 7 = 0 && linePoison s p.pa 16 then [p.reg] else []
    leaveParts s g o (fun _ => true) [{ regAnswer s (partTicks s g o.kind p) 64 [(p.reg, toWord r.bits)] bad with flags := r.flags }]

/-- A reduction returns to every thread that took part (spec/06 R138). -/
def returnGred (s : State) (g : Gang) (o : OutOp) : State :=
  let s1 := updGang s g.core g.slot (fun g =>
    let g1 := o.parts.foldl (fun g p =>
      laneResults o.id p.lpos ([(p.reg, loWord p.x)] ++ (if p.size = 8 then [(p.reg + 1, hiWord p.x)] else [])) [] g) g
    gangOrFlags g1 (((o.parts.head?).map (fun p => p.y.truncate 5)).getD flagNone))
  endOp s1 g.core o.id

/-- EVENT: an outstanding load of a gang is performed, its result arrives no sooner than a message takes, or a reduction returns (spec/12
R261, spec/06 R138, spec/14 R308). Loads from a peer are performed with its response. -/
def execLoadReturn (core slot id : Nat) (s : State) : Res :=
  match findGang s core slot with
  | none => .next s
  | some g =>
    match findOp g id with
    | none => .next s
    | some o =>
      if o.got.any (fun a => decide (a.due ≤ s.dtb)) then .next (takeAnswers s g o)
      else if (o.parts.isEmpty && !o.got.isEmpty) || opBlocked s g o then .next s
      else
        match o.kind with
        | .load _ _ | .loadTeam _ | .loadPriv _ | .loadScalar _ =>
          if !o.whole then .next (returnPart s g o)
          else if o.parts.any (fun p => p.tgt == 2) then .next s
          else .next (returnWhole s g o)
        | .adjRead =>
          if o.parts.any (fun p => p.tgt == 2) then .next s
          else .next (returnAdjoint ((o.parts.filter (fun p => p.tgt == 0)).foldl (fun s p => dropLine s (.l1 g.core) (lineOf p.pa)) s) g o
            (((o.parts.head?).map (homeBytes s g.core)).getD []))
        | .gred _ _ => .next (returnGred s g o)
        | _ => .next s

/-! ### Stores (spec/11 R233, R234, R245, R246) -/

/-- The name of the thread that a part's store belongs to. -/
def partWriter (s : State) (core slot lpos : Nat) : Option Nat :=
  ((findGang s core slot).bind (fun g => findThread g lpos)).map (·.uid)

/-- Whether two parts of stores write a common byte of device memory. -/
def partsMeet (p q : LanePart) : Bool := p.tgt == q.tgt && decide (p.pa < q.pa + q.size) && decide (q.pa < p.pa + p.size)

/-- Whether an older store in the core's buffer writes a byte of a part: the core's stores to one address arrive in order (spec/11
R233, R236). -/
def olderStore (s : State) (b : BufStore) (p : LanePart) : Bool :=
  s.wbuf.any (fun x => x.core == b.core && decide (x.id < b.id) && x.parts.any (partsMeet p))

/-- A store that reaches an own window: a launch window for target 6, the node window for target 5 (spec/15 R326, spec/18 R386). One that
is not `whole` forms no block. The offset is the address's place in the window (log entry 16). -/
def storeWindow (s : State) (ctx : Nat) (whole : Bool) (parts : List LanePart) (tgt : Nat) : State :=
  let size := if tgt = 6 then 4096 else 2 ^ 18
  let first := ((parts.head?).map (·.pa)).getD 0
  let (at_, data) := ((if whole then windowBlock parts else none).getD (first, []))
  if tgt = 6 then windowWrite s ctx (at_ % size) data else nodeWrite s ctx (at_ % size) data

/-- The parts of a buffered store performed at their home slices, with the completion time. A line that came into the core's L1,
or into its die's remote-data cache, while the store was on its way takes the bytes, or is dropped, as R233 says, so that the
core's later loads observe the store (spec/11 R233, R237). -/
def performStore (s : State) (b : BufStore) (parts : List LanePart) : State × Nat :=
  let x := parts.foldl (fun (a : State × Nat) p =>
    let w := homeWrite a.1 p.home p.pa (partBytes p) (partWriter s b.core b.slot p.lpos)
    (dropRdc (updateL1 w.1 b.core p.pa (partBytes p)) (coreDie b.core) p.pa p.size, max a.2 w.2)) (s, 0)
  (cleanLines x.1 (parts.map (fun p => (p.pa, p.size))), x.2)

/-- A part left of a store of which some parts have been performed: the data of their threads are taken (spec/02 R31). -/
def takeLanes (parts : List LanePart) (p : LanePart) : LanePart := if parts.any (fun q => q.lpos == p.lpos) then takenPart p else p

/-- A buffered store without some of its parts; once all have arrived it leaves the buffer and its operation is over. -/
def dropParts (s : State) (b : BufStore) (parts : List LanePart) : State :=
  let left := (b.parts.filter (fun p => !(parts.contains p))).map (takeLanes parts)
  if left.isEmpty then endOp { s with wbuf := s.wbuf.filter (fun x => x.id != b.id) } b.core b.id
  else { s with wbuf := s.wbuf.map (fun x => if x.id == b.id then { x with parts := left } else x) }

/-- A piece of a tape record written at its home, or discarded by the own node window (spec/13 R292, spec/18 R386). -/
def performRecord (b : BufStore) (rec : List Byte) (a : State × Nat) (p : LanePart) : State × Nat :=
  if p.tgt = 5 then (storeWindow a.1 b.ctx false [p] 5, a.2)
  else
    let w := ownWrite a.1 b.core p.home p.pa ((rec.drop p.off).take p.size) none
    (w.1, max a.2 w.2)

/-- One line of a taped store performed (spec/13 R292): as one event its old bytes are read and the new ones written, and the record is
written with them. A line of the own node window reads 0 and takes the store as the window does (spec/18 R386). -/
def performTaped (s : State) (b : BufStore) (r : TapeRec) : State × Nat :=
  let base := ((b.parts.head?).map (·.pa)).getD 0 / 128 * 128
  let far := b.parts.any (fun p => p.tgt == 5)
  let old := if far then List.replicate 128 0#8 else maskHalves r.hmask (memBytes s base 128)
  let w := if far then (storeWindow s b.ctx b.whole b.parts 5, 0) else performStore s b b.parts
  r.parts.foldl (performRecord b (tapeRecord old r.link r.line r.hmask r.team r.ix r.entry r.seq)) w

/-- Whether a line of a taped store must wait: for the gang's earlier lines, which come in order (spec/13 R292), and for the core's older
stores to its bytes. -/
def tapedWaits (s : State) (b : BufStore) : Bool :=
  s.wbuf.any (fun x => x.core == b.core && x.slot == b.slot && x.tape.isSome && decide (x.id < b.id)) || b.parts.any (olderStore s b)

/-- EVENT: a buffered store arrives at its home slice and returns its completion time: as one event, or, where it is misaligned,
one byte (spec/11 R234, R245, R246). -/
def execStoreArrival (core id : Nat) (s : State) : Res :=
  match s.wbuf.find? (fun b => b.core == core && b.id == id) with
  | none => .next s
  | some b =>
    if !(storeReached s b) then .next s
    else match b.tape with
    | some r =>
      if tapedWaits s b || (hubHeld s && (b.parts ++ r.parts).any blockWindow) then .next s
      else
        let w := performTaped s b r
        .next (dropParts (raiseGwct w.1 b.core b.slot b.ctx b.grid w.2) b b.parts)
    | none =>
    match b.parts.find? blockWindow with
    | some w =>
      let there := b.parts.filter (fun p => p.tgt == w.tgt)
      if hubHeld s then .next s else .next (dropParts (storeWindow s b.ctx b.whole there w.tgt) b there)
    | none =>
      let free := b.parts.filter (fun p => !(olderStore s b p))
      match free with
      | [] => .next s
      | d :: r =>
        if b.whole && free.length != b.parts.length then .next s
        else
          let parts := if b.whole then b.parts else [pickOne s.freeCtr 3 d (d :: r)]
          let w := performStore s b parts
          .next (dropParts (raiseGwct w.1 b.core b.slot b.ctx b.grid w.2) b parts)

/-! ### Atomics (spec/12 R267 to R270) -/

/-- What one atomic does: the bytes it writes, if it writes, the value it returns, its flags, whether a contribution is lost,
whether its adjoint overflows, and whether the wide adder decided it. -/
structure AtomEval where
  write : Option (List Byte)
  ret   : Nat
  flags : Flags
  lost  : Bool
  trap  : Bool
  wide  : Bool
  deriving DecidableEq, Repr

/-- An atomic that writes a new value and returns the old one. -/
def atomWrites (n old new : Nat) : AtomEval := ⟨some (toBytes n new), old, flagNone, false, false, false⟩

/-- An atomic that writes nothing and returns a value. -/
def atomKeeps (old : Nat) : AtomEval := ⟨none, old, flagNone, false, false, false⟩

/-- One atomic on the old value of its operand (spec/12 R267, R268). `x` is its data, `y` the new value of a compare and swap;
`held` says that the thread's reservation stands. -/
def atomEval (op : AtomicOp) (wide : Bool) (x y : Dword) (rm : RMode) (anchor : Int) (held : Bool) (old : Nat) : AtomEval :=
  let n := if wide then 8 else 4
  let w := 8 * n
  let f := if wide then fmt64 else fmt32
  let b := x.toNat % 2 ^ w
  match op with
  | .add => atomWrites n old ((old + b) % 2 ^ w)
  | .and => atomWrites n old (old &&& b)
  | .or => atomWrites n old (old ||| b)
  | .xor => atomWrites n old (old ^^^ b)
  | .xchg => atomWrites n old b
  | .smin => atomWrites n old (if signedOf w b < signedOf w old then b else old)
  | .smax => atomWrites n old (if signedOf w old < signedOf w b then b else old)
  | .umin => atomWrites n old (min old b)
  | .umax => atomWrites n old (max old b)
  | .cas => if old = b then atomWrites n old (y.toNat % 2 ^ w) else atomKeeps old
  | .fadd =>
    let r := faddBits f rm old b
    let special := isNan (fdecode f old) || isNan (fdecode f b) || isInf (fdecode f old) || isInf (fdecode f b)
    { atomWrites n old r.bits with flags := r.flags, wide := !special && stageOf 50 [old, b] (fmtCode f) != 0 }
  | .fadda sat =>
    let o := signedOf 128 old
    let r := axAdd anchor sat o (fdecode f b)
    ⟨if r.n = o then none else some (toBytes 16 (wrap 128 r.n)), 0, r.flags, r.lost, r.trap, false⟩
  | .lr => atomKeeps old
  | .sc => if held then { atomWrites n old b with ret := 1 } else atomKeeps 0
  | .fmax =>
    let r := fminmaxBits f true old b
    { (if r.bits = old then atomKeeps old else atomWrites n old r.bits) with flags := r.flags }
  | .fmin =>
    let r := fminmaxBits f false old b
    { (if r.bits = old then atomKeeps old else atomWrites n old r.bits) with flags := r.flags }

/-- The bytes of an atomic's result written at its home, with the completion time; one that writes nothing contributes none
(spec/12 R269). -/
def atomStore (s : State) (home pa : Nat) (e : AtomEval) (writer : Option Nat) : State × Nat :=
  match e.write with
  | none => (s, 0)
  | some b => homeWrite s home pa b writer

/-- The registers that an atomic returns its value to in a thread: its destination registers, in rising order. -/
def atomReturns (g : Gang) (id lpos ret : Nat) : List (Nat × Word) :=
  let regs := (((findThread g lpos).map (·.inflight)).getD []).filterMap (fun f => if f.op == id && !f.data then some f.reg else none)
  let low := regs.foldl min 1024
  regs.map (fun r => (r, if r = low then toWord ret else toWord (ret / 2 ^ 32)))

/-- Whether a thread's reservation on the block of an address stands: it was set less than 8,192 clocks ago (spec/11 R249). -/
def reserves (s : State) (core slot lpos pa : Nat) : Bool :=
  (((findGang s core slot).bind (fun g => findThread g lpos)).bind (·.lr)).any (fun r => r.1 == pa / 64 && decide (s.clk < r.2 + 8192))

/-- A thread's reservation as an atomic leaves it: set or cleared (spec/11 R249). -/
def atomThread (s : State) (op : AtomicOp) (p : LanePart) (t : Thread) : Thread :=
  match op with
  | .lr => { t with lr := some (p.pa / 64, s.clk) }
  | .sc => { t with lr := none }
  | _ => t

/-- An atomic of one thread of an operation performed: its reservation and its gang's counts follow, the part leaves the operation, and its
result is on its way, with the deferred adjoint-overflow trap (spec/12 R268). -/
def atomDone (s : State) (g : Gang) (o : OutOp) (op : AtomicOp) (p : LanePart) (e : AtomEval) (poisoned : Bool) : State :=
  let s1 := updGang s g.core g.slot (fun g =>
    let g1 := updThread g p.lpos (atomThread s op p)
    if e.wide then { g1 with escb := g1.escb + 1 } else g1)
  let s2 := if e.wide then countEsc s1 (coreCluster g.core) 0 1 else s1
  let regs := atomReturns g o.id p.lpos e.ret
  leaveParts s2 g o (fun q => q == p) [{ regAnswer s (partTicks s g o.kind p) p.lpos regs (if poisoned then regs.map (·.1) else []) with
    flags := e.flags, lost := e.lost, trap := if e.trap then some ⟨9, toDword p.va, 0, o.pc, 0, true⟩ else none }]

/-- EVENT: an outstanding atomic of a gang executes at its home slice, in rising position of its threads (spec/11 R247, spec/12
R269). The core's leases that it drops count as dropped early for the length of the next grant, where the atomic writes nothing: R231 does
not name this drop (the model's choice, log entry 111). -/
def execAtomicAtHome (core slot id : Nat) (s : State) : Res :=
  match findGang s core slot with
  | none => .next s
  | some g =>
    match findOp g id with
    | none => .next s
    | some o =>
      match o.kind, o.parts with
      | .atomic op wide rm anchor, p :: _ =>
        if p.tgt ≠ 0 ∨ opBlocked s g o then .next s
        else
          let old := ofBytes (memBytes s p.pa (atomBytes op wide))
          let e := atomEval op wide p.x p.y rm anchor (reserves s core slot p.lpos p.pa) old
          let bad := linePoison s p.pa 1
          let w := atomStore s p.home p.pa e (partWriter s core slot p.lpos)
          let s1 := dropLine (dropLine w.1 (.l1 core) (lineOf p.pa)) (.rdc (coreDie core)) (lineOf p.pa)
          .next (atomDone (raiseGwct s1 core slot g.ctx g.grid w.2) g o op p e bad)
      | _, _ => .next s

/-! ### Acknowledgements (spec/12 R262, R270) -/

/-- A store that another agent performs, without some of its parts: once none is left it is over. -/
def restParts (s : State) (core : Nat) (o : OutOp) (parts : List LanePart) : State :=
  let rest := o.parts.filter (fun p => !(parts.contains p))
  if rest.isEmpty then endOp s core o.id else updOps s core o.id (fun o => { o with parts := rest.map (takeLanes parts) })

/-- EVENT: the owning core performs and acknowledges a crew-remote store (spec/12 R262). -/
def execCrewStoreAck (core slot id : Nat) (s : State) : Res :=
  match findGang s core slot with
  | none => .next s
  | some g =>
    match findOp g id with
    | none => .next s
    | some o =>
      match o.kind, o.parts with
      | .crewStore, d :: r =>
        if opBlocked s g o then .next s
        else
          let parts := if o.whole then o.parts else [pickOne s.freeCtr 3 d (d :: r)]
          let s1 := parts.foldl (fun s p => teamWrite s g.ctx g.grid p.dev p.pa (partBytes p)) s
          .next (restParts s1 core o parts)
      | _, _ => .next s

/-- The gang that holds an operation. -/
def opGang (s : State) (id : Nat) : Option (Gang × OutOp) :=
  s.gangs.findSome? (fun g => (findOp g id).map (fun o => (g, o)))

/-- Whether a part is served over CXL: host memory, or a system-atomic page of device memory (spec/12 R270). -/
def overCxl (p : LanePart) : Bool := p.tgt == 1 || p.tgt == 7

/-- A store to host memory or to a system-atomic page performed. -/
def cxlStore (s : State) (g : Gang) (p : LanePart) : State :=
  if p.tgt = 1 then hostWriteAt s p.pa (partBytes p)
  else (homeWrite s p.home p.pa (partBytes p) (partWriter s g.core g.slot p.lpos)).1

/-- EVENT: the system coherence point acknowledges a store, or returns an atomic's result (spec/12 R270). `data` holds the bytes
that host memory held before an atomic; where it has another length, and on device memory, the model's own memory answers. -/
def execCxlAcknowledgement (id : Nat) (data : List Byte) (s : State) : Res :=
  match opGang s id with
  | none => .next s
  | some (g, o) =>
    if opBlocked s g o then .next s
    else
      match o.kind, o.parts.filter overCxl with
      | .external, d :: r =>
        let parts := if o.whole then d :: r else [pickOne s.freeCtr 3 d (d :: r)]
        let s1 := parts.foldl (fun s p => cxlStore s g p) s
        .next (restParts s1 g.core o parts)
      | .atomic op wide rm anchor, p :: _ =>
        let n := atomBytes op wide
        let host := if data.length = n then data else hostBytes s p.pa n
        let old := ofBytes (if p.tgt = 1 then host else memBytes s p.pa n)
        let e := atomEval op wide p.x p.y rm anchor false old
        let s1 := if p.tgt = 1 then hostWriteAt s p.pa (e.write.getD host)
          else (atomStore s p.home p.pa e (partWriter s g.core g.slot p.lpos)).1
        .next (atomDone s1 g o op p e (p.tgt == 7 && linePoison s p.pa 1))
      | _, _ => .next s

/-! ### Leases, reservations, walks and code pages -/

/-- EVENT: a lease runs out at its holder, by the holder's own clock (spec/11 R230). -/
def execLeaseExpiry (holder : Holder) (line : Nat) (s : State) : Res :=
  .next { s with lines := s.lines.filter (fun c =>
    !(c.holder == holder && c.line == line && decide (c.expiry ≤ dieNow s (holderDie holder)))) }

/-- EVENT: a reservation is cleared 8,192 clocks after its `LR` reached the home slice (spec/11 R249). -/
def execLrReservationTimeout (core slot lane : Nat) (s : State) : Res :=
  .next (updGang s core slot (fun g => updThread g lane (fun t =>
    if t.lr.any (fun r => decide (r.2 + 8192 ≤ s.clk)) then { t with lr := none } else t)))

/-- EVENT: a walk asked for by a core finishes and its result is installed; a walk that faults installs nothing (spec/19 R407). -/
def execPageWalkComplete (core ctx : Nat) (va : Dword) (s : State) : Res :=
  match walkTables s (coreDie core) ctx va.toNat with
  | .error _ => .next s
  | .ok t => .next (tlbInstall s core ctx va.toNat t)

/-- Whether a code page's chunks of 4 KiB have their registered hashes. -/
def chunksMatch (s : State) (frame : Nat) (leaves : List (BitVec 512)) : Bool :=
  (leaves.zip (rangeFrom frame leaves.length)).all (fun x => leafHash (memBytes s (x.2 * 4096) 4096) == x.1)

/-- EVENT: a code page's chunks are hashed at page-in: the page, of as many frames as there are registered hashes, is verified as a whole
when all match; a mismatch is reported to the driver (spec/03 R64). -/
def execCodePageVerify (frame : Nat) (leaves : List (BitVec 512)) (s : State) : Res :=
  let page := (frame, leaves.length)
  .next (if leaves.isEmpty then s
    else if chunksMatch s frame leaves then { s with verified := page :: s.verified.filter (· != page) }
    else { s with verified := s.verified.filter (· != page), codeBad := s.codeBad ++ [page] })

end Sys2Proof.Machine
end

