-- ==== Sys2Proof/Machine/Peer.lean ====
section
/-! DEFINITION. The Harivo link (spec/15 R322 to R334), link admission (spec/19 R416), and the host's accesses (spec/11 R243,
R248; spec/19 R413, R414). -/

namespace Sys2Proof.Machine

/-! ### Ports (spec/15 R332) -/

/-- Whether a port reaches a destination: each destination is reached by one port at least (log entry 99). -/
def reaches (dev port : Nat) : Bool := port == Config.mainPort dev % 24 || Config.portReaches dev port

/-- Whether a port that carries traffic reaches a device: no message moves otherwise. -/
def linkUp (s : State) (dev : Nat) : Bool := (rangeFrom 0 24).any (fun i => reaches dev i && (s.ports[i]?).any carries)

/-! ### Admission (spec/19 R416, spec/15 R334) -/

/-- Whether a valid admission entry names a source device and tenant. -/
def linkMatches (dev tenant : Nat) (e : Dword) : Bool :=
  let n := e.toNat
  bitOf n 0 && bitsOf n 63 54 == dev && bitsOf n 53 49 == tenant

/-- The admission entries that match a source pair. -/
def linkEntries (s : State) (dev tenant : Nat) : List Dword := (s.linkTable.map (·.2)).filter (linkMatches dev tenant)

/-- The bit that admits a message class: D, A, N, L from bit 43 down. -/
def classBit (cls : Nat) : Nat :=
  match cls with
  | 0 => 43
  | 3 => 42
  | 1 => 41
  | _ => 40

/-- The local tenant of an admission entry. -/
def linkLocal (e : Dword) : Nat := bitsOf e.toNat 48 44

/-- The live context whose identity a message of a class takes (spec/19 R416). -/
def admitted (s : State) (dev tenant cls : Nat) : Option Ctx :=
  ((linkEntries s dev tenant).find? (fun e => bitOf e.toNat (classBit cls))).bind (fun e => findCtx s (linkLocal e))

/-- A class-S answer to a peer's message. -/
def answerPeer (s : State) (dev id : Nat) (err : Bool) (runs : List (Nat × Nat × List Byte)) : State :=
  { s with sent := s.sent ++ [⟨dev, 5, id, 0, [], .external, runs, err⟩] }

/-- A denied load or atomic: an error response (spec/15 R334). -/
def denyRead (s : State) (dev id : Nat) : State := answerPeer s dev id true []

/-- A denied store, notification or record: discarded, counted for the driver, recorded for the tenant that its source pair names, and
acknowledged (spec/15 R334, spec/20 R426). -/
def denyWrite (s : State) (dev tenant id : Nat) : State :=
  let s1 := { s with peerBad := s.peerBad + 1 }
  let s2 := match (linkEntries s dev tenant).head? with
    | none => s1
    | some e => postFault s1 (linkLocal e)
        { blankRec s1 (linkLocal e) none (.hub 0) 4 2 with addr := toDword s.devNo, detail := 1 }
  answerPeer s2 dev id false []

/-! ### Messages from peers -/

/-- Whether the runs of a class-D message lie within one line (spec/15 R323); each is an address, a size and the data. -/
def oneLineRuns (l : List (Nat × Nat × List Byte)) : Bool :=
  match l with
  | [] => false
  | (a, _, _) :: _ => l.all (fun r => decide (1 ≤ r.2.1) && decide (a / 128 * 128 ≤ r.1) && decide (r.1 + r.2.1 ≤ a / 128 * 128 + 128))

/-- Whether a message asks for data: none of its runs carries any. -/
def asksData (l : List (Nat × Nat × List Byte)) : Bool := l.all (fun r => r.2.2.isEmpty)

/-- Whether every run of a message that writes carries the data of its size. -/
def fullRuns (l : List (Nat × Nat × List Byte)) : Bool := l.all (fun r => r.2.2.length == r.2.1)

/-- What a load request reads; a run of a poisoned line answers no data (spec/20 R444). -/
def loadRuns (s : State) (l : List (Nat × Nat × List Byte)) : List (Nat × Nat × List Byte) :=
  l.map (fun r => (r.1, r.2.1, if linePoison s r.1 r.2.1 then [] else memBytes s r.1 r.2.1))

/-- EVENT: a class-D message from a peer is performed at its home slice as one event, in the order in which the pair's messages come: its
runs are written, or read for the answer (spec/15 R323, R324; spec/11 R245). -/
def execPeerStoreArrival (dev tenant id : Nat) (runs : List (Nat × Nat × List Byte)) (s : State) : Res :=
  if !(linkUp s dev) || !(oneLineRuns runs) || !(asksData runs || fullRuns runs) then .next s
  else
    let may := fun (w : Bool) => (admitted s dev tenant 0).any (fun c => runs.all (fun r => grantRun c false w r.1 r.2.1))
    if asksData runs then .next (if may false then answerPeer s dev id false (loadRuns s runs) else denyRead s dev id)
    else if may true then
      let w := homeWrites s 4 none (runs.map (fun r => (r.1, r.2.2)))
      let s1 := { w.1 with peerGwct := sparseSet 0 w.1.peerGwct dev (max (sparseGet 0 w.1.peerGwct dev) w.2) }
      .next (answerPeer s1 dev id false [])
    else .next (denyWrite s dev tenant id)

/-- A notification applied (spec/15 R327): the counted node is decremented, a malformed one is reported. -/
def applyNotification (s : State) (ctx offset : Nat) (data : List Byte) : State :=
  let v := ofBytes data
  if data.length = 8 ∧ offset % 8 = 0 ∧ offset < 32768 ∧ 1 ≤ v ∧ v < 2 ^ 16 then decrementAll s [⟨ctx, offset / 8, v, none⟩]
  else nodeError s ctx (offset % 32768 / 8) 2

/-- A waiting message of class N or L takes effect: it is admitted, applied and acknowledged, or denied (spec/15 R326, R327, R334). A
record is one run of 64 bytes (log entry 116); anything else in the window is a launch error. -/
def applyPeer (s : State) (m : PeerMsg) : State :=
  match admitted s m.dev m.tenant m.cls with
  | none => denyWrite s m.dev m.tenant m.id
  | some c =>
    let s1 :=
      if m.cls = 1 then m.runs.foldl (fun s r => applyNotification s c.id r.1 r.2.2) s
      else
        match m.runs with
        | [r] => windowWrite s c.id r.1 r.2.2
        | _ => windowWrite s c.id 0 []
    answerPeer s1 m.dev m.id false []

/-- The waiting message that takes effect next: one that comes first among its pair's, once the completion times of the pair's earlier
stores have passed (spec/15 R324). `seen` lists the pairs with an earlier message. -/
def duePeer (s : State) : List Nat → List PeerMsg → Option PeerMsg
  | _, [] => none
  | seen, m :: r => if !(seen.contains m.dev) && decide (m.after ≤ dieNow s hubDie) then some m else duePeer s (m.dev :: seen) r

/-- The waiting messages that may take effect, one by one, while no trace record holds the logic (spec/15 R324, spec/14 R317). -/
def drainPeers : Nat → State → State
  | 0, s => s
  | n + 1, s =>
    match duePeer s [] s.peerIn with
    | none => s
    | some m => if hubHeld s then s else drainPeers n (applyPeer { s with peerIn := s.peerIn.erase m } m)

/-- Every waiting message of a peer that may take effect now. -/
def settlePeers (s : State) : State := drainPeers s.peerIn.length s

/-- A message of class N or L that arrives: it waits behind what its pair has sent before it (spec/15 R324). -/
def arrivePeer (dev tenant id cls : Nat) (runs : List (Nat × Nat × List Byte)) (s : State) : State :=
  if !(linkUp s dev) then s
  else settlePeers { s with peerIn := s.peerIn ++ [⟨dev, tenant, id, cls, sparseGet 0 s.peerGwct dev, runs⟩] }

/-- EVENT: a class-N notification arrives; it is applied once its pair's earlier data have (spec/15 R324, R327). -/
def execPeerNotification (dev tenant id : Nat) (runs : List (Nat × Nat × List Byte)) (s : State) : Res :=
  .next (arrivePeer dev tenant id 1 runs s)

/-- EVENT: a class-L launch record arrives; it is accepted once its pair's earlier data and notifications have been applied (spec/15 R324,
R326). -/
def execPeerLaunchRecord (dev tenant id : Nat) (runs : List (Nat × Nat × List Byte)) (s : State) : Res :=
  .next (arrivePeer dev tenant id 2 runs s)

/-- EVENT: a class-A atomic from a peer executes at its home slice, and its answer carries the old value (spec/12 R270, spec/15
R324). -/
def execPeerAtomic (dev tenant id : Nat) (op : AtomicOp) (wide : Bool) (pa : Nat) (xy : Dword × Dword) (rm : RMode) (anchor : Int) (s : State) : Res :=
  let n := atomBytes op wide
  if !(linkUp s dev) then .next s
  else if pa % n ≠ 0 ∨ !(atomSupported op 2) ∨
      !((admitted s dev tenant 3).any (fun c => grantRun c false false pa n && grantRun c false true pa n)) then .next (denyRead s dev id)
  else
    let old := memBytes s pa n
    let e := atomEval op wide xy.1 xy.2 rm anchor false (ofBytes old)
    let bad := linePoison s pa n
    .next (answerPeer (atomStore s 4 pa e none).1 dev id false [(pa, n, if bad then [] else old)])

/-! ### Responses (spec/15 R324, R334) -/

/-- A message that has been answered leaves the list of those that have not. -/
def answered (s : State) (id : Nat) : State := { s with sent := s.sent.filter (fun m => m.id != id || m.cls == 5) }

/-- The parts of an operation that a message carried. -/
def msgParts (m : Msg) (o : OutOp) : List LanePart :=
  o.parts.filter (fun p => toPeer p && p.dev == m.dev && m.lanes.contains p.lpos &&
    m.parts.any (fun r => decide (r.1 ≤ p.pa) && decide (p.pa + p.size ≤ r.1 + r.2.1)))

/-- The bytes of a response that belong to a part: the response gives those of the message's runs one after the other. None where they are
poisoned, so that no data have come (spec/20 R444). -/
def partData (runs : List (Nat × Nat × List Byte)) (data : List Byte) (p : LanePart) : List Byte :=
  match runs with
  | [] => []
  | r :: rest =>
    if r.1 ≤ p.pa ∧ p.pa + p.size ≤ r.1 + r.2.1 then (data.drop (p.pa - r.1)).take p.size else partData rest (data.drop r.2.1) p

/-- Registers of an operation that returns nothing to some threads are in flight for them no more; 64 stands for the scalar
registers. -/
def unfly (id : Nat) (lanes : List Nat) (g : Gang) : Gang :=
  { g with
    sflight := if lanes.contains 64 then g.sflight.filter (fun f => f.op != id) else g.sflight
    threads := g.threads.map (fun t =>
      if lanes.contains t.lpos then { t with inflight := t.inflight.filter (fun f => f.op != id) } else t) }

/-- The faults of the threads of parts that a peer does not serve, one for each thread. -/
def partFaults (o : OutOp) (ps : List LanePart) (kind : FaultKind) : List LaneFault :=
  let acc := match o.kind with
    | .atomic _ _ _ _ => Acc.atomic
    | _ => Acc.read
  ps.foldl (fun l p => if l.any (fun f => f.lpos == p.lpos) then l else l ++ [⟨p.lpos, kind, p.va, acc⟩]) []

/-- Whether the wait table has entries for the faults of an operation, in its turn (spec/18 R397, spec/20 R421). -/
def failRoom (s : State) (g : Gang) (o : OutOp) (n : Nat) : Bool :=
  n == 0 || (decide (waitCount s (coreDie g.core) + n ≤ 4096) && slotTurn s g.core (5000 + coreDie g.core) (fun w => w.cmd == o.id))

/-- An operation whose faults wait for entries of the wait table (spec/18 R397). -/
def awaitFail (s : State) (g : Gang) (o : OutOp) : State :=
  joinTable s ⟨5000 + coreDie g.core, g.core, g.slot, 0, o.pc, .waitSlot 1, o.id, none, s.clk⟩ (fun w => w.cmd == o.id)

/-- A load or atomic that a peer does not serve: its threads take the fault at its bundle (spec/15 R333, R334); none without room
in the wait table (spec/20 R421). -/
def failParts (s : State) (g : Gang) (o : OutOp) (ps : List LanePart) (kind : FaultKind) : Option State :=
  let fs := partFaults o ps kind
  let lanes := fs.map (·.lpos)
  if !(failRoom s g o (newEntries s (coreDie g.core) g.ctx (faultGroups fs))) then none
  else
    let s1 := updGang (leaveTable s (coreDie g.core) (fun w => w.cmd == o.id)) g.core g.slot (unfly o.id lanes)
    let s2 := match fs.find? (fun f => f.lpos == 64) with
      | some f => faultPath s1 g o.pc o.mask { f with lpos := 0 }
      | none => faultThreads s1 g o.pc fs
    some (leaveParts s2 g { o with got := o.got.filter (fun a => !(lanes.contains a.lpos)) } (fun p => lanes.contains p.lpos) [])

/-- A response with the data of whole accesses: each thread's result is on its way (spec/12 R261, R265). -/
def peerWhole (s : State) (g : Gang) (o : OutOp) (m : Msg) (data : List Byte) (ps : List LanePart) : State :=
  leaveParts s g o (fun p => ps.contains p) (ps.map (fun p =>
    let b := partData m.parts data p
    let regs := kindRegs o.kind p.reg (b ++ List.replicate (p.size - b.length) memDefault)
    regAnswer s (partTicks s g o.kind p) p.lpos regs (if b.isEmpty then regs.map (·.1) else [])))

/-- A response with the data of single bytes or steps (spec/11 R246, spec/12 R265). -/
def peerPieces (s : State) (g : Gang) (o : OutOp) (m : Msg) (data : List Byte) (ps : List LanePart) : State :=
  let got := fun (p : LanePart) =>
    let b := partData m.parts data p
    { p with x := toDword (ofBytes b), y := toDword (1 + 2 * bitNat b.isEmpty) }
  finishParts (updGang s g.core g.slot (fun g => { g with out := g.out.map (fun x =>
    if x.id == o.id then { x with parts := x.parts.map (fun q => if ps.contains q then got q else q) } else x) })) g o.id

/-- A response to a message of an operation of a gang; none where it must wait. -/
def answerOp (s : State) (g : Gang) (o : OutOp) (m : Msg) (ok : Bool) (data : List Byte) : Option State :=
  match o.kind, msgParts m o with
  | _, [] => some s
  | .external, ps => some (restParts s g.core o ps)
  | .atomic op wide rm anchor, p :: ps =>
    if !ok then failParts s g o (p :: ps) .access
    else
      let b := partData m.parts data p
      some (atomDone s g o op p (atomEval op wide p.x p.y rm anchor false (ofBytes b)) b.isEmpty)
  | .adjRead, p :: ps =>
    if !ok then failParts s g o (p :: ps) .access else some (returnAdjoint s g o (partData m.parts data p))
  | .load _ _, ps | .loadScalar _, ps =>
    if !ok then failParts s g o ps .access
    else some (if o.whole then peerWhole s g o m data ps else peerPieces s g o m data ps)
  | _, _ => some s

/-- A response to a message of an engine command: a refused read ends the command with error status (spec/19 R414). -/
def answerCmd (s : State) (c : EngCmd) (id : Nat) (ok : Bool) (data : List Byte) : State :=
  let s1 := updCmd s c.id (fun c =>
    { c with
      far := if ok then c.far.map (fun f => if f.id == id then { f with data := some (data.take f.size) } else f) else c.far.filter (fun f => f.id != id)
      acks := c.acks.filter (fun f => f.id != id) })
  if !ok && c.far.any (fun f => f.id == id) then denyCmd s1 c else s1

/-- The outstanding message of a name. -/
def findMsg (s : State) (id : Nat) : Option Msg := s.sent.find? (fun m => m.id == id && m.cls != 4 && m.cls != 5)

/-- A request that is refused while the wait table has no entry for its fault: the fault waits (spec/18 R397, spec/20 R421). -/
def refusedLater (s : State) (g : Gang) (o : OutOp) (id : Nat) : State :=
  { awaitFail s g o with sent := s.sent.map (fun m => if m.id == id && m.cls != 5 then { m with err := true } else m) }

/-- A refused request whose fault waits is taken up again: its destination denies it or is out of reach. -/
def retryFail (s : State) (m : Msg) : State :=
  match opGang s m.op with
  | some (g, o) =>
    ((failParts s g o (msgParts m o) (if s.unreach.contains m.dev then .peerUnreachable else .access)).map (fun s1 => answered s1 m.id)).getD s
  | none => answered s m.id

/-- Every refused request whose fault finds its entries now takes them, in the order of the list (spec/18 R397). -/
def retryFails (s : State) : State := (s.sent.filter (fun m => m.err && m.cls != 5)).foldl retryFail s

/-- EVENT: a class-S response or acknowledgement arrives and is matched to its request (spec/15 R324, R334). Data of a poisoned line are
absent. -/
def execPeerResponse (id : Nat) (ok : Bool) (data : List Byte) (s : State) : Res :=
  match findMsg s id with
  | none => .next s
  | some m =>
    if !(linkUp s m.dev) || m.err then .next s
    else
      match opGang s m.op with
      | some (g, o) => .next (((answerOp s g o m ok data).map (fun s1 => answered s1 id)).getD (refusedLater s g o id))
      | none =>
        match findCmd s m.op with
        | some c => .next (answered (answerCmd s c id ok data) id)
        | none => .next (answered s id)

/-! ### Ports and failures (spec/15 R332, R333) -/

/-- The code of a port's state (spec/15 R332). -/
def portCode : PortState → Nat
  | .down => 0
  | .training => 1
  | .up => 2
  | .degraded => 3
  | .fenced => 4

/-- EVENT: a port changes state, with a `LINKST` event; the destinations that a port reaches are reachable while it carries traffic
(spec/15 R332, R333). -/
def execLinkPortStateChange (port : Nat) (st : PortState) (s : State) : Res :=
  match s.ports[port]? with
  | none => .next s
  | some p =>
    if p.state = st then .next s
    else
      let q := { p with state := st }
      let s1 := { s with
        ports := modifyAt (fun _ => { q with since := if carries p && !(carries q) then s.dtb else p.since }) port s.ports
        unreach := if carries q then s.unreach.filter (fun d => !(reaches d port)) else s.unreach }
      .next (emitSys s1 (.hub port) 0x20 (portCode st))

/-- Whether a destination has been out of reach for longer than `LNKTMO` (spec/15 R333). -/
def outOfReach (s : State) (dev : Nat) : Bool :=
  (rangeFrom 0 24).all (fun i => !(reaches dev i) || (s.ports[i]?).all (fun p =>
    !(carries p) && decide (p.since + tickMicro * s.lnktmo.toNat < s.dtb)))

/-- The messages to a destination that have not been acknowledged. -/
def openMsgs (s : State) (dev : Nat) : List Msg := s.sent.filter (fun m => m.dev == dev && m.cls != 4 && m.cls != 5)

/-- The tenant of a message. -/
def msgCtx (s : State) (m : Msg) : Option Nat :=
  match opGang s m.op with
  | some (g, _) => some g.ctx
  | none => (findCmd s m.op).map (·.ctx)

/-- Whether a message is a store, a notification or a record. -/
def posted (m : Msg) : Bool := m.kind == .external

/-- A message to an unreachable destination: a load or atomic faults, unless the wait table is full; a store is lost; an engine command is
answered by nobody, and meets the fault at its unit (spec/15 R333). -/
def loseMsg (s : State) (m : Msg) : State :=
  match opGang s m.op with
  | some (g, o) =>
    if posted m then answered (restParts s g.core o (msgParts m o)) m.id
    else ((failParts s g o (msgParts m o) .peerUnreachable).map (fun s1 => answered s1 m.id)).getD (refusedLater s g o m.id)
  | none =>
    answered (updCmd s m.op (fun c => { c with far := c.far.filter (fun f => f.id != m.id), acks := c.acks.filter (fun f => f.id != m.id) })) m.id

/-- The messages of a tenant to a destination that are lost: stores, notifications and records. -/
def lostCount (s : State) (ctx dev : Nat) : Nat := ((openMsgs s dev).filter (fun m => posted m && msgCtx s m == some ctx)).length

/-- EVENT: a destination has been unreachable beyond `LNKTMO`: loads and atomics to it fault, other messages are lost, and each
tenant that waited gets a link-error record (spec/15 R333). -/
def execLinkUnreachableTimeout (dev : Nat) (s : State) : Res :=
  if !(outOfReach s dev) then .next s
  else
    let ms := openMsgs s dev
    let tenants := (ms.filterMap (msgCtx s)).foldl (fun l n => if l.contains n then l else l ++ [n]) []
    let s1 := { s with
      unreach := if s.unreach.contains dev then s.unreach else dev :: s.unreach
      ports := modifyAt (fun p => { p with lost := p.lost + (ms.filter posted).length }) (Config.mainPort dev % 24) s.ports }
    .next (tenants.foldl (fun s' t => postFault s' t
      { blankRec s' t none (.hub 0) 4 1 with addr := toDword dev, detail := min (lostCount s t dev) (2 ^ 48 - 1) }) (ms.foldl loseMsg s1))

/-- EVENT: a port retransmits a flit: invisible to programs, counted (spec/15 R332, spec/20 R452). -/
def execFlitRetransmission (port : Nat) (s : State) : Res :=
  .next { s with ports := modifyAt (fun p => { p with retrans := p.retrans + 1 }) port s.ports }

/-! ### The host (spec/11 R243, R248; spec/19 R413, R414) -/

/-- Whether an identity may access a run of device memory: 32, the driver, passes every table; 33 is the device's own, and others
are never carried. -/
def hostMay (s : State) (identity pa n : Nat) (write : Bool) : Bool :=
  decide (pa + n ≤ deviceBytes) &&
  (identity == 32 || ((findCtx s identity).any (fun c => decide (identity < 32) && grantRun c false write pa n)))

/-- Whether a run lies within one line. -/
def oneLine (pa n : Nat) : Bool := decide (1 ≤ n) && decide (pa % 128 + n ≤ 128)

/-- EVENT: a host write to device memory arrives at its home slice; a denied one is discarded and counted (spec/11 R243, spec/19
R414). -/
def execHostWrite (identity pa : Nat) (data : List Byte) (s : State) : Res :=
  if !(oneLine pa data.length) || decide (33 ≤ identity) then .next s
  else if hostMay s identity pa data.length true then .next (homeWrite s 4 pa data none).1
  else .next { s with peerBad := s.peerBad + 1 }

/-- EVENT: a host read of device memory observes what has arrived at home (spec/11 R243); a poisoned line answers no data (spec/20
R444). -/
def execHostRead (identity pa len : Nat) (s : State) : Res :=
  if !(oneLine pa len) || decide (33 ≤ identity) || !(hostMay s identity pa len false) then .next s
  else .next { s with hostOut := s.hostOut ++ [if linePoison s pa len then [] else memBytes s pa len] }

/-- EVENT: a host atomic: whole on a system-atomic page, else a read now and a write as a later event, between which others may act
(spec/11 R248); a denied one is counted (spec/19 R414). -/
def execHostAtomic (identity pa : Nat) (sysat : Bool) (op : AtomicOp) (wide : Bool) (x y : Dword) (s : State) : Res :=
  let n := atomBytes op wide
  if !(cxlAtomic op) || pa % n != 0 || decide (33 ≤ identity) then .next s
  else if !(hostMay s identity pa n false && hostMay s identity pa n true) then .next { s with peerBad := s.peerBad + 1 }
  else
    let old := memBytes s pa n
    let e := atomEval op wide x y .rne 0 false (ofBytes old)
    let s1 := { s with hostOut := s.hostOut ++ [old] }
    if sysat then .next (atomStore s1 4 pa e none).1
    else
      match e.write with
      | none => .next s1
      | some b => .next { s1 with agenda := s1.agenda ++ [.hostWrite identity pa b] }

end Sys2Proof.Machine
end

