-- ==== Sys2Proof/Machine/Report.lean ====
section
/-! DEFINITION. The device's own reporting: trace sinks and rings (spec/14 R313 to R317), waiting fault records (spec/20 R424),
the discipline of the DTB (spec/14 R305 to R307), withheld issue slots (spec/01 R25). -/

namespace Sys2Proof.Machine

/-! ### Rings (spec/14 R313, R315) -/

/-- Whether a tenant's ring is full. -/
def trFull (c : Ctx) : Bool := ringFull c.trsize c.trwr c.trrd c.trPend.length

/-- The records that a ring has room for, behind `n`. -/
def ringRoom (size wr rd : Dword) (n : Nat) : Nat :=
  if size = 0 then 0 else ((rd.toNat + size.toNat - ringOff size wr n - 64) % size.toNat) / 64

/-- A record written into a tenant's ring as a store with the tenant's identity; `TRWR` follows with the release; a denied one is dropped
(spec/14 R315, spec/20 R486). -/
def ringWrite (s : State) (c : Ctx) (sink : Nat) (b : List Byte) : State :=
  let pa := c.trbase.toNat + ringOff c.trsize c.trwr c.trPend.length
  if !(grantRun c false true pa 64) then dropTrace s c sink
  else
    let w := homeWrite s 4 pa b none
    updSink (updCtx w.1 c.id (fun c => { c with trPend := c.trPend ++ [w.2] })) sink (fun k => { k with written := k.written + 1 })

/-- A record written into the driver's ring, or dropped when the ring has no room (spec/14 R313, spec/20 R430). -/
def sysRingWrite (s : State) (b : List Byte) : State :=
  if ringFull s.systrsize s.systrwr s.systrrd s.sysPend.length then updSink s 0 (fun k => { k with drops := k.drops + 1 })
  else
    let w := homeWrite s 4 (s.systrbase.toNat + ringOff s.systrsize s.systrwr s.sysPend.length) b none
    updSink { w.1 with sysPend := w.1.sysPend ++ [w.2] } 0 (fun k => { k with written := k.written + 1 })

/-- A context's `TRWR` and `FQWR` moved past the records whose completion times have passed (spec/14 R315, spec/20 R423). -/
def releaseCtx (now : Nat) (c : Ctx) : Ctx :=
  let m := passedRecs now c.trPend
  let n := passedRecs now c.fqPend
  { c with
    trwr := if m = 0 then c.trwr else toDword (ringOff c.trsize c.trwr m), trPend := c.trPend.drop m
    fqwr := if n = 0 then c.fqwr else toDword (ringOff c.fqsize c.fqwr n), fqPend := c.fqPend.drop n }

/-- The interrupts of the contexts whose `FQWR` moves (spec/20 R423). -/
def fqSignals (now : Nat) (cs : List Ctx) : List Nat :=
  (cs.filter (fun c => c.fqctl.getLsbD 0 && passedRecs now c.fqPend != 0)).map (·.id)

/-- The releases of the rings and queues whose time has come. -/
def releaseRings (s : State) : State :=
  let now := dieNow s hubDie
  let n := passedRecs now s.sysPend
  { s with
    ctxs := s.ctxs.map (releaseCtx now), msix := s.msix ++ fqSignals now s.ctxs
    systrwr := if n = 0 then s.systrwr else toDword (ringOff s.systrsize s.systrwr n), sysPend := s.sysPend.drop n }

/-- The list of records without the first of a source. -/
def popTrace (s : State) (src : TraceSource) : State := { s with traceBuf := updateFirst (fun r => r.src == src) (fun _ => []) s.traceBuf }

/-- The sink that takes a record: a tenant's, or, for the driver's ring, sink 0 (log entry 100). -/
def recSink (r : TraceRec) : Nat := if r.sys then 0 else r.sink

/-- Whether a record must wait for room in its tenant's ring: it is lossless, and so is the trace (spec/14 R317). -/
def recWaits (s : State) (r : TraceRec) : Bool :=
  !r.sys && r.mode == 2 && (findCtx s r.ctx).any (fun c => trFull c && !c.trFall)

/-- The oldest records of the sources, each source once. -/
def headRecs : List TraceRec → List TraceRec
  | [] => []
  | r :: rest => r :: (headRecs rest).filter (fun x => x.src != r.src)

/-- How far a source stands behind the one that a sink served last, in the order of service. -/
def sinkTurn (last : Nat) (src : TraceSource) : Nat := (srcNum src + 1099 - last) % 1100

/-- Whether a record's source is served next by its sink: the sources that feed one sink take turns (spec/14 R317). -/
def recTurn (s : State) (r : TraceRec) : Bool :=
  let last := sparseGet 1099 s.sinkRr (recSink r)
  (headRecs s.traceBuf).all (fun x => recSink x != recSink r || recWaits s x || decide (sinkTurn last r.src ≤ sinkTurn last x.src))

/-- A record as it is written: one written during a fallback is marked as lossy too (spec/14 R309, R317). -/
def writtenBytes (c : Ctx) (r : TraceRec) : List Byte := if c.trFall then toBytes 64 (ofBytes r.bytes ||| 2 ^ 33) else r.bytes

/-- EVENT: a sink takes the oldest record of the source whose turn it is: it is written where the ring has room; in lossless mode it waits
for room, otherwise it is dropped (spec/14 R315 to R317). The configuration that held when its event was generated applies (R313). -/
def execTraceSinkWrite (src : TraceSource) (s : State) : Res :=
  match (srcQueue s src).head? with
  | none => .next s
  | some r =>
    if recWaits s r || !(recTurn s r) then .next s
    else
      let s1 := { popTrace s src with sinkRr := sparseSet 1099 s.sinkRr (recSink r) (srcNum src) }
      if r.sys then .next (sysRingWrite s1 r.bytes)
      else
        match findCtx s r.ctx with
        | none => .next s1
        | some c => .next (if trFull c then dropTrace s1 c r.sink else ringWrite s1 c r.sink (writtenBytes c r))

/-- EVENT: the sink writes a `LOSS` record when the ring next has room (spec/14 R311, R316). -/
def execLossRecord (ctx : Nat) (s : State) : Res :=
  match findCtx s ctx with
  | none => .next s
  | some c =>
    if c.trLost = 0 ∨ trFull c then .next s
    else
      let src := TraceSource.hub (40 + ctxSink c)
      let key := srcNum src * 64 + ctx
      let seq := sparseGet 0 s.traceSeq key
      let b := traceBytes (c.trLost % 2 ^ 32) (dieNow s hubDie) seq 0x30 ctx false (traceMode c != 2) src 0
      let s1 := updCtx { s with traceSeq := sparseSet 0 s.traceSeq key (seq + 1) } ctx (fun c => { c with trLost := 0 })
      .next (ringWrite s1 { c with trLost := 0 } (ctxSink c) b)

/-- The records that stay, and the sinks of a tenant's records that wait beyond their buffers' depth: each source's count of records seen so
far decides. -/
def beyondDepth (ctx : Nat) : List TraceRec → List TraceRec → List TraceRec × List Nat
  | _, [] => ([], [])
  | seen, r :: rest =>
    let r' := beyondDepth ctx (seen ++ [r]) rest
    if r.ctx == ctx && !r.sys && decide (srcDepth r.src ≤ (seen.filter (fun x => x.src == r.src)).length) then (r'.1, r.sink :: r'.2)
    else (r :: r'.1, r'.2)

/-- Whether a tenant's trace is lossless: by its mode, or by that of records still to be written (spec/14 R313, R317). -/
def lossless (s : State) (c : Ctx) : Bool :=
  !c.trFall && (bitsOf c.trcfg.toNat 1 0 == 2 || s.traceBuf.any (fun r => !r.sys && r.ctx == c.id && r.mode == 2))

/-- EVENT: a tenant's ring has stayed full for 2^TMO us: the tenant falls back to sampling behaviour, and what waited for a buffer
is dropped (spec/14 R317). -/
def execLosslessTimeout (ctx : Nat) (s : State) : Res :=
  match findCtx s ctx with
  | none => .next s
  | some c =>
    if lossless s c ∧ c.trSince.any (fun t => decide (t + tickMicro * 2 ^ bitsOf c.trcfg.toNat 43 40 ≤ s.dtb)) then
      let r := beyondDepth ctx [] s.traceBuf
      .next (updCtx (r.2.foldl (fun s n => dropTrace s c n) { s with traceBuf := r.1 }) ctx (fun c => { c with trFall := true }))
    else .next s

/-- A tenant's ring watched: since when it has been full, and the end of a fallback once it has room for 1,024 records (spec/14
R317). -/
def watchRing (now : Nat) (c : Ctx) : Ctx :=
  { c with
    trSince := if trFull c then some (c.trSince.getD now) else none
    trFall := c.trFall && decide (ringRoom c.trsize c.trwr c.trrd c.trPend.length < 1024) }

/-- Every tenant's ring released and watched. -/
def watchRings (s0 : State) : State :=
  let s := releaseRings s0
  { s with ctxs := s.ctxs.map (watchRing s.dtb) }

/-! ### Waiting fault records (spec/20 R424) -/

/-- EVENT: the waiting fault records are written, oldest first, as far as the queue has room (spec/20 R423, R424). -/
def execFaultQueueDrain (ctx : Nat) (s : State) : Res :=
  .next (drainRecs s ctx (((findCtx s ctx).map (·.waitRecs.length)).getD 0))

/-! ### The DTB (spec/14 R305 to R307) -/

/-- A signed number of ticks as 32 bits, saturating. -/
def satTicks (x : Int) : Word := toWord (wrap 32 (clampInt (-(2 ^ 31 : Nat)) ((2 ^ 31 : Nat) - 1) x))

/-- A change of `DTBSTAT`.STATE, with its event (spec/14 R306, R307, R311). -/
def dtbMove (s : State) (st : Nat) : State :=
  if s.dtbState = st then s
  else emitSys { s with dtbState := st } (.hub 33) 0x21 (s.dtbState % 4 + st % 4 * 4 + s.dtbOffs.toNat * 2 ^ 32)

/-- The offset that a message measures: DTB − 16·(PTP time − `DTBORG`). -/
def ptpOffset (s : State) (ptpNs : Nat) : Int := (dieNow s hubDie : Int) - 16 * ((ptpNs : Int) - (s.dtborg.toNat : Int))

/-- The first lock sets `DTBORG` to PTP time − dtb()/16, rounded to the nearest nanosecond (spec/14 R305). -/
def firstLock (s : State) (ptpNs : Nat) : State :=
  if s.dtbLocked then s
  else { s with dtbLocked := true, dtborg := toDword (wrap 64 ((16 * (ptpNs : Int) - (dieNow s hubDie : Int) + 8) / 16)) }

/-- EVENT: a PTP message from the selected source disciplines the DTB: from free-running or holdover it is acquiring, and then
locks; how many messages it takes is not stated (spec/14 R305 to R307). -/
def execPtpMessage (src : BitVec 2) (ptpNs : Nat) (s : State) : Res :=
  if src = 0 ∨ s.dtbSrc ≠ src.toNat then .next s
  else
    let locks := s.dtbState = 2 ∨ (s.dtbState = 1 ∧ Config.freeBit s.freeCtr (13 * 2 ^ 20))
    let s1 := if locks then firstLock s ptpNs else s
    let off := ptpOffset s1 ptpNs
    let s2 := { s1 with dtbOffs := satTicks off, dtbSlew := if off = 0 then 0 else 1 }
    .next (dtbMove s2 (if locks then 2 else 1))

/-- EVENT: the lock source is lost: a locked DTB goes to holdover (spec/14 R306). -/
def execPtpSourceLost (s : State) : Res :=
  .next (if s.dtbState = 2 then dtbMove s 3 else if s.dtbState = 1 then dtbMove s (if s.dtbLocked then 3 else 0) else s)

/-- EVENT: a correction slew ends (spec/14 R306, R307). -/
def execCorrectionSlewEnd (s : State) : Res := .next { s with dtbSlew := 0 }

/-! ### Issue slots (spec/01 R25) -/

/-- EVENT: the management engine withholds an issue slot of a pipe: its next grant passes (spec/01 R25). -/
def execIssueSlotWithheld (core pipe : Nat) (s : State) : Res :=
  .next { s with withheld := s.withheld ++ [(core, pipe)] }

end Sys2Proof.Machine
end

