-- ==== Sys2Proof/Machine/Mgmt.lean ====
section
/-! DEFINITION. The management commands (spec/20 R427 to R432, R438, R446 to R452; spec/19 R399 to R402, R409, R415, R416). -/

namespace Sys2Proof.Machine

/-! ### Command records (spec/20 R427 to R429, R486) -/

/-- A field of a command record. -/
def mgField (r : BitVec 512) (hi lo : Nat) : Nat := bitsOf r.toNat hi lo

/-- OP. -/
def mgOp (r : BitVec 512) : Nat := mgField r 7 0
/-- CTX. -/
def mgCtx (r : BitVec 512) : Nat := mgField r 47 40
/-- SEQ. -/
def mgSeq (r : BitVec 512) : Nat := mgField r 63 48
/-- DONE. -/
def mgDone (r : BitVec 512) : Nat := mgField r 127 64

/-- Whether a command address obeys spec/20 R486: bits [62:48] are 0. -/
def addrLegal (a : Nat) : Bool := bitsOf a 62 48 == 0

/-- A number with a field cleared. -/
def clearField (n hi lo : Nat) : Nat := n - bitsOf n hi lo * 2 ^ lo

/-- Whether a record is well formed, its operands lying in the fields that its command uses (spec/20 R427, R428). -/
def mgForm (r : BitVec 512) (used : List (Nat × Nat)) : Bool :=
  used.foldl (fun n f => clearField n f.1 f.2) r.toNat / 2 ^ 128 == 0 && mgField r 39 8 == 0 && decide (mgCtx r ≤ 31) && addrLegal (mgDone r)

/-- The command codes of spec/20 R428. -/
def mgCodes : List Nat := [0x01, 0x02, 0x03, 0x04, 0x05, 0x06, 0x07, 0x10, 0x11, 0x12, 0x13, 0x20]

/-- What a command's action answers: the status, the accesses that its end waits for, and whether a save or restoration has
begun. -/
structure MgEnd where
  state  : State
  status : Nat
  ids    : List Nat
  held   : Bool
  deriving DecidableEq, Repr

/-- A command that ends at once. -/
def mgDoneNow (s : State) (status : Nat) : MgEnd := ⟨s, status, [], false⟩

/-- The parked elements of a context whose results go to memory at addresses already translated: a `TLBINV` waits for them too (spec/19
R409). -/
def ctxElems (s : State) (ctx : Nat) : List (Nat × Word) :=
  (s.parkq.filter (fun e => e.ctx == ctx && !e.place.isEmpty)).map (fun e => (e.cluster, e.seq))

/-- The completion entry of a command; a malformed DONE names no place. -/
def mgEnter (r : BitVec 512) (e : MgEnd) : State :=
  { e.state with completions := e.state.completions ++
      [⟨if addrLegal (mgDone r) then toDword (mgDone r) else 0, mgSeq r, mgOp r, e.status, mgCtx r, e.ids,
        if mgOp r = 0x03 ∧ e.status = 0 then ctxElems e.state (mgCtx r) else [], e.held⟩] }

/-- A management command: a record of another listed command is not this event; no engine serves it while the device stays in its boot ROM
(spec/19 R417); a fenced device refuses all but `RESYNC` (spec/20
R445); a malformed record ends with status 2. -/
def mgCommand (r : BitVec 512) (op : Nat) (used : List (Nat × Nat)) (act : State → MgEnd) (s : State) : State :=
  if s.inRom || mgOp r != op && mgCodes.contains (mgOp r) then s
  else if s.fenced ∧ mgOp r ≠ 0x20 then mgEnter r (mgDoneNow s 5)
  else if mgOp r ≠ op ∨ !(mgForm r used) then mgEnter r (mgDoneNow s 2)
  else mgEnter r (act s)

/-- A write of the management engine: bit 63 selects host memory (spec/20 R486). Past the end of device memory there is nothing to
write. -/
def mgWrite (s : State) (a : Nat) (b : List Byte) : State :=
  let pa := bitsOf a 47 0
  if bitOf a 63 then hostWriteAt s pa b else if pa + b.length ≤ deviceBytes then deviceWrite s pa b else s

/-- EVENT: a malformed write to the command window is discarded and counted (spec/20 R427). -/
def execMgmtWindowMalformedWrite (offset size : Nat) (s : State) : Res :=
  .next (if size = 64 ∧ offset % 64 = 0 then s else { s with mgmtBad := s.mgmtBad + 1 })

/-! ### Completion (spec/20 R429) -/

/-- Whether an outstanding operation accesses nothing any more: its registers stay in flight until the marker (spec/02 R30). -/
def ownOp : OutKind → Bool
  | .command | .localTeam | .localPriv => true
  | _ => false

/-- Whether an access is outstanding anywhere. -/
def accessOut (s : State) (id : Nat) : Bool :=
  s.gangs.any (fun g => g.out.any (fun o => o.id == id)) || s.wbuf.any (fun b => b.id == id) ||
  s.cmds.any (fun c => c.far.any (fun f => f.id == id) || c.acks.any (fun f => f.id == id))

/-- The accesses of a context that are outstanding. -/
def ctxAccesses (s : State) (ctx : Nat) : List Nat :=
  (s.gangs.filter (fun g => g.ctx == ctx)).flatMap (fun g => (g.out.filter (fun o => !(ownOp o.kind))).map (·.id)) ++
  (s.wbuf.filter (fun b => b.ctx == ctx)).map (·.id) ++
  (s.cmds.filter (fun c => c.ctx == ctx)).flatMap (fun c => c.far.map (·.id) ++ c.acks.map (·.id))

/-- Whether a command has ended, given those that arrived before it: those of its context end first, and `RESYNC` ends after all
(spec/20 R429). -/
def mgEnded (s : State) (before : List Completion) (c : Completion) : Bool :=
  !c.held && c.ids.all (fun i => !(accessOut s i)) &&
  c.elems.all (fun x => s.parkq.all (fun e => !(e.cluster == x.1 && e.seq == x.2))) && (if c.op = 0x20 then before.isEmpty else before.all (fun x => x.ctx != c.ctx))

/-- The first ended command of a list, with the commands around it. -/
def firstEnded (s : State) (before : List Completion) : List Completion → Option (Completion × List Completion)
  | [] => none
  | c :: rest => if mgEnded s before c then some (c, before ++ rest) else firstEnded s (before ++ [c]) rest

/-- The 16 bytes of a completion. -/
def completionBytes (now : Nat) (c : Completion) : List Byte :=
  toBytes 16 (now % 2 ^ 64 * 2 ^ 64 + c.seq % 2 ^ 16 * 2 ^ 48 + c.op % 256 * 2 ^ 40 + c.status % 256)

/-- EVENT: the oldest ended command's completion is written to DONE, if DONE is not 0 (spec/20 R429). -/
def execCommandCompletion (s : State) : Res :=
  match firstEnded s [] s.completions with
  | none => .next s
  | some (c, rest) =>
    let s1 := { s with completions := rest }
    .next (if c.done = 0 then s1 else mgWrite s1 c.done.toNat (completionBytes (dieNow s hubDie) c))

/-! ### Contexts (spec/19 R399 to R401) -/

/-- A context as `CTXNEW` makes it (spec/19 R399, R400; spec/20 R430). -/
def newCtx (id : Nat) (ptbase : Dword) (coreset : BitVec 96) : Ctx :=
  { id := id, ptbase := ptbase, coreset := coreset, pkr := 0, grants := [], sysgrp := [], leasecfg := 5, trcfg := 0, trbase := 0,
    trsize := 0, trwr := 0, trrd := 0, denbase := 0, densize := 0, fqbase := 0, fqsize := 0, fqwr := 0, fqrd := 0, fqctl := 0,
    logbase := 0, mbox := [], regions := [], nodes := [], queues := [[], [], [], []], logUsed := [], denUsed := [], waitRecs := [],
    fqlost := 0, kills := 0, save := 0, trLost := 0, trFall := false, trSince := none, trPend := [], fqPend := [] }

/-- EVENT: `CTXNEW` (spec/19 R399, R400). -/
def execCtxnew (r : BitVec 512) (s : State) : Res :=
  .next (mgCommand r 0x01 [(191, 128), (287, 192)] (fun s =>
    let pt := mgField r 191 128
    if (findCtx s (mgCtx r)).isSome then mgDoneNow s 1
    else if pt % 4096 ≠ 0 ∨ deviceBytes ≤ pt then mgDoneNow s 2
    else mgDoneNow { s with
        ctxs := s.ctxs ++ [newCtx (mgCtx r) (toDword pt) (BitVec.ofNat 96 (mgField r 287 192))]
        traceSeq := s.traceSeq.filter (fun x => x.1 % 64 != mgCtx r) } 0) s)

/-- A context scrubbed and free (spec/19 R401; spec/20 R424). -/
def scrubCtx (s : State) (n : Nat) : State :=
  { s with
    ctxs := s.ctxs.filter (fun c => c.id != n)
    tlb := s.tlb.filter (fun e => e.ctx != n)
    walkCache := s.walkCache.filter (fun e => e.ctx != n)
    decs := s.decs.filter (fun d => d.ctx != n)
    waits := s.waits.filter (fun w => w.ctx != n)
    parkq := s.parkq.filter (fun e => e.ctx != n)
    dens := s.dens.filter (fun d => d.ctx != n)
    copies := s.copies.filter (fun w => w.ctx != n)
    traceBuf := s.traceBuf.filter (fun t => t.sys || t.ctx != n)
    saved := s.saved.filter (fun v => v.ctx != n) }

/-- EVENT: `CTXDEL` (spec/19 R399, R401). -/
def execCtxdel (r : BitVec 512) (s : State) : Res :=
  .next (mgCommand r 0x02 [] (fun s =>
    if (findCtx s (mgCtx r)).isNone || s.grids.any (fun g => g.ctx == mgCtx r) then mgDoneNow s 1
    else mgDoneNow (scrubCtx s (mgCtx r)) 0) s)

/-! ### Invalidation (spec/19 R409) -/

/-- Whether a translation of page `page` of `2^bits` bytes overlaps the scope of a `TLBINV`. -/
def inScope (r : BitVec 512) (page bits : Nat) : Bool :=
  !(bitOf r.toNat 128) ||
  (decide (page * 2 ^ bits < mgField r 255 192 + mgField r 319 256) && decide (mgField r 255 192 < (page + 1) * 2 ^ bits))

/-- A thread without a last-page register that a `TLBINV` sweeps. -/
def sweepThread (r : BitVec 512) (t : Thread) : Thread :=
  match t.lastPage with
  | some (page, bits, _) => if inScope r page bits then { t with lastPage := none } else t
  | none => t

/-- EVENT: `TLBINV` sweeps the translations, and ends when the accesses that used them are over (spec/19 R409). -/
def execTlbinv (r : BitVec 512) (s : State) : Res :=
  .next (mgCommand r 0x03 [(128, 128), (255, 192), (319, 256)] (fun s =>
    if (findCtx s (mgCtx r)).isNone then mgDoneNow s 1
    else if bitOf r.toNat 128 && (mgField r 255 192 % 4096 != 0 || mgField r 319 256 % 4096 != 0) then mgDoneNow s 2
    else
      ⟨{ s with
          tlb := s.tlb.filter (fun e => e.ctx != mgCtx r || !(inScope r e.page e.bits))
          walkCache := s.walkCache.filter (fun e => e.ctx != mgCtx r || !(inScope r e.page (12 + 9 * e.level)))
          gangs := s.gangs.map (fun g => if g.ctx == mgCtx r then { g with threads := g.threads.map (sweepThread r) } else g) },
        0, ctxAccesses s (mgCtx r), false⟩) s)

/-! ### Grants and admission (spec/19 R415, R416) -/

/-- A value with the reserved bits of a grant entry at 0. -/
def grantValue (v : Nat) : Nat := clearField (clearField v 9 4) 2 2

/-- EVENT: `GRANT` (spec/19 R415). -/
def execGrant (r : BitVec 512) (s : State) : Res :=
  .next (mgCommand r 0x04 [(133, 128), (255, 192)] (fun s =>
    if (findCtx s (mgCtx r)).isNone then mgDoneNow s 1
    else mgDoneNow (updCtx s (mgCtx r) (fun c =>
      { c with grants := sparseSet 0#64 c.grants (mgField r 133 128) (toDword (grantValue (mgField r 255 192))) })) 0) s)

/-- EVENT: `LINKADM` (spec/19 R416, spec/20 R428). -/
def execLinkadm (r : BitVec 512) (s : State) : Res :=
  .next (mgCommand r 0x05 [(139, 128), (255, 192)] (fun s =>
    if mgField r 231 193 ≠ 0 then mgDoneNow s 2
    else mgDoneNow { s with linkTable := sparseSet 0#64 s.linkTable (mgField r 139 128) (toDword (mgField r 255 192)) } 0) s)

/-! ### Registers (spec/20 R430, R486) -/

/-- The value of a context's register. -/
def ctxReg (c : Ctx) (n : Nat) : Option Dword :=
  match n with
  | 0x000 => some c.leasecfg
  | 0x010 => some c.trcfg
  | 0x011 => some c.trbase
  | 0x012 => some c.trsize
  | 0x013 => some c.trwr
  | 0x014 => some c.trrd
  | 0x018 => some c.denbase
  | 0x019 => some c.densize
  | 0x020 => some c.fqbase
  | 0x021 => some c.fqsize
  | 0x022 => some c.fqwr
  | 0x023 => some c.fqrd
  | 0x024 => some c.fqctl
  | 0x028 => some c.logbase
  | _ => none

/-- `DTBSTAT` (spec/14 R306). -/
def dtbStat (s : State) : Nat := s.dtbOffs.toNat * 2 ^ 32 + s.dtbSrc % 4 * 16 + s.dtbState % 4 * 4 + s.dtbSlew % 2 * 2

/-- The value of a device register. -/
def devReg (s : State) (n : Nat) : Option Dword :=
  match n with
  | 0x100 => some s.dtborg
  | 0x101 => some (toDword (dtbStat s))
  | 0x102 => some s.lnktmo
  | 0x110 => some s.systrbase
  | 0x111 => some s.systrsize
  | 0x112 => some s.systrwr
  | 0x113 => some s.systrrd
  | _ => none

/-- Whether a number names a context register. -/
def isCtxReg (n : Nat) : Bool := (ctxReg (newCtx 0 0 0) n).isSome

/-- Whether a number names a device register. -/
def isDevReg (n : Nat) : Bool := [0x100, 0x101, 0x102, 0x110, 0x111, 0x112, 0x113].contains n

/-- A ring or queue size: 0, or a power of two from 4 KiB to a limit. -/
def sizeLegal (limit v : Nat) : Bool := v == 0 || (decide (4096 ≤ v) && decide (v ≤ limit) && v == 2 ^ v.log2)

/-- A base of a ring, a queue or the den area: 4 KiB aligned, in device memory below 768 GiB. -/
def baseLegal (v : Nat) : Bool := v % 4096 == 0 && decide (v < deviceBytes)

/-- A read offset of a ring or queue of a size. -/
def offLegal (size v : Nat) : Bool := v % 64 == 0 && decide (v < size)

/-- A context with a register written, or none where the value is rejected. Reserved bits stay 0. -/
def setCtxReg (c : Ctx) (n v : Nat) : Option Ctx :=
  let ok := fun (b : Bool) (c : Ctx) => if b then some c else none
  match n with
  | 0x000 => ok (decide (1 ≤ v % 16) && decide (v % 16 ≤ 7)) { c with leasecfg := toDword (v % 16) }
  | 0x010 => ok (v % 4 != 3) { c with trcfg := toDword (bitsOf v 43 32 * 2 ^ 32 + v % 16) }
  | 0x011 => ok (baseLegal v) { c with trbase := toDword v, trwr := 0, trrd := 0, trPend := [] }
  | 0x012 => ok (sizeLegal (2 ^ 30) v) { c with trsize := toDword v, trwr := 0, trrd := 0, trPend := [] }
  | 0x014 => ok (offLegal c.trsize.toNat v) { c with trrd := toDword v }
  | 0x018 => ok (baseLegal v) { c with denbase := toDword v }
  | 0x019 => ok (v % 4096 == 0) { c with densize := toDword v }
  | 0x020 => ok (baseLegal v) { c with fqbase := toDword v, fqwr := 0, fqrd := 0, fqPend := [] }
  | 0x021 => ok (sizeLegal (2 ^ 24) v) { c with fqsize := toDword v, fqwr := 0, fqrd := 0, fqPend := [] }
  | 0x023 => ok (offLegal c.fqsize.toNat v) { c with fqrd := toDword v }
  | 0x024 => some { c with fqctl := toDword (v % 2) }
  | 0x028 => ok (v % 65536 == 0 && decide (v < 2 ^ 48)) { c with logbase := toDword v }
  | _ => none

/-- The device with a register written, or none where the value is rejected. -/
def setDevReg (s : State) (n v : Nat) : Option State :=
  let ok := fun (b : Bool) (s : State) => if b then some s else none
  match n with
  | 0x101 => ok (bitsOf v 5 4 != 3) { s with dtbSrc := bitsOf v 5 4 }
  | 0x102 => ok (decide (1 ≤ v) && decide (v ≤ 65536)) { s with lnktmo := toDword v }
  | 0x110 => ok (baseLegal v) { s with systrbase := toDword v, systrwr := 0, systrrd := 0, sysPend := [] }
  | 0x111 => ok (sizeLegal (2 ^ 30) v) { s with systrsize := toDword v, systrwr := 0, systrrd := 0, sysPend := [] }
  | 0x113 => ok (offLegal s.systrsize.toNat v) { s with systrrd := toDword v }
  | _ => none

/-- The status that refuses the access to a register: 3 no such number, 1 the wrong context (spec/20 R430). -/
def regRefuse (s : State) (ctx n : Nat) : Option Nat :=
  if isCtxReg n then (if (findCtx s ctx).isNone then some 1 else none)
  else if isDevReg n then (if ctx ≠ 0 then some 1 else none)
  else some 3

/-- EVENT: `REGWR` (spec/20 R430). -/
def execRegwr (r : BitVec 512) (s : State) : Res :=
  .next (mgCommand r 0x06 [(139, 128), (255, 192)] (fun s =>
    let n := mgField r 139 128
    let v := mgField r 255 192
    match regRefuse s (mgCtx r) n with
    | some e => mgDoneNow s e
    | none =>
      if isCtxReg n then
        (match (findCtx s (mgCtx r)).bind (fun c => setCtxReg c n v) with
         | none => mgDoneNow s 6
         | some c => mgDoneNow (updCtx s (mgCtx r) (fun _ => c)) 0)
      else
        match setDevReg s n v with
        | none => mgDoneNow s 6
        | some s1 => mgDoneNow s1 0) s)

/-- EVENT: `REGRD` writes a register's value to its result address (spec/20 R430). -/
def execRegrd (r : BitVec 512) (s : State) : Res :=
  .next (mgCommand r 0x07 [(139, 128), (255, 192)] (fun s =>
    let n := mgField r 139 128
    let a := mgField r 255 192
    if a % 8 ≠ 0 ∨ !(addrLegal a) then mgDoneNow s 2
    else
      match regRefuse s (mgCtx r) n with
      | some e => mgDoneNow s e
      | none =>
        let v := if isCtxReg n then (findCtx s (mgCtx r)).bind (fun c => ctxReg c n) else devReg s n
        mgDoneNow (mgWrite s a (toBytes 8 (v.getD 0).toNat)) 0) s)

/-! ### `REPLAY` (spec/20 R431, R432) -/

/-- Whether a wait-table entry is the one that a `REPLAY` names. A token's die stands in its bits [31:30]. -/
def replayHits (ctx : Nat) (byPage : Bool) (key : Nat) (w : WaitEntry) : Bool := w.ctx == ctx && w.byPage == byPage && w.key == key

/-- A gang with a parked sub-gang replaced. -/
def mapParked (uid : Nat) (f : Parked → List Parked) (g : Gang) : Gang :=
  if g.parked.any (fun p => p.uid == uid) then { g with parked := g.parked.flatMap (fun p => if p.uid == uid then f p else [p]) } else g

/-- A parked sub-gang replaced, wherever its gang is held: resident or saved. -/
def updParked (s : State) (uid : Nat) (f : Parked → List Parked) : State :=
  { s with
    gangs := s.gangs.map (mapParked uid f)
    saved := s.saved.map (fun v => { v with gangs := v.gangs.map (mapParked uid f) }) }

/-- A command changed, wherever it is held: on the device or saved. -/
def updCmdAnywhere (s : State) (id : Nat) (f : EngCmd → EngCmd) : State :=
  let g := fun (c : EngCmd) => if c.id == id then f c else c
  { s with cmds := s.cmds.map g, saved := s.saved.map (fun v => { v with cmds := v.cmds.map g }) }

/-- The gang that holds a parked sub-gang on the device. -/
def parkedGang (s : State) (uid : Nat) : Option Gang := s.gangs.find? (fun g => g.parked.any (fun p => p.uid == uid))

/-- A faulted sub-gang released, with its event (spec/20 R422, spec/14 R311). -/
def replayRelease (s : State) (uid : Nat) : State :=
  let s1 := updParked s uid (fun p => [{ p with released := true }])
  match parkedGang s uid with
  | none => s1
  | some g => (g.parked.filter (fun p => p.uid == uid)).foldl (fun s p =>
      emit s (.core g.core) g.ctx 0x06 (parkPayload p.mask g.slot p.pc (causeCode p.cause)) (gridTag s g.ctx g.grid) (some g.slot)) s1

/-- The addresses of a sub-gang's faults, each with its threads. -/
def addrGroups (p : Parked) : List (Nat × Nat) :=
  (maskList 64 p.mask).foldl (fun acc l =>
    let a := ((p.addrs.find? (fun x => x.1 == l)).map (·.2)).getD 0
    if acc.any (fun x => x.1 == a) then acc.map (fun x => if x.1 == a then (x.1, x.2 ||| (1 <<< l)) else x) else acc ++ [(a, 1 <<< l)]) []

/-- A faulted sub-gang whose threads take the unresolved-fault trap, each with its own address (spec/20 R431, R433). `first` is the
first of the names of the sub-gangs that this makes. -/
def trapParked (first : Nat) (p : Parked) : List Parked :=
  let l := addrGroups p
  (l.zip (rangeFrom first l.length)).map (fun x =>
    { p with
      uid := x.2, mask := x.1.2, cause := .trapWait, released := false, addrs := []
      trap := some ⟨0x12, toDword x.1.1, toWord (causeCode p.cause), p.pc, p.pc, false⟩ })

/-- A command resumed at its unit: a `QPAIR` at the first row of its plain half (spec/10 R221). -/
def replayCmd (c : EngCmd) : EngCmd := { c with key := none, unit := if c.kind = .qnt 2 then 0 else c.unit }

/-- A held walker copy ended: it writes nothing more, and its node is free (spec/20 R431). -/
def endCopies (s : State) (ctx page : Nat) : State :=
  (s.copies.filter (fun w => w.ctx == ctx && w.held == some page)).foldl (fun s w =>
    setNode { s with copies := s.copies.filter (fun y => !(y.ctx == w.ctx && y.node == w.node)) } w.ctx w.node none) s

/-- The private lines that an entry lists. -/
def lineOfItem (s : State) (ctx core va : Nat) : List PrivLine := s.privLines.filter (fun l => l.ctx == ctx && l.core == core && l.va == va)

/-- One item of an entry under a MODE of 0 or 1. -/
def replayItem (ctx key mode : Nat) (s : State) : WaitItem → State
  | .parked _ _ uid =>
    if mode = 0 then replayRelease s uid
    else updParked { s with nextId := s.nextId + 64 } uid (trapParked s.nextId)
  | .engine id =>
    if mode = 0 then updCmdAnywhere s id replayCmd
    else updCmdAnywhere s id (fun c => { c with key := none, stage := .dropped true })
  | .walker =>
    if mode = 0 then { s with copies := s.copies.map (fun w => if w.ctx == ctx && w.held == some key then { w with held := none } else w) }
    else endCopies s ctx key
  | .privLine core va => if mode = 0 then s else { s with privLines := s.privLines.filter (fun l => !((lineOfItem s ctx core va).contains l)) }

/-- The launches that own an item. -/
def itemGrids (s : State) (ctx : Nat) : WaitItem → List Nat
  | .parked _ _ uid =>
    ((s.gangs ++ s.saved.flatMap (·.gangs)).filter (fun g => g.parked.any (fun p => p.uid == uid))).map (·.grid)
  | .engine id => ((s.cmds ++ s.saved.flatMap (·.cmds)).filter (fun c => c.id == id)).map (·.grid)
  | .walker => []
  | .privLine core va => (lineOfItem s ctx core va).map (·.grid)

/-- The items of entries under MODE 2: their launches are killed, their walker copies end, their lines are lost. -/
def replayKill (s : State) (ctx key : Nat) (items : List WaitItem) : State :=
  let grids := items.flatMap (itemGrids s ctx)
  let s1 := items.foldl (fun s i =>
    match i with
    | .walker | .privLine _ _ => replayItem ctx key 1 s i
    | _ => s) s
  grids.foldl (fun s g => killGrid s ctx g 0xFB) s1

/-- The key that a `REPLAY` names, or none where no entry can have it. -/
def replayKey (r : BitVec 512) : Option Nat :=
  if bitOf r.toNat 128 then (if mgField r 203 192 = 0 then some (mgField r 255 204) else none) else some (mgField r 223 192)

/-- The state without the entries of a key. -/
def freeEntries (s : State) (ctx : Nat) (byPage : Bool) (key : Nat) : State :=
  let hit := replayHits ctx byPage key
  { s with
    waits := s.waits.filter (fun w => !(hit w))
    saved := s.saved.map (fun v => { v with waits := v.waits.filter (fun w => !(hit w)) }) }

/-- EVENT: `REPLAY` (spec/20 R431, R432). -/
def execReplay (r : BitVec 512) (s : State) : Res :=
  .next (mgCommand r 0x10 [(128, 128), (130, 129), (255, 192)] (fun s =>
    let byPage := bitOf r.toNat 128
    let mode := mgField r 130 129
    let ctx := mgCtx r
    if mode = 3 ∨ (!byPage && mgField r 255 224 != 0) then mgDoneNow s 2
    else if (findCtx s ctx).isNone then mgDoneNow s 1
    else
      match replayKey r with
      | none => mgDoneNow s 3
      | some key =>
        match (s.waits ++ s.saved.flatMap (·.waits)).filter (replayHits ctx byPage key) with
        | [] => mgDoneNow s 3
        | e :: es =>
          let items := (e :: es).flatMap (·.items)
          let s1 := freeEntries s ctx byPage key
          mgDoneNow (if mode = 2 then replayKill s1 ctx key items else items.foldl (replayItem ctx key mode) s1) 0) s)

/-! ### `KILL` (spec/20 R438) -/

/-- EVENT: `KILL` (spec/20 R437, R438). -/
def execKill (r : BitVec 512) (s : State) : Res :=
  .next (mgCommand r 0x11 [(128, 128), (191, 160)] (fun s =>
    let ctx := mgCtx r
    let index := mgField r 191 160
    if bitOf r.toNat 128 && index != 0 then mgDoneNow s 2
    else if (findCtx s ctx).isNone then mgDoneNow s 1
    else if bitOf r.toNat 128 then
      mgDoneNow ((s.grids.filter (fun g => g.ctx == ctx)).foldl (fun s g => killGrid s ctx g.index 0xFE) s) 0
    else if (findGrid s ctx index).isNone then mgDoneNow s 3
    else mgDoneNow (killGrid s ctx index 0xFE) 0) s)

/-! ### `PREEMPT` (spec/20 R446, R447) -/

/-- The clusters that a context's partition grants. -/
def coresetSize (c : Ctx) : Nat := ((rangeFrom 0 96).filter (fun k => c.coreset.getLsbD k)).length

/-- EVENT: `PREEMPT` stops the issue of its context; the work is saved when all of it has reached its boundary (spec/20 R446). -/
def execPreempt (r : BitVec 512) (s : State) : Res :=
  .next (mgCommand r 0x12 [(255, 192), (319, 256)] (fun s =>
    let a := mgField r 255 192
    if a % 4096 ≠ 0 ∨ !(addrLegal a) then mgDoneNow s 2
    else
      match findCtx s (mgCtx r) with
      | none => mgDoneNow s 1
      | some c =>
        if c.save ≠ 0 then mgDoneNow s 1
        else if mgField r 319 256 < 4096 + 10 * 2 ^ 20 * coresetSize c then mgDoneNow s 4
        else
          let v : Saved := ⟨c.id, toDword a, [], [], [], [], [], [], [], [], [], []⟩
          ⟨updCtx { s with saved := s.saved ++ [v] } c.id (fun c => { c with save := 1 }), 0, [], true⟩) s)

/-- Whether a command has reached the boundary at which it is saved: a granted pass completes, a `NETRED` that is sent waits, a copy
to or from a peer waits for its answers (spec/20 R446). A granted pass that a faulting command keeps from starting is saved as granted: R446
does not say what becomes of it (DESIGN CHOICE, log entry 117). -/
def cmdAtBoundary (s : State) (c : EngCmd) : Bool :=
  match c.kind with
  | .mma | .mmat => c.stage != .running || (passMembers s c).any (passStuck s 16)
  | .copy n => !(n == 3 && c.stage == .running && c.unit != 0) && c.far.all (fun f => f.data.isSome) && c.acks.isEmpty
  | _ => true

/-- Whether all work of a context has reached its boundary (spec/20 R446, spec/05 R118). -/
def ctxDrained (s : State) (ctx : Nat) : Bool :=
  s.gangs.all (fun g => g.ctx != ctx || (g.out.all (fun o => ownOp o.kind) && g.parked.all (fun p => p.cause != .trapWait))) &&
  s.wbuf.all (fun b => b.ctx != ctx) && s.parkq.all (fun e => e.ctx != ctx) && s.privLines.all (fun l => l.ctx != ctx) &&
  s.cmds.all (fun c => c.ctx != ctx || cmdAtBoundary s c)

/-- A gang as it is saved: its threads hold no reservation and no last-page register (spec/20 R446, spec/19 R406), and its stores to its
own core's memory have taken their data (spec/02 R31). -/
def saveGang (g : Gang) : Gang :=
  let done := (g.out.filter (fun o => o.kind == .localTeam || o.kind == .localPriv)).map (·.id)
  { g with
    out := g.out.filter (fun o => !(done.contains o.id))
    threads := g.threads.map (fun t => { t with lr := none, lastPage := none, inflight := t.inflight.filter (fun f => !(done.contains f.op)) }) }

/-- A den as it is saved: its threads hold no reservation and no last-page register (spec/20 R446). -/
def saveDen (d : Den) : Den :=
  { d with items := d.items.map (fun i =>
      match i with
      | .thread t k => .thread { t with lr := none, lastPage := none } k
      | .record r n => .record r n) }

/-- The bytes that a save leaves in its area: how many there are and what they are is not stated, since only `RESUME` knows the layout
(spec/20 R446, R447; log entry 8). -/
def areaBytes (s : State) (c : Ctx) : List Byte :=
  (rangeFrom 0 (Config.freeNat s.freeCtr (28 * 2 ^ 20) % (4096 + 10 * 2 ^ 20 * coresetSize c + 1))).map (fun j =>
    BitVec.ofNat 8 (Config.freeNat s.freeCtr (27 * 2 ^ 20 + j)))

/-- The `PREEMPT` event of a gang (spec/14 R311). -/
def preemptEvent (bit : Nat) (s : State) (g : Gang) : State :=
  emit s (.core g.core) g.ctx 0x0B (bit + g.slot % 64 * 2) (gridTag s g.ctx g.grid) none

/-- A context's work moved into its save area, whose bytes change with it. Free dens are dissolved: their records stay in memory. -/
def saveCtx (s : State) (ctx : Nat) : State :=
  let gs := s.gangs.filter (fun g => g.ctx == ctx)
  let ts := s.teams.filter (fun t => t.ctx == ctx)
  let tiles := teamPlaces ts (·.tiles)
  let slices := teamPlaces ts (·.slices)
  let tile := fun (k : Nat) => tiles.contains (k / 2 ^ 14)
  let slice := fun (k : Nat) => slices.contains (k / 2 ^ 18)
  let s1 := gs.foldl (preemptEvent 0) s
  let fill := fun (v : Saved) =>
    { v with
      gangs := gs.map saveGang, teams := ts, crews := s.crews.filter (fun c => c.ctx == ctx)
      dens := (s.dens.filter (fun d => d.ctx == ctx && d.owner != .free)).map saveDen
      cmds := (s.cmds.filter (fun c => c.ctx == ctx)).map (fun c => { c with far := [] })
      waits := s.waits.filter (fun w => w.ctx == ctx)
      tiles := s.tiles.filter (fun x => tile x.1), weights := s.weights.filter (fun x => slice x.1)
      tpoison := s.tilePoison.filter tile, wpoison := s.wPoison.filter (fun k => slice (k * 64)) }
  let s2 := { s1 with
    gangs := s1.gangs.filter (fun g => g.ctx != ctx)
    teams := s1.teams.filter (fun t => t.ctx != ctx)
    crews := s1.crews.filter (fun c => c.ctx != ctx)
    dens := s1.dens.filter (fun d => d.ctx != ctx)
    cmds := s1.cmds.filter (fun c => c.ctx != ctx)
    waits := s1.waits.filter (fun w => w.ctx != ctx)
    tiles := s1.tiles.filter (fun x => !(tile x.1))
    weights := s1.weights.filter (fun x => !(slice x.1))
    tilePoison := s1.tilePoison.filter (fun k => !(tile k))
    wPoison := s1.wPoison.filter (fun k => !(slice (k * 64)))
    waiters := s1.waiters.filter (fun w => w.item.isSome || waiterCtx s1 w != ctx)
    yielded := s1.yielded.filter (fun y => !(gs.any (fun g => g.core == y.1 && g.slot == y.2)))
    traceBuf := s1.traceBuf.map (fun t => if t.ctx == ctx then { t with hold := none } else t)
    saved := s1.saved.map (fun v => if v.ctx == ctx then fill v else v)
    completions := s1.completions.map (fun c => if c.ctx == ctx && c.op == 0x12 then { c with held := false } else c) }
  let s3 := match findCtx s ctx, s.saved.find? (fun v => v.ctx == ctx) with
    | some c, some v => (homeWrite s2 4 v.area.toNat (areaBytes s c) none).1
    | _, _ => s2
  updCtx s3 ctx (fun c => { c with save := 2 })

/-- A context being saved: its private lines are written back, then its work moves once it is drained (spec/11 R254, R487). -/
def advanceSave (s : State) (c : Ctx) : State :=
  let s1 := (s.privLines.filter (fun l => l.ctx == c.id)).foldl backLine s
  if ctxDrained s1 c.id then saveCtx s1 c.id else s1

/-! ### `RESUME` (spec/20 R448) -/

/-- EVENT: `RESUME`: the context's work returns once there is a place for it (spec/20 R448). -/
def execResume (r : BitVec 512) (s : State) : Res :=
  .next (mgCommand r 0x13 [(255, 192)] (fun s =>
    let a := mgField r 255 192
    if !(addrLegal a) then mgDoneNow s 2
    else
      match findCtx s (mgCtx r), s.saved.find? (fun v => v.ctx == mgCtx r) with
      | some c, some v =>
        if c.save ≠ 2 then mgDoneNow s 1
        else if v.area ≠ toDword a then mgDoneNow s 3
        else ⟨updCtx s c.id (fun c => { c with save := 3 }), 0, [], true⟩
      | _, _ => mgDoneNow s 1) s)

/-- A cluster moved by whole tables, so that joint work stays on one table. -/
def moveCluster (k cl : Nat) : Nat := (cl + 4 * k) % 96

/-- A core moved with its cluster. -/
def moveCore (k core : Nat) : Nat := (core + 16 * k) % 384

/-- A list of keyed values whose keys move. -/
def moveKeys {α : Type} [DecidableEq α] (d : α) (f : Nat → Nat) (base l : Sparse α) : Sparse α :=
  sparseSetAll d base (l.map (fun x => (f x.1, x.2)))

/-- A key of a place of `unit` in a cluster's sixteen moved with its cluster. -/
def movePlace (k unit key : Nat) : Nat :=
  let p := key / unit
  (moveCluster k (p / 16) * 16 + p % 16) * unit + key % unit

/-- A den moved with its cluster. -/
def moveDen (k : Nat) (d : Den) : Den :=
  { d with
    cluster := moveCluster k d.cluster
    owner := match d.owner with
      | .freeOnCore c => .freeOnCore (moveCore k c)
      | o => o }

/-- A wait-table item moved with its core. -/
def moveItem (k : Nat) : WaitItem → WaitItem
  | .parked core slot uid => .parked (moveCore k core) slot uid
  | i => i

/-- Saved work back on the device, its clusters moved by `k` tables; its threads find no older copies of what they have read (spec/11
R236). -/
def restoreAt (s0 : State) (v : Saved) (k : Nat) : State :=
  let s := v.gangs.foldl (fun s g => freshCaches s (moveCore k g.core)) s0
  { s with
    gangs := s.gangs ++ v.gangs.map (fun g => { g with core := moveCore k g.core })
    teams := s.teams ++ v.teams.map (fun t => { t with core := moveCore k t.core })
    crews := s.crews ++ v.crews.map (fun c => { c with cluster := moveCluster k c.cluster })
    dens := s.dens ++ v.dens.map (moveDen k)
    cmds := s.cmds ++ v.cmds.map (fun c => { c with core := moveCore k c.core, cluster := moveCluster k c.cluster })
    waits := s.waits ++ v.waits.map (fun w => { w with items := w.items.map (moveItem k) })
    tiles := moveKeys 0#32 (movePlace k (2 ^ 14)) s.tiles v.tiles
    weights := moveKeys none (movePlace k (2 ^ 18)) s.weights v.weights
    tilePoison := v.tpoison.map (movePlace k (2 ^ 14)) ++ s.tilePoison
    wPoison := v.wpoison.map (movePlace k (2 ^ 12)) ++ s.wPoison }

/-- Whether a list holds no value twice. -/
def noRepeats (l : List Nat) : Bool :=
  match l with
  | [] => true
  | x :: r => !(r.contains x) && noRepeats r

/-- Whether the work on a core lies within the limits of spec/01 R18 and spec/18 R391. -/
def coreSound (s : State) (core : Nat) : Bool :=
  let gs := coreGangs s core
  noRepeats (gs.map (·.slot)) &&
  (rangeFrom 0 16).all (fun p =>
    let l := gs.filter (fun g => g.pipe == p)
    decide (l.length ≤ 4) && decide (sumNat (l.map (·.size)) ≤ 128)) &&
  decide (sumNat (gs.map (·.size)) + denThreads s core ≤ 2048) && decide (sumNat (gs.map (gangBytes s)) + denBytes s core ≤ 512 * 1024) &&
  decide (roundCarve (coreTmem s core) + coreL1min s core ≤ 512 * 1024)

/-- Whether the work of a cluster lies within its limits: tiles, slices, dens and queues. -/
def clusterSound (s : State) (cl : Nat) : Bool :=
  let ts := s.teams.filter (fun t => coreCluster t.core == cl)
  noRepeats (ts.flatMap (·.tiles)) && noRepeats (ts.flatMap (·.slices)) && decide (denCount s cl ≤ 32) &&
  decide (sumNat ((rangeFrom (cl * 4) 4).map (fun c => tableUsed s c - 4)) ≤ 16) && decide (queueCount s (cl * 4) 1 ≤ 16) &&
  (rangeFrom (cl * 4) 4).all (fun c => coreSound s c && decide (queueCount s c 2 ≤ 16))

/-- The clusters that saved work stood on. -/
def savedClusters (v : Saved) : List Nat :=
  (v.gangs.map (fun g => coreCluster g.core) ++ v.teams.map (fun t => coreCluster t.core) ++ v.crews.map (·.cluster) ++
    v.dens.map (·.cluster) ++ v.cmds.map (·.cluster)).foldl (fun l n => if l.contains n then l else l ++ [n]) []

/-- Whether saved work may return moved by `k` tables: its clusters are granted, its tables as far as they were, and there is
room (spec/20 R448, spec/19 R402). -/
def resumeFits (s : State) (c : Ctx) (v : Saved) (k : Nat) : Bool :=
  let cls := savedClusters v
  let s1 := restoreAt s v k
  cls.all (fun cl =>
    c.coreset.getLsbD (moveCluster k cl) && clusterSound s1 (moveCluster k cl) &&
    (rangeFrom (cl / 4 * 4) 4).all (fun x => !(c.coreset.getLsbD x) || c.coreset.getLsbD (moveCluster k x)))

/-- The waiting lists entered again by the paths of a restored gang that were held for a slot (spec/18 R397). -/
def rejoinQueues (now : Nat) (g : Gang) : List Waiter :=
  g.paths.filterMap (fun p => p.hold.bind (fun h => (slotQueue g.core g.ctx h.cond).map (fun q => ⟨q, g.core, g.slot, p.ent, p.pc, h.cond, 0, none, now⟩)))

/-- The waiting list entered again by a restored command whose round is filled and that has no entry of the table yet (spec/09 R196). -/
def rejoinRound (now : Nat) (c : EngCmd) : Option Waiter :=
  if isMatrix c && !c.entered && c.stage == .queued then some ⟨1000 + c.cluster, c.core, c.slot, 0, c.pc, .queueSlot 0, c.id, none, now⟩ else none

/-- A context's work restored (spec/20 R448). -/
def resumeAt (s : State) (c : Ctx) (v : Saved) (k : Nat) : State :=
  let s1 := { restoreAt s v k with
    saved := s.saved.filter (fun x => x.ctx != c.id)
    completions := s.completions.map (fun x => if x.ctx == c.id && x.op == 0x13 then { x with held := false } else x) }
  let s2 := updCtx s1 c.id (fun c => { c with save := 0 })
  let gs := s2.gangs.filter (fun g => g.ctx == c.id)
  let s3 := { s2 with waiters := s2.waiters ++ gs.flatMap (rejoinQueues s2.clk) ++ (s2.cmds.filter (fun x => x.ctx == c.id)).filterMap (rejoinRound s2.clk) }
  let s4 := (v.teams.map (fun t => moveCore k t.core)).foldl growCarve s3
  gs.foldl (preemptEvent 1) s4

/-- A context whose `RESUME` waits: its work returns to one of the places that it fits. -/
def advanceResume (s : State) (c : Ctx) : State :=
  match s.saved.find? (fun v => v.ctx == c.id) with
  | none => s
  | some v =>
    match (rangeFrom 0 24).filter (resumeFits s c v) with
    | [] => s
    | k :: ks => resumeAt s c v (pickOne s.freeCtr (14 * 2 ^ 20) k (k :: ks))

/-- Every save and restoration in progress advanced (spec/20 R446, R448). -/
def advanceContexts (s : State) : State :=
  s.ctxs.foldl (fun s c => if c.save = 1 then advanceSave s c else if c.save = 3 then advanceResume s c else s) s

/-! ### `RESYNC` (spec/20 R449 to R452) -/

/-- A number that a field of `w` bits holds, saturating. -/
def satField (w n : Nat) : Nat := min n (2 ^ w - 1)

/-- The header (spec/20 R450). -/
def resyncHeader (s : State) : List Byte :=
  toBytes 64 (s.nres % 2 ^ 64 * 2 ^ 320 + bitNat s.fenced * 2 ^ 262 + s.devNo % 1024 * 2 ^ 246 + 1 * 2 ^ 192 + s.dtborg.toNat * 2 ^ 128 +
    deviceStamp * 2 ^ 64 + dieNow s hubDie % 2 ^ 64)

/-- All wait-table entries of a context, the saved ones included. -/
def ctxWaits (s : State) (ctx : Nat) : Nat := ((s.waits ++ s.saved.flatMap (·.waits)).filter (fun w => w.ctx == ctx)).length

/-- A context entry (spec/20 R451). -/
def resyncCtx (s : State) (n : Nat) : List Byte :=
  match findCtx s n with
  | none => List.replicate 32 0
  | some c =>
    toBytes 32 (c.fqwr.toNat % 2 ^ 32 * 2 ^ 224 + c.fqrd.toNat % 2 ^ 32 * 2 ^ 192 + satField 32 c.fqlost * 2 ^ 160 + ctxWaits s n % 2 ^ 32 * 2 ^ 128 +
      (s.grids.filter (fun g => g.ctx == n)).length % 2 ^ 32 * 2 ^ 96 + c.kills % 2 ^ 32 * 2 ^ 64 + c.trcfg.toNat % 4 * 64 + min c.save 2 * 4 + 1)

/-- A queue head (spec/20 R452). -/
def resyncQueue (s : State) (n p : Nat) : List Byte :=
  if (findCtx s n).isNone then List.replicate 8 0
  else
    let q := queueOf s n p
    toBytes 8 (match q.head? with
      | none => (2 ^ 32 - 1) * 2 ^ 32
      | some g => g.index % 2 ^ 32 * 2 ^ 32 + satField 16 (g.launch.nteams - g.placed) * 2 ^ 16 + satField 16 q.length)

/-- A die's occupancy (spec/20 R452). -/
def resyncDie (s : State) (die : Nat) : List Byte :=
  let l := s.waits.filter (fun w => w.die == die)
  let n := (l.filter (·.byPage)).length
  let held := s.gangs.filter (fun g => s.waiters.any (fun w => w.queue == 5000 + die && w.cmd == 0 && w.item.isNone && w.core == g.core && w.slot == g.slot))
  toBytes 16 (l.length * 2 ^ 96 + n * 2 ^ 64 + (l.length - n) * 2 ^ 32 + held.length)

/-- An entry put into a list in order of age. -/
def byAge (w : WaitEntry) : List WaitEntry → List WaitEntry
  | [] => [w]
  | x :: r => if w.since < x.since then w :: x :: r else x :: byAge w r

/-- A listed wait-table entry (spec/20 R452). -/
def resyncWait (w : WaitEntry) : List Byte :=
  toBytes 16 ((if w.byPage then w.key * 4096 else w.key) % 2 ^ 64 * 2 ^ 64 + w.ctx % 32 * 2 ^ 59 + bitNat w.byPage * 2 ^ 58 + w.die % 4 * 2 ^ 56 +
    w.since % 2 ^ 56)

/-- The 28 oldest entries, padded with zeros. -/
def resyncWaits (s : State) : List Byte :=
  let b := ((s.waits.foldl (fun l w => byAge w l) []).take 28).flatMap resyncWait
  b ++ List.replicate (448 - b.length) 0

/-- A link port (spec/20 R452). -/
def resyncPort (p : Port) : List Byte := toBytes 8 (satField 32 p.lost * 2 ^ 32 + satField 28 p.retrans * 16 + portCode p.state)

/-- A trace sink (spec/20 R452). -/
def resyncSink (k : Sink) : List Byte := toBytes 16 (k.written % 2 ^ 64 * 2 ^ 64 + k.drops % 2 ^ 32 * 2 ^ 32)

/-- The summary (spec/20 R449). -/
def resyncBytes (s : State) : List Byte :=
  resyncHeader s ++ (rangeFrom 0 32).flatMap (resyncCtx s) ++
  (rangeFrom 0 32).flatMap (fun c => (rangeFrom 0 4).flatMap (resyncQueue s c)) ++ (rangeFrom 0 4).flatMap (resyncDie s) ++ resyncWaits s ++
  (s.ports.take 24).flatMap resyncPort ++ (s.sinks.take 4).flatMap resyncSink ++
  (rangeFrom 0 16).flatMap (fun k => toBytes 8 (sparseGet 0 s.softCorr k)) ++
  (rangeFrom 0 16).flatMap (fun k => toBytes 4 (sparseGet 0 s.softUnc k)) ++ (s.mrs.take 16).flatMap (fun m => toBytes 64 m.toNat)

/-- EVENT: `RESYNC` writes its summary (spec/20 R449). -/
def execResync (r : BitVec 512) (s : State) : Res :=
  .next (mgCommand r 0x20 [(255, 192)] (fun s =>
    let a := mgField r 255 192
    let s1 := { s with nres := s.nres + 1 }
    if a % 4096 ≠ 0 ∨ !(addrLegal a) then mgDoneNow s1 2 else mgDoneNow (mgWrite s1 a (resyncBytes s1)) 0) s)

end Sys2Proof.Machine
end

