-- ==== Sys2Proof/Machine/Soft.lean ====
section
/-! DEFINITION. Soft errors (spec/20 R443 to R445; spec/05 R119). -/

namespace Sys2Proof.Machine

/-- An error counted in the summary (spec/20 R449). -/
def countUnc (s : State) (cls : Nat) : State := { s with softUnc := sparseSet 0 s.softUnc cls ((sparseGet 0 s.softUnc cls + 1) % 2 ^ 32) }

/-- EVENT: a corrected soft error changes nothing but its structure's count. Structures with parity, classes 3 and 4, correct
nothing; classes 13 to 15 are never reported (spec/20 R443). -/
def execSoftErrorCorrected (cls : BitVec 4) (s : State) : Res :=
  let n := cls.toNat
  .next (if n = 3 ∨ n = 4 ∨ 13 ≤ n then s else { s with softCorr := sparseSet 0 s.softCorr n ((sparseGet 0 s.softCorr n + 1) % 2 ^ 64) })

/-- An uncorrectable error counted, and recorded in its owner's queue, if it has one (spec/20 R444, R426). -/
def softRecord (s : State) (owner : Option (Nat × Option Nat)) (src : TraceSource) (cls detail : Nat) : State :=
  let s1 := countUnc s cls
  match owner with
  | none => s1
  | some (ctx, grid) => postFault s1 ctx { blankRec s1 ctx grid src 5 cls with detail := detail % 2 ^ 48 }

/-- The register location of a record: its coding is not stated. -/
def regPlace (s : State) : Nat := Config.freeNat s.freeCtr (15 * 2 ^ 20)

/-- The context that owns a line of device memory: the first whose grants cover it. -/
def lineOwner (s : State) (line : Nat) : Option (Nat × Option Nat) :=
  (s.ctxs.find? (fun c => grantRun c false false (line * 128) 128 || grantRun c false true (line * 128) 128)).map (fun c => (c.id, none))

/-- The team that holds a physical tile, or slice, of a cluster. -/
def placeOwner (s : State) (cluster place : Nat) (f : Team → List Nat) : Option Team :=
  s.teams.find? (fun t => coreCluster t.core == cluster && (f t).contains place)

/-- The owner of a team's resources. -/
def teamOwner (t : Team) : Nat × Option Nat := (t.ctx, some t.grid)

/-- A leased line of an L1 struck: it is refetched (spec/20 R443). -/
def softL1 (s : State) (core line : Nat) : State :=
  if s.lines.any (fun c => c.holder == .l1 core && c.line == line) then
    softRecord (dropLine s (.l1 core) line) (lineOwner s line) (.core core) 2 (line * 128)
  else s

/-- A private line of an L1 struck: a clean one is refetched, a dirty one is poisoned whole (spec/20 R443). -/
def softPriv (s : State) (core ctx grid va : Nat) : State :=
  match findPriv s core ctx grid va with
  | none => s
  | some l =>
    softRecord (if l.dirty = 0 then dropPriv s l else setPriv s { l with poison := l.valid }) (some (ctx, some grid)) (.core core) 2 (regPlace s)

/-- A list without the item at a place. -/
def dropAt {α : Type} (n : Nat) (l : List α) : List α := l.take n ++ l.drop (n + 1)

/-- Every grid of a context killed by a soft error: CODE is the trap code 0x0F. -/
def softKill (s : State) (p : Grid → Bool) : State := (s.grids.filter p).foldl (fun s g => killGrid s g.ctx g.index 0x0F) s

/-- The source of errors that a compute die reports for no unit of its own. -/
def dieSource (die : Nat) : TraceSource := .core (die * 96)

/-- EVENT: an uncorrectable soft error acts as its structure class says (spec/20 R443 to R445, spec/05 R119). One that strikes a
place that holds nothing changes nothing. -/
def execSoftErrorUncorrectable (loc : SoftLoc) (s : State) : Res :=
  match loc with
  | .vreg core slot lane reg =>
    match findGang s core slot with
    | none => .next s
    | some g =>
      if (findThread g lane).isNone then .next s
      else
        let s1 := updGang s core slot (fun g => updThread g lane (fun t => { t with poison := reg :: t.poison }))
        .next (softRecord s1 (some (g.ctx, some g.grid)) (.core core) 0 (regPlace s))
  | .sreg core slot reg =>
    match findGang s core slot with
    | none => .next s
    | some g =>
      let s1 := updGang s core slot (fun g => { g with spoison := reg :: g.spoison })
      .next (softRecord s1 (some (g.ctx, some g.grid)) (.core core) 1 (regPlace s))
  | .l1Line core line => .next (softL1 s core line)
  | .privLine core ctx grid va => .next (softPriv s core ctx grid va)
  | .teamWord core uid word =>
    match s.teams.find? (fun t => t.core == core && t.uid == uid) with
    | none => .next s
    | some t =>
      let s1 := updTeam s t.ctx t.grid t.index (fun t => { t with poison := word :: t.poison })
      .next (softRecord s1 (some (teamOwner t)) (.core core) 2 (4 * word))
  | .icache core line => .next { s with icache := s.icache.filter (· != (core, line)) }
  | .tlb n => .next { s with tlb := dropAt n s.tlb }
  | .lastPage core slot lane => .next (updGang s core slot (fun g => updThread g lane (fun t => { t with lastPage := none })))
  | .walker n => .next { s with walkCache := dropAt n s.walkCache }
  | .l2Line line => .next (softRecord { s with memPoison := line :: s.memPoison } (lineOwner s line) (dieSource (homeDie 4 (line * 128))) 5 (line * 128))
  | .rdcLine die line =>
    if s.lines.any (fun c => c.holder == .rdc die && c.line == line) then
      .next (softRecord (dropLine s (.rdc die) line) (lineOwner s line) (dieSource die) 6 (line * 128))
    else .next s
  | .hbmLine line => .next (softRecord { s with memPoison := line :: s.memPoison } (lineOwner s line) (dieSource (homeDie 4 (line * 128))) 7 (line * 128))
  | .accElem cluster tile elem =>
    let s1 := { s with tilePoison := ((cluster * 16 + tile) * 2 ^ 14 + elem) :: s.tilePoison }
    .next (softRecord s1 ((placeOwner s cluster tile (·.tiles)).map teamOwner) (.matrix cluster) 8 (regPlace s))
  | .weightBlock cluster block =>
    let s1 := { s with wPoison := (cluster * 2 ^ 16 + block) :: s.wPoison }
    .next (softRecord s1 ((placeOwner s cluster (block / 2 ^ 12) (·.slices)).map teamOwner) (.matrix cluster) 9 (regPlace s))
  | .staged cluster seq =>
    match s.parkq.find? (fun e => e.cluster == cluster && e.seq == seq) with
    | none => .next s
    | some e =>
      let s1 := { s with parkq := s.parkq.map (fun x => if x.cluster == cluster && x.seq == seq then { x with soft := true } else x) }
      .next (softRecord s1 (some (e.ctx, none)) (.brock cluster) 10 (regPlace s))
  | .denOrReservation ctx grid =>
    if (findGrid s ctx grid).isNone then .next s
    else .next (softKill (softRecord s (some (ctx, some grid)) hubLogic 11 (regPlace s)) (fun g => g.ctx == ctx && g.index == grid))
  | .hub ctx => .next (softKill (softRecord s (some (ctx, none)) hubLogic 12 (regPlace s)) (fun g => g.ctx == ctx))
  | .unowned =>
    .next (softKill { countUnc s (Config.freeNat s.freeCtr (15 * 2 ^ 20 + 1) % 13) with fenced := true } (fun _ => true))

end Sys2Proof.Machine
end

