-- ==== Sys2Proof/Machine/Boot.lean ====
section
/-! DEFINITION. Device reset and measured boot (spec/19 R417), attestation (spec/19 R418). -/

namespace Sys2Proof.Machine

/-! ### Measurement (spec/19 R417) -/

/-- A measurement register extended by an image. -/
def extendMr (mr : BitVec 512) (image : List Byte) : BitVec 512 := sha3 (toBytes 64 mr.toNat ++ sha3Bytes image)

/-- The register of each boot image in order: boot ROM stage 2, the management engine, the Harivo ports, the sequencer microcode, the `LDM8`
microcode, the trace fabric, the walker copy unit, and the device configuration. -/
def bootRegs : List Nat := [0, 1, 2, 3, 3, 4, 4, 5]

/-- The boot ROM measures each image into its register before it starts it, and stops at one that fails its signature check: the
registers, and whether the device stays in the boot ROM. Whether an image that fails has been measured is not stated: `seen` says so. -/
def bootMrs (seen : Bool) : List (List Byte × Nat) → List (BitVec 512) → List (BitVec 512) × Bool
  | [], mrs => (mrs, false)
  | (image, k) :: rest, mrs =>
    let m := modifyAt (fun m => extendMr m image) k mrs
    if Config.vendorSigned image then bootMrs seen rest m else (if seen then m else mrs, true)

/-- EVENT: device reset: every register takes its reset value, and the boot ROM measures and starts the eight images of MR0 to MR5 (spec/19
R417). Host memory and what the device has already sent stand; so does the model's supply of free values. -/
def execDeviceReset (images : List (List Byte)) (s : State) : Res :=
  let b := bootMrs (Config.freeBit s.freeCtr (22 * 2 ^ 20)) (images.zip bootRegs) State.reset.mrs
  .next { State.reset with
    mrs := b.1, inRom := b.2, hostMem := s.hostMem, hostOut := s.hostOut, freeCtr := s.freeCtr, nextId := s.nextId
    spdm := { s.spdm with agreed := [] } }

/-- The register that the next firmware update extends: the first of MR6 to MR15 that none has extended; past the last, MR15. -/
def nextMr (mrs : List (BitVec 512)) : Nat := ((rangeFrom 6 10).find? (fun k => mrs.getD k 0 == 0)).getD 15

/-- EVENT: a firmware update that passes its signature check is measured (spec/19 R417). -/
def execFirmwareUpdate (image : List Byte) (s : State) : Res :=
  .next (if s.inRom || !(Config.vendorSigned image) then s else { s with mrs := modifyAt (fun m => extendMr m image) (nextMr s.mrs) s.mrs })

/-! ### Attestation (spec/19 R418) -/

/-- An answer given to a requester. A device that stays in the boot ROM gives none (spec/19 R417; DEDUCED, log entry 72): the engine that
answers has not been started. -/
def spdmAnswer (s : State) (req : Nat) (a : SpdmAnswer) : State :=
  if s.inRom then s else { s with spdm := { s.spdm with out := s.spdm.out ++ [(req, a)] } }

/-- Whether algorithms are agreed with a requester. -/
def spdmAgreed (s : State) (req : Nat) : Bool := s.spdm.agreed.contains req

/-- An answer that needs agreed algorithms, or an error with no report. -/
def spdmIfAgreed (s : State) (req : Nat) (a : SpdmAnswer) : State := spdmAnswer s req (if spdmAgreed s req then a else .error)

/-- The measurement registers as bytes. -/
def mrBytes (s : State) : List Byte := s.mrs.flatMap (fun m => toBytes 64 m.toNat)

/-- A signed report over a nonce and the measurement registers as they stand. -/
def spdmReport (full : Bool) (s : State) (nonce : List Byte) : SpdmAnswer := .report full nonce s.mrs (Config.sign (nonce ++ mrBytes s))

/-- EVENT: GET_VERSION: the responder speaks version 1.4. -/
def execGetVersion (req : Nat) (s : State) : Res := .next (spdmAnswer s req .version)

/-- EVENT: GET_CAPABILITIES. -/
def execGetCapabilities (req : Nat) (s : State) : Res := .next (spdmAnswer s req .capabilities)

/-- EVENT: NEGOTIATE_ALGORITHMS: a requester that offers neither ML-DSA-87 nor SHA3-512 receives an error. -/
def execNegotiateAlgorithms (req : Nat) (mldsa87 sha3 : Bool) (s : State) : Res :=
  let others := s.spdm.agreed.filter (· != req)
  if s.inRom then .next s
  else if mldsa87 || sha3 then .next (spdmAnswer { s with spdm := { s.spdm with agreed := req :: others } } req .algorithms)
  else .next (spdmAnswer { s with spdm := { s.spdm with agreed := others } } req .error)

/-- EVENT: GET_DIGESTS: the hash of the certificate chain. -/
def execGetDigests (req : Nat) (s : State) : Res := .next (spdmIfAgreed s req (.digests (sha3 Config.certChain)))

/-- EVENT: GET_CERTIFICATE: the part of the chain that is asked for. -/
def execGetCertificate (req offset len : Nat) (s : State) : Res :=
  .next (spdmIfAgreed s req (.certificate ((Config.certChain.drop offset).take len)))

/-- EVENT: CHALLENGE: a signed report. -/
def execChallenge (req : Nat) (nonce : List Byte) (s : State) : Res := .next (spdmIfAgreed s req (spdmReport false s nonce))

/-- EVENT: GET_MEASUREMENTS: a signed report with the registers. -/
def execGetMeasurements (req : Nat) (nonce : List Byte) (s : State) : Res := .next (spdmIfAgreed s req (spdmReport true s nonce))

end Sys2Proof.Machine
end

