-- ==== Sys2Proof/Machine/Control.lean ====
section
/-! DEFINITION. Branches, calls and the `FLOW` family (spec/17 R362 to R373), and the steps of a bundle that is no instruction
(spec/02 R52, R53). -/

namespace Sys2Proof.Machine

/-! ### Transfers -/

/-- The threads of the executing path. -/
def curThreads (s : State) : List Thread := ((curGang s).map (fun g => threadsOf g (curMask s g))).getD []

/-- The executing path's threads moved each to an address: `f` gives an active thread's target, or none where the transfer
traps for it; the others go to the next bundle (spec/17 R362, R364, R366; spec/02 R27). -/
def transfer (m : Bool) (rd : List Nat) (f : Thread → Option Dword) (s : State) : State :=
  let s1 := readyLanes s rd []
  let ts := curThreads s1
  let bad := ts.filter (fun t => predOn s.cur t && (f t).isNone)
  let s2 := if bad.isEmpty then s1 else trapThreads s1 s.cur.core s.cur.slot (maskOf (bad.map (·.lpos))) (trapInfo s 0x01 0 s.cur.first)
  divideCur s2 m ((curThreads s2).map (fun t => (t.lpos, if predOn s.cur t then (f t).getD s.cur.npc else s.cur.npc)))

/-- The target of a relative branch of `n` offset bits (spec/17 R364). -/
def relTarget {n : Nat} (s : State) (o : BitVec n) : Dword := s.cur.wpc + 2 * o.signExtend 64

/-- A target that is taken only when even (spec/02 R27). -/
def evenTarget (d : Dword) : Option Dword := if d.getLsbD 0 then none else some d

/-- `BRA` (spec/17 R364). -/
def execBra (o : BitVec 24) (m : Bool) (s : State) : Res := .next (transfer m [] (fun _ => some (relTarget s o)) s)

/-- The active threads' `LINK` set to the next bundle. -/
def setLinks (s : State) : State :=
  updCur s (fun g => updActive s g (fun t => { t with link := s.cur.npc }))

/-- `CALL` (spec/17 R364): the threads that take it write `LINK`. -/
def execCall (o : BitVec 24) (m : Bool) (s : State) : Res :=
  .next (transfer m [] (fun _ => some (relTarget s o)) (setLinks s))

/-- `BRC` (spec/17 R364). -/
def execBrc (o : BitVec 20) (n : Bool) (p : BitVec 3) (m : Bool) (s : State) : Res :=
  .next (transfer m [] (fun t => some (if readP t p.toNat != n then relTarget s o else s.cur.npc)) s)

/-- `BRU`: tested once for the path (spec/17 R364). -/
def execBru (o : BitVec 14) (z : Bool) (r : BitVec 9) (m : Bool) (s : State) : Res :=
  .next (uniRaw m [r.toNat] (fun g s =>
    movePath s m (if (readS s.freeCtr g 0 r.toNat == 0) == z then relTarget s o else s.cur.npc)) s)

/-- `RET` (spec/17 R366). -/
def execRet (m : Bool) (s : State) : Res := .next (transfer m [] (fun t => evenTarget t.link) s)

/-- The active threads with an even target set `LINK` to the next bundle (spec/17 R366). -/
def setLinksEven (d : Nat) (s : State) : State :=
  updCur s (fun g => updActive s g (fun t =>
      if (pendHit t [d, d + 1]).isSome || (poisonHit t [d, d + 1]).isSome || (readVPair s.freeCtr t 0 d).getLsbD 0 then t
      else { t with link := s.cur.npc }))

/-- `JMPR`, `JMPR.link` (spec/17 R366). -/
def execJmpr (x : Bool) (d : BitVec 7) (m : Bool) (s : State) : Res :=
  .next (transfer m [d.toNat, d.toNat + 1] (fun t => evenTarget (readVPair s.freeCtr t 0 d.toNat))
    (if x then setLinksEven d.toNat s else s))

/-- `MEET` (spec/17 R367). -/
def execMeet (x : BitVec 3) (sr : BitVec 9) (d : BitVec 7) (m : Bool) (s : State) : Res :=
  match x.toNat with
  | 0 =>
    let s1 := readyLanes s [d.toNat, d.toNat + 1] []
    .next (finishPath (updCur s1 (fun g => updActive s1 g (fun t => { t with meet := readVPair s.freeCtr t 0 d.toNat }))) m)
  | 1 =>
    .next (uniRaw m [sr.toNat, sr.toNat + 1] (fun g s => finishPath (updCur s (fun g' =>
      updActive s g' (fun t => { t with meet := readSPair s.freeCtr g 0 sr.toNat }))) m) s)
  | 2 =>
    .next (uniRaw m [] (fun _ s => finishPath (updCur s (fun g' =>
      updActive s g' (fun t => { t with meet := 0xFFFFFFFFFFFFFFFF#64 }))) m) s)
  | _ =>
    .next (uniRaw m [] (fun _ s => finishPath (updCur s (fun g' =>
      updActive s g' (fun t => { t with meet := relTarget s (sr ++ d) }))) m) s)

/-! ### Leaving -/

/-- `EXIT` (spec/17 R368): threads that hold poison trap, threads with a pending element are held at the bundle, the others
end. -/
def execExit (m : Bool) (s : State) : Res :=
  match curGang s with
  | none => .next s
  | some g =>
    let act := activeThreads s g
    let s1 := trapLanes s (act.filterMap (fun t => t.poison.head?.map (fun r =>
      (t.lpos, 0x0F, 0, toWord (Config.freeNat s.freeCtr (3 * 2 ^ 20 + t.lpos * 128 + r))))))
    let live := act.filter (fun t => t.poison.isEmpty)
    let done := maskOf ((live.filter (fun t => t.pend.isEmpty)).map (·.lpos))
    let late := maskOf ((live.filter (fun t => !t.pend.isEmpty)).map (·.lpos))
    let s2 := exitThreads s1 g.core g.slot done
    if late = 0 then .next (finishPath s2 m)
    else .next (deliverCur (splitHeld s2 m late s.cur.pc .resolved .again))

/-- Whether the executing gang's team is in a taped mode (spec/13 R298). -/
def taped (s : State) (g : Gang) : Bool := gangMode s g != 0

/-- `NEXT` (spec/17 R369): held as at a marker, then each thread enters the den of its target with every register, which it reads
(spec/05 R114, R119). In a taped mode the threads whose predicate is true trap (spec/13 R298, spec/02 R47). -/
def execNext (k : BitVec 3) (d : BitVec 7) (m : Bool) (s : State) : Res :=
  match curGang s with
  | none => .next s
  | some g0 =>
    if activeMask s g0 = 0 then .next (finishPath s m)
    else if taped s g0 then .next (trapActive s m 0x0A 0 0)
    else
      .next (afterResults (activeMask s g0) (fun s =>
        let s1 := readyLanes s (rangeFrom 0 128) []
        match curGang s1 with
        | none => s1
        | some g =>
          let act := activeThreads s1 g
          let bad := act.filter (fun t => (evenTarget (readVPair s.freeCtr t 0 d.toNat)).isNone)
          let s2 := trapThreads s1 g.core g.slot (maskOf (bad.map (·.lpos))) (trapInfo s 0x01 0 s.cur.first)
          let groups := groupTargets ((act.filter (fun t => bad.all (fun u => u.lpos != t.lpos))).map (fun t =>
            (t.lpos, readVPair s.freeCtr t 0 d.toNat)))
          let s3 := groups.foldl (fun s x =>
            parkForDen (updGang s g.core g.slot (fun g => offPaths g x.2)) g.core g.slot x.2 x.1 k.toNat) s2
          tryDens (finishPath s3 m) g.core g.slot) s)

/-- The 128 bytes of a continuation record (spec/16 R349). -/
def contRecord (regs : List (Nat × Word)) (wval pc meet link : Dword) (tidx : Option Nat) (preds wkind widx : Nat) : List Byte :=
  let words := (regs.zip (rangeFrom 0 16)).foldl (fun n x => n + x.1.2.toNat * 2 ^ (32 * x.2)) 0
  let rlist := (regs.zip (rangeFrom 0 16)).foldl (fun n x => n + x.1.1 % 128 * 2 ^ (7 * x.2)) 0
  toBytes 128 (words * 2 ^ 512 + wval.toNat * 2 ^ 384 + pc.toNat * 2 ^ 320 + meet.toNat * 2 ^ 256 + link.toNat * 2 ^ 192 +
    tidx.getD (2 ^ 42 - 1) % 2 ^ 42 * 2 ^ 150 + (preds % 128 + 128) * 2 ^ 128 + rlist * 2 ^ 16 + regs.length % 32 * 2 ^ 11 +
    wkind % 4 * 2 ^ 9 + widx % 256)

/-- A completion time taken into a grid's latest (spec/16 R358). -/
def gridGwct (s : State) (ctx grid t : Nat) : State :=
  updGrid s ctx grid (fun g => { g with gwct := if g.gwct.toNat < t then toDword t else g.gwct })

/-- One thread spawned: its record in a slot of the den area, which enters the free den of its address (spec/17 R370). -/
def spawnOne (k d : Nat) (c0 : Nat) (s : State) (g : Gang) (t : Thread) (slot : Nat) : State :=
  match findCtx s g.ctx with
  | none => s
  | some c =>
    let pa := c.denbase.toNat + 128 * slot
    let pc := readVPair c0 t 0 d
    let rec_ := contRecord ((rangeFrom 0 8).map (fun r => (r, readV c0 t 1 r))) 0 pc 0xFFFFFFFFFFFFFFFF#64 0 none 0 2 0
    let r : ContRec := ⟨pa, false, k, []⟩
    let (s1, gw) := homeWrite s 4 pa rec_ (some t.uid)
    let s2 := gridGwct s1 g.ctx g.grid gw
    let s3 := updCtx s2 g.ctx (fun c => { c with denUsed := slot :: c.denUsed })
    let s4 := updGrid s3 g.ctx g.grid (fun x => { x with conts := x.conts ++ [r] })
    (enterDen s4 s4.nextId (coreCluster g.core) g.ctx g.grid pc .free (.record r (some slot))).getD s4

/-- The creators of a `SPAWN` that have been served marked, or, at its end, no longer marked. -/
def markSpawned (s : State) (g : Gang) (mask : Nat) (b : Bool) : State :=
  updGang s g.core g.slot (fun g => updThreads g mask (fun t => { t with spawned := b }))

/-- `SPAWN` (spec/17 R370): a release; each active thread creates one thread. When the free slots run out, the path is held until one
frees, and the creators that have been served do not create another (spec/16 R351). -/
def execSpawn (k : BitVec 3) (d : BitVec 7) (m : Bool) (s : State) : Res :=
  match curGang s with
  | none => .next s
  | some g0 =>
    if activeMask s g0 = 0 then .next (finishPath s m)
    else if taped s g0 then .next (trapActive s m 0x0A 0 0)
    else
      .next (afterFence 2 (fun s =>
        let s1 := readyLanes s ([d.toNat, d.toNat + 1] ++ rangeFrom 0 8) []
        match curGang s1, findCtx s1 g0.ctx with
        | some g, some c =>
          let act := (activeThreads s1 g).filter (fun t => !t.spawned)
          let bad := act.filter (fun t => (evenTarget (readVPair s.freeCtr t 0 d.toNat)).isNone)
          let good := act.filter (fun t => bad.all (fun u => u.lpos != t.lpos))
          let s2 := trapThreads s1 g.core g.slot (maskOf (bad.map (·.lpos))) (trapInfo s 0x01 0 s.cur.first)
          let past := fun (s : State) => finishPath (markSpawned s g (curMask s1 g) false) m
          if good.isEmpty then past s2
          else
            let free := if curSlot s2 g (.denArea 1) then freeDenSlots c else []
            let pairs := good.zip free
            let denied := pairs.any (fun x => !(grantRun c false true (c.denbase.toNat + 128 * x.2) 128))
            if c.densize = 0 || denied then
              (if faultRoom s2 g [⟨0, .denArea, 0, .write⟩] then finishPath (faultCur s2 .denArea 0 .write) m
               else holdPath s2 (.waitSlot 1) .again)
            else
            let s3 := pairs.foldl (fun s x => spawnOne k.toNat d.toNat s1.freeCtr s g x.1 x.2) s2
            if pairs.length = good.length then past s3
            else deliverCur (holdPath (markSpawned s3 g (maskOf (pairs.map (fun x => x.1.lpos))) true) (.denArea 1) .again)
        | _, _ => s1) s)

/-- The control word of `SUSP` (spec/17 R371): the trap code of a breach, if any. -/
def sctlBreach (vregs : Nat) (spc : Dword) (w : Word) : Option Nat :=
  let n := w.toNat
  let first := bitsOf n 22 16
  let nreg := bitsOf n 14 10
  let widx := bitsOf n 9 2
  let wkind := n % 4
  if bitsOf n 31 23 ≠ 0 ∨ bitOf n 15 then some 0x02
  else if spc.getLsbD 0 ∨ 16 < nreg ∨ vregs < first + nreg ∨ wkind = 3 ∨ (wkind = 0 ∧ 64 ≤ widx) ∨ (wkind = 2 ∧ widx ≠ 0) then some 0x01
  else none

/-- The fault that a thread's `SUSP` meets, if any (spec/17 R372, spec/11 R487). -/
def suspFault (s : State) (g : Gang) (t : Thread) (va : Nat) : Option LaneFault :=
  if va % 128 ≠ 0 then some ⟨t.lpos, .alignment, va, .write⟩
  else
    match translateChecked s g.core g.ctx va 128 .write with
    | .error k => some ⟨t.lpos, k, va, .write⟩
    | .ok tr =>
      if pteTgt tr.pte ≠ 0 ∧ pteTgt tr.pte ≠ 5 then some ⟨t.lpos, .access, va, .write⟩
      else (privLinesCheck s g t).map (fun x => ⟨t.lpos, x.1, x.2, .write⟩)

/-- One thread suspended: its private lines move, its record is written, and its grid keeps the record (spec/17 R372). The own node window
discards a record (spec/18 R386). -/
def suspOne (s : State) (g : Gang) (t : Thread) (tr : Trans) (va : Nat) (rec_ : List Byte) : State :=
  let s0 := privLinesBack s g t
  let (s1, gw) := if pteTgt tr.pte = 5 then (windowStore s0 g.core g.ctx g.grid (transPa tr va) 128, 0)
    else homeWrite s0 (pteHome tr.pte) (transPa tr va) rec_ (some t.uid)
  updGrid (gridGwct s1 g.ctx g.grid gw) g.ctx g.grid (fun x => { x with conts := x.conts ++ [⟨va, true, 0, (owing g t).owes⟩] })

/-- `SUSP` (spec/17 R371, R372). -/
def execSusp (sr : BitVec 9) (d : BitVec 7) (m : Bool) (s : State) : Res :=
  .next (uniRaw m (rangeFrom sr.toNat 5) (fun g0 s =>
    let c := s.freeCtr
    let spc := readSPair c g0 0 sr.toNat
    let sval := readSPair c g0 1 (sr.toNat + 2)
    let w := readS c g0 2 (sr.toNat + 4)
    let first := bitsOf w.toNat 22 16
    let nreg := bitsOf w.toNat 14 10
    if activeMask s g0 = 0 then finishPath s m
    else if taped s g0 then trapActive s m 0x0A 0 0
    else match sctlBreach (gangVregs s g0) spc w with
    | some code => trapActive s m code 0 s.cur.first
    | none =>
      afterResults (activeMask s g0) (afterFence 2 (fun s =>
        let s1 := readyLanes s ([d.toNat, d.toNat + 1] ++ rangeFrom first nreg) []
        match curGang s1 with
        | none => s1
        | some g =>
          let act := activeThreads s1 g
          let addr := fun (t : Thread) => (readVPair s.freeCtr t 0 d.toNat).toNat
          let faults := act.filterMap (fun t => suspFault s1 g t (addr t))
          if !(faultRoom s1 g faults) then holdPath s1 (faultSlots s1 g faults) .again
          else
            let good := act.filter (fun t => faults.all (fun f => f.lpos != t.lpos))
            let s2 := faultThreads s1 g s.cur.pc faults
            let s3 := (good.zip (good.map (fun t => translateChecked s1 g.core g.ctx (addr t) 128 .write))).foldl (fun s x =>
              match x.1, x.2 with
              | _, .error _ => s
              | t, .ok tr => suspOne s g t tr (addr t) (contRecord ((rangeFrom first nreg).map (fun r => (r, readV c t 1 r))) sval spc t.meet t.link
                t.tidx t.preds.toNat (w.toNat % 4) (bitsOf w.toNat 9 2))) s2
            finishPath (exitThreads s3 g.core g.slot (maskOf (good.map (·.lpos)))) m)) s) s)

/-- `YIELD` (spec/17 R373): the quantum ends, and another ready gang of the pipe goes first. With every thread predicated off it does
nothing (spec/02 R47). -/
def execYield (m : Bool) (s : State) : Res :=
  match curGang s with
  | none => .next s
  | some g =>
    if activeMask s g = 0 then .next (finishPath s m)
    else
      let s1 := { s with yielded := (s.cur.core, s.cur.slot) :: s.yielded }
      .next (finishPath (updCur s1 (fun g => { g with curPath := (s.cur.path + 1) % 8, quantum := 0 })) m)

/-- EVENT: the current path has used its quantum: the gang goes on to the next path (spec/16 R339). -/
def execQuantumExpiry (core slot : Nat) (s : State) : Res :=
  .next (updGang s core slot (fun g =>
    if 256 ≤ g.quantum then { g with curPath := (g.curPath + 1) % 8, quantum := 0 } else g))

/-- EVENT: a held fence or release proceeds (spec/11 R238). -/
def execFenceRelease (core slot path : Nat) (s : State) : Res :=
  .next (if (findGang s core slot).any (fun g => (findPath g path).any (fun p => p.hold.any (fun h => isFence h.cond)))
    then releasePath s core slot path else s)

/-! ### Bundles that are no instruction -/

/-- EVENT: the bundle decodes to no instruction: every thread of the path takes the trap (spec/02 R52, R53). -/
def execEncodingNotInstruction (kind : EncodingFate) (first : Word) (s : State) : Res :=
  .next (trapPath s (match kind with | .illegal => 0x01 | .reserved => 0x02) 0 first)

/-- EVENT: a word of the bundle cannot be fetched: the path's threads take the fault, whatever their predicates (spec/02 R27,
spec/03 R64). -/
def execInstructionFetchFault (addr : Dword) (kind : FaultKind) (s : State) : Res :=
  .next (match curGang s with
    | some g => faultMasked s g (curMask s g) ⟨0, kind, addr.toNat, .fetch⟩
    | none => s)

end Sys2Proof.Machine
end

