-- ==== Sys2Proof/Machine/GangOps.lean ====
section
/-! DEFINITION. The `GANG` instructions: `FUSE`, `SPLIT`, `ELECT`, `GSYNC` and `GINFO` (spec/16 R343, R344; spec/17 R374 to
R378). -/

namespace Sys2Proof.Machine

/-! ### `FUSE` -/

/-- The key and the size that a gang is held on at a `FUSE`, with its marker. -/
def fuseHold (g : Gang) : Option (Word × Nat × Bool) :=
  g.paths.findSome? (fun p => match p.hold with
    | some ⟨.fuse k n, .go m⟩ => some (k, n, m)
    | _ => none)

/-- The held participants of a gang's key: of its core, pipe and team, or of its launch's free threads (spec/17 R375). -/
def fuseKeyed (s : State) (g : Gang) (key : Word) : List Gang :=
  s.gangs.filter (fun x => x.core == g.core && x.pipe == g.pipe && x.ctx == g.ctx && x.grid == g.grid && x.team == g.team &&
    (fuseHold x).any (fun h => h.1 == key))

/-- The held participants that gather with a gang: those of its key that ask for its size (spec/17 R375). -/
def fuseGroup (s : State) (g : Gang) (key : Word) (n : Nat) : List Gang :=
  (fuseKeyed s g key).filter (fun x => (fuseHold x).any (fun h => h.2.1 == n))

/-- The gangs of a list in rising slot order. -/
def bySlot (l : List Gang) : List Gang := (rangeFrom 0 64).filterMap (fun i => l.find? (fun g => g.slot == i))

/-- A part of an access of a gang that moves by `off` positions. -/
def shiftPart (off : Nat) (p : LanePart) : LanePart := if p.lpos = 64 then p else { p with lpos := p.lpos + off }

/-- An outstanding access of a gang that moves by `off` positions. -/
def shiftOut (off : Nat) (o : OutOp) : OutOp :=
  { o with
    mask := o.mask <<< off, parts := o.parts.map (shiftPart off)
    got := o.got.map (fun a => if a.lpos = 64 then a else { a with lpos := a.lpos + off }) }

/-- One more participant taken into the fused gang at its position (spec/16 R344). -/
def fuseTake (a : Gang) (off : Nat) (b : Gang) : Gang :=
  { a with
    fstat := fstatLose (a.fstat ||| (b.fstat &&& 0xFFFF00FF#32)) (fstatLost b.fstat)
    gwct := if a.gwct.toNat < b.gwct.toNat then b.gwct else a.gwct
    nfcnt := a.nfcnt + b.nfcnt
    escb := a.escb + b.escb
    escs := a.escs + b.escs
    escpr := a.escpr + b.escpr
    escqs := a.escqs + b.escqs
    trstl := a.trstl + b.trstl
    threads := a.threads ++ b.threads.map (fun t => { t with lpos := t.lpos + off })
    out := a.out ++ b.out.map (shiftOut off) }

/-- The participants as one gang of size `n`, in rising slot order, held at the `FUSE` (spec/16 R344). -/
def fusedGang (n : Nat) : List Gang → Option Gang
  | [] => none
  | a :: rest =>
    let g := (rest.zip (rangeFrom 1 rest.length)).foldl (fun g x => fuseTake g (x.2 * a.size) x.1) a
    some { g with size := n, paths := g.paths.map (fun p => { p with mask := gangMask g }) }

/-- A slot of a fused participant renamed to the fused gang's. -/
def fuseSlot (core keep : Nat) (gone : List Nat) (c sl : Nat) : Nat := if c == core && gone.contains sl then keep else sl

/-- The state with the participants fused, and every record of theirs naming the fused gang (spec/16 R344). -/
def fuseGangs (s : State) (n : Nat) (l : List Gang) : State :=
  match fusedGang n l with
  | none => s
  | some f =>
    let gone := (l.drop 1).map (·.slot)
    let uids := (l.drop 1).map (·.uid)
    let re := fuseSlot f.core f.slot gone
    { s with
      gangs := (s.gangs.filter (fun g => !(g.core == f.core && gone.contains g.slot))).map (fun g =>
        if g.core == f.core && g.slot == f.slot then f else g)
      wbuf := s.wbuf.map (fun b => { b with slot := re b.core b.slot })
      cmds := s.cmds.map (fun c => if uids.contains c.gang then { c with gang := f.uid, slot := f.slot } else c)
      parkq := s.parkq.map (fun e => { e with slot := re (e.cluster * 4 + e.core) e.slot }) }

/-- A participant arrives: it is held, and when the set is complete the gangs are fused (spec/17 R375). Another gang's
non-zero tape head raises the regroup trap for the path that completes the set (log entry 13). -/
def fuseArrive (m : Bool) (key : Word) (n : Nat) (s : State) : State :=
  match curGang s with
  | none => s
  | some g =>
    let group := fuseGroup s g key n
    if (fuseKeyed s g key).any (fun x => x.size != g.size) then trapPath s 0x0B 0 0
    else
      let l := bySlot (g :: group)
      if l.length < n / g.size then finishHeld s m (.fuse key n)
      else if (l.drop 1).any (fun x => x.tapeHead != 0) then trapPath s 0x0A 0 0
      else
        let s1 := finishHeld s m (.fuse key n)
        match findGang s1 g.core g.slot with
        | none => s1
        | some g1 =>
          let l1 := bySlot (g1 :: group)
          let s2 := fuseGangs s1 n l1
          match l1 with
          | [] => s2
          | a :: _ => updGang s2 a.core a.slot (fun x => { x with paths := x.paths.map (fun p => { p with hold := none }) })

/-- Whether a size is one that `FUSE` may ask for (spec/17 R375). -/
def fuseSize (gsz n : Nat) : Bool := [16, 32, 64].contains n && decide (gsz < n) && decide (n / gsz ≤ 4)

/-- `FUSE` (spec/17 R375). -/
def execFuse (a d : BitVec 9) (m : Bool) (s : State) : Res :=
  .next (uniRaw m [a.toNat, d.toNat] (fun g s =>
    let n := (readS s.freeCtr g 0 a.toNat).toNat
    let key := readS s.freeCtr g 1 d.toNat
    if !(fuseSize g.size n) then trapPath s 0x01 0 s.cur.first
    else if gangMode s g != 0 then trapPath s 0x0A 0 0
    else if decide (1 < g.paths.length) || !g.parked.isEmpty then trapPath s 0x0B 0 0
    else if g.threads.any (fun t => !t.pend.isEmpty) then holdPath s .resolved .again
    else afterResults (gangMask g) (fuseArrive m key n) s) s)

/-! ### `SPLIT` -/

/-- The smallest gang size that holds a number of threads (spec/17 R376). -/
def splitSize (n : Nat) : Nat := if n ≤ 8 then 8 else if n ≤ 16 then 16 else if n ≤ 32 then 32 else 64

/-- The new gang of a `SPLIT` (spec/16 R344, spec/17 R376). -/
def splitGang (g : Gang) (uid slot pipe size : Nat) (ths : List Thread) (pc : Dword) : Gang :=
  let ts := (ths.zip (rangeFrom 0 ths.length)).map (fun x => { x.1 with lpos := x.2 })
  { g with
    uid := uid, slot := slot, pipe := pipe, ix := slot, size := size, nfcnt := 0, escb := 0, escs := 0, escpr := 0,
    escqs := 0, trstl := 0, tapeHead := 0, tapeSeq := 0, threads := ts, sflight := [],
    paths := [⟨0, pc, maskOf (ts.map (·.lpos)), none, false, false, 0⟩], curPath := 0, quantum := 0, parked := [], gwctFly := [],
    out := (g.out.filter (fun o => isStray o.kind)).map (strayOp (2 ^ 64 - 1)) }

/-- The move of a `SPLIT` to a slot and a pipe (spec/17 R376). -/
def splitMove (m : Bool) (d mask slot pipe size : Nat) (s : State) : State :=
  match curGang s with
  | none => s
  | some g =>
    let (uid, s1) := newId s
    let ng := writeS (splitGang g uid slot pipe size ((threadsOf g mask).map (owing g)) s.cur.npc) d 2
    let s2 := updCur s1 (fun g => removeThreads g mask)
    finishPath (writeScalars { s2 with gangs := s2.gangs ++ [ng] } [(d, 1)]) m

/-- `SPLIT` (spec/17 R376). -/
def execSplit (p : BitVec 3) (d : BitVec 9) (m : Bool) (s : State) : Res :=
  .next (uniRaw m [] (fun g s =>
    if gangMode s g != 0 then trapPath s 0x0A 0 0
    else
      let mask := maskOf (((threadsOf g (curMask s g)).filter (fun t => readP t p.toNat)).map (·.lpos))
      if decide (mask = 0) || decide (mask = gangMask g) then finishPath (writeScalars s [(d.toNat, 0)]) m
      else
        afterResults (curMask s g) (fun s =>
          if (threadsOf g (curMask s g)).any (fun t => !t.pend.isEmpty) then holdPath s .resolved .again
          else
            let size := splitSize (threadsOf g mask).length
            match fitGangs s g.core 1 size (gangVregs s g) 0 true false, curSlot s g (.gangSlot size 0) with
            | some ((slot, pipe) :: _), true => splitMove m d.toNat mask slot pipe size s
            | _, _ => holdPath s (.gangSlot size 0) .again) s) s)

/-! ### `ELECT`, `GSYNC`, `GINFO` -/

/-- The elected thread of the executing path: its active thread of lowest position (spec/17 R377). -/
def electedOf (s : State) (g : Gang) : Nat := ((activeThreads s g).map (·.lpos)).foldl min 64

/-- `ELECT` (spec/17 R377). -/
def execElect (p : BitVec 3) (d : BitVec 9) (m : Bool) (s : State) : Res :=
  .next (uniOp m [] (fun g s =>
    let e := electedOf s g
    let s1 := writeScalars s [(d.toNat, toWord e)]
    writeLanes s1 (laneOuts s g (fun t => outP p.toNat (t.lpos == e)))) s)

/-- `GSYNC` (spec/17 R378). -/
def execGsync (m : Bool) (s : State) : Res := .next (finishHeld s m .gsync)

/-- The value that a `GINFO` selector reads (spec/17 R377). -/
def ginfoValue (s : State) (g : Gang) (sel : Nat) : Nat :=
  match sel with
  | 0 => curMask s g
  | 1 => gangMask g
  | 2 => g.paths.length
  | 3 => g.slot
  | _ => g.pipe

/-- `GINFO` (spec/17 R377). -/
def execGinfo (sel d : BitVec 9) (m : Bool) (s : State) : Res :=
  .next (uniOp m [] (fun g s =>
    writeScalars s (regWrites (decide (sel.toNat < 2)) d.toNat (ginfoValue s g sel.toNat))) s)

end Sys2Proof.Machine
end

