-- ==== Sys2Proof/Machine/Int.lean ====
section
/-! DEFINITION. Vector integer, logic, shift, bit-field, selection, address, predicate and immediate instructions (spec/06 R122
to R134), and the short integer forms (spec/02 R40). -/

namespace Sys2Proof.Machine

/-! ### Operand forms -/

/-- An integer operand under a width override: the register, or the pair (spec/06 R122). -/
def readWid (c : Nat) (t : Thread) (wid : BitVec 2) (k r : Nat) : Nat :=
  if wid = 1#2 then (readVPair c t k r).toNat else (readV c t k r).toNat

/-- The registers of an integer operand under a width override (spec/06 R122). -/
def widSpan (wid : BitVec 2) (r : Nat) : List Nat := if wid = 1#2 then [r, r + 1] else [r]

/-- A lane of a width read by a signedness. -/
def laneInt (signed : Bool) (w n : Nat) : Int := if signed then signedOf w n else ((n % 2 ^ w : Nat) : Int)

/-- The least value of a signedness and width. -/
def intLo (signed : Bool) (w : Nat) : Int := if signed then -((2 ^ (w - 1) : Nat) : Int) else 0

/-- The greatest value of a signedness and width. -/
def intHi (signed : Bool) (w : Nat) : Int := if signed then ((2 ^ (w - 1) : Nat) : Int) - 1 else ((2 ^ w : Nat) : Int) - 1

/-- Whether a kind is signed (spec/06 R123). -/
def kindSigned (k : BitVec 2) : Bool := k.getLsbD 0

/-- A lane-wise integer operation of two operands under the width override (spec/06 R122, R124). -/
def packedOp (m : Bool) (b a d : Nat) (f : Nat → Nat → Nat → Nat) (s : State) : State :=
  let wid := s.cur.pfx.wid
  let (w, n) := widLanes wid
  laneOp m (widSpan wid b ++ widSpan wid a) (widSpan wid d) (fun _ t =>
    let x := readWid s.freeCtr t wid 0 a
    let y := readWid s.freeCtr t wid 1 b
    ⟨regWrites (wid = 1#2) d (packLanes w ((rangeFrom 0 n).map (fun j => f w (laneOf w j x) (laneOf w j y)))), [], flagNone⟩) s

/-- An operation of two registers into one. -/
def wordOp (m : Bool) (b a d : Nat) (f : Word → Word → Word) (s : State) : State :=
  laneOp m [b, a] [d] (fun _ t => outV d (f (readV s.freeCtr t 0 a) (readV s.freeCtr t 1 b))) s

/-- An operation of one register into one. -/
def wordOp1 (m : Bool) (a d : Nat) (f : Word → Word) (s : State) : State :=
  laneOp m [a] [d] (fun _ t => outV d (f (readV s.freeCtr t 0 a))) s

/-! ### Arithmetic -/

/-- The sum or difference of a lane, wrapping or saturating (spec/06 R124). -/
def addLane (sub : Bool) (k : BitVec 2) (w a b : Nat) : Nat :=
  let sg := kindSigned k
  let x := if sub then laneInt sg w a - laneInt sg w b else laneInt sg w a + laneInt sg w b
  wrap w (if 2 ≤ k.toNat then clampInt (intLo sg w) (intHi sg w) x else x)

/-- The product of two words, its low or its high half (spec/06 R124). -/
def mulWord (k : BitVec 2) (a b : Word) : Word :=
  let x := laneInt (kindSigned k) 32 a.toNat * laneInt (kindSigned k) 32 b.toNat
  toWord (wrap 32 (if 2 ≤ k.toNat then x / ((2 ^ 32 : Nat) : Int) else x))

/-- The lesser or greater of two lanes (spec/06 R124). -/
def minmaxLane (isMax : Bool) (k : BitVec 2) (w a b : Nat) : Nat :=
  let x := laneInt (kindSigned k) w a
  let y := laneInt (kindSigned k) w b
  if isMax then (if x < y then b else a) else (if y < x then b else a)

/-- The quotient and the remainder (spec/06 R125). -/
def divWord (k : BitVec 2) (a b : Word) : Word × Word :=
  if b = 0 then (0xFFFFFFFF#32, a)
  else if kindSigned k then
    (if a = 0x80000000#32 ∧ b = 0xFFFFFFFF#32 then (0x80000000#32, 0)
     else (toWord (wrap 32 (a.toInt.tdiv b.toInt)), toWord (wrap 32 (a.toInt.tmod b.toInt))))
  else (toWord (a.toNat / b.toNat), toWord (a.toNat % b.toNat))

/-- `IADD` (spec/06 R124). -/
def execIadd (k : BitVec 2) (b a d : BitVec 7) (m : Bool) (s : State) : Res :=
  .next (packedOp m b.toNat a.toNat d.toNat (addLane false k) s)

/-- `ISUB` (spec/06 R124). -/
def execIsub (k : BitVec 2) (b a d : BitVec 7) (m : Bool) (s : State) : Res :=
  .next (packedOp m b.toNat a.toNat d.toNat (addLane true k) s)

/-- `IMUL` (spec/06 R124). -/
def execImul (k : BitVec 2) (b a d : BitVec 7) (m : Bool) (s : State) : Res :=
  .next (wordOp m b.toNat a.toNat d.toNat (mulWord k) s)

/-- `IMAD` (spec/06 R124): kinds 2 and 3 add into a pair. -/
def execImad (k : BitVec 2) (b a d : BitVec 7) (m : Bool) (s : State) : Res :=
  let c := s.freeCtr
  let wide := decide (2 ≤ k.toNat)
  let dr := if wide then [d.toNat, d.toNat + 1] else [d.toNat]
  .next (laneOp m ([b.toNat, a.toNat] ++ dr) dr (fun _ t =>
    let p := laneInt (kindSigned k) 32 (readV c t 0 a.toNat).toNat * laneInt (kindSigned k) 32 (readV c t 1 b.toNat).toNat
    if wide then ⟨regWrites true d.toNat (wrap 64 (p + (readVPair c t 2 d.toNat).toNat)), [], flagNone⟩
    else outV d.toNat (toWord (wrap 32 (p + (readV c t 2 d.toNat).toNat)))) s)

/-- `IDIV` (spec/06 R125). -/
def execIdiv (k : BitVec 2) (b a d : BitVec 7) (m : Bool) (s : State) : Res :=
  .next (wordOp m b.toNat a.toNat d.toNat (fun x y => (divWord k x y).1) s)

/-- `IREM` (spec/06 R125). -/
def execIrem (k : BitVec 2) (b a d : BitVec 7) (m : Bool) (s : State) : Res :=
  .next (wordOp m b.toNat a.toNat d.toNat (fun x y => (divWord k x y).2) s)

/-- `IMIN` (spec/06 R124). -/
def execImin (k : BitVec 2) (b a d : BitVec 7) (m : Bool) (s : State) : Res :=
  .next (packedOp m b.toNat a.toNat d.toNat (minmaxLane false k) s)

/-- `IMAX` (spec/06 R124). -/
def execImax (k : BitVec 2) (b a d : BitVec 7) (m : Bool) (s : State) : Res :=
  .next (packedOp m b.toNat a.toNat d.toNat (minmaxLane true k) s)

/-- A comparison condition, codes 0 to 5 (spec/06 R126). -/
def intCond (cc : Nat) (x y : Int) : Bool :=
  match cc with
  | 0 => x == y
  | 1 => x != y
  | 2 => decide (x < y)
  | 3 => decide (x ≤ y)
  | 4 => decide (y < x)
  | _ => decide (y ≤ x)

/-- `ICMP` (spec/06 R126): the condition in every lane. -/
def execIcmp (k : BitVec 2) (b a : BitVec 7) (cc : BitVec 4) (p : BitVec 3) (m : Bool) (s : State) : Res :=
  let wid := s.cur.pfx.wid
  let (w, n) := widLanes wid
  .next (laneOp m (widSpan wid b.toNat ++ widSpan wid a.toNat) [] (fun _ t =>
    let x := readWid s.freeCtr t wid 0 a.toNat
    let y := readWid s.freeCtr t wid 1 b.toNat
    outP p.toNat ((rangeFrom 0 n).all (fun j =>
      intCond cc.toNat (laneInt (kindSigned k) w (laneOf w j x)) (laneInt (kindSigned k) w (laneOf w j y))))) s)

/-! ### Logic, shifts and bit fields -/

/-- The bitwise operations, codes 0 to 7 (spec/06 R127). -/
def logicWord (o : BitVec 3) (a b : Word) : Word :=
  match o.toNat with
  | 0 => a &&& b
  | 1 => a ||| b
  | 2 => a ^^^ b
  | 3 => a &&& ~~~b
  | 4 => a ||| ~~~b
  | 5 => ~~~(a ^^^ b)
  | 6 => ~~~(a &&& b)
  | _ => ~~~(a ||| b)

/-- `LOGIC` (spec/06 R127). -/
def execLogic (o : BitVec 3) (b a d : BitVec 7) (m : Bool) (s : State) : Res :=
  .next (wordOp m b.toNat a.toNat d.toNat (logicWord o) s)

/-- The 32-bit shift functions, codes 0 to 4 (spec/06 R128). -/
def shiftWord (f : Nat) (x : Word) (n : Nat) : Word :=
  match f with
  | 0 => x <<< n
  | 1 => x >>> n
  | 2 => x.sshiftRight n
  | 3 => x.rotateLeft (n % 32)
  | _ => x.rotateRight (n % 32)

/-- The 64-bit shift functions, codes 5 to 7 (spec/06 R128). -/
def shiftDword (f : Nat) (x : Dword) (n : Nat) : Dword :=
  match f with
  | 5 => x <<< n
  | 6 => x >>> n
  | _ => x.sshiftRight n

/-- A shift of a register or a pair by an amount that each thread supplies (spec/06 R128). -/
def shiftOp (m : Bool) (f : Nat) (rd : List Nat) (a d : Nat) (amount : Thread → Nat) (s : State) : State :=
  let wide := decide (5 ≤ f)
  let span := fun (r : Nat) => if wide then [r, r + 1] else [r]
  laneOp m (rd ++ span a) (span d) (fun _ t =>
    if wide then ⟨regWrites true d (shiftDword f (readVPair s.freeCtr t 0 a) (amount t)).toNat, [], flagNone⟩
    else outV d (shiftWord f (readV s.freeCtr t 0 a) (amount t))) s

/-- `SHIFT` (spec/06 R128). -/
def execShift (o : BitVec 3) (b a d : BitVec 7) (m : Bool) (s : State) : Res :=
  .next (shiftOp m o.toNat [b.toNat] a.toNat d.toNat (fun t => (readV s.freeCtr t 1 b.toNat).toNat % 256) s)

/-- The unary bit operations, codes 0 to 4 (spec/06 R129). -/
def bitsWord (o : BitVec 3) (x : Word) : Word :=
  match o.toNat with
  | 0 => toWord ((maskList 32 x.toNat).length)
  | 1 => toWord (if x = 0 then 32 else 31 - x.toNat.log2)
  | 2 => toWord (((maskList 32 x.toNat).head?).getD 32)
  | 3 => toWord (maskOf ((maskList 32 x.toNat).map (fun i => 31 - i)))
  | _ => toWord (ofBytes (toBytes 4 x.toNat).reverse)

/-- `BITS` (spec/06 R129). -/
def execBits (o : BitVec 3) (a d : BitVec 7) (m : Bool) (s : State) : Res :=
  .next (wordOp1 m a.toNat d.toNat (bitsWord o) s)

/-- The position and the effective length of a bit field (spec/06 R130). -/
def bfxField (y : Word) : Nat × Nat :=
  let pos := y.toNat % 32
  (pos, min (min (bitsOf y.toNat 13 8) 32) (32 - pos))

/-- The bit field of a word, zero- or sign-extended (spec/06 R130). -/
def bfeWord (signed : Bool) (x y : Word) : Word :=
  let (pos, l) := bfxField y
  let f := (x.toNat >>> pos) % 2 ^ l
  if l = 0 then 0 else if signed then toWord (wrap 32 (signedOf l f)) else toWord f

/-- A bit field put into a word (spec/06 R130). -/
def bfiWord (x y d : Word) : Word :=
  let (pos, l) := bfxField y
  let mask := (2 ^ l - 1) <<< pos
  (d &&& ~~~(toWord mask)) ||| toWord ((x.toNat % 2 ^ l) <<< pos)

/-- `BFE.U` (spec/06 R130). -/
def execBfeU (b a d : BitVec 7) (m : Bool) (s : State) : Res :=
  .next (wordOp m b.toNat a.toNat d.toNat (bfeWord false) s)

/-- `BFE.S` (spec/06 R130). -/
def execBfeS (b a d : BitVec 7) (m : Bool) (s : State) : Res :=
  .next (wordOp m b.toNat a.toNat d.toNat (bfeWord true) s)

/-- `BFI` (spec/06 R130). -/
def execBfi (b a d : BitVec 7) (m : Bool) (s : State) : Res :=
  .next (laneOp m [b.toNat, a.toNat, d.toNat] [d.toNat] (fun _ t =>
    outV d.toNat (bfiWord (readV s.freeCtr t 0 a.toNat) (readV s.freeCtr t 1 b.toNat) (readV s.freeCtr t 2 d.toNat))) s)

/-! ### Selection, addresses and predicates -/

/-- `SEL` (spec/06 R131). Both operands count as read, the one a thread does not select too: it parks on a pending one and traps on a
poisoned one; the spec is silent (DESIGN CHOICE, log entry 83). -/
def execSel (p : BitVec 3) (b a d : BitVec 7) (m : Bool) (s : State) : Res :=
  .next (laneOp m [b.toNat, a.toNat] [d.toNat] (fun _ t =>
    outV d.toNat (if readP t p.toNat then readV s.freeCtr t 0 a.toNat else readV s.freeCtr t 1 b.toNat)) s)

/-- The address that `LEA` forms (spec/06 R132). -/
def leaAddr (x : Bool) (c : BitVec 2) (a : Dword) (b : Word) : Dword :=
  a + ((if x then b.signExtend 64 else b.zeroExtend 64) <<< c.toNat)

/-- `LEA` (spec/06 R132). -/
def execLea (x : Bool) (c : BitVec 2) (b a d : BitVec 7) (m : Bool) (s : State) : Res :=
  .next (laneOp m [b.toNat, a.toNat, a.toNat + 1] [d.toNat, d.toNat + 1] (fun _ t =>
    ⟨regWrites true d.toNat (leaAddr x c (readVPair s.freeCtr t 0 a.toNat) (readV s.freeCtr t 1 b.toNat)).toNat, [], flagNone⟩) s)

/-- The operations of `LOGIC` on one bit (spec/06 R133). -/
def logicBit (o : BitVec 3) (a b : Bool) : Bool :=
  match o.toNat with
  | 0 => a && b
  | 1 => a || b
  | 2 => a != b
  | 3 => a && !b
  | 4 => a || !b
  | 5 => a == b
  | 6 => !(a && b)
  | _ => !(a || b)

/-- `PLOP` (spec/06 R133). -/
def execPlop (o b a d : BitVec 3) (m : Bool) (s : State) : Res :=
  .next (laneOp m [] [] (fun _ t => outP d.toNat (logicBit o (readP t a.toNat) (readP t b.toNat))) s)

/-! ### Immediate forms -/

/-- `IADDI` (spec/06 R134). -/
def execIaddi (i : BitVec 10) (a d : BitVec 7) (m : Bool) (s : State) : Res :=
  let wid := s.cur.pfx.wid
  let x := immLI i s.cur.imm
  .next (laneOp m (widSpan wid a.toNat) (widSpan wid d.toNat) (fun _ t =>
    if wid = 1#2 then ⟨regWrites true d.toNat (readVPair s.freeCtr t 0 a.toNat + x.signExtend 64).toNat, [], flagNone⟩
    else outV d.toNat (readV s.freeCtr t 0 a.toNat + x)) s)

/-- `ANDI` (spec/06 R134). -/
def execAndi (i : BitVec 10) (a d : BitVec 7) (m : Bool) (s : State) : Res :=
  .next (wordOp1 m a.toNat d.toNat (· &&& immLI i s.cur.imm) s)

/-- `ORI` (spec/06 R134). -/
def execOri (i : BitVec 10) (a d : BitVec 7) (m : Bool) (s : State) : Res :=
  .next (wordOp1 m a.toNat d.toNat (· ||| immLI i s.cur.imm) s)

/-- `XORI` (spec/06 R134). -/
def execXori (i : BitVec 10) (a d : BitVec 7) (m : Bool) (s : State) : Res :=
  .next (wordOp1 m a.toNat d.toNat (· ^^^ immLI i s.cur.imm) s)

/-- `SHFI` (spec/06 R134). -/
def execShfi (f : BitVec 3) (n : BitVec 6) (a d : BitVec 7) (m : Bool) (s : State) : Res :=
  .next (shiftOp m f.toNat [] a.toNat d.toNat (fun _ => n.toNat) s)

/-- `ICMPI` (spec/06 R134): conditions 0 to 5 are signed, 8 to 13 unsigned. -/
def execIcmpi (i : BitVec 10) (a : BitVec 7) (cc : BitVec 4) (p : BitVec 3) (m : Bool) (s : State) : Res :=
  let wid := s.cur.pfx.wid
  let x := immLI i s.cur.imm
  let (w, y) := if wid = 1#2 then (64, (x.signExtend 64).toNat) else (32, x.toNat)
  let sg := !(cc.getLsbD 3)
  .next (laneOp m (widSpan wid a.toNat) [] (fun _ t =>
    outP p.toNat (intCond (cc.toNat % 8) (laneInt sg w (readWid s.freeCtr t wid 0 a.toNat)) (laneInt sg w y))) s)

/-- `MOVIL` (spec/06 R134). -/
def execMovil (i : BitVec 17) (d : BitVec 7) (m : Bool) (s : State) : Res :=
  .next (laneOp m [] [d.toNat] (fun _ _ => outV d.toNat (i.signExtend 32)) s)

/-- `MOVIH` (spec/06 R134). -/
def execMovih (i : BitVec 16) (d : BitVec 7) (m : Bool) (s : State) : Res :=
  .next (laneOp m [d.toNat] [d.toNat] (fun _ t => outV d.toNat (i ++ (readV s.freeCtr t 0 d.toNat).extractLsb' 0 16)) s)

/-! ### Short forms (spec/02 R40) -/

/-- `MOV` is `ORI vD, vA, 0`. -/
def execMov (a d : BitVec 5) (m : Bool) (s : State) : Res := .next (wordOp1 m a.toNat d.toNat (· ||| 0#32) s)

/-- `IADD` is `IADD.u32 vD, vD, vA`. -/
def execIaddShort (a d : BitVec 5) (m : Bool) (s : State) : Res :=
  .next (wordOp m a.toNat d.toNat d.toNat (· + ·) s)

/-- `ISUB` is `ISUB.u32 vD, vD, vA`. -/
def execIsubShort (a d : BitVec 5) (m : Bool) (s : State) : Res :=
  .next (wordOp m a.toNat d.toNat d.toNat (· - ·) s)

/-- `AND` is `LOGIC.and vD, vD, vA`. -/
def execAndShort (a d : BitVec 5) (m : Bool) (s : State) : Res := .next (wordOp m a.toNat d.toNat d.toNat (logicWord 0#3) s)

/-- `OR` is `LOGIC.or vD, vD, vA`. -/
def execOrShort (a d : BitVec 5) (m : Bool) (s : State) : Res := .next (wordOp m a.toNat d.toNat d.toNat (logicWord 1#3) s)

/-- `XOR` is `LOGIC.xor vD, vD, vA`. -/
def execXorShort (a d : BitVec 5) (m : Bool) (s : State) : Res := .next (wordOp m a.toNat d.toNat d.toNat (logicWord 2#3) s)

/-- `SHL` is `SHIFT.shl vD, vD, vA`. -/
def execShlShort (a d : BitVec 5) (m : Bool) (s : State) : Res :=
  .next (shiftOp m 0 [a.toNat] d.toNat d.toNat (fun t => (readV s.freeCtr t 1 a.toNat).toNat % 256) s)

/-- `SHRL` is `SHIFT.shrl vD, vD, vA`. -/
def execShrlShort (a d : BitVec 5) (m : Bool) (s : State) : Res :=
  .next (shiftOp m 1 [a.toNat] d.toNat d.toNat (fun t => (readV s.freeCtr t 1 a.toNat).toNat % 256) s)

/-- `IMUL` is `IMUL.u32 vD, vD, vA`. -/
def execImulShort (a d : BitVec 5) (m : Bool) (s : State) : Res :=
  .next (wordOp m a.toNat d.toNat d.toNat (mulWord 0#2) s)

/-- `MOVI5`: `vD := sext(A, 32)`. -/
def execMovi5 (i d : BitVec 5) (m : Bool) (s : State) : Res :=
  .next (laneOp m [] [d.toNat] (fun _ _ => outV d.toNat (i.signExtend 32)) s)

/-- `NOP`. -/
def execNop (m : Bool) (s : State) : Res := .next (laneOp m [] [] (fun _ _ => outNone) s)

end Sys2Proof.Machine
end

