-- ==== Sys2Proof/Machine/Lane.lean ====
section
/-! DEFINITION. Lane exchange, votes, moves between the vector and scalar spaces, and gang reductions (spec/06 R135 to R138). -/

namespace Sys2Proof.Machine

/-! ### SHFL -/

/-- The source position of a thread's exchange (spec/06 R135). -/
def shflSource (f : BitVec 2) (l : Nat) (b : Word) : Int :=
  match f.toNat with
  | 0 => ((b.toNat % 64 : Nat) : Int)
  | 1 => (l : Int) - b.toNat
  | 2 => (l : Int) + b.toNat
  | _ => ((l ^^^ (b.toNat % 64) : Nat) : Int)

/-- The thread that supplies a thread's value: the source if it lies in the gang and is active, else the thread itself
(spec/06 R135). -/
def shflPeer (g : Gang) (act : List Thread) (f : BitVec 2) (t : Thread) (b : Word) : Thread :=
  let j := shflSource f t.lpos b
  if j < 0 ∨ (g.size : Int) ≤ j then t else (act.find? (fun u => (u.lpos : Int) == j)).getD t

/-- The lower-numbered of two elements that a thread would park on (spec/02 R32). -/
def lowerUse (x y : Option PendUse) : Option PendUse :=
  match x, y with
  | none, y => y
  | x, none => x
  | some a, some b =>
    if b.2.2.reg < a.2.2.reg ∨ (b.2.2.reg = a.2.2.reg ∧ b.2.2.half < a.2.2.half) then some b else some a

/-- The element a thread of a `SHFL` parks on: the lowest-numbered of its own operands and `v[A]` of its source, which a pending `v[B]`
does not name yet (spec/02 R32, spec/06 R135). -/
def shflUse (g : Gang) (act : List Thread) (f : BitVec 2) (b a d c : Nat) (t : Thread) : Option PendUse :=
  match pendHit t [b] with
  | some e => lowerUse (some (t.lpos, t.lpos, e)) ((pendHit t [d]).map (fun e => (t.lpos, t.lpos, e)))
  | none =>
    let u := shflPeer g act f t (readV c t 1 b)
    lowerUse ((pendHit t [d]).map (fun e => (t.lpos, t.lpos, e))) ((pendHit u [a]).map (fun e => (t.lpos, u.lpos, e)))

/-- `SHFL` (spec/06 R135): activity is judged at issue, and all reads take place before any write. -/
def execShfl (f : BitVec 2) (b a d : BitVec 7) (m : Bool) (s : State) : Res :=
  match curGang s with
  | none => .next s
  | some g =>
    let act := activeThreads s g
    let c := s.freeCtr
    let uses := act.filterMap (shflUse g act f b.toNat a.toNat d.toNat c)
    let s1 := if uses.isEmpty then s else parkUses s g uses
    let rest := act.filter (fun t => uses.all (fun u => u.1 != t.lpos))
    let bad := rest.filter (fun t => (poisonHit t [b.toNat]).isSome ||
      (poisonHit (shflPeer g act f t (readV c t 1 b.toNat)) [a.toNat]).isSome)
    let s2 := trapLanes s1 (bad.map (fun t => (t.lpos, 0x0F, 0, toWord (Config.freeNat c (3 * 2 ^ 20 + t.lpos * 128 + a.toNat)))))
    let good := fun (t : Thread) => isActive s g t && uses.all (fun u => u.1 != t.lpos) && bad.all (fun u => u.lpos != t.lpos)
    .next (finishPath (writeLanes s2 (g.threads.map (fun t =>
      if good t then some (outV d.toNat (readV c (shflPeer g act f t (readV c t 1 b.toNat)) 0 a.toNat)) else none))) m)

/-! ### VXS -/

/-- `VXS.bcast` (spec/06 R137). -/
def execVxsBcast (w : Bool) (sr : BitVec 9) (d : BitVec 7) (m : Bool) (s : State) : Res :=
  let span := fun (r : Nat) => if w then [r, r + 1] else [r]
  .next (uniRaw m (span sr.toNat) (fun g s =>
    let n := if w then (readSPair s.freeCtr g 0 sr.toNat).toNat else (readS s.freeCtr g 0 sr.toNat).toNat
    laneOp m [] (span d.toNat) (fun _ _ => ⟨regWrites w d.toNat n, [], flagNone⟩) s) s)

/-- A read of one thread's vector register into a scalar register: a pending source parks the whole path (spec/06 R137). With no thread
active, `VXS.readf` leaves the scalar register as it is: the spec names no outcome (DESIGN CHOICE, log entry 82). -/
def readLaneTo (m w : Bool) (src : Option Thread) (sr d : Nat) (s : State) : State :=
  match curGang s with
  | none => s
  | some g =>
    let regs := if w then [d, d + 1] else [d]
    match src with
    | none => finishPath s m
    | some t =>
      match pendHit t regs with
      | some e => parkUses s g ((maskList 64 (curMask s g)).map (fun l => (l, t.lpos, e)))
      | none =>
        match poisonHit t regs with
        | some r => trapLane s t.lpos 0x0F 0 (toWord (Config.freeNat s.freeCtr (3 * 2 ^ 20 + t.lpos * 128 + r)))
        | none =>
          let n := if w then (readVPair s.freeCtr t 0 d).toNat else (readV s.freeCtr t 0 d).toNat
          finishPath (writeScalars s (regWrites w sr n)) m

/-- `VXS.readf`: the active thread of lowest position (spec/06 R137). -/
def execVxsReadf (w : Bool) (sr : BitVec 9) (d : BitVec 7) (m : Bool) (s : State) : Res :=
  .next (readLaneTo m w ((curGang s).bind (fun g => (activeThreads s g).head?)) sr.toNat d.toNat s)

/-- `VXS.readi`: the thread that `s[S]` names, if it is active (spec/06 R137). -/
def execVxsReadi (w : Bool) (sr : BitVec 9) (d : BitVec 7) (m : Bool) (s : State) : Res :=
  .next (uniRaw m [sr.toNat] (fun g s => readLaneTo m w
    ((activeThreads s g).find? (fun t => t.lpos == (readS s.freeCtr g 1 sr.toNat).toNat % 64)) sr.toNat d.toNat s) s)

/-! ### VOTE -/

/-- The active threads of the executing path at a point of the bundle. -/
def actNow (s : State) : List Thread := ((curGang s).map (activeThreads s)).getD []

/-- `VOTE.any` (spec/06 R136). -/
def execVoteAny (a d : BitVec 3) (m : Bool) (s : State) : Res :=
  let r := (actNow s).any (fun t => readP t a.toNat)
  .next (laneOp m [] [] (fun _ _ => outP d.toNat r) s)

/-- `VOTE.all` (spec/06 R136). -/
def execVoteAll (a d : BitVec 3) (m : Bool) (s : State) : Res :=
  let r := (actNow s).all (fun t => readP t a.toNat)
  .next (laneOp m [] [] (fun _ _ => outP d.toNat r) s)

/-- `VOTE.ballot` (spec/06 R136). The mask counts the threads active when the vote is taken. -/
def execVoteBallot (a : BitVec 3) (d : BitVec 7) (m : Bool) (s : State) : Res :=
  .next (laneOp m [] [d.toNat, d.toNat + 1] (fun g _ =>
    let mask := maskOf (((threadsOf g (curMask s g)).filter (fun t => predOn s.cur t && readP t a.toNat)).map (·.lpos))
    ⟨regWrites true d.toNat mask, [], flagNone⟩) s)

/-- `VOTE.eq` (spec/06 R136): threads with a pending source park before the vote. -/
def execVoteEq (a : BitVec 7) (d : BitVec 3) (m : Bool) (s : State) : Res :=
  .next (laneOp m [a.toNat] [] (fun g _ =>
    let vs := ((threadsOf g (curMask s g)).filter (predOn s.cur)).map (fun t => readV s.freeCtr t 0 a.toNat)
    outP d.toNat (match vs with | [] => true | v :: r => r.all (· == v))) s)

/-! ### GRED -/

/-- The width of a reduction's type (spec/06 R138). -/
def gredWidth (ty : Nat) : Nat := if ty = 2 ∨ ty = 3 ∨ ty = 5 then 64 else 32

/-- Whether a reduction's type is floating point. -/
def gredFloat (ty : Nat) : Bool := decide (4 ≤ ty)

/-- The floating-point `.add` of a list of values (spec/06 R138): a set that holds both infinities raises NV, and so does a
signalling NaN, whatever NaN stands beside them. -/
def gredSum (f : FloatFmt) (rm : RMode) (vs : List FVal) : FRes :=
  let both := vs.any (fun v => isInf v && !(fneg v)) && vs.any (fun v => isInf v && fneg v)
  let r := fsumVals f rm vs
  if both then { r with flags := r.flags ||| flagNV } else r

/-- The reduction of a list of values (spec/06 R138). -/
def gredVal (op ty : Nat) (rm : RMode) (vs : List Nat) : FRes :=
  let w := gredWidth ty
  if gredFloat ty then
    let f := if ty = 5 then fmt64 else fmt32
    if op = 0 then gredSum f rm (vs.map (fdecode f)) else fextremeBits f (op == 2) vs
  else
    let sg := ty % 2 == 1
    let bits := match vs with
      | [] => 0
      | v :: r =>
        match op with
        | 0 => sumNat vs % 2 ^ w
        | 1 => r.foldl (fun a b => if laneInt sg w b < laneInt sg w a then b else a) v
        | 2 => r.foldl (fun a b => if laneInt sg w a < laneInt sg w b then b else a) v
        | 3 => r.foldl (· &&& ·) v
        | 4 => r.foldl (· ||| ·) v
        | _ => r.foldl (· ^^^ ·) v
    ⟨bits, flagNone⟩

/-- Whether a floating-point sum never escalates: it has a NaN or an infinity. -/
def gredPlain (op ty : Nat) (vs : List Nat) : Bool :=
  !(gredFloat ty) || op != 0 ||
  (let f := if ty = 5 then fmt64 else fmt32
   vs.any (fun v => isNan (fdecode f v) || isInf (fdecode f v)))

/-- The registers of an operation marked in flight for threads of the executing gang (spec/02 R30). -/
def flyV (id : Nat) (data : Bool) (regs : List Nat) (t : Thread) : Thread :=
  { t with inflight := regs.map (fun r => ⟨id, r, data, false, none⟩) ++ t.inflight }

/-- `GRED` (spec/06 R138). A sum that escalates leaves the destination pending in each thread from its issue on (spec/05 R112), so that a
read before the marker parks and never obtains the old value: R31 and R112 leave open which of the two holds then (the model's choice, log
entry 104). Any other result is in flight until it returns. -/
def execGred (o : BitVec 3) (ty a d : BitVec 7) (m : Bool) (s : State) : Res :=
  let w64 := gredWidth ty.toNat == 64
  let span := fun (r : Nat) => if w64 then [r, r + 1] else [r]
  let s1 := readyLanes s (span a.toNat) (span d.toNat)
  match curGang s1 with
  | none => .next s1
  | some g =>
    let act := activeThreads s1 g
    let vs := act.map (fun t => if w64 then (readVPair s.freeCtr t 0 a.toNat).toNat else (readV s.freeCtr t 0 a.toNat).toNat)
    let rm := dynRM g
    let r := gredVal o.toNat ty.toNat rm vs
    let f := if w64 then fmt64 else fmt32
    let stage := if gredPlain o.toNat ty.toNat vs then 0 else
      (let st := stageOf 20 vs (fmtCode f); if st = 2 ∧ ty.toNat = 4 then 1 else st)
    if act.isEmpty then .next (finishPath s1 m)
    else if stage = 0 then
      let (id, s2) := newId s1
      let parts := act.map (fun t => (⟨t.lpos, 0, 0, 0, 0, 0, if w64 then 8 else 4, 0, d.toNat, toDword r.bits, r.flags.zeroExtend 64⟩ : LanePart))
      .next (finishPath (updCur s2 (fun g =>
        { updActive s2 g (flyV id false (span d.toNat)) with
          out := g.out ++ [⟨id, .gred o.toNat ty.toNat, s.cur.pc, maskOf (act.map (·.lpos)), true, parts, s.dtb, []⟩] })) m)
    else
      let need := ceilDiv vs.length (if w64 then 28 else 56)
      let q := nextSeq s1 (coreCluster g.core)
      let s2 := updCur s1 (fun g => updActive s1 g (fun t =>
        { t with pend := ⟨d.toNat, 0, fmtCode f, q⟩ :: t.pend }))
      let low := ((act.map (·.lpos)).head?).getD 0
      .next (finishPath (admitHeld (parkEntry s2
        (lanePark g 1 low d.toNat 0 rm f 0 need vs stage r (gredVal o.toNat ty.toNat .rne vs)))) m)

end Sys2Proof.Machine
end

