-- ==== Sys2Proof/Machine/Scalar.lean ====
section
/-! DEFINITION. The scalar instructions and the special registers (spec/06 R139, R140, R142 to R144; spec/19 R411, R412). -/

namespace Sys2Proof.Machine

/-! ### SALU and SIMM -/

/-- The 32-bit functions of `SALU` (spec/06 R139). -/
def saluWord (f : Nat) (x y : Word) : Word :=
  let bit := fun (b : Bool) => if b then 1#32 else 0#32
  match f with
  | 0 => y
  | 1 => x + y
  | 2 => x - y
  | 3 => x * y
  | 4 => x &&& y
  | 5 => x ||| y
  | 6 => x ^^^ y
  | 7 => shiftWord 0 x (y.toNat % 256)
  | 8 => shiftWord 1 x (y.toNat % 256)
  | 9 => shiftWord 2 x (y.toNat % 256)
  | 10 => if y.slt x then y else x
  | 11 => if x.slt y then y else x
  | 12 => if y < x then y else x
  | 13 => if x < y then y else x
  | 14 => bit (x == y)
  | 15 => bit (x != y)
  | 16 => bit (x.slt y)
  | _ => bit (decide (x < y))

/-- The 64-bit functions of `SALU` (spec/06 R139). -/
def saluDword (f : Nat) (x y : Dword) : Dword :=
  match f with
  | 18 => y
  | 19 => x + y
  | _ => x - y

/-- `SALU` (spec/06 R139); the moves do not read `s[SD]`. -/
def execSalu (f : BitVec 6) (sa d : BitVec 9) (m : Bool) (s : State) : Res :=
  let c := s.freeCtr
  if 18 ≤ f.toNat then
    .next (uniOp m ([sa.toNat, sa.toNat + 1] ++ (if f.toNat = 18 then [] else [d.toNat, d.toNat + 1])) (fun g s =>
      writeScalars s (regWrites true d.toNat (saluDword f.toNat (readSPair c g 0 d.toNat) (readSPair c g 1 sa.toNat)).toNat)) s)
  else
    .next (uniOp m (sa.toNat :: (if f.toNat = 0 then [] else [d.toNat])) (fun g s =>
      writeScalars s [(d.toNat, saluWord f.toNat (readS c g 0 d.toNat) (readS c g 1 sa.toNat))]) s)

/-- The 32-bit functions of `SIMM` (spec/06 R140). -/
def simmWord (f : Nat) (x imm : Word) : Word :=
  match f with
  | 0 => imm
  | 1 => x + imm
  | 2 => x &&& imm
  | 3 => x ||| imm
  | 4 => x ^^^ imm
  | 5 => x <<< (imm.toNat % 32)
  | _ => x >>> (imm.toNat % 32)

/-- `SIMM` (spec/06 R140). -/
def execSimm (i : BitVec 12) (f : BitVec 3) (d : BitVec 9) (m : Bool) (s : State) : Res :=
  let c := s.freeCtr
  let imm := immLT i s.cur.imm
  if f = 7#3 then
    .next (uniOp m [d.toNat, d.toNat + 1] (fun g s =>
      writeScalars s (regWrites true d.toNat (readSPair c g 0 d.toNat + imm.signExtend 64).toNat)) s)
  else
    .next (uniOp m (if f = 0#3 then [] else [d.toNat]) (fun g s =>
      writeScalars s [(d.toNat, simmWord f.toNat (readS c g 0 d.toNat) imm)]) s)

/-! ### Gang registers -/

/-- The `CREW` register (spec/06 R143). -/
def crewReg (s : State) (g : Gang) : Word :=
  match gangTeam s g with
  | some t => toWord (t.crew % 2 ^ 30 + t.rank * 2 ^ 30)
  | none => 0xFFFFFFFF#32

/-- A 32-bit gang register (spec/06 R143). -/
def readSpecial (s : State) (g : Gang) (n : Nat) : Word :=
  match n with
  | 0x002 => toWord g.size
  | 0x003 => gangTeamReg g
  | 0x004 => crewReg s g
  | 0x005 => toWord g.grid
  | 0x010 => g.rm
  | 0x011 => g.fstat
  | 0x012 => g.anchor
  | 0x017 => toWord (gangMode s g)
  | 0x018 => g.nfcnt
  | 0x020 => g.escb
  | 0x021 => g.escs
  | 0x022 => g.escpr
  | 0x023 => g.escqs
  | _ => g.trstl

/-- Whether a read of a register waits for the gang's pending elements and reductions (spec/04 R101, spec/05 R117). -/
def readWaits (n : Nat) : Bool := n == 0x011 || n == 0x020 || n == 0x021

/-- Whether the gang's flags are settled for a read (spec/04 R101). -/
def flagsReady (s : State) (g : Gang) : Bool := condHolds s g ⟨0, 0, 0, none, false, false, 0⟩ .flagsSettled

/-- `SSYS.rd` (spec/06 R142, R143). -/
def execSsysRd (r d : BitVec 9) (m : Bool) (s : State) : Res :=
  match curGang s with
  | none => .next s
  | some g =>
    if readWaits r.toNat && !(flagsReady s g) then .next (holdPath s .flagsSettled .again)
    else .next (uniOp m [] (fun g s => writeScalars s [(d.toNat, readSpecial s g r.toNat)]) s)

/-- A 32-bit gang register written, or none where the value is refused (spec/04 R99, R100; spec/06 R143). -/
def writeSpecial (g : Gang) (n : Nat) (w : Word) : Option Gang :=
  match n with
  | 0x010 => if w.toNat % 8 < 5 then some { g with rm := toWord (w.toNat % 8) } else none
  | 0x011 => some { g with fstat := w &&& fstatMask }
  | 0x012 => if -2048 ≤ w.toInt ∧ w.toInt ≤ 2047 then some { g with anchor := w } else none
  | 0x018 => some { g with nfcnt := w }
  | 0x020 => some { g with escb := w }
  | 0x021 => some { g with escs := w }
  | 0x022 => some { g with escpr := w }
  | 0x023 => some { g with escqs := w }
  | 0x024 => some { g with trstl := w }
  | _ => none

/-- `SSYS.wr` (spec/06 R142, R143). -/
def execSsysWr (r d : BitVec 9) (m : Bool) (s : State) : Res :=
  .next (uniRaw m [d.toNat] (fun g s =>
    match writeSpecial g r.toNat (readS s.freeCtr g 0 d.toNat) with
    | some _ => finishPath (updCur s (fun g' => (writeSpecial g' r.toNat (readS s.freeCtr g 0 d.toNat)).getD g')) m
    | none => trapPath s 0x01 0 s.cur.first) s)

/-- What a read of `GWCT` obtains: its value, or, while accesses that write it are in flight, the value before any of them (spec/02 R31,
spec/06 R143). -/
def readGwct (c : Nat) (g : Gang) : Dword := pickOne c (64 * 1024 * 16 + 14) g.gwct (g.gwct :: g.gwctFly.map (·.old))

/-- A 64-bit register (spec/06 R143). -/
def readSpecial64 (s : State) (g : Gang) (n : Nat) : Dword :=
  match n with
  | 0x008 => toDword (coreNow s g.core)
  | 0x009 => toDword s.clk
  | 0x013 => ((findCtx s g.ctx).map (·.pkr)).getD 0
  | _ => readGwct s.freeCtr g

/-- `SSYS.rd64` (spec/06 R142, R143). -/
def execSsysRd64 (r d : BitVec 9) (m : Bool) (s : State) : Res :=
  .next (uniOp m [] (fun g s => writeScalars s (regWrites true d.toNat (readSpecial64 s g r.toNat).toNat)) s)

/-- `SSYS.wr64` of `PKR`: the path is held until the write has reached every core and engine (spec/19 R412). -/
def execSsysWr64 (_r d : BitVec 9) (m : Bool) (s : State) : Res :=
  .next (uniRaw m [d.toNat, d.toNat + 1] (fun g s =>
    let (id, s1) := newId s
    let v := readSPair s.freeCtr g 0 d.toNat
    finishHeld (updCur s1 (fun g =>
      { g with out := g.out ++ [⟨id, .pkrWrite, s.cur.pc, 0, true, [⟨64, 0, 0, 0, 0, 0, 8, 0, 1024, v, 0⟩], s.dtb, []⟩] })) m (.done [id])) s)

/-- EVENT: a write of `PKR` reaches every core and engine (spec/19 R412). -/
def execPkrWrite (core slot : Nat) (s : State) : Res :=
  match findGang s core slot with
  | none => .next s
  | some g =>
    match g.out.find? (fun o => o.kind == .pkrWrite) with
    | none => .next s
    | some o =>
      let s1 := updGang s core slot (fun g => { g with out := g.out.filter (fun x => x.id != o.id) })
      .next (updCtx s1 g.ctx (fun c => { c with pkr := (o.parts.head?.map (·.x)).getD c.pkr }))

/-- `SSYS.mbrd` (spec/06 R142). -/
def execSsysMbrd (r d : BitVec 9) (m : Bool) (s : State) : Res :=
  .next (uniOp m [] (fun g s =>
    writeScalars s (regWrites true d.toNat (((findCtx s g.ctx).map (fun c => sparseGet 0#64 c.mbox r.toNat)).getD 0).toNat)) s)

/-- `SSYS.mbwr`: `FENCE.DEV`, then the write as one event (spec/06 R142). -/
def execSsysMbwr (r d : BitVec 9) (m : Bool) (s : State) : Res :=
  .next (afterFence 2 (uniOp m [d.toNat, d.toNat + 1] (fun g s =>
    updCtx s g.ctx (fun c => { c with mbox := sparseSet 0#64 c.mbox r.toNat (readSPair s.freeCtr g 0 d.toNat) }))) s)

/-! ### Thread registers -/

/-- A per-thread register (spec/06 R143). -/
def readThreadReg (s : State) (g : Gang) (t : Thread) (n : Nat) : Nat :=
  match n with
  | 0x000 => t.tid.toNat
  | 0x001 => t.lpos
  | 0x014 => t.meet.toNat
  | 0x015 => t.link.toNat
  | _ => plimOf s g t

/-- `SSYS.vrd` (spec/06 R142). -/
def execSsysVrd (r : BitVec 9) (d : BitVec 7) (m : Bool) (s : State) : Res :=
  let w := ssysVWide r.toNat
  .next (laneOp m [] (if w then [d.toNat, d.toNat + 1] else [d.toNat]) (fun g t =>
    ⟨regWrites w d.toNat (readThreadReg s g t r.toNat), [], flagNone⟩) s)

/-- A per-thread register written: `MEET` or `LINK` (spec/06 R143). -/
def writeThreadReg (t : Thread) (n : Nat) (v : Dword) : Thread := if n = 0x014 then { t with meet := v } else { t with link := v }

/-- The active threads of the executing path changed, and the path moved on. -/
def laneChange (m : Bool) (rd : List Nat) (f : Gang → Thread → Thread) (s : State) : State :=
  let s1 := readyLanes s rd []
  finishPath (updCur s1 (fun g => updActive s1 g (f g))) m

/-- `SSYS.vwr` (spec/06 R142). -/
def execSsysVwr (r : BitVec 9) (d : BitVec 7) (m : Bool) (s : State) : Res :=
  .next (laneChange m [d.toNat, d.toNat + 1] (fun _ t => writeThreadReg t r.toNat (readVPair s.freeCtr t 0 d.toNat)) s)

end Sys2Proof.Machine
end

