-- ==== Sys2Proof/Machine/System.lean ====
section
/-! DEFINITION. The `SYS` instructions: `SYS.nop`, `TRAP`, `BKPT`, `RTRAP` (spec/20 R439 to R441), `EVT` and `EVTM` (spec/14
R319 to R321). -/

namespace Sys2Proof.Machine

/-- `SYS.nop` (spec/20 R440). -/
def execSysNop (m : Bool) (s : State) : Res := .next (uniOp m [] (fun _ s => s) s)

/-- `TRAP` (spec/20 R440): every active thread takes the user trap; its frame names the next bundle. -/
def execTrap (n : BitVec 8) (_m : Bool) (s : State) : Res := .next (trapPath s 0x11 0 (n.zeroExtend 32))

/-- `BKPT` (spec/20 R440). -/
def execBkpt (n : BitVec 8) (_m : Bool) (s : State) : Res := .next (trapPath s 0x10 0 (n.zeroExtend 32))

/-- What one thread's `RTRAP` meets: the illegal-encoding trap, a fault of the frame's fill, or the frame (spec/20 R441). -/
inductive RtrapLane where
  | illegal
  | fault (k : FaultKind) (va : Nat)
  | frame (f : Nat)
  deriving DecidableEq, Repr

/-- One thread's `RTRAP` (spec/20 R441): not in handler, or a resume address with bit 0 set, is the illegal-encoding trap. -/
def rtrapLane (s : State) (g : Gang) (t : Thread) : RtrapLane :=
  if !t.inHandler then .illegal
  else
    match privCheck s g t (frameOff s g t) 64 with
    | some x => .fault x.1 x.2
    | none =>
      let f := readFrame s g t
      if bitOf f 384 then .illegal else .frame f

/-- `RTRAP` (spec/20 R441). The frame is read as private loads; a fault of a fill parks the thread (spec/11 R487). -/
def execRtrap (m : Bool) (s : State) : Res :=
  match curGang s with
  | none => .next s
  | some g =>
    let lanes := (threadsOf g (curMask s g)).map (fun t => (t, rtrapLane s g t))
    let faults := lanes.filterMap (fun x => match x.2 with | .fault k va => some (⟨x.1.lpos, k, va, .read⟩ : LaneFault) | _ => none)
    if !(faultRoom s g faults) then .next (holdPath s (faultSlots s g faults) .again)
    else
      let bad := maskOf (lanes.filterMap (fun x => if x.2 == .illegal then some x.1.lpos else none))
      let s0 := (lanes.filter (fun x => match x.2 with | .frame _ => true | _ => false)).foldl (fun s x =>
        privFill s g x.1 (frameOff s g x.1) 64) s
      let s1 := faultThreads s0 g s.cur.pc faults
      let s2 := trapThreads s1 g.core g.slot bad (trapInfo s 0x01 0 s.cur.first)
      let good := lanes.filterMap (fun x => match x.2 with | .frame f => some (x.1.lpos, f) | _ => none)
      let s3 := updCur s2 (fun g' => updThreads g' (curMask s g) (fun t =>
        match rtrapLane s g t with
        | .frame f => restoreFrame t f
        | _ => t))
      .next (divideCur s3 m (good.map (fun x => (x.1, frameNpc x.2))))

/-- The payload of a `USER` record (spec/14 R320). -/
def userPayload (s : State) (g : Gang) (v : Dword) (code : Nat) : Nat :=
  v.toNat + code % 256 * 2 ^ 64 + activeMask s g % 2 ^ 64 * 2 ^ 72 + (gangTeamReg g).toNat * 2 ^ 136 + g.slot % 64 * 2 ^ 168 +
    s.cur.pc.toNat * 2 ^ 174

/-- `EVT` (spec/14 R320). -/
def execEvt (a : BitVec 9) (c : BitVec 8) (m : Bool) (s : State) : Res :=
  .next (uniOp m [a.toNat, a.toNat + 1] (fun g s =>
    emit s (.core g.core) g.ctx 0x10 (userPayload s g (readSPair s.freeCtr g 0 a.toNat) c.toNat) (gridTag s g.ctx g.grid) (some g.slot)) s)

/-- The payload of a `USERM` record (spec/14 R320). -/
def usermPayload (s : State) (g : Gang) (a code : Nat) : Nat :=
  packLanes 32 ((rangeFrom 0 10).map (fun k => (readS s.freeCtr g k (a + k)).toNat)) + code % 256 * 2 ^ 320 +
    (gangTeamReg g).toNat * 2 ^ 328 + g.slot % 64 * 2 ^ 360

/-- `EVTM` (spec/14 R320). -/
def execEvtm (a : BitVec 9) (c : BitVec 8) (m : Bool) (s : State) : Res :=
  .next (uniOp m (rangeFrom a.toNat 10) (fun g s =>
    emit s (.core g.core) g.ctx 0x11 (usermPayload s g a.toNat c.toNat) (gridTag s g.ctx g.grid) (some g.slot)) s)

end Sys2Proof.Machine
end

