-- ==== Sys2Proof/Machine/Pending.lean ====
section
/-! DEFINITION. Which agent moves next: the pending events of the device's own units, and the gang that issues (spec/18 R395).
The order that the spec leaves open is a free choice (log entries 2 and 3); the agenda of the state names any other order. -/

namespace Sys2Proof.Machine

/-! ### The events that can occur (spec/18 R395, R397) -/

/-- An event with what it would do. -/
abbrev Cand := Instr × Res

/-- Whether an event would change the state. -/
def occurs (s : State) (c : Cand) : Bool :=
  match c.2 with
  | .next t => decide (t ≠ s)
  | _ => false

/-- A list without repeats, in order of first appearance. -/
def distinct {α : Type} [DecidableEq α] : List α → List α
  | [] => []
  | x :: r => x :: (distinct r).filter (fun y => y != x)

/-- The events that an outstanding operation of a gang waits for. -/
def opCands (s : State) (g : Gang) (o : OutOp) : List Cand :=
  match o.kind with
  | .load _ _ | .loadTeam _ | .loadPriv _ | .loadScalar _ | .adjRead | .gred _ _ =>
    [(.loadReturn g.core g.slot o.id, execLoadReturn g.core g.slot o.id s)]
  | .atomic _ _ _ _ =>
    [(.loadReturn g.core g.slot o.id, execLoadReturn g.core g.slot o.id s),
     (.atomicAtHome g.core g.slot o.id, execAtomicAtHome g.core g.slot o.id s), (.cxlAcknowledgement o.id [], execCxlAcknowledgement o.id [] s)]
  | .crewStore => [(.crewStoreAck g.core g.slot o.id, execCrewStoreAck g.core g.slot o.id s)]
  | .external => [(.cxlAcknowledgement o.id [], execCxlAcknowledgement o.id [] s)]
  | .pkrWrite => [(.pkrWrite g.core g.slot, execPkrWrite g.core g.slot s)]
  | .store | .command | .localTeam | .localPriv => []

/-- The events of accesses, leases and reservations. -/
def accessCands (s : State) : List Cand :=
  s.gangs.flatMap (fun g => g.out.flatMap (opCands s g)) ++
  s.wbuf.map (fun b => (.storeArrival b.core b.id, execStoreArrival b.core b.id s)) ++
  (s.lines.filter (fun c => decide (c.expiry ≤ dieNow s (holderDie c.holder)))).map (fun c => (.leaseExpiry c.holder c.line, execLeaseExpiry c.holder c.line s)) ++
  s.gangs.flatMap (fun g => (g.threads.filter (fun t => t.lr.any (fun r => decide (r.2 + 8192 ≤ s.clk)))).map (fun t =>
    (.lrReservationTimeout g.core g.slot t.lpos, execLrReservationTimeout g.core g.slot t.lpos s)))

/-- The events of dens, records, grids and placement. -/
def launchCands (s : State) : List Cand :=
  s.dens.flatMap (fun d => [(.denTimerExpiry d.cluster d.id, execDenTimerExpiry d.cluster d.id s),
    (.denGangFormOnSlot d.cluster d.id, execDenGangFormOnSlot d.cluster d.id s)]) ++
  s.grids.flatMap (fun g => (looseRecords s g).map (fun r =>
    (.continuationRunnable g.ctx (toDword r.addr), execContinuationRunnable g.ctx (toDword r.addr) s))) ++
  (s.grids.filter (gridQuiet s)).map (fun g => (.gridEnd g.ctx g.index, execGridEnd g.ctx g.index s)) ++
  (if s.ctxs.all (fun c => c.queues.all (·.isEmpty)) then [] else
    (.teamPlacement, execTeamPlacement s) :: s.ctxs.flatMap (fun c => (rangeFrom 0 4).map (fun p =>
      (.backfillTimeout c.id (BitVec.ofNat 2 p), execBackfillTimeout c.id (BitVec.ofNat 2 p) s)))) ++
  (if s.copies.isEmpty then [] else [(.walkerCopyPiece, execWalkerCopyPiece s), (.walkerCopyComplete, execWalkerCopyComplete s)])

/-- The events of one cluster's engines. -/
def clusterCands (s : State) (cl : Nat) : List Cand :=
  [(.rowCommandStart cl, execRowCommandStart cl s), (.rowChunk cl, execRowChunk cl s), (.rowCommandComplete cl, execRowCommandComplete cl s),
   (.rookGrant cl, execRookGrant cl s), (.passStart cl, execPassStart cl s), (.passEnd cl, execPassEnd cl s),
   (.engineUnit cl, execEngineUnit cl s), (.matrixCommandComplete cl, execMatrixCommandComplete cl s)]

/-- The events of one copy engine context. -/
def copyCands (s : State) (core : Nat) : List Cand :=
  [(.copyCommandStart core, execCopyCommandStart core s), (.copyUnit core, execCopyUnit core s),
   (.copyCommandComplete core, execCopyCommandComplete core s), (.netredTimeout core, execNetredTimeout core s)]

/-- The events of the engines and of the parking queues. -/
def engineCands (s : State) : List Cand :=
  (distinct (s.cmds.map (·.cluster))).flatMap (clusterCands s) ++
  (distinct ((s.cmds.filter isCopy).map (·.core))).flatMap (copyCands s) ++
  (s.cmds.filter (fun c => c.stage == .queued && isMatrix c)).map (fun c => (.rookAging c.cluster c.id, execRookAging c.cluster c.id s)) ++
  (distinct ((s.cmds.filter (fun c => c.kind == .mmat && c.stage == .queued)).map (fun c => clusterTable c.cluster))).map (fun t =>
    (.dealerExamine t, execDealerExamine t s)) ++
  (distinct (s.parkq.map (·.cluster))).flatMap (fun cl => [(.brockAccept cl, execBrockAccept cl s), (.brockDecide cl, execBrockDecide cl s)]) ++
  (s.parkq.filter (fun e => e.stage == 2)).map (fun e => (.settResolve e.cluster e.seq, execSettResolve e.cluster e.seq s))

/-- The events of the trace sinks, the fault queues and the management engine. -/
def reportCands (s : State) : List Cand :=
  (distinct (s.traceBuf.map (·.src))).map (fun src => (.traceSinkWrite src, execTraceSinkWrite src s)) ++
  (s.ctxs.filter (fun c => c.trLost != 0)).map (fun c => (.lossRecord c.id, execLossRecord c.id s)) ++
  (s.ctxs.filter (fun c => c.trSince.isSome)).map (fun c => (.losslessTimeout c.id, execLosslessTimeout c.id s)) ++
  (s.ctxs.filter (fun c => !c.waitRecs.isEmpty)).map (fun c => (.faultQueueDrain c.id, execFaultQueueDrain c.id s)) ++
  (if s.completions.isEmpty then [] else [(.commandCompletion, execCommandCompletion s)]) ++
  (if s.dtbSlew = 0 then [] else [(.correctionSlewEnd, execCorrectionSlewEnd s)])

/-- The events of the device's own units that can occur now; what the outside world does stands on the agenda only. -/
def pendingEvents (s : State) : List Instr :=
  ((accessCands s ++ launchCands s ++ engineCands s ++ reportCands s).filter (occurs s)).map (·.1)

/-! ### The operation that a posting's registers name -/

/-- The instruction of a bundle whose operation stands in its registers: the reduction of `ROWOP.red` in `ROWW`.SUB (spec/08 R172, R180),
the operation of `ACCX` in its control word (spec/10 R215). A value that names none stays as decoded, and traps. -/
def refineOp (s : State) (g : Gang) (i : Instr) : Instr :=
  match i with
  | .rowopRedSum t q p m =>
    match rowSub (makeCmd s g (.row 0) t.toNat (rangeFrom (2 * p.toNat) 8 ++ rangeFrom (2 * q.toNat) 8) 0) with
    | 1 => .rowopRedMax t q p m
    | 2 => .rowopRedMin t q p m
    | 3 => .rowopRedLse t q p m
    | 4 => .rowopRedNorm t q p m
    | 5 => .rowopRedSsq t q p m
    | _ => .rowopRedSum t q p m
  | .accxSt t q p m =>
    match accOp (makeCmd s g .accx t.toNat (postRegs 2 q p) 0) with
    | 1 => .accxLd t q p m
    | 2 => .accxAdd t q p m
    | 3 => .accxZero t q p m
    | _ => .accxSt t q p m
  | _ => i

/-! ### The next move -/

/-- What a step does next. -/
inductive Move where
  /-- A gang issues an instruction; the state holds the bundle's record. -/
  | issue (i : Instr) (s : State)
  /-- A unit of the device acts. -/
  | event (i : Instr)
  /-- Something other than an instruction or an event of the table happens: a hold ends, a thread is held, time passes. -/
  | quiet (s : State)

/-- The ready gang of a pipe that comes next in rotation, one that has not yielded first (spec/18 R395, spec/17 R373). -/
def pickGang (s : State) (core pipe : Nat) (l : List Gang) : Option Gang :=
  let last := sparseGet 0 s.rr (core * 16 + pipe)
  let mine := l.filter (fun g => g.core == core && g.pipe == pipe)
  let eager := mine.filter (fun g => !(s.yielded.contains (g.core, g.slot)))
  let pool := if eager.isEmpty then mine else eager
  pool.foldl (fun b g =>
    match b with
    | none => some g
    | some x => if (g.slot + 63 - last) % 64 < (x.slot + 63 - last) % 64 then some g else some x) none

/-- Whether a bundle is uniform, by the major opcode of its last word: it issues on the core's scalar unit (spec/06 R121; spec/08 R171;
spec/09 R198; spec/10 R203, R222; spec/12 R272, R277; spec/13 R299; spec/14 R319; spec/17 R374). `BRU` is none: R42 calls it uniform, and no rule says that it issues there (the model's choice, log entry
101). -/
def uniformWord : CodeWord → Bool
  | .short _ => false
  | .long w =>
    if majorOf w = 0x3D then decide (4 ≤ bitsOf w.toNat 31 26)
    else [0x0B, 0x2D, 0x2E, 0x2F, 0x30, 0x31, 0x32, 0x33, 0x39, 0x3B, 0x3C].contains (majorOf w)

/-- Whether a ready gang asks for its core's scalar unit: its next bundle is uniform (spec/18 R395). -/
def asksScalar (s : State) (g : Gang) : Bool :=
  match pickPath g with
  | none => false
  | some p =>
    match fetchBundle s g.core g.ctx 3 p.pc.toNat with
    | .error _ => false
    | .ok ws => (ws.getLast?).any (fun x => uniformWord x.2.1)

/-- The place of a core's scalar unit in `State.rr`. -/
def scalarKey (core : Nat) : Nat := 10000 + core

/-- The gang that issues where one of a pipe would: a uniform bundle waits for the pipes that come before its own in the scalar unit's
rotation (spec/18 R395). -/
def scalarGang (s : State) (ready : List Gang) (g : Gang) : Gang :=
  if !(asksScalar s g) then g
  else
    let last := sparseGet 15 s.rr (scalarKey g.core)
    (((rangeFrom 1 16).filterMap (fun k => pickGang s g.core ((last + k) % 16) ready)).find? (asksScalar s)).getD g

/-- The lines of code that a bundle was fetched from (spec/01 R16). -/
def bundleLines (s : State) (core ctx va : Nat) : List Nat :=
  match fetchBundle s core ctx 3 va with
  | .error _ => []
  | .ok ws => distinct (ws.filterMap (fun x =>
      match translateChecked s core ctx x.1 2 .fetch with
      | .ok t => some (lineOf (transPa t x.1))
      | .error _ => none))

/-- The set of an instruction cache that a line falls into: 128 KiB in 8 ways are 128 sets of lines of 128 bytes; the size of a line and
the sets are the model's choice (spec/01 R16, log entry 114). -/
def icacheSet (line : Nat) : Nat := line % 128

/-- A line of code in a core's instruction cache, in one of the 6 ways of its set that are not reserved (spec/01 R16); which line a full set
gives up is not stated. -/
def icacheFill (core : Nat) (s : State) (line : Nat) : State :=
  if s.icache.contains (core, line) then s
  else
    match s.icache.filter (fun x => x.1 == core && icacheSet x.2 == icacheSet line) with
    | [] => { s with icache := (core, line) :: s.icache }
    | x :: xs =>
      let out := pickOne s.freeCtr (23 * 2 ^ 20) x (x :: xs)
      { s with icache := (core, line) :: (if xs.length + 1 < 6 then s.icache else s.icache.filter (· != out)) }

/-! ### Prefetched code (spec/03 R77) -/

/-- The lines of a chunk of 4 KiB, if the page it stands on is verified and the tenant may fetch from it. -/
def chunkLines (s : State) (ctx va : Nat) : List Nat :=
  match unitTranslate s hubDie ctx va 4096 .fetch with
  | .error _ => []
  | .ok t => rangeFrom (lineOf (transPa t va)) 32

/-- A line put into the two reserved ways of its set, if there is room. -/
def reserveLine (l : List Nat) (line : Nat) : List Nat :=
  if l.contains line || decide (2 ≤ (l.filter (fun x => icacheSet x == icacheSet line)).length) then l else l ++ [line]

/-- The lines that a launch's chunk list puts into the reserved ways, in list order, until they hold 32 KiB or the list ends. The number
bounds the list. -/
def listLines (s : State) (ctx : Nat) : Nat → Nat → List Nat → List Nat
  | 0, _, l => l
  | n + 1, va, l =>
    if 256 ≤ l.length then l
    else
      match hubRead s ctx va 8 with
      | .error _ => l
      | .ok b => if ofBytes b = 0 then l else listLines s ctx n (va + 8) ((chunkLines s ctx (ofBytes b)).foldl reserveLine l)

/-- The cores of a tenant's partition, where the teams of its launches are placed. -/
def tenantCores (s : State) (ctx : Nat) : List Nat :=
  match findCtx s ctx with
  | none => []
  | some c => ((rangeFrom 0 96).filter (fun k => c.coreset.getLsbD k)).flatMap (fun k => rangeFrom (4 * k) 4)

/-- The launches at the heads of their queues. -/
def firstLaunches (s : State) : List Grid := s.ctxs.flatMap (fun c => (rangeFrom 0 4).filterMap (fun p => (queueOf s c.id p).head?))

/-- A launch's prefetched lines on a core as ordinary lines, once a gang of it has started there. -/
def startCode (s : State) (a : CodeAhead) (core : Nat) : State :=
  let s1 := a.lines.foldl (icacheFill core) s
  { s1 with ahead := s1.ahead.map (fun x => if x.ctx == a.ctx && x.grid == a.grid then
      { x with held := x.held.filter (· != core), past := core :: x.past } else x) }

/-- The reserved ways of the cores where gangs have started freed, and those of launches that are no heads any more. -/
def endAhead (s : State) : State :=
  let s1 := s.ahead.foldl (fun s a => (a.held.filter (fun k => s.gangs.any (fun g => g.core == k && g.ctx == a.ctx && g.grid == a.grid))).foldl
    (fun s k => startCode s a k) s) s
  { s1 with ahead := s1.ahead.filter (fun a => (firstLaunches s1).any (fun g => g.ctx == a.ctx && g.index == a.grid)) }

/-- A head's code put into the reserved ways that are free on the cores of its partition. -/
def fetchAhead (s : State) (g : Grid) : State :=
  let free := fun (l : List Nat) (past : List Nat) => l.filter (fun k => !(past.contains k) && s.ahead.all (fun a => !(a.held.contains k)))
  match s.ahead.find? (fun a => a.ctx == g.ctx && a.grid == g.index) with
  | some a => { s with ahead := s.ahead.map (fun x => if x.ctx == g.ctx && x.grid == g.index then
      { x with held := x.held ++ free (tenantCores s g.ctx) a.past } else x) }
  | none => { s with ahead := ⟨g.ctx, g.index, listLines s g.ctx 65536 g.kernel.clist.toNat [], free (tenantCores s g.ctx) [], []⟩ :: s.ahead }

/-- The prefetch of the code of launches that reach the heads of their queues (spec/03 R77): into the reserved ways of the instruction
caches of the tenant's cores, since which of them its teams take is settled later only (the model's choice, log entry 114). -/
def prefetchCode (s : State) : State :=
  if s.ahead.isEmpty && s.ctxs.all (fun c => c.queues.all (·.isEmpty)) then s
  else (firstLaunches s).foldl fetchAhead (endAhead s)

/-- The threads of a path at their bundle (spec/11 R487: the last bundle of a thread). -/
def markBundle (g : Gang) (p : Path) : Gang := updThreads g p.mask (fun t => { t with lastPc := p.pc })

/-- A gang that has its turn: the places of its pipe and of the scalar unit move on, and the gangs of its pipe that had yielded may come
again (spec/18 R395, spec/17 R373). -/
def takeTurn (s : State) (g : Gang) : State :=
  let rr := sparseSet 0 s.rr (g.core * 16 + g.pipe) g.slot
  { s with
    rr := if asksScalar s g then sparseSet 15 rr (scalarKey g.core) g.pipe else rr
    yielded := s.yielded.filter (fun y => y == (g.core, g.slot) || y.1 != g.core ||
      s.gangs.all (fun x => !(x.core == y.1 && x.slot == y.2 && x.pipe == g.pipe))) }

/-- The issue of a gang: threads at their meeting address are held, which takes no turn, released sub-gangs rejoin, a path is chosen, the
bundle is fetched (spec/16 R339 to R341, spec/18 R395). -/
def issueGang (s : State) (g : Gang) : Move :=
  let s1 := if (findMeet g).isSome then s else rejoinAll s g.core g.slot
  match findGang s1 g.core g.slot with
  | none => .quiet s1
  | some g1 =>
    match findMeet g1, pickPath g1 with
    | some p, _ => .quiet (holdAtMeet s1 g.core g.slot p (meetMask g1 p))
    | none, none => .quiet s1
    | none, some p0 =>
      if 256 ≤ g1.quantum ∧ g1.curPath = p0.ent then .event (.quantumExpiry g.core g.slot)
      else
        let g2 := choosePath g1 p0
        match findPath g2 p0.ent with
        | none => .quiet s1
        | some p =>
          let g3 := markBundle g2 p
          let s2 := (bundleLines s1 g.core g.ctx p.pc.toNat).foldl (icacheFill g.core) (updGang (takeTurn s1 g1) g.core g.slot (fun _ => g3))
          let (i, cur) := fetchInstr s2 g3 p
          let s3 := { s2 with cur := cur }
          .issue (refineOp s3 g3 i) s3

/-- The pipe that issues, and its gang; a withheld issue slot passes (spec/01 R25). -/
def issueMove (s : State) (ready : List Gang) : Move :=
  match ready with
  | [] => .quiet s
  | d :: _ =>
    let g0 := pickOne s.freeCtr 1 d ready
    let g := scalarGang s ready ((pickGang s g0.core g0.pipe ready).getD g0)
    if s.withheld.contains (g.core, g.pipe) then
      .quiet { s with withheld := s.withheld.filter (· != (g.core, g.pipe)) }
    else issueGang s g

/-- What happens next when the agenda is empty. -/
def nextMove (s : State) : Move :=
  match findRelease s with
  | some (core, slot, ent) =>
    if ((findGang s core slot).bind (fun g => findPath g ent)).any (fun p => p.hold.any (fun h => isFence h.cond))
    then .event (.fenceRelease core slot ent) else .quiet (releasePath s core slot ent)
  | none =>
    match findMove s with
    | some (core, slot, uid, true) => .quiet (tryTrap s core slot uid)
    | some (core, slot, uid, false) => .quiet (tryDen s core slot uid)
    | none =>
      let ready := s.gangs.filter (gangReady s)
      match pendingEvents s with
      | [] => issueMove s ready
      | e :: es =>
        if ready.isEmpty || Config.freeBit s.freeCtr 0 then .event (pickOne s.freeCtr 2 e (e :: es)) else issueMove s ready

/-- What follows at once from a state, wherever it came from: barriers' completions told, guards sampled at the queue heads, rounds that find room, entries
that become ready, elements admitted to the parking queue, the waits of heads, resources and gang slots freed, decrements and peers'
messages whose time has come, refused accesses whose faults find entries, early nodes, rings, saves and restorations, code prefetched (spec/03 R77; spec/05 R109; spec/09 R196, R197, R202; spec/14 R315, R317;
spec/15 R324; spec/16 R357; spec/17 R368; spec/18 R388, R390, R393; spec/20 R446). -/
def settle (s : State) : State :=
  let s1 := freeTeams (freeGangs (markHeads (admitHeld (markReady (enterRounds (sampleHeads (sendBarDones s)))))))
  prefetchCode (advanceContexts (watchRings (earlyNodes (retryFails (settlePeers (runDecs decrementFuel s1))))))

/-- Time as it passes with a step (spec/14 R305), with the clocks that gangs spend stalled (spec/05 R117, spec/14 R317); the messages that
end holds set out (R308), and a gang whose current path is held goes on to its next (spec/16 R339). No bundle is in execution. -/
def passTime (s : State) : State :=
  let n := Config.clocks s.freeCtr
  let stalled := s.gangs.filter (escStalled s)
  let s0 := stalled.foldl (fun s g => countEsc s (coreCluster g.core) 3 n) s
  { s0 with
    cur := Cur.none
    freeCtr := s.freeCtr + 1
    dtb := s.dtb + Config.ticks s.freeCtr
    clk := s.clk + n
    waiters := s.waiters.filter (stillWaits s)
    gangs := s.gangs.map (fun g =>
      let g1 := if traceHolds s g.core g.slot then { g with trstl := g.trstl + toWord n } else g
      let g2 := if escStalled s g then { g1 with escqs := g1.escqs + toWord n } else g1
      switchHeld g2) }

/-- What a step does after its instruction or event: time passes, and the state settles. -/
def tick (s : State) : State := settle (passTime s)

/-! ### A program placed from outside -/

/-- The kernel of the gang that `withFetchWord` places. -/
def bareKernel : Kernel := ⟨0x10000, 0, 8, 8, 1, 128, 0, 0, 0, 0, 0⟩

/-- The launch of the gang that `withFetchWord` places. -/
def bareLaunch : Launch := ⟨0, false, false, 0, 0x3FFF, 1, 0, 0, 0, 0, 0⟩

/-- The context of the gang that `withFetchWord` places: its page tables stand at 0x1000, one grant lets it read the first
1 GiB. -/
def bareCtx : Ctx :=
  { id := 0, ptbase := 0x1000, coreset := 1, pkr := 0, grants := [(0, toDword (512 * 2 ^ 37 + 1))], sysgrp := [], leasecfg := 5,
    trcfg := 0, trbase := 0, trsize := 0, trwr := 0, trrd := 0, denbase := 0, densize := 0, fqbase := 0, fqsize := 0, fqwr := 0,
    fqrd := 0, fqctl := 0, logbase := 0, mbox := [], regions := [], nodes := [], queues := [[], [], [], []], logUsed := [0],
    denUsed := [], waitRecs := [], fqlost := 0, kills := 0, save := 0, trLost := 0, trFall := false,
    trSince := none, trPend := [], fqPend := [] }

/-- The machine with one team of eight threads resident on core 0, at a code address whose bytes are a given word: what the
placement of a launch leaves (spec/18 R392), with nothing else pending (log entry 10). -/
def placeWord (s : State) (bytes : List Byte) : State :=
  let mem1 := sparseWriteRun memDefault s.mem 0x1000 (toBytes 8 (2 * 2 ^ 28 + 1))
  let mem2 := sparseWriteRun memDefault mem1 0x2000 (toBytes 8 11)
  let mem3 := sparseWriteRun memDefault mem2 0x10000 (bytes ++ List.replicate (8 - bytes.length) 0)
  let ths := (rangeFrom 0 8).map (fun l =>
    { blankThread (l + 1) l (toDword l) (some l) with v := sparseSetAll 0#32 [] [(0, toWord l)] })
  let s1 := { s with
    agenda := [], cur := Cur.none, mem := mem3, verified := [(0, 2 ^ 18)], gangs := [], crews := [⟨0, 0, 0, 0, []⟩],
    teams := [⟨1, 0, 0, 0, 0, 0, 0, [], [], [], [], [], 0, [], [], [], (rangeFrom 1 8), false⟩],
    grids := [⟨1, 0, 0, bareLaunch, bareKernel, [], 0, none, 1, none, true, none, false, [], [], false, 0, [], 0, false, [], 0, [], [], [], none, 0, 0⟩],
    ctxs := [bareCtx], dens := [], cmds := [], waiters := [], wbuf := [], waits := [], parkq := [], tlb := [], walkCache := [],
    icache := [], ahead := [], decs := [], peerIn := [], withheld := [],
    yielded := [], traceBuf := [], completions := [], copies := [], barDones := [], nextId := 100 }
  { s1 with gangs := [newGang s1 9 0 0 0 0 0 (some 0) 0 8 ths 0x10000] }

end Sys2Proof.Machine
end

