-- ==== Sys2Proof/Machine/Dispatch.lean ====
section
/-! DEFINITION. The meaning of each instruction and event. -/

namespace Sys2Proof.Machine

/-- What an instruction or an event does to the machine. -/
def exec (i : Instr) (s : State) : Host.Outcome State Fault Refusal :=
  match i with
  | .mov a d m => Sys2Proof.Machine.execMov a d m s
  | .iaddShort a d m => Sys2Proof.Machine.execIaddShort a d m s
  | .isubShort a d m => Sys2Proof.Machine.execIsubShort a d m s
  | .andShort a d m => Sys2Proof.Machine.execAndShort a d m s
  | .orShort a d m => Sys2Proof.Machine.execOrShort a d m s
  | .xorShort a d m => Sys2Proof.Machine.execXorShort a d m s
  | .shlShort a d m => Sys2Proof.Machine.execShlShort a d m s
  | .shrlShort a d m => Sys2Proof.Machine.execShrlShort a d m s
  | .faddShort a d m => Sys2Proof.Machine.execFaddShort a d m s
  | .fsubShort a d m => Sys2Proof.Machine.execFsubShort a d m s
  | .fmulShort a d m => Sys2Proof.Machine.execFmulShort a d m s
  | .fmaxShort a d m => Sys2Proof.Machine.execFmaxShort a d m s
  | .fminShort a d m => Sys2Proof.Machine.execFminShort a d m s
  | .imulShort a d m => Sys2Proof.Machine.execImulShort a d m s
  | .movi5 im d m => Sys2Proof.Machine.execMovi5 im d m s
  | .nop m => Sys2Proof.Machine.execNop m s
  | .fadd t b a d m => Sys2Proof.Machine.execFadd t b a d m s
  | .fsub t b a d m => Sys2Proof.Machine.execFsub t b a d m s
  | .fmul t b a d m => Sys2Proof.Machine.execFmul t b a d m s
  | .fnmul t b a d m => Sys2Proof.Machine.execFnmul t b a d m s
  | .fma t b a d m => Sys2Proof.Machine.execFma t b a d m s
  | .fms t b a d m => Sys2Proof.Machine.execFms t b a d m s
  | .fdiv t b a d m => Sys2Proof.Machine.execFdiv t b a d m s
  | .frem t b a d m => Sys2Proof.Machine.execFrem t b a d m s
  | .fmin t b a d m => Sys2Proof.Machine.execFmin t b a d m s
  | .fmax t b a d m => Sys2Proof.Machine.execFmax t b a d m s
  | .fsqrt t a d m => Sys2Proof.Machine.execFsqrt t a d m s
  | .frsq t a d m => Sys2Proof.Machine.execFrsq t a d m s
  | .fcmp t b a c p m => Sys2Proof.Machine.execFcmp t b a c p m s
  | .fcmpSig t b a c p m => Sys2Proof.Machine.execFcmpSig t b a c p m s
  | .fcvt r c a d m => Sys2Proof.Machine.execFcvt r c a d m s
  | .ffn t c a d m => Sys2Proof.Machine.execFfn t c a d m s
  | .fscale t b a d m => Sys2Proof.Machine.execFscale t b a d m s
  | .flogb t a d m => Sys2Proof.Machine.execFlogb t a d m s
  | .fsgn t b a d m => Sys2Proof.Machine.execFsgn t b a d m s
  | .fclass t a d m => Sys2Proof.Machine.execFclass t a d m s
  | .rowopRedSum t q p m => Sys2Proof.Machine.execRowopRedSum t q p m s
  | .rowopRedMax t q p m => Sys2Proof.Machine.execRowopRedMax t q p m s
  | .rowopRedMin t q p m => Sys2Proof.Machine.execRowopRedMin t q p m s
  | .rowopRedLse t q p m => Sys2Proof.Machine.execRowopRedLse t q p m s
  | .rowopRedNorm t q p m => Sys2Proof.Machine.execRowopRedNorm t q p m s
  | .rowopRedSsq t q p m => Sys2Proof.Machine.execRowopRedSsq t q p m s
  | .rowopSmx t q p m => Sys2Proof.Machine.execRowopSmx t q p m s
  | .rowopStat t q p m => Sys2Proof.Machine.execRowopStat t q p m s
  | .rowopUpd t q p m => Sys2Proof.Machine.execRowopUpd t q p m s
  | .iadd k b a d m => Sys2Proof.Machine.execIadd k b a d m s
  | .isub k b a d m => Sys2Proof.Machine.execIsub k b a d m s
  | .imul k b a d m => Sys2Proof.Machine.execImul k b a d m s
  | .imad k b a d m => Sys2Proof.Machine.execImad k b a d m s
  | .idiv k b a d m => Sys2Proof.Machine.execIdiv k b a d m s
  | .irem k b a d m => Sys2Proof.Machine.execIrem k b a d m s
  | .logic o b a d m => Sys2Proof.Machine.execLogic o b a d m s
  | .shift o b a d m => Sys2Proof.Machine.execShift o b a d m s
  | .imin k b a d m => Sys2Proof.Machine.execImin k b a d m s
  | .imax k b a d m => Sys2Proof.Machine.execImax k b a d m s
  | .icmp k b a c p m => Sys2Proof.Machine.execIcmp k b a c p m s
  | .bits o a d m => Sys2Proof.Machine.execBits o a d m s
  | .bfeU b a d m => Sys2Proof.Machine.execBfeU b a d m s
  | .bfeS b a d m => Sys2Proof.Machine.execBfeS b a d m s
  | .bfi b a d m => Sys2Proof.Machine.execBfi b a d m s
  | .sel p b a d m => Sys2Proof.Machine.execSel p b a d m s
  | .lea x c b a d m => Sys2Proof.Machine.execLea x c b a d m s
  | .plop o b a d m => Sys2Proof.Machine.execPlop o b a d m s
  | .iaddi im a d m => Sys2Proof.Machine.execIaddi im a d m s
  | .andi im a d m => Sys2Proof.Machine.execAndi im a d m s
  | .ori im a d m => Sys2Proof.Machine.execOri im a d m s
  | .xori im a d m => Sys2Proof.Machine.execXori im a d m s
  | .shfi f n a d m => Sys2Proof.Machine.execShfi f n a d m s
  | .icmpi im a c p m => Sys2Proof.Machine.execIcmpi im a c p m s
  | .movil im d m => Sys2Proof.Machine.execMovil im d m s
  | .movih im d m => Sys2Proof.Machine.execMovih im d m s
  | .shfl f b a d m => Sys2Proof.Machine.execShfl f b a d m s
  | .vxsBcast w sr d m => Sys2Proof.Machine.execVxsBcast w sr d m s
  | .vxsReadf w sr d m => Sys2Proof.Machine.execVxsReadf w sr d m s
  | .vxsReadi w sr d m => Sys2Proof.Machine.execVxsReadi w sr d m s
  | .voteAny a d m => Sys2Proof.Machine.execVoteAny a d m s
  | .voteAll a d m => Sys2Proof.Machine.execVoteAll a d m s
  | .voteBallot a d m => Sys2Proof.Machine.execVoteBallot a d m s
  | .voteEq a d m => Sys2Proof.Machine.execVoteEq a d m s
  | .gred o t a d m => Sys2Proof.Machine.execGred o t a d m s
  | .ldg o z b a d m => Sys2Proof.Machine.execLdg o z b a d m s
  | .ldm8 o b a d m => Sys2Proof.Machine.execLdm8 o b a d m s
  | .stg o z b a d m => Sys2Proof.Machine.execStg o z b a d m s
  | .ldt o z b a d m => Sys2Proof.Machine.execLdt o z b a d m s
  | .stt o z b a d m => Sys2Proof.Machine.execStt o z b a d m s
  | .ldp o z b a d m => Sys2Proof.Machine.execLdp o z b a d m s
  | .stp o z b a d m => Sys2Proof.Machine.execStp o z b a d m s
  | .atom f w b a d m => Sys2Proof.Machine.execAtom f w b a d m s
  | .atomxUmax w b a d m => Sys2Proof.Machine.execAtomxUmax w b a d m s
  | .atomxCas w b a d m => Sys2Proof.Machine.execAtomxCas w b a d m s
  | .atomxFadd w b a d m => Sys2Proof.Machine.execAtomxFadd w b a d m s
  | .atomxFadda w b a sr m => Sys2Proof.Machine.execAtomxFadda w b a sr m s
  | .atomxLr w a d m => Sys2Proof.Machine.execAtomxLr w a d m s
  | .atomxSc w b a d m => Sys2Proof.Machine.execAtomxSc w b a d m s
  | .atomxFmax w b a d m => Sys2Proof.Machine.execAtomxFmax w b a d m s
  | .atomxFmin w b a d m => Sys2Proof.Machine.execAtomxFmin w b a d m s
  | .cachePref b a n m => Sys2Proof.Machine.execCachePref b a n m s
  | .cacheLinv b a n m => Sys2Proof.Machine.execCacheLinv b a n m s
  | .cachePwb b a n m => Sys2Proof.Machine.execCachePwb b a n m s
  | .cachePinv b a n m => Sys2Proof.Machine.execCachePinv b a n m s
  | .copyLoad t q p m => Sys2Proof.Machine.execCopyLoad t q p m s
  | .copyStore t q p m => Sys2Proof.Machine.execCopyStore t q p m s
  | .copyMove t q p m => Sys2Proof.Machine.execCopyMove t q p m s
  | .copyNetred t q p m => Sys2Proof.Machine.execCopyNetred t q p m s
  | .mma t q p m => Sys2Proof.Machine.execMma t q p m s
  | .mmat t q p m => Sys2Proof.Machine.execMmat t q p m s
  | .wload t q p m => Sys2Proof.Machine.execWload t q p m s
  | .accxSt t q p m => Sys2Proof.Machine.execAccxSt t q p m s
  | .accxLd t q p m => Sys2Proof.Machine.execAccxLd t q p m s
  | .accxAdd t q p m => Sys2Proof.Machine.execAccxAdd t q p m s
  | .accxZero t q p m => Sys2Proof.Machine.execAccxZero t q p m s
  | .quant t q p m => Sys2Proof.Machine.execQuant t q p m s
  | .deq t q p m => Sys2Proof.Machine.execDeq t q p m s
  | .qpair t q p m => Sys2Proof.Machine.execQpair t q p m s
  | .cvtt t q p m => Sys2Proof.Machine.execCvtt t q p m s
  | .salu f sr d m => Sys2Proof.Machine.execSalu f sr d m s
  | .simm im f d m => Sys2Proof.Machine.execSimm im f d m s
  | .smemLoad f sr d m => Sys2Proof.Machine.execSmemLoad f sr d m s
  | .smemStore f sr d m => Sys2Proof.Machine.execSmemStore f sr d m s
  | .ssysRd sr d m => Sys2Proof.Machine.execSsysRd sr d m s
  | .ssysWr sr d m => Sys2Proof.Machine.execSsysWr sr d m s
  | .ssysRd64 sr d m => Sys2Proof.Machine.execSsysRd64 sr d m s
  | .ssysWr64 sr d m => Sys2Proof.Machine.execSsysWr64 sr d m s
  | .ssysMbrd sr d m => Sys2Proof.Machine.execSsysMbrd sr d m s
  | .ssysMbwr sr d m => Sys2Proof.Machine.execSsysMbwr sr d m s
  | .ssysVrd sr d m => Sys2Proof.Machine.execSsysVrd sr d m s
  | .ssysVwr sr d m => Sys2Proof.Machine.execSsysVwr sr d m s
  | .pkrWrite core slot => Sys2Proof.Machine.execPkrWrite core slot s
  | .bra o m => Sys2Proof.Machine.execBra o m s
  | .call o m => Sys2Proof.Machine.execCall o m s
  | .brc o n p m => Sys2Proof.Machine.execBrc o n p m s
  | .bru o z sr m => Sys2Proof.Machine.execBru o z sr m s
  | .ret m => Sys2Proof.Machine.execRet m s
  | .jmpr x d m => Sys2Proof.Machine.execJmpr x d m s
  | .meet x sr d m => Sys2Proof.Machine.execMeet x sr d m s
  | .exit m => Sys2Proof.Machine.execExit m s
  | .next k d m => Sys2Proof.Machine.execNext k d m s
  | .spawn k d m => Sys2Proof.Machine.execSpawn k d m s
  | .susp sr d m => Sys2Proof.Machine.execSusp sr d m s
  | .yield m => Sys2Proof.Machine.execYield m s
  | .fuse sr d m => Sys2Proof.Machine.execFuse sr d m s
  | .split p d m => Sys2Proof.Machine.execSplit p d m s
  | .elect p d m => Sys2Proof.Machine.execElect p d m s
  | .gsync m => Sys2Proof.Machine.execGsync m s
  | .ginfo sr d m => Sys2Proof.Machine.execGinfo sr d m s
  | .barArrive l n m => Sys2Proof.Machine.execBarArrive l n m s
  | .barWait l n m => Sys2Proof.Machine.execBarWait l n m s
  | .barSync l n m => Sys2Proof.Machine.execBarSync l n m s
  | .fenceTeam m => Sys2Proof.Machine.execFenceTeam m s
  | .fenceCrew m => Sys2Proof.Machine.execFenceCrew m s
  | .fenceDev m => Sys2Proof.Machine.execFenceDev m s
  | .fenceSys m => Sys2Proof.Machine.execFenceSys m s
  | .waitt sr t m => Sys2Proof.Machine.execWaitt sr t m s
  | .tlsig t m => Sys2Proof.Machine.execTlsig t m s
  | .waitv m => Sys2Proof.Machine.execWaitv m s
  | .succok m => Sys2Proof.Machine.execSuccok m s
  | .cset sr c m => Sys2Proof.Machine.execCset sr c m s
  | .csign sr c m => Sys2Proof.Machine.execCsign sr c m s
  | .garm g m => Sys2Proof.Machine.execGarm g m s
  | .gset sr g m => Sys2Proof.Machine.execGset sr g m s
  | .dropen sr n m => Sys2Proof.Machine.execDropen sr n m s
  | .drclose n m => Sys2Proof.Machine.execDrclose n m s
  | .dmode d m => Sys2Proof.Machine.execDmode d m s
  | .adjrd sr d m => Sys2Proof.Machine.execAdjrd sr d m s
  | .adjclr sr d m => Sys2Proof.Machine.execAdjclr sr d m s
  | .tapeposRdhead d m => Sys2Proof.Machine.execTapeposRdhead d m s
  | .tapeposWrhead d m => Sys2Proof.Machine.execTapeposWrhead d m s
  | .tapeposRdseg n d m => Sys2Proof.Machine.execTapeposRdseg n d m s
  | .tapeposWrseg n d m => Sys2Proof.Machine.execTapeposWrseg n d m s
  | .sysNop m => Sys2Proof.Machine.execSysNop m s
  | .trap n m => Sys2Proof.Machine.execTrap n m s
  | .bkpt n m => Sys2Proof.Machine.execBkpt n m s
  | .rtrap m => Sys2Proof.Machine.execRtrap m s
  | .evt sr c m => Sys2Proof.Machine.execEvt sr c m s
  | .evtm sr c m => Sys2Proof.Machine.execEvtm sr c m s
  | .encodingNotInstruction kind first => Sys2Proof.Machine.execEncodingNotInstruction kind first s
  | .instructionFetchFault addr kind => Sys2Proof.Machine.execInstructionFetchFault addr kind s
  | .correctionSlewEnd => Sys2Proof.Machine.execCorrectionSlewEnd s
  | .cxlAcknowledgement id data => Sys2Proof.Machine.execCxlAcknowledgement id data s
  | .loadReturn core slot id => Sys2Proof.Machine.execLoadReturn core slot id s
  | .storeArrival core id => Sys2Proof.Machine.execStoreArrival core id s
  | .atomicAtHome core slot id => Sys2Proof.Machine.execAtomicAtHome core slot id s
  | .crewStoreAck core slot id => Sys2Proof.Machine.execCrewStoreAck core slot id s
  | .fenceRelease core slot path => Sys2Proof.Machine.execFenceRelease core slot path s
  | .leaseExpiry holder line => Sys2Proof.Machine.execLeaseExpiry holder line s
  | .lrReservationTimeout core slot lane => Sys2Proof.Machine.execLrReservationTimeout core slot lane s
  | .carveoutInterval core move => Sys2Proof.Machine.execCarveoutInterval core move s
  | .pageWalkComplete core ctx va => Sys2Proof.Machine.execPageWalkComplete core ctx va s
  | .codePageVerify frame leaves => Sys2Proof.Machine.execCodePageVerify frame leaves s
  | .brockAccept cluster => Sys2Proof.Machine.execBrockAccept cluster s
  | .brockDecide cluster => Sys2Proof.Machine.execBrockDecide cluster s
  | .settResolve cluster seq => Sys2Proof.Machine.execSettResolve cluster seq s
  | .quantumExpiry core slot => Sys2Proof.Machine.execQuantumExpiry core slot s
  | .issueSlotWithheld core pipe => Sys2Proof.Machine.execIssueSlotWithheld core pipe s
  | .denTimerExpiry cluster den => Sys2Proof.Machine.execDenTimerExpiry cluster den s
  | .denGangFormOnSlot cluster den => Sys2Proof.Machine.execDenGangFormOnSlot cluster den s
  | .continuationRunnable ctx addr => Sys2Proof.Machine.execContinuationRunnable ctx addr s
  | .gridEnd ctx grid => Sys2Proof.Machine.execGridEnd ctx grid s
  | .rowCommandStart cluster => Sys2Proof.Machine.execRowCommandStart cluster s
  | .rowChunk cluster => Sys2Proof.Machine.execRowChunk cluster s
  | .rowCommandComplete cluster => Sys2Proof.Machine.execRowCommandComplete cluster s
  | .rookGrant cluster => Sys2Proof.Machine.execRookGrant cluster s
  | .rookAging cluster id => Sys2Proof.Machine.execRookAging cluster id s
  | .dealerExamine table => Sys2Proof.Machine.execDealerExamine table s
  | .passStart cluster => Sys2Proof.Machine.execPassStart cluster s
  | .passEnd cluster => Sys2Proof.Machine.execPassEnd cluster s
  | .engineUnit cluster => Sys2Proof.Machine.execEngineUnit cluster s
  | .matrixCommandComplete cluster => Sys2Proof.Machine.execMatrixCommandComplete cluster s
  | .copyCommandStart core => Sys2Proof.Machine.execCopyCommandStart core s
  | .copyUnit core => Sys2Proof.Machine.execCopyUnit core s
  | .copyCommandComplete core => Sys2Proof.Machine.execCopyCommandComplete core s
  | .netredResult core sum => Sys2Proof.Machine.execNetredResult core sum s
  | .netredTimeout core => Sys2Proof.Machine.execNetredTimeout core s
  | .launchWindowWrite ctx offset data => Sys2Proof.Machine.execLaunchWindowWrite ctx offset data s
  | .teamPlacement => Sys2Proof.Machine.execTeamPlacement s
  | .backfillTimeout ctx pri => Sys2Proof.Machine.execBackfillTimeout ctx pri s
  | .nodeArm ctx offset data => Sys2Proof.Machine.execNodeArm ctx offset data s
  | .nodeStatusRead ctx offset size => Sys2Proof.Machine.execNodeStatusRead ctx offset size s
  | .walkerCopyPiece => Sys2Proof.Machine.execWalkerCopyPiece s
  | .walkerCopyComplete => Sys2Proof.Machine.execWalkerCopyComplete s
  | .peerStoreArrival dev tenant id runs => Sys2Proof.Machine.execPeerStoreArrival dev tenant id runs s
  | .peerNotification dev tenant id runs => Sys2Proof.Machine.execPeerNotification dev tenant id runs s
  | .peerLaunchRecord dev tenant id runs => Sys2Proof.Machine.execPeerLaunchRecord dev tenant id runs s
  | .peerAtomic dev tenant id op wide pa xy rm anchor => Sys2Proof.Machine.execPeerAtomic dev tenant id op wide pa xy rm anchor s
  | .peerResponse id ok data => Sys2Proof.Machine.execPeerResponse id ok data s
  | .linkPortStateChange port st => Sys2Proof.Machine.execLinkPortStateChange port st s
  | .linkUnreachableTimeout dev => Sys2Proof.Machine.execLinkUnreachableTimeout dev s
  | .hostWrite identity pa data => Sys2Proof.Machine.execHostWrite identity pa data s
  | .hostRead identity pa len => Sys2Proof.Machine.execHostRead identity pa len s
  | .hostAtomic identity pa sysat op wide x y => Sys2Proof.Machine.execHostAtomic identity pa sysat op wide x y s
  | .ptpMessage src ptpNs => Sys2Proof.Machine.execPtpMessage src ptpNs s
  | .ptpSourceLost => Sys2Proof.Machine.execPtpSourceLost s
  | .traceSinkWrite src => Sys2Proof.Machine.execTraceSinkWrite src s
  | .lossRecord ctx => Sys2Proof.Machine.execLossRecord ctx s
  | .losslessTimeout ctx => Sys2Proof.Machine.execLosslessTimeout ctx s
  | .faultQueueDrain ctx => Sys2Proof.Machine.execFaultQueueDrain ctx s
  | .mgmtWindowMalformedWrite offset size => Sys2Proof.Machine.execMgmtWindowMalformedWrite offset size s
  | .ctxnew rec => Sys2Proof.Machine.execCtxnew rec s
  | .ctxdel rec => Sys2Proof.Machine.execCtxdel rec s
  | .tlbinv rec => Sys2Proof.Machine.execTlbinv rec s
  | .grant rec => Sys2Proof.Machine.execGrant rec s
  | .linkadm rec => Sys2Proof.Machine.execLinkadm rec s
  | .regwr rec => Sys2Proof.Machine.execRegwr rec s
  | .regrd rec => Sys2Proof.Machine.execRegrd rec s
  | .replay rec => Sys2Proof.Machine.execReplay rec s
  | .kill rec => Sys2Proof.Machine.execKill rec s
  | .preempt rec => Sys2Proof.Machine.execPreempt rec s
  | .resume rec => Sys2Proof.Machine.execResume rec s
  | .resync rec => Sys2Proof.Machine.execResync rec s
  | .commandCompletion => Sys2Proof.Machine.execCommandCompletion s
  | .softErrorCorrected cls => Sys2Proof.Machine.execSoftErrorCorrected cls s
  | .softErrorUncorrectable loc => Sys2Proof.Machine.execSoftErrorUncorrectable loc s
  | .deviceReset images => Sys2Proof.Machine.execDeviceReset images s
  | .getVersion req => Sys2Proof.Machine.execGetVersion req s
  | .getCapabilities req => Sys2Proof.Machine.execGetCapabilities req s
  | .negotiateAlgorithms req mldsa87 sha3 => Sys2Proof.Machine.execNegotiateAlgorithms req mldsa87 sha3 s
  | .getDigests req => Sys2Proof.Machine.execGetDigests req s
  | .getCertificate req offset len => Sys2Proof.Machine.execGetCertificate req offset len s
  | .challenge req nonce => Sys2Proof.Machine.execChallenge req nonce s
  | .getMeasurements req nonce => Sys2Proof.Machine.execGetMeasurements req nonce s
  | .firmwareUpdate image => Sys2Proof.Machine.execFirmwareUpdate image s
  | .flitRetransmission port => Sys2Proof.Machine.execFlitRetransmission port s

end Sys2Proof.Machine
end

