-- ==== Sys2Proof/Machine/Step.lean ====
section
/-! DEFINITION. One step of the machine: the event at the head of the agenda, or what `nextMove` says comes next. -/

namespace Sys2Proof.Machine

/-- A step's outcome with time passed. -/
def ticked : Host.Outcome State Fault Refusal → Host.Outcome State Fault Refusal
  | .next s => .next (tick s)
  | .fault r => .fault r
  | .refused r => .refused r

/-- One step. -/
def step (s : State) : Host.Outcome State Fault Refusal :=
  match s.agenda with
  | e :: rest => if (encode e).isNone then ticked (exec e { s with agenda := rest }) else .fault .agendaNotEvent
  | [] =>
    match nextMove s with
    | .issue i s1 => ticked (exec i s1)
    | .event e => ticked (exec e s)
    | .quiet s1 => .next (tick s1)

/-- The state with the instruction whose bits are `w` where the next step fetches (log entry 10). -/
def State.withFetchWord (s : State) (nbits w : Nat) : State := placeWord s (tableWordBytes (w % 2 ^ nbits))

end Sys2Proof.Machine
end

