-- ==== Sys2Proof/WellFormed.lean ====
section
/-! DEFINITION. Well-formed instructions: those whose operand fields meet the limits of spec/02 R34 and of their entries.
The limits are `operandsLegal` of Decode.lean, which the decoder checks too. -/

namespace Sys2Proof

/-- An instruction whose operand fields meet their limits (spec/02 R34, R52). -/
abbrev WellFormed (i : Instr) : Prop := operandsLegal i = true

end Sys2Proof
end

