-- ==== Sys2Proof/Safety.lean ====
section
/-! DEFINITION. What counts as a safe run, and the terms that statements use: a gang that executes a bundle with nothing
outstanding, and the state that a bundle leaves when it runs to its end. -/

namespace Sys2Proof.Machine

/-- The canonical form of both memories. -/
def memoriesWf (s : State) : Prop := Memory.wf s.mem = true ∧ Memory.wf s.hostMem = true

/-- Nothing of a gang is outstanding: no register is in flight (spec/02 R30), pending (spec/05 R107) or poisoned (spec/20
R444), no operation is on its way, one that a thread has left behind in another gang neither (spec/11 R237), and no thread is on its way to a
trap (spec/20 R434, R435). -/
structure Idle (g : Gang) : Prop where
  flight   : ∀ t ∈ g.threads, t.inflight = []
  pending  : ∀ t ∈ g.threads, t.pend = []
  clean    : ∀ t ∈ g.threads, t.poison = []
  due      : ∀ t ∈ g.threads, t.dfrTrap = none
  owed     : ∀ t ∈ g.threads, t.owes = []
  scalars  : g.sflight = []
  gwct     : g.gwctFly = []
  sclean   : g.spoison = []
  quiet    : g.out = []
  untraped : ∀ q ∈ g.parked, q.cause ≠ .trapWait

/-- Gang `g` of the state executes the bundle of `s.cur` on its path `p`, with nothing of it outstanding. -/
structure Executes (s : State) (g : Gang) (p : Path) : Prop where
  live : curGang s = some g
  path : findPath g s.cur.path = some p
  idle : Idle g

/-- The path of a bundle that has run to its end stands at an address, held by nothing. -/
def pathAt (pc : Dword) (p : Path) : Path := { p with pc := pc, hold := none, passed := false, met := false, sub := 0 }

/-- The path of a bundle whose results are on their way: its marker, if it has one, holds it for them (spec/02 R29). -/
def pathOn (m : Bool) (pc : Dword) (p : Path) : Path :=
  { pathAt pc p with hold := if m then some ⟨.results, .go false⟩ else none }

/-- The state `s` with the executing gang replaced by `g`, its path at `pc`. -/
def gangAt (s : State) (g : Gang) (pc : Dword) : State := updCur s (fun _ => updPath g s.cur.path (pathAt pc))

/-- The state `s` with the executing gang replaced by `g`, its path at the next bundle. -/
def gangOnward (s : State) (g : Gang) : State := gangAt s g s.cur.npc

/-- The gang with each active thread changed by `f`, and flags ORed into `FSTAT`. -/
def lanesDone (s : State) (g : Gang) (f : Thread → Thread) (fl : Flags) : Gang :=
  { g with
    threads := g.threads.map (fun t => if isActive s g t then f t else t)
    fstat := fstatOr g.fstat fl }

/-- The state that a lane-wise bundle leaves: each active thread changed by `f`, flags ORed into `FSTAT`, the path at the next
bundle, and everything else as it was. -/
def lanesOnward (s : State) (g : Gang) (f : Thread → Thread) (fl : Flags) : State := gangOnward s (lanesDone s g f fl)

end Sys2Proof.Machine
end

