-- ==== Sys2Proof/Claims.lean ====
section
/-! DEFINITION. The values and effects that statements name, written from the rules of spec/ apart from the meanings they are
stated about. -/

namespace Sys2Proof.Claims

open Sys2Proof.Machine

/-! ### Integer lanes (spec/06 R122 to R126) -/

/-- The two's-complement value of a `w`-bit number. -/
def sval (w x : Nat) : Int := if x < 2 ^ (w - 1) then (x : Int) else (x : Int) - (2 ^ w : Nat)

/-- The value of a lane by its signedness. -/
def lval (signed : Bool) (w x : Nat) : Int := if signed then sval w x else (x : Int)

/-- An integer as a `w`-bit number. -/
def low (w : Nat) (x : Int) : Nat := (x % (2 ^ w : Nat)).toNat

/-- An integer held to the least and the greatest value of a lane. -/
def held (signed : Bool) (w : Nat) (x : Int) : Int :=
  if signed then min (max x (-(2 ^ (w - 1) : Nat))) ((2 ^ (w - 1) : Nat) - 1) else min (max x 0) ((2 ^ w : Nat) - 1)

/-- An operand under a width override: `v[r]`, or the pair for `WID` 1. -/
def opnd (wid : BitVec 2) (t : Thread) (r : Nat) : Nat :=
  if wid = 1#2 then (pairOf (vreg t r) (vreg t (r + 1))).toNat else (vreg t r).toNat

/-- The lanes of two operands combined, lane by lane. -/
def lanewise (wid : BitVec 2) (f : Nat → Nat → Nat → Nat) (x y : Nat) : Nat :=
  packLanes (widLanes wid).1 ((rangeFrom 0 (widLanes wid).2).map (fun j =>
    f (widLanes wid).1 (laneOf (widLanes wid).1 j x) (laneOf (widLanes wid).1 j y)))

/-- `IADD` (0) and `ISUB` (1) of a lane: wrapping for kinds 0 and 1, saturating for 2 and 3. -/
def sumLane (sub : Bool) (k : BitVec 2) (w a b : Nat) : Nat :=
  let sg := k.getLsbD 0
  let x := if sub then lval sg w a - lval sg w b else lval sg w a + lval sg w b
  low w (if k.getLsbD 1 then held sg w x else x)

/-- The product of two words: its low half for kinds 0 and 1, its high half for 2 and 3. -/
def product (k : BitVec 2) (a b : Word) : Word :=
  match k.toNat with
  | 2 => toWord (a.toNat * b.toNat / 2 ^ 32)
  | 3 => toWord (low 32 ((a.toInt * b.toInt) / (2 ^ 32 : Nat)))
  | _ => a * b

/-- The quotient of `IDIV`, kind 0 or 1. -/
def quotient (k : BitVec 2) (a b : Word) : Word :=
  if b = 0#32 then 0xFFFFFFFF#32
  else if k = 1#2 then
    (if a = 0x80000000#32 ∧ b = 0xFFFFFFFF#32 then 0x80000000#32 else BitVec.ofInt 32 (a.toInt.tdiv b.toInt))
  else toWord (a.toNat / b.toNat)

/-- The remainder of `IREM`, kind 0 or 1. -/
def remainder (k : BitVec 2) (a b : Word) : Word :=
  if b = 0#32 then a
  else if k = 1#2 then
    (if a = 0x80000000#32 ∧ b = 0xFFFFFFFF#32 then 0#32 else BitVec.ofInt 32 (a.toInt.tmod b.toInt))
  else toWord (a.toNat % b.toNat)

/-- The six conditions of R126. -/
def icmpHolds (cc : Nat) (x y : Int) : Bool :=
  match cc with
  | 0 => decide (x = y)
  | 1 => decide (x ≠ y)
  | 2 => decide (x < y)
  | 3 => decide (x ≤ y)
  | 4 => decide (y < x)
  | _ => decide (y ≤ x)

/-- Whether a condition holds in every lane. -/
def condAll (wid : BitVec 2) (signed : Bool) (cc x y : Nat) : Bool :=
  (rangeFrom 0 (widLanes wid).2).all (fun j =>
    icmpHolds cc (lval signed (widLanes wid).1 (laneOf (widLanes wid).1 j x)) (lval signed (widLanes wid).1 (laneOf (widLanes wid).1 j y)))

/-! ### Logic, shifts and bit fields (spec/06 R127 to R130) -/

/-- The bitwise operations of R127 on one bit. -/
def bitFn (o : BitVec 3) (a b : Bool) : Bool :=
  match o.toNat with
  | 0 => a && b
  | 1 => a || b
  | 2 => a ^^ b
  | 3 => a && !b
  | 4 => a || !b
  | 5 => !(a ^^ b)
  | 6 => !(a && b)
  | _ => !(a || b)

/-- The 32-bit shift functions 0 to 4 of R128, by an amount below 256. -/
def shift32 (f : Nat) (x : Word) (n : Nat) : Word :=
  match f with
  | 0 => toWord (x.toNat * 2 ^ n)
  | 1 => toWord (x.toNat / 2 ^ n)
  | 2 => BitVec.ofInt 32 (x.toInt / (2 ^ n : Nat))
  | 3 => toWord (x.toNat * 2 ^ (n % 32) + x.toNat / 2 ^ (32 - n % 32))
  | _ => toWord (x.toNat / 2 ^ (n % 32) + x.toNat * 2 ^ (32 - n % 32))

/-- The 64-bit shift functions 5 to 7 of R128. -/
def shift64 (f : Nat) (x : Dword) (n : Nat) : Dword :=
  match f with
  | 5 => toDword (x.toNat * 2 ^ n)
  | 6 => toDword (x.toNat / 2 ^ n)
  | _ => BitVec.ofInt 64 (x.toInt / (2 ^ n : Nat))

/-- The result of a shift in a thread: one register, or a pair for functions 5 to 7. -/
def shifted (f a d n : Nat) (t : Thread) : Thread :=
  if 5 ≤ f then writeVs t (regWrites true d (shift64 f (pairOf (vreg t a) (vreg t (a + 1))) n).toNat)
  else writeV t d (shift32 f (vreg t a) n)

/-- The unary operations 0 to 4 of R129. -/
def unary (o : BitVec 3) (x : Word) : Word :=
  match o.toNat with
  | 0 => toWord (((List.range 32).filter (fun i => x.getLsbD i)).length)
  | 1 => toWord (((List.range 32).find? (fun i => x.getMsbD i)).getD 32)
  | 2 => toWord (((List.range 32).find? (fun i => x.getLsbD i)).getD 32)
  | 3 => x.reverse
  | _ => x.extractLsb' 0 8 ++ x.extractLsb' 8 8 ++ x.extractLsb' 16 8 ++ x.extractLsb' 24 8

/-- The position of a bit field in `v[B]`. -/
def fieldPos (y : Word) : Nat := y.toNat % 32

/-- The effective length of a bit field. -/
def fieldLen (y : Word) : Nat := min (min (y.toNat / 256 % 64) 32) (32 - fieldPos y)

/-- The bit field of a word, zero-extended. -/
def fieldU (x y : Word) : Word := toWord (x.toNat / 2 ^ fieldPos y % 2 ^ fieldLen y)

/-- The bit field of a word, sign-extended; 0 for an empty field. -/
def fieldS (x y : Word) : Word :=
  if fieldLen y = 0 then 0#32 else BitVec.ofInt 32 (sval (fieldLen y) (x.toNat / 2 ^ fieldPos y % 2 ^ fieldLen y))

/-! ### Floating-point lanes (spec/07) -/

/-- The bits of a floating-point operand: a register, or a pair for FP64. -/
def fpBits (ty : FpType) (t : Thread) (r : Nat) : Nat :=
  if ty = .f64 then (pairOf (vreg t r) (vreg t (r + 1))).toNat else (vreg t r).toNat

/-- Lane `j` of a floating-point operand, as bits. -/
def fpLane (ty : FpType) (t : Thread) (r j : Nat) : Nat := laneOf (typeFmt ty).width j (fpBits ty t r)

/-- Lane `j` of a floating-point operand, as a value. -/
def fpVal (ty : FpType) (t : Thread) (r j : Nat) : FVal := fdecode (typeFmt ty) (fpLane ty t r j)

/-- The state after a floating-point bundle: lane `j` of each active thread's destination holds `f t j`, and the flags of all
lanes are ORed into `FSTAT`. -/
def fpOnward (s : State) (g : Gang) (ty : FpType) (d : Nat) (f : Thread → Nat → FRes) : State :=
  lanesOnward s g
    (fun t => writeVs t (regWrites (ty = .f64) d
      (packLanes (typeFmt ty).width ((rangeFrom 0 (fpLanes ty)).map (fun j => (f t j).bits)))))
    (orFlags ((activeThreads s g).map (fun t => orFlags ((rangeFrom 0 (fpLanes ty)).map (fun j => (f t j).flags)))))

/-- A lane of a staged result in the state after its bundle (spec/05 R106, R107, R112): it holds the result, or its element is
pending and its entry, with the result and its flags, stands in the parking queue. -/
def stagedLane (u : State) (g : Gang) (ty : FpType) (d j : Nat) (t : Thread) (r : FRes) : Prop :=
  fpLane ty t d j = r.bits % 2 ^ (typeFmt ty).width ∨
  ∃ e ∈ u.parkq, (∃ q ∈ t.pend, q.reg = d ∧ q.half = j ∧ q.seq = e.seq) ∧
    e.cluster = coreCluster g.core ∧ e.slot = g.slot ∧ e.lane = t.lpos ∧ e.reg = d ∧ e.half = j ∧ e.result = r.bits ∧ e.flags = r.flags

/-! ### The one rounding (spec/04 R78, R81, R83, R96 to R98) -/

/-- A real number by its place among the dyadic numbers: those above it and those below it. -/
structure Point where
  below : Machine.Dyadic → Prop
  above : Machine.Dyadic → Prop

/-- A dyadic number as a point. -/
def pointOf (a : Machine.Dyadic) : Point := ⟨fun d => dyLt a d = true, fun d => dyLt d a = true⟩

/-- The quotient of two dyadics, the second not 0. -/
def quotientOf (a b : Machine.Dyadic) : Point :=
  if 0 < b.m then ⟨fun d => dyLt a (dyMul d b) = true, fun d => dyLt (dyMul d b) a = true⟩
  else ⟨fun d => dyLt (dyMul d b) a = true, fun d => dyLt a (dyMul d b) = true⟩

/-- The square root of a positive dyadic. -/
def rootOf (a : Machine.Dyadic) : Point :=
  ⟨fun d => 0 < d.m ∧ dyLt a (dyMul d d) = true, fun d => d.m < 0 ∨ dyLt (dyMul d d) a = true⟩

/-- A point is a dyadic number. -/
def Point.is (x : Point) (d : Machine.Dyadic) : Prop := ¬ x.below d ∧ ¬ x.above d

/-- The number midway between two. -/
def dyMid (a b : Machine.Dyadic) : Machine.Dyadic :=
  let e := iminInt a.e b.e
  ⟨dyAt a e + dyAt b e, e - 1⟩

/-- The magnitude of a dyadic. -/
def dyAbs (a : Machine.Dyadic) : Machine.Dyadic := ⟨a.m.natAbs, a.e⟩

/-- `y` is `x` rounded into a set under a mode (spec/04 R96): nothing of the set lies between them, and `y` is on the side that the mode
names, or the nearer one, a tie going to the even one under RNE and away from zero under RNA. -/
def roundedInto (set even : Machine.Dyadic → Prop) (rm : RMode) (x : Point) (y : Machine.Dyadic) : Prop :=
  set y ∧ (x.above y → ∀ z, set z → dyLt y z = true → x.below z) ∧ (x.below y → ∀ z, set z → dyLt z y = true → x.above z) ∧
  match rm with
  | .rtz => (x.above y → 0 ≤ y.m) ∧ (x.below y → y.m ≤ 0)
  | .rup => ¬ x.above y
  | .rdn => ¬ x.below y
  | .rne => ∀ z, set z → (dyLt y z = true → ¬ x.above (dyMid y z)) ∧ (dyLt z y = true → ¬ x.below (dyMid y z)) ∧
      (dyLt y z = true ∨ dyLt z y = true → x.is (dyMid y z) → even y)
  | .rna => ∀ z, set z → (dyLt y z = true → ¬ x.above (dyMid y z)) ∧ (dyLt z y = true → ¬ x.below (dyMid y z)) ∧
      (dyLt y z = true ∨ dyLt z y = true → x.is (dyMid y z) → dyLt (dyAbs z) (dyAbs y) = true)

/-- Two dyadics are one number. -/
def dySame (a b : Machine.Dyadic) : Prop := dyLt a b = false ∧ dyLt b a = false

/-- The numbers of a format's precision with an unbounded exponent range (spec/04 R97). -/
def precise (f : FloatFmt) (d : Machine.Dyadic) : Prop := ∃ (m : Int) (e : Int), m.natAbs < 2 ^ (f.fbits + 1) ∧ dySame d ⟨m, e⟩

/-- Those whose last digit is even. -/
def evenSig (f : FloatFmt) (d : Machine.Dyadic) : Prop :=
  ∃ (m : Int) (e : Int), 2 ^ f.fbits ≤ m.natAbs ∧ m.natAbs < 2 ^ (f.fbits + 1) ∧ m % 2 = 0 ∧ dySame d ⟨m, e⟩

/-- The finite numbers of a format that encodings with a property stand for (spec/04 R81, R83). -/
def encoded (f : FloatFmt) (p : Nat → Prop) (d : Machine.Dyadic) : Prop :=
  ∃ b n m e, b < 2 ^ f.width ∧ p b ∧ fdecode f b = .fin n m e ∧ dySame d (dyOf n m e)

/-- The largest finite number of a format (spec/04 R80, R83). -/
def greatest (f : FloatFmt) : Machine.Dyadic := if f.ocp then ⟨7, 6⟩ else ⟨2 ^ (f.fbits + 1) - 1, 2 ^ (f.ebits - 1) - 1 - f.fbits⟩

/-- The smallest normal number of a format. -/
def leastNormal (f : FloatFmt) : Machine.Dyadic := ⟨1, 2 - 2 ^ (f.ebits - 1)⟩

/-- The bits of an overflow (spec/04 R97; E4M3 R83). -/
def overflowed (f : FloatFmt) (rm : RMode) (neg : Bool) : Nat :=
  let inf := (2 ^ f.ebits - 1) * 2 ^ f.fbits
  (if neg then 2 ^ (f.width - 1) else 0) +
    (if f.ocp then 126
     else match rm with
       | .rne | .rna => inf
       | .rtz => inf - 1
       | .rup => if neg then inf - 1 else inf
       | .rdn => if neg then inf else inf - 1)

/-- `r` is round(x, f, rm) of a number that is not 0 and whose sign is `neg`, with its flags (spec/04 R97): overflow and tininess are judged
with an unbounded exponent range. -/
def rounded (f : FloatFmt) (rm : RMode) (neg : Bool) (x : Point) (r : FRes) : Prop :=
  ∃ y, roundedInto (precise f) (evenSig f) rm x y ∧
    (dyLt (greatest f) (dyAbs y) = true → r = ⟨overflowed f rm neg, flagOF ||| flagNX⟩) ∧
    (dyLt (greatest f) (dyAbs y) = false → r.bits < 2 ^ f.width ∧ ∃ m e, fdecode f r.bits = .fin neg m e ∧
      roundedInto (encoded f (fun _ => True)) (encoded f (fun b => b % 2 = 0)) rm x (dyOf neg m e) ∧
      (x.is (dyOf neg m e) → r.flags = flagNone) ∧
      (¬ x.is (dyOf neg m e) → r.flags = if dyLt (dyAbs y) (leastNormal f) then flagUF ||| flagNX else flagNX))

/-- `r` is the rounded sum of values that are finite (spec/04 R97, R98): `neg` gives the sign of a sum of zeros. -/
def roundedSum (f : FloatFmt) (rm : RMode) (l : List FVal) (r : FRes) : Prop :=
  let sum := l.foldl (fun d x => dyAdd d (fdy x)) ⟨0, 0⟩
  let zero := fun (neg : Bool) => r = ⟨if neg then 2 ^ (f.width - 1) else 0, flagNone⟩
  (sum.m ≠ 0 → rounded f rm (decide (sum.m < 0)) (pointOf sum) r) ∧
  (sum.m = 0 → (∃ x ∈ l, isZero x = false) → zero (rm == .rdn)) ∧
  (l ≠ [] → (∀ x ∈ l, isZero x = true) → ((∀ x ∈ l, fneg x = true) → zero true) ∧ ((∀ x ∈ l, fneg x = false) → zero false) ∧
    ((∃ x ∈ l, fneg x = true) → (∃ x ∈ l, fneg x = false) → zero (rm == .rdn)))

/-- `r` is the sum of a list of values of `GRED`, special values among them (spec/06 R138). -/
def gangSum (f : FloatFmt) (rm : RMode) (l : List FVal) (r : FRes) : Prop :=
  let both : Prop := (∃ x ∈ l, x = .inf true) ∧ ∃ x ∈ l, x = .inf false
  ((∃ x ∈ l, isNan x = true) ∨ both → r.bits = fmtNaN f ∧
    ((∃ x ∈ l, isSnan x = true) ∨ both → r.flags = flagNV) ∧ (¬ (∃ x ∈ l, isSnan x = true) → ¬ both → r.flags = flagNone)) ∧
  (¬ (∃ x ∈ l, isNan x = true) → ¬ both → ∀ s, .inf s ∈ l → r = ⟨fmtInf f s, flagNone⟩) ∧
  ((∀ x ∈ l, isNan x = false ∧ isInf x = false) → roundedSum f rm l r)

/-- A value lies below another in the order of R154: −∞ < finite < +∞, −0 < +0. -/
def ordered (a b : FVal) : Prop :=
  match a, b with
  | .inf x, .inf y => x = true ∧ y = false
  | .inf x, .fin _ _ _ => x = true
  | .fin _ _ _, .inf y => y = false
  | .fin n m e, .fin n' m' e' => dyLt (dyOf n m e) (dyOf n' m' e') = true ∨ (m = 0 ∧ m' = 0 ∧ n = true ∧ n' = false)
  | _, _ => False

/-- `r` is the least or the greatest of encodings (spec/06 R138, spec/07 R154). -/
def extreme (f : FloatFmt) (isMax : Bool) (l : List Nat) (r : FRes) : Prop :=
  ((∃ b ∈ l, isNan (fdecode f b) = true) →
    r = ⟨fmtNaN f, if l.any (fun b => isSnan (fdecode f b)) then flagNV else flagNone⟩) ∧
  ((∀ b ∈ l, isNan (fdecode f b) = false) → r.flags = flagNone ∧ r.bits ∈ l ∧ ∀ b ∈ l,
    if isMax then ¬ ordered (fdecode f r.bits) (fdecode f b) else ¬ ordered (fdecode f b) (fdecode f r.bits))

/-- `k` is a number rounded to an integer. -/
def roundedInt (rm : RMode) (x : Point) (k : Int) : Prop :=
  roundedInto (fun d => ∃ k : Int, dySame d ⟨k, 0⟩) (fun d => ∃ k : Int, k % 2 = 0 ∧ dySame d ⟨k, 0⟩) rm x ⟨k, 0⟩

/-- The float-to-float rows of R161: code, source, destination, the widths of their lanes, the lanes, and whether it saturates. -/
def convRows : List (Nat × FloatFmt × FloatFmt × Nat × Nat × Nat × Bool) :=
  [(0, fmt32, fmt64, 32, 64, 1, false), (1, fmt64, fmt32, 64, 32, 1, false), (2, fmt32, fmt16, 32, 32, 1, false),
   (3, fmt16, fmt32, 32, 32, 1, false), (4, fmt32, fmtB16, 32, 32, 1, false), (5, fmtB16, fmt32, 32, 32, 1, false),
   (6, fmt64, fmt16, 64, 32, 1, false), (7, fmt64, fmtB16, 64, 32, 1, false), (8, fmt32, fmt16, 32, 16, 2, false),
   (9, fmt32, fmtB16, 32, 16, 2, false), (10, fmt16, fmt32, 16, 32, 2, false), (11, fmtB16, fmt32, 16, 32, 2, false),
   (12, fmt16, fmtB16, 16, 16, 2, false), (13, fmtB16, fmt16, 16, 16, 2, false), (16, fmt32, fmtE4M3, 32, 32, 1, false),
   (17, fmt32, fmtE5M2, 32, 32, 1, false), (18, fmt32, fmtE5M2, 32, 32, 1, true), (19, fmtE4M3, fmt32, 32, 32, 1, false),
   (20, fmtE5M2, fmt32, 32, 32, 1, false), (21, fmt32, fmtE4M3, 32, 8, 4, false), (22, fmt32, fmtE5M2, 32, 8, 4, false),
   (23, fmt32, fmtE5M2, 32, 8, 4, true), (24, fmtE4M3, fmt32, 8, 32, 4, false), (25, fmtE5M2, fmt32, 8, 32, 4, false),
   (26, fmtB16, fmtE4M3, 16, 8, 2, false), (27, fmtB16, fmtE5M2, 16, 8, 2, false), (28, fmtE4M3, fmtB16, 8, 16, 2, false),
   (29, fmtE5M2, fmtB16, 8, 16, 2, false)]

/-- The rows of R161 between floats and integers: code, the float, the width of the integers, and the lanes. The code given is the signed one;
the next one is unsigned. -/
def intRows : List (Nat × FloatFmt × Nat × Nat) :=
  [(32, fmt32, 32, 1), (34, fmt64, 32, 1), (36, fmt32, 64, 1), (38, fmt64, 64, 1), (40, fmt16, 16, 2), (42, fmtB16, 16, 2)]

/-- The rows from integers. -/
def ofIntRows : List (Nat × FloatFmt × Nat × Nat) :=
  [(48, fmt32, 32, 1), (50, fmt64, 32, 1), (52, fmt32, 64, 1), (54, fmt64, 64, 1), (56, fmt16, 16, 2), (58, fmtB16, 16, 2)]

/-- The integral rows. -/
def rintRows : List (Nat × FloatFmt × Nat) := [(60, fmt32, 1), (61, fmt64, 1), (62, fmt16, 2), (63, fmtB16, 2)]

/-- What a conversion between formats gives (spec/07 R162). -/
def converted (src dst : FloatFmt) (rm : RMode) (sat : Bool) (bits : Nat) (r : FRes) : Prop :=
  match fdecode src bits with
  | .nan s => r = ⟨fmtNaN dst, if s then flagNV else flagNone⟩
  | .inf n => r = if dst.ocp then ⟨fmtNaN dst, flagNV⟩
      else if sat then ⟨overflowed dst .rtz n, flagOF ||| flagNX⟩ else ⟨fmtInf dst n, flagNone⟩
  | .fin n m e =>
    if m = 0 then r = ⟨if n then 2 ^ (dst.width - 1) else 0, flagNone⟩
    else ∃ q, rounded dst rm n (pointOf (dyOf n m e)) q ∧
      r = if sat && q.flags == flagOF ||| flagNX then ⟨overflowed dst .rtz n, q.flags⟩ else q

/-- What a conversion to an integer of `w` bits gives (spec/07 R163). -/
def toInteger (src : FloatFmt) (rm : RMode) (w : Nat) (signed : Bool) (bits : Nat) (r : FRes) : Prop :=
  let lo : Int := if signed then -(2 ^ (w - 1) : Nat) else 0
  let hi : Int := if signed then (2 ^ (w - 1) : Nat) - 1 else (2 ^ w : Nat) - 1
  match fdecode src bits with
  | .nan _ => r = ⟨0, flagNV⟩
  | .inf n => r = ⟨low w (if n then lo else hi), flagNV⟩
  | .fin n m e =>
    ∃ k, roundedInt rm (pointOf (dyOf n m e)) k ∧
      (k < lo → r = ⟨low w lo, flagNV⟩) ∧ (hi < k → r = ⟨low w hi, flagNV⟩) ∧
      (lo ≤ k → k ≤ hi → r.bits = low w k ∧ (dySame (dyOf n m e) ⟨k, 0⟩ → r.flags = flagNone) ∧
        (¬ dySame (dyOf n m e) ⟨k, 0⟩ → r.flags = flagNX))

/-- What a rounding to an integral value gives (spec/07 R164). -/
def integral (f : FloatFmt) (rm : RMode) (bits : Nat) (r : FRes) : Prop :=
  match fdecode f bits with
  | .nan s => r = ⟨fmtNaN f, if s then flagNV else flagNone⟩
  | .inf n => r = ⟨fmtInf f n, flagNone⟩
  | .fin n m e =>
    ∃ k, roundedInt rm (pointOf (dyOf n m e)) k ∧ (∃ m' e', fdecode f r.bits = .fin n m' e' ∧ dySame (dyOf n m' e') ⟨k, 0⟩) ∧
      (dySame (dyOf n m e) ⟨k, 0⟩ → r.flags = flagNone) ∧ (¬ dySame (dyOf n m e) ⟨k, 0⟩ → r.flags = flagNX)

/-! ### Lane exchange (spec/06 R135 to R138) -/

/-- The position that an active thread's `SHFL` names, and the thread that supplies its value: the active one there, or itself. -/
def shflFrom (s : State) (g : Gang) (f : BitVec 2) (t : Thread) (b : Word) : Thread :=
  let j : Int :=
    match f.toNat with
    | 0 => ((b.toNat % 64 : Nat) : Int)
    | 1 => (t.lpos : Int) - (b.toNat : Int)
    | 2 => (t.lpos : Int) + (b.toNat : Int)
    | _ => ((Nat.xor t.lpos (b.toNat % 64) : Nat) : Int)
  if 0 ≤ j ∧ j < g.size then ((activeThreads s g).find? (fun u => (u.lpos : Int) == j)).getD t else t

/-- The integer reductions of R138 over a list of values: sum, least, greatest, and the bitwise operations. -/
def reduced (op : Nat) (sg : Bool) (w : Nat) (l : List Nat) : Nat :=
  match op with
  | 0 => l.foldl (· + ·) 0 % 2 ^ w
  | 1 => l.foldl (fun a b => if lval sg w b < lval sg w a then b else a) (l.headD 0)
  | 2 => l.foldl (fun a b => if lval sg w a < lval sg w b then b else a) (l.headD 0)
  | 3 => l.foldl (· &&& ·) (2 ^ w - 1)
  | 4 => l.foldl (· ||| ·) 0
  | _ => l.foldl (· ^^^ ·) 0

/-! ### Scalar instructions and special registers (spec/06 R139 to R143) -/

/-- The state after a uniform bundle that writes scalar registers. -/
def scalarsOnward (s : State) (g : Gang) (l : List (Nat × Word)) : State :=
  gangOnward s (l.foldl (fun g rw => writeS g rw.1 rw.2) g)

/-- The pair `s[r]:s[r+1]`. -/
def spair (g : Gang) (r : Nat) : Dword := pairOf (sreg g r) (sreg g (r + 1))

/-- The pair `v[r]:v[r+1]`. -/
def vpair (t : Thread) (r : Nat) : Dword := pairOf (vreg t r) (vreg t (r + 1))

/-- The 32-bit functions of `SALU`. -/
def salu (f : Nat) (x y : Word) : Word :=
  match f with
  | 0 => y
  | 1 => toWord (x.toNat + y.toNat)
  | 2 => toWord (2 ^ 32 + x.toNat - y.toNat)
  | 3 => toWord (x.toNat * y.toNat)
  | 4 => x &&& y
  | 5 => x ||| y
  | 6 => x ^^^ y
  | 7 => shift32 0 x (y.toNat % 256)
  | 8 => shift32 1 x (y.toNat % 256)
  | 9 => shift32 2 x (y.toNat % 256)
  | 10 => if x.toInt ≤ y.toInt then x else y
  | 11 => if y.toInt ≤ x.toInt then x else y
  | 12 => if x.toNat ≤ y.toNat then x else y
  | 13 => if y.toNat ≤ x.toNat then x else y
  | 14 => if x = y then 1 else 0
  | 15 => if x = y then 0 else 1
  | 16 => if x.toInt < y.toInt then 1 else 0
  | _ => if x.toNat < y.toNat then 1 else 0

/-- The 64-bit functions of `SALU`. -/
def salu64 (f : Nat) (x y : Dword) : Dword :=
  match f with
  | 18 => y
  | 19 => toDword (x.toNat + y.toNat)
  | _ => toDword (2 ^ 64 + x.toNat - y.toNat)

/-- The 32-bit functions of `SIMM`. -/
def simm (f : Nat) (x imm : Word) : Word :=
  match f with
  | 0 => imm
  | 1 => toWord (x.toNat + imm.toNat)
  | 2 => x &&& imm
  | 3 => x ||| imm
  | 4 => x ^^^ imm
  | 5 => toWord (x.toNat * 2 ^ (imm.toNat % 32))
  | _ => toWord (x.toNat / 2 ^ (imm.toNat % 32))

/-- The 32-bit gang registers of R143, each with its value. -/
def gangRegs (s : State) (g : Gang) : List (Nat × Word) :=
  [(0x002, toWord g.size), (0x003, match g.team with | some i => toWord i | none => 0xFFFFFFFF#32),
   (0x004, match gangTeam s g with | some t => toWord (t.rank * 2 ^ 30 + t.crew % 2 ^ 30) | none => 0xFFFFFFFF#32),
   (0x005, toWord g.grid), (0x010, g.rm), (0x011, g.fstat), (0x012, g.anchor),
   (0x017, toWord (((gangTeam s g).map (·.dmode)).getD 0)), (0x018, g.nfcnt), (0x020, g.escb), (0x021, g.escs),
   (0x022, g.escpr), (0x023, g.escqs), (0x024, g.trstl)]

/-- The gang with a 32-bit register written: the numbers that R143 marks RW, with the values they take (R99, R100). -/
def gangWrites (g : Gang) (w : Word) : List (Nat × Bool × Gang) :=
  [(0x010, decide (w.toNat % 8 < 5), { g with rm := toWord (w.toNat % 8) }),
   (0x011, true, { g with fstat := w &&& fstatMask }),
   (0x012, decide (-2048 ≤ w.toInt ∧ w.toInt ≤ 2047), { g with anchor := w }),
   (0x018, true, { g with nfcnt := w }), (0x020, true, { g with escb := w }), (0x021, true, { g with escs := w }),
   (0x022, true, { g with escpr := w }), (0x023, true, { g with escqs := w }), (0x024, true, { g with trstl := w })]

/-! ### Control flow (spec/17 R362 to R367) -/

/-- The threads of the executing path stand each at its target, ready, and every other path is as it was. -/
def stand (s : State) (g : Gang) (p : Path) (ps : List Path) (target : Thread → Dword) : Prop :=
  (∀ t ∈ g.threads, bitOf p.mask t.lpos = true → ∃ q ∈ ps, bitOf q.mask t.lpos = true ∧ q.pc = target t ∧ q.hold = none) ∧
  ∀ q ∈ g.paths, q.ent ≠ s.cur.path → q.mask ≠ 0 → q ∈ ps

/-- The targets of the path's threads are few enough for the path table (spec/16 R338): the path keeps its entry, and each further
target finds a free one of the eight. -/
def entriesFor (g : Gang) (p : Path) (target : Thread → Dword) : Prop :=
  ∃ l : List Dword, (∀ t ∈ g.threads, bitOf p.mask t.lpos = true → target t ∈ l) ∧ l.length + g.paths.length ≤ 9

/-- The target of a relative branch: the address of its word, and twice its offset. -/
def branchTarget {n : Nat} (s : State) (o : BitVec n) : Dword := BitVec.ofInt 64 (s.cur.wpc.toInt + 2 * o.toInt)

/-! ### Gangs that go on, are held, or leave (spec/02 R29; spec/16; spec/17) -/

/-- The executing path stands past its bundle, held or not, exactly where it has no marker, and every other path is as it was. -/
def movesOn (s : State) (g k : Gang) (m : Bool) : Prop :=
  (∀ q ∈ k.paths, q.ent = s.cur.path → q.pc = s.cur.npc) ∧
  (m = false → k.paths = (updPath g s.cur.path (pathAt s.cur.npc)).paths) ∧
  ∀ q ∈ g.paths, q.ent ≠ s.cur.path → q.mask ≠ 0 → q ∈ k.paths

/-- The state with the executing path held at an address under a condition. -/
def heldAs (s : State) (pc : Dword) (c : Cond) (a : After) : State :=
  updCur s (fun g => updPath g s.cur.path (fun p => { p with pc := pc, hold := some ⟨c, a⟩, passed := false, met := false, sub := 0 }))

/-- The state with the executing path held at its bundle, which executes again. -/
def heldHere (s : State) (c : Cond) : State :=
  updCur s (fun g => updPath g s.cur.path (fun p => { p with hold := some ⟨c, .again⟩ }))

/-- The threads of the executing path. -/
def onPath (g : Gang) (p : Path) : List Thread := g.threads.filter (fun t => bitOf p.mask t.lpos)

/-- What a barrier instruction may use (spec/16 R356). -/
def barAllowed (s : State) (g : Gang) (tm : Team) (l n : Nat) : Prop :=
  gangTeam s g = some tm ∧ ∃ gr, findGrid s g.ctx g.grid = some gr ∧ (l = 1 → (findCrew s tm.ctx tm.grid tm.crew).isSome = true) ∧
    (2 ≤ l → gr.launch.cores = true) ∧ (l = 3 → ∃ ms, sparseGet none gr.groups n = some ms ∧ tm.index ∈ ms)

/-- The threads that take part in a barrier (spec/16 R353). -/
def participants (s : State) (tm : Team) (l n : Nat) : List Nat :=
  (barTeams s tm.ctx tm.grid tm (256 * l + n)).flatMap (·.live)

/-- The size of the gang that holds a number of threads (spec/17 R376). -/
def gangFor (n : Nat) : Nat := if n ≤ 8 then 8 else if n ≤ 16 then 16 else if n ≤ 32 then 32 else 64

/-- A core's L1 has room for lines beside those it holds (spec/01 R16). -/
def l1Room (s : State) (core n : Nat) : Prop := l1Count s core + n ≤ l1Lines s core

/-- A thread can take a trap (spec/20 R434, R436): it runs no handler, and its frame can be written. -/
def trapReady (s : State) (g : Gang) (t : Thread) : Prop :=
  t.inHandler = false ∧ 16 ≤ plimOf s g t ∧ frameFault s g t = none

/-- The trap frame of a thread as its private array holds it (spec/20 R434, R435). -/
def trapFrameOf (u : State) (k : Gang) (t : Thread) : Nat := ofBytes (privRead u k t (4 * (plimOf u k t - 16)) 64)

/-- The fields of a trap frame (spec/20 R435). -/
structure Frame where
  pc   : Dword
  npc  : Dword
  addr : Dword
  link : Dword
  meet : Dword
  info : Word
  code : Nat
  pred : Nat
  lpos : Nat
  slot : Nat
  mode : Nat
  late : Bool
  team : Word
  ts   : Nat
  deriving DecidableEq, Repr

/-- The fields of the frame that a number holds. -/
def readFields (n : Nat) : Frame :=
  ⟨toDword (bitsOf n 511 448), toDword (bitsOf n 447 384), toDword (bitsOf n 383 320), toDword (bitsOf n 319 256),
    toDword (bitsOf n 255 192), toWord (bitsOf n 191 160), bitsOf n 159 152, bitsOf n 151 144, bitsOf n 143 138, bitsOf n 137 132,
    bitsOf n 131 130, bitOf n 129, toWord (bitsOf n 127 96), bitsOf n 95 32⟩

/-- The frame of a trap of the executing bundle. -/
def frameFor (s : State) (g : Gang) (t : Thread) (code : Nat) (addr npc : Dword) (info : Word) : Frame :=
  ⟨s.cur.pc, npc, addr, t.link, t.meet, info, code, t.preds.toNat % 128 + 128, t.lpos % 64, g.slot % 64, gangMode s g % 4, false,
    gangTeamReg g, coreNow s g.core % 2 ^ 64⟩

/-- The threads of the executing path have taken a trap (spec/20 R434): each is in its handler, stands at `TRAPENT`, and holds its
frame in the last 16 words of its private array. -/
def trapped (s u : State) (g k : Gang) (p : Path) (code : Nat) (addr npc : Dword) (info : Word) : Prop :=
  curGang u = some k ∧ k.threads.length = g.threads.length ∧
  ∀ (i : Nat) (t t' : Thread), g.threads[i]? = some t → k.threads[i]? = some t' → bitOf p.mask t.lpos = true →
    t' = { t with inHandler := true, link := toDword (4 * (plimOf s g t - 16)), meet := 0xFFFFFFFFFFFFFFFF#64 } ∧
    (∃ q ∈ k.paths, bitOf q.mask t.lpos = true ∧ q.hold = none ∧
      some q.pc = (findGrid s g.ctx g.grid).map (·.launch.trapent)) ∧
    ((∀ (j : Nat) (x : Thread), g.threads[j]? = some x → bitOf p.mask x.lpos = true → x.tidx = t.tidx → j = i) →
      readFields (trapFrameOf u k t') = frameFor s g t code addr npc info)

/-- The threads of the executing path have gone each to its target, and those whose target is odd into their handlers instead (spec/02
R27, spec/17 R366): `f` gives a thread that moves as the bundle leaves it. -/
def movedOrTrapped (s u : State) (g : Gang) (p : Path) (f : Thread → Thread) (target : Thread → Dword) : Prop :=
  ∃ k, curGang u = some k ∧ k.threads.length = g.threads.length ∧
  ∀ (i : Nat) (t t' : Thread), g.threads[i]? = some t → k.threads[i]? = some t' → bitOf p.mask t.lpos = true →
    if predOn s.cur t = true ∧ (target t).getLsbD 0 = true then
      t' = { t with inHandler := true, link := toDword (4 * (plimOf s g t - 16)), meet := 0xFFFFFFFFFFFFFFFF#64 } ∧
      (∃ q ∈ k.paths, bitOf q.mask t.lpos = true ∧ q.hold = none ∧
        some q.pc = (findGrid s g.ctx g.grid).map (·.launch.trapent)) ∧
      ((∀ (j : Nat) (x : Thread), g.threads[j]? = some x → bitOf p.mask x.lpos = true → x.tidx = t.tidx → j = i) →
        readFields (trapFrameOf u k t') = frameFor s g t 0x01 0 s.cur.pc s.cur.first)
    else t' = (if predOn s.cur t then f t else t) ∧
      ∃ q ∈ k.paths, bitOf q.mask t.lpos = true ∧ q.hold = none ∧ q.pc = (if predOn s.cur t then target t else s.cur.npc)

/-- The threads of the executing path stand each at its target, or, where the table of eight entries is full, have left it: on their way
to the den of that counter with k = 0 in mode OFF, and parked without an entry in the taped modes (spec/16 R342, spec/13 R298). The
other paths are as they were. -/
def divided (s u : State) (g : Gang) (p : Path) (target : Thread → Dword) : Prop :=
  ∃ k, curGang u = some k ∧
  (∀ t ∈ onPath g p, (∃ q ∈ k.paths, bitOf q.mask t.lpos = true ∧ q.pc = target t ∧ q.hold = none) ∨
    (freeEntry k = none ∧ ∃ q ∈ k.parked, bitOf q.mask t.lpos = true ∧ q.pc = target t ∧
      if gangMode s g = 0 then q.cause = .noDen ∧ q.k = 0 else q.cause = .noEntry ∧ q.released = true)) ∧
  ∀ q ∈ g.paths, q.ent ≠ s.cur.path → q.mask ≠ 0 → q ∈ k.paths

/-- What a launch must have for the traps of a path's threads to be taken (spec/20 R434, R436). -/
def handlerReady (s : State) (g : Gang) (p : Path) : Prop :=
  (∃ gr, findGrid s g.ctx g.grid = some gr ∧ gr.launch.trapent ≠ 0) ∧ (∀ q ∈ g.parked, q.uid < s.nextId) ∧ g.paths.length ≤ 8 ∧ p.mask ≠ 0 ∧
  l1Room s g.core 1024 ∧ ∀ t ∈ onPath g p, trapReady s g t

/-! ### Accesses to memory (spec/11, spec/12) -/

/-- The address of an access of the `LM` format (spec/12 R258): base pair, offset register, immediate. -/
def accAddr (s : State) (g : Gang) (t : Thread) (sb a : Nat) : Nat :=
  ((spair g (2 * sb)).toNat + (vreg t a).toNat +
    (match s.cur.imm with
     | none => 0
     | some i => (i.signExtend 64).toNat)) % 2 ^ 64

/-- The bytes that a size code moves (spec/12 R259). -/
def accBytes (z : BitVec 3) : Nat := [1, 1, 2, 2, 4, 8, 16, 32].getD z.toNat 0

/-- The registers that a size code names from `d` on (spec/12 R259). -/
def accRegs (z : BitVec 3) (d : Nat) : List Nat := (List.range ([1, 1, 1, 1, 1, 2, 4, 8].getD z.toNat 0)).map (fun k => d + k)

/-- The number that a store of a size code writes (spec/12 R259): the low bits of its registers, the first lowest. -/
def storeVal (t : Thread) (z : BitVec 3) (d : Nat) : Nat :=
  packLanes 32 ((accRegs z d).map (fun r => (vreg t r).toNat)) % 2 ^ (8 * accBytes z)

/-- The word that register `k` of a load gets from its bytes, as a number `n` (spec/12 R259). -/
def loadWord (z k n : Nat) : Word :=
  match z with
  | 1 => BitVec.ofInt 32 (sval 8 n)
  | 3 => BitVec.ofInt 32 (sval 16 n)
  | _ => toWord (n / 2 ^ (32 * k))

/-- The executing path after its accesses have been issued: held until they are done, or past its bundle, where a marker holds it for
the results. -/
def issuedPath (s : State) (g k : Gang) (m held : Bool) : Prop :=
  (∀ q ∈ k.paths, q.ent = s.cur.path → q.pc = s.cur.npc ∧ (held = true → q.hold.isSome = true)) ∧
  (held = false → k.paths = (updPath g s.cur.path (pathOn m s.cur.npc)).paths)

/-- The accesses of a bundle are on their way (spec/02 R30, spec/12 R261): memory and registers are as they were, and each active
thread's parts belong to an outstanding operation whose destinations are in flight in the thread. -/
def accessIssued (s u : State) (g : Gang) (m held : Bool) (kind : Thread → OutKind) (parts : Thread → List LanePart) (dst : List Nat) : Prop :=
  ∃ k, curGang u = some k ∧ u.mem = s.mem ∧ u.hostMem = s.hostMem ∧ u.teams = s.teams ∧ issuedPath s g k m held ∧
    k.sregs = g.sregs ∧ k.threads.length = g.threads.length ∧
    ∀ (i : Nat) (t t' : Thread), g.threads[i]? = some t → k.threads[i]? = some t' → t'.v = t.v ∧ t'.preds = t.preds ∧
      (isActive s g t = true → ∃ o ∈ k.out, o.kind = kind t ∧ (∀ x ∈ parts t, x ∈ o.parts) ∧
        ∀ r ∈ dst, ∃ f ∈ t'.inflight, f.op = o.id ∧ f.reg = r ∧ f.data = false ∧ f.result = none)

/-- The stores of a bundle have been issued (spec/11 R233, spec/12 R262): those to device memory and to own windows stand in the
core's buffer, the others await their destination, those to a peer's memory in pieces of at most eight bytes where a thread's access there
is misaligned. -/
def storesIssued (s u : State) (g : Gang) (m : Bool) (parts : Thread → List LanePart) : Prop :=
  ∃ k, curGang u = some k ∧ u.mem = s.mem ∧ u.hostMem = s.hostMem ∧ u.teams = s.teams ∧ movesOn s g k m ∧ k.sregs = g.sregs ∧
    k.threads.map (·.v) = g.threads.map (·.v) ∧
    ∀ t ∈ activeThreads s g, ∀ x ∈ parts t,
      (ownTarget x = true → ∃ b ∈ u.wbuf, b.core = g.core ∧ b.slot = g.slot ∧ x ∈ b.parts) ∧
      (ownTarget x = false → ∃ o ∈ k.out, o.kind = .external ∧ (x ∈ o.parts ∨ ∀ y ∈ halfParts x, y ∈ o.parts))

/-- The core's buffer can take the stores of a bundle. -/
def bufRoom (s : State) (g : Gang) : Prop := ∀ n, n ≤ (activeThreads s g).length + 1 → curSlot s g (.bufferSlot n) = true

/-! ### Regions and the tape (spec/13 R283 to R296) -/

/-- The bytes of an element of a region (spec/13 R284). -/
def primalSize (r : Region) : Nat := if r.etype = 0 then 4 else 2

/-- An access has the element's size and alignment (spec/13 R287): the codes of `.b32` and `.uh` are the sizes. -/
def fits (r : Region) (z : BitVec 3) (va : Nat) : Prop := z.toNat = primalSize r ∧ va % primalSize r = 0

/-- An access is ordinary: its team is OFF, or it touches no open region (spec/13 R286). -/
def untaped (s : State) (g : Gang) (n va : Nat) : Prop := gangMode s g = 0 ∨ regionHit s g.ctx va n = none

/-- The active threads whose access of a size code touches an open region. -/
def taping (s : State) (g : Gang) (z : BitVec 3) (va : Thread → Nat) : List Thread :=
  (activeThreads s g).filter (fun t => (regionHit s g.ctx (va t) (accBytes z)).isSome)

/-- The checks of a store that touches entry `n` pass (spec/13 R287, R292, R296): each thread's access lies outside every region, or is
an element of the entry in device memory; the core has no buffered store, and its buffer has room. -/
def tapedChecks (s : State) (g : Gang) (z : BitVec 3) (va : Thread → Nat) (trs : Thread → List (Nat × Trans)) (n : Nat) (r : Region) : Prop :=
  taping s g z va ≠ [] ∧ regionOf s g.ctx n = some r ∧ bufRoom s g ∧ (∀ b ∈ s.wbuf, b.core ≠ g.core) ∧ (g.threads.map (·.lpos)).Nodup ∧
  ∀ t ∈ activeThreads s g,
    checkRuns s g (leader s g va (accBytes z) t) t .write (pageRuns (va t) (accBytes z)) = .ok (trs t) ∧
    (regionHit s g.ctx (va t) (accBytes z) = none ∨
     regionHit s g.ctx (va t) (accBytes z) = some (n, r) ∧ fits r z (va t) ∧ ∀ x ∈ trs t, pteTgt x.2.pte = 0)

/-- The lines that threads touch. -/
def touchedLines (ts : List Thread) (va : Thread → Nat) (ls : List Nat) : Prop := ∀ l, l ∈ ls ↔ ∃ t ∈ ts, va t / 128 * 128 = l

/-- Threads touch halfword `h` of a line with accesses of `n` bytes (spec/13 R289). -/
def touches (ts : List Thread) (va : Thread → Nat) (n l h : Nat) : Prop :=
  ∃ t ∈ ts, va t / 128 * 128 = l ∧ va t % 128 ≤ 2 * h + 1 ∧ 2 * h < va t % 128 + n

/-- A store takes a trap of the whole path before any effect (spec/13 R293, R296), where its threads can take it: nothing is buffered, no
tape pointer and no head moves. -/
def storeTraps (o : Res) (s : State) (g : Gang) (p : Path) (code line n : Nat) : Prop :=
  activeThreads s g = onPath g p → handlerReady s g p →
    ∃ u k, o = .next u ∧ trapped s u g k p code (toDword line) s.cur.pc (toWord n) ∧
      u.wbuf = s.wbuf ∧ k.tapeHead = g.tapeHead ∧ regionOf u g.ctx n = regionOf s g.ctx n

/-- The records of a gang's chain from a head on, at most `n`, as they are read at home (spec/13 R290, R296). -/
def chainOf (s : State) (g : Gang) : Nat → Nat → List (List Byte) → Prop
  | 0, _, bs => bs = []
  | n + 1, head, bs => (head = 0 ∧ bs = []) ∨ ∃ rt b rest, head ≠ 0 ∧ deviceRuns s g .read (pageRuns head 160) = .ok rt ∧
      b = readRuns s g.core rt head 160 ∧ bs = b :: rest ∧ chainOf s g n (fieldAt b 24 8) rest

/-- A record is the one that a line of entry `n` pops (spec/13 R296): its LINE, HMASK and REGION. -/
def popsRecord (b : List Byte) (line n : Nat) (halves : Nat → Prop) : Prop :=
  fieldAt b 16 8 = line ∧ (∀ h, h < 64 → (bitOf (fieldAt b 8 8) h = true ↔ halves h)) ∧ bitsOf (fieldAt b 0 4) 24 21 = n

/-- What a cell gives the register of an inverted store (spec/13 R295). -/
def cellValue (s : State) (g : Gang) (r : Region) (pa : Nat) : FRes :=
  axRead r.anchor (if r.etype = 0 then fmt32 else fmtB16) (dynRM g) (sval 128 (ofBytes (memBytes s pa 16)))

/-- What a thread of an inverted store gets: the cell's value for the lowest thread that names the element, +0 for the others. -/
def adjointOf (s : State) (g : Gang) (r : Region) (ts : List Thread) (va pa : Thread → Nat) (t : Thread) : FRes :=
  if (ts.find? (fun x => va x == va t)).map (·.lpos) = some t.lpos then cellValue s g r (pa t) else ⟨0, flagNone⟩

/-- The physical lines and cells of an inverted store are apart: no two lines share a byte, no two elements' cells, and no cell a line. -/
def apart (ts : List Thread) (va lpa cpa : Thread → Nat) : Prop :=
  ∀ t ∈ ts, ∀ x ∈ ts, (va t / 128 * 128 = va x / 128 * 128 ↔ lpa t = lpa x) ∧ (va t = va x → cpa t = cpa x) ∧
    (va t ≠ va x → cpa t + 16 ≤ cpa x ∨ cpa x + 16 ≤ cpa t) ∧ (cpa t + 16 ≤ lpa x ∨ lpa x + 128 ≤ cpa t)

/-- The atomics with their operations, for a width and registers (spec/12 R267, R268). -/
def atomics (w : Bool) (b : BitVec 6) (a d : BitVec 7) (sat m : Bool) : List (Instr × AtomicOp) :=
  [(.atom 0 w b a d m, .add), (.atom 1 w b a d m, .and), (.atom 2 w b a d m, .or), (.atom 3 w b a d m, .xor),
   (.atom 4 w b a d m, .xchg), (.atom 5 w b a d m, .smin), (.atom 6 w b a d m, .smax), (.atom 7 w b a d m, .umin),
   (.atomxUmax w b a d m, .umax), (.atomxCas w b a d m, .cas), (.atomxFadd w b a d m, .fadd), (.atomxFadda w b a sat m, .fadda sat),
   (.atomxLr w a d m, .lr), (.atomxSc w b a d m, .sc), (.atomxFmax w b a d m, .fmax), (.atomxFmin w b a d m, .fmin)]

/-- The bytes of an atomic's operand. -/
def atomSize (op : AtomicOp) (w : Bool) : Nat :=
  match op with
  | .fadda _ => 16
  | _ => if w then 8 else 4

/-- The destination registers of an atomic. -/
def atomDst (op : AtomicOp) (w : Bool) (d : Nat) : List Nat :=
  match op with
  | .fadda _ => []
  | .sc => [d]
  | _ => if w then [d, d + 1] else [d]

/-- The data of an atomic: the operand, and the new value of a compare and swap. -/
def atomOpnd (op : AtomicOp) (w : Bool) (t : Thread) (b : Nat) : Dword × Dword :=
  match op with
  | .lr => (0, 0)
  | .cas => if w then (vpair t b, vpair t (b + 2)) else ((vreg t b).zeroExtend 64, (vreg t (b + 1)).zeroExtend 64)
  | _ => (if w then vpair t b else (vreg t b).zeroExtend 64, 0)

/-- The value that an atomic writes over the old one, none where it writes nothing (spec/12 R267, R268, R269). `held` says that the
thread's reservation stands. -/
def atomNew (op : AtomicOp) (w : Nat) (rm : RMode) (anchor : Int) (held : Bool) (old x y : Nat) : Option Nat :=
  let f := if w = 64 then fmt64 else fmt32
  let b := x % 2 ^ w
  match op with
  | .add => some ((old + b) % 2 ^ w)
  | .and => some (old &&& b)
  | .or => some (old ||| b)
  | .xor => some (old ^^^ b)
  | .xchg => some b
  | .smin => some (if sval w b < sval w old then b else old)
  | .smax => some (if sval w old < sval w b then b else old)
  | .umin => some (if b < old then b else old)
  | .umax => some (if old < b then b else old)
  | .cas => if old = b then some (y % 2 ^ w) else none
  | .fadd => some (faddVal f rm (fdecode f old) (fdecode f b)).bits
  | .fadda sat =>
    let r := axAdd anchor sat (sval 128 old) (fdecode f b)
    if r.n = sval 128 old then none else some (low 128 r.n)
  | .lr => none
  | .sc => if held then some b else none
  | .fmax => if (fminmaxBits f true old b).bits = old then none else some (fminmaxBits f true old b).bits
  | .fmin => if (fminmaxBits f false old b).bits = old then none else some (fminmaxBits f false old b).bits

/-- What an atomic returns: the old value, or, for a store conditional, whether it wrote. -/
def atomRet (op : AtomicOp) (held : Bool) (old : Nat) : Nat :=
  match op with
  | .sc => if held then 1 else 0
  | .fadda _ => 0
  | _ => old

/-- The destination entries of an operation given their results. -/
def withResults (id : Nat) (f : Nat → Word) (l : List Inflight) : List Inflight :=
  l.map (fun e => if e.op = id ∧ e.data = false then { e with result := some (f e.reg) } else e)

/-- A result of an operation that was performed at tick `n` in the step to `u` comes once the 48 ticks of a message have passed (spec/14
R308): the operation's next event brings its gang to one of which `q` holds, and memory is as it was. -/
def comes (u : State) (n core slot id : Nat) (q : Gang → Prop) : Prop :=
  ∀ m, n + 48 ≤ m → ∃ v k, exec (.loadReturn core slot id) { u with dtb := m } = .next v ∧ findGang v core slot = some k ∧ v.mem = u.mem ∧
    (∀ y ∈ k.out, y.id ≠ id) ∧ q k

/-- Nothing of an operation comes to its gang within the 19 ticks that a message takes at least (spec/14 R308). -/
def notYet (u : State) (n core slot id : Nat) : Prop :=
  ∀ m, m < n + 19 → exec (.loadReturn core slot id) { u with dtb := m } = .next { u with dtb := m }

/-- The bytes of a run within a line that a core sees: those of a copy under its own buffered stores, the youngest first (spec/11 R233). -/
def seenBytes (s : State) (core : Nat) (copy : List Byte) (pa n : Nat) : List Byte :=
  (List.range n).map (fun k => (bufferByte s.wbuf core (pa + k)).getD (copy.getD ((pa + k) % 128) memDefault))

/-- No cache serves a core, and none of its stores is on its way. -/
def uncached (s : State) (core : Nat) : Prop :=
  (∀ c ∈ s.lines, c.holder ≠ .l1 core ∧ c.holder ≠ .rdc (coreDie core)) ∧ (∀ b ∈ s.wbuf, b.core ≠ core) ∧
  ∀ l ∈ s.privLines, l.core ≠ core

/-- The bundle's stores have left the path's registers and `u`'s gang is the executing one past it (spec/02 R30, R31): its registers hold
what they held, and the data of its stores may still be in flight. -/
def storedOn (s u : State) (g : Gang) : Prop :=
  ∃ k, curGang u = some k ∧ k.paths = (updPath g s.cur.path (pathAt s.cur.npc)).paths ∧ k.sregs = g.sregs ∧
    k.threads.map (·.v) = g.threads.map (·.v)

/-! ### Engine commands (spec/02 R30; spec/08 R169; spec/10 R203; spec/12 R272) -/

/-- A posting: the instruction, its command, its engine (0 matrix, 1 row, 2 copy), the scalar registers of its operand blocks, and the
checks at issue. -/
structure Posting where
  instr : Instr
  kind  : EngKind
  unit  : Nat
  regs  : List Nat
  check : State → Gang → EngCmd → PostCheck

/-- The registers of a block of pairs from an operand field. -/
def pairRegs (f : BitVec 8) (pairs : Nat) : List Nat := (List.range (2 * pairs)).map (fun k => 2 * f.toNat + k)

/-- The matrix engine's postings. -/
def matrixPostings (t : BitVec 6) (q p : BitVec 8) (m : Bool) : List Posting :=
  let c := fun (op : Nat) (s : State) (g : Gang) (c : EngCmd) => matrixCheck s g c op
  let r := fun n => pairRegs p n ++ pairRegs q 1
  [⟨.mma t q p m, .mma, 0, r 2, c 0⟩, ⟨.mmat t q p m, .mmat, 0, r 2, c 0⟩, ⟨.wload t q p m, .wload, 0, r 1, c 0⟩,
   ⟨.accxSt t q p m, .accx, 0, r 2, c 0⟩, ⟨.accxLd t q p m, .accx, 0, r 2, c 1⟩, ⟨.accxAdd t q p m, .accx, 0, r 2, c 2⟩,
   ⟨.accxZero t q p m, .accx, 0, r 2, c 3⟩, ⟨.quant t q p m, .qnt 0, 0, r 4, c 0⟩, ⟨.deq t q p m, .qnt 1, 0, r 4, c 0⟩,
   ⟨.qpair t q p m, .qnt 2, 0, r 4, c 0⟩, ⟨.cvtt t q p m, .qnt 3, 0, r 4, c 0⟩]

/-- The postings of the row engine and of the copy engine context. -/
def otherPostings (t : BitVec 6) (q p : BitVec 8) (m : Bool) : List Posting :=
  let c := fun (sub : Nat) (s : State) (g : Gang) (c : EngCmd) => rowCheck s g c sub
  let r := pairRegs p 4 ++ pairRegs q 4
  let y := pairRegs p 2 ++ pairRegs q 6
  [⟨.rowopRedSum t q p m, .row 0, 1, r, c 0⟩, ⟨.rowopRedMax t q p m, .row 0, 1, r, c 1⟩, ⟨.rowopRedMin t q p m, .row 0, 1, r, c 2⟩,
   ⟨.rowopRedLse t q p m, .row 0, 1, r, c 3⟩, ⟨.rowopRedNorm t q p m, .row 0, 1, r, c 4⟩,
   ⟨.rowopRedSsq t q p m, .row 0, 1, r, c 5⟩, ⟨.rowopSmx t q p m, .row 1, 1, r, c 0⟩, ⟨.rowopStat t q p m, .row 2, 1, r, c 0⟩,
   ⟨.rowopUpd t q p m, .row 3, 1, r, c 0⟩, ⟨.copyLoad t q p m, .copy 0, 2, y, copyCheck⟩, ⟨.copyStore t q p m, .copy 1, 2, y, copyCheck⟩,
   ⟨.copyMove t q p m, .copy 2, 2, y, copyCheck⟩, ⟨.copyNetred t q p m, .copy 3, 2, pairRegs p 2 ++ pairRegs q 1, copyCheck⟩]

/-- A command holds what its posting captured: who posted it and where, its timeline, its guard, its rounding mode and anchor, and
the values of its scalar registers. -/
def captured (s : State) (g : Gang) (x : Posting) (t : BitVec 6) (c : EngCmd) : Prop :=
  c.kind = x.kind ∧ c.tl = t.toNat ∧ c.ctx = g.ctx ∧ c.grid = g.grid ∧ c.team = g.team ∧ c.gang = g.uid ∧ c.core = g.core ∧
  c.cluster = coreCluster g.core ∧ c.pc = s.cur.pc ∧ c.guard = (if s.cur.pfx.gen then some s.cur.pfx.gslot.toNat else none) ∧
  c.rm = dynRM g ∧ c.anchor = g.anchor ∧ c.ops = x.regs.map (fun r => (r, sreg g r)) ∧ c.unit = 0 ∧ c.err = false

/-- The posting's checks pass. -/
def postable (s : State) (g : Gang) (x : Posting) (t : BitVec 6) : Prop := x.check s g (makeCmd s g x.kind t.toNat x.regs 0) = .ok

/-- The path of a posting is past its bundle, its registers in flight until the path's marker; memory, tiles and teams' storage are as
before. -/
def posted (s u : State) (g : Gang) (x : Posting) (id : Nat) (m : Bool) : Prop :=
  u.mem = s.mem ∧ u.hostMem = s.hostMem ∧ u.tiles = s.tiles ∧ u.weights = s.weights ∧ u.grids = s.grids ∧
  ∃ k, curGang u = some k ∧ k.threads = g.threads ∧ k.sregs = g.sregs ∧ k.paths = (updPath g s.cur.path (pathAt s.cur.npc)).paths ∧
    (m = true → k.sflight = []) ∧ (m = false → ∀ r ∈ x.regs, ∃ f ∈ k.sflight, f.op = id ∧ f.reg = r ∧ f.data = true)

/-- The state's teams, gangs and memory after a bundle are those of a state that the rules give; its engine queues may have sampled
their guards. -/
def sampledOnward (u t : State) : Prop :=
  u.teams = t.teams ∧ u.gangs = t.gangs ∧ u.grids = t.grids ∧ u.mem = t.mem ∧ u.hostMem = t.hostMem ∧
  u.cmds.map (·.id) = t.cmds.map (·.id)

/-! ### Continuation records (spec/16 R349) -/

/-- The fields of a continuation record. -/
def recordIs (n : Nat) (regs : List (Nat × Word)) (wval pc meet link : Dword) (tidx preds wkind widx : Nat) : Prop :=
  (∀ (k r : Nat) (w : Word), regs[k]? = some (r, w) → bitsOf n (543 + 32 * k) (512 + 32 * k) = w.toNat ∧ bitsOf n (22 + 7 * k) (16 + 7 * k) = r) ∧
  bitsOf n 447 384 = wval.toNat ∧ bitsOf n 383 320 = pc.toNat ∧ bitsOf n 319 256 = meet.toNat ∧ bitsOf n 255 192 = link.toNat ∧
  bitsOf n 191 150 = tidx ∧ bitsOf n 149 136 = 0 ∧ bitsOf n 135 128 = preds ∧ bitsOf n 15 11 = regs.length ∧ bitsOf n 10 9 = wkind ∧
  bitOf n 8 = false ∧ bitsOf n 7 0 = widx

/-- The control word of a legal `SUSP` (spec/17 R371). -/
def suspLegal (vregs : Nat) (spc : Dword) (w : Nat) : Prop :=
  bitsOf w 31 23 = 0 ∧ bitOf w 15 = false ∧ spc.getLsbD 0 = false ∧ bitsOf w 14 10 ≤ 16 ∧ bitsOf w 22 16 + bitsOf w 14 10 ≤ vregs ∧
  bitsOf w 1 0 ≠ 3 ∧ (bitsOf w 1 0 = 0 → bitsOf w 9 2 < 64) ∧ (bitsOf w 1 0 = 2 → bitsOf w 9 2 = 0)

/-- The threads of a gang that do not act in the executing bundle. -/
def idleThreads (s : State) (g : Gang) : List Thread := g.threads.filter (fun t => (activeThreads s g).all (fun a => a.lpos != t.lpos))

/-- The active threads have left their gang and their team for good: the others, alike in what `f` keeps, stand at the next bundle
(spec/16 R357, spec/17 R368, R372). -/
def gone (s u : State) (g : Gang) (f : Thread → Thread) : Prop :=
  (∀ k, curGang u = some k → k.threads.map f = (idleThreads s g).map f ∧
    ∀ q ∈ k.paths, q.ent = s.cur.path → q.pc = s.cur.npc ∧ q.hold = none) ∧
  (idleThreads s g ≠ [] → (curGang u).isSome = true) ∧
  (idleThreads s g = [] → (∀ b ∈ s.wbuf, ¬ (b.core = g.core ∧ b.slot = g.slot)) → (∀ c ∈ s.cmds, c.gang ≠ g.uid) →
    (∀ e ∈ s.parkq, ¬ (e.cmd = 0 ∧ e.cluster * 4 + e.core = g.core ∧ e.slot = g.slot)) → findGang u g.core g.slot = none) ∧
  ∀ i tm, g.team = some i → gangTeam s g = some tm → ∃ tm', findTeam u g.ctx g.grid i = some tm' ∧
    tm'.live = tm.live.filter (fun x => (g.threads.filter (fun t => !((idleThreads s g).contains t))).all (fun t => t.uid != x)) ∧
    (tm'.live = [] → tm'.retired = true)

/-- A thread apart from its reservation. -/
def butReservation (t : Thread) : Thread := { t with lr := none }

/-! ### Engines at work (spec/08, spec/09, spec/12) -/

/-- A command of the state goes on as another one of its name. -/
def goesOn (u : State) (c c' : EngCmd) : Prop := c' ∈ u.cmds ∧ c'.id = c.id ∧ c'.kind = c.kind ∧ c'.ops = c.ops ∧ c'.tl = c.tl

/-- A command past one unit of its `n`: finished with the last one. -/
def unitDone (c c' : EngCmd) (n : Nat) : Prop := c'.unit = c.unit + 1 ∧ c'.stage = if n ≤ c.unit + 1 then .finished else c.stage

/-- Every byte of device memory is as it was, but for a run of bytes. -/
def sameBut (s u : State) (a n : Nat) : Prop := ∀ x, (x < a ∨ a + n ≤ x) → memByte u x = memByte s x

/-- A fault queue whose next record and size are whole records (spec/20 R423). -/
def wholeRecords (x : Ctx) : Prop := x.fqwr.toNat % 64 = 0 ∧ x.fqsize.toNat % 64 = 0

/-- Every byte of device memory is as it was, but for a tenant's fault queue, where its records stand (spec/20 R423, R424). -/
def sameButRecords (s u : State) (x : Ctx) : Prop := wholeRecords x → sameBut s u x.fqbase.toNat x.fqsize.toNat

/-- A die's wait table has room, and nobody waits for it (spec/20 R421, spec/18 R397). -/
def waitFree (s : State) (die : Nat) : Prop := waitCount s die < 4096 ∧ ∀ w ∈ s.waiters, w.queue ≠ 5000 + die

/-- A command held on a translation fault (spec/08 R176, spec/20 R421): nothing of its unit has happened, and it waits under a key.
Only the tenant's fault records may have been written. -/
def unitHeld (s u : State) (c : EngCmd) : Prop :=
  (memoriesWf s → ∀ x, findCtx s c.ctx = some x → sameButRecords s u x) ∧
  u.hostMem = s.hostMem ∧ u.tiles = s.tiles ∧ u.weights = s.weights ∧ u.teams = s.teams ∧
  ∃ c' key, goesOn u c c' ∧ c'.unit = c.unit ∧ c'.key = some key ∧
    ∃ w ∈ u.waits, w.die = clusterDie c.cluster ∧ w.ctx = c.ctx ∧ w.byPage = key.1 ∧ w.key = key.2 ∧ .engine c.id ∈ w.items

/-- A command has completed (spec/11 R250): it is gone, its timeline stands one higher, and its error status is counted. -/
def completed (s u : State) (c : EngCmd) (err : Bool) : Prop :=
  u.mem = s.mem ∧ u.hostMem = s.hostMem ∧ u.tiles = s.tiles ∧ u.weights = s.weights ∧ (∀ x ∈ u.cmds, x.id ≠ c.id) ∧
  ∀ gr, findGrid s c.ctx c.grid = some gr → sparseWf (0, 0) gr.tls = true → ∃ gr', findGrid u c.ctx c.grid = some gr' ∧
    ∀ n, sparseGet (0, 0) gr'.tls n =
      if n = c.tl then ((sparseGet (0, 0) gr.tls n).1 + 1, (sparseGet (0, 0) gr.tls n).2 + (if err then 1 else 0))
      else sparseGet (0, 0) gr.tls n

/-- A command may complete as far as its queue's order allows: its elements, writes and messages have come to their end, and no fault
and no trace record holds it. -/
def settled (s : State) (c : EngCmd) : Prop := cmdSettled s c = true ∧ c.key = none ∧ unitTraceHeld s (cmdSource c) = false

/-- A command whose unit fails on a denied access (spec/19 R414): it does nothing more and will complete with error status; a running
row command has its status word left to write (spec/08 R179). -/
def unitFails (s u : State) (c : EngCmd) : Prop :=
  u.mem = s.mem ∧ u.hostMem = s.hostMem ∧ u.tiles = s.tiles ∧ u.weights = s.weights ∧
  ∃ c', goesOn u c c' ∧ if isRow c && c.stage == .running then c'.stage = .finished ∧ c'.err = true else c'.stage = .dropped true

/-- What a unit does when its pages do not translate: an access that its target denies fails the command, any other fault, that of a
denied walk among them, holds it (spec/19 R414, R415). -/
def unitFaults (s u : State) (c : EngCmd) (f : EngFault) : Prop :=
  let denied := f.1 = .access ∧ walkDenied s (clusterDie c.cluster) c.ctx f.2.1 = false
  (denied → unitFails s u c) ∧ (¬denied → waitFree s (clusterDie c.cluster) → unitHeld s u c)

/-- The runs that the next unit of a `WLOAD`, `ACCX` or `QNT` command reads and writes (spec/10 R208, R214 to R221). -/
def unitExtents (c : EngCmd) : List Extent :=
  match c.kind with
  | .wload => [⟨0, blockPair c 0 + 4096 * c.unit, min 4096 (wlLen c - 4096 * c.unit), .read⟩]
  | .accx =>
    let row := fun (a : Acc) => (⟨accSpace c, accElemAddr c c.unit 0, accN c * elemBytes (accFmt c), a⟩ : Extent)
    match accOp c with
    | 0 => row .write :: (if accBeta c = 0 then [] else [row .read])
    | 1 => [row .read]
    | _ => []
  | _ =>
    let i := c.unit - qRows c
    let len := fun (n : Nat) => rowBytes (qDfmt c) n
    if qRows c ≤ c.unit then qExtents c true i (qTdst c + i * len (qRows c)) (len (qRows c))
    else qExtents c false c.unit (qDst c + c.unit * qDpitch c) (len (qCols c))

/-- A pass that the engine has run for its time (spec/09 R187). -/
def passRun (s : State) (c : EngCmd) : Prop :=
  findCmd s c.id = some c ∧ isPass c = true ∧ c.stage = .running ∧ c.unit = 1 ∧ c.aux.getD 1 0 + passClocks c ≤ s.clk

/-- The gangs with the posting gang of a command changed. -/
def postersWith (s : State) (c : EngCmd) (f : Gang → Gang) : List Gang := s.gangs.map (fun h => if h.uid = c.gang then f h else h)

/-- The fields of a row command's status word (spec/08 R179). -/
def statusIs (n : Nat) (c : EngCmd) : Prop :=
  bitsOf n 127 96 = c.aux.getD 2 0 % 2 ^ 32 ∧ bitsOf n 95 64 = c.aux.getD 1 0 % 2 ^ 32 ∧ bitsOf n 63 32 = c.aux.getD 0 0 % 2 ^ 32 ∧
  bitsOf n 31 16 = 0 ∧ bitOf n 15 = c.err ∧ bitOf n 14 = (c.aux.getD 3 0 % 2 == 1) ∧ bitOf n 13 = (c.aux.getD 1 0 != 0) ∧
  bitsOf n 12 5 = 0 ∧ bitsOf n 4 0 = c.flags.toNat

/-! ### Reports, launches and nodes (spec/03, spec/18, spec/20) -/

/-- The outcome of a meaning that writes one fault record and does nothing else. -/
def reports (o : Res) (s : State) (ctx rkind code : Nat) (addr : Dword) : Prop :=
  ∃ f : FaultRec, o = .next (postFault s ctx f) ∧ f.rkind = rkind ∧ f.code = code ∧ f.addr = addr

/-- The node that a descriptor arms (spec/18 R386, R387). -/
def armed (d : Nat) (x : Node) : Prop :=
  x.kind = bitsOf d 1 0 ∧ x.src.toNat = bitsOf d 511 448 ∧ x.dst.toNat = bitsOf d 447 384 ∧ x.len = bitsOf d 383 320 ∧
  x.count = bitsOf d 175 160 ∧ x.state = 1 ∧ x.early = none ∧ x.succ.length = bitsOf d 191 188 ∧
  ∀ k m, x.succ[k]? = some m → m = bitsOf d (203 + 12 * k) (192 + 12 * k)

/-- A node table in canonical form. -/
def nodesWf (s : State) (ctx : Nat) : Prop := ∀ c, findCtx s ctx = some c → sparseWf none c.nodes = true

/-- A den's threads have formed a gang (spec/16 R346, R347): in the slot found for it, all on one path at the den's address, each with
the state it entered the den with. -/
def formed (u : State) (d : Den) (core slot pipe size : Nat) (ts : List Thread) : Prop :=
  (∀ x ∈ u.dens, x.id ≠ d.id) ∧ ∃ h ∈ u.gangs, h.core = core ∧ h.slot = slot ∧ h.pipe = pipe ∧ h.size = size ∧ h.ctx = d.ctx ∧ h.grid = d.grid ∧
    h.threads = (ts.zip (List.range ts.length)).map (fun x => { x.1 with lpos := x.2 }) ∧
    ∃ q, h.paths = [q] ∧ q.pc = d.pc ∧ q.hold = none ∧ q.mask = maskOf (List.range ts.length)

/-! ### Management (spec/20 R427 to R430) -/

/-- The state in which a management command has its completion entered, which waits for accesses and for parked elements. -/
def endedAfter (r : BitVec 512) (t : State) (status : Nat) (ids : List Nat) (elems : List (Nat × Word)) (held : Bool) : State :=
  { t with completions := t.completions ++
    [⟨toDword (bitsOf r.toNat 127 64), bitsOf r.toNat 63 48, bitsOf r.toNat 7 0, status, bitsOf r.toNat 47 40, ids, elems, held⟩] }

/-- The state in which a management command has its completion entered. -/
def ended (r : BitVec 512) (t : State) (status : Nat) (ids : List Nat) (held : Bool) : State := endedAfter r t status ids [] held

/-- A well-formed record of a command, in a device that has started and is not fenced: its operands lie in the listed fields, every other bit is 0. -/
def legalRecord (s : State) (r : BitVec 512) (op : Nat) (used : List (Nat × Nat)) : Prop :=
  s.inRom = false ∧ s.fenced = false ∧ bitsOf r.toNat 7 0 = op ∧ bitsOf r.toNat 39 8 = 0 ∧ bitsOf r.toNat 47 40 ≤ 31 ∧ bitsOf r.toNat 126 112 = 0 ∧
  ∀ i, 128 ≤ i → (∀ f ∈ used, ¬ (f.2 ≤ i ∧ i ≤ f.1)) → bitOf r.toNat i = false

/-- A size of a ring or a queue: none, or a power of two from 4 KiB to 2^`m` bytes. -/
def ringSize (v m : Nat) : Bool := v == 0 || (List.range (m + 1)).any (fun k => decide (12 ≤ k) && v == 2 ^ k)

/-- The registers of a context that `REGWR` may write: number, whether it takes the value, and the context with the value
(spec/20 R430). -/
def ctxRegs (c : Ctx) (v : Nat) : List (Nat × Bool × Ctx) :=
  let base := decide (v % 4096 = 0 ∧ v < deviceBytes)
  let size := ringSize v
  let off := fun (z : Dword) => decide (v % 64 = 0 ∧ v < z.toNat)
  [(0x000, decide (1 ≤ v % 16 ∧ v % 16 ≤ 7), { c with leasecfg := toDword (v % 16) }),
   (0x010, decide (v % 4 ≠ 3), { c with trcfg := toDword (bitsOf v 43 32 * 2 ^ 32 + v % 16) }),
   (0x011, base, { c with trbase := toDword v, trwr := 0, trrd := 0, trPend := [] }), (0x012, size 30, { c with trsize := toDword v, trwr := 0, trrd := 0, trPend := [] }),
   (0x014, off c.trsize, { c with trrd := toDword v }), (0x018, base, { c with denbase := toDword v }),
   (0x019, decide (v % 4096 = 0), { c with densize := toDword v }), (0x020, base, { c with fqbase := toDword v, fqwr := 0, fqrd := 0, fqPend := [] }),
   (0x021, size 24, { c with fqsize := toDword v, fqwr := 0, fqrd := 0, fqPend := [] }), (0x023, off c.fqsize, { c with fqrd := toDword v }),
   (0x024, true, { c with fqctl := toDword (v % 2) }), (0x028, decide (v % 65536 = 0 ∧ v < 2 ^ 48), { c with logbase := toDword v })]

/-- The registers of the device that `REGWR` may write. -/
def devRegs (s : State) (v : Nat) : List (Nat × Bool × State) :=
  let base := decide (v % 4096 = 0 ∧ v < deviceBytes)
  [(0x101, decide (bitsOf v 5 4 ≠ 3), { s with dtbSrc := bitsOf v 5 4 }), (0x102, decide (1 ≤ v ∧ v ≤ 65536), { s with lnktmo := toDword v }),
   (0x110, base, { s with systrbase := toDword v, systrwr := 0, systrrd := 0, sysPend := [] }),
   (0x111, ringSize v 30, { s with systrsize := toDword v, systrwr := 0, systrrd := 0, sysPend := [] }),
   (0x113, decide (v % 64 = 0 ∧ v < s.systrsize.toNat), { s with systrrd := toDword v })]

/-- The registers of a context that `REGRD` reads. -/
def ctxReads (c : Ctx) : List (Nat × Dword) :=
  [(0x000, c.leasecfg), (0x010, c.trcfg), (0x011, c.trbase), (0x012, c.trsize), (0x013, c.trwr), (0x014, c.trrd), (0x018, c.denbase),
   (0x019, c.densize), (0x020, c.fqbase), (0x021, c.fqsize), (0x022, c.fqwr), (0x023, c.fqrd), (0x024, c.fqctl), (0x028, c.logbase)]

/-! ### Escalated elements and soft errors (spec/05 R112, R117, R119; spec/20 R443) -/

/-- The element of a vector destination has resolved: its lane holds the result, or, after an uncorrectable error, the canonical NaN in
poisoned registers, in the thread that waits for it; the flags reach `FSTAT`, one escalation is counted, its entry is gone, and no thread of
the cluster, in a gang or in a den, waits for it. -/
def laneResolved (s u : State) (g : Gang) (e : ParkEntry) : Prop :=
  let bits := if e.soft then fmtNaN (codeFmt e.fmt) else e.result
  u.mem = s.mem ∧ (∀ x ∈ u.parkq, ¬ (x.cluster = e.cluster ∧ x.seq = e.seq)) ∧
  (∀ h ∈ u.gangs, coreCluster h.core = e.cluster → ∀ t ∈ h.threads, ∀ q ∈ t.pend, q.seq ≠ e.seq) ∧
  (∀ d ∈ u.dens, d.cluster = e.cluster → ∀ t n, DenItem.thread t n ∈ d.items → ∀ q ∈ t.pend, q.seq ≠ e.seq) ∧
  ∃ k, findGang u (e.cluster * 4 + e.core) e.slot = some k ∧ k.fstat = fstatOr g.fstat (if e.soft then flagNone else e.flags) ∧
    k.escb = g.escb + (if e.stage = 2 then 0 else 1) ∧ k.escs = g.escs + (if e.stage = 2 then 1 else 0) ∧ k.sregs = g.sregs ∧
    k.paths = g.paths ∧ k.threads.length = g.threads.length ∧
    ∀ (i : Nat) (t t' : Thread), g.threads[i]? = some t → k.threads[i]? = some t' →
      ((∀ q ∈ t.pend, q.seq ≠ e.seq) → t' = t) ∧
      ((∃ q ∈ t.pend, q.seq = e.seq) → t'.pend = t.pend.filter (fun q => q.seq != e.seq) ∧ t'.preds = t.preds ∧
        (e.soft = false → t'.poison = t.poison) ∧ (e.soft = true → e.reg ∈ t'.poison ∧ (e.fmt = 1 → e.reg + 1 ∈ t'.poison)) ∧
        (∀ r, r ≠ e.reg → (e.fmt = 1 → r ≠ e.reg + 1) → vreg t' r = vreg t r) ∧
        (e.fmt = 0 → vreg t' e.reg = toWord bits) ∧
        (e.fmt = 1 → pairOf (vreg t' e.reg) (vreg t' (e.reg + 1)) = toDword bits) ∧
        ((e.fmt = 2 ∨ e.fmt = 3) → e.half ≤ 1 → laneOf 16 e.half (vreg t' e.reg).toNat = bits % 2 ^ 16 ∧
          laneOf 16 (1 - e.half) (vreg t' e.reg).toNat = laneOf 16 (1 - e.half) (vreg t e.reg).toNat))

/-- The tile element of a matrix command has resolved: it holds the result, or the canonical NaN of a soft error, and is pending no
more, and its flags and its error are kept for the command. -/
def tileResolved (s u : State) (c : EngCmd) (e : ParkEntry) : Prop :=
  u.mem = s.mem ∧ (∀ x ∈ u.parkq, ¬ (x.cluster = e.cluster ∧ x.seq = e.seq)) ∧
  let key := (e.cluster * 16 + e.tile) * 2 ^ 14 + e.elem
  tileAt u key = (if e.soft then fmtNaN fmt32 else e.result) % 2 ^ 32 ∧ key ∉ u.tilePend ∧
  (∀ k, k ≠ key → tileAt u k = tileAt s k) ∧
  ∃ c', findCmd u c.id = some c' ∧ c'.flags = c.flags ||| (if e.soft then flagNone else e.flags) ∧ c'.err = (c.err || e.soft) ∧
    c'.stage = c.stage

/-- One uncorrectable error of a class is counted, and memory is as it was but for the records in the fault queue of the context that owns
what was struck, if one does (spec/20 R444). -/
def softCounted (s u : State) (cls : Nat) (owner : Option Nat) : Prop :=
  (sparseWf 0 s.softUnc = true → ∀ k, sparseGet 0 u.softUnc k =
    if k = cls then (sparseGet 0 s.softUnc k + 1) % 2 ^ 32 else sparseGet 0 s.softUnc k) ∧
  u.hostMem = s.hostMem ∧ u.tiles = s.tiles ∧ u.cmds = s.cmds ∧
  (memoriesWf s → match owner.bind (findCtx s) with
    | none => u.mem = s.mem
    | some c => sameButRecords s u c)

/-! ### Encodings (spec/02; spec/08 R172, R180; spec/10 R215) -/

/-- The instruction that a word decodes to: `ROWOP.red` and `ACCX` name their operation in a register, so the decoder reads the first of
theirs. -/
def wordInstr : Instr → Instr
  | .rowopRedMax t q p m | .rowopRedMin t q p m | .rowopRedLse t q p m | .rowopRedNorm t q p m | .rowopRedSsq t q p m => .rowopRedSum t q p m
  | .accxLd t q p m | .accxAdd t q p m | .accxZero t q p m => .accxSt t q p m
  | i => i

end Sys2Proof.Claims
end

