-- ==== Sys2Proof/Certificates/Slice0/Obligations.lean ====
section
/-! DEFINITION. The statements about the model. Each names the rules of spec/ that it rests on; OBLIGATIONS.json lists them. -/

open Sys2Proof Sys2Proof.Machine Sys2Proof.Claims

/-! ### Vector integer instructions (spec/06) -/

/-- `IADD` and `ISUB`, with their short forms, run to their end: each active thread's lanes take the exact sum or difference,
wrapped or saturated by the kind, under every width override (R122 to R124; R40 for the short forms). Everything but the active
threads' destination and the path is as before.

`IMIN`, `IMAX`, `ICMP` and `ICMPI` run to their end: the lesser or greater of each pair of lanes, and a predicate that is 1
where the condition holds in every lane (R124, R126, R134). Kinds 0 and 1 are unsigned and signed (R123); `ICMPI` compares with
its immediate, signed for conditions 0 to 5 and unsigned for 8 to 13. -/
def Obligations.IntegerSumsAndComparisonsComplete : Prop :=
  (∀ (s : State) (g : Gang) (p : Path), Executes s g p →
     (∀ (k : BitVec 2) (b a d : BitVec 7) (m : Bool),
       exec (.iadd k b a d m) s = .next (lanesOnward s g (fun t => writeVs t (regWrites (s.cur.pfx.wid = 1#2) d.toNat
         (lanewise s.cur.pfx.wid (sumLane false k) (opnd s.cur.pfx.wid t a.toNat) (opnd s.cur.pfx.wid t b.toNat)))) flagNone) ∧
       exec (.isub k b a d m) s = .next (lanesOnward s g (fun t => writeVs t (regWrites (s.cur.pfx.wid = 1#2) d.toNat
         (lanewise s.cur.pfx.wid (sumLane true k) (opnd s.cur.pfx.wid t a.toNat) (opnd s.cur.pfx.wid t b.toNat)))) flagNone)) ∧
     (∀ (a d : BitVec 5) (m : Bool),
       exec (.iaddShort a d m) s =
         .next (lanesOnward s g (fun t => writeV t d.toNat (vreg t d.toNat + vreg t a.toNat)) flagNone) ∧
       exec (.isubShort a d m) s =
         .next (lanesOnward s g (fun t => writeV t d.toNat (vreg t d.toNat - vreg t a.toNat)) flagNone))) ∧
  (∀ (s : State) (g : Gang) (p : Path), Executes s g p →
     (∀ (k : BitVec 2) (b a d : BitVec 7) (m : Bool), k.toNat < 2 →
       exec (.imin k b a d m) s = .next (lanesOnward s g (fun t => writeVs t (regWrites (s.cur.pfx.wid = 1#2) d.toNat
         (lanewise s.cur.pfx.wid (fun w x y => if lval (k = 1#2) w x ≤ lval (k = 1#2) w y then x else y)
           (opnd s.cur.pfx.wid t a.toNat) (opnd s.cur.pfx.wid t b.toNat)))) flagNone) ∧
       exec (.imax k b a d m) s = .next (lanesOnward s g (fun t => writeVs t (regWrites (s.cur.pfx.wid = 1#2) d.toNat
         (lanewise s.cur.pfx.wid (fun w x y => if lval (k = 1#2) w x < lval (k = 1#2) w y then y else x)
           (opnd s.cur.pfx.wid t a.toNat) (opnd s.cur.pfx.wid t b.toNat)))) flagNone)) ∧
     (∀ (k : BitVec 2) (b a : BitVec 7) (c : BitVec 4) (q : BitVec 3) (m : Bool), k.toNat < 2 → c.toNat < 6 →
       exec (.icmp k b a c q m) s = .next (lanesOnward s g (fun t => writeP t q.toNat
         (condAll s.cur.pfx.wid (k = 1#2) c.toNat (opnd s.cur.pfx.wid t a.toNat) (opnd s.cur.pfx.wid t b.toNat))) flagNone)) ∧
     (∀ (i : BitVec 10) (a : BitVec 7) (c : BitVec 4) (q : BitVec 3) (m : Bool), c.toNat % 8 < 6 →
       (s.cur.pfx.wid = 0#2 → exec (.icmpi i a c q m) s = .next (lanesOnward s g (fun t => writeP t q.toNat
         (icmpHolds (c.toNat % 8) (lval (c.toNat < 8) 32 (vreg t a.toNat).toNat) (lval (c.toNat < 8) 32 (immLI i s.cur.imm).toNat)))
         flagNone)) ∧
       (s.cur.pfx.wid = 1#2 → exec (.icmpi i a c q m) s = .next (lanesOnward s g (fun t => writeP t q.toNat
         (icmpHolds (c.toNat % 8) (lval (c.toNat < 8) 64 (pairOf (vreg t a.toNat) (vreg t (a.toNat + 1))).toNat)
           (lval (c.toNat < 8) 64 ((immLI i s.cur.imm).signExtend 64).toNat))) flagNone))))

/-- `IMUL`, `IMAD`, `IDIV`, `IREM` and the short `IMUL` run to their end with the product, the sum into a register or a pair, the
quotient and the remainder of R124 and R125, division by zero included; `IDIV` and `IREM` have kinds 0 and 1 (R123), and their words decode to them (R125). -/
def Obligations.IntegerProductsAndQuotientsComplete : Prop :=
  (∀ (s : State) (g : Gang) (p : Path), Executes s g p →
    (∀ (k : BitVec 2) (b a d : BitVec 7) (m : Bool),
      exec (.imul k b a d m) s =
        .next (lanesOnward s g (fun t => writeV t d.toNat (product k (vreg t a.toNat) (vreg t b.toNat))) flagNone) ∧
      (k.toNat < 2 → exec (.imad k b a d m) s =
        .next (lanesOnward s g (fun t => writeV t d.toNat (vreg t a.toNat * vreg t b.toNat + vreg t d.toNat)) flagNone)) ∧
      (k = 2#2 → exec (.imad k b a d m) s = .next (lanesOnward s g (fun t => writeVs t (regWrites true d.toNat
        ((vreg t a.toNat).zeroExtend 64 * (vreg t b.toNat).zeroExtend 64 + pairOf (vreg t d.toNat) (vreg t (d.toNat + 1))).toNat))
        flagNone)) ∧
      (k = 3#2 → exec (.imad k b a d m) s = .next (lanesOnward s g (fun t => writeVs t (regWrites true d.toNat
        ((vreg t a.toNat).signExtend 64 * (vreg t b.toNat).signExtend 64 + pairOf (vreg t d.toNat) (vreg t (d.toNat + 1))).toNat))
        flagNone)) ∧
      (k.toNat < 2 → exec (.idiv k b a d m) s =
        .next (lanesOnward s g (fun t => writeV t d.toNat (quotient k (vreg t a.toNat) (vreg t b.toNat))) flagNone) ∧
       exec (.irem k b a d m) s =
        .next (lanesOnward s g (fun t => writeV t d.toNat (remainder k (vreg t a.toNat) (vreg t b.toNat))) flagNone))) ∧
    (∀ (a d : BitVec 5) (m : Bool), exec (.imulShort a d m) s =
      .next (lanesOnward s g (fun t => writeV t d.toNat (vreg t d.toNat * vreg t a.toNat)) flagNone))) ∧
  ∀ (k : BitVec 2) (b a d : BitVec 7) (m : Bool), k.toNat < 2 →
    decodeWord (.long (lvWord 0x0E#6 (0#1 ++ k) b a d m)) = some (.idiv k b a d m) ∧
    decodeWord (.long (lvWord 0x0E#6 (1#1 ++ k) b a d m)) = some (.irem k b a d m)

/-- `LOGIC`, the logical immediate forms, the logical short forms, `MOV` and `PLOP` run to their end: each bit of the result is the
operation of the same bits of the operands (R127, R133, R134, R40).

`SHIFT`, `SHFI` and the short shifts run to their end with the arithmetic of R128: multiplication and floor division by a power
of two, and rotation; an amount of the full width or more gives 0, or all sign bits (R128, R134, R40).

The words of `LOGIC` and `SHIFT` decode to them, the 64-bit shifts only with even `D` and `A` (R127, R128). -/
def Obligations.LogicAndShiftsComplete : Prop :=
  (∀ (s : State) (g : Gang) (p : Path), Executes s g p →
     (∀ (o : BitVec 3) (b a d : BitVec 7) (m : Bool), ∃ f : Thread → Word,
       exec (.logic o b a d m) s = .next (lanesOnward s g (fun t => writeV t d.toNat (f t)) flagNone) ∧
       ∀ t i, i < 32 → (f t).getLsbD i = bitFn o ((vreg t a.toNat).getLsbD i) ((vreg t b.toNat).getLsbD i)) ∧
     (∀ (i : BitVec 10) (a d : BitVec 7) (m : Bool),
       exec (.andi i a d m) s =
         .next (lanesOnward s g (fun t => writeV t d.toNat (vreg t a.toNat &&& immLI i s.cur.imm)) flagNone) ∧
       exec (.ori i a d m) s =
         .next (lanesOnward s g (fun t => writeV t d.toNat (vreg t a.toNat ||| immLI i s.cur.imm)) flagNone) ∧
       exec (.xori i a d m) s =
         .next (lanesOnward s g (fun t => writeV t d.toNat (vreg t a.toNat ^^^ immLI i s.cur.imm)) flagNone)) ∧
     (∀ (a d : BitVec 5) (m : Bool),
       exec (.mov a d m) s = .next (lanesOnward s g (fun t => writeV t d.toNat (vreg t a.toNat)) flagNone) ∧
       exec (.andShort a d m) s =
         .next (lanesOnward s g (fun t => writeV t d.toNat (vreg t d.toNat &&& vreg t a.toNat)) flagNone) ∧
       exec (.orShort a d m) s =
         .next (lanesOnward s g (fun t => writeV t d.toNat (vreg t d.toNat ||| vreg t a.toNat)) flagNone) ∧
       exec (.xorShort a d m) s =
         .next (lanesOnward s g (fun t => writeV t d.toNat (vreg t d.toNat ^^^ vreg t a.toNat)) flagNone)) ∧
     (∀ (o b a d : BitVec 3) (m : Bool),
       exec (.plop o b a d m) s =
         .next (lanesOnward s g (fun t => writeP t d.toNat (bitFn o (readP t a.toNat) (readP t b.toNat))) flagNone))) ∧
  (∀ (s : State) (g : Gang) (p : Path), Executes s g p →
     (∀ (o : BitVec 3) (b a d : BitVec 7) (m : Bool),
       exec (.shift o b a d m) s =
         .next (lanesOnward s g (fun t => shifted o.toNat a.toNat d.toNat ((vreg t b.toNat).toNat % 256) t) flagNone)) ∧
     (∀ (o : BitVec 3) (n : BitVec 6) (a d : BitVec 7) (m : Bool),
       exec (.shfi o n a d m) s = .next (lanesOnward s g (fun t => shifted o.toNat a.toNat d.toNat n.toNat t) flagNone)) ∧
     (∀ (a d : BitVec 5) (m : Bool),
       exec (.shlShort a d m) s =
         .next (lanesOnward s g (fun t => shifted 0 d.toNat d.toNat ((vreg t a.toNat).toNat % 256) t) flagNone) ∧
       exec (.shrlShort a d m) s =
         .next (lanesOnward s g (fun t => shifted 1 d.toNat d.toNat ((vreg t a.toNat).toNat % 256) t) flagNone))) ∧
  ∀ (o : BitVec 3) (b a d : BitVec 7) (m : Bool), decodeWord (.long (lvWord 0x0F#6 o b a d m)) = some (.logic o b a d m) ∧
    decodeWord (.long (lvWord 0x10#6 o b a d m)) =
      if o.toNat < 5 ∨ (a.toNat % 2 = 0 ∧ d.toNat % 2 = 0) then some (.shift o b a d m) else none

/-- `BITS`, `BFE.U`, `BFE.S` and `BFI` run to their end: the counts, reversals and bit fields of R129 and R130, empty fields and
fields cut at bit 31 included.

`SEL`, `LEA`, `IADDI`, `MOVIL`, `MOVIH`, `MOVI5` and `NOP` run to their end: the selected register, the 64-bit address, the sums
with an immediate, the immediates, and nothing (R131, R132, R134, R40). A word of `SEL` decodes to it, whatever its predicate (R131). -/
def Obligations.BitFieldsAndSelectionsComplete : Prop :=
  (∀ (s : State) (g : Gang) (p : Path), Executes s g p →
     (∀ (o : BitVec 3) (a d : BitVec 7) (m : Bool), o.toNat < 5 →
       exec (.bits o a d m) s = .next (lanesOnward s g (fun t => writeV t d.toNat (unary o (vreg t a.toNat))) flagNone)) ∧
     (∀ (b a d : BitVec 7) (m : Bool),
       exec (.bfeU b a d m) s =
         .next (lanesOnward s g (fun t => writeV t d.toNat (fieldU (vreg t a.toNat) (vreg t b.toNat))) flagNone) ∧
       exec (.bfeS b a d m) s =
         .next (lanesOnward s g (fun t => writeV t d.toNat (fieldS (vreg t a.toNat) (vreg t b.toNat))) flagNone) ∧
       ∃ f : Thread → Word,
         exec (.bfi b a d m) s = .next (lanesOnward s g (fun t => writeV t d.toNat (f t)) flagNone) ∧
         ∀ t i, i < 32 → (f t).getLsbD i =
           if fieldPos (vreg t b.toNat) ≤ i ∧ i < fieldPos (vreg t b.toNat) + fieldLen (vreg t b.toNat)
           then (vreg t a.toNat).getLsbD (i - fieldPos (vreg t b.toNat)) else (vreg t d.toNat).getLsbD i)) ∧
  (∀ (s : State) (g : Gang) (p : Path), Executes s g p →
     (∀ (q : BitVec 3) (b a d : BitVec 7) (m : Bool),
       exec (.sel q b a d m) s = .next (lanesOnward s g (fun t =>
         writeV t d.toNat (if readP t q.toNat then vreg t a.toNat else vreg t b.toNat)) flagNone)) ∧
     (∀ (x : Bool) (c : BitVec 2) (b a d : BitVec 7) (m : Bool),
       exec (.lea x c b a d m) s = .next (lanesOnward s g (fun t => writeVs t (regWrites true d.toNat
         ((pairOf (vreg t a.toNat) (vreg t (a.toNat + 1))).toNat +
           (if x then (vreg t b.toNat).signExtend 64 else (vreg t b.toNat).zeroExtend 64).toNat * 2 ^ c.toNat))) flagNone)) ∧
     (∀ (i : BitVec 10) (a d : BitVec 7) (m : Bool),
       (s.cur.pfx.wid = 0#2 → exec (.iaddi i a d m) s =
         .next (lanesOnward s g (fun t => writeV t d.toNat (vreg t a.toNat + immLI i s.cur.imm)) flagNone)) ∧
       (s.cur.pfx.wid = 1#2 → exec (.iaddi i a d m) s = .next (lanesOnward s g (fun t => writeVs t (regWrites true d.toNat
         (pairOf (vreg t a.toNat) (vreg t (a.toNat + 1)) + (immLI i s.cur.imm).signExtend 64).toNat)) flagNone))) ∧
     (∀ (i : BitVec 17) (d : BitVec 7) (m : Bool),
       exec (.movil i d m) s = .next (lanesOnward s g (fun t => writeV t d.toNat (i.signExtend 32)) flagNone)) ∧
     (∀ (i : BitVec 16) (d : BitVec 7) (m : Bool), exec (.movih i d m) s = .next (lanesOnward s g (fun t =>
       writeV t d.toNat (toWord (i.toNat * 2 ^ 16 + (vreg t d.toNat).toNat % 2 ^ 16))) flagNone)) ∧
     (∀ (i d : BitVec 5) (m : Bool),
       exec (.movi5 i d m) s = .next (lanesOnward s g (fun t => writeV t d.toNat (i.signExtend 32)) flagNone)) ∧
     (∀ m : Bool, exec (.nop m) s = .next (lanesOnward s g (fun t => t) flagNone))) ∧
  ∀ (q : BitVec 3) (b a d : BitVec 7) (m : Bool), decodeWord (.long (lvWord 0x15#6 q b a d m)) = some (.sel q b a d m)

/-- p7 reads 1 in every thread, a write to it is discarded, and its negation selects no thread (R36). -/
def Obligations.PredicateSevenReadsOne : Prop :=
  (∀ t : Thread, readP t 7 = true) ∧
  ∀ (s : State) (g : Gang) (p : Path), Executes s g p →
    (∀ (b a d : BitVec 7) (m : Bool),
      exec (.sel 7 b a d m) s = .next (lanesOnward s g (fun t => writeV t d.toNat (vreg t a.toNat)) flagNone)) ∧
    (∀ (o b a : BitVec 3) (m : Bool), exec (.plop o b a 7 m) s = .next (lanesOnward s g (fun t => t) flagNone)) ∧
    (∀ (k : BitVec 2) (b a : BitVec 7) (c : BitVec 4) (m : Bool), k.toNat < 2 → c.toNat < 6 →
      exec (.icmp k b a c 7 m) s = .next (lanesOnward s g (fun t => t) flagNone)) ∧
    (s.cur.pfx.pen = true → s.cur.pfx.pneg = true → s.cur.pfx.pidx = 7 → activeThreads s g = [] ∧
      ∀ (o : BitVec 3) (b a d : BitVec 7) (m : Bool), exec (.logic o b a d m) s = .next (lanesOnward s g (fun t => t) flagNone))

/-! ### Floating-point instructions (spec/07, spec/08) -/

/-- `FADD`, `FSUB`, `FMUL`, `FNMUL`, `FMA`, `FMS`, `FDIV`, `FSQRT`, with the short forms of three of them, run to their end in every
type: lane by lane the value of R150 in the rounding mode of R146, the flags of all lanes ORed into `FSTAT` (R101). What those values are is
stated by FloatingValuesAreRoundedOnce. -/
def Obligations.FloatingArithmeticCompletes : Prop :=
  ∀ (s : State) (g : Gang) (p : Path), Executes s g p →
    (∀ (ty : FpType) (b a d : BitVec 7) (m : Bool),
      let f := typeFmt ty
      let rm := curRM s g
      let x := fun (t : Thread) (j : Nat) => fpVal ty t a.toNat j
      let y := fun (t : Thread) (j : Nat) => fpVal ty t b.toNat j
      let z := fun (t : Thread) (j : Nat) => fpVal ty t d.toNat j
      exec (.fadd ty b a d m) s = .next (fpOnward s g ty d.toNat (fun t j => faddVal f rm (x t j) (y t j))) ∧
      exec (.fsub ty b a d m) s = .next (fpOnward s g ty d.toNat (fun t j => faddVal f rm (x t j) (fnegate (y t j)))) ∧
      exec (.fmul ty b a d m) s = .next (fpOnward s g ty d.toNat (fun t j => fmulVal f rm false (x t j) (y t j))) ∧
      exec (.fnmul ty b a d m) s = .next (fpOnward s g ty d.toNat (fun t j => fmulVal f rm true (x t j) (y t j))) ∧
      exec (.fma ty b a d m) s = .next (fpOnward s g ty d.toNat (fun t j => fmaVal f rm (x t j) (y t j) (z t j))) ∧
      exec (.fms ty b a d m) s = .next (fpOnward s g ty d.toNat (fun t j => fmaVal f rm (x t j) (y t j) (fnegate (z t j)))) ∧
      exec (.fdiv ty b a d m) s = .next (fpOnward s g ty d.toNat (fun t j => fdivVal f rm (x t j) (y t j))) ∧
      exec (.fsqrt ty a d m) s = .next (fpOnward s g ty d.toNat (fun t j => fsqrtVal f rm (x t j)))) ∧
    (∀ (a d : BitVec 5) (m : Bool),
      let rm := dynRM g
      let x := fun (t : Thread) (j : Nat) => fpVal .f32 t d.toNat j
      let y := fun (t : Thread) (j : Nat) => fpVal .f32 t a.toNat j
      exec (.faddShort a d m) s = .next (fpOnward s g .f32 d.toNat (fun t j => faddVal fmt32 rm (x t j) (y t j))) ∧
      exec (.fsubShort a d m) s = .next (fpOnward s g .f32 d.toNat (fun t j => faddVal fmt32 rm (x t j) (fnegate (y t j)))) ∧
      exec (.fmulShort a d m) s = .next (fpOnward s g .f32 d.toNat (fun t j => fmulVal fmt32 rm false (x t j) (y t j))))

/-- The sums, products, quotients and square roots of finite operands are the exact number rounded once: one of the two numbers of the
format beside it, on the side that the mode names, or the nearer one, with ties to even or away from zero, with overflow and tininess judged
at an unbounded exponent range, and with the signs of zero sums of R98 (R78, R96 to R98, R150).

The special operands of R151, row by row, in every format and mode: NaNs, infinities that cancel, zero times infinity, the invalid and
infinite quotients, square roots below −0, and the infinities and zeros that remain. `x`, `y` and `z` are a lane's operands a, b and d;
`FSUB` adds the negation of b, `FMS` that of d, and `FNMUL` negates (`n`). Each row's flags are those of its lane. The root of a zero is
that zero (R150). -/
def Obligations.FloatingValuesAreRoundedOnce : Prop :=
  (∀ (f : FloatFmt) (rm : RMode) (x y z : FVal), f ∈ [fmt32, fmt64, fmt16, fmtB16] →
    (∀ v ∈ [x, y, z], isNan v = false ∧ isInf v = false) →
    let sign := xor (fneg x) (fneg y)
    let times := dyMul (fdy x) (fdy y)
    let product := FVal.fin sign times.m.natAbs times.e
    roundedSum f rm [x, y] (faddVal f rm x y) ∧ roundedSum f rm [product, z] (fmaVal f rm x y z) ∧
    (∀ n : Bool, let r := fmulVal f rm n x y
      (times.m ≠ 0 → rounded f rm (xor n sign) (pointOf (if n then dyNeg times else times)) r) ∧
      (times.m = 0 → r = ⟨if xor n sign then 2 ^ (f.width - 1) else 0, flagNone⟩)) ∧
    (isZero y = false → (isZero x = false → rounded f rm sign (quotientOf (fdy x) (fdy y)) (fdivVal f rm x y)) ∧
      (isZero x = true → fdivVal f rm x y = ⟨if sign then 2 ^ (f.width - 1) else 0, flagNone⟩)) ∧
    (isZero x = false → fneg x = false → rounded f rm false (rootOf (fdy x)) (fsqrtVal f rm x))) ∧
  ∀ (f : FloatFmt) (rm : RMode) (n : Bool) (x y z : FVal),
    let invalid : FRes := ⟨fmtNaN f, flagNV⟩
    let quiet : FRes := ⟨fmtNaN f, flagNone⟩
    let sign := xor (fneg x) (fneg y)
    let zeroTimesInf : Prop := isZero x ∧ isInf y ∨ isInf x ∧ isZero y
    ((isSnan x ∨ isSnan y) → faddVal f rm x y = invalid ∧ fmulVal f rm n x y = invalid ∧ fdivVal f rm x y = invalid) ∧
    (isSnan x → fsqrtVal f rm x = invalid) ∧ ((isSnan x ∨ isSnan y ∨ isSnan z) → fmaVal f rm x y z = invalid) ∧
    (zeroTimesInf → fmaVal f rm x y z = invalid) ∧
    (¬ isSnan x → ¬ isSnan y → (isNan x ∨ isNan y) → faddVal f rm x y = quiet ∧ fmulVal f rm n x y = quiet ∧ fdivVal f rm x y = quiet) ∧
    (¬ isSnan x → isNan x → fsqrtVal f rm x = quiet) ∧
    (¬ isSnan x → ¬ isSnan y → ¬ isSnan z → ¬ zeroTimesInf → (isNan x ∨ isNan y ∨ isNan z) → fmaVal f rm x y z = quiet) ∧
    (isInf x → isInf y → fneg x ≠ fneg y → faddVal f rm x y = invalid) ∧
    (¬ isNan x → ¬ isNan y → ¬ zeroTimesInf → (isInf x ∨ isInf y) → isInf z → fneg z ≠ sign → fmaVal f rm x y z = invalid) ∧
    (zeroTimesInf → fmulVal f rm n x y = invalid) ∧
    ((isZero x ∧ isZero y ∨ isInf x ∧ isInf y) → fdivVal f rm x y = invalid) ∧
    ((isFinNz x ∨ isInf x) → fneg x → fsqrtVal f rm x = invalid) ∧
    (isFinNz x → isZero y → fdivVal f rm x y = ⟨fmtInf f sign, flagDZ⟩) ∧
    (isInf x → ¬ isNan y → (isInf y → fneg x = fneg y) →
      faddVal f rm x y = ⟨fmtInf f (fneg x), flagNone⟩ ∧ faddVal f rm y x = ⟨fmtInf f (fneg x), flagNone⟩) ∧
    (¬ isNan x → ¬ isNan y → (isInf x ∨ isInf y) → ¬ zeroTimesInf → fmulVal f rm n x y = ⟨fmtInf f (xor n sign), flagNone⟩) ∧
    (¬ isNan x → ¬ isNan y → ¬ isNan z → (isInf x ∨ isInf y) → ¬ zeroTimesInf → (isInf z → fneg z = sign) →
      fmaVal f rm x y z = ⟨fmtInf f sign, flagNone⟩) ∧
    (¬ isNan x → ¬ isNan y → ¬ isInf x → ¬ isInf y → isInf z → fmaVal f rm x y z = ⟨fmtInf f (fneg z), flagNone⟩) ∧
    (isInf x → ¬ isNan y → ¬ isInf y → fdivVal f rm x y = ⟨fmtInf f sign, flagNone⟩) ∧
    (¬ isNan x → ¬ isInf x → isInf y → fdivVal f rm x y = ⟨fmtSign f sign, flagNone⟩) ∧
    (isInf x → ¬ fneg x → fsqrtVal f rm x = ⟨fmtInf f false, flagNone⟩) ∧
    (isZero x → fsqrtVal f rm x = ⟨fmtSign f (fneg x), flagNone⟩)

/-- `FMIN`, `FMAX`, `FCMP`, `FCMP.sig`, `FSGN` and `FCLASS`, with the short `FMIN` and `FMAX`, run to their end in every type, with
the values of R154, R155, R158 and R159; a comparison holds only where it holds in every lane.

`FREM`, `FSCALE`, `FLOGB` and `FCVT` run to their end: the exact remainder (R152), the scaled value rounded once (R156), the
exponent (R157), and for each listed code of R161 the conversion of its lanes in the mode of R146, with the bits that no lane fills
at 0.

The values: a minimum or maximum is one of its operands bit for bit, and no operand lies beyond it in the order of R154; a remainder is
exactly a − n·b for the integer n nearest to a / b, ties to even, and raises no flag (R152); a scaled number is a·2ⁿ rounded once (R156);
each row of R161 rounds its source once into its destination, or into an integer that saturates with NV, by R162 to R164. -/
def Obligations.FloatingComparisonsAndConversionsComplete : Prop :=
  (∀ (s : State) (g : Gang) (p : Path), Executes s g p →
     (∀ (ty : FpType) (b a d : BitVec 7) (m : Bool),
       let f := typeFmt ty
       let x := fun (t : Thread) (j : Nat) => fpLane ty t a.toNat j
       let y := fun (t : Thread) (j : Nat) => fpLane ty t b.toNat j
       exec (.fmin ty b a d m) s = .next (fpOnward s g ty d.toNat (fun t j => fminmaxBits f false (x t j) (y t j))) ∧
       exec (.fmax ty b a d m) s = .next (fpOnward s g ty d.toNat (fun t j => fminmaxBits f true (x t j) (y t j))) ∧
       exec (.fsgn ty b a d m) s = .next (fpOnward s g ty d.toNat (fun t j =>
         ⟨x t j % 2 ^ (f.width - 1) + y t j / 2 ^ (f.width - 1) * 2 ^ (f.width - 1), flagNone⟩)) ∧
       exec (.fclass ty a d m) s = .next (lanesOnward s g (fun t => writeV t d.toNat
         (toWord (packLanes 16 ((rangeFrom 0 (fpLanes ty)).map (fun j => fclassMask f (x t j)))))) flagNone)) ∧
     (∀ (a d : BitVec 5) (m : Bool),
       exec (.fminShort a d m) s = .next (fpOnward s g .f32 d.toNat (fun t j =>
         fminmaxBits fmt32 false (fpLane .f32 t d.toNat j) (fpLane .f32 t a.toNat j))) ∧
       exec (.fmaxShort a d m) s = .next (fpOnward s g .f32 d.toNat (fun t j =>
         fminmaxBits fmt32 true (fpLane .f32 t d.toNat j) (fpLane .f32 t a.toNat j)))) ∧
     (∀ (ty : FpType) (b a : BitVec 7) (c : BitVec 4) (q : BitVec 3) (m : Bool), c.toNat < 8 →
       let v := fun (t : Thread) (j : Nat) => (fpVal ty t a.toNat j, fpVal ty t b.toNat j)
       let all := rangeFrom 0 (fpLanes ty)
       exec (.fcmp ty b a c q m) s = .next (lanesOnward s g
         (fun t => writeP t q.toNat (all.all (fun j => fcmpCond c.toNat (v t j).1 (v t j).2)))
         (orFlags ((activeThreads s g).map (fun t => orFlags (all.map (fun j =>
           if isSnan (v t j).1 || isSnan (v t j).2 then flagNV else flagNone)))))) ∧
       exec (.fcmpSig ty b a c q m) s = .next (lanesOnward s g
         (fun t => writeP t q.toNat (all.all (fun j => fcmpCond c.toNat (v t j).1 (v t j).2)))
         (orFlags ((activeThreads s g).map (fun t => orFlags (all.map (fun j =>
           if isNan (v t j).1 || isNan (v t j).2 then flagNV else flagNone)))))))) ∧
  (∀ (s : State) (g : Gang) (p : Path), Executes s g p →
     (∀ (ty : FpType) (b a d : BitVec 7) (m : Bool),
       let f := typeFmt ty
       let x := fun (t : Thread) (j : Nat) => fpVal ty t a.toNat j
       exec (.frem ty b a d m) s = .next (fpOnward s g ty d.toNat (fun t j => fremVal f (x t j) (fpVal ty t b.toNat j))) ∧
       exec (.fscale ty b a d m) s = .next (fpOnward s g ty d.toNat (fun t j => fscaleVal f (curRM s g) (x t j)
         (if ty = .f32 ∨ ty = .f64 then (vreg t b.toNat).toInt else sval 16 (laneOf 16 j (vreg t b.toNat).toNat)))) ∧
       exec (.flogb ty a d m) s = .next (fpOnward s g ty d.toNat (fun t j => flogbVal f (x t j)))) ∧
     (∀ (r : BitVec 3) (c a d : BitVec 7) (m : Bool) (row : CvtRow) (na nd : Nat),
       cvtRow c.toNat = some row → fcvtSpans c.toNat = some (na, nd) →
       let x := fun (t : Thread) => packLanes 32 ((rangeFrom a.toNat na).map (fun k => (vreg t k).toNat))
       let res := fun (t : Thread) (j : Nat) => row.f (cvtRM r g) (laneOf row.sw j (x t))
       exec (.fcvt r c a d m) s = .next (lanesOnward s g
         (fun t => writeVs t ((rangeFrom 0 nd).map (fun k =>
           (d.toNat + k, toWord (packLanes row.dw ((rangeFrom 0 row.n).map (fun j => (res t j).bits)) / 2 ^ (32 * k))))))
         (orFlags ((activeThreads s g).map (fun t => orFlags ((rangeFrom 0 row.n).map (fun j => (res t j).flags)))))))) ∧
  (∀ (f : FloatFmt) (rm : RMode), f ∈ [fmt32, fmt64, fmt16, fmtB16] → ∀ a b : Nat, a < 2 ^ f.width → b < 2 ^ f.width →
     let x := fdecode f a
     let y := fdecode f b
     (∀ isMax : Bool, extreme f isMax [a, b] (fminmaxBits f isMax a b)) ∧
     ((isSnan x ∨ isSnan y) → fremVal f x y = ⟨fmtNaN f, flagNV⟩) ∧
     (¬ isSnan x → ¬ isSnan y → (isNan x ∨ isNan y) → fremVal f x y = ⟨fmtNaN f, flagNone⟩) ∧
     (¬ isNan x → ¬ isNan y → (isInf x ∨ isZero y) → fremVal f x y = ⟨fmtNaN f, flagNV⟩) ∧
     (¬ isNan x → ¬ isInf x → isInf y → fremVal f x y = ⟨a, flagNone⟩) ∧
     (∀ n m e n' m' e', x = .fin n m e → y = .fin n' m' e' → m' ≠ 0 →
       let r := fremVal f x y
       r.flags = flagNone ∧ ∃ (k : Int) (q : Bool) (i : Nat) (j : Int), roundedInt .rne (quotientOf (fdy x) (fdy y)) k ∧
         fdecode f r.bits = .fin q i j ∧ dySame (fdy (.fin q i j)) (dyAdd (fdy x) (dyNeg (dyMul ⟨k, 0⟩ (fdy y)))) ∧ (i = 0 → q = n)) ∧
     (∀ n m e, x = .fin n m e → ∀ k : Int,
       (m ≠ 0 → rounded f rm n (pointOf ⟨(fdy x).m, e + k⟩) (fscaleVal f rm x k)) ∧ (m = 0 → fscaleVal f rm x k = ⟨a, flagNone⟩)) ∧
     (isInf x → ∀ k, fscaleVal f rm x k = ⟨a, flagNone⟩)) ∧
  (∀ rm : RMode,
     (∀ e ∈ convRows, ∃ row, cvtRow e.1 = some row ∧ row.sw = e.2.2.2.1 ∧ row.dw = e.2.2.2.2.1 ∧ row.n = e.2.2.2.2.2.1 ∧
       ∀ x, converted e.2.1 e.2.2.1 rm e.2.2.2.2.2.2 (x % 2 ^ e.2.1.width) (row.f rm x)) ∧
     (∀ e ∈ intRows, ∀ k, k < 2 → ∃ row, cvtRow (e.1 + k) = some row ∧ row.sw = e.2.1.width ∧ row.dw = e.2.2.1 ∧ row.n = e.2.2.2 ∧
       ∀ x, x < 2 ^ row.sw → toInteger e.2.1 rm e.2.2.1 (k == 0) x (row.f rm x)) ∧
     (∀ e ∈ ofIntRows, ∀ k, k < 2 → ∃ row, cvtRow (e.1 + k) = some row ∧ row.sw = e.2.2.1 ∧ row.dw = e.2.1.width ∧ row.n = e.2.2.2 ∧
       ∀ x, x < 2 ^ row.sw → let v := lval (k == 0) e.2.2.1 x
         (v = 0 → row.f rm x = ⟨0, flagNone⟩) ∧ (v ≠ 0 → rounded e.2.1 rm (decide (v < 0)) (pointOf ⟨v, 0⟩) (row.f rm x))) ∧
     (∀ e ∈ rintRows, ∃ row, cvtRow e.1 = some row ∧ row.sw = e.2.1.width ∧ row.dw = e.2.1.width ∧ row.n = e.2.2 ∧
       ∀ x, x < 2 ^ row.sw → integral e.2.1 rm x (row.f rm x)))

/-- `FRSQ` and `FFN`, of the staged class, run to their end: each lane of each active thread holds
its result or is pending under an entry that carries it, and the path stands at the next bundle (R102, R106, R112, R153, R167). -/
def Obligations.StagedFunctionsComplete : Prop :=
  ∀ (s : State) (g : Gang) (p : Path) (ty : FpType) (c a d : BitVec 7) (m : Bool), Executes s g p →
    (ty = .f64 → d.toNat % 2 = 0 ∧ a.toNat % 2 = 0) →
    (∃ (u : State) (k : Gang), exec (.frsq ty a d m) s = .next u ∧ curGang u = some k ∧
      k.paths = (updPath g s.cur.path (pathAt s.cur.npc)).paths ∧ k.threads.length = g.threads.length ∧
      ∀ (i : Nat) (t t' : Thread), g.threads[i]? = some t → k.threads[i]? = some t' → isActive s g t → ∀ j, j < fpLanes ty →
        stagedLane u g ty d.toNat j t' (frsqVal (typeFmt ty) (curRM s g) (fpVal ty t a.toNat j))) ∧
    (∃ (u : State) (k : Gang), exec (.ffn ty c a d m) s = .next u ∧ curGang u = some k ∧
      k.paths = (updPath g s.cur.path (pathAt s.cur.npc)).paths ∧ k.threads.length = g.threads.length ∧
      ∀ (i : Nat) (t t' : Thread), g.threads[i]? = some t → k.threads[i]? = some t' → isActive s g t → ∀ j, j < fpLanes ty →
        stagedLane u g ty d.toNat j t' (ffnVal (typeFmt ty) (curRM s g) c.toNat (fpLane ty t a.toNat j)))

/-! ### Lane exchange (spec/06 R135 to R138) -/

/-- `SHFL` and `VXS` run to their end: each active thread gets `v[A]` of the thread that its mode names, as it was before the bundle;
`.bcast` copies a scalar register to every active thread, `.readf` reads the first active thread, `.readi` the one named (R135,
R137). A `.readf` of a path without active threads writes nothing: the spec does not name this case, and that is the model's choice
(log 82). -/
def Obligations.LaneExchangesComplete : Prop :=
  ∀ (s : State) (g : Gang) (p : Path), Executes s g p →
    (∀ (f : BitVec 2) (b a d : BitVec 7) (m : Bool), exec (.shfl f b a d m) s =
      .next (lanesOnward s g (fun t => writeV t d.toNat (vreg (shflFrom s g f t (vreg t b.toNat)) a.toNat)) flagNone)) ∧
    (∀ (r : BitVec 9) (d : BitVec 7) (m : Bool),
      exec (.vxsBcast false r d m) s = .next (lanesOnward s g (fun t => writeV t d.toNat (sreg g r.toNat)) flagNone) ∧
      exec (.vxsBcast true r d m) s =
        .next (lanesOnward s g (fun t => writeVs t (regWrites true d.toNat (spair g r.toNat).toNat)) flagNone)) ∧
    (∀ (w : Bool) (r : BitVec 9) (d : BitVec 7) (m : Bool) (t : Thread), (activeThreads s g).head? = some t →
      exec (.vxsReadf w r d m) s = .next (scalarsOnward s g
        (regWrites w r.toNat (if w then (vpair t d.toNat).toNat else (vreg t d.toNat).toNat)))) ∧
    (∀ (w : Bool) (r : BitVec 9) (d : BitVec 7) (m : Bool), activeThreads s g = [] → exec (.vxsReadf w r d m) s = .next (gangOnward s g)) ∧
    (∀ (w : Bool) (r : BitVec 9) (d : BitVec 7) (m : Bool) (t : Thread),
      (activeThreads s g).find? (fun u => u.lpos == (sreg g r.toNat).toNat % 64) = some t →
      exec (.vxsReadi w r d m) s = .next (scalarsOnward s g
        (regWrites w r.toNat (if w then (vpair t d.toNat).toNat else (vreg t d.toNat).toNat)))) ∧
    (∀ (w : Bool) (r : BitVec 9) (d : BitVec 7) (m : Bool),
      (∀ t ∈ activeThreads s g, t.lpos ≠ (sreg g r.toNat).toNat % 64) →
      exec (.vxsReadi w r d m) s = .next (gangOnward s g))

/-- `VOTE.any`, `.all`, `.ballot` and `.eq` run to their end over the active threads (R136).

`GRED` of an integer type runs to its end: its result is on its way to the destination of every active thread, in flight until it
returns (R138, R30). So does `GRED` of a floating-point type, with the exact sum rounded once, or the least or greatest value, and its flags;
a sum may escalate instead: then the destination is pending in every active thread under an entry that holds the result and the flags (R102,
R106, R138; that it is pending from its issue on is the model's choice, log entry 104). -/
def Obligations.VotesAndReductionsComplete : Prop :=
  (∀ (s : State) (g : Gang) (p : Path), Executes s g p →
     (∀ (a d : BitVec 3) (m : Bool), ∃ x y : Bool,
       (x = true ↔ ∃ t ∈ activeThreads s g, readP t a.toNat = true) ∧
       (y = true ↔ ∀ t ∈ activeThreads s g, readP t a.toNat = true) ∧
       exec (.voteAny a d m) s = .next (lanesOnward s g (fun t => writeP t d.toNat x) flagNone) ∧
       exec (.voteAll a d m) s = .next (lanesOnward s g (fun t => writeP t d.toNat y) flagNone)) ∧
     (∀ (a : BitVec 3) (d : BitVec 7) (m : Bool), ∃ x : Dword,
       (∀ j, x.getLsbD j = true ↔ j < 64 ∧ ∃ t ∈ activeThreads s g, t.lpos = j ∧ readP t a.toNat = true) ∧
       exec (.voteBallot a d m) s = .next (lanesOnward s g (fun t => writeVs t (regWrites true d.toNat x.toNat)) flagNone)) ∧
     (∀ (a : BitVec 7) (d : BitVec 3) (m : Bool), ∃ x : Bool,
       (x = true ↔ ∀ t ∈ activeThreads s g, ∀ u ∈ activeThreads s g, vreg t a.toNat = vreg u a.toNat) ∧
       exec (.voteEq a d m) s = .next (lanesOnward s g (fun t => writeP t d.toNat x) flagNone))) ∧
  (∀ (s : State) (g : Gang) (p : Path) (o : BitVec 3) (ty a d : BitVec 7) (m : Bool), Executes s g p → ty.toNat < 4 →
     o.toNat < 6 → activeThreads s g ≠ [] →
     let wide := decide (2 ≤ ty.toNat)
     let vs := (activeThreads s g).map (fun t => if wide then (vpair t a.toNat).toNat else (vreg t a.toNat).toNat)
     let r := reduced o.toNat (ty.toNat % 2 == 1) (if wide then 64 else 32) vs
     ∃ (u : State) (k : Gang) (op : OutOp), exec (.gred o ty a d m) s = .next u ∧ curGang u = some k ∧
       k.paths = (updPath g s.cur.path (pathOn m s.cur.npc)).paths ∧ op ∈ k.out ∧ op.kind = .gred o.toNat ty.toNat ∧
       (∀ t ∈ activeThreads s g, ∃ x ∈ op.parts, x.lpos = t.lpos ∧ x.reg = d.toNat ∧ x.size = (if wide then 8 else 4) ∧
         x.x = toDword r) ∧
       k.threads = g.threads.map (fun t => if isActive s g t then
         { t with inflight := (if wide then [d.toNat, d.toNat + 1] else [d.toNat]).map (fun q => ⟨op.id, q, false, false, none⟩) }
         else t)) ∧
  (∀ (s : State) (g : Gang) (p : Path) (o : BitVec 3) (ty a d : BitVec 7) (m : Bool), Executes s g p → ty.toNat = 4 ∨ ty.toNat = 5 →
     o.toNat < 3 → activeThreads s g ≠ [] →
     let wide := decide (ty.toNat = 5)
     let f := if wide then fmt64 else fmt32
     let vs := (activeThreads s g).map (fun t => if wide then (vpair t a.toNat).toNat else (vreg t a.toNat).toNat)
     ∃ (u : State) (k : Gang) (r : FRes), exec (.gred o ty a d m) s = .next u ∧ curGang u = some k ∧
       (o = 0 → gangSum f (dynRM g) (vs.map (fdecode f)) r) ∧ (o ≠ 0 → extreme f (o == 2) vs r) ∧
       k.threads.length = g.threads.length ∧
       ((k.paths = (updPath g s.cur.path (pathOn m s.cur.npc)).paths ∧ ∃ op ∈ k.out, op.kind = .gred o.toNat ty.toNat ∧
          (∀ t ∈ activeThreads s g, ∃ x ∈ op.parts, x.lpos = t.lpos ∧ x.reg = d.toNat ∧ x.size = (if wide then 8 else 4) ∧
            x.x = toDword r.bits ∧ x.y = r.flags.zeroExtend 64) ∧
          k.threads = g.threads.map (fun t => if isActive s g t then
            { t with inflight := (if wide then [d.toNat, d.toNat + 1] else [d.toNat]).map (fun q => ⟨op.id, q, false, false, none⟩) }
            else t)) ∨
        (o = 0 ∧ (∀ v ∈ vs, isNan (fdecode f v) = false ∧ isInf (fdecode f v) = false) ∧
          k.paths = (updPath g s.cur.path (pathAt s.cur.npc)).paths ∧
          ∃ e ∈ u.parkq, e.cluster = coreCluster g.core ∧ e.result = r.bits ∧ e.flags = r.flags ∧
            ∀ (i : Nat) (t t' : Thread), g.threads[i]? = some t → k.threads[i]? = some t' → t'.v = t.v ∧
              (isActive s g t = true → ∃ q ∈ t'.pend, q.reg = d.toNat ∧ q.seq = e.seq))))

/-! ### Scalar instructions and special registers (spec/06 R139 to R143) -/

/-- `SALU` and `SIMM` run to their end once for the path, with the results of R139 and R140. -/
def Obligations.ScalarArithmeticCompletes : Prop :=
  ∀ (s : State) (g : Gang) (p : Path), Executes s g p →
    (∀ (f : BitVec 6) (a d : BitVec 9) (m : Bool),
      (f.toNat < 18 → exec (.salu f a d m) s =
        .next (scalarsOnward s g [(d.toNat, salu f.toNat (sreg g d.toNat) (sreg g a.toNat))])) ∧
      (18 ≤ f.toNat → f.toNat < 21 → exec (.salu f a d m) s =
        .next (scalarsOnward s g (regWrites true d.toNat (salu64 f.toNat (spair g d.toNat) (spair g a.toNat)).toNat)))) ∧
    (∀ (i : BitVec 12) (f : BitVec 3) (d : BitVec 9) (m : Bool),
      let imm := immLT i s.cur.imm
      (f ≠ 7#3 → exec (.simm i f d m) s =
        .next (scalarsOnward s g [(d.toNat, simm f.toNat (sreg g d.toNat) imm)])) ∧
      (f = 7#3 → exec (.simm i f d m) s = .next (scalarsOnward s g
        (regWrites true d.toNat (BitVec.ofInt 64 ((spair g d.toNat).toInt + imm.toInt)).toNat))))

/-- The reads of R142 run to their end: gang registers, 64-bit registers, mailboxes and per-thread registers, with the values of
R143. `FSTAT`, `ESCB` and `ESCS` are read while no element of the gang waits (R101, R117). While an access that writes `GWCT` is in
flight, a read of it obtains its value or the value before such an access (R31).

The writes of R142 run to their end: the RW gang registers with the values that R99, R100 and R143 allow, `MEET` and `LINK` of
each active thread, and a mailbox once the fence of R142 is over; a write of `RM` or `ANCHOR` with another value leaves it unchanged and
takes the illegal-encoding trap (R92, R99); a write of `PKR` holds the path until its event, which changes
the tenant's register (R412). -/
def Obligations.SpecialRegistersComplete : Prop :=
  (∀ (s : State) (g : Gang) (p : Path), Executes s g p →
     (∀ (r d : BitVec 9) (m : Bool) (v : Word), (r.toNat, v) ∈ gangRegs s g →
       (r.toNat ∈ [0x011, 0x020, 0x021] → ∀ e ∈ s.parkq, gangEntry g e = false) →
       exec (.ssysRd r d m) s = .next (scalarsOnward s g [(d.toNat, v)])) ∧
     (∀ (c : Ctx) (r d : BitVec 9) (m : Bool) (v : Dword), findCtx s g.ctx = some c →
       (r.toNat, v) ∈ [(0x008, toDword (coreNow s g.core)), (0x009, toDword s.clk), (0x013, c.pkr), (0x019, g.gwct)] →
       exec (.ssysRd64 r d m) s = .next (scalarsOnward s g (regWrites true d.toNat v.toNat))) ∧
     (∀ (c : Ctx) (r d : BitVec 9) (m : Bool), findCtx s g.ctx = some c → exec (.ssysMbrd r d m) s =
       .next (scalarsOnward s g (regWrites true d.toNat (sparseGet 0#64 c.mbox r.toNat).toNat))) ∧
     (∀ (r : BitVec 9) (d : BitVec 7) (m : Bool) (v : Thread → Dword),
       (∀ t, (r.toNat, v t) ∈ [(0x000, t.tid), (0x014, t.meet), (0x015, t.link)]) →
       exec (.ssysVrd r d m) s = .next (lanesOnward s g (fun t => writeVs t (regWrites true d.toNat (v t).toNat)) flagNone)) ∧
     (∀ (r : BitVec 9) (d : BitVec 7) (m : Bool) (v : Thread → Nat),
       (∀ t, (r.toNat, v t) ∈ [(0x001, t.lpos), (0x016, plimOf s g t)]) →
       exec (.ssysVrd r d m) s = .next (lanesOnward s g (fun t => writeV t d.toNat (toWord (v t))) flagNone))) ∧
  (∀ (s : State) (g : Gang) (p : Path) (r d : BitVec 9) (m : Bool), curGang s = some g → findPath g s.cur.path = some p →
     Idle { g with gwctFly := [] } → r.toNat = 0x019 →
     ∃ v fly, (v = g.gwct ∨ ∃ f ∈ g.gwctFly, v = f.old) ∧ (m = false → fly = g.gwctFly) ∧
       exec (.ssysRd64 r d m) s = .next (scalarsOnward s { g with gwctFly := fly } (regWrites true d.toNat v.toNat))) ∧
  (∀ (s : State) (g : Gang) (p : Path), Executes s g p →
     (∀ (r d : BitVec 9) (m : Bool) (k : Gang), (r.toNat, true, k) ∈ gangWrites g (sreg g d.toNat) →
       exec (.ssysWr r d m) s = .next (gangOnward s k)) ∧
     (∀ (r d : BitVec 9) (m : Bool) (k : Gang), (r.toNat, false, k) ∈ gangWrites g (sreg g d.toNat) → handlerReady s g p →
       ∃ u h, exec (.ssysWr r d m) s = .next u ∧ trapped s u g h p 0x01 0 s.cur.pc s.cur.first ∧ h.rm = g.rm ∧ h.anchor = g.anchor) ∧
     (∀ (r : BitVec 9) (d : BitVec 7) (m : Bool),
       (r.toNat = 0x014 → exec (.ssysVwr r d m) s =
         .next (lanesOnward s g (fun t => { t with meet := vpair t d.toNat }) flagNone)) ∧
       (r.toNat = 0x015 → exec (.ssysVwr r d m) s =
         .next (lanesOnward s g (fun t => { t with link := vpair t d.toNat }) flagNone))) ∧
     (∀ (r d : BitVec 9) (m : Bool), g.gwct.toNat ≤ coreNow s g.core → exec (.ssysMbwr r d m) s =
       .next (gangOnward (updCtx s g.ctx (fun c => { c with mbox := sparseSet 0#64 c.mbox r.toNat (spair g d.toNat) })) g)) ∧
     (∀ (r d : BitVec 9) (m : Bool), r.toNat = 0x013 → ∃ u k, exec (.ssysWr64 r d m) s = .next u ∧ curGang u = some k ∧
       (∀ q ∈ k.paths, q.ent = s.cur.path → q.pc = s.cur.npc ∧ q.hold.isSome = true) ∧
       ∃ o ∈ k.out, o.kind = .pkrWrite ∧ o.parts.map (·.x) = [spair g d.toNat]) ∧
     (∀ (k : Gang) (o : OutOp) (x : LanePart), findGang s k.core k.slot = some k →
       k.out.find? (fun o => o.kind == .pkrWrite) = some o → o.parts = [x] →
       exec (.pkrWrite k.core k.slot) s = .next (updCtx (updGang s k.core k.slot (fun k =>
         { k with out := k.out.filter (fun y => y.id != o.id) })) k.ctx (fun c => { c with pkr := x.x }))))

/-! ### Control flow (spec/17) -/

/-- `BRA`, `BRC`, `BRU`, `CALL`, `RET` and `JMPR` run to their end: each thread of the path stands at its target, the next bundle where
it is not active or does not take the branch, and the other paths are as they were; `CALL` and `JMPR.link` write `LINK` of the
threads that take them (R27, R338, R362, R364, R366).

A thread whose `LINK` or register target is odd takes the illegal-encoding trap and does not move, and the others move (R27, R366).
Where the targets are more than the path table holds, each side stands at its target in an entry, or has left the full table: to the
den of its counter, which it enters once it finds one free, or, in the taped modes, parked without an entry (R338, R342, R298).

`MEET` runs to its end in each of its four forms: the active threads' meeting address from a vector pair, a scalar pair, all ones,
or relative to the bundle's word (R367). -/
def Obligations.BranchesAndMeetComplete : Prop :=
  (∀ (s : State) (g : Gang) (p : Path), Executes s g p →
     (∀ (o : BitVec 24) (m : Bool),
       let target := fun t => if predOn s.cur t then branchTarget s o else s.cur.npc
       entriesFor g p target →
       (∃ ps, exec (.bra o m) s = .next (updCur s (fun _ => { g with paths := ps })) ∧ stand s g p ps target) ∧
       (∃ ps, exec (.call o m) s = .next (updCur s (fun _ => { updActive s g (fun t => { t with link := s.cur.npc }) with
         paths := ps })) ∧ stand s g p ps target)) ∧
     (∀ (o : BitVec 20) (n : Bool) (q : BitVec 3) (m : Bool),
       let target := fun t => if predOn s.cur t && (readP t q.toNat != n) then branchTarget s o else s.cur.npc
       entriesFor g p target →
       ∃ ps, exec (.brc o n q m) s = .next (updCur s (fun _ => { g with paths := ps })) ∧ stand s g p ps target) ∧
     (∀ (o : BitVec 14) (z : Bool) (r : BitVec 9) (m : Bool), exec (.bru o z r m) s =
       .next (gangAt s g (if (z = true ↔ sreg g r.toNat = 0#32) then branchTarget s o else s.cur.npc))) ∧
     (∀ m : Bool, (∀ t ∈ activeThreads s g, t.link.getLsbD 0 = false) →
       let target := fun t => if predOn s.cur t then t.link else s.cur.npc
       entriesFor g p target →
       ∃ ps, exec (.ret m) s = .next (updCur s (fun _ => { g with paths := ps })) ∧ stand s g p ps target) ∧
     (∀ (x : Bool) (d : BitVec 7) (m : Bool), (∀ t ∈ activeThreads s g, (vpair t d.toNat).getLsbD 0 = false) →
       let target := fun t => if predOn s.cur t then vpair t d.toNat else s.cur.npc
       entriesFor g p target →
       ∃ ps, exec (.jmpr x d m) s = .next (updCur s (fun _ => { updActive s g (fun t =>
         if x then { t with link := s.cur.npc } else t) with paths := ps })) ∧ stand s g p ps target)) ∧
  (∀ (s : State) (g : Gang) (p : Path) (i : Instr) (f : Thread → Thread) (target : Thread → Dword) (x m : Bool) (d : BitVec 7),
     Executes s g p → handlerReady s g p →
     ((i = .ret m ∧ (f = fun t => t) ∧ target = fun t => t.link) ∨
       (i = .jmpr x d m ∧ (f = fun t => if x then { t with link := s.cur.npc } else t) ∧ target = fun t => vpair t d.toNat)) →
     (∃ l : List Dword, l.length + g.paths.length ≤ 8 ∧ ∀ t ∈ onPath g p,
       (predOn s.cur t = false → s.cur.npc ∈ l) ∧ (predOn s.cur t = true → (target t).getLsbD 0 = false → target t ∈ l)) →
     ∃ u, exec i s = .next u ∧ movedOrTrapped s u g p f target) ∧
  (∀ (s : State) (g : Gang) (p : Path) (i : Instr) (target : Thread → Dword), Executes s g p →
     ((∃ o m, i = .bra o m ∧ target = fun _ => branchTarget s o) ∨ (∃ o m, i = .call o m ∧ target = fun _ => branchTarget s o) ∨
       (∃ o n q m, i = .brc o n q m ∧ target = fun t => if readP t q.toNat != n then branchTarget s o else s.cur.npc) ∨
       (∃ m, i = .ret m ∧ target = fun t => t.link) ∨ (∃ x d m, i = .jmpr x d m ∧ target = fun t => vpair t d.toNat)) →
     ((∃ m, i = .ret m) ∨ (∃ x d m, i = .jmpr x d m) → ∀ t ∈ activeThreads s g, (target t).getLsbD 0 = false) →
     ∃ u, exec i s = .next u ∧ divided s u g p (fun t => if predOn s.cur t then target t else s.cur.npc)) ∧
  (∀ (s : State) (k : Gang) (q : Parked), findGang s k.core k.slot = some k → Idle k → k.parked = [q] → q.cause = .noDen →
     s.dens = [] → (∀ h ∈ s.gangs, ∀ x ∈ h.parked, x.cause = .noDen → q.uid ≤ x.uid) →
     ∀ t ∈ threadsOf k q.mask,
       (∃ x ∈ (tryDen s k.core k.slot q.uid).dens, x.pc = q.pc ∧ .thread { t with lastPage := none } q.k ∈ x.items) ∨
       ∃ h ∈ (tryDen s k.core k.slot q.uid).gangs, (∀ e ∈ h.paths, e.pc = q.pc) ∧
         ∃ y ∈ h.threads, y = { t with lastPage := none, lpos := y.lpos }) ∧
  (∀ (s : State) (g : Gang) (p : Path) (r : BitVec 9) (d : BitVec 7) (m : Bool), Executes s g p →
     exec (.meet 0 r d m) s = .next (lanesOnward s g (fun t => { t with meet := vpair t d.toNat }) flagNone) ∧
     exec (.meet 1 r d m) s = .next (lanesOnward s g (fun t => { t with meet := spair g r.toNat }) flagNone) ∧
     exec (.meet 2 r d m) s = .next (lanesOnward s g (fun t => { t with meet := 0xFFFFFFFFFFFFFFFF#64 }) flagNone) ∧
     exec (.meet 3 r d m) s = .next (lanesOnward s g (fun t => { t with meet := branchTarget s (r ++ d) }) flagNone))

/-- `EXIT` runs to its end: the active threads are gone from the gang and from their team's live threads, the others stand at the next
bundle, a gang slot without threads and stores is free, and a team without live threads has retired (R357, R368).

`NEXT` runs to its end in a team whose mode is OFF: each active thread has left its path for the den of its target, in which it
waits with its registers, or from which it has been taken into a gang at that target (R345, R348, R369). -/
def Obligations.ExitAndNextComplete : Prop :=
  (∀ (s : State) (g : Gang) (p : Path) (m : Bool), Executes s g p → ∃ u, exec (.exit m) s = .next u ∧ gone s u g id) ∧
  (∀ (s : State) (g : Gang) (p : Path) (kx : BitVec 3) (d : BitVec 7) (m : Bool), Executes s g p →
     gangMode s g = 0 → g.parked = [] → s.dens = [] → (∀ h ∈ s.gangs, ∀ q ∈ h.parked, q.cause ≠ .noDen) →
     (∀ t ∈ activeThreads s g, (vpair t d.toNat).getLsbD 0 = false) →
     (∃ l : List Dword, l.length ≤ 32 ∧ ∀ t ∈ activeThreads s g, vpair t d.toNat ∈ l) →
     ∃ u, exec (.next kx d m) s = .next u ∧
       (∀ k, curGang u = some k → (∀ q ∈ k.paths, q.ent = s.cur.path → q.pc = s.cur.npc ∧ q.hold = none) ∧
         ∀ t ∈ activeThreads s g, ∀ q ∈ k.paths, bitOf q.mask t.lpos = false) ∧
       ∀ t ∈ activeThreads s g,
         (∃ x ∈ u.dens, x.pc = vpair t d.toNat ∧ .thread { t with lastPage := none } kx.toNat ∈ x.items) ∨
         ∃ h ∈ u.gangs, (∀ q ∈ h.paths, q.pc = vpair t d.toNat) ∧
           ∃ y ∈ h.threads, y = { t with lastPage := none, lpos := y.lpos })

/-- `YIELD` and the two events of issue: the quantum ends and the next path comes first, unless no thread is active; an expired quantum
moves the gang to its next path; a fence that is over releases its path, whose bundle executes again (R238, R339, R373).

`FENCE` of each scope runs to its end where nothing that it waits for is outstanding, and from device scope up the core's time
has reached the gang's completion time; otherwise its path is held (R238). -/
def Obligations.QuantumAndFencesComplete : Prop :=
  ((∀ (s : State) (g : Gang) (p : Path) (m : Bool), Executes s g p → exec (.yield m) s =
     .next (if activeThreads s g = [] then gangOnward s g
       else gangOnward { s with yielded := (s.cur.core, s.cur.slot) :: s.yielded }
         { g with curPath := (s.cur.path + 1) % 8, quantum := 0 })) ∧
   (∀ (s : State) (core slot : Nat) (g : Gang), findGang s core slot = some g →
     (256 ≤ g.quantum → exec (.quantumExpiry core slot) s =
       .next (updGang s core slot (fun _ => { g with curPath := (g.curPath + 1) % 8, quantum := 0 }))) ∧
     (g.quantum < 256 → exec (.quantumExpiry core slot) s = .next s)) ∧
   ∀ (s : State) (core slot ent scope : Nat) (ids : List Nat) (g : Gang) (p : Path), findGang s core slot = some g →
     findPath g ent = some p → p.hold = some ⟨.fence scope ids, .again⟩ →
     (((∀ o ∈ g.out, o.id ∉ ids) ∧ (2 ≤ scope → g.gwct.toNat ≤ coreNow s g.core)) → exec (.fenceRelease core slot ent) s =
       .next (updGang s core slot (fun g => updPath g ent (fun p => { p with hold := none, passed := true })))) ∧
     (¬ ((∀ o ∈ g.out, o.id ∉ ids) ∧ (2 ≤ scope → g.gwct.toNat ≤ coreNow s g.core)) →
       exec (.fenceRelease core slot ent) s = .next s)) ∧
  ((∀ (s : State) (g : Gang) (p : Path) (m : Bool), Executes s g p →
     exec (.fenceTeam m) s = .next (gangOnward s g) ∧ exec (.fenceCrew m) s = .next (gangOnward s g) ∧
     (g.gwct.toNat ≤ coreNow s g.core →
       exec (.fenceDev m) s = .next (gangOnward s g) ∧ exec (.fenceSys m) s = .next (gangOnward s g)) ∧
     (coreNow s g.core < g.gwct.toNat → p.passed = false →
       exec (.fenceDev m) s = .next (heldHere s (.fence 2 [])) ∧ exec (.fenceSys m) s = .next (heldHere s (.fence 3 [])))) ∧
   ∀ (s : State) (g : Gang) (p : Path) (m : Bool) (o : OutOp), curGang s = some g → findPath g s.cur.path = some p →
     p.passed = false → o ∈ g.out →
     (o.kind = .crewStore → ∃ ids, o.id ∈ ids ∧ exec (.fenceCrew m) s = .next (heldHere s (.fence 1 ids))) ∧
     ((o.kind = .store ∨ o.kind = .crewStore) → ∃ ids, o.id ∈ ids ∧ exec (.fenceDev m) s = .next (heldHere s (.fence 2 ids))) ∧
     (o.kind = .external → ∃ ids, o.id ∈ ids ∧ exec (.fenceSys m) s = .next (heldHere s (.fence 3 ids))))

/-! ### Fences, timelines, barriers and early start (spec/11, spec/12, spec/16, spec/17) -/

/-- `WAITT`, `TLSIG`, `WAITV` and `SUCCOK`: `WAITT` reads the error count once the counter is known to have reached its value and holds
its path until then; `TLSIG` advances the counter by one; `WAITV` goes on once no predecessor is left; `SUCCOK` marks the grid (R278, R279,
R381). A core knows of an advance and of a predecessor's end no sooner than the 48 ticks of a message (R308); that these are messages is the
model's choice (log entry 76). -/
def Obligations.TimelinesComplete : Prop :=
  ∀ (s : State) (g : Gang) (p : Path) (m : Bool), Executes s g p →
    (∀ (r : BitVec 9) (t : BitVec 6),
      ((spair g r.toNat).toNat ≤ tlKnown s g.ctx g.grid t.toNat → exec (.waitt r t m) s =
        .next (scalarsOnward s g (regWrites true r.toNat (tlOf s g.ctx g.grid t.toNat).2))) ∧
      (tlKnown s g.ctx g.grid t.toNat < (spair g r.toNat).toNat → p.passed = false →
        exec (.waitt r t m) s = .next (heldHere s (.timeline t.toNat (spair g r.toNat)))) ∧
      tlKnown s g.ctx g.grid t.toNat ≤ (tlOf s g.ctx g.grid t.toNat).1.toNat ∧
      ∀ gr, findGrid s g.ctx g.grid = some gr → (∀ a ∈ sparseGet [] gr.tlAt t.toNat, a + 48 ≤ s.dtb) →
        tlKnown s g.ctx g.grid t.toNat = (tlOf s g.ctx g.grid t.toNat).1.toNat) ∧
    (∀ (t : BitVec 6) (gr : Grid), findGrid s g.ctx g.grid = some gr → sparseWf (0, 0) gr.tls = true →
      g.gwct.toNat ≤ coreNow s g.core →
      ∃ u, exec (.tlsig t m) s = .next u ∧ curGang u = some (updPath g s.cur.path (pathAt s.cur.npc)) ∧
        tlOf u g.ctx g.grid t.toNat = ((tlOf s g.ctx g.grid t.toNat).1 + 1, (tlOf s g.ctx g.grid t.toNat).2) ∧
        (sparseWf [] gr.tlAt = true → (tlOf s g.ctx g.grid t.toNat).1.toNat + 1 < 2 ^ 64 →
          tlKnown u g.ctx g.grid t.toNat = tlKnown s g.ctx g.grid t.toNat) ∧
        ∀ n, n ≠ t.toNat → tlOf u g.ctx g.grid n = tlOf s g.ctx g.grid n) ∧
    ((∀ gr, findGrid s g.ctx g.grid = some gr → gr.preds = [] ∧ gr.predsAt ≤ s.dtb) → exec (.waitv m) s = .next (gangOnward s g)) ∧
    (∀ gr, findGrid s g.ctx g.grid = some gr → (gr.preds ≠ [] ∨ s.dtb < gr.predsAt) →
      exec (.waitv m) s = .next (heldAs s s.cur.npc .predecessors (.go m))) ∧
    exec (.succok m) s = .next (gangOnward (updGrid s g.ctx g.grid (fun x => { x with
      succok := true, succAt := if x.succok then x.succAt else s.dtb })) g)

/-- `BAR.arrive`, `BAR.sync` and `BAR.wait` run to their end: the arriving threads are recorded in the barrier's phase, which advances
exactly when every participant has arrived in it; `.sync` holds its threads for the phase, but for the last of a team's, `.wait` those that
have arrived in it, and the others go on (R353 to R355). A core knows of the completion of a crew's or a group's phase no sooner than a
message takes (R308), which is the model's choice (log entry 76). -/
def Obligations.BarriersComplete : Prop :=
  ∀ (s : State) (g : Gang) (p : Path) (tm : Team) (l : BitVec 2) (n : BitVec 9) (m : Bool), Executes s g p →
    p.mask ≠ 0 → n.toNat < 256 → barAllowed s g tm l.toNat n.toNat →
    let key := 256 * l.toNat + n.toNat
    let b := readBar s tm key
    let done := participants s tm l.toNat n.toNat ≠ [] ∧
      ∀ x ∈ participants s tm l.toNat n.toNat, lastArrival b x = some b.phase ∨ ∃ t ∈ onPath g p, t.uid = x
    let told := b.doneAt + (if l = 0 then 0 else if l = 1 then 19 else 48) ≤ s.dtb
    ((2 ≤ l.toNat → g.gwct.toNat ≤ coreNow s g.core) → (∀ t ∈ onPath g p, lastArrival b t.uid ≠ some b.phase) →
      ∃ ua us, exec (.barArrive l n m) s = .next ua ∧ exec (.barSync l n m) s = .next us ∧
        curGang ua = some (updPath g s.cur.path (pathAt s.cur.npc)) ∧
        (done → l = 0 → curGang us = some (updPath g s.cur.path (pathAt s.cur.npc))) ∧
        (¬(done ∧ l = 0) → ∃ k, curGang us = some k ∧ ∀ q ∈ k.paths, q.ent = s.cur.path →
          q.pc = s.cur.npc ∧ q.hold = some ⟨.barrier key b.phase, .go m⟩) ∧
        ∀ u, u = ua ∨ u = us →
          (∀ t ∈ onPath g p, lastArrival (readBar u tm key) t.uid = some b.phase) ∧
          (done → (readBar u tm key).phase = b.phase + 1) ∧ (¬done → (readBar u tm key).phase = b.phase)) ∧
    ((∀ t ∈ onPath g p, lastArrival b t.uid ≠ some b.phase) →
      (b.phase = 0 ∨ told → exec (.barWait l n m) s = .next (gangOnward s g)) ∧
      (b.phase ≠ 0 → ¬told → exec (.barWait l n m) s = .next (heldAs s s.cur.npc (.barrier key (b.phase - 1)) (.go m)))) ∧
    ((∀ t ∈ onPath g p, lastArrival b t.uid = some b.phase) → maskOf ((onPath g p).map (·.lpos)) = p.mask →
      exec (.barWait l n m) s = .next (heldAs s s.cur.npc (.barrier key b.phase) (.go m)))

/-! ### Gangs (spec/16, spec/17) -/

/-- `ELECT`, `GSYNC` and `GINFO` run to their end: the first active thread is elected, the path is held until every thread of the gang
stands at its `GSYNC`, and the masks and numbers of the gang are read (R377, R378). -/
def Obligations.GangQueriesComplete : Prop :=
  ∀ (s : State) (g : Gang) (p : Path) (m : Bool), Executes s g p →
    (∀ (q : BitVec 3) (d : BitVec 9) (t : Thread), t ∈ activeThreads s g → (∀ u ∈ activeThreads s g, t.lpos ≤ u.lpos) →
      t.lpos < 64 → exec (.elect q d m) s =
        .next (gangOnward s (writeS (lanesDone s g (fun u => writeP u q.toNat (u.lpos == t.lpos)) flagNone) d.toNat (toWord t.lpos)))) ∧
    exec (.gsync m) s = .next (heldAs s s.cur.npc .gsync (.go m)) ∧
    ∀ d : BitVec 9,
      exec (.ginfo 0 d m) s = .next (scalarsOnward s g (regWrites true d.toNat p.mask)) ∧
      exec (.ginfo 1 d m) s = .next (scalarsOnward s g (regWrites true d.toNat (maskOf (g.threads.map (·.lpos))))) ∧
      exec (.ginfo 2 d m) s = .next (scalarsOnward s g [(d.toNat, toWord g.paths.length)]) ∧
      exec (.ginfo 3 d m) s = .next (scalarsOnward s g [(d.toNat, toWord g.slot)]) ∧
      exec (.ginfo 4 d m) s = .next (scalarsOnward s g [(d.toNat, toWord g.pipe)])

/-- `FUSE` and `SPLIT` run to their end. An incomplete set of participants holds the path; the participant that completes it makes
one gang of all, in rising slot order, whose other slots are free. `SPLIT` moves the threads of a predicate into a gang of the
smallest size that holds them; where none or all would move, nothing does (R344, R375, R376). -/
def Obligations.FuseAndSplitComplete : Prop :=
  ∀ (s : State) (g : Gang) (p : Path) (m : Bool), Executes s g p → gangMode s g = 0 →
    (∀ (a d : BitVec 9), g.paths.length = 1 → g.parked = [] →
      let n := (sreg g a.toNat).toNat
      let key := sreg g d.toNat
      let l := bySlot (g :: fuseGroup s g key n)
      (n = 16 ∨ n = 32 ∨ n = 64) → g.size < n → n / g.size ≤ 4 → (∀ x ∈ fuseKeyed s g key, x.size = g.size) →
      (l.length < n / g.size → exec (.fuse a d m) s = .next (heldAs s s.cur.npc (.fuse key n) (.go m))) ∧
      (∀ x r, l = x :: r → n / g.size ≤ l.length → (∀ y ∈ r, y.tapeHead = 0) → ∃ u k, exec (.fuse a d m) s = .next u ∧
        findGang u x.core x.slot = some k ∧ k.size = n ∧
        k.threads.map (·.uid) = l.flatMap (fun y => y.threads.map (·.uid)) ∧
        (∀ y ∈ r, findGang u y.core y.slot = none) ∧ ∀ q ∈ k.paths, q.hold = none ∧ q.mask = gangMask k)) ∧
    (∀ (q : BitVec 3) (d : BitVec 9),
      let moves := fun (t : Thread) => bitOf p.mask t.lpos && readP t q.toNat
      let mask := maskOf ((g.threads.filter moves).map (·.lpos))
      ((mask = 0 ∨ mask = gangMask g) → exec (.split q d m) s = .next (scalarsOnward s g [(d.toNat, 0)])) ∧
      (∀ slot pipe r, mask ≠ 0 → mask ≠ gangMask g →
        fitGangs s g.core 1 (gangFor (threadsOf g mask).length) (gangVregs s g) 0 true false = some ((slot, pipe) :: r) →
        curSlot s g (.gangSlot (gangFor (threadsOf g mask).length) 0) = true →
        ∃ u k h, exec (.split q d m) s = .next u ∧ curGang u = some k ∧ h ∈ u.gangs ∧
          k.threads = g.threads.filter (fun t => !(bitOf mask t.lpos)) ∧ sreg k d.toNat = 1 ∧
          (∀ y ∈ k.paths, y.ent = s.cur.path → y.pc = s.cur.npc ∧ y.hold = none) ∧
          h.core = g.core ∧ h.slot = slot ∧ h.pipe = pipe ∧ h.size = gangFor (threadsOf g mask).length ∧ sreg h d.toNat = 2 ∧
          h.threads.map (·.uid) = (threadsOf g mask).map (·.uid) ∧ ∀ y ∈ h.paths, y.pc = s.cur.npc ∧ y.hold = none))

/-! ### Differentiable regions (spec/13) -/

/-- `DROPEN`, `DRCLOSE` and `DMODE` run to their end: a legal descriptor's region opens with its position at the tape's base, a region
closes, and the mode barrier takes the arrivals and switches the team's mode once every live thread has asked for it (R283, R297,
R301). -/
def Obligations.RegionsOpenAndSwitch : Prop :=
  ∀ (s : State) (g : Gang) (p : Path) (m : Bool), Executes s g p →
    (∀ (r : BitVec 9) (n : BitVec 4) (c : Ctx) (tr : Trans), findCtx s g.ctx = some c → (spair g r.toNat).toNat % 64 = 0 →
      (∀ b ∈ s.wbuf, b.core ≠ g.core) → translateChecked s g.core g.ctx (spair g r.toNat).toNat 64 .read = .ok tr → pteTgt tr.pte = 0 →
      let desc := ofBytes (memBytes s (transPa tr (spair g r.toNat).toNat) 64)
      let reg : Region := ⟨bitsOf desc 0 0, bitOf desc 2, sval 12 (bitsOf desc 31 20), bitsOf desc 255 192, bitsOf desc 319 256,
        bitsOf desc 383 320, bitsOf desc 447 384, bitsOf desc 511 448, bitsOf desc 447 384⟩
      bitsOf desc 191 32 = 0 → bitsOf desc 19 3 = 0 → bitsOf desc 1 1 = 0 → regionLegal c n.toNat reg = true →
      exec (.dropen r n m) s = .next (gangOnward (updCtx s g.ctx (fun c =>
        { c with regions := sparseSet none c.regions n.toNat (some reg) })) g)) ∧
    (∀ n : BitVec 4, exec (.drclose n m) s = .next (gangOnward (updCtx s g.ctx (fun c =>
      { c with regions := sparseSet none c.regions n.toNat none })) g)) ∧
    (∀ (d : BitVec 2) (tm : Team), gangTeam s g = some tm → g.gwct.toNat ≤ coreNow s g.core → p.mask ≠ 0 →
      let b := readBar s tm modeKey
      ∃ u k tm', exec (.dmode d m) s = .next u ∧ curGang u = some k ∧ gangTeam u k = some tm' ∧
        (∀ q ∈ k.paths, q.ent = s.cur.path → q.pc = s.cur.npc ∧ q.hold.isSome = true) ∧
        (∀ t ∈ onPath g p, lastArrival (readBar u tm' modeKey) t.uid = some b.phase) ∧
        (tm.live ≠ [] → (∀ x ∈ tm.live, ∃ t ∈ onPath g p, t.uid = x) → tm'.dmode = d.toNat) ∧
        ((∃ x ∈ tm.live, lastArrival b x ≠ some b.phase ∧ ∀ t ∈ onPath g p, t.uid ≠ x) → tm'.dmode = tm.dmode))

/-- `ADJRD`, `ADJCLR` and `TAPEPOS` run to their end: the cell's read is on its way with the register in flight, the stores of zero are
in the buffer, as far as it has room, and the path is held for room for the rest; the head, the position and the limit are read and written (R302, R303). -/
def Obligations.CellsAndTapePositionsComplete : Prop :=
  ∀ (s : State) (g : Gang) (p : Path) (m : Bool), Executes s g p → p.mask ≠ 0 →
    (∀ (a d : BitVec 9) (k : Nat) (r : Region) (tr : Trans), elementAt s g (spair g a.toNat).toNat = some (k, r) →
      translateChecked s g.core g.ctx (cellAddr r (spair g a.toNat).toNat) 16 .read = .ok tr → pteTgt tr.pte = 0 →
      ∃ u h o, exec (.adjrd a d m) s = .next u ∧ curGang u = some h ∧ u.mem = s.mem ∧
        h.paths = (updPath g s.cur.path (pathOn m s.cur.npc)).paths ∧ h.threads = g.threads ∧ h.out = [o] ∧ o.kind = .adjRead ∧
        o.parts.map (fun x => (x.pa, x.size, x.reg)) = [(transPa tr (cellAddr r (spair g a.toNat).toNat), 16, d.toNat)] ∧
        h.sflight.map (fun f => (f.op, f.reg, f.data)) = [(o.id, d.toNat, false)]) ∧
    (∀ (a d : BitVec 9) (k : Nat) (r : Region) (tr : Nat → Trans), elementAt s g (spair g a.toNat).toNat = some (k, r) →
      let n := (sreg g d.toNat).toNat
      let base := cellAddr r (spair g a.toNat).toNat
      1 ≤ n → n ≤ 2 ^ 20 → (spair g a.toNat).toNat + elemSize r * n ≤ r.pbase + r.psize → r.sbase % 16 = 0 →
      (∀ x y, base ≤ x → x + y ≤ base + 16 * n → translateChecked s g.core g.ctx x y .write = .ok (tr (x / 4096)) ∧
        pteTgt (tr (x / 4096)).pte = 0 ∧ pteSysat (tr (x / 4096)).pte = false) →
      p.sub = 0 → curSlot s g (.bufferSlot 1) = true →
      (bufferCount s g.core + (n / 8 + 2) ≤ 64 →
        ∃ u h, exec (.adjclr a d m) s = .next u ∧ curGang u = some h ∧ u.mem = s.mem ∧ movesOn s g h m ∧ h.sregs = g.sregs ∧
        ∀ i, i < n → ∃ b ∈ u.wbuf, b.core = g.core ∧ b.slot = g.slot ∧ ∃ x ∈ b.parts,
          x.pa = transPa (tr ((base + 16 * i) / 4096)) (base + 16 * i) ∧ x.size = 16 ∧ x.x = 0 ∧ x.y = 0) ∧
      (64 < bufferCount s g.core + n / 8 →
        ∃ u h q, exec (.adjclr a d m) s = .next u ∧ curGang u = some h ∧ u.mem = s.mem ∧ bufferCount u g.core = 64 ∧
        findPath h s.cur.path = some q ∧ q.pc = p.pc ∧ q.hold = some ⟨.bufferSlot 1, .again⟩)) ∧
    (∀ d : BitVec 9,
      exec (.tapeposRdhead d m) s = .next (scalarsOnward s g (regWrites true d.toNat g.tapeHead.toNat)) ∧
      ((spair g d.toNat).toNat % 32 = 0 → exec (.tapeposWrhead d m) s =
        .next (gangOnward s { g with tapeHead := spair g d.toNat }))) ∧
    (∀ (n : BitVec 4) (d : BitVec 9) (r : Region), regionOf s g.ctx n.toNat = some r →
      exec (.tapeposRdseg n d m) s =
        .next (scalarsOnward s g (regWrites true d.toNat r.tp ++ regWrites true (d.toNat + 2) r.tlim)) ∧
      ((spair g d.toNat).toNat % 32 = 0 → (spair g (d.toNat + 2)).toNat % 32 = 0 →
        (spair g d.toNat).toNat ≤ (spair g (d.toNat + 2)).toNat → exec (.tapeposWrseg n d m) s =
          .next (gangOnward (updRegion s g.ctx n.toNat (fun r =>
            { r with tp := (spair g d.toNat).toNat, tlim := (spair g (d.toNat + 2)).toNat })) g)))

/-! ### System instructions, traps and faults (spec/14, spec/20) -/

/-- `SYS.nop`, `EVT` and `EVTM` run to their end: nothing, or one event with the payload of R320 at the gang's core (R319, R320,
R440). -/
def Obligations.SystemEventsComplete : Prop :=
  ∀ (s : State) (g : Gang) (p : Path) (m : Bool), Executes s g p →
    exec (.sysNop m) s = .next (gangOnward s g) ∧
    (∀ (a : BitVec 9) (c : BitVec 8), exec (.evt a c m) s = .next (gangOnward (emit s (.core g.core) g.ctx 0x10
      ((spair g a.toNat).toNat + c.toNat * 2 ^ 64 + maskOf ((activeThreads s g).map (·.lpos)) % 2 ^ 64 * 2 ^ 72 +
        (gangTeamReg g).toNat * 2 ^ 136 + g.slot % 64 * 2 ^ 168 + s.cur.pc.toNat * 2 ^ 174) (gridTag s g.ctx g.grid) (some g.slot)) g)) ∧
    (∀ (a : BitVec 9) (c : BitVec 8), ∃ n, (∀ j, j < 10 → laneOf 32 j n = (sreg g (a.toNat + j)).toNat) ∧ n < 2 ^ 320 ∧
      exec (.evtm a c m) s = .next (gangOnward (emit s (.core g.core) g.ctx 0x11
        (n + c.toNat * 2 ^ 320 + (gangTeamReg g).toNat * 2 ^ 328 + g.slot % 64 * 2 ^ 360) (gridTag s g.ctx g.grid) (some g.slot)) g))

/-- `TRAP`, `BKPT` and a bundle that is no instruction take their traps for every thread of the path: the frame holds what the trap
saves, the thread is in its handler with `LINK` the frame's offset and `MEET` all ones, and its path stands at `TRAPENT`. The
resume address is the next bundle for the two instructions and the bundle itself for an encoding (R52, R433 to R435, R440).

In FWD and REV an access to an open region that R287 or R288 does not allow takes the region-access trap, with the address and the entry
(R263 check 0).

A trap in a launch that names no handler kills the launch with the trap's code: its threads stop (R436, R437). -/
def Obligations.TrapsAreTakenOrKill : Prop :=
  (∀ (s : State) (g : Gang) (p : Path), Executes s g p → handlerReady s g p →
     (∀ (n : BitVec 8) (m : Bool), ∃ u k, exec (.trap n m) s = .next u ∧
       trapped s u g k p 0x11 0 s.cur.npc (n.zeroExtend 32)) ∧
     (∀ (n : BitVec 8) (m : Bool), ∃ u k, exec (.bkpt n m) s = .next u ∧
       trapped s u g k p 0x10 0 s.cur.npc (n.zeroExtend 32)) ∧
     (∀ first : Word, ∃ u k, exec (.encodingNotInstruction .illegal first) s = .next u ∧ trapped s u g k p 0x01 0 s.cur.pc first) ∧
     (∀ first : Word, ∃ u k, exec (.encodingNotInstruction .reserved first) s = .next u ∧ trapped s u g k p 0x02 0 s.cur.pc first)) ∧
  (∀ (s : State) (g : Gang) (p : Path) (va : Nat) (e : Nat × Region) (m : Bool), Executes s g p → handlerReady s g p →
     activeThreads s g = onPath g p → (gangMode s g = 1 ∨ gangMode s g = 2) →
     let barred := fun (i : Instr) => ∃ u k, exec i s = .next u ∧ trapped s u g k p 0x06 (toDword va) s.cur.pc (toWord e.1)
     (∀ (o : BitVec 2) (z : BitVec 3) (b : BitVec 5) (a d : BitVec 7), (∀ t ∈ onPath g p, accAddr s g t b.toNat a.toNat = va) →
       (z.toNat < 7 → regionHit s g.ctx va (accBytes z) = some e → ¬ fits e.2 z va → barred (.ldg o z b a d m) ∧
         ((o = 1 → g.gwct.toNat ≤ coreNow s g.core) → barred (.stg o z b a d m))) ∧
       (regionHit s g.ctx va 32 = some e → barred (.ldm8 o b a d m))) ∧
     (∀ (w : Bool) (b : BitVec 6) (a d : BitVec 7) (sat : Bool) (i : Instr) (op : AtomicOp), (i, op) ∈ atomics w b a d sat m →
       (∀ t ∈ onPath g p, ((vpair t a.toNat).toNat + (match s.cur.imm with
         | none => 0
         | some i => (i.signExtend 64).toNat)) % 2 ^ 64 = va) → regionHit s g.ctx va (atomSize op w) = some e → barred i) ∧
     ∀ (f : BitVec 6) (a d : BitVec 9), (spair g a.toNat).toNat = va → f.toNat < 6 → regionHit s g.ctx va (4 * 2 ^ (f.toNat % 3)) = some e →
       (f.toNat < 3 → barred (.smemLoad f a d m)) ∧ (3 ≤ f.toNat → barred (.smemStore f a d m))) ∧
  (∀ (s : State) (g : Gang) (p : Path) (gr : Grid) (n : BitVec 8) (m : Bool), Executes s g p → p.mask ≠ 0 →
     findGrid s g.ctx g.grid = some gr → gr.launch.trapent = 0 → gr.killed = none → (∀ t ∈ onPath g p, t.inHandler = false) →
     (∀ q ∈ g.parked, q.uid < s.nextId) →
     ∃ u gr', exec (.trap n m) s = .next u ∧ findGrid u g.ctx g.grid = some gr' ∧ gr'.killed = some 0x11 ∧
       (∀ k ∈ u.gangs, k.ctx = g.ctx → k.grid = g.grid → k.threads = [] ∧ k.paths = []) ∧
       ∀ c ∈ u.cmds, c.ctx = g.ctx → c.grid = g.grid → c.stage ≠ .forming ∧ c.stage ≠ .queued)

/-- `RTRAP` runs to its end: each thread of the path has left its handler with `LINK`, `MEET` and the predicates of its frame, and stands
at the frame's resume address (R441). -/
def Obligations.TrapReturnRestores : Prop :=
  ∀ (s : State) (g : Gang) (p : Path) (m : Bool), Executes s g p →
    (∀ t ∈ onPath g p, t.inHandler = true ∧ privCheck s g t (4 * (plimOf s g t - 16)) 64 = none ∧
      (readFields (trapFrameOf s g t)).npc.getLsbD 0 = false) →
    entriesFor g p (fun t => (readFields (trapFrameOf s g t)).npc) →
    ∃ u ps, exec (.rtrap m) s = .next u ∧ curGang u = some { g with
        threads := g.threads.map (fun t => if bitOf p.mask t.lpos then
          { t with
            inHandler := false, link := (readFields (trapFrameOf s g t)).link, meet := (readFields (trapFrameOf s g t)).meet,
            preds := BitVec.ofNat 8 ((readFields (trapFrameOf s g t)).pred % 128) } else t)
        paths := ps } ∧ stand s g p ps (fun t => (readFields (trapFrameOf s g t)).npc)

/-- A bundle that cannot be fetched parks every thread of its path with the fault, at the bundle, under the key of its page (R9, R64,
R419 to R422). -/
def Obligations.FetchFaultsPark : Prop :=
  ∀ (s : State) (g : Gang) (p : Path) (a : Dword) (kind : FaultKind), Executes s g p → p.mask ≠ 0 →
    (kind = .page ∨ kind = .pageAttribute ∨ kind = .access ∨ kind = .codeIntegrity) → curSlot s g (.waitSlot 1) = true →
    ∃ u k q w, exec (.instructionFetchFault a kind) s = .next u ∧ curGang u = some k ∧ q ∈ k.parked ∧ w ∈ u.waits ∧
      q.mask = p.mask ∧ q.pc = s.cur.pc ∧ q.cause = .fault true (a.toNat / 4096) kind ∧ q.released = false ∧
      w.die = coreDie g.core ∧ w.ctx = g.ctx ∧ w.byPage = true ∧ w.key = a.toNat / 4096 ∧
      .parked g.core g.slot q.uid ∈ w.items ∧ ∀ x ∈ k.paths, ∀ t ∈ onPath g p, bitOf x.mask t.lpos = false

/-! ### Memory (spec/11, spec/12) -/

/-- `LDG`, `LDM8`, `LDT` and `LDP` whose checks pass are issued: the threads' bytes at the address of R258 are on their way, with the
registers of R259 in flight; an acquiring load holds its path (R240, R257 to R261, R265). A load of a region is ordinary under OFF and FWD;
under REV it puts the addition of `v[D]` into the element's cell in flight, and `v[D]` with it (R286, R287, R294). -/
def Obligations.LoadsIssue : Prop :=
  ∀ (s : State) (g : Gang) (p : Path) (o : BitVec 2) (b : BitVec 5) (a d : BitVec 7) (m : Bool), Executes s g p →
    activeThreads s g ≠ [] →
    let va := fun (t : Thread) => accAddr s g t b.toNat a.toNat
    (∀ (z : BitVec 3) (trs : Thread → List (Nat × Trans)), z.toNat < 7 →
      (∀ t ∈ activeThreads s g, untaped s g (accBytes z) (va t) ∨
        gangMode s g = 1 ∧ ∃ e, regionHit s g.ctx (va t) (accBytes z) = some e ∧ fits e.2 z (va t)) →
      (∀ t ∈ activeThreads s g, checkRuns s g (leader s g va (accBytes z) t) t .read (pageRuns (va t) (accBytes z)) = .ok (trs t) ∧
        ∀ x ∈ trs t, pteTgt x.2.pte ≠ 2) →
      ∃ u, exec (.ldg o z b a d m) s = .next u ∧ accessIssued s u g m (o == 1) (fun _ => .load z.toNat (o == 2))
        (fun t => partsAt (trs t) t.lpos (va t) (accBytes z) d.toNat 0) (accRegs z d.toNat)) ∧
    (∀ (z : BitVec 3) (e : Thread → Nat × Region) (tr tc : Thread → Nat × Trans), gangMode s g = 2 →
      (∀ t ∈ activeThreads s g, regionHit s g.ctx (va t) (accBytes z) = some (e t) ∧ fits (e t).2 z (va t) ∧
        checkRun s g (leader s g va (accBytes z) t) t (va t) (accBytes z) .read = .ok (tr t) ∧
        checkRun s g t t (cellAddr (e t).2 (va t)) 16 .atomic = .ok (tc t) ∧ pteTgt (tc t).2.pte = 0 ∧ pteSysat (tc t).2.pte = false) →
      ∃ u, exec (.ldg o z b a d m) s = .next u ∧ accessIssued s u g m (o == 1)
        (fun t => .atomic (.fadda (e t).2.ovf) false (dynRM g) (e t).2.anchor)
        (fun t => [{ partAt [tc t] t.lpos (cellAddr (e t).2 (va t)) 16 0 d.toNat 0 with
          x := toDword (if (e t).2.etype = 0 then (vreg t d.toNat).toNat else (vreg t d.toNat).toNat % 2 ^ 16 * 2 ^ 16) }]) [d.toNat]) ∧
    (∀ (trs : Thread → Nat → List (Nat × Trans)), (∀ t ∈ activeThreads s g, untaped s g 32 (va t)) →
      (∀ t ∈ activeThreads s g, ∀ i, i < 8 → checkRuns s g (leader s g (fun x => (va x + 4 * i) % 2 ^ 64) 4 t) t .read
          (pageRuns ((va t + 4 * i) % 2 ^ 64) 4) = .ok (trs t i) ∧ ∀ x ∈ trs t i, pteTgt x.2.pte ≠ 2) →
      ∃ u, exec (.ldm8 o b a d m) s = .next u ∧ accessIssued s u g m (o == 1) (fun _ => .load 7 (o == 2))
        (fun t => (List.range 8).flatMap (fun i => (partsAt (trs t i) t.lpos ((va t + 4 * i) % 2 ^ 64) 4 d.toNat 0).map (fun x =>
          { x with off := x.off + 4 * i }))) (accRegs 7 d.toNat)) ∧
    (∀ (z : BitVec 3) (tm : Thread → Team), z.toNat < 7 →
      (∀ t ∈ activeThreads s g, teamCheck s g t.lpos (va t) (accBytes z) .read = .ok (tm t)) →
      ∃ u, exec (.ldt o z b a d m) s = .next u ∧ accessIssued s u g m (o == 1) (fun _ => .loadTeam z.toNat)
        (fun t => teamParts t.lpos (va t) (accBytes z) (tm t).index d.toNat 0) (accRegs z d.toNat)) ∧
    (∀ z : BitVec 3, z.toNat < 7 →
      (∀ t ∈ activeThreads s g, (va t + accBytes z - 1) / 4 < plimOf s g t ∧ privCheck s g t (va t) (accBytes z) = none) →
      ∃ u, exec (.ldp o z b a d m) s = .next u ∧ accessIssued s u g m (o == 1) (fun _ => .loadPriv z.toNat)
        (fun t => privParts t.lpos (va t) (accBytes z) d.toNat 0) (accRegs z d.toNat))

/-- `STG`, `STT` and `STP` whose checks pass run to their end: global stores stand in the core's buffer or await their destination, a
store to the own team's memory is there at once, one to another team of the crew is on its way, and private bytes are in the core's
dirty lines. A releasing store first waits as `FENCE.DEV` (R233, R254, R259, R260, R262). In FWD the lines that touch an open region enter
the buffer in ascending order, each with its record of R289 at the next place of the tape and linked to the one before, which becomes the
head (R290 to R292; that their old bytes are read as they arrive is the model's choice, log entry 78). In REV they pop the gang's records in
descending order: each cell is exchanged with 0 and its rounded value is on its way to the lowest thread that names it, the others' is +0,
the OLD halfwords are restored, and the head is the last LINK (R295, R296). Where the tape is full, or a record is not the one to pop, the
path traps before any effect (R293, R296). -/
def Obligations.StoresComplete : Prop :=
  ∀ (s : State) (g : Gang) (p : Path) (o : BitVec 2) (z : BitVec 3) (b : BitVec 5) (a d : BitVec 7) (m : Bool), Executes s g p →
    (o = 1 → g.gwct.toNat ≤ coreNow s g.core) → (z = 0 ∨ z = 2 ∨ z = 4 ∨ z = 5 ∨ z = 6) →
    let va := fun (t : Thread) => accAddr s g t b.toNat a.toNat
    let place := fun (trs : Thread → List (Nat × Trans)) (t : Thread) => partsAt (trs t) t.lpos (va t) (accBytes z) d.toNat (storeVal t z d.toNat)
    (∀ trs : Thread → List (Nat × Trans), bufRoom s g → (∀ t ∈ activeThreads s g, untaped s g (accBytes z) (va t)) →
      (∀ t ∈ activeThreads s g, checkRuns s g (leader s g va (accBytes z) t) t .write (pageRuns (va t) (accBytes z)) = .ok (trs t)) →
      ∃ u, exec (.stg o z b a d m) s = .next u ∧ storesIssued s u g m (place trs)) ∧
    (∀ (trs : Thread → List (Nat × Trans)) (n : Nat) (r : Region) (ls : List Nat), tapedChecks s g z va trs n r →
      let hits := taping s g z va
      let ordinary := fun (u : State) (k : Gang) => ∀ t ∈ activeThreads s g, t ∉ hits → ∀ x ∈ place trs t,
        (ownTarget x = true → ∃ b ∈ u.wbuf, b.core = g.core ∧ b.slot = g.slot ∧ x ∈ b.parts) ∧
        (ownTarget x = false → ∃ o ∈ k.out, o.kind = .external ∧ (x ∈ o.parts ∨ ∀ y ∈ halfParts x, y ∈ o.parts))
      touchedLines hits va ls →
      (gangMode s g = 1 → ls.Pairwise (· < ·) →
        (r.tlim < r.tp + 160 * ls.length → storeTraps (exec (.stg o z b a d m) s) s g p 0x08 (ls.headD 0) n) ∧
        ∀ rt, r.tp + 160 * ls.length ≤ r.tlim → r.tp + 160 * ls.length < 2 ^ 64 →
          deviceRuns s g .write ((List.range ls.length).flatMap (fun i => pageRuns (r.tp + 160 * i) 160)) = .ok rt →
          ∃ u k, exec (.stg o z b a d m) s = .next u ∧ curGang u = some k ∧ u.mem = s.mem ∧ u.hostMem = s.hostMem ∧ u.teams = s.teams ∧
            movesOn s g k m ∧ k.sregs = g.sregs ∧ k.threads.map (·.v) = g.threads.map (·.v) ∧ ordinary u k ∧
            k.tapeHead = toDword (r.tp + 160 * (ls.length - 1)) ∧ k.tapeSeq = g.tapeSeq + BitVec.ofNat 21 ls.length ∧
            regionOf u g.ctx n = some { r with tp := r.tp + 160 * ls.length } ∧
            ∀ (i l : Nat), ls[i]? = some l → ∃ w ∈ u.wbuf, w.core = g.core ∧ w.slot = g.slot ∧
              (∀ t ∈ hits, va t / 128 * 128 = l → ∀ x ∈ place trs t, x ∈ w.parts) ∧
              ∃ tr, w.tape = some tr ∧ tr.entry = n ∧ tr.line = l ∧ tr.link = (if i = 0 then g.tapeHead.toNat else r.tp + 160 * (i - 1)) ∧
                (∀ h, bitOf tr.hmask h = true ↔ touches hits va (accBytes z) l h) ∧ tr.team = g.team.getD 0 ∧ tr.ix = g.ix ∧
                tr.seq = (g.tapeSeq + BitVec.ofNat 21 (i + 1)).toNat ∧ tr.parts = recordParts rt (r.tp + 160 * i)) ∧
      (gangMode s g = 2 → ls.Pairwise (· > ·) → ∀ (ct : List (Nat × Trans)) (bs : List (List Byte)),
        deviceRuns s g .atomic (ls.flatMap (fun l => (hits.filter (fun t => va t / 128 * 128 == l)).map (fun t => (cellAddr r (va t), 16)))) = .ok ct →
        chainOf s g ls.length g.tapeHead.toNat bs →
        let pops := fun (i l : Nat) => ∃ b, bs[i]? = some b ∧ popsRecord b l n (touches hits va (accBytes z) l)
        (∀ i l, ls[i]? = some l → (∀ j x, j < i → ls[j]? = some x → pops j x) → ¬ pops i l →
          storeTraps (exec (.stg o z b a d m) s) s g p 0x07 l n) ∧
        let lpa := fun (t : Thread) => (partAt (trs t) t.lpos (va t) (accBytes z) 0 0 0).pa / 128 * 128
        let cpa := fun (t : Thread) => (partAt ct t.lpos (cellAddr r (va t)) 16 0 0 0).pa
        let gets := adjointOf s g r hits va cpa
        ((∀ i l, ls[i]? = some l → pops i l) → apart hits va lpa cpa → memoriesWf s →
          ∃ u k, exec (.stg o z b a d m) s = .next u ∧ curGang u = some k ∧ u.hostMem = s.hostMem ∧ u.teams = s.teams ∧ movesOn s g k m ∧
            k.sregs = g.sregs ∧ ordinary u k ∧ k.tapeHead = toDword (fieldAt ((bs[ls.length - 1]?).getD []) 24 8) ∧
            regionOf u g.ctx n = some r ∧ k.fstat = hits.foldl (fun f t => fstatOr f (gets t).flags) g.fstat ∧ k.threads.length = g.threads.length ∧
            (∀ (i : Nat) (t t' : Thread), g.threads[i]? = some t → k.threads[i]? = some t' →
              (t ∉ hits → t'.v = t.v) ∧
              (t ∈ hits → (m = false → t'.v = t.v) ∧ (∀ q, q ≠ d.toNat → vreg t' q = vreg t q) ∧
                ((∃ f ∈ t'.inflight, f.reg = d.toNat ∧ f.data = false ∧ f.result = some (toWord (gets t).bits)) ∨
                  vreg t' d.toNat = toWord (gets t).bits))) ∧
            (∀ t ∈ hits, ∀ j, j < 16 → memByte u (cpa t + j) = 0) ∧
            (∀ t ∈ hits, ∀ (i : Nat) (b : List Byte) (j : Nat), ls[i]? = some (va t / 128 * 128) → bs[i]? = some b → j < 128 →
              touches hits va (accBytes z) (va t / 128 * 128) (j / 2) → memByte u (lpa t + j) = b.getD (32 + j) 0) ∧
            ∀ x, (∀ t ∈ hits, x < cpa t ∨ cpa t + 16 ≤ x) →
              (∀ t ∈ hits, ∀ j, x = lpa t + j → j < 128 → ¬ touches hits va (accBytes z) (va t / 128 * 128) (j / 2)) → memByte u x = memByte s x))) ∧
    (∀ tm : Team, gangTeam s g = some tm →
      (∀ t ∈ activeThreads s g, teamCheck s g t.lpos (va t) (accBytes z) .write = .ok tm) →
      ∃ u tm', exec (.stt o z b a d m) s = .next u ∧ storedOn s u g ∧
        u.mem = s.mem ∧ gangTeam u g = some tm' ∧ tm'.mem = (activeThreads s g).foldl (fun x t =>
          sparseWriteRun memDefault x (va t % 2 ^ 28) (toBytes (accBytes z) (storeVal t z d.toNat))) tm.mem) ∧
    (∀ tm : Thread → Team, activeThreads s g ≠ [] →
      (∀ t ∈ activeThreads s g, teamCheck s g t.lpos (va t) (accBytes z) .write = .ok (tm t) ∧ some (tm t).index ≠ g.team) →
      ∃ u k, exec (.stt o z b a d m) s = .next u ∧ curGang u = some k ∧ u.mem = s.mem ∧ u.teams = s.teams ∧ movesOn s g k m ∧
        ∀ t ∈ activeThreads s g, ∀ x ∈ teamParts t.lpos (va t) (accBytes z) (tm t).index d.toNat (storeVal t z d.toNat),
          ∃ y ∈ k.out, y.kind = .crewStore ∧ x ∈ y.parts) ∧
    ((∀ t ∈ activeThreads s g, (va t + accBytes z - 1) / 4 < plimOf s g t ∧ privCheck s g t (va t) (accBytes z) = none ∧
        findThread g t.lpos = some t) → l1Room s g.core 512 →
      ∃ u, exec (.stp o z b a d m) s = .next u ∧ storedOn s u g ∧ u.mem = s.mem ∧
        u.teams = s.teams ∧ ∀ t ∈ activeThreads s g, (∀ x ∈ activeThreads s g, x.tidx = t.tidx → x = t) →
          privRead u g t (va t) (accBytes z) = toBytes (accBytes z) (storeVal t z d.toNat))

/-- `SMEM` loads and stores whose checks pass are issued once for the path: one event of 4, 8 or 16 bytes at the address in the
scalar pair (R141, R30), which lies in no region of a taped mode (R288). -/
def Obligations.ScalarAccessesIssue : Prop :=
  ∀ (s : State) (g : Gang) (p : Path) (f : BitVec 6) (a d : BitVec 9) (m : Bool) (tr : Trans), Executes s g p → p.mask ≠ 0 →
    let n := 2 ^ (f.toNat % 3)
    let va := (spair g a.toNat).toNat
    untaped s g (4 * n) va → va % (4 * n) = 0 → pteTgt tr.pte < 2 →
    (f.toNat < 3 → translateChecked s g.core g.ctx va (4 * n) .read = .ok tr →
      ∃ u k o x, exec (.smemLoad f a d m) s = .next u ∧ curGang u = some k ∧ u.mem = s.mem ∧ k.threads = g.threads ∧
        k.paths = (updPath g s.cur.path (pathOn m s.cur.npc)).paths ∧ k.out = [o] ∧ o.kind = .loadScalar n ∧ o.parts = [x] ∧
        x.pa = transPa tr va ∧ x.size = 4 * n ∧ x.reg = d.toNat ∧
        k.sflight.map (fun f => (f.op, f.reg, f.data)) = (List.range n).map (fun j => (o.id, d.toNat + j, false))) ∧
    (3 ≤ f.toNat → f.toNat < 6 → bufRoom s g → translateChecked s g.core g.ctx va (4 * n) .write = .ok tr →
      ∃ u k x, exec (.smemStore f a d m) s = .next u ∧ curGang u = some k ∧ u.mem = s.mem ∧ k.threads = g.threads ∧
        k.sregs = g.sregs ∧ movesOn s g k m ∧ x.pa = transPa tr va ∧ x.size = 4 * n ∧
        partBytes x = toBytes (4 * n) (packLanes 32 ((List.range n).map (fun j => (sreg g (d.toNat + j)).toNat))) ∧
        ((∃ b ∈ u.wbuf, b.core = g.core ∧ b.slot = g.slot ∧ x ∈ b.parts) ∨ ∃ o ∈ k.out, o.kind = .external ∧ x ∈ o.parts))

/-- `ATOM` and `ATOMX` whose checks pass are issued: each active thread's operand is on its way to its atomic point with the address in
`v[A:A+1]`, which lies in no region of a taped mode (R288), and the registers of the returned value are in flight (R266 to R270). -/
def Obligations.AtomicsIssue : Prop :=
  ∀ (s : State) (g : Gang) (p : Path) (w : Bool) (b : BitVec 6) (a d : BitVec 7) (sat m : Bool) (i : Instr) (op : AtomicOp)
    (tr : Thread → Trans), Executes s g p → activeThreads s g ≠ [] → (i, op) ∈ atomics w b a d sat m →
    let va := fun (t : Thread) => ((vpair t a.toNat).toNat +
      (match s.cur.imm with
       | none => 0
       | some i => (i.signExtend 64).toNat)) % 2 ^ 64
    (∀ t ∈ activeThreads s g, untaped s g (atomSize op w) (va t) ∧ va t % atomSize op w = 0 ∧ checkRun s g t t (va t) (atomSize op w) .atomic = .ok (va t, tr t) ∧
      pteTgt (tr t).pte ≠ 2 ∧ atomSupported op (tgtOf (tr t)) = true) →
    ∃ u, exec i s = .next u ∧ accessIssued s u g m false (fun _ => .atomic op w (dynRM g) g.anchor.toInt)
      (fun t => [{ partAt [(va t, tr t)] t.lpos (va t) (atomSize op w) 0 (match op with | .lr => 0 | _ => b.toNat) 0 with
        x := (atomOpnd op w t b.toNat).1, y := (atomOpnd op w t b.toNat).2 }]) (atomDst op w d.toNat)

/-- The `CACHE` functions run to their end: memory is as it was after `.pref` and `.linv`, `.linv` leaves no leased copy of its lines
with the core or its die, and `.pwb` and `.pinv` write the dirty line of their words back, which `.pwb` keeps clean and `.pinv` drops
(R242, R254, R271). -/
def Obligations.CacheControlCompletes : Prop :=
  ∀ (s : State) (g : Gang) (p : Path) (b : BitVec 5) (a n : BitVec 7) (m : Bool), Executes s g p →
    let va := fun (t : Thread) => accAddr s g t b.toNat a.toNat
    ((∀ l ∈ s.privLines, l.core ≠ g.core) → ∃ u, exec (.cachePref b a n m) s = .next u ∧ u.mem = s.mem ∧ curGang u = some (updPath g s.cur.path (pathAt s.cur.npc))) ∧
    (∃ u, exec (.cacheLinv b a n m) s = .next u ∧ u.mem = s.mem ∧ curGang u = some (updPath g s.cur.path (pathAt s.cur.npc)) ∧
      ∀ t ∈ activeThreads s g, ∀ l ∈ cacheLines s g t (va t) (n.toNat + 1), ∀ c ∈ u.lines, c.line = l.2 →
        c.holder ≠ .l1 g.core ∧ c.holder ≠ .rdc (coreDie g.core)) ∧
    ((∀ t ∈ activeThreads s g, va t / 4 + (n.toNat + 1) ≤ plimOf s g t) → (∀ t ∈ g.threads, findThread g t.lpos = some t) →
      (∀ l ∈ s.privLines, l.valid ≠ 0) → s.privLines.Pairwise (fun l x => samePriv l x = false) →
      ((∀ t ∈ activeThreads s g, ∀ x ∈ wordLines s g t (va t) (n.toNat + 1), x.dirty = 0) →
        exec (.cachePwb b a n m) s = .next (gangOnward s g)) ∧
      ((∀ t ∈ activeThreads s g, wordLines s g t (va t) (n.toNat + 1) = []) →
        exec (.cachePinv b a n m) s = .next (gangOnward s g)) ∧
      ∀ (l : PrivLine) (v : State) (gw : Nat), l.dirty ≠ 0 → (∃ t ∈ activeThreads s g, l ∈ wordLines s g t (va t) (n.toNat + 1)) →
        (∀ t ∈ activeThreads s g, ∀ x ∈ wordLines s g t (va t) (n.toNat + 1), x = l) → writeBackLine s l = .ok (v, gw) →
        ∃ u w, exec (.cachePwb b a n m) s = .next u ∧ exec (.cachePinv b a n m) s = .next w ∧
          u.mem = v.mem ∧ w.mem = v.mem ∧ { l with dirty := 0 } ∈ u.privLines ∧ l ∉ u.privLines ∧
          w.privLines = s.privLines.filter (fun x => x != l) ∧
          (∃ k, curGang u = some k ∧ movesOn s g k m) ∧ ∃ k, curGang w = some k ∧ movesOn s g k m)

/-- A load is performed and its result comes (R261, R30): the destination registers in flight get the bytes that memory holds, by the size
code, and the operation is over: device memory where no cache serves the core, a copy that the core's L1 or its die's remote-data cache
holds under its lease, under the core's own buffered stores (R229, R233), host memory, team memory, and private memory, whose line a first
access fills (R487); a `SMEM` load and an `ADJRD`, whose registers are the gang's (R302). A reduction returns its result to each thread
(R138). The result comes no sooner than a message from the home takes, 19 ticks at least, and after 48 at the latest that a message must
take (R308): the model's choice of messages is log entry 76. -/
def Obligations.LoadsReturn : Prop :=
  ∀ (s : State) (core slot : Nat) (g : Gang) (o : OutOp), findGang s core slot = some g → findOp g o.id = some o → o.got = [] →
    opBlocked s g o = false → g.threads ≠ [] →
    let lands := fun (f : LanePart → Nat → Word) (k : Gang) => k.threads.length = g.threads.length ∧
      ∀ (i : Nat) (t t' : Thread) (x : LanePart), g.threads[i]? = some t → k.threads[i]? = some t' → x ∈ o.parts →
        x.lpos = t.lpos → (∀ e ∈ t.inflight, e.op = o.id → e.data = false → x.reg ≤ e.reg ∧ e.reg < x.reg + 4 ∧
          (x.size ≤ 4 → e.reg = x.reg) ∧ (x.size = 8 → e.reg ≤ x.reg + 1)) →
        t'.v = t.v ∧ t'.inflight = withResults o.id (f x) t.inflight
    let back := fun (f : LanePart → Nat → Word) => ∃ u, exec (.loadReturn core slot o.id) s = .next u ∧ u.mem = s.mem ∧
      comes u s.dtb core slot o.id (lands f)
    let load := fun (z : Nat) (bytes : LanePart → List Byte) => back (fun x r => loadWord z (r - x.reg) (ofBytes (bytes x)))
    let vector := (o.parts.map (·.lpos)).Nodup ∧ (∀ x ∈ o.parts, x.lpos < 64) ∧
      ∀ x ∈ o.parts, x.size = 1 ∨ x.size = 2 ∨ x.size = 4 ∨ x.size = 8 ∨ x.size = 16
    (∀ z x c, o.kind = .load z false → o.whole = true → vector → o.parts = [x] → x.tgt = 0 → sizeBytes z = x.size → z < 7 →
      x.pa % 128 + x.size ≤ 128 → (∀ l ∈ s.privLines, l.core ≠ core) →
      let line := x.pa / 128
      let die := coreDie core
      let seen := fun (copy : List Byte) (x : LanePart) => seenBytes s core copy x.pa x.size
      (heldLine s (.l1 core) die line = some c → load z (seen c.bytes)) ∧
      (heldLine s (.l1 core) die line = none → homeDie x.home (line * 128) ≠ die → heldLine s (.rdc die) die line = some c →
        load z (seen c.bytes)) ∧
      (heldLine s (.l1 core) die line = none → homeDie x.home (line * 128) = die → load z (seen (memBytes s (line * 128) 128))) ∧
      ∀ b rest p k, s.wbuf = b :: rest → b.core = core → b.parts = [p] → p.tgt = 0 → k < p.size →
        bufferByte s.wbuf core (p.pa + k) = (partBytes p)[k]?) ∧
    (∀ n x, o.kind = .loadScalar n → o.whole = true → o.parts = [x] → x.lpos = 64 → x.tgt = 0 → x.size = 4 * n → x.pa % 128 + x.size ≤ 128 →
      uncached s core → (∀ e ∈ g.sflight, e.op = o.id → e.data = false → x.reg ≤ e.reg ∧ e.reg < x.reg + n) →
      ∃ u, exec (.loadReturn core slot o.id) s = .next u ∧ u.mem = s.mem ∧ notYet u s.dtb core slot o.id ∧
        comes u s.dtb core slot o.id (fun k => k.sregs = g.sregs ∧ k.threads = g.threads ∧
          k.sflight = withResults o.id (fun r => toWord (ofBytes (memBytes s (x.pa + 4 * (r - x.reg)) 4))) g.sflight)) ∧
    (∀ x rm, o.kind = .adjRead → o.parts = [x] → x.lpos = 64 → x.tgt = 0 → x.size = 16 → rmodeOf x.off = some rm → (∀ b ∈ s.wbuf, b.core ≠ core) →
      (∀ e ∈ g.sflight, e.op = o.id → e.data = false → e.reg = x.reg) →
      let r := axRead x.x.toInt fmt32 rm (BitVec.ofNat 128 (ofBytes (memBytes s x.pa 16))).toInt
      ∃ u, exec (.loadReturn core slot o.id) s = .next u ∧ u.mem = s.mem ∧ notYet u s.dtb core slot o.id ∧
        (∀ c ∈ u.lines, ¬ (c.holder = .l1 core ∧ c.line = x.pa / 128)) ∧
        comes u s.dtb core slot o.id (fun k => k.sregs = g.sregs ∧ k.threads = g.threads ∧
          k.fstat = g.fstat ||| r.flags.zeroExtend 32 ∧ k.sflight = withResults o.id (fun _ => toWord r.bits) g.sflight)) ∧
    (vector →
    (∀ z st, o.kind = .load z st → o.whole = true → (∀ x ∈ o.parts, x.tgt = 0 ∧ sizeBytes z = x.size) → uncached s core → z < 7 →
      load z (fun x => memBytes s x.pa x.size)) ∧
    (∀ z st, o.kind = .load z st → o.whole = true → (∀ x ∈ o.parts, x.tgt = 1 ∧ sizeBytes z = x.size) → z < 7 →
      load z (fun x => hostBytes s x.pa x.size)) ∧
    (∀ z (tm : Team), o.kind = .loadTeam z → o.whole = true → findTeam s g.ctx g.grid tm.index = some tm →
      (∀ x ∈ o.parts, x.dev = tm.index ∧ x.tgt = 0 ∧ sizeBytes z = x.size) → z < 7 →
      load z (fun x => sparseReadRun memDefault tm.mem x.pa x.size)) ∧
    (∀ z, o.kind = .loadPriv z → o.whole = true → (∀ x ∈ o.parts, x.tgt = 0 ∧ sizeBytes z = x.size) → z < 7 →
      (∀ t ∈ g.threads, findThread g t.lpos = some t) →
      (∀ x ∈ o.parts, ∀ t, findThread g x.lpos = some t → ∀ w ∈ privWords x.va x.size, privHeld s g (privAddr s g t w) = true) →
      load z (fun x => (findThread g x.lpos).elim [] (fun t => privRead s g t x.va x.size))) ∧
    (∀ z x t, o.kind = .loadPriv z → o.whole = true → o.parts = [x] → x.tgt = 0 → sizeBytes z = x.size → z < 7 → x.size ≤ 4 →
      x.va % x.size = 0 → findThread g x.lpos = some t → privHeld s g (privAddr s g t (x.va / 4)) = false →
      privCheck s g t x.va x.size = none → l1Room s g.core 1 →
      load z (fun x => privRead s g t x.va x.size) ∧
      ∃ u, exec (.loadReturn core slot o.id) s = .next u ∧ privHeld u g (privAddr s g t (x.va / 4)) = true) ∧
    (∀ op ty, o.kind = .gred op ty → (∀ x ∈ o.parts, x.size = 4 ∨ x.size = 8) →
      ∃ u k, exec (.loadReturn core slot o.id) s = .next u ∧ findGang u core slot = some k ∧ u.mem = s.mem ∧ (∀ y ∈ k.out, y.id ≠ o.id) ∧
        lands (fun x r => if r = x.reg then loWord x.x else hiWord x.x) k))

/-- A buffered store arrives: its bytes are in memory and it has left the buffer; a misaligned one arrives byte by byte. A crew-remote
store arrives in its team's memory, a store to host memory in host memory (R233, R236, R245, R246, R262, R270). A line of a taped store
arrives with its record: as one event its old bytes are read, the new ones are in memory, and then the 160 bytes of R289 (R292; log entry
78). -/
def Obligations.StoresArrive : Prop :=
  (∀ (s : State) (b : BufStore), s.wbuf.find? (fun x => x.core == b.core && x.id == b.id) = some b →
    (∀ x ∈ b.parts, x.tgt = 0 ∧ olderStore s b x = false) → b.parts ≠ [] → b.tape = none → storeReached s b = true → (b.parts.map (·.pa)).Nodup →
    (b.whole = true → ∃ u, exec (.storeArrival b.core b.id) s = .next u ∧ u.hostMem = s.hostMem ∧
      u.mem = b.parts.foldl (fun x y => sparseWriteRun memDefault x y.pa (partBytes y)) s.mem ∧
      u.wbuf = s.wbuf.filter (fun x => x.id != b.id)) ∧
    (b.whole = false → ∃ u x, exec (.storeArrival b.core b.id) s = .next u ∧ x ∈ b.parts ∧
      u.mem = sparseWriteRun memDefault s.mem x.pa (partBytes x) ∧
      (∀ y ∈ u.wbuf, y.id = b.id → ∀ z ∈ y.parts, z.pa ≠ x.pa) ∧
      ∀ y ∈ b.parts, y ≠ x → ∃ c ∈ u.wbuf, c.id = b.id ∧ ∃ z ∈ c.parts, z.pa = y.pa ∧ partBytes z = partBytes y)) ∧
  (∀ (s : State) (b : BufStore) (r : TapeRec) (base : Nat), s.wbuf.find? (fun x => x.core == b.core && x.id == b.id) = some b →
    b.tape = some r → b.parts ≠ [] → (∀ x ∈ b.parts, x.tgt = 0 ∧ x.pa / 128 * 128 = base) → (∀ x ∈ r.parts, x.tgt = 0) →
    storeReached s b = true → tapedWaits s b = false →
    ∃ (u : State) (rec : List Byte), exec (.storeArrival b.core b.id) s = .next u ∧ rec.length = 160 ∧
      (∀ k, k < 128 → rec[32 + k]? = some (if bitOf r.hmask (k / 2) then memByte s (base + k) else 0)) ∧
      fieldAt rec 24 8 = r.link % 2 ^ 64 ∧ fieldAt rec 16 8 = r.line % 2 ^ 64 ∧ fieldAt rec 8 8 = r.hmask % 2 ^ 64 ∧
      bitsOf (fieldAt rec 0 8) 63 32 = r.team % 2 ^ 32 ∧ bitsOf (fieldAt rec 0 8) 31 25 = r.ix % 2 ^ 7 ∧
      bitsOf (fieldAt rec 0 8) 24 21 = r.entry % 2 ^ 4 ∧ bitsOf (fieldAt rec 0 8) 20 0 = r.seq % 2 ^ 21 ∧
      u.hostMem = s.hostMem ∧ u.wbuf = s.wbuf.filter (fun x => x.id != b.id) ∧
      u.mem = r.parts.foldl (fun x y => sparseWriteRun memDefault x y.pa ((rec.drop y.off).take y.size))
        (b.parts.foldl (fun x y => sparseWriteRun memDefault x y.pa (partBytes y)) s.mem)) ∧
  (∀ (s : State) (core slot : Nat) (g : Gang) (o : OutOp) (tm : Team), findGang s core slot = some g → findOp g o.id = some o →
    g.core = core → opBlocked s g o = false → o.kind = .crewStore → o.whole = true → o.parts ≠ [] →
    findTeam s g.ctx g.grid tm.index = some tm → (∀ x ∈ o.parts, x.dev = tm.index) →
    ∃ u tm', exec (.crewStoreAck core slot o.id) s = .next u ∧ u.mem = s.mem ∧ findTeam u g.ctx g.grid tm.index = some tm' ∧
      tm'.mem = o.parts.foldl (fun x y => sparseWriteRun memDefault x y.pa (partBytes y)) tm.mem ∧
      ∀ k ∈ u.gangs, k.core = core → ∀ y ∈ k.out, y.id ≠ o.id) ∧
  (∀ (s : State) (g : Gang) (o : OutOp), opGang s o.id = some (g, o) → opBlocked s g o = false → o.kind = .external →
    o.whole = true → o.parts ≠ [] → (∀ x ∈ o.parts, x.tgt = 1) →
    ∃ u, exec (.cxlAcknowledgement o.id []) s = .next u ∧ u.mem = s.mem ∧
      u.hostMem = o.parts.foldl (fun x y => sparseWriteRun memDefault x y.pa (partBytes y)) s.hostMem ∧
      ∀ k ∈ u.gangs, k.core = g.core → ∀ y ∈ k.out, y.id ≠ o.id)

/-- An atomic executes at its home slice for its lowest remaining thread: memory holds the new value of R267 or R268, or is unchanged
where the operation writes nothing; the thread's registers in flight get the old value, once a message from the home has had its time (R308; log entry 76); an `LR` sets the
reservation, an `SC` clears it (R249, R267 to R269). -/
def Obligations.AtomicsExecute : Prop :=
  ∀ (s : State) (core slot : Nat) (g : Gang) (t : Thread) (o : OutOp) (op : AtomicOp) (w : Bool) (rm : RMode) (an : Int)
    (x : LanePart) (rest : List LanePart), findGang s core slot = some g → g.core = core → g.slot = slot → findOp g o.id = some o →
    o.kind = .atomic op w rm an → o.parts = x :: rest → x ∉ rest → o.got = [] → x.tgt = 0 → opBlocked s g o = false → findThread g x.lpos = some t →
    x.lpos < 64 →
    let n := atomSize op w
    let bits := if w then 64 else 32
    let old := ofBytes (memBytes s x.pa n)
    let held := t.lr.any (fun r => r.1 == x.pa / 64 && decide (s.clk < r.2 + 8192))
    ∃ u k t', exec (.atomicAtHome core slot o.id) s = .next u ∧ findGang u core slot = some k ∧ findThread k x.lpos = some t' ∧
      u.mem = (match atomNew op bits rm an held old x.x.toNat x.y.toNat with
        | some v => sparseWriteRun memDefault s.mem x.pa (toBytes n v)
        | none => s.mem) ∧
      t'.v = t.v ∧ t'.inflight = t.inflight ∧ t'.lr = (match op with
        | .lr => some (x.pa / 64, s.clk)
        | .sc => none
        | _ => t.lr) ∧
      notYet u s.dtb core slot o.id ∧
      ∀ r, r < 128 → (∀ e ∈ t.inflight, e.op = o.id → e.data = false → e.reg = r ∨ e.reg = r + 1) →
        (∃ e ∈ t.inflight, e.op = o.id ∧ e.data = false ∧ e.reg = r) → rest = [] →
        comes u s.dtb core slot o.id (fun k => ∃ t2, findThread k x.lpos = some t2 ∧ t2.v = t.v ∧
          t2.inflight = withResults o.id (fun q => if q = r then toWord (atomRet op held old) else toWord (atomRet op held old / 2 ^ 32))
            t.inflight)

/-- Leases, reservations, translations and code pages: an expired lease leaves its cache, a reservation ends 8,192 clocks after it was
set, the local store's boundary moves within its bounds, a walk's result is cached, and a code page is verified exactly when all its
chunks have the registered hashes (R64, R230, R249, R255, R407). -/
def Obligations.CacheAndTranslationEvents : Prop :=
  (∀ (s : State) (h : Holder) (line : Nat), ∃ u, exec (.leaseExpiry h line) s = .next u ∧ u.mem = s.mem ∧
    ∀ c, c ∈ u.lines ↔ c ∈ s.lines ∧
      ¬ (c.holder = h ∧ c.line = line ∧ c.expiry ≤ dieNow s (match h with | .l1 k => coreDie k | .rdc k => k))) ∧
  (∀ (s : State) (core slot lane : Nat) (g : Gang), findGang s core slot = some g →
    exec (.lrReservationTimeout core slot lane) s = .next (updGang s core slot (fun _ =>
      { g with threads := g.threads.map (fun t =>
          if t.lpos = lane ∧ ∃ r ∈ t.lr.toList, r.2 + 8192 ≤ s.clk then { t with lr := none } else t) }))) ∧
  (∀ (s : State) (core : Nat) (mv : CarveMove), sparseWf 0 s.carve = true →
    let old := carveOf s core
    let want := match mv with
      | .lessL1 => old + 32768
      | .moreL1 => old - 32768
      | .stay => old
    ∃ u, exec (.carveoutInterval core mv) s = .next u ∧
      carveOf u core = (if roundCarve (coreTmem s core) ≤ want ∧ want + coreL1min s core ≤ 512 * 1024 then want else old)) ∧
  (∀ (s : State) (core ctx : Nat) (va : Dword) (tr : Trans), walkTables s (coreDie core) ctx va.toNat = .ok tr →
    tlbFind s core ctx va.toNat = none → ∃ u, exec (.pageWalkComplete core ctx va) s = .next u ∧ u.mem = s.mem ∧
      (⟨core, ctx, va.toNat / 2 ^ tr.bits, tr.pte, tr.bits⟩ : TlbEntry) ∈ u.tlb) ∧
  ∀ (s : State) (frame : Nat) (leaves : List (BitVec 512)), leaves ≠ [] → ∃ u, exec (.codePageVerify frame leaves) s = .next u ∧
    u.mem = s.mem ∧
    ((frame, leaves.length) ∈ u.verified ↔ ∀ (i : Nat) (h : BitVec 512), leaves[i]? = some h →
      leafHash (memBytes s ((frame + i) * 4096) 4096) = h) ∧
    ((frame, leaves.length) ∉ u.verified → u.codeBad = s.codeBad ++ [(frame, leaves.length)]) ∧
    ∀ x, x ≠ (frame, leaves.length) → (x ∈ u.verified ↔ x ∈ s.verified)

/-! ### Threads that spawn and suspend (spec/17) -/

/-- `SPAWN` and `SUSP` run to their end in a team whose mode is OFF. Each active thread's new thread is a record in a slot of the
tenant's den area, with the fields of R370, and waits in the free den of its target. A suspended thread's record stands at its address
with the fields of R372, and the thread has left its gang and its team (R345, R349, R351, R370 to R372). -/
def Obligations.SpawnAndSuspendComplete : Prop :=
  ∀ (s : State) (g : Gang) (p : Path) (d : BitVec 7) (m : Bool), Executes s g p → memoriesWf s → gangMode s g = 0 →
    g.gwct.toNat ≤ coreNow s g.core →
    (∀ (kx : BitVec 3) (c : Ctx), findCtx s g.ctx = some c → c.densize ≠ 0 → curSlot s g (.denArea 1) = true → s.dens = [] →
      (∀ h ∈ s.gangs, ∀ q ∈ h.parked, q.cause ≠ .noDen) →
      (∀ t ∈ g.threads, t.spawned = false) → (activeThreads s g).length ≤ (freeDenSlots c).length → (activeThreads s g).length < gridGangSize s g.ctx g.grid →
      (∀ n ∈ freeDenSlots c, grantRun c false true (c.denbase.toNat + 128 * n) 128 = true) →
      (∀ t ∈ activeThreads s g, (vpair t d.toNat).getLsbD 0 = false) →
      (∃ l : List Dword, l.length ≤ 32 ∧ ∀ t ∈ activeThreads s g, vpair t d.toNat ∈ l) →
      ∃ u c' k, exec (.spawn kx d m) s = .next u ∧ findCtx u g.ctx = some c' ∧ curGang u = some k ∧
        k.threads.map butReservation = g.threads.map butReservation ∧ k.paths = (updPath g s.cur.path (pathAt s.cur.npc)).paths ∧
        ∀ t ∈ activeThreads s g, ∃ n x, n ∈ freeDenSlots c ∧ n ∈ c'.denUsed ∧ x ∈ u.dens ∧ x.pc = vpair t d.toNat ∧ x.owner = .free ∧
          x.ctx = g.ctx ∧ x.grid = g.grid ∧ .record ⟨c.denbase.toNat + 128 * n, false, kx.toNat, []⟩ (some n) ∈ x.items ∧
          recordIs (ofBytes (memBytes u (c.denbase.toNat + 128 * n) 128)) ((List.range 8).map (fun r => (r, vreg t r))) 0
            (vpair t d.toNat) 0xFFFFFFFFFFFFFFFF#64 0 (2 ^ 42 - 1) 0x80 2 0) ∧
    (∀ (r : BitVec 9) (tr : Thread → Trans) (gr : Grid),
      let spc := spair g r.toNat
      let w := (sreg g (r.toNat + 4)).toNat
      let pa := fun (t : Thread) => transPa (tr t) (vpair t d.toNat).toNat
      suspLegal (gangVregs s g) spc w → gangVregs s g ≤ 128 → findGrid s g.ctx g.grid = some gr → (∀ l ∈ s.privLines, l.core ≠ g.core) →
      (∀ t ∈ activeThreads s g, (vpair t d.toNat).toNat % 128 = 0 ∧ pteTgt (tr t).pte = 0 ∧
        translateChecked s g.core g.ctx (vpair t d.toNat).toNat 128 .write = .ok (tr t)) →
      (∀ (i j : Nat) (t t' : Thread), g.threads[i]? = some t → g.threads[j]? = some t' → i ≠ j → isActive s g t = true →
        isActive s g t' = true → pa t / 128 ≠ pa t' / 128) →
      ∃ u gr', exec (.susp r d m) s = .next u ∧ gone s u g butReservation ∧ findGrid u g.ctx g.grid = some gr' ∧
        ∀ t ∈ activeThreads s g, ⟨(vpair t d.toNat).toNat, true, 0, (owing g t).owes⟩ ∈ gr'.conts ∧ (t.tidx.getD 0 < 2 ^ 42 →
          recordIs (ofBytes (memBytes u (pa t) 128))
            ((List.range (bitsOf w 14 10)).map (fun k => (bitsOf w 22 16 + k, vreg t (bitsOf w 22 16 + k))))
            (spair g (r.toNat + 2)) spc t.meet t.link (t.tidx.getD (2 ^ 42 - 1)) (t.preds.toNat % 128 + 128) (bitsOf w 1 0) (bitsOf w 9 2)))

/-! ### Convergence registers and guards (spec/10, spec/17) -/

/-- `CSET`, `CSIGN`, `GARM` and `GSET` run to their end: a register without a count takes its set size, signatures count modulo the set
size and a filled round's command leaves the forming state; a guard that is not pending becomes pending, and a pending one takes its
value. A register in use, an unset one and a guard in the wrong state take their traps (R199, R222, R223, R382). -/
def Obligations.ConvergenceAndGuardsComplete : Prop :=
  ∀ (s : State) (g : Gang) (p : Path) (tm : Team) (m : Bool), Executes s g p → gangTeam s g = some tm →
    let change := fun (f : Team → Team) => gangOnward (updTeam s g.ctx g.grid tm.index f) g
    (∀ (r : BitVec 9) (c : BitVec 4), 1 ≤ (sreg g r.toNat).toNat → (sreg g r.toNat).toNat ≤ 1024 →
      ((convReg tm c.toNat).count = 0 → exec (.cset r c m) s = .next (change (fun t =>
        { t with conv := sparseSet ⟨0, 0, none⟩ t.conv c.toNat ⟨(sreg g r.toNat).toNat, 0, none⟩ }))) ∧
      ((convReg tm c.toNat).count ≠ 0 → handlerReady s g p → ∃ u k, exec (.cset r c m) s = .next u ∧
        trapped s u g k p 0x0C 0 s.cur.pc (c.zeroExtend 32))) ∧
    (∀ (r : BitVec 9) (c : BitVec 4), (sreg g r.toNat).toNat ≤ 1024 →
      let v := convReg tm c.toNat
      let n := v.count + (sreg g r.toNat).toNat
      (v.count < v.size → ∃ u, exec (.csign r c m) s = .next u ∧ u.mem = s.mem ∧ u.gangs = (gangOnward s g).gangs ∧
        u.teams = (change (fun t => { t with
          conv := sparseSet ⟨0, 0, none⟩ t.conv c.toNat ⟨v.size, n % v.size, if n < v.size then v.first else none⟩ })).teams ∧
        (v.size ≤ n → ∀ id cmd, v.first = some id → findCmd s id = some cmd → ∃ cmd' ∈ u.cmds, cmd'.id = id ∧ cmd'.stage ≠ .forming)) ∧
      (v.size = 0 → handlerReady s g p → ∃ u k, exec (.csign r c m) s = .next u ∧
        trapped s u g k p 0x0C 0 s.cur.pc (c.zeroExtend 32))) ∧
    (∀ n : BitVec 4,
      (sparseGet .isFalse tm.guards n.toNat ≠ .isPending → ∃ u, exec (.garm n m) s = .next u ∧ sampledOnward u (change (fun t =>
        { t with guards := sparseSet .isFalse t.guards n.toNat .isPending }))) ∧
      (sparseGet .isFalse tm.guards n.toNat = .isPending → handlerReady s g p → ∃ u k, exec (.garm n m) s = .next u ∧
        trapped s u g k p 0x0D 0 s.cur.pc (n.zeroExtend 32))) ∧
    (∀ (r : BitVec 9) (n : BitVec 4),
      (sparseGet .isFalse tm.guards n.toNat = .isPending → ∃ u, exec (.gset r n m) s = .next u ∧ sampledOnward u (change (fun t =>
        { t with guards := sparseSet .isFalse t.guards n.toNat (if sreg g r.toNat = 0 then .isFalse else .isTrue) }))) ∧
      (sparseGet .isFalse tm.guards n.toNat ≠ .isPending → handlerReady s g p → ∃ u k, exec (.gset r n m) s = .next u ∧
        trapped s u g k p 0x0D 0 s.cur.pc (n.zeroExtend 32)))

/-! ### Engine commands (spec/08, spec/10, spec/12) -/

/-- The posting instructions whose checks pass, with room in their queue, run to their end: a command with the captured operands stands
last in the queues, the path is past its bundle, and the operand registers are in flight until its marker. A guard that is false
discards the command (R30, R175, R200, R202, R203, R205, R272). A matrix command gated by a convergence register signs it for each
thread of the path: it forms with an open round, and enters the table with the round that it fills (R198, R199, R223). -/
def Obligations.EngineCommandsPost : Prop :=
  ∀ (s : State) (g : Gang) (p : Path) (t : BitVec 6) (q r : BitVec 8) (m : Bool), Executes s g p →
    (∀ x : Posting, (x ∈ otherPostings t q r m ∨ (x ∈ matrixPostings t q r m ∧ convOf (makeCmd s g x.kind t.toNat x.regs 0) = 15)) →
      postable s g x t → curSlot s g (.queueSlot x.unit) = true →
      ∃ u c, exec x.instr s = .next u ∧ u.cmds.getLast? = some c ∧ c.id = s.nextId ∧ captured s g x t c ∧ posted s u g x s.nextId m ∧
        u.teams = s.teams ∧ (c.stage = .queued ∨ (c.stage = .dropped false ∧
          ∃ n, c.guard = some n ∧ ((gangTeam s g).map (fun t => sparseGet .isFalse t.guards n)).getD .isFalse = .isFalse))) ∧
    (∀ (x : Posting) (tm : Team), x ∈ matrixPostings t q r m → gangTeam s g = some tm →
      let n := convOf (makeCmd s g x.kind t.toNat x.regs 0)
      let v := convReg tm n
      let k := (onPath g p).length
      n ≠ 15 → postable s g x t → v.first = none → v.size ≠ 0 → 0 < k → (∀ c ∈ s.cmds, c.id ≠ s.nextId ∧ (c.gang = g.uid → c.entered = true)) →
      (v.count + k < v.size → ∃ u c, exec x.instr s = .next u ∧ c ∈ u.cmds ∧ c.id = s.nextId ∧ captured s g x t c ∧ c.stage = .forming ∧
        posted s u g x s.nextId m ∧ u.teams = (updTeam s g.ctx g.grid tm.index (fun t => { t with
          conv := sparseSet ⟨0, 0, none⟩ t.conv n ⟨v.size, v.count + k, some s.nextId⟩ })).teams) ∧
      (v.count + k = v.size → ∃ u c, exec x.instr s = .next u ∧ c ∈ u.cmds ∧ c.id = s.nextId ∧ captured s g x t c ∧ c.stage ≠ .forming ∧
        posted s u g x s.nextId m ∧ u.teams = (updTeam s g.ctx g.grid tm.index (fun t => { t with
          conv := sparseSet ⟨0, 0, none⟩ t.conv n ⟨v.size, 0, none⟩ })).teams))

/-! ### Engine events (spec/08, spec/09, spec/12) -/

/-- The row engine: the oldest queued command whose guard allows it starts; a chunk whose pages translate is done, and one whose pages
do not leaves everything as it was and waits for its fault, or, where its access is denied, fails its command; the chunk that ends a row
of a reduction writes the row's result; the command started first completes first, once finished and with its status word written, and
its skipped elements are counted whether it is finished or has failed (R169, R176, R179, R180, R184, R414). That the chunk which ends a
row writes the row's result is the model's choice (log 35), and that a chunk of a row read whole waits for every page of its row its
inference (log 39). -/
def Obligations.RowEngineWorks : Prop :=
  (∀ (s : State) (cl : Nat) (c : EngCmd),
    firstCmd (sampleHeads s) (fun x => isRow x && x.cluster == cl && x.stage == .queued) = some c → findCmd (sampleHeads s) c.id = some c →
    (∀ x ∈ s.cmds, isRow x = true → x.cluster = cl → x.stage ≠ .running ∧ heldEntries s x = false) → guardAllows c = true →
    resident s c.ctx = true → cmdReached s c = true → unitTraceHeld s (cmdSource c) = false → c.kind ≠ .row 3 →
    ∃ u c', exec (.rowCommandStart cl) s = .next u ∧ goesOn u c c' ∧ c'.stage = .running ∧ c'.unit = c.unit ∧ u.mem = s.mem ∧ u.gangs = s.gangs) ∧
  (∀ (s : State) (cl : Nat) (c : EngCmd), firstCmd s (fun x => isRow x && x.cluster == cl && x.stage == .running) = some c →
    findCmd s c.id = some c → unitFree s c = true → updUnread c = false →
    (∀ f, engExtents s c (chunkExtents c) = .error f → ∃ u, exec (.rowChunk cl) s = .next u ∧ unitFaults s u c f) ∧
    (∀ trs, engExtents s c (chunkExtents c) = .ok trs → earlierPlaces s c = [] → ∃ u c', exec (.rowChunk cl) s = .next u ∧ goesOn u c c' ∧ unitDone c c' c.units ∧
      (c.kind = .row 0 → rowSub c ≠ 5 →
        let at_ := chunkAt c
        let d := rowRead s c trs at_.1 0 (rowLen c)
        let x := rowItem c at_.1 d 0
        (at_.2.1 + at_.2.2 ≠ rowLen c → u.mem = s.mem ∧ u.teams = s.teams) ∧
        (at_.2.1 + at_.2.2 = rowLen c → d.poison = false → itemStage c d x = 0 →
          let r := rowReduce (rowSub c) (rowFmt (rowStype c)) (rowFmt (rowDtype c)) c.rm d.xs
          let w := engWrite s c trs (rowDsp c) (rowDst c + at_.1 * rowSize (rowDtype c)) (toBytes (rowSize (rowDtype c)) r.bits)
          u.mem = w.mem ∧ u.hostMem = w.hostMem ∧ u.teams = w.teams)))) ∧
  ∀ (s : State) (cl : Nat) (c : EngCmd), firstStarted s (fun x => isRow x && x.cluster == cl) = some c → settled s c →
    (∀ err, (c.stage = .dropped err ∨ (c.stage = .finished ∧ statusDue c = false ∧ c.err = err)) →
      ∃ u, exec (.rowCommandComplete cl) s = .next u ∧ completed s u c err ∧
        u.gangs = postersWith s c (fun g => { g with nfcnt := g.nfcnt + toWord (c.aux.getD 2 0) })) ∧
    (c.stage = .finished → statusDue c = true → findCmd s c.id = some c →
      ∀ trs, engExtents s c [⟨0, rowStatus c, 16, .write⟩] = .ok trs → ∃ u c' n, exec (.rowCommandComplete cl) s = .next u ∧ goesOn u c c' ∧
        statusDue c' = false ∧ c'.stage = .finished ∧ statusIs n c ∧ u.mem = (engWrite s c trs 0 (rowStatus c) (toBytes 16 n)).mem)

/-- The matrix engine up to a pass: Rook grants the ready entry of the highest priority, the oldest of those, one pass ahead of the
engine; an entry ready for 16,384 clocks ages; the dealer's right passes on, and the four postings of a join are granted together; a
granted pass starts with its rows of A staged (R188, R190, R197, R201). The model's choices: the rows of A are staged as they stand at the
start of the pass (log 44), the dealer grants without a bound on the passes ahead (log 93), and a gated command ranks by when its round
filled and it entered the table (log 94). -/
def Obligations.MatrixEngineGrants : Prop :=
  (∀ (s : State) (cl : Nat), 2 ≤ (engineBusy (sampleHeads s) cl).length → exec (.rookGrant cl) s = .next (sampleHeads s)) ∧
  (∀ (s : State) (cl : Nat) (c : EngCmd) (before after : List EngCmd),
    let s1 := sampleHeads s
    let waits := fun (x : EngCmd) => x.cluster = cl ∧ x.kind ≠ .mmat ∧ isReady s1 x = true
    (engineBusy s1 cl).length < 2 → s1.cmds = before ++ c :: after → findCmd s1 c.id = some c → waits c →
    (∀ x ∈ before, waits x → rookPri s1 x < rookPri s1 c) → (∀ x ∈ after, waits x → rookPri s1 x ≤ rookPri s1 c) →
    ∃ u c', exec (.rookGrant cl) s = .next u ∧ goesOn u c c' ∧ c'.stage = .running ∧ c'.unit = c.unit ∧ c'.aux = [s.clk] ∧ c'.joins = [] ∧
      u.mem = s.mem ∧ u.tiles = s.tiles) ∧
  (∀ (s : State) (cl id : Nat) (c : EngCmd), findCmd s id = some c →
    ((c.cluster = cl ∧ c.stage = .queued ∧ ∃ n, c.readyAt = some n ∧ n + 16384 ≤ s.clk) →
      exec (.rookAging cl id) s = .next (updCmd s id (fun _ => { c with aged := true }))) ∧
    (¬ (c.cluster = cl ∧ c.stage = .queued ∧ ∃ n, c.readyAt = some n ∧ n + 16384 ≤ s.clk) → exec (.rookAging cl id) s = .next s)) ∧
  (∀ (s : State) (table : Nat),
    let s1 := sampleHeads s
    let q := sparseGet 0 s.dealer table % 4
    (∃ u, exec (.dealerExamine table) s = .next u ∧ u.dealer = sparseSet 0 s.dealer table ((q + 1) % 4)) ∧
    ∀ c l, readyMmat s1 (table * 4 + q) (fun _ => true) = some c → joinOf s1 table c = some l → (l.map (·.id)).Nodup →
      (∀ x ∈ l, findCmd s1 x.id = some x) → ∃ u, exec (.dealerExamine table) s = .next u ∧ ∀ x ∈ l, ∃ c', goesOn u x c' ∧
        c'.joins = l.map (·.id) ∧ (joinAgrees l = true → c'.stage = .running) ∧ (joinAgrees l = false → c'.stage = .finished ∧ c'.err = true)) ∧
  ∀ (s : State) (cl : Nat) (c : EngCmd), s.cmds.find? (fun x => isPass x && x.cluster == cl && passReady s x) = some c → c.joins = [] →
    findCmd s c.id = some c → ∃ u c', exec (.passStart cl) s = .next u ∧ goesOn u c c' ∧ c'.unit = 1 ∧ c'.stage = c.stage ∧
      c'.aux[1]? = some s.clk ∧ (∀ i, i < passM c → c'.aux[3 + i]? = some (aSlice s c i).1) ∧ u.mem = s.mem ∧ u.tiles = s.tiles

/-- The matrix engine at work: the end of a pass, a unit of a command, and a command's completion run to their end.

A pass whose commands have run their time ends with all of them, the four of a join together, and is finished; of a pass of one command
each element that the fast path decides is written, rounded once from the addend and the exact products, and every other element is
pending with its entry parked. A unit of `WLOAD`, `ACCX` or a `QNT` command is done where its pages translate, past the pass boundary of
its region; where they do not, it is held, or fails on a denied access. The oldest granted command completes once it is finished and
settled, the four of a join together, its flags with its posting gang (R187, R191, R193 to R195, R197, R201, R207, R208, R214, R216,
R218). That a pass reads B and the addend as they stand at its end is the model's choice (log 44). -/
def Obligations.MatrixEngineWorks : Prop :=
  (∀ (s : State) (cl : Nat) (c : EngCmd), c ∈ s.cmds → c.cluster = cl → passRun s c → (∀ m ∈ passMembers s c, passRun s m) →
    unitTraceHeld s (cmdSource c) = false → ((passMembers s c).map (·.id)).Nodup →
    (∀ x ∈ s.cmds, isPass x = true → x.cluster = cl → x.unit = 1 → x = c) →
    ∃ u, exec (.passEnd cl) s = .next u ∧ ∀ m ∈ passMembers s c, ∃ m', goesOn u m m' ∧ m'.stage = .finished ∧ m'.unit = 2) ∧
  (∀ (s : State) (cl : Nat) (c : EngCmd) (trs : List (Nat × Trans)),
    s.cmds.find? (fun x => isMatrix x && !(isPass x) && x.cluster == cl && engineMay s x) = some c → findCmd s c.id = some c →
    (c.unit = 0 → regionPending s c = false) → engExtents s c (unitExtents c) = .ok trs →
    (c.kind = .wload → (cmdAddrTeam s c (bitsOf (ctlWord c) 31 0)).isSome = true) →
    ∃ u c', exec (.engineUnit cl) s = .next u ∧ goesOn u c c' ∧ unitDone c c' (cmdUnits c)) ∧
  (∀ (s : State) (cl : Nat) (c : EngCmd), oldestGranted s cl = some c → c.cluster = cl → ((passMembers s c).map (·.id)).Nodup →
    (∀ m ∈ passMembers s c, findCmd s m.id = some m ∧ settled s m ∧ m.stage ≠ .running ∧
      (oldestGranted s m.cluster).any (fun x => x.id == m.id) = true) →
    ∃ u, exec (.matrixCommandComplete cl) s = .next u ∧ u.mem = s.mem ∧ ∀ m ∈ passMembers s c, ∀ x ∈ u.cmds, x.id ≠ m.id) ∧
  (∀ (s : State) (cl : Nat) (c : EngCmd), c ∈ s.cmds → findCmd s c.id = some c → isPass c = true → c.cluster = cl → c.stage = .running →
    c.unit = 1 → c.joins = [] → c.aux.getD 1 0 + passClocks c ≤ s.clk → unitTraceHeld s (cmdSource c) = false →
    (∀ x ∈ s.cmds, isPass x = true → x.cluster = cl → x.unit = 1 → x = c) → sparseWf 0#32 s.tiles = true →
    (tileOrigin c).1 + passM c ≤ 128 → (tileOrigin c).2 + passN c ≤ 128 →
    ∃ u c', exec (.passEnd cl) s = .next u ∧ goesOn u c c' ∧ c'.stage = .finished ∧ u.mem = s.mem ∧ u.gangs = s.gangs ∧
      ∀ i j, i < passM c → j < passN c →
        let key := regionKey s c 0 i j
        let a := storedElems (aFmt c) (c.aux.getD (3 + i) 0) (passK c)
        let b := storedElems (bFmt c) (bSlice s c j).1 (passK c)
        let add := fdecode fmt32 (if bitOf (ctlWord c) 13 then 0 else tileAt s key)
        let clean := bitOf (c.aux.getD 2 0) i = false ∧ (bSlice s c j).2 = false ∧ s.tilePoison.contains key = false
        (clean → tileAt u key = (elemRule fmt32 c.rm (some add) (a.zip b)).bits % 2 ^ 32 ∨
          (key ∈ u.tilePend ∧ tileAt u key = tileAt s key ∧ ∃ e ∈ u.parkq, e.cmd = c.id ∧ e.kind = 3 ∧ e.tile = key / 2 ^ 14 % 16 ∧
            e.elem = key % 2 ^ 14 ∧ e.result = (elemRule fmt32 c.rm (some add) (a.zip b)).bits))) ∧
  (∀ (s : State) (cl : Nat) (c : EngCmd),
    s.cmds.find? (fun x => isMatrix x && !(isPass x) && x.cluster == cl && engineMay s x) = some c → findCmd s c.id = some c →
    (c.kind = .wload →
      let off := bitsOf (ctlWord c) 31 0
      let n := min 4096 (wlLen c - 4096 * c.unit)
      let es : List Extent := [⟨0, blockPair c 0 + 4096 * c.unit, n, .read⟩]
      (∀ f, engExtents s c es = .error f → ∃ u, exec (.engineUnit cl) s = .next u ∧ unitFaults s u c f) ∧
      ∀ trs t b, engExtents s c es = .ok trs → cmdAddrTeam s c off = some t → engRead s c trs 0 (blockPair c 0 + 4096 * c.unit) n = (b, false) →
        ∃ u c', exec (.engineUnit cl) s = .next u ∧ goesOn u c c' ∧ unitDone c c' (ceilDiv (wlLen c) 4096) ∧ c'.err = c.err ∧
          u.weights = (weightWrite s t (off % 2 ^ 28 + 4096 * c.unit) b).weights ∧ u.mem = s.mem ∧ u.tiles = s.tiles) ∧
    (c.kind = .accx → accOp c = 3 → (c.unit = 0 → regionPending s c = false) → sparseWf 0#32 s.tiles = true →
      ∃ u c', exec (.engineUnit cl) s = .next u ∧ goesOn u c c' ∧ unitDone c c' (accM c) ∧ u.mem = s.mem ∧
        ∀ j, j < accN c → tileAt u (regionKey s c 0 c.unit j) = 0) ∧
    (c.kind = .accx → accOp c = 1 → (c.unit = 0 → regionPending s c = false) → sparseWf 0#32 s.tiles = true → (tileOrigin c).2 + accN c ≤ 128 →
      ∀ trs, engExtents s c [⟨accSpace c, accElemAddr c c.unit 0, accN c * elemBytes (accFmt c), .read⟩] = .ok trs →
        ∃ u c', exec (.engineUnit cl) s = .next u ∧ goesOn u c c' ∧ unitDone c c' (accM c) ∧ u.mem = s.mem ∧
          ∀ j b, j < accN c → engRead s c trs (accSpace c) (accElemAddr c c.unit j) (elemBytes (accFmt c)) = (b, false) →
            tileAt u (regionKey s c 0 c.unit j) = (fconvert (tileFmt (accFmt c)) fmt32 .rne false (ofBytes b)).bits % 2 ^ 32) ∧
    (∀ fn, c.kind = .qnt fn → (c.unit = 0 → regionPending s c = false) → c.unit < qRows c →
      let dst := qDst c + c.unit * qDpitch c
      ∀ trs, engExtents s c (qExtents c false c.unit dst (rowBytes (qDfmt c) (qCols c))) = .ok trs → qDsp c < 2 →
        ∃ u c', exec (.engineUnit cl) s = .next u ∧ goesOn u c c' ∧ unitDone c c' (cmdUnits c) ∧ u.tiles = s.tiles ∧
          u.mem = (engWrite s c trs (qDsp c) dst (qRow s c trs false c.unit).1).mem)) ∧
  ∀ (s : State) (cl : Nat) (c : EngCmd), oldestGranted s cl = some c → c.cluster = cl → c.joins = [] → settled s c → ∀ err,
    (c.stage = .dropped err ∨ (c.stage = .finished ∧ c.err = err)) → ∃ u, exec (.matrixCommandComplete cl) s = .next u ∧ completed s u c err ∧
      u.gangs = postersWith s c (fun g => gangOrFlags g c.flags)

/-- The copy engine context: the oldest queued command starts and reads its shape records, or sends its cell to the reduction group; a
unit moves one box row, a `LOAD` filling team memory with the elements of the box and zeros beyond the tensor; the exact sum, come in
time, is rounded once into the mailbox in the order of a mailbox write, and a failure or a time out ends the command with error status;
commands complete in order (R272 to R276, R329, R331). The model's choices (log 95): the reduction group's own time in the deadline of
a decision is a free value, and a decision that comes at the deadline or later is not taken. -/
def Obligations.CopyEngineWorks : Prop :=
  (∀ (s : State) (core : Nat) (c : EngCmd),
    let s1 := sampleHeads s
    firstCmd s1 (fun x => isCopy x && x.core == core && x.stage == .queued) = some c → findCmd s1 c.id = some c →
    (∀ x ∈ s.cmds, isCopy x = true → x.core = core → x.stage ≠ .running) → guardAllows c = true → resident s c.ctx = true →
    cmdReached s c = true → unitTraceHeld s (cmdSource c) = false → c.unit = 0 → c.aux = [] → c.far = [] →
    (copyFn c < 3 → ∀ trs,
      let addrs := blockPair c 0 :: (if copyFn c = 2 then [blockPair c 1] else [])
      let rs := addrs.map (fun a => engRead s1 c trs 0 a 256)
      let es : List Extent := addrs.map (fun a => ⟨0, a, 256, .read⟩)
      let c1 := { c with aux := rs.map (fun r => ofBytes r.1) }
      (∀ a ∈ addrs, a % 64 = 0) → engExtents s1 c es = .ok trs → peerNeeds trs es = [] →
      ∃ u c', exec (.copyCommandStart core) s = .next u ∧ goesOn u c c' ∧ u.mem = s.mem ∧
        ((∀ r ∈ rs, r.2 = false) → copyLegal s1 c1 = true → c'.stage = .running ∧ c'.aux = c1.aux ∧ c'.units = boxRows (c1.aux.getD 0 0)) ∧
        (copyLegal s1 c1 = false → c'.stage = .dropped true)) ∧
    (copyFn c = 3 → ∀ trs x b,
      let es : List Extent := [⟨0, blockPair c 0, 16, .read⟩]
      findCtx s c.ctx = some x → netGroup c ∈ x.sysgrp → blockPair c 0 % 16 = 0 → engExtents s1 c es = .ok trs → peerNeeds trs es = [] →
      engRead s1 c trs 0 (blockPair c 0) 16 = (b, false) → ∃ u c', exec (.copyCommandStart core) s = .next u ∧ goesOn u c c' ∧
        c'.stage = .running ∧ c'.unit = 1 ∧ c'.aux = [coreNow s c.core] ∧
        ∃ id, u.sent = s.sent ++ [⟨netGroup c, 4, id, c.id, [], .command, [(blockPair c 1 % 2 ^ 32, bitsOf (netCtl c) 19 8, b)], false⟩])) ∧
  (∀ (s : State) (core : Nat) (c : EngCmd) (t : Team) (gr : Grid) (trs : List (Nat × Trans)),
    firstCmd s (fun x => isCopy x && x.core == core && x.stage == .running) = some c → findCmd s c.id = some c → unitFree s c = true →
    c.kind = .copy 0 → c.aux ≠ [] → c.unit < boxRows (shpOf c 0) → copyLegal s c = true → c.far = [] →
    cmdAddrTeam s c (blockPair c 1) = some t → findTeam s t.ctx t.grid t.index = some t → findGrid s c.ctx c.grid = some gr → gr.kernel.tmem < 2 ^ 28 → t.ctx = c.ctx → t.grid = c.grid →
    sparseWf memDefault t.mem = true → engExtents s c (copyExtents c c.unit) = .ok trs → peerNeeds trs (copyExtents c c.unit) = [] →
    (∀ b ∈ rowElems c (shpOf c 0) c.unit, (engRead s c trs 0 (boxAddr c (shpOf c 0) c.unit b) (shpSize (shpOf c 0)) (shpSize (shpOf c 0))).2 = false) →
    ∃ u c' t', exec (.copyUnit core) s = .next u ∧ goesOn u c c' ∧ unitDone c c' c.units ∧ u.mem = s.mem ∧ u.hostMem = s.hostMem ∧
      findTeam u t.ctx t.grid t.index = some t' ∧ ∀ b k, b < shpBox (shpOf c 0) 0 → k < shpSize (shpOf c 0) →
        some (sparseGet memDefault t'.mem (boxTeam c (shpOf c 0) c.unit (shpSize (shpOf c 0) * b + k) % 2 ^ 28)) =
          if (rowElems c (shpOf c 0) c.unit).contains b then
            (engRead s c trs 0 (boxAddr c (shpOf c 0) c.unit b) (shpSize (shpOf c 0)) (shpSize (shpOf c 0))).1[k]? else some 0) ∧
  (∀ (s : State) (core : Nat) (c : EngCmd), waitingNet s core = some c → findCmd s c.id = some c →
    ((∀ p ∈ s.ports, p.state ≠ .up ∧ p.state ≠ .degraded) → ∀ sum, exec (.netredResult core sum) s = .next s) ∧
    (∀ (sum : Int) (x : Ctx), (∃ p ∈ s.ports, p.state = .up ∨ p.state = .degraded) → coreNow s core < netDeadline s c → netOrdered s c = true → findCtx s c.ctx = some x →
      ∃ u c', exec (.netredResult core (some sum)) s = .next u ∧ goesOn u c c' ∧ c'.stage = .finished ∧
      c'.err = c.err ∧ u.mem = s.mem ∧
      let r := toDword (roundSum fmt64 .rne ⟨sum, netAnchor c - 96⟩).bits
      u.ctxs = (updCtx s c.ctx (fun x => { x with mbox := sparseSet 0#64 x.mbox (netMbox c) r })).ctxs) ∧
    (coreNow s core < netDeadline s c → exec (.netredTimeout core) s = .next s ∧
      ((∃ p ∈ s.ports, p.state = .up ∨ p.state = .degraded) →
        ∃ u, exec (.netredResult core none) s = .next u ∧ unitFails s u c ∧ u.ctxs = s.ctxs)) ∧
    (netDeadline s c ≤ coreNow s core → (∀ sum, exec (.netredResult core sum) s = .next s) ∧
      ∃ u, exec (.netredTimeout core) s = .next u ∧ unitFails s u c ∧ u.ctxs = s.ctxs)) ∧
  ∀ (s : State) (core : Nat) (c : EngCmd), firstStarted s (fun x => isCopy x && x.core == core) = some c → settled s c → ∀ err,
    (c.stage = .dropped err ∨ (c.stage = .finished ∧ c.err = err)) → ∃ u, exec (.copyCommandComplete core) s = .next u ∧ completed s u c err ∧
      u.gangs = s.gangs

/-! ### Launches, nodes and grids (spec/03, spec/16, spec/18) -/

/-- The launch window and the node window: a well-formed record that passes its checks becomes a grid in its priority's queue, with its
copy in the launch log, any other is reported with its cause; an arming write arms a free node or is reported, a node armed with count 0
acts at once; a status load reads state and count (R70, R71, R384, R386, R387, R389). That a store of another size or alignment in the
node window is reported with code 4 is the model's choice (log 54). -/
def Obligations.LaunchesAndNodes : Prop :=
  (∀ (s : State) (ctx offset : Nat) (data : List Byte) (c : Ctx), hubHeld s = false → findCtx s ctx = some c →
    (¬ (data.length = 64 ∧ offset % 64 = 0 ∧ offset < 4096) → reports (exec (.launchWindowWrite ctx offset data) s) s ctx 2 7 0) ∧
    (data.length = 64 → offset % 64 = 0 → offset < 4096 →
      let l := launchOf (ofBytes data)
      (freeLog c = none → reports (exec (.launchWindowWrite ctx offset data) s) s ctx 2 6 0) ∧
      ∀ index, freeLog c = some index →
        let va := c.logbase.toNat + 64 * index
        (∀ cause a, checkLaunch s ctx index (ofBytes data) = .error (cause, a) →
          reports (exec (.launchWindowWrite ctx offset data) s) s ctx 2 cause (toDword a)) ∧
        (∀ k args, checkLaunch s ctx index (ofBytes data) = .ok (k, args) →
          (c.logbase = 0 ∨ ∃ t, unitTranslate s hubDie ctx va 64 .write = .ok t ∧ pteTgt t.pte = 0) →
          ∃ u g c', exec (.launchWindowWrite ctx offset data) s = .next u ∧ u.grids = s.grids ++ [g] ∧ g.ctx = ctx ∧ g.index = index ∧
            g.launch = l ∧ g.kernel = k ∧ g.argWords = args ∧ g.node = none ∧ g.placed = 0 ∧ g.killed = none ∧ findCtx u ctx = some c' ∧
            c'.logUsed = index :: c.logUsed ∧ c'.queues = modifyAt (fun q => q ++ [index]) l.pri c.queues ∧
            (c.logbase = 0 → u.mem = s.mem) ∧
            (∀ t, c.logbase ≠ 0 → unitTranslate s hubDie ctx va 64 .write = .ok t → memoriesWf s → g.logCopy = toDword va ∧
              memBytes u (transPa t va) 64 = data ∧ sameBut s u (transPa t va) 64)))) ∧
  (∀ (s : State) (ctx offset : Nat) (data : List Byte) (c : Ctx), hubHeld s = false → findCtx s ctx = some c → s.decs = [] →
    let n := offset / 64
    (¬ (data.length = 64 ∧ offset % 64 = 0 ∧ offset < 2 ^ 18) →
      reports (exec (.nodeArm ctx offset data) s) s ctx 3 4 (toDword (offset % 2 ^ 18 / 64))) ∧
    (data.length = 64 → offset % 64 = 0 → offset < 2 ^ 18 →
      (((findNode s ctx n).isSome = true ∨ nodeLegal (ofBytes data) = false) →
        reports (exec (.nodeArm ctx offset data) s) s ctx 3 4 (toDword n)) ∧
      (findNode s ctx n = none → nodeLegal (ofBytes data) = true → ∃ x, armed (ofBytes data) x ∧
        (x.count ≠ 0 → exec (.nodeArm ctx offset data) s = .next (setNode s ctx n (some x))) ∧
        (x.count = 0 → x.kind = 1 → ∃ u, exec (.nodeArm ctx offset data) s = .next u ∧ u.copies = s.copies ++ [⟨ctx, n, 0, 0, none⟩] ∧
          findNode u ctx n = some { x with state := 2 }) ∧
        (x.count = 0 → x.kind = 2 → x.succ = [] → nodesWf s ctx → ∃ u, exec (.nodeArm ctx offset data) s = .next u ∧
          findNode u ctx n = none ∧ u.copies = s.copies)))) ∧
  ∀ (s : State) (ctx offset size : Nat), ∃ b, exec (.nodeStatusRead ctx offset size) s = .next { s with hostOut := s.hostOut ++ [b] } ∧
    b.length = size ∧ (¬ (size = 8 ∧ offset % 64 = 0) → ofBytes b = 0) ∧
    (size = 8 → offset % 64 = 0 → offset < 2 ^ 18 → (findNode s ctx (offset / 64) = none → ofBytes b = 0) ∧
      ∀ x, findNode s ctx (offset / 64) = some x → x.state ≤ 2 → x.count < 2 ^ 16 → ofBytes b = x.state * 2 ^ 16 + x.count)

/-- A grid ends, and the walker copy unit works: a grid that has nothing left leaves the device with its teams and decrements its DONE
node, a killed one reports and decrements nothing; a piece whose pages translate is copied, one whose pages do not holds the copy; a
completed copy frees its node and decrements its successors (R358, R387, R389, R437). -/
def Obligations.GridsAndCopiesEnd : Prop :=
  (∀ (s : State) (ctx grid : Nat) (g : Grid), findGrid s ctx grid = some g →
    (gridQuiet s g = false → exec (.gridEnd ctx grid) s = .next s) ∧
    (gridQuiet s g = true → g.heard + msgTicks 0 hubDie ≤ s.dtb → hubHeld s = false → gridLines s g = [] →
      g.gwct.toNat ≤ dieNow s hubDie → s.decs = [] →
      ∃ u, exec (.gridEnd ctx grid) s = .next u ∧ (∀ t ∈ u.teams, ¬ (t.ctx = ctx ∧ t.grid = grid)) ∧
        (∀ t ∈ u.crews, ¬ (t.ctx = ctx ∧ t.grid = grid)) ∧
        (g.killed = none → g.node = none → u.mem = s.mem ∨ g.launch.doneN ≠ 0x3FFF) ∧
        (g.killed = none → g.node = none → (g.launch.doneN = 0x3FFF ∨ g.noDec = true) → findGrid u ctx grid = none ∧
          ∀ n, findNode u ctx n = findNode s ctx n) ∧
        (∀ x, g.killed = none → g.node = none → g.launch.doneN ≠ 0x3FFF → g.noDec = false →
          findNode s ctx g.launch.doneN = some x → x.state = 1 → 1 < x.count →
          findGrid u ctx grid = none ∧
          (hubHeld u = false → findNode u ctx g.launch.doneN = some { x with count := x.count - 1 })) ∧
        (∀ code, g.killed = some code → findGrid u ctx grid = none ∧
          (∀ n, g.node ≠ some n → nodesWf s ctx → findNode u ctx n = findNode s ctx n) ∧
          ∃ f : FaultRec, f.rkind = 6 ∧ f.code = code ∧ u.mem = (postFault s ctx f).mem ∧ u.msix = (postFault s ctx f).msix))) ∧
  (∀ (s : State) (w : WalkCopy) (x : Node), currentCopy s = some w → findNode s w.ctx w.node = some x → hubHeld s = false → w.off < x.len →
    let n := min 4096 (x.len - w.off)
    let src := x.src.toNat + w.off
    let dst := x.dst.toNat + w.off
    (∀ tr tw, hubTrans s w.ctx .read (runPieces src n) = .ok tr → hubTrans s w.ctx .write (runPieces dst n) = .ok tw →
      hubPoison s tr src n = false → ∃ u, exec .walkerCopyPiece s = .next u ∧
        let r := hubStore s w.ctx tw dst (hubLoad s w.ctx tr src n)
        u.mem = r.1.mem ∧ u.hostMem = r.1.hostMem ∧
        u.copies = s.copies.map (fun y => if y.ctx = w.ctx ∧ y.node = w.node then
          { y with off := y.off + n, gwct := max y.gwct r.2 } else y) ∧
        (memoriesWf s → (∀ y ∈ tw, pteTgt y.2.pte = 0) → u.hostMem = s.hostMem ∧ ∀ a : Nat,
          (∀ r ∈ runPieces dst n, a < (partAt tw 0 r.1 r.2 0 0 0).pa ∨ (partAt tw 0 r.1 r.2 0 0 0).pa + r.2 ≤ a) →
          memByte u a = memByte s a)) ∧
    (∀ f, (hubTrans s w.ctx .read (runPieces src n) = .error f ∨
        (∃ tr, hubTrans s w.ctx .read (runPieces src n) = .ok tr) ∧ hubTrans s w.ctx .write (runPieces dst n) = .error f) →
      waitFree s 0 → ∃ u, exec .walkerCopyPiece s = .next u ∧ u.hostMem = s.hostMem ∧
        (memoriesWf s → ∀ c, findCtx s w.ctx = some c → sameButRecords s u c) ∧
        u.copies = s.copies.map (fun y => if y.ctx = w.ctx ∧ y.node = w.node then { y with held := some (f.2.1 / 4096) } else y) ∧
        ∃ y ∈ u.waits, y.die = 0 ∧ y.ctx = w.ctx ∧ y.byPage = true ∧ y.key = f.2.1 / 4096 ∧ .walker ∈ y.items)) ∧
  ∀ (s : State) (w : WalkCopy) (x : Node), currentCopy s = some w → findNode s w.ctx w.node = some x → hubHeld s = false →
    x.len ≤ w.off → w.gwct ≤ dieNow s hubDie → s.decs = [] →
    let s1 := { s with copies := s.copies.filter (fun y => !(y.ctx == w.ctx && y.node == w.node)) }
    (x.succ = [] → exec .walkerCopyComplete s = .next (setNode s1 w.ctx w.node none)) ∧
    ∀ m y, x.succ = [m] → m ≠ w.node → findNode s w.ctx m = some y → y.state = 1 → 1 < y.count → nodesWf s w.ctx →
      exec .walkerCopyComplete s = .next (setNode (setNode s1 w.ctx w.node none) w.ctx m (some { y with count := y.count - 1 })) ∧
      findNode (setNode (setNode s1 w.ctx w.node none) w.ctx m (some { y with count := y.count - 1 })) w.ctx w.node = none

/-! ### Placement and dens (spec/16, spec/18) -/

/-- Placement and dens: the team of the one waiting launch is placed on the first core where it fits, its gangs at the kernel's entry,
its tiles 0; a head that has waited 65,536 clocks blocks those behind it; an expired den and a den with a freed slot form their gang,
or wait for a slot; a runnable record enters the free den of its PC (R193, R345 to R347, R350, R357, R392, R393). -/
def Obligations.PlacementAndDens : Prop :=
  (∀ (s : State) (g : Grid) (cl : Nat) (r : List Nat) (sp : List (Nat × Nat)), denFirst s = false → queueHeads s = [g] →
    tryOrder s = [g] → findGrid s g.ctx g.index = some g → g.launch.cores = false → g.kernel.crew = 1 → launchOpen s g = true →
    crewClusters s g = cl :: r → teamFits s g.kernel (cl * 4) = some sp → (∀ l ∈ s.privLines, l.core ≠ cl * 4) →
    ∃ u t gs g', exec .teamPlacement s = .next u ∧ u.mem = s.mem ∧ u.teams = s.teams ++ [t] ∧ u.gangs = s.gangs ++ gs ∧
      findGrid u g.ctx g.index = some g' ∧ g'.placed = g.placed + 1 ∧ g'.started = true ∧
      t.ctx = g.ctx ∧ t.grid = g.index ∧ t.index = g.placed ∧ t.crew = g.placed ∧ t.rank = 0 ∧ t.core = cl * 4 ∧ t.dmode = 0 ∧
      t.mem = [] ∧ t.retired = false ∧ t.live.length = g.kernel.team ∧
      t.tiles.length = g.kernel.acc ∧ t.slices.length = g.kernel.acc ∧
      (∀ p ∈ t.tiles, ∀ e, e < 2 ^ 14 → sparseGet 0#32 u.tiles ((cl * 16 + p) * 2 ^ 14 + e) = 0) ∧ gs.length = sp.length ∧
      ∀ (i : Nat) (h : Gang) (x : Nat × Nat), gs[i]? = some h → sp[i]? = some x →
        h.core = cl * 4 ∧ h.slot = x.1 ∧ h.pipe = x.2 ∧ h.ctx = g.ctx ∧ h.grid = g.index ∧ h.team = some g.placed ∧
        h.size = g.kernel.gang ∧ h.threads.length = g.kernel.gang ∧ (∃ q, h.paths = [q] ∧ q.pc = g.kernel.entry ∧ q.hold = none) ∧
        ∀ (j : Nat) (y : Thread), h.threads[j]? = some y → y.lpos = j ∧ vreg y 0 = toWord (i * g.kernel.gang + j) ∧
          y.tid = toDword (g.placed * g.kernel.team + (i * g.kernel.gang + j)) ∧ y.preds = 0 ∧ y.meet = 0xFFFFFFFFFFFFFFFF#64 ∧
          y.link = 0 ∧ ∀ n, n ≠ 0 → vreg y n = 0) ∧
  (∀ (s : State) (ctx : Nat) (pri : BitVec 2) (g : Grid), (queueOf s ctx pri.toNat).head? = some g →
    ((∃ n, g.waitFrom = some n ∧ n + 65536 ≤ s.clk) →
      exec (.backfillTimeout ctx pri) s = .next (updGrid s ctx g.index (fun g => { g with blocked := true }))) ∧
    (¬ (∃ n, g.waitFrom = some n ∧ n + 65536 ≤ s.clk) → exec (.backfillTimeout ctx pri) s = .next s)) ∧
  (∀ (s : State) (cluster den : Nat) (d : Den), s.dens.find? (fun x => x.cluster == cluster && x.id == den) = some d →
    (∀ y ∈ s.dens, y.id = d.id → y = d) → resident s d.ctx = true → d.items ≠ [] →
    let waits := { s with dens := s.dens.map (fun x => if x.id = d.id then { x with waiting := some (x.waiting.getD s.clk) } else x) }
    let expired := d.expiry ≤ dieNow s (clusterDie cluster) ∧ d.waiting = none
    let first := ∀ x ∈ s.dens, x.id ≠ d.id → ∀ k, x.waiting = some k → (∀ n, d.waiting = some n → k < n ∨ (k = n ∧ x.id < d.id)) →
      resident s x.ctx = true → denPlace s x = none
    (¬ expired → exec (.denTimerExpiry cluster den) s = .next s) ∧
    (expired → (denPlace s d = none ∨ ¬ first) → exec (.denTimerExpiry cluster den) s = .next waits) ∧
    ((d.waiting = none ∨ ¬ first) → exec (.denGangFormOnSlot cluster den) s = .next s) ∧
    ∀ (core slot pipe : Nat) (ts : List (Thread × Nat)), denPlace s d = some (core, slot, pipe) → d.items = ts.map (fun x => DenItem.thread x.1 x.2) →
      ts.length ≤ gridGangSize s d.ctx d.grid →
      (expired → first → ∃ u, exec (.denTimerExpiry cluster den) s = .next u ∧ u.mem = s.mem ∧
        formed u d core slot pipe (gridGangSize s d.ctx d.grid) (ts.map (·.1))) ∧
      (d.waiting ≠ none → first → ∃ u, exec (.denGangFormOnSlot cluster den) s = .next u ∧ u.mem = s.mem ∧
        formed u d core slot pipe (gridGangSize s d.ctx d.grid) (ts.map (·.1)))) ∧
  ∀ (s : State) (ctx : Nat) (addr : Dword) (g : Grid) (r : ContRec), looseRecord s ctx addr.toNat = some (g, r) →
    let pc := toDword (fieldAt ((recordBytes s ctx r).getD []) 40 8)
    (recordReady s g r = false → exec (.continuationRunnable ctx addr) s = .next s) ∧
    (recordReady s g r = true → resident s ctx = true → recordClusters s g pc ≠ [] → s.dens = [] →
      (∀ h ∈ s.gangs, ∀ q ∈ h.parked, q.cause ≠ .noDen) →
      1 < gridGangSize s ctx g.index → ∃ u d slot, exec (.continuationRunnable ctx addr) s = .next u ∧ u.mem = s.mem ∧ u.gangs = s.gangs ∧
        u.dens = [d] ∧ d.cluster ∈ recordClusters s g pc ∧ d.ctx = ctx ∧ d.grid = g.index ∧ d.pc = pc ∧ d.owner = .free ∧
        d.items = [.record r slot] ∧ d.waiting = none)

/-! ### The link and the host (spec/11, spec/15, spec/19) -/

/-- Messages from peers: a class-D message writes its runs as one event or is answered with what they hold, an atomic executes and answers
the old value; notifications and records wait for their pair's earlier data and for one another, then decrement a node and pass launch
acceptance; what no admission entry lets in is answered with an error or discarded, counted, reported and acknowledged (R323, R324, R326,
R327, R334, R416). The model's choices: a class-D message without data is a load request (log 57); no record is written where no entry
matches, and denied loads and atomics are neither counted nor recorded (log 58). -/
def Obligations.PeerMessagesArrive : Prop :=
  let reply := fun (u : State) (dev id : Nat) (runs : List (Nat × Nat × List Byte)) (err : Bool) =>
    { u with sent := u.sent ++ [⟨dev, 5, id, 0, [], .external, runs, err⟩] }
  (∀ (s : State) (dev tenant id : Nat) (runs : List (Nat × Nat × List Byte)) (c : Ctx), linkUp s dev = true →
    admitted s dev tenant 0 = some c → runs ≠ [] → (∃ line, ∀ r ∈ runs, 1 ≤ r.2.1 ∧ line * 128 ≤ r.1 ∧ r.1 + r.2.1 ≤ line * 128 + 128) →
    ((∀ r ∈ runs, r.2.2.length = r.2.1 ∧ grantRun c false true r.1 r.2.1 = true) → ∃ u,
      exec (.peerStoreArrival dev tenant id runs) s = .next u ∧ u.hostMem = s.hostMem ∧
      u.sent = s.sent ++ [⟨dev, 5, id, 0, [], .external, [], false⟩] ∧
      u.mem = runs.foldl (fun m r => sparseWriteRun memDefault m r.1 r.2.2) s.mem ∧
      (∀ d, d ≠ dev → sparseWf 0 s.peerGwct = true → sparseGet 0 u.peerGwct d = sparseGet 0 s.peerGwct d) ∧
      ∀ pa n data, runs = [(pa, n, data)] → memoriesWf s → memBytes u pa n = data ∧ sameBut s u pa n) ∧
    ((∀ r ∈ runs, r.2.2 = [] ∧ grantRun c false false r.1 r.2.1 = true ∧ linePoison s r.1 r.2.1 = false) →
      exec (.peerStoreArrival dev tenant id runs) s = .next (reply s dev id (runs.map (fun r => (r.1, r.2.1, memBytes s r.1 r.2.1))) false))) ∧
  (∀ (s : State) (dev tenant id offset : Nat) (data : List Byte) (runs : List (Nat × Nat × List Byte)), linkUp s dev = true →
    let v := ofBytes data
    let gate := sparseGet 0 s.peerGwct dev
    let whole := data.length = 8 ∧ offset % 8 = 0 ∧ offset < 32768 ∧ 1 ≤ v ∧ v < 2 ^ 16
    let waits := fun (cls : Nat) (l : List (Nat × Nat × List Byte)) =>
      Host.Outcome.next { s with peerIn := s.peerIn ++ [⟨dev, tenant, id, cls, gate, l⟩] }
    ((∀ m ∈ s.peerIn, m.dev = dev ∧ dieNow s hubDie < m.after) → (s.peerIn ≠ [] ∨ dieNow s hubDie < gate) →
      exec (.peerNotification dev tenant id [(offset, data.length, data)]) s = waits 1 [(offset, data.length, data)] ∧
      exec (.peerLaunchRecord dev tenant id runs) s = waits 2 runs) ∧
    (s.peerIn = [] → s.decs = [] → hubHeld s = false → gate ≤ dieNow s hubDie →
      (∀ c x, admitted s dev tenant 1 = some c → whole → findNode s c.id (offset / 8) = some x → x.state = 1 →
        (v < x.count → exec (.peerNotification dev tenant id [(offset, data.length, data)]) s =
          .next (reply (setNode s c.id (offset / 8) (some { x with count := x.count - v })) dev id [] false)) ∧
        (v = x.count → x.kind = 1 → ∃ u, exec (.peerNotification dev tenant id [(offset, data.length, data)]) s = .next u ∧
          findNode u c.id (offset / 8) = some { x with state := 2, count := 0 } ∧ u.copies = s.copies ++ [⟨c.id, offset / 8, 0, 0, none⟩] ∧
          u.mem = s.mem)) ∧
      (∀ c, admitted s dev tenant 1 = some c → ¬ whole → ∃ f : FaultRec, f.rkind = 3 ∧ f.code = 2 ∧ f.addr = toDword (offset % 32768 / 8) ∧
        exec (.peerNotification dev tenant id [(offset, data.length, data)]) s = .next (reply (postFault s c.id f) dev id [] false)) ∧
      ∀ c, admitted s dev tenant 2 = some c →
        (data.length = 64 → offset % 64 = 0 → runs = [(offset, 64, data)] →
          ∃ u, exec (.launchWindowWrite c.id offset data) s = .next u ∧
            exec (.peerLaunchRecord dev tenant id runs) s = .next (reply u dev id [] false)) ∧
        ((runs.length ≠ 1 ∨ ∀ r ∈ runs, r.2.2.length ≠ 64) → ∃ f : FaultRec, f.rkind = 2 ∧ f.code = 7 ∧
          exec (.peerLaunchRecord dev tenant id runs) s = .next (reply (postFault s c.id f) dev id [] false)))) ∧
  (∀ (s : State) (dev tenant id : Nat) (op : AtomicOp) (wide : Bool) (pa : Nat) (x y : Dword) (rm : RMode) (anchor : Int) (c : Ctx),
    let n := atomSize op wide
    let old := memBytes s pa n
    linkUp s dev = true → admitted s dev tenant 3 = some c → pa % n = 0 → grantRun c false false pa n = true →
    grantRun c false true pa n = true → linePoison s pa n = false → op ≠ .lr → op ≠ .sc →
    ∃ u, exec (.peerAtomic dev tenant id op wide pa (x, y) rm anchor) s = .next u ∧
      u.sent = s.sent ++ [⟨dev, 5, id, 0, [], .external, [(pa, n, old)], false⟩] ∧ u.hostMem = s.hostMem ∧
      u.mem = (match atomNew op (if wide then 64 else 32) rm anchor false (ofBytes old) x.toNat y.toNat with
        | some v => sparseWriteRun memDefault s.mem pa (toBytes n v)
        | none => s.mem)) ∧
  ∀ (s : State) (dev tenant id pa n : Nat) (data : List Byte), linkUp s dev = true → 1 ≤ n → pa % 128 + n ≤ 128 → data.length = n →
    let s1 := { s with peerBad := s.peerBad + 1 }
    let store := [(pa, n, data)]
    (admitted s dev tenant 0 = none → exec (.peerStoreArrival dev tenant id [(pa, n, [])]) s = .next (reply s dev id [] true)) ∧
    (admitted s dev tenant 3 = none → ∀ op wide x y rm anchor,
      exec (.peerAtomic dev tenant id op wide pa (x, y) rm anchor) s = .next (reply s dev id [] true)) ∧
    (linkEntries s dev tenant = [] → exec (.peerStoreArrival dev tenant id store) s = .next (reply s1 dev id [] false) ∧
      (s.peerIn = [] → hubHeld s = false → sparseGet 0 s.peerGwct dev ≤ dieNow s hubDie →
        exec (.peerNotification dev tenant id [(pa, data.length, data)]) s = .next (reply s1 dev id [] false) ∧
        exec (.peerLaunchRecord dev tenant id store) s = .next (reply s1 dev id [] false))) ∧
    ∀ e r, linkEntries s dev tenant = e :: r → admitted s dev tenant 0 = none → ∃ f : FaultRec, f.rkind = 4 ∧ f.code = 2 ∧
      f.addr = toDword s.devNo ∧
      exec (.peerStoreArrival dev tenant id store) s = .next (reply (postFault s1 (linkLocal e) f) dev id [] false)

/-- Responses, ports and an unreachable destination: an acknowledged store is over, a load's and an atomic's registers in flight get
what the peer returned, once a message from the hub has had its time (R308; log entry 76), a refused load or atomic parks its thread under an access fault; a port's new state is reported, and traffic needs
one that carries it; a destination beyond `LNKTMO` is unreachable, what was sent to it is lost, and each tenant that waited is told; a
retransmission is counted (R324, R332, R333, R334). -/
def Obligations.ResponsesAndPorts : Prop :=
  (∀ (s : State) (id : Nat) (m : Msg) (ok : Bool) (data : List Byte), findMsg s id = some m → linkUp s m.dev = false →
    exec (.peerResponse id ok data) s = .next s) ∧
  (∀ (s : State) (id : Nat) (m : Msg) (g : Gang) (o : OutOp) (x : LanePart) (ok : Bool) (data d0 : List Byte), findMsg s id = some m →
    linkUp s m.dev = true → m.err = false → opGang s m.op = some (g, o) → o.parts = [x] → o.got = [] → toPeer x = true → x.dev = m.dev → x.lpos ∈ m.lanes →
    m.parts = [(x.pa, x.size, d0)] →
    (o.kind = .external → ∃ u, exec (.peerResponse id ok data) s = .next u ∧ u.mem = s.mem ∧ u.hostMem = s.hostMem ∧
      u.sent = s.sent.filter (fun y => y.id != id || y.cls == 5) ∧ ∀ k ∈ u.gangs, k.core = g.core → ∀ y ∈ k.out, y.id ≠ o.id) ∧
    ∀ t, findGang s g.core g.slot = some g → x.lpos < 64 → findThread g x.lpos = some t →
      (∀ z st, o.kind = .load z st → o.whole = true → ok = true → data.length = x.size → sizeBytes z = x.size → z < 7 →
        (∀ e ∈ t.inflight, e.op = o.id → e.data = false → x.reg ≤ e.reg ∧ e.reg < x.reg + 4 ∧ (x.size ≤ 4 → e.reg = x.reg) ∧
          (x.size = 8 → e.reg ≤ x.reg + 1)) →
        ∃ u, exec (.peerResponse id ok data) s = .next u ∧ u.mem = s.mem ∧ notYet u s.dtb g.core g.slot o.id ∧
          comes u s.dtb g.core g.slot o.id (fun k => ∃ t', findThread k x.lpos = some t' ∧ t'.v = t.v ∧
            t'.inflight = withResults o.id (fun r => loadWord z (r - x.reg) (ofBytes data)) t.inflight)) ∧
      (∀ op w rm an, o.kind = .atomic op w rm an → (∀ sat, op ≠ .fadda sat) → op ≠ .sc → op ≠ .lr → ok = true →
        x.size = atomSize op w → data.length = x.size →
        ∃ u, exec (.peerResponse id ok data) s = .next u ∧ u.mem = s.mem ∧ notYet u s.dtb g.core g.slot o.id ∧
          ∀ r, r < 128 → (∀ e ∈ t.inflight, e.op = o.id → e.data = false → e.reg = r ∨ e.reg = r + 1) →
            (∃ e ∈ t.inflight, e.op = o.id ∧ e.data = false ∧ e.reg = r) →
            comes u s.dtb g.core g.slot o.id (fun k => ∃ t', findThread k x.lpos = some t' ∧ t'.v = t.v ∧
              t'.inflight = withResults o.id (fun q => if q = r then toWord (ofBytes data) else toWord (ofBytes data / 2 ^ 32)) t.inflight)) ∧
      (ok = false → ((∃ z st, o.kind = .load z st) ∨ ∃ op w rm an, o.kind = .atomic op w rm an) →
        (4096 ≤ waitCount s (coreDie g.core) → waitHas s (coreDie g.core) g.ctx true (x.va / 4096) = false → ∃ u, exec (.peerResponse id ok data) s = .next u ∧
          u.gangs = s.gangs ∧ u.mem = s.mem ∧ u.waits = s.waits ∧ u.sent = s.sent.map (fun y => if y.id = id ∧ y.cls ≠ 5 then { y with err := true } else y) ∧
          ∃ w ∈ u.waiters, w.queue = 5000 + coreDie g.core ∧ w.cmd = o.id) ∧
        (waitCount s (coreDie g.core) < 4096 → s.waiters = [] → ∃ u k q, exec (.peerResponse id ok data) s = .next u ∧
          findGang u g.core g.slot = some k ∧ q ∈ k.parked ∧ bitOf q.mask x.lpos = true ∧ q.pc = o.pc ∧ q.released = false ∧
          q.cause = .fault true (x.va / 4096) .access ∧ ∀ y ∈ k.out, y.id ≠ o.id))) ∧
  (∀ (s : State) (port : Nat) (st : PortState) (p : Port), s.ports[port]? = some p →
    (p.state = st → exec (.linkPortStateChange port st) s = .next s) ∧
    (p.state ≠ st → ∃ u r p', exec (.linkPortStateChange port st) s = .next u ∧ u.mem = s.mem ∧
      u.ports.length = s.ports.length ∧ (∀ i, i ≠ port → u.ports[i]? = s.ports[i]?) ∧ u.ports[port]? = some p' ∧ p'.state = st ∧
      p'.lost = p.lost ∧ p'.retrans = p.retrans ∧ (∀ d ∈ u.unreach, d ∈ s.unreach) ∧
      (∀ d ∈ s.unreach, (st ≠ .up ∧ st ≠ .degraded ∨ reaches d port = false) → d ∈ u.unreach) ∧
      ((st = .up ∨ st = .degraded) → ∀ d, reaches d port = true → d ∉ u.unreach) ∧
      u.traceBuf = s.traceBuf ++ [r] ∧ r.sys = true ∧ r.src = .hub port ∧ bitsOf (ofBytes r.bytes) 47 40 = 0x20 ∧
      [PortState.down, .training, .up, .degraded, .fenced][bitsOf (ofBytes r.bytes) 511 128]? = some st)) ∧
  (∀ (s : State) (dev : Nat),
    ((∃ i p, i < 24 ∧ reaches dev i = true ∧ s.ports[i]? = some p ∧
      (p.state = .up ∨ p.state = .degraded ∨ s.dtb ≤ p.since + 16000 * s.lnktmo.toNat)) →
      exec (.linkUnreachableTimeout dev) s = .next s) ∧
    ((∀ i p, i < 24 → reaches dev i = true → s.ports[i]? = some p →
      p.state ≠ .up ∧ p.state ≠ .degraded ∧ p.since + 16000 * s.lnktmo.toNat < s.dtb) →
      ∃ u, exec (.linkUnreachableTimeout dev) s = .next u ∧ dev ∈ u.unreach ∧ (∀ d ∈ s.unreach, d ∈ u.unreach) ∧
      ((∀ m ∈ openMsgs s dev, m.kind = .external) → openMsgs u dev = []) ∧
      ((∀ m ∈ openMsgs s dev, msgCtx s m = none) → u.mem = s.mem ∧ u.ctxs = s.ctxs) ∧
      ∀ t, openMsgs s dev ≠ [] → (∀ m ∈ openMsgs s dev, m.kind = .external ∧ msgCtx s m = some t) → ∃ x f, u = postFault x t f ∧
        x.mem = s.mem ∧ x.ctxs = s.ctxs ∧ f.rkind = 4 ∧ f.code = 1 ∧ f.addr = toDword dev ∧
        f.detail = min (openMsgs s dev).length (2 ^ 48 - 1))) ∧
  ∀ (s : State) (port : Nat), exec (.flitRetransmission port) s =
    .next { s with ports := modifyAt (fun p => { p with retrans := p.retrans + 1 }) port s.ports }

/-- The host's accesses to device memory: a write lands, a read answers the bytes, an atomic answers the old value and writes the new one,
at once on a system-atomic page and by a write of its own elsewhere; an access without a right does nothing (R243, R248, R413, R414,
R444). -/
def Obligations.HostAccessesComplete : Prop :=
  (∀ (s : State) (identity pa : Nat) (data : List Byte), identity < 33 → data ≠ [] → pa % 128 + data.length ≤ 128 →
    (hostMay s identity pa data.length true = true → ∃ u, exec (.hostWrite identity pa data) s = .next u ∧ u.hostMem = s.hostMem ∧
      u.mem = sparseWriteRun memDefault s.mem pa data ∧ (memoriesWf s → memBytes u pa data.length = data ∧ sameBut s u pa data.length)) ∧
    (hostMay s identity pa data.length true = false →
      exec (.hostWrite identity pa data) s = .next { s with peerBad := s.peerBad + 1 })) ∧
  (∀ (s : State) (identity pa n : Nat), identity < 33 → n ≠ 0 → pa % 128 + n ≤ 128 →
    (hostMay s identity pa n false = true → linePoison s pa n = false →
      exec (.hostRead identity pa n) s = .next { s with hostOut := s.hostOut ++ [memBytes s pa n] }) ∧
    (hostMay s identity pa n false = false → exec (.hostRead identity pa n) s = .next s)) ∧
  ∀ (s : State) (identity pa : Nat) (op : AtomicOp) (wide : Bool) (x y : Dword),
    let n := atomSize op wide
    let old := memBytes s pa n
    let new := atomNew op (if wide then 64 else 32) .rne 0 false (ofBytes old) x.toNat y.toNat
    identity < 33 → cxlAtomic op = true → pa % n = 0 →
    (hostMay s identity pa n false = true → hostMay s identity pa n true = true →
      (∃ u, exec (.hostAtomic identity pa true op wide x y) s = .next u ∧ u.hostOut = s.hostOut ++ [old] ∧ u.agenda = s.agenda ∧
        u.mem = match new with
          | some v => sparseWriteRun memDefault s.mem pa (toBytes n v)
          | none => s.mem) ∧
      exec (.hostAtomic identity pa false op wide x y) s = .next { s with
        hostOut := s.hostOut ++ [old]
        agenda := match new with
          | some v => s.agenda ++ [.hostWrite identity pa (toBytes n v)]
          | none => s.agenda }) ∧
    ((hostMay s identity pa n false = false ∨ hostMay s identity pa n true = false) →
      ∀ sysat, exec (.hostAtomic identity pa sysat op wide x y) s = .next { s with peerBad := s.peerBad + 1 })

/-! ### Reports, time and management (spec/14, spec/20) -/

/-- Traces and fault records reach their rings: a sink takes the oldest record of the source whose turn it is and writes it where the ring
has room, waits for room in lossless mode, drops it otherwise; a `LOSS` record carries the count; a tenant whose ring stays full falls
back; waiting fault records are written oldest first with the layout of R425 once their queue has room; the write offsets follow when the
records have completed, with the interrupt; a completion is written to DONE (R311, R315 to R317, R423 to R425, R429). -/
def Obligations.RecordsReachTheirRings : Prop :=
  (∀ (s : State) (src : TraceSource) (r : TraceRec) (before after : List TraceRec), s.traceBuf = before ++ r :: after →
    (∀ x ∈ before, x.src ≠ src) → r.src = src → r.bytes.length = 64 →
    ((recWaits s r = true ∨ recTurn s r = false) → exec (.traceSinkWrite src) s = .next s) ∧
    (recWaits s r = false → recTurn s r = true →
      let written := fun (u : State) (pa : Nat) (b : List Byte) => u.traceBuf = before ++ after ∧
        (memoriesWf s → memBytes u pa 64 = b ∧ sameBut s u pa 64)
      (r.sys = true → ringFull s.systrsize s.systrwr s.systrrd s.sysPend.length = false → ∃ u n, exec (.traceSinkWrite src) s = .next u ∧
        written u (s.systrbase.toNat + (s.systrwr.toNat + 64 * s.sysPend.length) % s.systrsize.toNat) r.bytes ∧
        u.systrwr = s.systrwr ∧ u.sysPend = s.sysPend ++ [n]) ∧
      ∀ c, r.sys = false → findCtx s r.ctx = some c →
        let pa := c.trbase.toNat + (c.trwr.toNat + 64 * c.trPend.length) % c.trsize.toNat
        (trFull c = false → grantRun c false true pa 64 = true → ∃ u n, exec (.traceSinkWrite src) s = .next u ∧
          written u pa (if c.trFall then toBytes 64 (ofBytes r.bytes ||| 2 ^ 33) else r.bytes) ∧
          findCtx u r.ctx = some { c with trPend := c.trPend ++ [n] }) ∧
        (trFull c = true → ∃ u, exec (.traceSinkWrite src) s = .next u ∧ u.traceBuf = before ++ after ∧ u.mem = s.mem ∧
          findCtx u r.ctx = some { c with trLost := c.trLost + 1 }))) ∧
  (∀ (s : State) (ctx : Nat) (c : Ctx), findCtx s ctx = some c →
    let tr := c.trbase.toNat + (c.trwr.toNat + 64 * c.trPend.length) % c.trsize.toNat
    let fq := c.fqbase.toNat + (c.fqwr.toNat + 64 * c.fqPend.length) % c.fqsize.toNat
    ((c.trLost = 0 ∨ trFull c = true) → exec (.lossRecord ctx) s = .next s) ∧
    (c.trLost ≠ 0 → trFull c = false → grantRun c false true tr 64 = true → memoriesWf s →
      ∃ u n, exec (.lossRecord ctx) s = .next u ∧ sameBut s u tr 64 ∧
        findCtx u ctx = some { c with trLost := 0, trPend := c.trPend ++ [n] } ∧
        let b := ofBytes (memBytes u tr 64)
        bitsOf b 511 128 = c.trLost % 2 ^ 32 ∧ bitsOf b 127 64 = dieNow s hubDie % 2 ^ 64 ∧ bitsOf b 47 40 = 0x30 ∧ bitsOf b 39 35 = ctx % 32) ∧
    let late := c.trFall = false ∧ (bitsOf c.trcfg.toNat 1 0 = 2 ∨ ∃ r ∈ s.traceBuf, r.sys = false ∧ r.ctx = ctx ∧ r.mode = 2) ∧
      ∃ t, c.trSince = some t ∧ t + 16000 * 2 ^ bitsOf c.trcfg.toNat 43 40 ≤ s.dtb
    (¬ late → exec (.losslessTimeout ctx) s = .next s) ∧
    (late → ∃ u c', exec (.losslessTimeout ctx) s = .next u ∧ u.mem = s.mem ∧ findCtx u ctx = some c' ∧ c'.trFall = true ∧
      (∀ r ∈ u.traceBuf, r ∈ s.traceBuf) ∧ (∀ r ∈ s.traceBuf, (r.ctx ≠ ctx ∨ r.sys = true) → r ∈ u.traceBuf) ∧
      c'.trLost + u.traceBuf.length = c.trLost + s.traceBuf.length) ∧
    ((c.waitRecs = [] ∨ fqFull c = true) → exec (.faultQueueDrain ctx) s = .next s) ∧
    (∀ r rest, c.waitRecs = r :: rest → fqFull c = false → grantRun c false true fq 64 = true → memoriesWf s →
      ∃ v n, exec (.faultQueueDrain ctx) s = exec (.faultQueueDrain ctx) v ∧ sameBut s v fq 64 ∧
        findCtx v ctx = some { c with waitRecs := rest, fqPend := c.fqPend ++ [n] } ∧
        let b := ofBytes (memBytes v fq 64)
        bitsOf b 511 448 = r.addr.toNat ∧ bitsOf b 447 384 = r.pc.toNat ∧ bitsOf b 383 320 = r.tag.toNat ∧ bitsOf b 319 256 = r.ts.toNat ∧
          bitsOf b 255 192 = r.mask.toNat ∧ bitsOf b 191 160 = r.token.toNat ∧ bitsOf b 159 128 = r.grid.toNat ∧
          bitsOf b 127 96 = r.team.toNat ∧ bitsOf b 95 88 = r.rkind % 256 ∧ bitsOf b 87 80 = r.code % 256 ∧ bitsOf b 47 0 = r.detail % 2 ^ 48) ∧
    ∀ l m l' m', c.trPend = l ++ m → c.fqPend = l' ++ m' → (∀ t ∈ l ++ l', t ≤ dieNow s hubDie) →
      (∀ t r, (m = t :: r ∨ m' = t :: r) → dieNow s hubDie < t) → ∃ c', findCtx (releaseRings s) ctx = some c' ∧ c'.trPend = m ∧ c'.fqPend = m' ∧
        c'.trwr = (if l = [] then c.trwr else toDword ((c.trwr.toNat + 64 * l.length) % c.trsize.toNat)) ∧
        c'.fqwr = (if l' = [] then c.fqwr else toDword ((c.fqwr.toNat + 64 * l'.length) % c.fqsize.toNat)) ∧
        (releaseRings s).mem = s.mem ∧ (l' ≠ [] → c.fqctl.getLsbD 0 = true → ctx ∈ (releaseRings s).msix.drop s.msix.length)) ∧
  ∀ (s : State) (c : Completion) (rest : List Completion), s.completions = c :: rest →
    (c.held = true → rest = [] → exec .commandCompletion s = .next s) ∧
    (c.held = false → (∀ i ∈ c.ids, accessOut s i = false) → (∀ x ∈ c.elems, ∀ e ∈ s.parkq, ¬ (e.cluster = x.1 ∧ e.seq = x.2)) →
      (c.done = 0 → exec .commandCompletion s = .next { s with completions := rest }) ∧
      (c.done ≠ 0 → c.done.toNat + 16 ≤ deviceBytes → memoriesWf s → ∃ u, exec .commandCompletion s = .next u ∧ u.completions = rest ∧
        sameBut s u c.done.toNat 16 ∧
        let b := ofBytes (memBytes u c.done.toNat 16)
        bitsOf b 127 64 = dieNow s hubDie % 2 ^ 64 ∧ bitsOf b 63 48 = c.seq % 2 ^ 16 ∧ bitsOf b 47 40 = c.op % 256 ∧
          bitsOf b 39 8 = 0 ∧ bitsOf b 7 0 = c.status % 256))

/-- The device time base and small events of the management engine: a PTP message of the selected source moves the state towards locked
and measures the offset, the first lock sets the origin, a lost source leads to holdover, a slew ends; a withheld slot is noted; a
malformed command write is counted (R25, R305 to R307, R427). -/
def Obligations.TimeBaseFollowsItsSource : Prop :=
  (∀ (s : State) (src : BitVec 2) (ns : Nat),
    ((src = 0 ∨ s.dtbSrc ≠ src.toNat) → exec (.ptpMessage src ns) s = .next s) ∧
    (src ≠ 0 → s.dtbSrc = src.toNat → ∃ u, exec (.ptpMessage src ns) s = .next u ∧ u.mem = s.mem ∧ u.gangs = s.gangs ∧
      (s.dtbState = 2 → u.dtbState = 2) ∧ ((s.dtbState = 0 ∨ s.dtbState = 3) → u.dtbState = 1) ∧
      (s.dtbState = 1 → u.dtbState = 1 ∨ u.dtbState = 2) ∧
      (u.dtbState = 2 → u.dtbLocked = true ∧
        (s.dtbLocked = false → u.dtborg = toDword (low 64 ((16 * (ns : Int) - (dieNow s hubDie : Int) + 8) / 16)))) ∧
      (s.dtbLocked = true → u.dtborg = s.dtborg) ∧
      u.dtbOffs = toWord (low 32 (held true 32 ((dieNow s hubDie : Int) - 16 * ((ns : Int) - (u.dtborg.toNat : Int))))) ∧
      u.traceBuf.length = s.traceBuf.length + (if u.dtbState = s.dtbState then 0 else 1))) ∧
  (∀ s : State, (s.dtbState = 2 → ∃ u, exec .ptpSourceLost s = .next u ∧ u.dtbState = 3 ∧ u.traceBuf.length = s.traceBuf.length + 1) ∧
    ((s.dtbState = 0 ∨ s.dtbState = 3) → exec .ptpSourceLost s = .next s) ∧
    exec .correctionSlewEnd s = .next { s with dtbSlew := 0 }) ∧
  ∀ (s : State) (core pipe offset size : Nat),
    exec (.issueSlotWithheld core pipe) s = .next { s with withheld := s.withheld ++ [(core, pipe)] } ∧
    (¬ (size = 64 ∧ offset % 64 = 0) → exec (.mgmtWindowMalformedWrite offset size) s = .next { s with mgmtBad := s.mgmtBad + 1 })

/-- The commands of contexts and rights: `CTXNEW` makes a context with the reset values of R430, `CTXDEL` frees one without launches,
`TLBINV` removes the cached translations of its scope, `GRANT` and `LINKADM` write their entries; a device in its boot ROM serves no
command, every command in a fenced device ends with status 5, a record with a reserved bit set with status 2 (R399 to R401, R409, R415
to R417, R428, R445). -/
def Obligations.ContextCommandsEnd : Prop :=
  ∀ (s : State) (r : BitVec 512),
    let n := bitsOf r.toNat 47 40
    let all : List (Instr × Nat) := [(.ctxnew r, 1), (.ctxdel r, 2), (.tlbinv r, 3), (.grant r, 4), (.linkadm r, 5), (.regwr r, 6), (.regrd r, 7),
      (.replay r, 16), (.kill r, 17), (.preempt r, 18), (.resume r, 19), (.resync r, 32)]
    (∀ x ∈ all, bitsOf r.toNat 7 0 = x.2 → bitsOf r.toNat 126 112 = 0 →
      (s.inRom = true → exec x.1 s = .next s) ∧
      (s.inRom = false → s.fenced = true → x.2 ≠ 32 → exec x.1 s = .next (ended r s 5 [] false)) ∧
      (s.inRom = false → s.fenced = false → (bitsOf r.toNat 39 8 ≠ 0 ∨ 31 < n ∨ bitsOf r.toNat 511 320 ≠ 0) → exec x.1 s = .next (ended r s 2 [] false))) ∧
    (legalRecord s r 1 [(191, 128), (287, 192)] →
      ((findCtx s n).isSome = true → exec (.ctxnew r) s = .next (ended r s 1 [] false)) ∧
      (findCtx s n = none → bitsOf r.toNat 139 128 = 0 → bitsOf r.toNat 191 128 < deviceBytes →
        ∃ t c, exec (.ctxnew r) s = .next (ended r t 0 [] false) ∧ t.mem = s.mem ∧ t.gangs = s.gangs ∧ t.grids = s.grids ∧
          t.ctxs = s.ctxs ++ [c] ∧ c.id = n ∧ c.ptbase.toNat = bitsOf r.toNat 191 128 ∧ c.coreset.toNat = bitsOf r.toNat 287 192 ∧
          c.pkr = 0 ∧ c.leasecfg = 5 ∧ c.grants = [] ∧ c.mbox = [] ∧ c.regions = [] ∧ c.nodes = [] ∧ c.queues.flatten = [] ∧
          c.trPend = [] ∧ c.fqPend = [] ∧ c.save = 0 ∧ ∀ x ∈ ctxReads c, x.1 ≠ 0 → x.2 = 0)) ∧
    (legalRecord s r 2 [] →
      (((findCtx s n).isNone = true ∨ ∃ g ∈ s.grids, g.ctx = n) → exec (.ctxdel r) s = .next (ended r s 1 [] false)) ∧
      ((findCtx s n).isSome = true → (∀ g ∈ s.grids, g.ctx ≠ n) → ∃ t, exec (.ctxdel r) s = .next (ended r t 0 [] false) ∧ t.mem = s.mem ∧
        t.gangs = s.gangs ∧ findCtx t n = none ∧ (∀ k, k ≠ n → findCtx t k = findCtx s k) ∧
        (∀ e ∈ t.tlb, e.ctx ≠ n) ∧ (∀ e ∈ t.walkCache, e.ctx ≠ n) ∧ (∀ e ∈ t.waits, e.ctx ≠ n) ∧ ∀ e ∈ t.dens, e.ctx ≠ n)) ∧
    (legalRecord s r 3 [(128, 128), (255, 192), (319, 256)] → (findCtx s n).isSome = true → ∀ lo size, lo = bitsOf r.toNat 255 192 →
      size = bitsOf r.toNat 319 256 → (bitOf r.toNat 128 = true → lo % 4096 = 0 ∧ size % 4096 = 0) →
      let hit := fun (page bits : Nat) => bitOf r.toNat 128 = false ∨ (page * 2 ^ bits < lo + size ∧ lo < (page + 1) * 2 ^ bits)
      ∃ t ids elems, exec (.tlbinv r) s = .next (endedAfter r t 0 ids elems false) ∧ t.mem = s.mem ∧
        (∀ e, e ∈ t.tlb ↔ e ∈ s.tlb ∧ ¬ (e.ctx = n ∧ hit e.page e.bits)) ∧
        (∀ e, e ∈ t.walkCache ↔ e ∈ s.walkCache ∧ ¬ (e.ctx = n ∧ hit e.page (12 + 9 * e.level))) ∧
        (∀ g ∈ t.gangs, g.ctx = n → ∀ x ∈ g.threads, ∀ page bits pte, x.lastPage = some (page, bits, pte) → ¬ hit page bits) ∧
        (∀ b ∈ s.wbuf, b.ctx = n → b.id ∈ ids) ∧ (∀ e ∈ s.parkq, e.ctx = n → e.place ≠ [] → (e.cluster, e.seq) ∈ elems) ∧
        ∀ g ∈ s.gangs, g.ctx = n → ∀ o ∈ g.out, o.kind ∉ [.command, .localTeam, .localPriv] → o.id ∈ ids) ∧
    (legalRecord s r 4 [(133, 128), (255, 192)] → (findCtx s n).isSome = true → ∃ v : Dword,
      exec (.grant r) s = .next (ended r (updCtx s n (fun c => { c with grants := sparseSet 0#64 c.grants (bitsOf r.toNat 133 128) v })) 0 [] false) ∧
      ∀ i, i < 64 → v.getLsbD i = (bitOf r.toNat (192 + i) && i != 2 && !(decide (4 ≤ i ∧ i ≤ 9)))) ∧
    (legalRecord s r 5 [(139, 128), (255, 192)] →
      (bitsOf r.toNat 231 193 = 0 → exec (.linkadm r) s = .next (ended r { s with
        linkTable := sparseSet 0#64 s.linkTable (bitsOf r.toNat 139 128) (toDword (bitsOf r.toNat 255 192)) } 0 [] false)) ∧
      (bitsOf r.toNat 231 193 ≠ 0 → exec (.linkadm r) s = .next (ended r s 2 [] false)))

/-- The commands of registers and of running work: `REGWR` and `REGRD` reach every register of R430, `REPLAY` releases what waits under
its key, `KILL` kills, `PREEMPT` and `RESUME` begin a save and a restoration, `RESYNC` writes its summary, fenced or not (R430 to R432,
R438, R446, R448 to R450). The model's choices: `KILL` ends at once, and `RESUME` of a context that is still being saved ends with status
1 and one that names another area with status 3 (log 68); the saved work is held as data of the state under the area's address (log 8). -/
def Obligations.WorkCommandsEnd : Prop :=
  ∀ (s : State) (r : BitVec 512),
    let n := bitsOf r.toNat 47 40
    let a := bitsOf r.toNat 255 192
    let reg := bitsOf r.toNat 139 128
    (legalRecord s r 6 [(139, 128), (255, 192)] →
      (∀ c ok c', findCtx s n = some c → (reg, ok, c') ∈ ctxRegs c a →
        exec (.regwr r) s = .next (if ok then ended r (updCtx s n (fun _ => c')) 0 [] false else ended r s 6 [] false)) ∧
      (∀ ok s', n = 0 → (reg, ok, s') ∈ devRegs s a →
        exec (.regwr r) s = .next (if ok then ended r s' 0 [] false else ended r s 6 [] false)) ∧
      (reg ∉ (ctxReads (newCtx 0 0 0)).map (·.1) → reg ∉ [0x100, 0x101, 0x102, 0x110, 0x111, 0x112, 0x113] →
        exec (.regwr r) s = .next (ended r s 3 [] false))) ∧
    (legalRecord s r 7 [(139, 128), (255, 192)] → a % 8 = 0 → a + 8 ≤ deviceBytes → memoriesWf s → ∀ v : Dword,
      ((∃ c, findCtx s n = some c ∧ (reg, v) ∈ ctxReads c) ∨ (n = 0 ∧ (reg, v) ∈ [(0x100, s.dtborg),
        (0x101, toDword (s.dtbOffs.toNat * 2 ^ 32 + s.dtbSrc % 4 * 16 + s.dtbState % 4 * 4 + s.dtbSlew % 2 * 2)), (0x102, s.lnktmo),
        (0x110, s.systrbase), (0x111, s.systrsize), (0x112, s.systrwr), (0x113, s.systrrd)])) →
      ∃ t, exec (.regrd r) s = .next (ended r t 0 [] false) ∧ ofBytes (memBytes t a 8) = v.toNat ∧ sameBut s t a 8) ∧
    (legalRecord s r 16 [(128, 128), (130, 129), (255, 192)] → (findCtx s n).isSome = true → bitOf r.toNat 128 = true →
      bitsOf r.toNat 203 192 = 0 → bitsOf r.toNat 130 129 = 0 → s.saved = [] →
      let hit := fun (w : WaitEntry) => w.ctx = n ∧ w.byPage = true ∧ w.key = bitsOf r.toNat 255 204
      ((∀ w ∈ s.waits, ¬ hit w) → exec (.replay r) s = .next (ended r s 3 [] false)) ∧
      ((∃ w ∈ s.waits, hit w) → ∃ t, exec (.replay r) s = .next (ended r t 0 [] false) ∧ t.mem = s.mem ∧
        (∀ w, w ∈ t.waits ↔ w ∈ s.waits ∧ ¬ hit w) ∧
        ∀ w ∈ s.waits, hit w →
          (∀ core slot uid, .parked core slot uid ∈ w.items → ∀ g ∈ t.gangs, ∀ p ∈ g.parked, p.uid = uid → p.released = true) ∧
          (∀ id, .engine id ∈ w.items → ∀ c ∈ t.cmds, c.id = id → c.key = none))) ∧
    (legalRecord s r 17 [(128, 128), (191, 160)] → (findCtx s n).isSome = true →
      (bitOf r.toNat 128 = false → findGrid s n (bitsOf r.toNat 191 160) = none → exec (.kill r) s = .next (ended r s 3 [] false)) ∧
      (∀ g, bitOf r.toNat 128 = false → findGrid s n (bitsOf r.toNat 191 160) = some g → g.killed = none →
        ∃ t g', exec (.kill r) s = .next (ended r t 0 [] false) ∧ t.mem = s.mem ∧ findGrid t n (bitsOf r.toNat 191 160) = some g' ∧
          g'.killed = some 0xFE ∧ ∀ k ∈ t.gangs, k.ctx = n → k.grid = bitsOf r.toNat 191 160 → k.threads = []) ∧
      (bitOf r.toNat 128 = true → bitsOf r.toNat 191 160 = 0 → (s.grids.map (fun g => (g.ctx, g.index))).Nodup →
        ∃ t, exec (.kill r) s = .next (ended r t 0 [] false) ∧
        t.mem = s.mem ∧ ∀ g ∈ t.grids, g.ctx = n → g.killed.isSome = true)) ∧
    (legalRecord s r 18 [(255, 192), (319, 256)] → a % 4096 = 0 → bitsOf a 62 48 = 0 → ∀ c, findCtx s n = some c →
      let need := 4096 + 10 * 2 ^ 20 * ((List.range 96).filter (fun k => c.coreset.getLsbD k)).length
      (c.save ≠ 0 → exec (.preempt r) s = .next (ended r s 1 [] false)) ∧
      (c.save = 0 → bitsOf r.toNat 319 256 < need → exec (.preempt r) s = .next (ended r s 4 [] false)) ∧
      (c.save = 0 → need ≤ bitsOf r.toNat 319 256 → exec (.preempt r) s = .next (ended r (updCtx { s with
        saved := s.saved ++ [⟨n, toDword a, [], [], [], [], [], [], [], [], [], []⟩] } n (fun c => { c with save := 1 })) 0 [] true))) ∧
    (legalRecord s r 19 [(255, 192)] → bitsOf a 62 48 = 0 → ∀ c v, findCtx s n = some c → s.saved.find? (fun v => v.ctx == n) = some v →
      (c.save ≠ 2 → exec (.resume r) s = .next (ended r s 1 [] false)) ∧
      (c.save = 2 → v.area.toNat ≠ a → exec (.resume r) s = .next (ended r s 3 [] false)) ∧
      (c.save = 2 → v.area.toNat = a → exec (.resume r) s = .next (ended r (updCtx s n (fun c => { c with save := 3 })) 0 [] true))) ∧
    (legalRecord { s with fenced := false } r 32 [(255, 192)] → a % 4096 = 0 → a + 4096 ≤ deviceBytes → memoriesWf s →
      ∃ t, exec (.resync r) s = .next (ended r t 0 [] false) ∧ t.nres = s.nres + 1 ∧ sameBut s t a 4096 ∧
        let h := ofBytes (memBytes t a 64)
        bitsOf h 63 0 = dieNow s hubDie % 2 ^ 64 ∧ bitsOf h 127 64 = 0x9C412E07B35AD816 ∧ bitsOf h 191 128 = s.dtborg.toNat ∧
          bitsOf h 383 320 = (s.nres + 1) % 2 ^ 64 ∧ bitOf h 262 = s.fenced ∧
          (s.ports.length = 24 → s.sinks.length = 4 → ∀ k m, k < 16 → s.mrs[k]? = some m →
            memBytes t (a + 3072 + 64 * k) 64 = toBytes 64 m.toNat))

/-! ### Escalated elements, soft errors, reset and attestation (spec/05, spec/19, spec/20) -/

/-- Brock takes the oldest waiting entry of its cluster, one of a gang that is being saved before all others; of those it holds, in any
order, it passes on an element that needs the Sett sequencer and resolves any other; the sequencer resolves its own: the lane or the tile
element holds the result, its flags and counts are kept, its entry is gone. Each move comes no sooner than a message after the one before,
which is the model's choice (log entry 76) (R106, R110 to R112, R115, R117 to R119). -/
def Obligations.EscalationsResolve : Prop :=
  (∀ (s : State) (cl : Nat) (e : ParkEntry) (before after : List ParkEntry), unitTraceHeld s (.brock cl) = false →
    s.parkq = before ++ e :: after → e.cluster = cl → e.stage = 0 → entryReached s e = true →
    let ahead := fun (x : ParkEntry) => x.cluster = cl ∧ x.stage = 0 ∧ x.kind < 2 ∧ ∃ c ∈ s.ctxs, c.id = x.ctx ∧ c.save = 1
    ((ahead e ∧ ∀ x ∈ before, ¬ ahead x) ∨ ((∀ x ∈ s.parkq, ¬ ahead x) ∧ ∀ x ∈ before, ¬ (x.cluster = cl ∧ x.stage = 0))) →
    ∃ u, exec (.brockAccept cl) s = .next u ∧ u.mem = s.mem ∧ u.gangs = s.gangs ∧ u.tiles = s.tiles ∧
      u.parkq = s.parkq.map (fun x => if x.cluster = cl ∧ x.seq = e.seq then { x with stage := 1, since := s.dtb } else x)) ∧
  (∀ (s : State) (cl : Nat), (∀ x ∈ s.parkq, x.cluster = cl → x.stage = 0 → entryReached s x = false) → exec (.brockAccept cl) s = .next s) ∧
  (∀ (s : State) (cl : Nat), (∃ x ∈ s.parkq, x.cluster = cl ∧ x.stage = 1 ∧ entryReached s x = true) →
    ∃ e ∈ s.parkq, e.cluster = cl ∧ e.stage = 1 ∧ entryReached s e = true ∧
    (e.decider = 2 → e.soft = false → exec (.brockDecide cl) s = .next { s with
      parkq := s.parkq.map (fun x => if x.cluster = cl ∧ x.seq = e.seq then { x with stage := 2, since := s.dtb } else x) }) ∧
    ((e.decider ≠ 2 ∨ e.soft = true) →
      (∀ g, e.kind < 2 → findGang s (cl * 4 + e.core) e.slot = some g → (∀ t ∈ g.threads, sparseWf 0#32 t.v = true) →
        ∃ u, exec (.brockDecide cl) s = .next u ∧ laneResolved s u g e) ∧
      (∀ c, e.kind = 3 → e.fmt = 0 → findCmd s e.cmd = some c → sparseWf 0#32 s.tiles = true →
        ∃ u, exec (.brockDecide cl) s = .next u ∧ tileResolved s u c e))) ∧
  ∀ (s : State) (cl : Nat) (e : ParkEntry), s.parkq.find? (fun x => x.cluster == cl && x.seq == e.seq && x.stage == 2 && entryReached s x) = some e →
    (∀ g, e.kind < 2 → findGang s (cl * 4 + e.core) e.slot = some g → (∀ t ∈ g.threads, sparseWf 0#32 t.v = true) →
      ∃ u, exec (.settResolve cl e.seq) s = .next u ∧ laneResolved s u g e) ∧
    (∀ c, e.kind = 3 → e.fmt = 0 → findCmd s e.cmd = some c → sparseWf 0#32 s.tiles = true →
      ∃ u, exec (.settResolve cl e.seq) s = .next u ∧ tileResolved s u c e)

/-- Soft errors act as their class says: a corrected one is counted, an uncorrectable one poisons its register, word, line, element or
block, drops a translation, a line of code or a clean line, poisons a dirty private line whole, marks a parked element, kills the launches
of a hub structure, or, where no context owns it, fences the device; a corrected one of class 3 or 4 changes nothing (R443 to R445). -/
def Obligations.SoftErrorsAct : Prop :=
  (∀ (s : State) (cls : BitVec 4), ((cls = 3#4 ∨ cls = 4#4 ∨ 13 ≤ cls.toNat) → exec (.softErrorCorrected cls) s = .next s) ∧
    (cls ≠ 3#4 → cls ≠ 4#4 → cls.toNat < 13 → exec (.softErrorCorrected cls) s = .next { s with
      softCorr := sparseSet 0 s.softCorr cls.toNat ((sparseGet 0 s.softCorr cls.toNat + 1) % 2 ^ 64) })) ∧
  ∀ s : State,
    (∀ core slot lane reg g t, findGang s core slot = some g → findThread g lane = some t →
      ∃ u k t', exec (.softErrorUncorrectable (.vreg core slot lane reg)) s = .next u ∧ softCounted s u 0 (some g.ctx) ∧ findGang u core slot = some k ∧
        findThread k lane = some t' ∧ butReservation t' = { butReservation t with poison := reg :: t.poison } ∧ k.sregs = g.sregs) ∧
    (∀ core slot reg g, findGang s core slot = some g → ∃ u k, exec (.softErrorUncorrectable (.sreg core slot reg)) s = .next u ∧
      softCounted s u 1 (some g.ctx) ∧ findGang u core slot = some k ∧ k.spoison = reg :: g.spoison ∧ k.sregs = g.sregs ∧
      k.threads.map butReservation = g.threads.map butReservation) ∧
    (∀ core line, (∃ c ∈ s.lines, c.holder = .l1 core ∧ c.line = line) →
      ∃ u, exec (.softErrorUncorrectable (.l1Line core line)) s = .next u ∧ softCounted s u 2 ((lineOwner s line).map (·.1)) ∧
        ∀ c, c ∈ u.lines ↔ c ∈ s.lines ∧ ¬ (c.holder = .l1 core ∧ c.line = line)) ∧
    (∀ core ctx grid va l, findPriv s core ctx grid va = some l → ∃ u, exec (.softErrorUncorrectable (.privLine core ctx grid va)) s = .next u ∧
      softCounted s u 2 (some ctx) ∧ (l.dirty = 0 → findPriv u core ctx grid va = none) ∧
      (l.dirty ≠ 0 → l.valid ≠ 0 → findPriv u core ctx grid va = some { l with poison := l.valid })) ∧
    (∀ core uid word t, s.teams.find? (fun t => t.core == core && t.uid == uid) = some t → findTeam s t.ctx t.grid t.index = some t →
      ∃ u t', exec (.softErrorUncorrectable (.teamWord core uid word)) s = .next u ∧ softCounted s u 2 (some t.ctx) ∧
        findTeam u t.ctx t.grid t.index = some t' ∧ t'.poison = word :: t.poison ∧ t'.mem = t.mem) ∧
    (∀ core line, exec (.softErrorUncorrectable (.icache core line)) s = .next { s with icache := s.icache.filter (· != (core, line)) }) ∧
    (∀ (before after : List TlbEntry) e, s.tlb = before ++ e :: after →
      exec (.softErrorUncorrectable (.tlb before.length)) s = .next { s with tlb := before ++ after }) ∧
    (∀ core slot lane g, findGang s core slot = some g → ∃ u k, exec (.softErrorUncorrectable (.lastPage core slot lane)) s = .next u ∧
      u.mem = s.mem ∧ u.softUnc = s.softUnc ∧ findGang u core slot = some k ∧ k.sregs = g.sregs ∧
      k.threads = g.threads.map (fun t => if t.lpos = lane then { t with lastPage := none } else t)) ∧
    (∀ (before after : List WalkEntry) e, s.walkCache = before ++ e :: after →
      exec (.softErrorUncorrectable (.walker before.length)) s = .next { s with walkCache := before ++ after }) ∧
    (∀ line, (∃ u, exec (.softErrorUncorrectable (.l2Line line)) s = .next u ∧ softCounted s u 5 ((lineOwner s line).map (·.1)) ∧
        line ∈ u.memPoison) ∧
      ∃ u, exec (.softErrorUncorrectable (.hbmLine line)) s = .next u ∧ softCounted s u 7 ((lineOwner s line).map (·.1)) ∧ line ∈ u.memPoison) ∧
    (∀ die line, (∃ c ∈ s.lines, c.holder = .rdc die ∧ c.line = line) → ∃ u, exec (.softErrorUncorrectable (.rdcLine die line)) s = .next u ∧
      softCounted s u 6 ((lineOwner s line).map (·.1)) ∧ ∀ c, c ∈ u.lines ↔ c ∈ s.lines ∧ ¬ (c.holder = .rdc die ∧ c.line = line)) ∧
    (∀ cl tile elem block,
      (∃ u, exec (.softErrorUncorrectable (.accElem cl tile elem)) s = .next u ∧ softCounted s u 8 ((placeOwner s cl tile (·.tiles)).map (·.ctx)) ∧
        (cl * 16 + tile) * 2 ^ 14 + elem ∈ u.tilePoison) ∧
      ∃ u, exec (.softErrorUncorrectable (.weightBlock cl block)) s = .next u ∧ softCounted s u 9 ((placeOwner s cl (block / 2 ^ 12) (·.slices)).map (·.ctx)) ∧
        cl * 2 ^ 16 + block ∈ u.wPoison) ∧
    (∀ cl seq x, s.parkq.find? (fun e => e.cluster == cl && e.seq == seq) = some x → ∃ u, exec (.softErrorUncorrectable (.staged cl seq)) s = .next u ∧
      softCounted s u 10 (some x.ctx) ∧ ∀ e ∈ u.parkq, e.cluster = cl → e.seq = seq → e.soft = true) ∧
    (∀ ctx index g, findGrid s ctx index = some g → g.killed = none → (s.grids.map (fun g => (g.ctx, g.index))).Nodup →
      (∃ u g', exec (.softErrorUncorrectable (.denOrReservation ctx index)) s = .next u ∧ findGrid u ctx index = some g' ∧
        g'.killed.isSome = true) ∧
      (∃ u, exec (.softErrorUncorrectable (.hub ctx)) s = .next u ∧ ∀ x ∈ u.grids, x.ctx = ctx → x.killed.isSome = true) ∧
      ∃ u, exec (.softErrorUncorrectable .unowned) s = .next u ∧ u.fenced = true ∧ u.mem = s.mem ∧ ∀ x ∈ u.grids, x.killed.isSome = true)

/-- Device reset, measurement and attestation: reset leaves the reset values and the registers MR0 to MR5 extended by the images that the
boot ROM starts, and an image that fails its signature check keeps the device in the boot ROM; a signed update extends the next of MR6 to
MR15; each SPDM request is answered once, with an error where no algorithms are agreed, and changes nothing else (R305, R332, R399, R417,
R418, R430). The model's choices here: the order of the boot images within their registers, an update past the last register going to
MR15, and no answer from a device that stays in the boot ROM (log entry 72); the error before algorithms are agreed, and the list of the
requesters that have agreed some (log entry 73). -/
def Obligations.ResetMeasuresAndAttests : Prop :=
  (∀ (s : State) (images : List (List Byte)), ∃ u, exec (.deviceReset images) s = .next u ∧ u.hostMem = s.hostMem ∧ u.hostOut = s.hostOut ∧
    u.gangs = [] ∧ u.teams = [] ∧ u.grids = [] ∧ u.ctxs = [] ∧ u.cmds = [] ∧ u.dtb = 0 ∧ u.dtborg = 0 ∧ u.dtbState = 0 ∧ u.lnktmo = 1000 ∧
    u.fenced = false ∧ (∀ q ∈ u.ports, q.state = .down) ∧ (memoriesWf s → memoriesWf u) ∧ u.mrs.length = 16 ∧
    (u.inRom = true ↔ ∃ image ∈ images.take 8, Config.vendorSigned image = false) ∧
    ∀ (k : Nat) (m : BitVec 512), u.mrs[k]? = some m →
      let held := images.zip [0, 1, 2, 3, 3, 4, 4, 5]
      let measured := fun (m : BitVec 512) (x : List Byte × Nat) => sha3 (toBytes 64 m.toNat ++ sha3Bytes x.1)
      ((∀ x ∈ held, x.2 ≤ k → Config.vendorSigned x.1 = true) → m = (held.filter (fun x => x.2 == k)).foldl measured 0) ∧
      ((∃ x ∈ held, x.2 < k ∧ Config.vendorSigned x.1 = false) → m = 0)) ∧
  (∀ (s : State) (image : List Byte), (s.inRom = true ∨ Config.vendorSigned image = false) → exec (.firmwareUpdate image) s = .next s) ∧
  (∀ (s : State) (image : List Byte), s.inRom = false → Config.vendorSigned image = true → s.mrs.length = 16 → ∃ (k : Nat) (l : List (BitVec 512)),
    exec (.firmwareUpdate image) s = .next { s with mrs := l } ∧ 6 ≤ k ∧ k < 16 ∧ l.length = 16 ∧
    (∀ j, 6 ≤ j → j < k → s.mrs.getD j 0 ≠ 0) ∧ (s.mrs.getD k 0 = 0 ∨ k = 15) ∧
    ∀ j, j < 16 → l.getD j 0 = if j = k then sha3 (toBytes 64 (s.mrs.getD k 0).toNat ++ sha3Bytes image) else s.mrs.getD j 0) ∧
  (∀ (s : State) (req offset len : Nat) (nonce : List Byte) (a b : Bool), s.inRom = true →
    ∀ e ∈ [Instr.getVersion req, .getCapabilities req, .negotiateAlgorithms req a b, .getDigests req, .getCertificate req offset len,
      .challenge req nonce, .getMeasurements req nonce], exec e s = .next s) ∧
  ∀ (s : State) (req offset len : Nat) (nonce : List Byte) (a b : Bool), s.inRom = false →
    let answer := fun (x : SpdmAnswer) => { s with spdm := { s.spdm with out := s.spdm.out ++ [(req, x)] } }
    let mrs := s.mrs.flatMap (fun m => toBytes 64 m.toNat)
    let agreed := fun (x : SpdmAnswer) => answer (if s.spdm.agreed.contains req then x else .error)
    exec (.getVersion req) s = .next (answer .version) ∧ exec (.getCapabilities req) s = .next (answer .capabilities) ∧
    (∃ l, exec (.negotiateAlgorithms req a b) s = .next { s with spdm := ⟨l, s.spdm.out ++ [(req, if a || b then .algorithms else .error)]⟩ } ∧
      ∀ n, n ∈ l ↔ (n = req ∧ (a || b) = true) ∨ (n ≠ req ∧ n ∈ s.spdm.agreed)) ∧
    exec (.getDigests req) s = .next (agreed (.digests (sha3 Config.certChain))) ∧
    exec (.getCertificate req offset len) s = .next (agreed (.certificate ((Config.certChain.drop offset).take len))) ∧
    exec (.challenge req nonce) s = .next (agreed (.report false nonce s.mrs (Config.sign (nonce ++ mrs)))) ∧
    exec (.getMeasurements req nonce) s = .next (agreed (.report true nonce s.mrs (Config.sign (nonce ++ mrs))))

/-! ### The machine as a whole -/

/-- A step runs the instruction that stands at the program counter (R26 to R28, R53): where nothing is due and the one gang of the
machine is ready, the bundle that decodes from the bytes there is executed with its prefix fields and the addresses of its words, and
time passes; an event at the head of the agenda comes before. Issue itself changes the gang's current path and its quantum, its threads'
last bundle address, the places of the pipe and of the scalar unit in their rotations, and the instruction cache. The model's choices:
an event at the head of the agenda runs first, and an instruction with an encoding there is the fault `agendaNotEvent` (log 2); for
`ROWOP.red` and `ACCX` the fetch chooses the constructor from the registers that name the operation (log 67). -/
def Obligations.StepRunsTheDecodedBundle : Prop :=
  (∀ (s : State) (g : Gang) (p : Path) (ws : List (Nat × CodeWord × Nat)) (b : Bundle), s.agenda = [] → s.gangs = [g] → g.paths = [p] →
    g.parked = [] → p.hold = none → p.ent < 8 → g.quantum < 256 → s.withheld = [] → meetMask g p = 0 → gangReady s g = true →
    findRelease s = none → findMove s = none → pendingEvents s = [] → fetchBundle s g.core g.ctx 3 p.pc.toNat = .ok ws →
    decodeBundle (vregsLegal (gangVregs s g)) (ws.map (fun x => x.2.1)) = .ok b →
    let k := updThreads { g with curPath := p.ent, quantum := if g.curPath = p.ent then g.quantum + 1 else 1 } p.mask
      (fun t => { t with lastPc := p.pc })
    let turn := sparseSet 0 s.rr (g.core * 16 + g.pipe) g.slot
    let s1 := { s with
      gangs := [k]
      rr := if asksScalar s g then sparseSet 15 turn (scalarKey g.core) g.pipe else turn
      icache := ((bundleLines s g.core g.ctx p.pc.toNat).foldl (icacheFill g.core) s).icache
      cur := ⟨true, g.core, g.slot, p.ent, p.pc, toDword (lastWord ws).1, toDword (lastWord ws).2, firstWord ws, b.pfx, b.imm24⟩ }
    step s = ticked (exec (refineOp s1 k b.instr) s1) ∧
    ((∀ t q r m, b.instr ≠ .rowopRedSum t q r m ∧ b.instr ≠ .accxSt t q r m) → refineOp s1 k b.instr = b.instr)) ∧
  (∀ (s : State) (core ctx va : Nat) (t : Trans), translateChecked s core ctx va 2 .fetch = .ok t →
    (∀ h : Half, h.getLsbD 0 = false → memBytes s (transPa t va) 2 = codeBytes (.short h) →
      fetchBundle s core ctx 3 va = .ok [(va, .short h, 2)]) ∧
    ∀ (w : Word) (t' : Trans), translateChecked s core ctx (va + 2) 2 .fetch = .ok t' → w.getLsbD 0 = true → majorOf w < 0x3E →
      memBytes s (transPa t va) 2 ++ memBytes s (transPa t' (va + 2)) 2 = codeBytes (.long w) →
      fetchBundle s core ctx 3 va = .ok [(va, .long w, 4)]) ∧
  ∀ (s : State) (e : Instr) (rest : List Instr), s.agenda = e :: rest →
    (encode e = none → step s = ticked (exec e { s with agenda := rest })) ∧ (encode e ≠ none → step s = .fault .agendaNotEvent)

/-- Words written out from the encodings of spec/02, spec/06 and spec/12 decode to the instructions they stand for (R40, R126, R134, R266,
R271). -/
def Obligations.WrittenWordsDecode : Prop :=
  decodeTableWord 32 0x21829249 = some (.icmp 1 6 5 2 2 false) ∧
  decodeTableWord 32 0x23020AAF = some (.atomxCas false 12 4 10 true) ∧
  decodeTableWord 32 0x084083B1 = some (.cacheLinv 1 1 3 false)

/-- Decoding an encoded instruction gives it back, for every well-formed instruction with an encoding and every value of its operands;
where several operations share a word and their registers tell them apart, the word's own instruction (R26, R40 to R42, R48, R52). -/
def Obligations.DecodeInvertsEncode : Prop :=
  ∀ (i : Instr) (c : CodeWord), WellFormed i → encode i = some c → decodeWord c = some (wordInstr i)

/-- What reset leaves (R305, R306, R332, R399, R430): the device time base free-running at 0, the device's registers at their reset values,
every port down, every context free and nothing running; both memories have their canonical form. That the ports are down and the
memories list nothing is the model's choice (log entries 4 and 6). -/
def Obligations.ResetState : Prop :=
  memoriesWf State.reset ∧ State.reset.dtb = 0 ∧ State.reset.dtborg = 0 ∧ State.reset.dtbState = 0 ∧ State.reset.dtbSrc = 0 ∧
  State.reset.dtbOffs = 0 ∧ State.reset.lnktmo = 1000 ∧ State.reset.systrbase = 0 ∧ State.reset.systrsize = 0 ∧
  State.reset.systrwr = 0 ∧ State.reset.systrrd = 0 ∧ (∀ q ∈ State.reset.ports, q.state = .down) ∧ (∀ n, findCtx State.reset n = none) ∧
  State.reset.gangs = [] ∧ State.reset.cmds = [] ∧ State.reset.fenced = false ∧ ∀ m ∈ State.reset.mrs, m = 0

/-- Every step from a state whose memories have their canonical form leaves them in it, whatever instruction or event it runs (the form is
the model's own, log entry 4; the bytes are those of R226). -/
def Obligations.MemoriesStayCanonical : Prop :=
  ∀ s s' : State, memoriesWf s → step s = .next s' → memoriesWf s'
end

