-- ==== Sys2Proof/Laws/Lanes.lean ====
section
/-! SUPPORT. What the frames of lane-wise and uniform bundles do where nothing of the gang is outstanding: one lemma for each
shared operation of `Machine/Ops.lean` that the meanings of these instructions call. -/

namespace Sys2Proof.Machine

/-! ### Readings of an idle gang -/

theorem readV_idle {t : Thread} (h : t.inflight = []) (c k r : Nat) : readV c t k r = vreg t r := by
  simp [readV, readFlight, flightsOf, pickOne, h]

theorem readVPair_idle {t : Thread} (h : t.inflight = []) (c k r : Nat) :
    readVPair c t k r = pairOf (vreg t r) (vreg t (r + 1)) := by
  simp [readVPair, readV_idle h]

theorem readS_idle {g : Gang} (h : g.sflight = []) (c k r : Nat) : readS c g k r = sreg g r := by
  simp [readS, readFlight, flightsOf, pickOne, h]

theorem readSPair_idle {g : Gang} (h : g.sflight = []) (c k r : Nat) :
    readSPair c g k r = pairOf (sreg g r) (sreg g (r + 1)) := by
  simp [readSPair, readS_idle h]

theorem pendHit_idle {t : Thread} (h : t.pend = []) (l : List Nat) : pendHit t l = none := by simp [pendHit, h]

theorem poisonHit_idle {t : Thread} (h : t.poison = []) (l : List Nat) : poisonHit t l = none := by
  simp [poisonHit, h]

/-! ### Lists with one element changed -/

theorem updFirst_hit {α : Type} {p : α → Bool} {x : α} (hx : p x = true) (f : α → α) (xs : List α) :
    updFirst p f (x :: xs) = f x :: xs := by rw [updFirst, hx, cond_true]

theorem updFirst_miss {α : Type} {p : α → Bool} {x : α} (hx : p x = false) (f : α → α) (xs : List α) :
    updFirst p f (x :: xs) = x :: updFirst p f xs := by rw [updFirst, hx, cond_false]

/-- The first element that the change is for, after the change. -/
theorem find_updFirst {α : Type} (p : α → Bool) (f : α → α) (l : List α) (keeps : ∀ x, p x = true → p (f x) = true) :
    (updFirst p f l).find? p = (l.find? p).map f := by
  induction l with
  | nil => rfl
  | cons x xs tail =>
    cases hit : p x with
    | true => rw [updFirst_hit hit, List.find?_cons_of_pos hit, List.find?_cons_of_pos (keeps x hit), Option.map_some]
    | false => rw [updFirst_miss hit, List.find?_cons_of_neg (by simp [hit]), List.find?_cons_of_neg (by simp [hit]), tail]

/-- An element of another kind is found as before. -/
theorem find_updFirst_other {α : Type} (p q : α → Bool) (f : α → α) (l : List α)
    (apart : ∀ x, p x = true → q x = false ∧ q (f x) = false) : (updFirst p f l).find? q = l.find? q := by
  induction l with
  | nil => rfl
  | cons x xs tail =>
    cases hit : p x with
    | true =>
      have ⟨before, after⟩ := apart x hit
      rw [updFirst_hit hit, List.find?_cons, List.find?_cons, before, after]
    | false => rw [updFirst_miss hit, List.find?_cons, List.find?_cons, tail]

theorem updFirst_updFirst {α : Type} (p : α → Bool) (f k : α → α) (l : List α) (keeps : ∀ x, p x = true → p (f x) = true) :
    updFirst p k (updFirst p f l) = updFirst p (fun x => k (f x)) l := by
  induction l with
  | nil => rfl
  | cons x xs tail =>
    cases hit : p x with
    | true => rw [updFirst_hit hit, updFirst_hit (keeps x hit), updFirst_hit hit]
    | false => rw [updFirst_miss hit, updFirst_miss hit, updFirst_miss hit, tail]

/-- Only what a change does to the first such element counts. -/
theorem updFirst_congr {α : Type} (p : α → Bool) (f k : α → α) (l : List α) (same : ∀ x, l.find? p = some x → f x = k x) :
    updFirst p f l = updFirst p k l := by
  induction l with
  | nil => rfl
  | cons x xs tail =>
    cases hit : p x with
    | true => rw [updFirst_hit hit, updFirst_hit hit, same x (List.find?_cons_of_pos hit)]
    | false =>
      rw [updFirst_miss hit, updFirst_miss hit,
        tail (fun y found => same y (by rw [List.find?_cons_of_neg (by simp [hit]), found]))]

theorem updFirst_id {α : Type} (p : α → Bool) (l : List α) : updFirst p id l = l := by
  induction l with
  | nil => rfl
  | cons x xs tail =>
    cases hit : p x with
    | true => rw [updFirst_hit hit]; rfl
    | false => rw [updFirst_miss hit, tail]

theorem updFirst_same {α : Type} (p : α → Bool) (f : α → α) (l : List α) (same : ∀ x, l.find? p = some x → f x = x) :
    updFirst p f l = l := (updFirst_congr p f id l same).trans (updFirst_id p l)

/-! ### The executing gang -/

@[simp] theorem updCur_cur (s : State) (f : Gang → Gang) : (updCur s f).cur = s.cur := rfl

@[simp] theorem updCur_gangs (s : State) (f : Gang → Gang) :
    (updCur s f).gangs = updFirst (fun g => g.core == s.cur.core && g.slot == s.cur.slot) f s.gangs := rfl

@[simp] theorem updCur_freeCtr (s : State) (f : Gang → Gang) : (updCur s f).freeCtr = s.freeCtr := rfl

theorem curGang_at {s : State} {g : Gang} (h : curGang s = some g) : g.core = s.cur.core ∧ g.slot = s.cur.slot := by
  unfold curGang findGang at h
  split at h
  · simpa using List.find?_some h
  · simp at h

/-- What the executing gang is after a change of it that keeps its place. -/
theorem curGang_updCur {s : State} {g : Gang} (h : curGang s = some g) (f : Gang → Gang)
    (hf : ∀ x : Gang, x.core = s.cur.core ∧ x.slot = s.cur.slot → (f x).core = s.cur.core ∧ (f x).slot = s.cur.slot) :
    curGang (updCur s f) = some (f g) := by
  unfold curGang findGang at *
  rw [updCur_cur, updCur_gangs]
  split at h
  · rename_i hl
    rw [if_pos hl, find_updFirst _ _ _ (by simpa using hf), h]
    rfl
  · simp at h

/-- Two changes of the executing gang in turn are one. -/
theorem updCur_updCur {s : State} (f k : Gang → Gang)
    (hf : ∀ x : Gang, x.core = s.cur.core ∧ x.slot = s.cur.slot → (f x).core = s.cur.core ∧ (f x).slot = s.cur.slot) :
    updCur (updCur s f) k = updCur s (fun g => k (f g)) := by
  simp only [updCur, updGang]
  rw [updFirst_updFirst _ _ _ _ (by simpa using hf)]

/-- A change of the executing gang depends on what it does to that gang only. -/
theorem updCur_congr {s : State} {g : Gang} (h : curGang s = some g) {f k : Gang → Gang} (e : f g = k g) :
    updCur s f = updCur s k := by
  unfold curGang findGang at h
  split at h
  · simp only [updCur, updGang]
    rw [updFirst_congr _ f k _ (fun x hx => by rw [h] at hx; cases hx; exact e)]
  · simp at h

/-- A change of the executing gang leaves every other slot as it was. -/
theorem findGang_updCur_other (s : State) (f : Gang → Gang) (core slot : Nat)
    (hf : ∀ x : Gang, x.core = s.cur.core ∧ x.slot = s.cur.slot → (f x).core = s.cur.core ∧ (f x).slot = s.cur.slot)
    (h : ¬ (core = s.cur.core ∧ slot = s.cur.slot)) : findGang (updCur s f) core slot = findGang s core slot := by
  unfold findGang updCur updGang
  apply find_updFirst_other
  intro x hx
  simp only [Bool.and_eq_true, beq_iff_eq] at hx
  have := hf x hx
  simp only [Bool.and_eq_false_iff, beq_eq_false_iff_ne, ne_eq]
  rw [this.1, this.2, hx.1, hx.2]
  by_cases h1 : s.cur.core = core
  · exact ⟨Or.inr (fun h2 => h ⟨h1.symm, h2.symm⟩), Or.inr (fun h2 => h ⟨h1.symm, h2.symm⟩)⟩
  · exact ⟨Or.inl h1, Or.inl h1⟩

theorem findGang_cur {s : State} {g : Gang} (h : curGang s = some g) : findGang s s.cur.core s.cur.slot = some g := by
  unfold curGang at h
  split at h
  · exact h
  · simp at h

/-- The state that a gang's bundle leaves has that gang executing. -/
theorem curGang_gangAt {s : State} {g : Gang} (h : curGang s = some g) (k : Gang) (pc : Dword)
    (hk : k.core = g.core ∧ k.slot = g.slot) :
    curGang (gangAt s k pc) = some (updPath k s.cur.path (pathAt pc)) := by
  have e := curGang_at h
  exact curGang_updCur h _ (fun _ _ => ⟨by simp [updPath, hk.1, e.1], by simp [updPath, hk.2, e.2]⟩)

/-! ### Gangs with nothing outstanding -/

theorem writeV_idle {t : Thread} (h : t.inflight = []) (r : Nat) (w : Word) : (writeV t r w).inflight = [] := by
  simp [writeV, clobber, h]

theorem writeVs_idle {t : Thread} (l : List (Nat × Word)) (h : t.inflight = [] ∧ t.pend = [] ∧ t.poison = [] ∧ t.dfrTrap = none ∧ t.owes = []) :
    (writeVs t l).inflight = [] ∧ (writeVs t l).pend = [] ∧ (writeVs t l).poison = [] ∧ (writeVs t l).dfrTrap = none ∧ (writeVs t l).owes = [] := by
  unfold writeVs
  induction l generalizing t with
  | nil => exact h
  | cons x xs ih => exact ih ⟨writeV_idle h.1 _ _, h.2.1, by simp [writeV, h.2.2.1], h.2.2.2⟩

theorem laneThread_idle {t : Thread} (o : LaneOut) (h : t.inflight = [] ∧ t.pend = [] ∧ t.poison = [] ∧ t.dfrTrap = none ∧ t.owes = []) :
    (laneThread t o).inflight = [] ∧ (laneThread t o).pend = [] ∧ (laneThread t o).poison = [] ∧ (laneThread t o).dfrTrap = none ∧ (laneThread t o).owes = [] := by
  unfold laneThread
  have h1 := writeVs_idle o.vw h
  generalize writeVs t o.vw = u at h1
  generalize o.pw = pw
  induction pw generalizing u with
  | nil => exact h1
  | cons x xs ih =>
    refine ih _ ?_
    show (writeP u x.1 x.2).inflight = [] ∧ _
    by_cases h7 : x.1 = 7
    · simpa [writeP, h7] using h1
    · simpa [writeP, h7] using h1

/-- A gang whose threads are changed without anything becoming outstanding is idle. -/
theorem Idle.threads {g : Gang} (h : Idle g) (f : Thread → Thread) (fl : Word)
    (hf : ∀ t ∈ g.threads, (f t).inflight = [] ∧ (f t).pend = [] ∧ (f t).poison = [] ∧ (f t).dfrTrap = none ∧ (f t).owes = []) :
    Idle { g with threads := g.threads.map f, fstat := fl } where
  flight := by simpa using fun t ht => (hf t ht).1
  pending := by simpa using fun t ht => (hf t ht).2.1
  clean := by simpa using fun t ht => (hf t ht).2.2.1
  due := by simpa using fun t ht => (hf t ht).2.2.2.1
  owed := by simpa using fun t ht => (hf t ht).2.2.2.2
  scalars := h.scalars
  gwct := h.gwct
  sclean := h.sclean
  quiet := h.quiet
  untraped := h.untraped

theorem settleThread_idle (c : Nat) {t : Thread} (h : t.inflight = []) : settleThread c t = t := by
  cases t; simp only at h; subst h; rfl

/-- Nothing outstanding is nothing to take in at a marker. -/
theorem settleMask_idle (c : Nat) {g : Gang} (h : Idle g) (mask : Nat) : settleMask c g mask = g := by
  have ht : g.threads.map (fun t => if bitOf mask t.lpos then settleThread c t else t) = g.threads := by
    rw [List.map_congr_left (g := id) (fun t ht => by simp [settleThread_idle c (h.flight t ht)]), List.map_id]
  have h1 := h.quiet
  have h2 := h.scalars
  have h3 := h.gwct
  cases g
  simp only at ht h1 h2 h3
  subst h1 h2 h3
  simp [settleMask, settleScalars, settleRegs, passGwct, updThreads, ht]

theorem dueThreads_idle {g : Gang} (h : Idle g) (p : Path) : dueThreads g p = [] := by
  unfold dueThreads threadsOf
  rw [List.filter_eq_nil_iff]
  intro t ht
  simp [h.due t (List.mem_filter.mp ht).1]

/-- No trap is due in an idle gang. -/
theorem deliverCur_idle {s : State} {g : Gang} (h : curGang s = some g) (hi : Idle g) : deliverCur s = s := by
  have hg := findGang_cur h
  have hd : dueTraps s s.cur.core s.cur.slot = s := by
    unfold dueTraps
    rw [hg]
    simp only [dueThreads_idle hi, List.foldl_nil]
    induction g.paths <;> simp_all
  unfold deliverCur deliverTraps
  simp only [hd, hg]
  have : g.parked.filter (fun p => p.cause == .trapWait) = [] := by
    rw [List.filter_eq_nil_iff]
    intro q hq
    simpa using hi.untraped q hq
  simp [this]

/-- The executing path of an idle gang moved to an address. -/
theorem movePath_idle {s : State} {g : Gang} {p : Path} (h : curGang s = some g) (hp : findPath g s.cur.path = some p)
    (hi : Idle g) (m : Bool) (pc : Dword) : movePath s m pc = gangAt s g pc := by
  unfold movePath
  have hr : resultsOut g p.mask = false := by simp [resultsOut, hi.quiet]
  rw [show updCur s _ = gangAt s g pc from updCur_congr h (by
    simp only [hp, markerHold, hr, Bool.and_false, Bool.false_eq_true, if_false, settleMask_idle _ hi, ite_self]
    rfl)]
  have hc := curGang_gangAt h g pc ⟨rfl, rfl⟩
  exact deliverCur_idle hc ⟨hi.flight, hi.pending, hi.clean, hi.due, hi.owed, hi.scalars, hi.gwct, hi.sclean, hi.quiet, hi.untraped⟩

/-! ### Lane-wise bundles -/

theorem threads_mem_active {s : State} {g : Gang} {t : Thread} (h : t ∈ activeThreads s g) : t ∈ g.threads :=
  (List.mem_filter.mp h).1

/-- Every active thread of an idle gang is ready to act. -/
theorem readyLanes_idle {s : State} {g : Gang} (h : curGang s = some g) (hi : Idle g) (rd wr : List Nat) :
    readyLanes s rd wr = s := by
  unfold readyLanes
  simp only [h]
  have h1 : (activeThreads s g).filter (fun t => (pendHit t (rd ++ wr)).isSome) = [] := by
    rw [List.filter_eq_nil_iff]
    intro t ht
    simp [pendHit_idle (hi.pending t (threads_mem_active ht))]
  simp only [h1, List.isEmpty_nil, if_true]
  unfold trapPoison
  have h2 : ((activeThreads s g).filter (fun t => (pendHit t (rd ++ wr)).isNone)).filterMap (fun t =>
      (poisonHit t rd).map (fun r => (t.lpos, 0x0F, 0, poisonPlace s.freeCtr t.lpos r))) = [] := by
    rw [List.filterMap_eq_nil_iff]
    intro t ht
    simp [poisonHit_idle (hi.clean t (threads_mem_active (List.mem_filter.mp ht).1))]
  rw [h2]
  rfl

theorem zipWith_outThread (l : List Thread) (f : Thread → Option LaneOut) :
    List.zipWith outThread l (l.map f) = l.map (fun t => outThread t (f t)) := by
  induction l with
  | nil => rfl
  | cons x xs ih => simp [ih]

/-- Results written to an idle gang: each active thread takes its own, and the flags are ORed into `FSTAT`. -/
theorem writeLanes_idle {s : State} {g : Gang} (h : curGang s = some g) (hi : Idle g) (f : Thread → Option LaneOut) :
    writeLanes s (g.threads.map f) =
      updCur s (fun _ => { g with threads := g.threads.map (fun t => outThread t (f t)),
                                  fstat := fstatOr g.fstat (orFlags ((g.threads.map f).map outFlags)) }) := by
  unfold writeLanes
  simp only [h]
  have hz : (g.threads.zip (g.threads.map f)).foldl (outData g) s = s := by
    have : ∀ x ∈ g.threads.zip (g.threads.map f), outData g s x = s := by
      intro x hx
      have hf := hi.flight x.1 (List.of_mem_zip hx).1
      unfold outData
      cases x.2 <;> simp [hf]
    generalize g.threads.zip (g.threads.map f) = l at this
    induction l with
    | nil => rfl
    | cons x xs ih =>
      rw [List.foldl_cons, this x (by simp)]
      exact ih (fun y hy => this y (by simp [hy]))
  rw [hz]
  apply updCur_congr h
  simp [gangOrFlags, zipWith_outThread]

theorem orFlags_outs (s : State) (g : Gang) (f : Thread → LaneOut) :
    orFlags ((laneOuts s g f).map outFlags) = orFlags ((activeThreads s g).map (fun t => (f t).fl)) := by
  have key : ∀ (l : List Thread) (a : Flags),
      ((l.map (fun t => if bitOf (curMask s g) t.lpos && predOn s.cur t then some (f t) else none)).map outFlags).foldl (· ||| ·) a =
      ((l.filter (isActive s g)).map (fun t => (f t).fl)).foldl (· ||| ·) a := by
    intro l
    induction l with
    | nil => intro a; rfl
    | cons x xs ih =>
      intro a
      by_cases hx : (bitOf (curMask s g) x.lpos && predOn s.cur x) = true
      · simp only [List.map_cons, List.foldl_cons, hx, if_true, outFlags, isActive, List.filter_cons]
        exact ih _
      · simp only [List.map_cons, List.foldl_cons, hx, if_false, outFlags, isActive, List.filter_cons,
          Bool.false_eq_true, flagNone, BitVec.or_zero]
        exact ih _
  exact key g.threads flagNone

/-- The executing gang replaced by an idle one with the same paths, and its path moved. -/
theorem movePath_replaced {s : State} {g k : Gang} {p : Path} (e : Executes s g p) (hk : k.core = g.core ∧ k.slot = g.slot)
    (hpaths : k.paths = g.paths) (hi : Idle k) (m : Bool) (pc : Dword) :
    movePath (updCur s (fun _ => k)) m pc = gangAt s k pc := by
  have at_ := curGang_at e.live
  have hc : curGang (updCur s (fun _ => k)) = some k :=
    curGang_updCur e.live _ (fun _ _ => ⟨hk.1.trans at_.1, hk.2.trans at_.2⟩)
  have hp : findPath k s.cur.path = some p := by simpa [findPath, hpaths] using e.path
  rw [movePath_idle hc hp hi]
  unfold gangAt
  rw [updCur_updCur _ _ (fun _ _ => ⟨hk.1.trans at_.1, hk.2.trans at_.2⟩)]
  rfl

/-- A lane-wise bundle of an idle gang runs to its end: each active thread takes its lane's results, the flags of all lanes
are ORed into `FSTAT`, and nothing else changes but the path, which stands at the next bundle. -/
theorem laneOp_idle {s : State} {g : Gang} {p : Path} (e : Executes s g p) (m : Bool) (rd wr : List Nat)
    (f : Gang → Thread → LaneOut) :
    laneOp m rd wr f s =
      lanesOnward s g (fun t => laneThread t (f g t)) (orFlags ((activeThreads s g).map (fun t => (f g t).fl))) := by
  unfold laneOp
  simp only [readyLanes_idle e.live e.idle, e.live, finishPath]
  have hw : writeLanes s (laneOuts s g (f g)) = updCur s (fun _ => lanesDone s g (fun t => laneThread t (f g t))
      (orFlags ((activeThreads s g).map (fun t => (f g t).fl)))) := by
    have h1 := writeLanes_idle e.live e.idle (fun t => if bitOf (curMask s g) t.lpos && predOn s.cur t then some (f g t) else none)
    have h2 := orFlags_outs s g (f g)
    unfold laneOuts at h2 ⊢
    rw [h1, h2]
    apply updCur_congr e.live
    unfold lanesDone isActive
    congr 1
    apply List.map_congr_left
    intro t _
    by_cases ht : (bitOf (curMask s g) t.lpos && predOn s.cur t) = true
    · simp only [ht, if_true]; rfl
    · simp only [ht, if_false, Bool.false_eq_true]; rfl
  rw [hw]
  refine movePath_replaced (k := lanesDone s g (fun t => laneThread t (f g t)) (orFlags ((activeThreads s g).map (fun t => (f g t).fl))))
    e ⟨rfl, rfl⟩ rfl (Idle.threads e.idle _ _ (fun t ht => ?_)) m s.cur.npc
  have h0 := And.intro (e.idle.flight t ht) (And.intro (e.idle.pending t ht) (And.intro (e.idle.clean t ht) (And.intro (e.idle.due t ht) (e.idle.owed t ht))))
  by_cases hx : isActive s g t = true
  · simpa [hx] using laneThread_idle (f g t) h0
  · simpa [hx] using h0

/-! ### Uniform bundles -/

/-- A uniform bundle of an idle gang whose body says where the path goes. -/
theorem uniRaw_idle {s : State} {g : Gang} (h : curGang s = some g) (hi : Idle g) (m : Bool) (rd : List Nat)
    (body : Gang → State → State) : uniRaw m rd body s = body g s := by
  simp [uniRaw, scalarPoison, h, hi.sclean]

/-- A uniform bundle of an idle gang executes its body once and moves on. -/
theorem uniOp_idle {s : State} {g : Gang} (h : curGang s = some g) (hi : Idle g) (m : Bool) (rd : List Nat)
    (body : Gang → State → State) : uniOp m rd body s = finishPath (body g s) m := uniRaw_idle h hi ..

/-- Scalar registers of an idle gang written. -/
theorem writeScalars_idle {s : State} {g : Gang} (h : curGang s = some g) (hi : Idle g) (l : List (Nat × Word)) :
    writeScalars s l = updCur s (fun _ => l.foldl (fun g rw => writeS g rw.1 rw.2) g) := by
  unfold writeScalars
  simp only [h, hi.scalars, List.isEmpty_nil, if_true]
  exact updCur_congr h rfl

/-- A gang with scalar registers written is as idle as before, at the same place, with the same paths. -/
theorem writeS_fold (l : List (Nat × Word)) {g : Gang} (hi : Idle g) :
    Idle (l.foldl (fun g rw => writeS g rw.1 rw.2) g) ∧ (l.foldl (fun g rw => writeS g rw.1 rw.2) g).core = g.core ∧
    (l.foldl (fun g rw => writeS g rw.1 rw.2) g).slot = g.slot ∧
    (l.foldl (fun g rw => writeS g rw.1 rw.2) g).paths = g.paths := by
  induction l generalizing g with
  | nil => exact ⟨hi, rfl, rfl, rfl⟩
  | cons x xs ih =>
    have h1 : Idle (writeS g x.1 x.2) :=
      ⟨hi.flight, hi.pending, hi.clean, hi.due, hi.owed, by simp [writeS, clobber, hi.scalars], hi.gwct, by simp [writeS, hi.sclean], hi.quiet, hi.untraped⟩
    exact ih h1

/-- A uniform bundle of an idle gang that writes scalar registers. -/
theorem uniOp_writes {s : State} {g : Gang} {p : Path} (e : Executes s g p) (m : Bool) (rd : List Nat)
    (l : Gang → List (Nat × Word)) :
    uniOp m rd (fun g s => writeScalars s (l g)) s = gangOnward s ((l g).foldl (fun g rw => writeS g rw.1 rw.2) g) := by
  rw [uniOp_idle e.live e.idle, writeScalars_idle e.live e.idle, finishPath]
  have h := writeS_fold (l g) e.idle
  exact movePath_replaced e ⟨h.2.1, h.2.2.1⟩ h.2.2.2 h.1 m s.cur.npc

end Sys2Proof.Machine
end

