-- ==== Sys2Proof/Laws/Memory.lean ====
section
/-! SUPPORT. Sparse maps and the two memories: a read after a write, reads elsewhere, and the canonical form, which every operation on
memory keeps and which the reset state has. -/

namespace Sys2Proof.Machine

variable {α : Type} [DecidableEq α]

/-! ### One key -/

theorem sparseWfFrom_mono {d : α} {m : Sparse α} {a b : Nat} (hab : a ≤ b) (h : sparseWfFrom d b m = true) : sparseWfFrom d a m = true := by
  cases m with
  | nil => rfl
  | cons x r =>
    simp only [sparseWfFrom, Bool.and_eq_true, decide_eq_true_eq] at h ⊢
    exact ⟨⟨Nat.le_trans hab h.1.1, h.1.2⟩, h.2⟩

theorem sparseSet_wfFrom {d : α} {m : Sparse α} {lo k : Nat} (v : α) (hk : lo ≤ k) (h : sparseWfFrom d lo m = true) :
    sparseWfFrom d lo (sparseSet d m k v) = true := by
  induction m generalizing lo with
  | nil =>
    unfold sparseSet
    split
    · rfl
    · simp [sparseWfFrom, *]
  | cons x r ih =>
    obtain ⟨k', v'⟩ := x
    simp only [sparseWfFrom, Bool.and_eq_true, decide_eq_true_eq] at h
    obtain ⟨⟨h1, h2⟩, h3⟩ := h
    unfold sparseSet
    split
    · rename_i lt
      simp [sparseWfFrom, h1, h2, ih (Nat.succ_le_of_lt lt) h3]
    · split
      · split
        · exact sparseWfFrom_mono (by omega) h3
        · rename_i e ne
          subst e
          simp [sparseWfFrom, hk, ne, h3]
      · split
        · simp [sparseWfFrom, h1, h2, h3]
        · rename_i ne
          have lt : k + 1 ≤ k' := by omega
          simp [sparseWfFrom, hk, ne, h2, h3, lt]

/-- Setting a key keeps the canonical form. -/
theorem sparseSet_wf {d : α} {m : Sparse α} (h : sparseWf d m = true) (k : Nat) (v : α) : sparseWf d (sparseSet d m k v) = true :=
  sparseSet_wfFrom v (Nat.zero_le k) h

theorem sparseGet_below {d : α} {m : Sparse α} {lo k : Nat} (h : sparseWfFrom d lo m = true) (hk : k < lo) : sparseGet d m k = d := by
  cases m with
  | nil => rfl
  | cons x r =>
    simp only [sparseWfFrom, Bool.and_eq_true, decide_eq_true_eq] at h
    have h1 : ¬ x.1 = k := by omega
    have h2 : k < x.1 := by omega
    simp [sparseGet, h1, h2]

/-- A read of a map whose first key stands below the others: that key's value, or what the rest reads. -/
theorem sparseGet_head {d : α} {r : Sparse α} {k : Nat} (h : sparseWfFrom d (k + 1) r = true) (v : α) (j : Nat) :
    sparseGet d ((k, v) :: r) j = if k = j then v else sparseGet d r j := by
  by_cases lt : j < k
  · rw [sparseGet, if_pos lt, sparseGet_below h (Nat.lt_succ_of_lt lt)]
  · rw [sparseGet, if_neg lt]

theorem sparseGet_set_from {d : α} {m : Sparse α} {lo k : Nat} (v : α) (j : Nat) (h : sparseWfFrom d lo m = true) :
    sparseGet d (sparseSet d m k v) j = if j = k then v else sparseGet d m j := by
  induction m generalizing lo with
  | nil =>
    by_cases e : v = d
    · simp [sparseSet, e, sparseGet]
    · simp [sparseSet, e, sparseGet_head (show sparseWfFrom d (k + 1) [] = true from rfl), sparseGet, eq_comm]
  | cons x r ih =>
    have wf : sparseWfFrom d (x.1 + 1) r = true := by simp_all [sparseWfFrom]
    have old : ∀ j, sparseGet d (x :: r) j = if x.1 = j then x.2 else sparseGet d r j := sparseGet_head wf x.2
    have rest := ih wf
    rcases Nat.lt_trichotomy x.1 k with below | same | above
    · rw [sparseSet, if_pos below, sparseGet_head (sparseSet_wfFrom v below wf), rest, old]
      by_cases e : x.1 = j
      · rw [if_pos e, if_pos e, if_neg (by omega)]
      · rw [if_neg e, if_neg e]
    · have low : ∀ j, x.1 = j → sparseGet d r j = d := fun j e => sparseGet_below wf (e ▸ Nat.lt_succ_self _)
      subst same
      by_cases e : v = d
      · rw [sparseSet, if_neg (Nat.lt_irrefl _), if_pos rfl, if_pos e, old]
        by_cases at_ : x.1 = j
        · rw [if_pos at_.symm, low j at_, e]
        · rw [if_neg (Ne.symm at_), if_neg at_]
      · rw [sparseSet, if_neg (Nat.lt_irrefl _), if_pos rfl, if_neg e, sparseGet_head wf, old]
        by_cases at_ : x.1 = j <;> simp [at_, Ne.symm]
    · have le : k + 1 ≤ x.1 := above
      have whole : sparseWfFrom d (k + 1) (x :: r) = true := by
        have ne : x.2 ≠ d := by simp_all [sparseWfFrom]
        simp [sparseWfFrom, le, ne, wf]
      rw [sparseSet, if_neg (by omega), if_neg (by omega)]
      by_cases e : v = d
      · rw [if_pos e]
        by_cases at_ : j = k
        · rw [if_pos at_, e, sparseGet_below whole (by omega)]
        · rw [if_neg at_]
      · rw [if_neg e, sparseGet_head whole]
        by_cases at_ : j = k <;> simp [at_]
        exact fun e => absurd e.symm at_

/-- A read after a write: the key set reads the value, every other key as before. -/
theorem sparseGet_set {d : α} {m : Sparse α} (h : sparseWf d m = true) (k : Nat) (v : α) (j : Nat) :
    sparseGet d (sparseSet d m k v) j = if j = k then v else sparseGet d m j := sparseGet_set_from v j h

/-- Two canonical maps that read alike are equal. -/
theorem sparse_ext_from {d : α} {m n : Sparse α} {lo : Nat} (hm : sparseWfFrom d lo m = true) (hn : sparseWfFrom d lo n = true)
    (h : ∀ k, sparseGet d m k = sparseGet d n k) : m = n := by
  induction m generalizing n lo with
  | nil =>
    cases n with
    | nil => rfl
    | cons x r =>
      simp only [sparseWfFrom, Bool.and_eq_true, decide_eq_true_eq] at hn
      have := h x.1
      simp only [sparseGet, if_true] at this
      exact absurd this.symm hn.1.2
  | cons x r ih =>
    obtain ⟨k, v⟩ := x
    cases n with
    | nil =>
      simp only [sparseWfFrom, Bool.and_eq_true, decide_eq_true_eq] at hm
      have := h k
      simp only [sparseGet, if_true] at this
      exact absurd this hm.1.2
    | cons y t =>
      obtain ⟨k', v'⟩ := y
      simp only [sparseWfFrom, Bool.and_eq_true, decide_eq_true_eq] at hm hn
      have hk : k = k' := by
        apply Decidable.byContradiction
        intro ne
        rcases Nat.lt_or_gt_of_ne ne with lt | lt
        · have := h k
          simp only [sparseGet, if_true, if_neg (Ne.symm ne), if_pos lt] at this
          exact hm.1.2 this
        · have := h k'
          simp only [sparseGet, if_true, if_neg ne, if_pos lt] at this
          exact hn.1.2 this.symm
      subst hk
      have hv : v = v' := by
        have := h k
        simpa [sparseGet] using this
      subst hv
      congr 1
      refine ih hm.2 hn.2 fun j => ?_
      by_cases lt : j < k + 1
      · rw [sparseGet_below hm.2 lt, sparseGet_below hn.2 lt]
      · have := h j
        have a : ¬ k = j := by omega
        have b : ¬ j < k := by omega
        simpa [sparseGet, a, b] using this

theorem sparse_ext {d : α} {m n : Sparse α} (hm : sparseWf d m = true) (hn : sparseWf d n = true)
    (h : ∀ k, sparseGet d m k = sparseGet d n k) : m = n := sparse_ext_from hm hn h

/-! ### Runs of keys -/

theorem sparseWriteRun_wf {d : α} (l : List α) {m : Sparse α} (h : sparseWf d m = true) (k : Nat) :
    sparseWf d (sparseWriteRun d m k l) = true := by
  induction l generalizing m k with
  | nil => exact h
  | cons v vs ih => exact ih (sparseSet_wf h k v) (k + 1)

/-- A read after a run of writes. -/
theorem sparseGet_writeRun {d : α} (l : List α) {m : Sparse α} (h : sparseWf d m = true) (k j : Nat) :
    sparseGet d (sparseWriteRun d m k l) j = if k ≤ j ∧ j < k + l.length then l.getD (j - k) d else sparseGet d m j := by
  induction l generalizing m k with
  | nil =>
    refine (if_neg ?_).symm
    rw [List.length_nil]
    omega
  | cons v vs ih =>
    rw [sparseWriteRun, ih (sparseSet_wf h k v), sparseGet_set h]
    simp only [List.length_cons]
    by_cases hj : j = k
    · subst hj
      have a : ¬ (j + 1 ≤ j ∧ j < j + 1 + vs.length) := by omega
      have b : j ≤ j ∧ j < j + (vs.length + 1) := by omega
      rw [if_neg a, if_pos rfl, if_pos b, Nat.sub_self]
      rfl
    · by_cases hin : k + 1 ≤ j ∧ j < k + 1 + vs.length
      · have b : k ≤ j ∧ j < k + (vs.length + 1) := by omega
        obtain ⟨i, rfl⟩ : ∃ i, j = k + 1 + i := ⟨j - (k + 1), by omega⟩
        have e1 : k + 1 + i - (k + 1) = i := by omega
        have e2 : k + 1 + i - k = i + 1 := by omega
        rw [if_pos hin, if_pos b, e1, e2]
        rfl
      · have b : ¬ (k ≤ j ∧ j < k + (vs.length + 1)) := by omega
        rw [if_neg hin, if_neg hj, if_neg b]

omit [DecidableEq α] in
theorem sparseReadRun_length (d : α) (m : Sparse α) (k n : Nat) : (sparseReadRun d m k n).length = n := by
  induction n generalizing k with
  | zero => rfl
  | succ n ih => simp [sparseReadRun, ih]

omit [DecidableEq α] in
theorem sparseReadRun_congr {d : α} {m m' : Sparse α} (k n : Nat) (h : ∀ j, k ≤ j → j < k + n → sparseGet d m j = sparseGet d m' j) :
    sparseReadRun d m k n = sparseReadRun d m' k n := by
  induction n generalizing k with
  | zero => rfl
  | succ n ih =>
    simp only [sparseReadRun]
    rw [h k (Nat.le_refl k) (by omega), ih (k + 1) fun j a b => h j (by omega) (by omega)]

omit [DecidableEq α] in
theorem sparseReadRun_get (d : α) (m : Sparse α) (k n i : Nat) (hi : i < n) : (sparseReadRun d m k n).getD i d = sparseGet d m (k + i) := by
  induction n generalizing k i with
  | zero => omega
  | succ n ih =>
    cases i with
    | zero => rfl
    | succ i =>
      simp only [sparseReadRun, List.getD_cons_succ]
      rw [ih (k + 1) i (by omega)]
      congr 1
      omega

/-- The bytes just written read back. -/
theorem sparseReadRun_writeRun {d : α} (l : List α) {m : Sparse α} (h : sparseWf d m = true) (k : Nat) :
    sparseReadRun d (sparseWriteRun d m k l) k l.length = l := by
  apply List.ext_getElem (sparseReadRun_length ..)
  intro i h1 h2
  have := sparseReadRun_get d (sparseWriteRun d m k l) k l.length i h2
  rw [sparseGet_writeRun l h] at this
  have a : k ≤ k + i ∧ k + i < k + l.length := by omega
  rw [if_pos a, Nat.add_sub_cancel_left] at this
  simpa [List.getD_eq_getElem?_getD, h1, h2] using this

/-! ### The memories -/

/-- The reset state has the canonical form. -/
theorem memoriesWf_reset : memoriesWf State.reset := ⟨rfl, rfl⟩

/-- Only the two memories matter to their form. -/
theorem memoriesWf_of_eq {s u : State} (hm : u.mem = s.mem) (hh : u.hostMem = s.hostMem) (h : memoriesWf s) : memoriesWf u := by
  unfold memoriesWf
  rw [hm, hh]
  exact h

theorem memWrite_wf {s : State} (h : memoriesWf s) (pa : Nat) (l : List Byte) : memoriesWf (memWrite s pa l) :=
  ⟨sparseWriteRun_wf l h.1 pa, h.2⟩

theorem hostWriteAt_wf {s : State} (h : memoriesWf s) (pa : Nat) (l : List Byte) : memoriesWf (hostWriteAt s pa l) :=
  ⟨h.1, sparseWriteRun_wf l h.2 pa⟩

/-- A byte of memory after a store: the stored byte inside the run, as before outside. -/
theorem memByte_memWrite {s : State} (h : memoriesWf s) (pa : Nat) (l : List Byte) (a : Nat) :
    memByte (memWrite s pa l) a = if pa ≤ a ∧ a < pa + l.length then l.getD (a - pa) memDefault else memByte s a :=
  sparseGet_writeRun l h.1 pa a

theorem memBytes_memWrite {s : State} (h : memoriesWf s) (pa : Nat) (l : List Byte) : memBytes (memWrite s pa l) pa l.length = l :=
  sparseReadRun_writeRun l h.1 pa

@[simp] theorem memBytes_length (s : State) (pa n : Nat) : (memBytes s pa n).length = n := sparseReadRun_length ..

@[simp] theorem hostBytes_length (s : State) (pa n : Nat) : (hostBytes s pa n).length = n := sparseReadRun_length ..

/-- What a fold over the state does to the memories' form, where each of its steps keeps it. -/
theorem foldl_wf {β : Type} {f : State → β → State} (l : List β) (hf : ∀ s x, memoriesWf s → memoriesWf (f s x)) {s : State}
    (h : memoriesWf s) : memoriesWf (l.foldl f s) := by
  induction l generalizing s with
  | nil => exact h
  | cons x r ih => exact ih (hf s x h)

end Sys2Proof.Machine
end

