-- ==== Sys2Proof/Laws/Words.lean ====
section
/-! SUPPORT. The fields of a word of each format (spec/02 R39, R42) read back from it. -/

namespace Sys2Proof

/-! ### Appended bit vectors -/

theorem extract_above {m n : Nat} (x : BitVec m) (y : BitVec n) (k w : Nat) : (x ++ y).extractLsb' (n + k) w = x.extractLsb' k w := by
  apply BitVec.eq_of_getLsbD_eq
  intro j hj
  have a : ¬ n + k + j < n := by omega
  have b : n + k + j - n = k + j := by omega
  rw [BitVec.getLsbD_extractLsb', BitVec.getLsbD_append, BitVec.getLsbD_extractLsb', if_neg a, b]

theorem extract_last {m n : Nat} (x : BitVec m) (y : BitVec n) : (x ++ y).extractLsb' 0 n = y := by
  apply BitVec.eq_of_getLsbD_eq
  intro j hj
  rw [BitVec.getLsbD_extractLsb', BitVec.getLsbD_append, Nat.zero_add, if_pos hj]
  simp [hj]

theorem extract_whole {n : Nat} (x : BitVec n) : x.extractLsb' 0 n = x := by
  apply BitVec.eq_of_getLsbD_eq
  intro j hj
  rw [BitVec.getLsbD_extractLsb', Nat.zero_add]
  simp [hj]

theorem bit_above {m n : Nat} (x : BitVec m) (y : BitVec n) (k : Nat) : (x ++ y).getLsbD (n + k) = x.getLsbD k := by
  rw [BitVec.getLsbD_append, if_neg (by omega), Nat.add_sub_cancel_left]

theorem bit_last {m : Nat} (x : BitVec m) (b : Bool) : (x ++ BitVec.ofBool b).getLsbD 0 = b := by
  rw [BitVec.getLsbD_append, if_pos (by omega)]
  cases b <;> rfl

/-! ### `lvWord` -/

theorem lvWord_low (maj : BitVec 6) (fn : BitVec 3) (b : BitVec 7) (a : BitVec 7) (d : BitVec 7) (m : Bool) : (lvWord maj fn b a d m).getLsbD 0 = true :=
  bit_last _ true

@[simp] theorem lvWord_low_at (maj : BitVec 6) (fn : BitVec 3) (b : BitVec 7) (a : BitVec 7) (d : BitVec 7) (m : Bool) : (lvWord maj fn b a d m)[0] = true :=
  by rw [← BitVec.getLsbD_eq_getElem, lvWord_low]

theorem lvWord_marker (maj : BitVec 6) (fn : BitVec 3) (b : BitVec 7) (a : BitVec 7) (d : BitVec 7) (m : Bool) : (lvWord maj fn b a d m).getLsbD 1 = m :=
  (bit_above (n := 1) _ _ _).trans (bit_last _ _)

@[simp] theorem lvWord_marker_at (maj : BitVec 6) (fn : BitVec 3) (b : BitVec 7) (a : BitVec 7) (d : BitVec 7) (m : Bool) : (lvWord maj fn b a d m)[1] = m :=
  by rw [← BitVec.getLsbD_eq_getElem, lvWord_marker]

theorem lvWord_field_maj (maj : BitVec 6) (fn : BitVec 3) (b : BitVec 7) (a : BitVec 7) (d : BitVec 7) (m : Bool) : (lvWord maj fn b a d m).extractLsb' 2 6 = maj :=
  (extract_above (n := 1) _ _ _ _).trans ((extract_above (n := 1) _ _ _ _).trans (extract_last _ _))

@[simp] theorem lvWord_major (maj : BitVec 6) (fn : BitVec 3) (b : BitVec 7) (a : BitVec 7) (d : BitVec 7) (m : Bool) : majorOf (lvWord maj fn b a d m) = maj.toNat :=
  by rw [majorOf, lvWord_field_maj]

@[simp] theorem lvWord_d (maj : BitVec 6) (fn : BitVec 3) (b : BitVec 7) (a : BitVec 7) (d : BitVec 7) (m : Bool) : (lvWord maj fn b a d m).extractLsb' 8 7 = d :=
  (extract_above (n := 1) _ _ _ _).trans ((extract_above (n := 1) _ _ _ _).trans ((extract_above (n := 6) _ _ _ _).trans (extract_last _ _)))

@[simp] theorem lvWord_a (maj : BitVec 6) (fn : BitVec 3) (b : BitVec 7) (a : BitVec 7) (d : BitVec 7) (m : Bool) : (lvWord maj fn b a d m).extractLsb' 15 7 = a :=
  (extract_above (n := 1) _ _ _ _).trans ((extract_above (n := 1) _ _ _ _).trans ((extract_above (n := 6) _ _ _ _).trans ((extract_above (n := 7) _ _ _ _).trans (extract_last _ _))))

@[simp] theorem lvWord_b (maj : BitVec 6) (fn : BitVec 3) (b : BitVec 7) (a : BitVec 7) (d : BitVec 7) (m : Bool) : (lvWord maj fn b a d m).extractLsb' 22 7 = b :=
  (extract_above (n := 1) _ _ _ _).trans ((extract_above (n := 1) _ _ _ _).trans ((extract_above (n := 6) _ _ _ _).trans ((extract_above (n := 7) _ _ _ _).trans ((extract_above (n := 7) _ _ _ _).trans (extract_last _ _)))))

@[simp] theorem lvWord_fn (maj : BitVec 6) (fn : BitVec 3) (b : BitVec 7) (a : BitVec 7) (d : BitVec 7) (m : Bool) : (lvWord maj fn b a d m).extractLsb' 29 3 = fn :=
  (extract_above (n := 1) _ _ _ _).trans ((extract_above (n := 1) _ _ _ _).trans ((extract_above (n := 6) _ _ _ _).trans ((extract_above (n := 7) _ _ _ _).trans ((extract_above (n := 7) _ _ _ _).trans ((extract_above (n := 7) _ _ _ _).trans (extract_whole _))))))

/-! ### `liWord` -/

theorem liWord_low (maj : BitVec 6) (i : BitVec 10) (a : BitVec 7) (d : BitVec 7) (m : Bool) : (liWord maj i a d m).getLsbD 0 = true :=
  bit_last _ true

@[simp] theorem liWord_low_at (maj : BitVec 6) (i : BitVec 10) (a : BitVec 7) (d : BitVec 7) (m : Bool) : (liWord maj i a d m)[0] = true :=
  by rw [← BitVec.getLsbD_eq_getElem, liWord_low]

theorem liWord_marker (maj : BitVec 6) (i : BitVec 10) (a : BitVec 7) (d : BitVec 7) (m : Bool) : (liWord maj i a d m).getLsbD 1 = m :=
  (bit_above (n := 1) _ _ _).trans (bit_last _ _)

@[simp] theorem liWord_marker_at (maj : BitVec 6) (i : BitVec 10) (a : BitVec 7) (d : BitVec 7) (m : Bool) : (liWord maj i a d m)[1] = m :=
  by rw [← BitVec.getLsbD_eq_getElem, liWord_marker]

theorem liWord_field_maj (maj : BitVec 6) (i : BitVec 10) (a : BitVec 7) (d : BitVec 7) (m : Bool) : (liWord maj i a d m).extractLsb' 2 6 = maj :=
  (extract_above (n := 1) _ _ _ _).trans ((extract_above (n := 1) _ _ _ _).trans (extract_last _ _))

@[simp] theorem liWord_major (maj : BitVec 6) (i : BitVec 10) (a : BitVec 7) (d : BitVec 7) (m : Bool) : majorOf (liWord maj i a d m) = maj.toNat :=
  by rw [majorOf, liWord_field_maj]

@[simp] theorem liWord_d (maj : BitVec 6) (i : BitVec 10) (a : BitVec 7) (d : BitVec 7) (m : Bool) : (liWord maj i a d m).extractLsb' 8 7 = d :=
  (extract_above (n := 1) _ _ _ _).trans ((extract_above (n := 1) _ _ _ _).trans ((extract_above (n := 6) _ _ _ _).trans (extract_last _ _)))

@[simp] theorem liWord_a (maj : BitVec 6) (i : BitVec 10) (a : BitVec 7) (d : BitVec 7) (m : Bool) : (liWord maj i a d m).extractLsb' 15 7 = a :=
  (extract_above (n := 1) _ _ _ _).trans ((extract_above (n := 1) _ _ _ _).trans ((extract_above (n := 6) _ _ _ _).trans ((extract_above (n := 7) _ _ _ _).trans (extract_last _ _))))

@[simp] theorem liWord_i (maj : BitVec 6) (i : BitVec 10) (a : BitVec 7) (d : BitVec 7) (m : Bool) : (liWord maj i a d m).extractLsb' 22 10 = i :=
  (extract_above (n := 1) _ _ _ _).trans ((extract_above (n := 1) _ _ _ _).trans ((extract_above (n := 6) _ _ _ _).trans ((extract_above (n := 7) _ _ _ _).trans ((extract_above (n := 7) _ _ _ _).trans (extract_whole _)))))

/-! ### `lwWord` -/

theorem lwWord_low (maj : BitVec 6) (i : BitVec 17) (d : BitVec 7) (m : Bool) : (lwWord maj i d m).getLsbD 0 = true := bit_last _ true

@[simp] theorem lwWord_low_at (maj : BitVec 6) (i : BitVec 17) (d : BitVec 7) (m : Bool) : (lwWord maj i d m)[0] = true :=
  by rw [← BitVec.getLsbD_eq_getElem, lwWord_low]

theorem lwWord_marker (maj : BitVec 6) (i : BitVec 17) (d : BitVec 7) (m : Bool) : (lwWord maj i d m).getLsbD 1 = m :=
  (bit_above (n := 1) _ _ _).trans (bit_last _ _)

@[simp] theorem lwWord_marker_at (maj : BitVec 6) (i : BitVec 17) (d : BitVec 7) (m : Bool) : (lwWord maj i d m)[1] = m :=
  by rw [← BitVec.getLsbD_eq_getElem, lwWord_marker]

theorem lwWord_field_maj (maj : BitVec 6) (i : BitVec 17) (d : BitVec 7) (m : Bool) : (lwWord maj i d m).extractLsb' 2 6 = maj :=
  (extract_above (n := 1) _ _ _ _).trans ((extract_above (n := 1) _ _ _ _).trans (extract_last _ _))

@[simp] theorem lwWord_major (maj : BitVec 6) (i : BitVec 17) (d : BitVec 7) (m : Bool) : majorOf (lwWord maj i d m) = maj.toNat :=
  by rw [majorOf, lwWord_field_maj]

@[simp] theorem lwWord_d (maj : BitVec 6) (i : BitVec 17) (d : BitVec 7) (m : Bool) : (lwWord maj i d m).extractLsb' 8 7 = d :=
  (extract_above (n := 1) _ _ _ _).trans ((extract_above (n := 1) _ _ _ _).trans ((extract_above (n := 6) _ _ _ _).trans (extract_last _ _)))

@[simp] theorem lwWord_i (maj : BitVec 6) (i : BitVec 17) (d : BitVec 7) (m : Bool) : (lwWord maj i d m).extractLsb' 15 17 = i :=
  (extract_above (n := 1) _ _ _ _).trans ((extract_above (n := 1) _ _ _ _).trans ((extract_above (n := 6) _ _ _ _).trans ((extract_above (n := 7) _ _ _ _).trans (extract_whole _))))

/-! ### `lsWord` -/

theorem lsWord_low (maj : BitVec 6) (fn : BitVec 6) (s : BitVec 9) (d : BitVec 9) (m : Bool) : (lsWord maj fn s d m).getLsbD 0 = true :=
  bit_last _ true

@[simp] theorem lsWord_low_at (maj : BitVec 6) (fn : BitVec 6) (s : BitVec 9) (d : BitVec 9) (m : Bool) : (lsWord maj fn s d m)[0] = true :=
  by rw [← BitVec.getLsbD_eq_getElem, lsWord_low]

theorem lsWord_marker (maj : BitVec 6) (fn : BitVec 6) (s : BitVec 9) (d : BitVec 9) (m : Bool) : (lsWord maj fn s d m).getLsbD 1 = m :=
  (bit_above (n := 1) _ _ _).trans (bit_last _ _)

@[simp] theorem lsWord_marker_at (maj : BitVec 6) (fn : BitVec 6) (s : BitVec 9) (d : BitVec 9) (m : Bool) : (lsWord maj fn s d m)[1] = m :=
  by rw [← BitVec.getLsbD_eq_getElem, lsWord_marker]

theorem lsWord_field_maj (maj : BitVec 6) (fn : BitVec 6) (s : BitVec 9) (d : BitVec 9) (m : Bool) : (lsWord maj fn s d m).extractLsb' 2 6 = maj :=
  (extract_above (n := 1) _ _ _ _).trans ((extract_above (n := 1) _ _ _ _).trans (extract_last _ _))

@[simp] theorem lsWord_major (maj : BitVec 6) (fn : BitVec 6) (s : BitVec 9) (d : BitVec 9) (m : Bool) : majorOf (lsWord maj fn s d m) = maj.toNat :=
  by rw [majorOf, lsWord_field_maj]

@[simp] theorem lsWord_d (maj : BitVec 6) (fn : BitVec 6) (s : BitVec 9) (d : BitVec 9) (m : Bool) : (lsWord maj fn s d m).extractLsb' 8 9 = d :=
  (extract_above (n := 1) _ _ _ _).trans ((extract_above (n := 1) _ _ _ _).trans ((extract_above (n := 6) _ _ _ _).trans (extract_last _ _)))

@[simp] theorem lsWord_s (maj : BitVec 6) (fn : BitVec 6) (s : BitVec 9) (d : BitVec 9) (m : Bool) : (lsWord maj fn s d m).extractLsb' 17 9 = s :=
  (extract_above (n := 1) _ _ _ _).trans ((extract_above (n := 1) _ _ _ _).trans ((extract_above (n := 6) _ _ _ _).trans ((extract_above (n := 9) _ _ _ _).trans (extract_last _ _))))

@[simp] theorem lsWord_fn (maj : BitVec 6) (fn : BitVec 6) (s : BitVec 9) (d : BitVec 9) (m : Bool) : (lsWord maj fn s d m).extractLsb' 26 6 = fn :=
  (extract_above (n := 1) _ _ _ _).trans ((extract_above (n := 1) _ _ _ _).trans ((extract_above (n := 6) _ _ _ _).trans ((extract_above (n := 9) _ _ _ _).trans ((extract_above (n := 9) _ _ _ _).trans (extract_whole _)))))

/-! ### `ltWord` -/

theorem ltWord_low (maj : BitVec 6) (i : BitVec 12) (fn : BitVec 3) (d : BitVec 9) (m : Bool) : (ltWord maj i fn d m).getLsbD 0 = true :=
  bit_last _ true

@[simp] theorem ltWord_low_at (maj : BitVec 6) (i : BitVec 12) (fn : BitVec 3) (d : BitVec 9) (m : Bool) : (ltWord maj i fn d m)[0] = true :=
  by rw [← BitVec.getLsbD_eq_getElem, ltWord_low]

theorem ltWord_marker (maj : BitVec 6) (i : BitVec 12) (fn : BitVec 3) (d : BitVec 9) (m : Bool) : (ltWord maj i fn d m).getLsbD 1 = m :=
  (bit_above (n := 1) _ _ _).trans (bit_last _ _)

@[simp] theorem ltWord_marker_at (maj : BitVec 6) (i : BitVec 12) (fn : BitVec 3) (d : BitVec 9) (m : Bool) : (ltWord maj i fn d m)[1] = m :=
  by rw [← BitVec.getLsbD_eq_getElem, ltWord_marker]

theorem ltWord_field_maj (maj : BitVec 6) (i : BitVec 12) (fn : BitVec 3) (d : BitVec 9) (m : Bool) : (ltWord maj i fn d m).extractLsb' 2 6 = maj :=
  (extract_above (n := 1) _ _ _ _).trans ((extract_above (n := 1) _ _ _ _).trans (extract_last _ _))

@[simp] theorem ltWord_major (maj : BitVec 6) (i : BitVec 12) (fn : BitVec 3) (d : BitVec 9) (m : Bool) : majorOf (ltWord maj i fn d m) = maj.toNat :=
  by rw [majorOf, ltWord_field_maj]

@[simp] theorem ltWord_d (maj : BitVec 6) (i : BitVec 12) (fn : BitVec 3) (d : BitVec 9) (m : Bool) : (ltWord maj i fn d m).extractLsb' 8 9 = d :=
  (extract_above (n := 1) _ _ _ _).trans ((extract_above (n := 1) _ _ _ _).trans ((extract_above (n := 6) _ _ _ _).trans (extract_last _ _)))

@[simp] theorem ltWord_fn (maj : BitVec 6) (i : BitVec 12) (fn : BitVec 3) (d : BitVec 9) (m : Bool) : (ltWord maj i fn d m).extractLsb' 17 3 = fn :=
  (extract_above (n := 1) _ _ _ _).trans ((extract_above (n := 1) _ _ _ _).trans ((extract_above (n := 6) _ _ _ _).trans ((extract_above (n := 9) _ _ _ _).trans (extract_last _ _))))

@[simp] theorem ltWord_i (maj : BitVec 6) (i : BitVec 12) (fn : BitVec 3) (d : BitVec 9) (m : Bool) : (ltWord maj i fn d m).extractLsb' 20 12 = i :=
  (extract_above (n := 1) _ _ _ _).trans ((extract_above (n := 1) _ _ _ _).trans ((extract_above (n := 6) _ _ _ _).trans ((extract_above (n := 9) _ _ _ _).trans ((extract_above (n := 3) _ _ _ _).trans (extract_whole _)))))

/-! ### `lxWord` -/

theorem lxWord_low (maj : BitVec 6) (x : BitVec 3) (fn : BitVec 5) (s : BitVec 9) (d : BitVec 7) (m : Bool) : (lxWord maj x fn s d m).getLsbD 0 = true :=
  bit_last _ true

@[simp] theorem lxWord_low_at (maj : BitVec 6) (x : BitVec 3) (fn : BitVec 5) (s : BitVec 9) (d : BitVec 7) (m : Bool) : (lxWord maj x fn s d m)[0] = true :=
  by rw [← BitVec.getLsbD_eq_getElem, lxWord_low]

theorem lxWord_marker (maj : BitVec 6) (x : BitVec 3) (fn : BitVec 5) (s : BitVec 9) (d : BitVec 7) (m : Bool) : (lxWord maj x fn s d m).getLsbD 1 = m :=
  (bit_above (n := 1) _ _ _).trans (bit_last _ _)

@[simp] theorem lxWord_marker_at (maj : BitVec 6) (x : BitVec 3) (fn : BitVec 5) (s : BitVec 9) (d : BitVec 7) (m : Bool) : (lxWord maj x fn s d m)[1] = m :=
  by rw [← BitVec.getLsbD_eq_getElem, lxWord_marker]

theorem lxWord_field_maj (maj : BitVec 6) (x : BitVec 3) (fn : BitVec 5) (s : BitVec 9) (d : BitVec 7) (m : Bool) : (lxWord maj x fn s d m).extractLsb' 2 6 = maj :=
  (extract_above (n := 1) _ _ _ _).trans ((extract_above (n := 1) _ _ _ _).trans (extract_last _ _))

@[simp] theorem lxWord_major (maj : BitVec 6) (x : BitVec 3) (fn : BitVec 5) (s : BitVec 9) (d : BitVec 7) (m : Bool) : majorOf (lxWord maj x fn s d m) = maj.toNat :=
  by rw [majorOf, lxWord_field_maj]

@[simp] theorem lxWord_d (maj : BitVec 6) (x : BitVec 3) (fn : BitVec 5) (s : BitVec 9) (d : BitVec 7) (m : Bool) : (lxWord maj x fn s d m).extractLsb' 8 7 = d :=
  (extract_above (n := 1) _ _ _ _).trans ((extract_above (n := 1) _ _ _ _).trans ((extract_above (n := 6) _ _ _ _).trans (extract_last _ _)))

@[simp] theorem lxWord_s (maj : BitVec 6) (x : BitVec 3) (fn : BitVec 5) (s : BitVec 9) (d : BitVec 7) (m : Bool) : (lxWord maj x fn s d m).extractLsb' 15 9 = s :=
  (extract_above (n := 1) _ _ _ _).trans ((extract_above (n := 1) _ _ _ _).trans ((extract_above (n := 6) _ _ _ _).trans ((extract_above (n := 7) _ _ _ _).trans (extract_last _ _))))

@[simp] theorem lxWord_fn (maj : BitVec 6) (x : BitVec 3) (fn : BitVec 5) (s : BitVec 9) (d : BitVec 7) (m : Bool) : (lxWord maj x fn s d m).extractLsb' 24 5 = fn :=
  (extract_above (n := 1) _ _ _ _).trans ((extract_above (n := 1) _ _ _ _).trans ((extract_above (n := 6) _ _ _ _).trans ((extract_above (n := 7) _ _ _ _).trans ((extract_above (n := 9) _ _ _ _).trans (extract_last _ _)))))

@[simp] theorem lxWord_x (maj : BitVec 6) (x : BitVec 3) (fn : BitVec 5) (s : BitVec 9) (d : BitVec 7) (m : Bool) : (lxWord maj x fn s d m).extractLsb' 29 3 = x :=
  (extract_above (n := 1) _ _ _ _).trans ((extract_above (n := 1) _ _ _ _).trans ((extract_above (n := 6) _ _ _ _).trans ((extract_above (n := 7) _ _ _ _).trans ((extract_above (n := 9) _ _ _ _).trans ((extract_above (n := 5) _ _ _ _).trans (extract_whole _))))))

/-! ### `lmWord` -/

theorem lmWord_low (maj : BitVec 6) (o : BitVec 2) (z : BitVec 3) (b : BitVec 5) (a : BitVec 7) (d : BitVec 7) (m : Bool) : (lmWord maj o z b a d m).getLsbD 0 = true :=
  bit_last _ true

@[simp] theorem lmWord_low_at (maj : BitVec 6) (o : BitVec 2) (z : BitVec 3) (b : BitVec 5) (a : BitVec 7) (d : BitVec 7) (m : Bool) : (lmWord maj o z b a d m)[0] = true :=
  by rw [← BitVec.getLsbD_eq_getElem, lmWord_low]

theorem lmWord_marker (maj : BitVec 6) (o : BitVec 2) (z : BitVec 3) (b : BitVec 5) (a : BitVec 7) (d : BitVec 7) (m : Bool) : (lmWord maj o z b a d m).getLsbD 1 = m :=
  (bit_above (n := 1) _ _ _).trans (bit_last _ _)

@[simp] theorem lmWord_marker_at (maj : BitVec 6) (o : BitVec 2) (z : BitVec 3) (b : BitVec 5) (a : BitVec 7) (d : BitVec 7) (m : Bool) : (lmWord maj o z b a d m)[1] = m :=
  by rw [← BitVec.getLsbD_eq_getElem, lmWord_marker]

theorem lmWord_field_maj (maj : BitVec 6) (o : BitVec 2) (z : BitVec 3) (b : BitVec 5) (a : BitVec 7) (d : BitVec 7) (m : Bool) : (lmWord maj o z b a d m).extractLsb' 2 6 = maj :=
  (extract_above (n := 1) _ _ _ _).trans ((extract_above (n := 1) _ _ _ _).trans (extract_last _ _))

@[simp] theorem lmWord_major (maj : BitVec 6) (o : BitVec 2) (z : BitVec 3) (b : BitVec 5) (a : BitVec 7) (d : BitVec 7) (m : Bool) : majorOf (lmWord maj o z b a d m) = maj.toNat :=
  by rw [majorOf, lmWord_field_maj]

@[simp] theorem lmWord_d (maj : BitVec 6) (o : BitVec 2) (z : BitVec 3) (b : BitVec 5) (a : BitVec 7) (d : BitVec 7) (m : Bool) : (lmWord maj o z b a d m).extractLsb' 8 7 = d :=
  (extract_above (n := 1) _ _ _ _).trans ((extract_above (n := 1) _ _ _ _).trans ((extract_above (n := 6) _ _ _ _).trans (extract_last _ _)))

@[simp] theorem lmWord_a (maj : BitVec 6) (o : BitVec 2) (z : BitVec 3) (b : BitVec 5) (a : BitVec 7) (d : BitVec 7) (m : Bool) : (lmWord maj o z b a d m).extractLsb' 15 7 = a :=
  (extract_above (n := 1) _ _ _ _).trans ((extract_above (n := 1) _ _ _ _).trans ((extract_above (n := 6) _ _ _ _).trans ((extract_above (n := 7) _ _ _ _).trans (extract_last _ _))))

@[simp] theorem lmWord_b (maj : BitVec 6) (o : BitVec 2) (z : BitVec 3) (b : BitVec 5) (a : BitVec 7) (d : BitVec 7) (m : Bool) : (lmWord maj o z b a d m).extractLsb' 22 5 = b :=
  (extract_above (n := 1) _ _ _ _).trans ((extract_above (n := 1) _ _ _ _).trans ((extract_above (n := 6) _ _ _ _).trans ((extract_above (n := 7) _ _ _ _).trans ((extract_above (n := 7) _ _ _ _).trans (extract_last _ _)))))

@[simp] theorem lmWord_z (maj : BitVec 6) (o : BitVec 2) (z : BitVec 3) (b : BitVec 5) (a : BitVec 7) (d : BitVec 7) (m : Bool) : (lmWord maj o z b a d m).extractLsb' 27 3 = z :=
  (extract_above (n := 1) _ _ _ _).trans ((extract_above (n := 1) _ _ _ _).trans ((extract_above (n := 6) _ _ _ _).trans ((extract_above (n := 7) _ _ _ _).trans ((extract_above (n := 7) _ _ _ _).trans ((extract_above (n := 5) _ _ _ _).trans (extract_last _ _))))))

@[simp] theorem lmWord_o (maj : BitVec 6) (o : BitVec 2) (z : BitVec 3) (b : BitVec 5) (a : BitVec 7) (d : BitVec 7) (m : Bool) : (lmWord maj o z b a d m).extractLsb' 30 2 = o :=
  (extract_above (n := 1) _ _ _ _).trans ((extract_above (n := 1) _ _ _ _).trans ((extract_above (n := 6) _ _ _ _).trans ((extract_above (n := 7) _ _ _ _).trans ((extract_above (n := 7) _ _ _ _).trans ((extract_above (n := 5) _ _ _ _).trans ((extract_above (n := 3) _ _ _ _).trans (extract_whole _)))))))

/-! ### `laWord` -/

theorem laWord_low (maj : BitVec 6) (fn : BitVec 3) (w : Bool) (b : BitVec 6) (a : BitVec 7) (d : BitVec 7) (m : Bool) : (laWord maj fn w b a d m).getLsbD 0 = true :=
  bit_last _ true

@[simp] theorem laWord_low_at (maj : BitVec 6) (fn : BitVec 3) (w : Bool) (b : BitVec 6) (a : BitVec 7) (d : BitVec 7) (m : Bool) : (laWord maj fn w b a d m)[0] = true :=
  by rw [← BitVec.getLsbD_eq_getElem, laWord_low]

theorem laWord_marker (maj : BitVec 6) (fn : BitVec 3) (w : Bool) (b : BitVec 6) (a : BitVec 7) (d : BitVec 7) (m : Bool) : (laWord maj fn w b a d m).getLsbD 1 = m :=
  (bit_above (n := 1) _ _ _).trans (bit_last _ _)

@[simp] theorem laWord_marker_at (maj : BitVec 6) (fn : BitVec 3) (w : Bool) (b : BitVec 6) (a : BitVec 7) (d : BitVec 7) (m : Bool) : (laWord maj fn w b a d m)[1] = m :=
  by rw [← BitVec.getLsbD_eq_getElem, laWord_marker]

theorem laWord_field_maj (maj : BitVec 6) (fn : BitVec 3) (w : Bool) (b : BitVec 6) (a : BitVec 7) (d : BitVec 7) (m : Bool) : (laWord maj fn w b a d m).extractLsb' 2 6 = maj :=
  (extract_above (n := 1) _ _ _ _).trans ((extract_above (n := 1) _ _ _ _).trans (extract_last _ _))

@[simp] theorem laWord_major (maj : BitVec 6) (fn : BitVec 3) (w : Bool) (b : BitVec 6) (a : BitVec 7) (d : BitVec 7) (m : Bool) : majorOf (laWord maj fn w b a d m) = maj.toNat :=
  by rw [majorOf, laWord_field_maj]

@[simp] theorem laWord_d (maj : BitVec 6) (fn : BitVec 3) (w : Bool) (b : BitVec 6) (a : BitVec 7) (d : BitVec 7) (m : Bool) : (laWord maj fn w b a d m).extractLsb' 8 7 = d :=
  (extract_above (n := 1) _ _ _ _).trans ((extract_above (n := 1) _ _ _ _).trans ((extract_above (n := 6) _ _ _ _).trans (extract_last _ _)))

@[simp] theorem laWord_a (maj : BitVec 6) (fn : BitVec 3) (w : Bool) (b : BitVec 6) (a : BitVec 7) (d : BitVec 7) (m : Bool) : (laWord maj fn w b a d m).extractLsb' 15 7 = a :=
  (extract_above (n := 1) _ _ _ _).trans ((extract_above (n := 1) _ _ _ _).trans ((extract_above (n := 6) _ _ _ _).trans ((extract_above (n := 7) _ _ _ _).trans (extract_last _ _))))

@[simp] theorem laWord_b (maj : BitVec 6) (fn : BitVec 3) (w : Bool) (b : BitVec 6) (a : BitVec 7) (d : BitVec 7) (m : Bool) : (laWord maj fn w b a d m).extractLsb' 22 6 = b :=
  (extract_above (n := 1) _ _ _ _).trans ((extract_above (n := 1) _ _ _ _).trans ((extract_above (n := 6) _ _ _ _).trans ((extract_above (n := 7) _ _ _ _).trans ((extract_above (n := 7) _ _ _ _).trans (extract_last _ _)))))

theorem laWord_w (maj : BitVec 6) (fn : BitVec 3) (w : Bool) (b : BitVec 6) (a : BitVec 7) (d : BitVec 7) (m : Bool) : (laWord maj fn w b a d m).getLsbD 28 = w :=
  (bit_above (n := 1) _ _ _).trans ((bit_above (n := 1) _ _ _).trans ((bit_above (n := 6) _ _ _).trans ((bit_above (n := 7) _ _ _).trans ((bit_above (n := 7) _ _ _).trans ((bit_above (n := 6) _ _ _).trans (bit_last _ _))))))

@[simp] theorem laWord_w_at (maj : BitVec 6) (fn : BitVec 3) (w : Bool) (b : BitVec 6) (a : BitVec 7) (d : BitVec 7) (m : Bool) : (laWord maj fn w b a d m)[28] = w :=
  by rw [← BitVec.getLsbD_eq_getElem, laWord_w]

@[simp] theorem laWord_fn (maj : BitVec 6) (fn : BitVec 3) (w : Bool) (b : BitVec 6) (a : BitVec 7) (d : BitVec 7) (m : Bool) : (laWord maj fn w b a d m).extractLsb' 29 3 = fn :=
  (extract_above (n := 1) _ _ _ _).trans ((extract_above (n := 1) _ _ _ _).trans ((extract_above (n := 6) _ _ _ _).trans ((extract_above (n := 7) _ _ _ _).trans ((extract_above (n := 7) _ _ _ _).trans ((extract_above (n := 6) _ _ _ _).trans ((extract_above (n := 1) _ _ _ _).trans (extract_whole _)))))))

/-! ### `leWord` -/

theorem leWord_low (maj : BitVec 6) (fn : BitVec 2) (t : BitVec 6) (q : BitVec 8) (p : BitVec 8) (m : Bool) : (leWord maj fn t q p m).getLsbD 0 = true :=
  bit_last _ true

@[simp] theorem leWord_low_at (maj : BitVec 6) (fn : BitVec 2) (t : BitVec 6) (q : BitVec 8) (p : BitVec 8) (m : Bool) : (leWord maj fn t q p m)[0] = true :=
  by rw [← BitVec.getLsbD_eq_getElem, leWord_low]

theorem leWord_marker (maj : BitVec 6) (fn : BitVec 2) (t : BitVec 6) (q : BitVec 8) (p : BitVec 8) (m : Bool) : (leWord maj fn t q p m).getLsbD 1 = m :=
  (bit_above (n := 1) _ _ _).trans (bit_last _ _)

@[simp] theorem leWord_marker_at (maj : BitVec 6) (fn : BitVec 2) (t : BitVec 6) (q : BitVec 8) (p : BitVec 8) (m : Bool) : (leWord maj fn t q p m)[1] = m :=
  by rw [← BitVec.getLsbD_eq_getElem, leWord_marker]

theorem leWord_field_maj (maj : BitVec 6) (fn : BitVec 2) (t : BitVec 6) (q : BitVec 8) (p : BitVec 8) (m : Bool) : (leWord maj fn t q p m).extractLsb' 2 6 = maj :=
  (extract_above (n := 1) _ _ _ _).trans ((extract_above (n := 1) _ _ _ _).trans (extract_last _ _))

@[simp] theorem leWord_major (maj : BitVec 6) (fn : BitVec 2) (t : BitVec 6) (q : BitVec 8) (p : BitVec 8) (m : Bool) : majorOf (leWord maj fn t q p m) = maj.toNat :=
  by rw [majorOf, leWord_field_maj]

@[simp] theorem leWord_p (maj : BitVec 6) (fn : BitVec 2) (t : BitVec 6) (q : BitVec 8) (p : BitVec 8) (m : Bool) : (leWord maj fn t q p m).extractLsb' 8 8 = p :=
  (extract_above (n := 1) _ _ _ _).trans ((extract_above (n := 1) _ _ _ _).trans ((extract_above (n := 6) _ _ _ _).trans (extract_last _ _)))

@[simp] theorem leWord_q (maj : BitVec 6) (fn : BitVec 2) (t : BitVec 6) (q : BitVec 8) (p : BitVec 8) (m : Bool) : (leWord maj fn t q p m).extractLsb' 16 8 = q :=
  (extract_above (n := 1) _ _ _ _).trans ((extract_above (n := 1) _ _ _ _).trans ((extract_above (n := 6) _ _ _ _).trans ((extract_above (n := 8) _ _ _ _).trans (extract_last _ _))))

@[simp] theorem leWord_t (maj : BitVec 6) (fn : BitVec 2) (t : BitVec 6) (q : BitVec 8) (p : BitVec 8) (m : Bool) : (leWord maj fn t q p m).extractLsb' 24 6 = t :=
  (extract_above (n := 1) _ _ _ _).trans ((extract_above (n := 1) _ _ _ _).trans ((extract_above (n := 6) _ _ _ _).trans ((extract_above (n := 8) _ _ _ _).trans ((extract_above (n := 8) _ _ _ _).trans (extract_last _ _)))))

@[simp] theorem leWord_fn (maj : BitVec 6) (fn : BitVec 2) (t : BitVec 6) (q : BitVec 8) (p : BitVec 8) (m : Bool) : (leWord maj fn t q p m).extractLsb' 30 2 = fn :=
  (extract_above (n := 1) _ _ _ _).trans ((extract_above (n := 1) _ _ _ _).trans ((extract_above (n := 6) _ _ _ _).trans ((extract_above (n := 8) _ _ _ _).trans ((extract_above (n := 8) _ _ _ _).trans ((extract_above (n := 6) _ _ _ _).trans (extract_whole _))))))

/-! ### `lcWord` -/

theorem lcWord_low (maj : BitVec 6) (o : BitVec 24) (m : Bool) : (lcWord maj o m).getLsbD 0 = true := bit_last _ true

@[simp] theorem lcWord_low_at (maj : BitVec 6) (o : BitVec 24) (m : Bool) : (lcWord maj o m)[0] = true :=
  by rw [← BitVec.getLsbD_eq_getElem, lcWord_low]

theorem lcWord_marker (maj : BitVec 6) (o : BitVec 24) (m : Bool) : (lcWord maj o m).getLsbD 1 = m :=
  (bit_above (n := 1) _ _ _).trans (bit_last _ _)

@[simp] theorem lcWord_marker_at (maj : BitVec 6) (o : BitVec 24) (m : Bool) : (lcWord maj o m)[1] = m :=
  by rw [← BitVec.getLsbD_eq_getElem, lcWord_marker]

theorem lcWord_field_maj (maj : BitVec 6) (o : BitVec 24) (m : Bool) : (lcWord maj o m).extractLsb' 2 6 = maj :=
  (extract_above (n := 1) _ _ _ _).trans ((extract_above (n := 1) _ _ _ _).trans (extract_last _ _))

@[simp] theorem lcWord_major (maj : BitVec 6) (o : BitVec 24) (m : Bool) : majorOf (lcWord maj o m) = maj.toNat :=
  by rw [majorOf, lcWord_field_maj]

@[simp] theorem lcWord_o (maj : BitVec 6) (o : BitVec 24) (m : Bool) : (lcWord maj o m).extractLsb' 8 24 = o :=
  (extract_above (n := 1) _ _ _ _).trans ((extract_above (n := 1) _ _ _ _).trans ((extract_above (n := 6) _ _ _ _).trans (extract_whole _)))

/-! ### `lbWord` -/

theorem lbWord_low (maj : BitVec 6) (o : BitVec 20) (n : Bool) (p : BitVec 3) (m : Bool) : (lbWord maj o n p m).getLsbD 0 = true :=
  bit_last _ true

@[simp] theorem lbWord_low_at (maj : BitVec 6) (o : BitVec 20) (n : Bool) (p : BitVec 3) (m : Bool) : (lbWord maj o n p m)[0] = true :=
  by rw [← BitVec.getLsbD_eq_getElem, lbWord_low]

theorem lbWord_marker (maj : BitVec 6) (o : BitVec 20) (n : Bool) (p : BitVec 3) (m : Bool) : (lbWord maj o n p m).getLsbD 1 = m :=
  (bit_above (n := 1) _ _ _).trans (bit_last _ _)

@[simp] theorem lbWord_marker_at (maj : BitVec 6) (o : BitVec 20) (n : Bool) (p : BitVec 3) (m : Bool) : (lbWord maj o n p m)[1] = m :=
  by rw [← BitVec.getLsbD_eq_getElem, lbWord_marker]

theorem lbWord_field_maj (maj : BitVec 6) (o : BitVec 20) (n : Bool) (p : BitVec 3) (m : Bool) : (lbWord maj o n p m).extractLsb' 2 6 = maj :=
  (extract_above (n := 1) _ _ _ _).trans ((extract_above (n := 1) _ _ _ _).trans (extract_last _ _))

@[simp] theorem lbWord_major (maj : BitVec 6) (o : BitVec 20) (n : Bool) (p : BitVec 3) (m : Bool) : majorOf (lbWord maj o n p m) = maj.toNat :=
  by rw [majorOf, lbWord_field_maj]

@[simp] theorem lbWord_p (maj : BitVec 6) (o : BitVec 20) (n : Bool) (p : BitVec 3) (m : Bool) : (lbWord maj o n p m).extractLsb' 8 3 = p :=
  (extract_above (n := 1) _ _ _ _).trans ((extract_above (n := 1) _ _ _ _).trans ((extract_above (n := 6) _ _ _ _).trans (extract_last _ _)))

theorem lbWord_n (maj : BitVec 6) (o : BitVec 20) (n : Bool) (p : BitVec 3) (m : Bool) : (lbWord maj o n p m).getLsbD 11 = n :=
  (bit_above (n := 1) _ _ _).trans ((bit_above (n := 1) _ _ _).trans ((bit_above (n := 6) _ _ _).trans ((bit_above (n := 3) _ _ _).trans (bit_last _ _))))

@[simp] theorem lbWord_n_at (maj : BitVec 6) (o : BitVec 20) (n : Bool) (p : BitVec 3) (m : Bool) : (lbWord maj o n p m)[11] = n :=
  by rw [← BitVec.getLsbD_eq_getElem, lbWord_n]

@[simp] theorem lbWord_o (maj : BitVec 6) (o : BitVec 20) (n : Bool) (p : BitVec 3) (m : Bool) : (lbWord maj o n p m).extractLsb' 12 20 = o :=
  (extract_above (n := 1) _ _ _ _).trans ((extract_above (n := 1) _ _ _ _).trans ((extract_above (n := 6) _ _ _ _).trans ((extract_above (n := 3) _ _ _ _).trans ((extract_above (n := 1) _ _ _ _).trans (extract_whole _)))))

/-! ### `luWord` -/

theorem luWord_low (maj : BitVec 6) (o : BitVec 14) (z : Bool) (s : BitVec 9) (m : Bool) : (luWord maj o z s m).getLsbD 0 = true :=
  bit_last _ true

@[simp] theorem luWord_low_at (maj : BitVec 6) (o : BitVec 14) (z : Bool) (s : BitVec 9) (m : Bool) : (luWord maj o z s m)[0] = true :=
  by rw [← BitVec.getLsbD_eq_getElem, luWord_low]

theorem luWord_marker (maj : BitVec 6) (o : BitVec 14) (z : Bool) (s : BitVec 9) (m : Bool) : (luWord maj o z s m).getLsbD 1 = m :=
  (bit_above (n := 1) _ _ _).trans (bit_last _ _)

@[simp] theorem luWord_marker_at (maj : BitVec 6) (o : BitVec 14) (z : Bool) (s : BitVec 9) (m : Bool) : (luWord maj o z s m)[1] = m :=
  by rw [← BitVec.getLsbD_eq_getElem, luWord_marker]

theorem luWord_field_maj (maj : BitVec 6) (o : BitVec 14) (z : Bool) (s : BitVec 9) (m : Bool) : (luWord maj o z s m).extractLsb' 2 6 = maj :=
  (extract_above (n := 1) _ _ _ _).trans ((extract_above (n := 1) _ _ _ _).trans (extract_last _ _))

@[simp] theorem luWord_major (maj : BitVec 6) (o : BitVec 14) (z : Bool) (s : BitVec 9) (m : Bool) : majorOf (luWord maj o z s m) = maj.toNat :=
  by rw [majorOf, luWord_field_maj]

@[simp] theorem luWord_s (maj : BitVec 6) (o : BitVec 14) (z : Bool) (s : BitVec 9) (m : Bool) : (luWord maj o z s m).extractLsb' 8 9 = s :=
  (extract_above (n := 1) _ _ _ _).trans ((extract_above (n := 1) _ _ _ _).trans ((extract_above (n := 6) _ _ _ _).trans (extract_last _ _)))

theorem luWord_z (maj : BitVec 6) (o : BitVec 14) (z : Bool) (s : BitVec 9) (m : Bool) : (luWord maj o z s m).getLsbD 17 = z :=
  (bit_above (n := 1) _ _ _).trans ((bit_above (n := 1) _ _ _).trans ((bit_above (n := 6) _ _ _).trans ((bit_above (n := 9) _ _ _).trans (bit_last _ _))))

@[simp] theorem luWord_z_at (maj : BitVec 6) (o : BitVec 14) (z : Bool) (s : BitVec 9) (m : Bool) : (luWord maj o z s m)[17] = z :=
  by rw [← BitVec.getLsbD_eq_getElem, luWord_z]

@[simp] theorem luWord_o (maj : BitVec 6) (o : BitVec 14) (z : Bool) (s : BitVec 9) (m : Bool) : (luWord maj o z s m).extractLsb' 18 14 = o :=
  (extract_above (n := 1) _ _ _ _).trans ((extract_above (n := 1) _ _ _ _).trans ((extract_above (n := 6) _ _ _ _).trans ((extract_above (n := 9) _ _ _ _).trans ((extract_above (n := 1) _ _ _ _).trans (extract_whole _)))))

/-! ### Short words -/

theorem shortWord_low (op : BitVec 4) (a d : BitVec 5) (m : Bool) : (shortWord op a d m).getLsbD 0 = false := bit_last _ false

@[simp] theorem shortWord_low_at (op : BitVec 4) (a d : BitVec 5) (m : Bool) : (shortWord op a d m)[0] = false :=
  by rw [← BitVec.getLsbD_eq_getElem, shortWord_low]

theorem shortWord_marker (op : BitVec 4) (a d : BitVec 5) (m : Bool) : (shortWord op a d m).getLsbD 1 = m :=
  (bit_above (n := 1) _ _ _).trans (bit_last _ _)

@[simp] theorem shortWord_marker_at (op : BitVec 4) (a d : BitVec 5) (m : Bool) : (shortWord op a d m)[1] = m :=
  by rw [← BitVec.getLsbD_eq_getElem, shortWord_marker]

@[simp] theorem shortWord_op (op : BitVec 4) (a d : BitVec 5) (m : Bool) : (shortWord op a d m).extractLsb' 2 4 = op :=
  (extract_above (n := 1) _ _ _ _).trans ((extract_above (n := 1) _ _ _ _).trans (extract_last _ _))

@[simp] theorem shortWord_d (op : BitVec 4) (a d : BitVec 5) (m : Bool) : (shortWord op a d m).extractLsb' 6 5 = d :=
  (extract_above (n := 1) _ _ _ _).trans ((extract_above (n := 1) _ _ _ _).trans ((extract_above (n := 4) _ _ _ _).trans (extract_last _ _)))

@[simp] theorem shortWord_a (op : BitVec 4) (a d : BitVec 5) (m : Bool) : (shortWord op a d m).extractLsb' 11 5 = a :=
  (extract_above (n := 1) _ _ _ _).trans ((extract_above (n := 1) _ _ _ _).trans ((extract_above (n := 4) _ _ _ _).trans ((extract_above (n := 5) _ _ _ _).trans (extract_whole _))))

end Sys2Proof
end

