-- ==== Sys2Proof/Laws/PerInstr.lean ====
section
/-! SUPPORT. The family `Encoding`: what the first word of every instruction's encoding holds, whatever its operands. -/

namespace Sys2Proof.Laws.Encoding

/-- The word of an instruction, where it has one: a short word has bit 0 clear, a long word has it set and a major that is no prefix's
(spec/02 R27, R39, R41). -/
def Statement (i : Instr) : Prop :=
  ∀ c, encode i = some c →
    match c with
    | .short h => h.getLsbD 0 = false
    | .long w => w.getLsbD 0 = true ∧ majorOf w < 0x3E

/-! ### The instructions -/

theorem mov (a d : BitVec 5) (m : Bool) : Statement (.mov a d m) := by
  rintro _ ⟨⟩
  exact shortWord_low ..
theorem iaddShort (a d : BitVec 5) (m : Bool) : Statement (.iaddShort a d m) := by
  rintro _ ⟨⟩
  exact shortWord_low ..
theorem isubShort (a d : BitVec 5) (m : Bool) : Statement (.isubShort a d m) := by
  rintro _ ⟨⟩
  exact shortWord_low ..
theorem andShort (a d : BitVec 5) (m : Bool) : Statement (.andShort a d m) := by
  rintro _ ⟨⟩
  exact shortWord_low ..
theorem orShort (a d : BitVec 5) (m : Bool) : Statement (.orShort a d m) := by
  rintro _ ⟨⟩
  exact shortWord_low ..
theorem xorShort (a d : BitVec 5) (m : Bool) : Statement (.xorShort a d m) := by
  rintro _ ⟨⟩
  exact shortWord_low ..
theorem shlShort (a d : BitVec 5) (m : Bool) : Statement (.shlShort a d m) := by
  rintro _ ⟨⟩
  exact shortWord_low ..
theorem shrlShort (a d : BitVec 5) (m : Bool) : Statement (.shrlShort a d m) := by
  rintro _ ⟨⟩
  exact shortWord_low ..
theorem faddShort (a d : BitVec 5) (m : Bool) : Statement (.faddShort a d m) := by
  rintro _ ⟨⟩
  exact shortWord_low ..
theorem fsubShort (a d : BitVec 5) (m : Bool) : Statement (.fsubShort a d m) := by
  rintro _ ⟨⟩
  exact shortWord_low ..
theorem fmulShort (a d : BitVec 5) (m : Bool) : Statement (.fmulShort a d m) := by
  rintro _ ⟨⟩
  exact shortWord_low ..
theorem fmaxShort (a d : BitVec 5) (m : Bool) : Statement (.fmaxShort a d m) := by
  rintro _ ⟨⟩
  exact shortWord_low ..
theorem fminShort (a d : BitVec 5) (m : Bool) : Statement (.fminShort a d m) := by
  rintro _ ⟨⟩
  exact shortWord_low ..
theorem imulShort (a d : BitVec 5) (m : Bool) : Statement (.imulShort a d m) := by
  rintro _ ⟨⟩
  exact shortWord_low ..
theorem movi5 (i d : BitVec 5) (m : Bool) : Statement (.movi5 i d m) := by
  rintro _ ⟨⟩
  exact shortWord_low ..
theorem nop (m : Bool) : Statement (.nop m) := by
  rintro _ ⟨⟩
  exact shortWord_low ..
theorem fadd (t : FpType) (b a d : BitVec 7) (m : Bool) : Statement (.fadd t b a d m) := by
  rintro _ ⟨⟩
  exact ⟨lvWord_low .., by rw [lvWord_major]; decide⟩
theorem fsub (t : FpType) (b a d : BitVec 7) (m : Bool) : Statement (.fsub t b a d m) := by
  rintro _ ⟨⟩
  exact ⟨lvWord_low .., by rw [lvWord_major]; decide⟩
theorem fmul (t : FpType) (b a d : BitVec 7) (m : Bool) : Statement (.fmul t b a d m) := by
  rintro _ ⟨⟩
  exact ⟨lvWord_low .., by rw [lvWord_major]; decide⟩
theorem fnmul (t : FpType) (b a d : BitVec 7) (m : Bool) : Statement (.fnmul t b a d m) := by
  rintro _ ⟨⟩
  exact ⟨lvWord_low .., by rw [lvWord_major]; decide⟩
theorem fma (t : FpType) (b a d : BitVec 7) (m : Bool) : Statement (.fma t b a d m) := by
  rintro _ ⟨⟩
  exact ⟨lvWord_low .., by rw [lvWord_major]; decide⟩
theorem fms (t : FpType) (b a d : BitVec 7) (m : Bool) : Statement (.fms t b a d m) := by
  rintro _ ⟨⟩
  exact ⟨lvWord_low .., by rw [lvWord_major]; decide⟩
theorem fdiv (t : FpType) (b a d : BitVec 7) (m : Bool) : Statement (.fdiv t b a d m) := by
  rintro _ ⟨⟩
  exact ⟨lvWord_low .., by rw [lvWord_major]; decide⟩
theorem frem (t : FpType) (b a d : BitVec 7) (m : Bool) : Statement (.frem t b a d m) := by
  rintro _ ⟨⟩
  exact ⟨lvWord_low .., by rw [lvWord_major]; decide⟩
theorem fmin (t : FpType) (b a d : BitVec 7) (m : Bool) : Statement (.fmin t b a d m) := by
  rintro _ ⟨⟩
  exact ⟨lvWord_low .., by rw [lvWord_major]; decide⟩
theorem fmax (t : FpType) (b a d : BitVec 7) (m : Bool) : Statement (.fmax t b a d m) := by
  rintro _ ⟨⟩
  exact ⟨lvWord_low .., by rw [lvWord_major]; decide⟩
theorem fsqrt (t : FpType) (a d : BitVec 7) (m : Bool) : Statement (.fsqrt t a d m) := by
  rintro _ ⟨⟩
  exact ⟨lvWord_low .., by rw [lvWord_major]; decide⟩
theorem frsq (t : FpType) (a d : BitVec 7) (m : Bool) : Statement (.frsq t a d m) := by
  rintro _ ⟨⟩
  exact ⟨lvWord_low .., by rw [lvWord_major]; decide⟩
theorem fcmp (t : FpType) (b a : BitVec 7) (c : BitVec 4) (p : BitVec 3) (m : Bool) : Statement (.fcmp t b a c p m) := by
  rintro _ ⟨⟩
  exact ⟨lvWord_low .., by rw [lvWord_major]; decide⟩
theorem fcmpSig (t : FpType) (b a : BitVec 7) (c : BitVec 4) (p : BitVec 3) (m : Bool) : Statement (.fcmpSig t b a c p m) := by
  rintro _ ⟨⟩
  exact ⟨lvWord_low .., by rw [lvWord_major]; decide⟩
theorem fcvt (r : BitVec 3) (c a d : BitVec 7) (m : Bool) : Statement (.fcvt r c a d m) := by
  rintro _ ⟨⟩
  exact ⟨lvWord_low .., by rw [lvWord_major]; decide⟩
theorem ffn (t : FpType) (c a d : BitVec 7) (m : Bool) : Statement (.ffn t c a d m) := by
  rintro _ ⟨⟩
  exact ⟨lvWord_low .., by rw [lvWord_major]; decide⟩
theorem fscale (t : FpType) (b a d : BitVec 7) (m : Bool) : Statement (.fscale t b a d m) := by
  rintro _ ⟨⟩
  exact ⟨lvWord_low .., by rw [lvWord_major]; decide⟩
theorem flogb (t : FpType) (a d : BitVec 7) (m : Bool) : Statement (.flogb t a d m) := by
  rintro _ ⟨⟩
  exact ⟨lvWord_low .., by rw [lvWord_major]; decide⟩
theorem fsgn (t : FpType) (b a d : BitVec 7) (m : Bool) : Statement (.fsgn t b a d m) := by
  rintro _ ⟨⟩
  exact ⟨lvWord_low .., by rw [lvWord_major]; decide⟩
theorem fclass (t : FpType) (a d : BitVec 7) (m : Bool) : Statement (.fclass t a d m) := by
  rintro _ ⟨⟩
  exact ⟨lvWord_low .., by rw [lvWord_major]; decide⟩
theorem rowopRedSum (t : BitVec 6) (q p : BitVec 8) (m : Bool) : Statement (.rowopRedSum t q p m) := by
  rintro _ ⟨⟩
  exact ⟨leWord_low .., by rw [leWord_major]; decide⟩
theorem rowopRedMax (t : BitVec 6) (q p : BitVec 8) (m : Bool) : Statement (.rowopRedMax t q p m) := by
  rintro _ ⟨⟩
  exact ⟨leWord_low .., by rw [leWord_major]; decide⟩
theorem rowopRedMin (t : BitVec 6) (q p : BitVec 8) (m : Bool) : Statement (.rowopRedMin t q p m) := by
  rintro _ ⟨⟩
  exact ⟨leWord_low .., by rw [leWord_major]; decide⟩
theorem rowopRedLse (t : BitVec 6) (q p : BitVec 8) (m : Bool) : Statement (.rowopRedLse t q p m) := by
  rintro _ ⟨⟩
  exact ⟨leWord_low .., by rw [leWord_major]; decide⟩
theorem rowopRedNorm (t : BitVec 6) (q p : BitVec 8) (m : Bool) : Statement (.rowopRedNorm t q p m) := by
  rintro _ ⟨⟩
  exact ⟨leWord_low .., by rw [leWord_major]; decide⟩
theorem rowopRedSsq (t : BitVec 6) (q p : BitVec 8) (m : Bool) : Statement (.rowopRedSsq t q p m) := by
  rintro _ ⟨⟩
  exact ⟨leWord_low .., by rw [leWord_major]; decide⟩
theorem rowopSmx (t : BitVec 6) (q p : BitVec 8) (m : Bool) : Statement (.rowopSmx t q p m) := by
  rintro _ ⟨⟩
  exact ⟨leWord_low .., by rw [leWord_major]; decide⟩
theorem rowopStat (t : BitVec 6) (q p : BitVec 8) (m : Bool) : Statement (.rowopStat t q p m) := by
  rintro _ ⟨⟩
  exact ⟨leWord_low .., by rw [leWord_major]; decide⟩
theorem rowopUpd (t : BitVec 6) (q p : BitVec 8) (m : Bool) : Statement (.rowopUpd t q p m) := by
  rintro _ ⟨⟩
  exact ⟨leWord_low .., by rw [leWord_major]; decide⟩
theorem iadd (k : BitVec 2) (b a d : BitVec 7) (m : Bool) : Statement (.iadd k b a d m) := by
  rintro _ ⟨⟩
  exact ⟨lvWord_low .., by rw [lvWord_major]; decide⟩
theorem isub (k : BitVec 2) (b a d : BitVec 7) (m : Bool) : Statement (.isub k b a d m) := by
  rintro _ ⟨⟩
  exact ⟨lvWord_low .., by rw [lvWord_major]; decide⟩
theorem imul (k : BitVec 2) (b a d : BitVec 7) (m : Bool) : Statement (.imul k b a d m) := by
  rintro _ ⟨⟩
  exact ⟨lvWord_low .., by rw [lvWord_major]; decide⟩
theorem imad (k : BitVec 2) (b a d : BitVec 7) (m : Bool) : Statement (.imad k b a d m) := by
  rintro _ ⟨⟩
  exact ⟨lvWord_low .., by rw [lvWord_major]; decide⟩
theorem idiv (k : BitVec 2) (b a d : BitVec 7) (m : Bool) : Statement (.idiv k b a d m) := by
  rintro _ ⟨⟩
  exact ⟨lvWord_low .., by rw [lvWord_major]; decide⟩
theorem irem (k : BitVec 2) (b a d : BitVec 7) (m : Bool) : Statement (.irem k b a d m) := by
  rintro _ ⟨⟩
  exact ⟨lvWord_low .., by rw [lvWord_major]; decide⟩
theorem logic (o : BitVec 3) (b a d : BitVec 7) (m : Bool) : Statement (.logic o b a d m) := by
  rintro _ ⟨⟩
  exact ⟨lvWord_low .., by rw [lvWord_major]; decide⟩
theorem shift (o : BitVec 3) (b a d : BitVec 7) (m : Bool) : Statement (.shift o b a d m) := by
  rintro _ ⟨⟩
  exact ⟨lvWord_low .., by rw [lvWord_major]; decide⟩
theorem imin (k : BitVec 2) (b a d : BitVec 7) (m : Bool) : Statement (.imin k b a d m) := by
  rintro _ ⟨⟩
  exact ⟨lvWord_low .., by rw [lvWord_major]; decide⟩
theorem imax (k : BitVec 2) (b a d : BitVec 7) (m : Bool) : Statement (.imax k b a d m) := by
  rintro _ ⟨⟩
  exact ⟨lvWord_low .., by rw [lvWord_major]; decide⟩
theorem icmp (k : BitVec 2) (b a : BitVec 7) (c : BitVec 4) (p : BitVec 3) (m : Bool) : Statement (.icmp k b a c p m) := by
  rintro _ ⟨⟩
  exact ⟨lvWord_low .., by rw [lvWord_major]; decide⟩
theorem bits (o : BitVec 3) (a d : BitVec 7) (m : Bool) : Statement (.bits o a d m) := by
  rintro _ ⟨⟩
  exact ⟨lvWord_low .., by rw [lvWord_major]; decide⟩
theorem bfeU (b a d : BitVec 7) (m : Bool) : Statement (.bfeU b a d m) := by
  rintro _ ⟨⟩
  exact ⟨lvWord_low .., by rw [lvWord_major]; decide⟩
theorem bfeS (b a d : BitVec 7) (m : Bool) : Statement (.bfeS b a d m) := by
  rintro _ ⟨⟩
  exact ⟨lvWord_low .., by rw [lvWord_major]; decide⟩
theorem bfi (b a d : BitVec 7) (m : Bool) : Statement (.bfi b a d m) := by
  rintro _ ⟨⟩
  exact ⟨lvWord_low .., by rw [lvWord_major]; decide⟩
theorem sel (p : BitVec 3) (b a d : BitVec 7) (m : Bool) : Statement (.sel p b a d m) := by
  rintro _ ⟨⟩
  exact ⟨lvWord_low .., by rw [lvWord_major]; decide⟩
theorem lea (x : Bool) (c : BitVec 2) (b a d : BitVec 7) (m : Bool) : Statement (.lea x c b a d m) := by
  rintro _ ⟨⟩
  exact ⟨lvWord_low .., by rw [lvWord_major]; decide⟩
theorem plop (o b a d : BitVec 3) (m : Bool) : Statement (.plop o b a d m) := by
  rintro _ ⟨⟩
  exact ⟨lvWord_low .., by rw [lvWord_major]; decide⟩
theorem iaddi (i : BitVec 10) (a d : BitVec 7) (m : Bool) : Statement (.iaddi i a d m) := by
  rintro _ ⟨⟩
  exact ⟨liWord_low .., by rw [liWord_major]; decide⟩
theorem andi (i : BitVec 10) (a d : BitVec 7) (m : Bool) : Statement (.andi i a d m) := by
  rintro _ ⟨⟩
  exact ⟨liWord_low .., by rw [liWord_major]; decide⟩
theorem ori (i : BitVec 10) (a d : BitVec 7) (m : Bool) : Statement (.ori i a d m) := by
  rintro _ ⟨⟩
  exact ⟨liWord_low .., by rw [liWord_major]; decide⟩
theorem xori (i : BitVec 10) (a d : BitVec 7) (m : Bool) : Statement (.xori i a d m) := by
  rintro _ ⟨⟩
  exact ⟨liWord_low .., by rw [liWord_major]; decide⟩
theorem shfi (f : BitVec 3) (n : BitVec 6) (a d : BitVec 7) (m : Bool) : Statement (.shfi f n a d m) := by
  rintro _ ⟨⟩
  exact ⟨liWord_low .., by rw [liWord_major]; decide⟩
theorem icmpi (i : BitVec 10) (a : BitVec 7) (c : BitVec 4) (p : BitVec 3) (m : Bool) : Statement (.icmpi i a c p m) := by
  rintro _ ⟨⟩
  exact ⟨liWord_low .., by rw [liWord_major]; decide⟩
theorem movil (i : BitVec 17) (d : BitVec 7) (m : Bool) : Statement (.movil i d m) := by
  rintro _ ⟨⟩
  exact ⟨lwWord_low .., by rw [lwWord_major]; decide⟩
theorem movih (i : BitVec 16) (d : BitVec 7) (m : Bool) : Statement (.movih i d m) := by
  rintro _ ⟨⟩
  exact ⟨lwWord_low .., by rw [lwWord_major]; decide⟩
theorem shfl (f : BitVec 2) (b a d : BitVec 7) (m : Bool) : Statement (.shfl f b a d m) := by
  rintro _ ⟨⟩
  exact ⟨lvWord_low .., by rw [lvWord_major]; decide⟩
theorem vxsBcast (w : Bool) (s : BitVec 9) (d : BitVec 7) (m : Bool) : Statement (.vxsBcast w s d m) := by
  rintro _ ⟨⟩
  exact ⟨lxWord_low .., by rw [lxWord_major]; decide⟩
theorem vxsReadf (w : Bool) (s : BitVec 9) (d : BitVec 7) (m : Bool) : Statement (.vxsReadf w s d m) := by
  rintro _ ⟨⟩
  exact ⟨lxWord_low .., by rw [lxWord_major]; decide⟩
theorem vxsReadi (w : Bool) (s : BitVec 9) (d : BitVec 7) (m : Bool) : Statement (.vxsReadi w s d m) := by
  rintro _ ⟨⟩
  exact ⟨lxWord_low .., by rw [lxWord_major]; decide⟩
theorem voteAny (a d : BitVec 3) (m : Bool) : Statement (.voteAny a d m) := by
  rintro _ ⟨⟩
  exact ⟨lvWord_low .., by rw [lvWord_major]; decide⟩
theorem voteAll (a d : BitVec 3) (m : Bool) : Statement (.voteAll a d m) := by
  rintro _ ⟨⟩
  exact ⟨lvWord_low .., by rw [lvWord_major]; decide⟩
theorem voteBallot (a : BitVec 3) (d : BitVec 7) (m : Bool) : Statement (.voteBallot a d m) := by
  rintro _ ⟨⟩
  exact ⟨lvWord_low .., by rw [lvWord_major]; decide⟩
theorem voteEq (a : BitVec 7) (d : BitVec 3) (m : Bool) : Statement (.voteEq a d m) := by
  rintro _ ⟨⟩
  exact ⟨lvWord_low .., by rw [lvWord_major]; decide⟩
theorem gred (o : BitVec 3) (t a d : BitVec 7) (m : Bool) : Statement (.gred o t a d m) := by
  rintro _ ⟨⟩
  exact ⟨lvWord_low .., by rw [lvWord_major]; decide⟩
theorem ldg (o : BitVec 2) (z : BitVec 3) (b : BitVec 5) (a d : BitVec 7) (m : Bool) : Statement (.ldg o z b a d m) := by
  rintro _ ⟨⟩
  exact ⟨lmWord_low .., by rw [lmWord_major]; decide⟩
theorem ldm8 (o : BitVec 2) (b : BitVec 5) (a d : BitVec 7) (m : Bool) : Statement (.ldm8 o b a d m) := by
  rintro _ ⟨⟩
  exact ⟨lmWord_low .., by rw [lmWord_major]; decide⟩
theorem stg (o : BitVec 2) (z : BitVec 3) (b : BitVec 5) (a d : BitVec 7) (m : Bool) : Statement (.stg o z b a d m) := by
  rintro _ ⟨⟩
  exact ⟨lmWord_low .., by rw [lmWord_major]; decide⟩
theorem ldt (o : BitVec 2) (z : BitVec 3) (b : BitVec 5) (a d : BitVec 7) (m : Bool) : Statement (.ldt o z b a d m) := by
  rintro _ ⟨⟩
  exact ⟨lmWord_low .., by rw [lmWord_major]; decide⟩
theorem stt (o : BitVec 2) (z : BitVec 3) (b : BitVec 5) (a d : BitVec 7) (m : Bool) : Statement (.stt o z b a d m) := by
  rintro _ ⟨⟩
  exact ⟨lmWord_low .., by rw [lmWord_major]; decide⟩
theorem ldp (o : BitVec 2) (z : BitVec 3) (b : BitVec 5) (a d : BitVec 7) (m : Bool) : Statement (.ldp o z b a d m) := by
  rintro _ ⟨⟩
  exact ⟨lmWord_low .., by rw [lmWord_major]; decide⟩
theorem stp (o : BitVec 2) (z : BitVec 3) (b : BitVec 5) (a d : BitVec 7) (m : Bool) : Statement (.stp o z b a d m) := by
  rintro _ ⟨⟩
  exact ⟨lmWord_low .., by rw [lmWord_major]; decide⟩
theorem atom (f : BitVec 3) (w : Bool) (b : BitVec 6) (a d : BitVec 7) (m : Bool) : Statement (.atom f w b a d m) := by
  rintro _ ⟨⟩
  exact ⟨laWord_low .., by rw [laWord_major]; decide⟩
theorem atomxUmax (w : Bool) (b : BitVec 6) (a d : BitVec 7) (m : Bool) : Statement (.atomxUmax w b a d m) := by
  rintro _ ⟨⟩
  exact ⟨laWord_low .., by rw [laWord_major]; decide⟩
theorem atomxCas (w : Bool) (b : BitVec 6) (a d : BitVec 7) (m : Bool) : Statement (.atomxCas w b a d m) := by
  rintro _ ⟨⟩
  exact ⟨laWord_low .., by rw [laWord_major]; decide⟩
theorem atomxFadd (w : Bool) (b : BitVec 6) (a d : BitVec 7) (m : Bool) : Statement (.atomxFadd w b a d m) := by
  rintro _ ⟨⟩
  exact ⟨laWord_low .., by rw [laWord_major]; decide⟩
theorem atomxFadda (w : Bool) (b : BitVec 6) (a : BitVec 7) (s : Bool) (m : Bool) : Statement (.atomxFadda w b a s m) := by
  rintro _ ⟨⟩
  exact ⟨laWord_low .., by rw [laWord_major]; decide⟩
theorem atomxLr (w : Bool) (a d : BitVec 7) (m : Bool) : Statement (.atomxLr w a d m) := by
  rintro _ ⟨⟩
  exact ⟨laWord_low .., by rw [laWord_major]; decide⟩
theorem atomxSc (w : Bool) (b : BitVec 6) (a d : BitVec 7) (m : Bool) : Statement (.atomxSc w b a d m) := by
  rintro _ ⟨⟩
  exact ⟨laWord_low .., by rw [laWord_major]; decide⟩
theorem atomxFmax (w : Bool) (b : BitVec 6) (a d : BitVec 7) (m : Bool) : Statement (.atomxFmax w b a d m) := by
  rintro _ ⟨⟩
  exact ⟨laWord_low .., by rw [laWord_major]; decide⟩
theorem atomxFmin (w : Bool) (b : BitVec 6) (a d : BitVec 7) (m : Bool) : Statement (.atomxFmin w b a d m) := by
  rintro _ ⟨⟩
  exact ⟨laWord_low .., by rw [laWord_major]; decide⟩
theorem cachePref (b : BitVec 5) (a n : BitVec 7) (m : Bool) : Statement (.cachePref b a n m) := by
  rintro _ ⟨⟩
  exact ⟨lmWord_low .., by rw [lmWord_major]; decide⟩
theorem cacheLinv (b : BitVec 5) (a n : BitVec 7) (m : Bool) : Statement (.cacheLinv b a n m) := by
  rintro _ ⟨⟩
  exact ⟨lmWord_low .., by rw [lmWord_major]; decide⟩
theorem cachePwb (b : BitVec 5) (a n : BitVec 7) (m : Bool) : Statement (.cachePwb b a n m) := by
  rintro _ ⟨⟩
  exact ⟨lmWord_low .., by rw [lmWord_major]; decide⟩
theorem cachePinv (b : BitVec 5) (a n : BitVec 7) (m : Bool) : Statement (.cachePinv b a n m) := by
  rintro _ ⟨⟩
  exact ⟨lmWord_low .., by rw [lmWord_major]; decide⟩
theorem copyLoad (t : BitVec 6) (q p : BitVec 8) (m : Bool) : Statement (.copyLoad t q p m) := by
  rintro _ ⟨⟩
  exact ⟨leWord_low .., by rw [leWord_major]; decide⟩
theorem copyStore (t : BitVec 6) (q p : BitVec 8) (m : Bool) : Statement (.copyStore t q p m) := by
  rintro _ ⟨⟩
  exact ⟨leWord_low .., by rw [leWord_major]; decide⟩
theorem copyMove (t : BitVec 6) (q p : BitVec 8) (m : Bool) : Statement (.copyMove t q p m) := by
  rintro _ ⟨⟩
  exact ⟨leWord_low .., by rw [leWord_major]; decide⟩
theorem copyNetred (t : BitVec 6) (q p : BitVec 8) (m : Bool) : Statement (.copyNetred t q p m) := by
  rintro _ ⟨⟩
  exact ⟨leWord_low .., by rw [leWord_major]; decide⟩
theorem mma (t : BitVec 6) (q p : BitVec 8) (m : Bool) : Statement (.mma t q p m) := by
  rintro _ ⟨⟩
  exact ⟨leWord_low .., by rw [leWord_major]; decide⟩
theorem mmat (t : BitVec 6) (q p : BitVec 8) (m : Bool) : Statement (.mmat t q p m) := by
  rintro _ ⟨⟩
  exact ⟨leWord_low .., by rw [leWord_major]; decide⟩
theorem wload (t : BitVec 6) (q p : BitVec 8) (m : Bool) : Statement (.wload t q p m) := by
  rintro _ ⟨⟩
  exact ⟨leWord_low .., by rw [leWord_major]; decide⟩
theorem accxSt (t : BitVec 6) (q p : BitVec 8) (m : Bool) : Statement (.accxSt t q p m) := by
  rintro _ ⟨⟩
  exact ⟨leWord_low .., by rw [leWord_major]; decide⟩
theorem accxLd (t : BitVec 6) (q p : BitVec 8) (m : Bool) : Statement (.accxLd t q p m) := by
  rintro _ ⟨⟩
  exact ⟨leWord_low .., by rw [leWord_major]; decide⟩
theorem accxAdd (t : BitVec 6) (q p : BitVec 8) (m : Bool) : Statement (.accxAdd t q p m) := by
  rintro _ ⟨⟩
  exact ⟨leWord_low .., by rw [leWord_major]; decide⟩
theorem accxZero (t : BitVec 6) (q p : BitVec 8) (m : Bool) : Statement (.accxZero t q p m) := by
  rintro _ ⟨⟩
  exact ⟨leWord_low .., by rw [leWord_major]; decide⟩
theorem quant (t : BitVec 6) (q p : BitVec 8) (m : Bool) : Statement (.quant t q p m) := by
  rintro _ ⟨⟩
  exact ⟨leWord_low .., by rw [leWord_major]; decide⟩
theorem deq (t : BitVec 6) (q p : BitVec 8) (m : Bool) : Statement (.deq t q p m) := by
  rintro _ ⟨⟩
  exact ⟨leWord_low .., by rw [leWord_major]; decide⟩
theorem qpair (t : BitVec 6) (q p : BitVec 8) (m : Bool) : Statement (.qpair t q p m) := by
  rintro _ ⟨⟩
  exact ⟨leWord_low .., by rw [leWord_major]; decide⟩
theorem cvtt (t : BitVec 6) (q p : BitVec 8) (m : Bool) : Statement (.cvtt t q p m) := by
  rintro _ ⟨⟩
  exact ⟨leWord_low .., by rw [leWord_major]; decide⟩
theorem salu (f : BitVec 6) (s d : BitVec 9) (m : Bool) : Statement (.salu f s d m) := by
  rintro _ ⟨⟩
  exact ⟨lsWord_low .., by rw [lsWord_major]; decide⟩
theorem simm (i : BitVec 12) (f : BitVec 3) (d : BitVec 9) (m : Bool) : Statement (.simm i f d m) := by
  rintro _ ⟨⟩
  exact ⟨ltWord_low .., by rw [ltWord_major]; decide⟩
theorem smemLoad (f : BitVec 6) (s d : BitVec 9) (m : Bool) : Statement (.smemLoad f s d m) := by
  rintro _ ⟨⟩
  exact ⟨lsWord_low .., by rw [lsWord_major]; decide⟩
theorem smemStore (f : BitVec 6) (s d : BitVec 9) (m : Bool) : Statement (.smemStore f s d m) := by
  rintro _ ⟨⟩
  exact ⟨lsWord_low .., by rw [lsWord_major]; decide⟩
theorem ssysRd (s d : BitVec 9) (m : Bool) : Statement (.ssysRd s d m) := by
  rintro _ ⟨⟩
  exact ⟨lsWord_low .., by rw [lsWord_major]; decide⟩
theorem ssysWr (s d : BitVec 9) (m : Bool) : Statement (.ssysWr s d m) := by
  rintro _ ⟨⟩
  exact ⟨lsWord_low .., by rw [lsWord_major]; decide⟩
theorem ssysRd64 (s d : BitVec 9) (m : Bool) : Statement (.ssysRd64 s d m) := by
  rintro _ ⟨⟩
  exact ⟨lsWord_low .., by rw [lsWord_major]; decide⟩
theorem ssysWr64 (s d : BitVec 9) (m : Bool) : Statement (.ssysWr64 s d m) := by
  rintro _ ⟨⟩
  exact ⟨lsWord_low .., by rw [lsWord_major]; decide⟩
theorem ssysMbrd (s d : BitVec 9) (m : Bool) : Statement (.ssysMbrd s d m) := by
  rintro _ ⟨⟩
  exact ⟨lsWord_low .., by rw [lsWord_major]; decide⟩
theorem ssysMbwr (s d : BitVec 9) (m : Bool) : Statement (.ssysMbwr s d m) := by
  rintro _ ⟨⟩
  exact ⟨lsWord_low .., by rw [lsWord_major]; decide⟩
theorem ssysVrd (s : BitVec 9) (d : BitVec 7) (m : Bool) : Statement (.ssysVrd s d m) := by
  rintro _ ⟨⟩
  exact ⟨lsWord_low .., by rw [lsWord_major]; decide⟩
theorem ssysVwr (s : BitVec 9) (d : BitVec 7) (m : Bool) : Statement (.ssysVwr s d m) := by
  rintro _ ⟨⟩
  exact ⟨lsWord_low .., by rw [lsWord_major]; decide⟩
theorem pkrWrite (core slot : Nat) : Statement (.pkrWrite core slot) := fun _ h => nomatch h
theorem bra (o : BitVec 24) (m : Bool) : Statement (.bra o m) := by
  rintro _ ⟨⟩
  exact ⟨lcWord_low .., by rw [lcWord_major]; decide⟩
theorem call (o : BitVec 24) (m : Bool) : Statement (.call o m) := by
  rintro _ ⟨⟩
  exact ⟨lcWord_low .., by rw [lcWord_major]; decide⟩
theorem brc (o : BitVec 20) (n : Bool) (p : BitVec 3) (m : Bool) : Statement (.brc o n p m) := by
  rintro _ ⟨⟩
  exact ⟨lbWord_low .., by rw [lbWord_major]; decide⟩
theorem bru (o : BitVec 14) (z : Bool) (s : BitVec 9) (m : Bool) : Statement (.bru o z s m) := by
  rintro _ ⟨⟩
  exact ⟨luWord_low .., by rw [luWord_major]; decide⟩
theorem ret (m : Bool) : Statement (.ret m) := by
  rintro _ ⟨⟩
  exact ⟨lxWord_low .., by rw [lxWord_major]; decide⟩
theorem jmpr (x : Bool) (d : BitVec 7) (m : Bool) : Statement (.jmpr x d m) := by
  rintro _ ⟨⟩
  exact ⟨lxWord_low .., by rw [lxWord_major]; decide⟩
theorem meet (x : BitVec 3) (s : BitVec 9) (d : BitVec 7) (m : Bool) : Statement (.meet x s d m) := by
  rintro _ ⟨⟩
  exact ⟨lxWord_low .., by rw [lxWord_major]; decide⟩
theorem exit (m : Bool) : Statement (.exit m) := by
  rintro _ ⟨⟩
  exact ⟨lxWord_low .., by rw [lxWord_major]; decide⟩
theorem next (k : BitVec 3) (d : BitVec 7) (m : Bool) : Statement (.next k d m) := by
  rintro _ ⟨⟩
  exact ⟨lxWord_low .., by rw [lxWord_major]; decide⟩
theorem spawn (k : BitVec 3) (d : BitVec 7) (m : Bool) : Statement (.spawn k d m) := by
  rintro _ ⟨⟩
  exact ⟨lxWord_low .., by rw [lxWord_major]; decide⟩
theorem susp (s : BitVec 9) (d : BitVec 7) (m : Bool) : Statement (.susp s d m) := by
  rintro _ ⟨⟩
  exact ⟨lxWord_low .., by rw [lxWord_major]; decide⟩
theorem yield (m : Bool) : Statement (.yield m) := by
  rintro _ ⟨⟩
  exact ⟨lxWord_low .., by rw [lxWord_major]; decide⟩
theorem fuse (s d : BitVec 9) (m : Bool) : Statement (.fuse s d m) := by
  rintro _ ⟨⟩
  exact ⟨lsWord_low .., by rw [lsWord_major]; decide⟩
theorem split (p : BitVec 3) (d : BitVec 9) (m : Bool) : Statement (.split p d m) := by
  rintro _ ⟨⟩
  exact ⟨lsWord_low .., by rw [lsWord_major]; decide⟩
theorem elect (p : BitVec 3) (d : BitVec 9) (m : Bool) : Statement (.elect p d m) := by
  rintro _ ⟨⟩
  exact ⟨lsWord_low .., by rw [lsWord_major]; decide⟩
theorem gsync (m : Bool) : Statement (.gsync m) := by
  rintro _ ⟨⟩
  exact ⟨lsWord_low .., by rw [lsWord_major]; decide⟩
theorem ginfo (s d : BitVec 9) (m : Bool) : Statement (.ginfo s d m) := by
  rintro _ ⟨⟩
  exact ⟨lsWord_low .., by rw [lsWord_major]; decide⟩
theorem barArrive (l : BitVec 2) (n : BitVec 9) (m : Bool) : Statement (.barArrive l n m) := by
  rintro _ ⟨⟩
  exact ⟨lsWord_low .., by rw [lsWord_major]; decide⟩
theorem barWait (l : BitVec 2) (n : BitVec 9) (m : Bool) : Statement (.barWait l n m) := by
  rintro _ ⟨⟩
  exact ⟨lsWord_low .., by rw [lsWord_major]; decide⟩
theorem barSync (l : BitVec 2) (n : BitVec 9) (m : Bool) : Statement (.barSync l n m) := by
  rintro _ ⟨⟩
  exact ⟨lsWord_low .., by rw [lsWord_major]; decide⟩
theorem fenceTeam (m : Bool) : Statement (.fenceTeam m) := by
  rintro _ ⟨⟩
  exact ⟨lsWord_low .., by rw [lsWord_major]; decide⟩
theorem fenceCrew (m : Bool) : Statement (.fenceCrew m) := by
  rintro _ ⟨⟩
  exact ⟨lsWord_low .., by rw [lsWord_major]; decide⟩
theorem fenceDev (m : Bool) : Statement (.fenceDev m) := by
  rintro _ ⟨⟩
  exact ⟨lsWord_low .., by rw [lsWord_major]; decide⟩
theorem fenceSys (m : Bool) : Statement (.fenceSys m) := by
  rintro _ ⟨⟩
  exact ⟨lsWord_low .., by rw [lsWord_major]; decide⟩
theorem waitt (s : BitVec 9) (t : BitVec 6) (m : Bool) : Statement (.waitt s t m) := by
  rintro _ ⟨⟩
  exact ⟨lsWord_low .., by rw [lsWord_major]; decide⟩
theorem tlsig (t : BitVec 6) (m : Bool) : Statement (.tlsig t m) := by
  rintro _ ⟨⟩
  exact ⟨lsWord_low .., by rw [lsWord_major]; decide⟩
theorem waitv (m : Bool) : Statement (.waitv m) := by
  rintro _ ⟨⟩
  exact ⟨lsWord_low .., by rw [lsWord_major]; decide⟩
theorem succok (m : Bool) : Statement (.succok m) := by
  rintro _ ⟨⟩
  exact ⟨lsWord_low .., by rw [lsWord_major]; decide⟩
theorem cset (s : BitVec 9) (c : BitVec 4) (m : Bool) : Statement (.cset s c m) := by
  rintro _ ⟨⟩
  exact ⟨lsWord_low .., by rw [lsWord_major]; decide⟩
theorem csign (s : BitVec 9) (c : BitVec 4) (m : Bool) : Statement (.csign s c m) := by
  rintro _ ⟨⟩
  exact ⟨lsWord_low .., by rw [lsWord_major]; decide⟩
theorem garm (g : BitVec 4) (m : Bool) : Statement (.garm g m) := by
  rintro _ ⟨⟩
  exact ⟨lsWord_low .., by rw [lsWord_major]; decide⟩
theorem gset (s : BitVec 9) (g : BitVec 4) (m : Bool) : Statement (.gset s g m) := by
  rintro _ ⟨⟩
  exact ⟨lsWord_low .., by rw [lsWord_major]; decide⟩
theorem dropen (s : BitVec 9) (n : BitVec 4) (m : Bool) : Statement (.dropen s n m) := by
  rintro _ ⟨⟩
  exact ⟨lsWord_low .., by rw [lsWord_major]; decide⟩
theorem drclose (n : BitVec 4) (m : Bool) : Statement (.drclose n m) := by
  rintro _ ⟨⟩
  exact ⟨lsWord_low .., by rw [lsWord_major]; decide⟩
theorem dmode (d : BitVec 2) (m : Bool) : Statement (.dmode d m) := by
  rintro _ ⟨⟩
  exact ⟨lsWord_low .., by rw [lsWord_major]; decide⟩
theorem adjrd (s d : BitVec 9) (m : Bool) : Statement (.adjrd s d m) := by
  rintro _ ⟨⟩
  exact ⟨lsWord_low .., by rw [lsWord_major]; decide⟩
theorem adjclr (s d : BitVec 9) (m : Bool) : Statement (.adjclr s d m) := by
  rintro _ ⟨⟩
  exact ⟨lsWord_low .., by rw [lsWord_major]; decide⟩
theorem tapeposRdhead (d : BitVec 9) (m : Bool) : Statement (.tapeposRdhead d m) := by
  rintro _ ⟨⟩
  exact ⟨lsWord_low .., by rw [lsWord_major]; decide⟩
theorem tapeposWrhead (d : BitVec 9) (m : Bool) : Statement (.tapeposWrhead d m) := by
  rintro _ ⟨⟩
  exact ⟨lsWord_low .., by rw [lsWord_major]; decide⟩
theorem tapeposRdseg (n : BitVec 4) (d : BitVec 9) (m : Bool) : Statement (.tapeposRdseg n d m) := by
  rintro _ ⟨⟩
  exact ⟨lsWord_low .., by rw [lsWord_major]; decide⟩
theorem tapeposWrseg (n : BitVec 4) (d : BitVec 9) (m : Bool) : Statement (.tapeposWrseg n d m) := by
  rintro _ ⟨⟩
  exact ⟨lsWord_low .., by rw [lsWord_major]; decide⟩
theorem sysNop (m : Bool) : Statement (.sysNop m) := by
  rintro _ ⟨⟩
  exact ⟨lsWord_low .., by rw [lsWord_major]; decide⟩
theorem trap (n : BitVec 8) (m : Bool) : Statement (.trap n m) := by
  rintro _ ⟨⟩
  exact ⟨lsWord_low .., by rw [lsWord_major]; decide⟩
theorem bkpt (n : BitVec 8) (m : Bool) : Statement (.bkpt n m) := by
  rintro _ ⟨⟩
  exact ⟨lsWord_low .., by rw [lsWord_major]; decide⟩
theorem rtrap (m : Bool) : Statement (.rtrap m) := by
  rintro _ ⟨⟩
  exact ⟨lsWord_low .., by rw [lsWord_major]; decide⟩
theorem evt (s : BitVec 9) (c : BitVec 8) (m : Bool) : Statement (.evt s c m) := by
  rintro _ ⟨⟩
  exact ⟨lsWord_low .., by rw [lsWord_major]; decide⟩
theorem evtm (s : BitVec 9) (c : BitVec 8) (m : Bool) : Statement (.evtm s c m) := by
  rintro _ ⟨⟩
  exact ⟨lsWord_low .., by rw [lsWord_major]; decide⟩
theorem loadReturn (core slot id : Nat) : Statement (.loadReturn core slot id) := fun _ h => nomatch h
theorem storeArrival (core id : Nat) : Statement (.storeArrival core id) := fun _ h => nomatch h
theorem atomicAtHome (core slot id : Nat) : Statement (.atomicAtHome core slot id) := fun _ h => nomatch h
theorem crewStoreAck (core slot id : Nat) : Statement (.crewStoreAck core slot id) := fun _ h => nomatch h
theorem fenceRelease (core slot path : Nat) : Statement (.fenceRelease core slot path) := fun _ h => nomatch h
theorem leaseExpiry (holder : Holder) (line : Nat) : Statement (.leaseExpiry holder line) := fun _ h => nomatch h
theorem lrReservationTimeout (core slot lane : Nat) : Statement (.lrReservationTimeout core slot lane) := fun _ h => nomatch h
theorem carveoutInterval (core : Nat) (move : CarveMove) : Statement (.carveoutInterval core move) := fun _ h => nomatch h
theorem pageWalkComplete (core ctx : Nat) (va : Dword) : Statement (.pageWalkComplete core ctx va) := fun _ h => nomatch h
theorem codePageVerify (frame : Nat) (leaves : List (BitVec 512)) : Statement (.codePageVerify frame leaves) := fun _ h => nomatch h
theorem brockAccept (cluster : Nat) : Statement (.brockAccept cluster) := fun _ h => nomatch h
theorem brockDecide (cluster : Nat) : Statement (.brockDecide cluster) := fun _ h => nomatch h
theorem settResolve (cluster : Nat) (seq : Word) : Statement (.settResolve cluster seq) := fun _ h => nomatch h
theorem quantumExpiry (core slot : Nat) : Statement (.quantumExpiry core slot) := fun _ h => nomatch h
theorem issueSlotWithheld (core pipe : Nat) : Statement (.issueSlotWithheld core pipe) := fun _ h => nomatch h
theorem denTimerExpiry (cluster den : Nat) : Statement (.denTimerExpiry cluster den) := fun _ h => nomatch h
theorem denGangFormOnSlot (cluster den : Nat) : Statement (.denGangFormOnSlot cluster den) := fun _ h => nomatch h
theorem continuationRunnable (ctx : Nat) (addr : Dword) : Statement (.continuationRunnable ctx addr) := fun _ h => nomatch h
theorem gridEnd (ctx grid : Nat) : Statement (.gridEnd ctx grid) := fun _ h => nomatch h
theorem rowCommandStart (cluster : Nat) : Statement (.rowCommandStart cluster) := fun _ h => nomatch h
theorem rowChunk (cluster : Nat) : Statement (.rowChunk cluster) := fun _ h => nomatch h
theorem rowCommandComplete (cluster : Nat) : Statement (.rowCommandComplete cluster) := fun _ h => nomatch h
theorem rookGrant (cluster : Nat) : Statement (.rookGrant cluster) := fun _ h => nomatch h
theorem rookAging (cluster id : Nat) : Statement (.rookAging cluster id) := fun _ h => nomatch h
theorem dealerExamine (table : Nat) : Statement (.dealerExamine table) := fun _ h => nomatch h
theorem passStart (cluster : Nat) : Statement (.passStart cluster) := fun _ h => nomatch h
theorem passEnd (cluster : Nat) : Statement (.passEnd cluster) := fun _ h => nomatch h
theorem engineUnit (cluster : Nat) : Statement (.engineUnit cluster) := fun _ h => nomatch h
theorem matrixCommandComplete (cluster : Nat) : Statement (.matrixCommandComplete cluster) := fun _ h => nomatch h
theorem copyCommandStart (core : Nat) : Statement (.copyCommandStart core) := fun _ h => nomatch h
theorem copyUnit (core : Nat) : Statement (.copyUnit core) := fun _ h => nomatch h
theorem copyCommandComplete (core : Nat) : Statement (.copyCommandComplete core) := fun _ h => nomatch h
theorem netredResult (core : Nat) (sum : Option Int) : Statement (.netredResult core sum) := fun _ h => nomatch h
theorem netredTimeout (core : Nat) : Statement (.netredTimeout core) := fun _ h => nomatch h
theorem launchWindowWrite (ctx offset : Nat) (data : List Byte) : Statement (.launchWindowWrite ctx offset data) := fun _ h => nomatch h
theorem teamPlacement : Statement .teamPlacement := fun _ h => nomatch h
theorem backfillTimeout (ctx : Nat) (pri : BitVec 2) : Statement (.backfillTimeout ctx pri) := fun _ h => nomatch h
theorem nodeArm (ctx offset : Nat) (data : List Byte) : Statement (.nodeArm ctx offset data) := fun _ h => nomatch h
theorem nodeStatusRead (ctx offset size : Nat) : Statement (.nodeStatusRead ctx offset size) := fun _ h => nomatch h
theorem walkerCopyPiece : Statement .walkerCopyPiece := fun _ h => nomatch h
theorem walkerCopyComplete : Statement .walkerCopyComplete := fun _ h => nomatch h
theorem peerStoreArrival (dev tenant id : Nat) (runs : List (Nat × Nat × List Byte)) : Statement (.peerStoreArrival dev tenant id runs) := fun _ h => nomatch h
theorem peerNotification (dev tenant id : Nat) (runs : List (Nat × Nat × List Byte)) : Statement (.peerNotification dev tenant id runs) := fun _ h => nomatch h
theorem peerLaunchRecord (dev tenant id : Nat) (runs : List (Nat × Nat × List Byte)) : Statement (.peerLaunchRecord dev tenant id runs) := fun _ h => nomatch h
theorem peerAtomic (dev tenant id : Nat) (op : AtomicOp) (wide : Bool) (pa : Nat) (xy : Dword × Dword) (rm : RMode) (anchor : Int) : Statement (.peerAtomic dev tenant id op wide pa xy rm anchor) := fun _ h => nomatch h
theorem peerResponse (id : Nat) (ok : Bool) (data : List Byte) : Statement (.peerResponse id ok data) := fun _ h => nomatch h
theorem linkPortStateChange (port : Nat) (st : PortState) : Statement (.linkPortStateChange port st) := fun _ h => nomatch h
theorem linkUnreachableTimeout (dev : Nat) : Statement (.linkUnreachableTimeout dev) := fun _ h => nomatch h
theorem hostWrite (identity pa : Nat) (data : List Byte) : Statement (.hostWrite identity pa data) := fun _ h => nomatch h
theorem hostRead (identity pa len : Nat) : Statement (.hostRead identity pa len) := fun _ h => nomatch h
theorem hostAtomic (identity pa : Nat) (sysat : Bool) (op : AtomicOp) (wide : Bool) (x y : Dword) : Statement (.hostAtomic identity pa sysat op wide x y) := fun _ h => nomatch h
theorem ptpMessage (src : BitVec 2) (ptpNs : Nat) : Statement (.ptpMessage src ptpNs) := fun _ h => nomatch h
theorem ptpSourceLost : Statement .ptpSourceLost := fun _ h => nomatch h
theorem traceSinkWrite (src : TraceSource) : Statement (.traceSinkWrite src) := fun _ h => nomatch h
theorem lossRecord (ctx : Nat) : Statement (.lossRecord ctx) := fun _ h => nomatch h
theorem losslessTimeout (ctx : Nat) : Statement (.losslessTimeout ctx) := fun _ h => nomatch h
theorem faultQueueDrain (ctx : Nat) : Statement (.faultQueueDrain ctx) := fun _ h => nomatch h
theorem mgmtWindowMalformedWrite (offset size : Nat) : Statement (.mgmtWindowMalformedWrite offset size) := fun _ h => nomatch h
theorem ctxnew (rec : BitVec 512) : Statement (.ctxnew rec) := fun _ h => nomatch h
theorem ctxdel (rec : BitVec 512) : Statement (.ctxdel rec) := fun _ h => nomatch h
theorem tlbinv (rec : BitVec 512) : Statement (.tlbinv rec) := fun _ h => nomatch h
theorem grant (rec : BitVec 512) : Statement (.grant rec) := fun _ h => nomatch h
theorem linkadm (rec : BitVec 512) : Statement (.linkadm rec) := fun _ h => nomatch h
theorem regwr (rec : BitVec 512) : Statement (.regwr rec) := fun _ h => nomatch h
theorem regrd (rec : BitVec 512) : Statement (.regrd rec) := fun _ h => nomatch h
theorem replay (rec : BitVec 512) : Statement (.replay rec) := fun _ h => nomatch h
theorem kill (rec : BitVec 512) : Statement (.kill rec) := fun _ h => nomatch h
theorem preempt (rec : BitVec 512) : Statement (.preempt rec) := fun _ h => nomatch h
theorem resume (rec : BitVec 512) : Statement (.resume rec) := fun _ h => nomatch h
theorem resync (rec : BitVec 512) : Statement (.resync rec) := fun _ h => nomatch h
theorem commandCompletion : Statement .commandCompletion := fun _ h => nomatch h
theorem softErrorCorrected (cls : BitVec 4) : Statement (.softErrorCorrected cls) := fun _ h => nomatch h
theorem softErrorUncorrectable (loc : SoftLoc) : Statement (.softErrorUncorrectable loc) := fun _ h => nomatch h
theorem deviceReset (images : List (List Byte)) : Statement (.deviceReset images) := fun _ h => nomatch h
theorem getVersion (req : Nat) : Statement (.getVersion req) := fun _ h => nomatch h
theorem getCapabilities (req : Nat) : Statement (.getCapabilities req) := fun _ h => nomatch h
theorem negotiateAlgorithms (req : Nat) (mldsa87 sha3 : Bool) : Statement (.negotiateAlgorithms req mldsa87 sha3) := fun _ h => nomatch h
theorem getDigests (req : Nat) : Statement (.getDigests req) := fun _ h => nomatch h
theorem getCertificate (req offset len : Nat) : Statement (.getCertificate req offset len) := fun _ h => nomatch h
theorem challenge (req : Nat) (nonce : List Byte) : Statement (.challenge req nonce) := fun _ h => nomatch h
theorem getMeasurements (req : Nat) (nonce : List Byte) : Statement (.getMeasurements req nonce) := fun _ h => nomatch h
theorem encodingNotInstruction (kind : EncodingFate) (first : Word) : Statement (.encodingNotInstruction kind first) := fun _ h => nomatch h
theorem instructionFetchFault (addr : Dword) (kind : FaultKind) : Statement (.instructionFetchFault addr kind) := fun _ h => nomatch h
theorem firmwareUpdate (image : List Byte) : Statement (.firmwareUpdate image) := fun _ h => nomatch h
theorem correctionSlewEnd : Statement .correctionSlewEnd := fun _ h => nomatch h
theorem flitRetransmission (port : Nat) : Statement (.flitRetransmission port) := fun _ h => nomatch h
theorem cxlAcknowledgement (id : Nat) (data : List Byte) : Statement (.cxlAcknowledgement id data) := fun _ h => nomatch h

end Sys2Proof.Laws.Encoding
end

