-- ==== Sys2Proof/Laws/State.lean ====
section
/-! SUPPORT. What each field of the state reads as at reset: one lemma per field (spec/14 R305, spec/19 R399, spec/20
R430). -/

namespace Sys2Proof.Machine

@[simp] theorem reset_agenda : State.reset.agenda = [] := rfl
@[simp] theorem reset_cur : State.reset.cur = Cur.none := rfl
@[simp] theorem reset_freeCtr : State.reset.freeCtr = 0 := rfl
@[simp] theorem reset_nextId : State.reset.nextId = 1 := rfl
@[simp] theorem reset_dtb : State.reset.dtb = 0 := rfl
@[simp] theorem reset_clk : State.reset.clk = 0 := rfl
@[simp] theorem reset_mem : State.reset.mem = [] := rfl
@[simp] theorem reset_hostMem : State.reset.hostMem = [] := rfl
@[simp] theorem reset_verified : State.reset.verified = [] := rfl
@[simp] theorem reset_codeBad : State.reset.codeBad = [] := rfl
@[simp] theorem reset_gangs : State.reset.gangs = [] := rfl
@[simp] theorem reset_teams : State.reset.teams = [] := rfl
@[simp] theorem reset_crews : State.reset.crews = [] := rfl
@[simp] theorem reset_grids : State.reset.grids = [] := rfl
@[simp] theorem reset_ctxs : State.reset.ctxs = [] := rfl
@[simp] theorem reset_dens : State.reset.dens = [] := rfl
@[simp] theorem reset_cmds : State.reset.cmds = [] := rfl
@[simp] theorem reset_waiters : State.reset.waiters = [] := rfl
@[simp] theorem reset_wbuf : State.reset.wbuf = [] := rfl
@[simp] theorem reset_lines : State.reset.lines = [] := rfl
@[simp] theorem reset_leases : State.reset.leases = [] := rfl
@[simp] theorem reset_privLines : State.reset.privLines = [] := rfl
@[simp] theorem reset_tlb : State.reset.tlb = [] := rfl
@[simp] theorem reset_walkCache : State.reset.walkCache = [] := rfl
@[simp] theorem reset_icache : State.reset.icache = [] := rfl
@[simp] theorem reset_barDones : State.reset.barDones = [] := rfl
@[simp] theorem reset_ahead : State.reset.ahead = [] := rfl
@[simp] theorem reset_waits : State.reset.waits = [] := rfl
@[simp] theorem reset_tokens : State.reset.tokens = [1, 1, 1, 1] := rfl
@[simp] theorem reset_parkq : State.reset.parkq = [] := rfl
@[simp] theorem reset_parkSeq : State.reset.parkSeq = [] := rfl
@[simp] theorem reset_escTotals : State.reset.escTotals = [] := rfl
@[simp] theorem reset_tiles : State.reset.tiles = [] := rfl
@[simp] theorem reset_tilePend : State.reset.tilePend = [] := rfl
@[simp] theorem reset_tilePoison : State.reset.tilePoison = [] := rfl
@[simp] theorem reset_weights : State.reset.weights = [] := rfl
@[simp] theorem reset_wPoison : State.reset.wPoison = [] := rfl
@[simp] theorem reset_dealer : State.reset.dealer = [] := rfl
@[simp] theorem reset_carve : State.reset.carve = [] := rfl
@[simp] theorem reset_rr : State.reset.rr = [] := rfl
@[simp] theorem reset_yielded : State.reset.yielded = [] := rfl
@[simp] theorem reset_withheld : State.reset.withheld = [] := rfl
@[simp] theorem reset_traceBuf : State.reset.traceBuf = [] := rfl
@[simp] theorem reset_traceSeq : State.reset.traceSeq = [] := rfl
@[simp] theorem reset_memPoison : State.reset.memPoison = [] := rfl
@[simp] theorem reset_dtborg : State.reset.dtborg = 0 := rfl
@[simp] theorem reset_dtbOffs : State.reset.dtbOffs = 0 := rfl
@[simp] theorem reset_dtbSrc : State.reset.dtbSrc = 0 := rfl
@[simp] theorem reset_dtbState : State.reset.dtbState = 0 := rfl
@[simp] theorem reset_dtbSlew : State.reset.dtbSlew = 0 := rfl
@[simp] theorem reset_dtbLocked : State.reset.dtbLocked = false := rfl
@[simp] theorem reset_lnktmo : State.reset.lnktmo = 1000 := rfl
@[simp] theorem reset_systrbase : State.reset.systrbase = 0 := rfl
@[simp] theorem reset_systrsize : State.reset.systrsize = 0 := rfl
@[simp] theorem reset_systrwr : State.reset.systrwr = 0 := rfl
@[simp] theorem reset_systrrd : State.reset.systrrd = 0 := rfl
@[simp] theorem reset_linkTable : State.reset.linkTable = [] := rfl
@[simp] theorem reset_devNo : State.reset.devNo = 0 := rfl
@[simp] theorem reset_ports : State.reset.ports = List.replicate 24 ⟨.down, 0, 0, 0⟩ := rfl
@[simp] theorem reset_unreach : State.reset.unreach = [] := rfl
@[simp] theorem reset_mrs : State.reset.mrs = List.replicate 16 0 := rfl
@[simp] theorem reset_fenced : State.reset.fenced = false := rfl
@[simp] theorem reset_nres : State.reset.nres = 0 := rfl
@[simp] theorem reset_softCorr : State.reset.softCorr = [] := rfl
@[simp] theorem reset_softUnc : State.reset.softUnc = [] := rfl
@[simp] theorem reset_sinks : State.reset.sinks = List.replicate 4 ⟨0, 0⟩ := rfl
@[simp] theorem reset_completions : State.reset.completions = [] := rfl
@[simp] theorem reset_mgmtBad : State.reset.mgmtBad = 0 := rfl
@[simp] theorem reset_peerBad : State.reset.peerBad = 0 := rfl
@[simp] theorem reset_msix : State.reset.msix = [] := rfl
@[simp] theorem reset_copies : State.reset.copies = [] := rfl
@[simp] theorem reset_decs : State.reset.decs = [] := rfl
@[simp] theorem reset_saved : State.reset.saved = [] := rfl
@[simp] theorem reset_spdm : State.reset.spdm = ⟨[], []⟩ := rfl
@[simp] theorem reset_sent : State.reset.sent = [] := rfl
@[simp] theorem reset_hostOut : State.reset.hostOut = [] := rfl
@[simp] theorem reset_rrCtx : State.reset.rrCtx = 0 := rfl
@[simp] theorem reset_peerGwct : State.reset.peerGwct = [] := rfl
@[simp] theorem reset_peerIn : State.reset.peerIn = [] := rfl
@[simp] theorem reset_sysPend : State.reset.sysPend = [] := rfl
@[simp] theorem reset_sinkRr : State.reset.sinkRr = [] := rfl
@[simp] theorem reset_inRom : State.reset.inRom = false := rfl

end Sys2Proof.Machine
end

