-- ==== Sys2Proof/Tests/World.lean ====
section
/-! SUPPORT. The small machine of the tests: one gang of four threads whose bundle is in execution, its team, its grid, its tenant and
page tables. -/

namespace Sys2Proof.Tests

open Sys2Proof.Machine Sys2Proof.Claims

/-! ### A small machine -/

/-- Page-table entries: a table, and leaves for data, code, host memory, system-atomic pages, a peer and two windows. -/
def tables : List (Nat × Nat) :=
  [(0x100000, 0x101 * 2 ^ 28 + 1), (0x101000, 7), (0x101008, 11), (0x101010, 2 ^ 14 + 7), (0x101018, 256 + 7),
   (0x101020, 0x102 * 2 ^ 28 + 1), (0x102000, 0x103 * 2 ^ 28 + 1),
   (0x103000, 3 * 2 ^ 17 + 2 * 2 ^ 14 + 7), (0x103008, 6 * 2 ^ 14 + 7), (0x103010, 5 * 2 ^ 14 + 7)]

/-- Memory with the page tables. -/
def tabled : Memory := tables.foldl (fun m e => sparseWriteRun memDefault m e.1 (toBytes 8 e.2)) []

/-- A tenant context that may use device and host memory. -/
def tenant : Ctx :=
  { id := 1, ptbase := 0x100000, coreset := 0xFFFFFFFFFFFFFFFFFFFFFFFF#96, pkr := 0,
    grants := [(0, toDword (2 ^ 57 + 3)), (1, toDword (2 ^ 57 + 11))], sysgrp := [], leasecfg := 0, trcfg := 0, trbase := 0, trsize := 0,
    trwr := 0, trrd := 0, denbase := 0x200000, densize := 0x10000, fqbase := 0x300000, fqsize := 0x1000, fqwr := 0, fqrd := 0,
    fqctl := 0, logbase := 0x400000, mbox := [], regions := [], nodes := [], queues := [[], [], [], []], logUsed := [0], denUsed := [],
    waitRecs := [], fqlost := 0, kills := 0, save := 0, trLost := 0, trFall := false, trSince := none,
    trPend := [], fqPend := [] }

/-- A kernel of gangs of eight threads. -/
def kernel : Kernel :=
  { entry := 0x40000000, clist := 0, gang := 8, team := 16, crew := 1, vregs := 128, acc := 0, argw := 0, tmem := 4096, l1min := 0,
    pwords := 64 }

/-- A grid of one team. -/
def grid : Grid :=
  { uid := 30, ctx := 1, index := 0,
    launch := { tag := 77, early := false, cores := true, pri := 1, doneN := 0, nteams := 1, gtab := 0, trapent := 0x40000100,
                pbase := 0x500000, args := 0, kdesc := 0 },
    kernel := kernel, argWords := [], logCopy := 0, node := none, placed := 1, lastClus := some 1, started := true, waitFrom := none,
    blocked := false, tls := [(3, (5#64, 1))], tlAt := [], succok := false, succAt := 0, preds := [], predsAt := 0, noDec := false, groups := [(2, some [0])], gwct := 0, conts := [],
    bars := [], freeLive := [], killed := none, teamsDone := 0,
    heard := 0 }

/-- Its team, on core 5. -/
def team : Team :=
  { uid := 40, ctx := 1, grid := 0, index := 0, crew := 0, rank := 0, core := 5, mem := [(4, 9#8)], poison := [], bars := [], conv := [],
    guards := [], dmode := 0, modeReq := [], tiles := [], slices := [], live := [100, 101, 102, 103], retired := false }

/-- A thread whose registers hold small numbers. -/
def thread (l : Nat) : Thread :=
  { uid := 100 + l, lpos := l, v := [(1, toWord (4 * l + 4)), (2, toWord (l + 7)), (3, 0x3F800000#32), (4, toWord (64 * l + 64)), (6, 5#32)],
    preds := BitVec.ofNat 8 (l % 2), meet := 0xFFFFFFFFFFFFFFFF#64, link := 0x40000040#64, tid := toDword l, tidx := some l,
    inHandler := false, inflight := [], pend := [], poison := [], lr := none, lastPage := none, lastPc := 0, spawned := false,
    owes := [], dfrTrap := none }

/-- A gang of four threads on one path. -/
def gang : Gang :=
  { uid := 50, core := 5, slot := 3, pipe := 1, ctx := 1, grid := 0, team := some 0, ix := 0, size := 8,
    sregs := [(2, 0x1000#32), (4, 16#32), (6, 3#32), (8, 0x600000#32)], sflight := [], spoison := [], rm := 0, fstat := 0, anchor := 0, nfcnt := 0, gwct := 0, gwctFly := [], escb := 0,
    escs := 0, escpr := 0, escqs := 0, trstl := 0, tapeHead := 0, tapeSeq := 0, wake := 0, threads := [thread 0, thread 1, thread 2, thread 3],
    paths := [⟨0, 0x40000000, 15, none, false, false, 0⟩], curPath := 0, quantum := 1, parked := [], out := [] }

/-- The machine with that gang's bundle in execution. -/
def world : State :=
  { State.reset with
    cur := { live := true, core := 5, slot := 3, path := 0, pc := 0x40000000, wpc := 0x40000000, npc := 0x40000004, first := 1,
             pfx := pfxNone, imm := none }
    nextId := 1000, dtb := 1000, clk := 1000, mem := tabled, gangs := [gang], teams := [team], crews := [⟨1, 0, 0, 1, []⟩],
    grids := [grid], ctxs := [tenant] }

/-- Its path. -/
def path : Path := ⟨0, 0x40000000, 15, none, false, false, 0⟩

/-- The gang executes, with nothing outstanding. -/
theorem world_executes : Executes world gang path := by
  refine ⟨by decide +kernel, by decide +kernel, ?_⟩
  constructor <;> decide +kernel

/-- What can be evaluated of the traps of the gang's threads in a state. -/
def canTrap (s : State) (g : Gang) : Bool :=
  decide ((findGrid s g.ctx g.grid).map (·.launch.trapent) = some 0x40000100#64) && g.parked.isEmpty && decide (g.paths.length ≤ 8) &&
  decide (l1Count s g.core + 1024 ≤ l1Lines s g.core) &&
  (onPath g path).all (fun t => !t.inHandler && decide (16 ≤ plimOf s g t) && decide (frameFault s g t = none))

theorem canTrap_ready (s : State) (g : Gang) (h : canTrap s g = true) : handlerReady s g path := by
  simp only [canTrap, Bool.and_eq_true, decide_eq_true_eq, List.isEmpty_iff, List.all_eq_true, Bool.not_eq_true', Option.map_eq_some_iff] at h
  obtain ⟨⟨⟨⟨⟨gr, fg, ent⟩, none⟩, few⟩, room⟩, all⟩ := h
  exact ⟨⟨gr, fg, by rw [ent]; decide⟩, by simp [none], few, by decide, room, fun t ht => ⟨(all t ht).1.1, (all t ht).1.2, (all t ht).2⟩⟩

/-- The machine with another gang in the place of that one. -/
def withGang (g : Gang) : State := { world with gangs := [g] }

/-- A gang with other scalar registers and threads, all else as in `gang`. -/
def gangWith (sregs : List (Nat × Word)) (f : Thread → Thread) : Gang :=
  { gang with sregs := sregs, threads := gang.threads.map f }

/-- A part of an access of the thread at position 0. -/
def part0 : LanePart := ⟨0, 0, 0, 0, 0, 0, 4, 0, 0, 0, 0⟩

/-- An operation with no parts. -/
def op0 : OutOp := ⟨900, .store, 0, 15, true, [], 0, []⟩

/-- The executing gang after an instruction meets a check. -/
def runs (i : Instr) (s : State) (f : State → Gang → Bool) : Bool :=
  match exec i s with
  | .next u => (curGang u).any (f u)
  | _ => false

/-- The state after an event meets a check. -/
def after (i : Instr) (s : State) (f : State → Bool) : Bool :=
  match exec i s with
  | .next u => f u
  | _ => false

/-- Vector register `r` of the thread at position `l`. -/
def lane (k : Gang) (l r : Nat) : Word := ((findThread k l).map (fun t => vreg t r)).getD 0

/-- The value of a computation that does not fail, or a default. -/
def got {e a : Type} (d : a) (x : Except e a) : a :=
  match x with
  | .ok y => y
  | .error _ => d

/-- Whether a computation does not fail. -/
def fine {e a : Type} (x : Except e a) : Bool :=
  match x with
  | .ok _ => true
  | .error _ => false

theorem fine_got {e a : Type} (d : a) (x : Except e a) (h : fine x = true) : x = .ok (got d x) := by
  cases x with
  | ok y => rfl
  | error y => cases h

/-- A page walk of the small machine. -/
def walk (s : State) (va n : Nat) (a : Acc) : Trans := got ⟨0, 0⟩ (translateChecked s 5 1 va n a)

end Sys2Proof.Tests
end

