-- ==== Sys2Proof/Tests/Witness2.lean ====
section
/-! SUPPORT. For each statement about memory, threads that spawn and suspend, guards and postings, states and operands that meet its
hypotheses together. -/

set_option Elab.async false

namespace Sys2Proof.Tests

open Sys2Proof.Machine Sys2Proof.Claims

/-! ### Accesses -/

/-- A gang with its base at 0x601000 in `s[8:9]` and offsets in `v4`. -/
def accessing : Gang := gangWith [(8, 0x601000#32), (10, 7#32), (11, 9#32)] id

/-- The same over host memory. -/
def hosting : Gang := gangWith [(8, 0x80000000#32), (10, 7#32), (11, 9#32)] id

/-- A gang with its base at 0, for team and private memory. -/
def local_ : Gang := gangWith [] id

theorem accessing_idle : Idle accessing := by constructor <;> decide +kernel
theorem hosting_idle : Idle hosting := by constructor <;> decide +kernel
theorem local_idle : Idle local_ := by constructor <;> decide +kernel

theorem accessing_executes : Executes (withGang accessing) accessing path := ⟨by decide +kernel, by decide +kernel, accessing_idle⟩
theorem hosting_executes : Executes (withGang hosting) hosting path := ⟨by decide +kernel, by decide +kernel, hosting_idle⟩
theorem local_executes : Executes (withGang local_) local_ path := ⟨by decide +kernel, by decide +kernel, local_idle⟩

/-- The threads' addresses. -/
def addrs (g : Gang) (off : Nat) (t : Thread) : Nat := (accAddr (withGang g) g t 4 4 + off) % 2 ^ 64

/-- The check of a thread's access. -/
def checks (g : Gang) (acc : Acc) (n off : Nat) (t : Thread) : Except LaneFault (List (Nat × Trans)) :=
  checkRuns (withGang g) g (leader (withGang g) g (addrs g off) n t) t acc (pageRuns (addrs g off t) n)

/-- The translations of a thread's access. -/
def walks (g : Gang) (acc : Acc) (n off : Nat) (t : Thread) : List (Nat × Trans) := got [] (checks g acc n off t)

theorem addrs_zero (g : Gang) : addrs g 0 = fun t => accAddr (withGang g) g t 4 4 := by
  funext t
  simp [addrs, Claims.accAddr]

theorem walks_ok (g : Gang) (acc : Acc) (n off : Nat)
    (h : ∀ t ∈ activeThreads (withGang g) g, fine (checks g acc n off t) = true ∧ ∀ x ∈ walks g acc n off t, pteTgt x.2.pte ≠ 2) :
    ∀ t ∈ activeThreads (withGang g) g, checks g acc n off t = .ok (walks g acc n off t) ∧ ∀ x ∈ walks g acc n off t, pteTgt x.2.pte ≠ 2 :=
  fun t ht => ⟨fine_got [] _ (h t ht).1, (h t ht).2⟩

theorem met_LoadsIssue : Executes (withGang accessing) accessing path ∧ activeThreads (withGang accessing) accessing ≠ [] ∧
    gangMode (withGang accessing) accessing = 0 ∧ (6#3).toNat < 7 ∧
    (let va := fun t => accAddr (withGang accessing) accessing t 4 4
     ∀ t ∈ activeThreads (withGang accessing) accessing,
      checkRuns (withGang accessing) accessing (leader (withGang accessing) accessing va 16 t) t .read (pageRuns (va t) 16) =
        .ok (walks accessing .read 16 0 t) ∧ ∀ x ∈ walks accessing .read 16 0 t, pteTgt x.2.pte ≠ 2) := by
  have all := walks_ok accessing .read 16 0 (by decide +kernel)
  simp only [checks, addrs_zero] at all
  exact ⟨accessing_executes, by decide +kernel, by decide +kernel, by decide, all⟩

theorem met_LoadsIssue_host : Executes (withGang hosting) hosting path ∧ (0#3).toNat < 7 ∧
    (let va := fun t => accAddr (withGang hosting) hosting t 4 4
     ∀ t ∈ activeThreads (withGang hosting) hosting,
      checkRuns (withGang hosting) hosting (leader (withGang hosting) hosting va 1 t) t .read (pageRuns (va t) 1) =
        .ok (walks hosting .read 1 0 t) ∧ ∀ x ∈ walks hosting .read 1 0 t, pteTgt x.2.pte ≠ 2) := by
  have all := walks_ok hosting .read 1 0 (by decide +kernel)
  simp only [checks, addrs_zero] at all
  exact ⟨hosting_executes, by decide, all⟩

theorem met_LoadsIssue_words :
    let va := fun t => accAddr (withGang accessing) accessing t 4 4
    ∀ t ∈ activeThreads (withGang accessing) accessing, ∀ i, i < 8 →
      checkRuns (withGang accessing) accessing (leader (withGang accessing) accessing (fun x => (va x + 4 * i) % 2 ^ 64) 4 t) t .read
        (pageRuns ((va t + 4 * i) % 2 ^ 64) 4) = .ok (walks accessing .read 4 (4 * i) t) ∧
      ∀ x ∈ walks accessing .read 4 (4 * i) t, pteTgt x.2.pte ≠ 2 := by
  have each : ∀ i, i < 8 → ∀ t ∈ activeThreads (withGang accessing) accessing, fine (checks accessing .read 4 (4 * i) t) = true ∧
      ∀ x ∈ walks accessing .read 4 (4 * i) t, pteTgt x.2.pte ≠ 2 := by decide +kernel
  exact fun t ht i hi => walks_ok accessing .read 4 (4 * i) (each i hi) t ht

theorem met_LoadsIssue_team : Executes (withGang local_) local_ path ∧
    ∀ t ∈ activeThreads (withGang local_) local_,
      teamCheck (withGang local_) local_ t.lpos (accAddr (withGang local_) local_ t 4 1) 16 .read = .ok team := by
  have all : ∀ t ∈ activeThreads (withGang local_) local_,
      fine (teamCheck (withGang local_) local_ t.lpos (accAddr (withGang local_) local_ t 4 1) 16 .read) = true ∧
      got team (teamCheck (withGang local_) local_ t.lpos (accAddr (withGang local_) local_ t 4 1) 16 .read) = team := by decide +kernel
  exact ⟨local_executes, fun t ht => (fine_got team _ (all t ht).1).trans (congrArg _ (all t ht).2)⟩

theorem met_LoadsIssue_private : Executes (withGang local_) local_ path ∧ ∀ t ∈ activeThreads (withGang local_) local_,
    (accAddr (withGang local_) local_ t 4 1 + accBytes 6 - 1) / 4 < plimOf (withGang local_) local_ t ∧
    privCheck (withGang local_) local_ t (accAddr (withGang local_) local_ t 4 1) (accBytes 6) = none :=
  ⟨local_executes, by decide +kernel⟩

theorem met_StoresComplete : Executes (withGang accessing) accessing path ∧ gangMode (withGang accessing) accessing = 0 ∧
    accessing.gwct.toNat ≤ coreNow (withGang accessing) accessing.core ∧ bufRoom (withGang accessing) accessing ∧
    (let va := fun t => accAddr (withGang accessing) accessing t 4 4
     ∀ t ∈ activeThreads (withGang accessing) accessing,
      checkRuns (withGang accessing) accessing (leader (withGang accessing) accessing va 16 t) t .write (pageRuns (va t) 16) =
        .ok (walks accessing .write 16 0 t)) := by
  have room : ∀ n, n < 6 → curSlot (withGang accessing) accessing (.bufferSlot n) = true := by decide +kernel
  have few : (activeThreads (withGang accessing) accessing).length = 4 := by decide +kernel
  have all := walks_ok accessing .write 16 0 (by decide +kernel)
  simp only [checks, addrs_zero] at all
  exact ⟨accessing_executes, by decide +kernel, by decide +kernel, fun n h => room n (by omega), fun t ht => (all t ht).1⟩

theorem met_StoresComplete_own : Executes (withGang local_) local_ path ∧ gangTeam (withGang local_) local_ = some team ∧
    (∀ t ∈ activeThreads (withGang local_) local_,
      teamCheck (withGang local_) local_ t.lpos (accAddr (withGang local_) local_ t 4 1) (accBytes 5) .write = .ok team) ∧
    ∀ t ∈ activeThreads (withGang local_) local_,
      (accAddr (withGang local_) local_ t 4 1 + accBytes 5 - 1) / 4 < plimOf (withGang local_) local_ t ∧
      privCheck (withGang local_) local_ t (accAddr (withGang local_) local_ t 4 1) (accBytes 5) = none ∧
      findThread local_ t.lpos = some t ∧ l1Room (withGang local_) local_.core 512 ∧
      ∀ x ∈ activeThreads (withGang local_) local_, x.tidx = t.tidx → x = t := by
  unfold l1Room
  have all : ∀ t ∈ activeThreads (withGang local_) local_,
      fine (teamCheck (withGang local_) local_ t.lpos (accAddr (withGang local_) local_ t 4 1) (accBytes 5) .write) = true ∧
      got team (teamCheck (withGang local_) local_ t.lpos (accAddr (withGang local_) local_ t 4 1) (accBytes 5) .write) = team := by decide +kernel
  exact ⟨local_executes, by decide +kernel, fun t ht => (fine_got team _ (all t ht).1).trans (congrArg _ (all t ht).2), by decide +kernel⟩

/-- A second team of a crew of two, on core 6, and the machine with it. -/
def neighbour : Team := { team with uid := 41, index := 1, rank := 1, core := 6, live := [] }

/-- The machine with a crew of two teams. -/
def crewed : State :=
  { world with
    teams := [team, neighbour], grids := [{ grid with kernel := { kernel with crew := 2 } }], gangs := [gangWith [(8, toWord (2 * 2 ^ 28))] id] }

theorem met_StoresComplete_crew :
    let g := gangWith [(8, toWord (2 * 2 ^ 28))] id
    Executes crewed g path ∧ gangMode crewed g = 0 ∧ activeThreads crewed g ≠ [] ∧
    ∀ t ∈ activeThreads crewed g, teamCheck crewed g t.lpos (accAddr crewed g t 4 1) (accBytes 4) .write = .ok neighbour ∧
      some neighbour.index ≠ g.team := by
  have all : let g := gangWith [(8, toWord (2 * 2 ^ 28))] id
      ∀ t ∈ activeThreads crewed g, fine (teamCheck crewed g t.lpos (accAddr crewed g t 4 1) (accBytes 4) .write) = true ∧
        got team (teamCheck crewed g t.lpos (accAddr crewed g t 4 1) (accBytes 4) .write) = neighbour := by decide +kernel
  refine ⟨⟨by decide +kernel, by decide +kernel, by constructor <;> decide +kernel⟩, by decide +kernel, by decide +kernel, fun t ht => ?_⟩
  exact ⟨(fine_got team _ (all t ht).1).trans (congrArg _ (all t ht).2), by decide⟩

theorem met_ScalarAccessesIssue : Executes (withGang accessing) accessing path ∧ path.mask ≠ 0 ∧ gangMode (withGang accessing) accessing = 0 ∧
    (spair accessing (8#9).toNat).toNat % (4 * 2 ^ ((2#6).toNat % 3)) = 0 ∧ pteTgt (walk (withGang accessing) 0x601000 16 .read).pte < 2 ∧
    translateChecked (withGang accessing) accessing.core accessing.ctx (spair accessing (8#9).toNat).toNat (4 * 2 ^ ((2#6).toNat % 3)) .read =
      .ok (walk (withGang accessing) 0x601000 16 .read) ∧ bufRoom (withGang accessing) accessing ∧
    translateChecked (withGang accessing) accessing.core accessing.ctx (spair accessing (8#9).toNat).toNat (4 * 2 ^ ((3#6).toNat % 3)) .write =
      .ok (walk (withGang accessing) 0x601000 4 .write) :=
  ⟨accessing_executes, by decide +kernel, by decide +kernel, by decide +kernel, by decide +kernel, fine_got _ _ (by decide +kernel),
    met_StoresComplete.2.2.2.1, fine_got _ _ (by decide +kernel)⟩

/-- A gang with addresses of atomics in `v[4:5]`, 16 bytes apart from 0x601000 or from a system-atomic page on. -/
def combining (base : Nat) : Gang := gangWith [] (fun t => { t with v := [(2, 9#32), (4, toWord (base + 16 * t.lpos))] })

/-- The translation of its atomics. -/
def combiningAt (base n : Nat) (t : Thread) : Trans :=
  (got (0, ⟨0, 0⟩) (checkRun (withGang (combining base)) (combining base) t t ((vpair t 4).toNat % 2 ^ 64) n .atomic)).2

theorem met_AtomicsIssue (base : Nat) (h : base = 0x601000 ∨ base = 0xC0000000) :
    Executes (withGang (combining base)) (combining base) path ∧ activeThreads (withGang (combining base)) (combining base) ≠ [] ∧
    gangMode (withGang (combining base)) (combining base) = 0 ∧
    (Instr.atomxFadda false 2 4 true true, AtomicOp.fadda true) ∈ atomics false 2 4 9 true true ∧
    ∀ t ∈ activeThreads (withGang (combining base)) (combining base), (vpair t 4).toNat % 2 ^ 64 % atomSize .add true = 0 ∧
      checkRun (withGang (combining base)) (combining base) t t ((vpair t 4).toNat % 2 ^ 64) 8 .atomic =
        .ok ((vpair t 4).toNat % 2 ^ 64, combiningAt base 8 t) ∧
      pteTgt (combiningAt base 8 t).pte ≠ 2 ∧ atomSupported .add (tgtOf (combiningAt base 8 t)) = true := by
  have pairs : ∀ t ∈ activeThreads (withGang (combining base)) (combining base),
      fine (checkRun (withGang (combining base)) (combining base) t t ((vpair t 4).toNat % 2 ^ 64) 8 .atomic) = true ∧
      (got (0, ⟨0, 0⟩) (checkRun (withGang (combining base)) (combining base) t t ((vpair t 4).toNat % 2 ^ 64) 8 .atomic)).1 =
        (vpair t 4).toNat % 2 ^ 64 := by
    rcases h with rfl | rfl <;> decide +kernel
  have idle : Idle (combining base) := by constructor <;> rcases h with rfl | rfl <;> decide +kernel
  have here : activeThreads (withGang (combining base)) (combining base) ≠ [] ∧ gangMode (withGang (combining base)) (combining base) = 0 := by
    rcases h with rfl | rfl <;> decide +kernel
  have may : ∀ t ∈ activeThreads (withGang (combining base)) (combining base), (vpair t 4).toNat % 2 ^ 64 % atomSize .add true = 0 ∧
      pteTgt (combiningAt base 8 t).pte ≠ 2 ∧ atomSupported .add (tgtOf (combiningAt base 8 t)) = true := by
    rcases h with rfl | rfl <;> decide +kernel
  refine ⟨⟨rfl, rfl, idle⟩, here.1, here.2, by simp [atomics], fun t ht => ⟨(may t ht).1, ?_, (may t ht).2⟩⟩
  exact (fine_got (0, ⟨0, 0⟩) _ (pairs t ht).1).trans (congrArg _ (Prod.ext (pairs t ht).2 rfl))

/-- A private line that holds the word of the gang's first thread, dirty or clean. -/
def privLine (d : Nat) : PrivLine :=
  { core := 5, ctx := 1, grid := 0, va := privAddr (withGang local_) local_ (thread 0) 1 / 128 * 128
    bytes := [7#8] ++ List.replicate 127 0#8, valid := 1, dirty := d, left := [], poison := 0 }

theorem met_CacheControlCompletes : Executes (withGang local_) local_ path ∧ (∀ l ∈ (withGang local_).privLines, l.core ≠ local_.core) ∧
    (∀ t ∈ activeThreads (withGang local_) local_, accAddr (withGang local_) local_ t 4 1 / 4 + ((0#7).toNat + 1) ≤ plimOf (withGang local_) local_ t) ∧
    (∀ t ∈ local_.threads, findThread local_ t.lpos = some t) ∧
    ∀ t ∈ activeThreads (withGang local_) local_, wordLines (withGang local_) local_ t (accAddr (withGang local_) local_ t 4 1) 1 = [] :=
  ⟨local_executes, by decide +kernel⟩

theorem met_CacheControlCompletes_lines (d : Nat) (h : d = 0 ∨ d = 1) :
    let s := { withGang local_ with privLines := [privLine d] }
    let words := fun t => wordLines s local_ t (accAddr s local_ t 4 1) 1
    Executes s local_ path ∧ (∀ l ∈ s.privLines, l.valid ≠ 0) ∧ s.privLines.Pairwise (fun l x => samePriv l x = false) ∧
    (∃ t ∈ activeThreads s local_, privLine d ∈ words t) ∧ (∀ t ∈ activeThreads s local_, ∀ x ∈ words t, x = privLine d) ∧
    (d = 0 → ∀ t ∈ activeThreads s local_, ∀ x ∈ words t, x.dirty = 0) ∧ (d = 1 → (privLine d).dirty ≠ 0) ∧
    fine (writeBackLine s (privLine d)) = true := by
  intro s words
  have runs : Executes s local_ path := by
    refine ⟨?_, ?_, local_idle⟩ <;> rcases h with rfl | rfl <;> decide +kernel
  refine ⟨runs, ?_⟩
  rcases h with rfl | rfl <;> decide +kernel

/-! ### Accesses that return and arrive -/

/-- A gang with one operation outstanding and register 20 of its first thread in flight for it. -/
def returning (kind : OutKind) (x : LanePart) : Gang :=
  { gangWith [] (fun t => if t.lpos = 0 then { t with inflight := [⟨900, 20, false, false, none⟩] } else t) with
    out := [{ op0 with kind := kind, parts := [x] }] }

/-- The part of a word's load into register 20. -/
def loading : LanePart := { part0 with pa := 0x601000, size := 4, reg := 20 }

/-- The operations that return. -/
def loads : List (OutKind × LanePart) :=
  [(.load 4 false, loading), (.load 6 true, { loading with tgt := 1, size := 16 }), (.loadTeam 4, loading),
   (.loadPriv 4, { loading with va := 16 }), (.gred 0 2, { loading with size := 8 })]

theorem met_LoadsReturn : ∀ x ∈ loads,
    let g := returning x.1 x.2
    let o := { op0 with kind := x.1, parts := [x.2] }
    findGang (withGang g) 5 3 = some g ∧ findOp g o.id = some o ∧ o.got = [] ∧ opBlocked (withGang g) g o = false ∧ (o.parts.map (·.lpos)).Nodup ∧
    (∀ x ∈ o.parts, x.lpos < 64) ∧ g.threads ≠ [] ∧ (∀ x ∈ o.parts, x.size = 4 ∨ x.size = 8 ∨ x.size = 16) ∧ o.whole = true := by
  decide +kernel

theorem met_LoadsReturn_kinds : ∀ x ∈ loads,
    let g := returning x.1 x.2
    sizeBytes (if x.2.size = 16 then 6 else if x.2.size = 8 then 5 else 4) = x.2.size ∧ (withGang g).lines = [] ∧ (withGang g).wbuf = [] ∧
    findTeam (withGang g) g.ctx g.grid 0 = some team ∧ x.2.dev = 0 ∧ (∀ t ∈ g.threads, findThread g t.lpos = some t) ∧
    (∀ t ∈ g.threads, ∀ e ∈ t.inflight, e.reg = x.2.reg) := by
  decide +kernel

/-- A line that a cache holds, and the machine of a load of its word. -/
def copied (h : Holder) : CacheLine := ⟨h, 0x601000 / 128, List.replicate 128 7, 5000⟩

/-- The machine of a load of a word from home die `home`, with a store of the core in the buffer. -/
def copies (l : List CacheLine) : State := { withGang (returning (.load 4 false) { loading with home := 1 }) with lines := l, wbuf :=
  [⟨901, 5, 3, 1, 0, true, [{ loading with pa := 0x601001, size := 2, x := 0x0908 }], 0, none⟩] }

theorem held_copy (h : Holder) (die : Nat) : heldLine (copies [copied h]) h die (0x601000 / 128) = some (copied h) := by
  have now : dieNow (copies [copied h]) die < (copied h).expiry := Nat.lt_of_le_of_lt (Nat.sub_le _ _) (by decide : 1000 < 5000)
  have lines : (copies [copied h]).lines = [copied h] := rfl
  rw [heldLine, lines, List.find?_cons_of_pos]
  simp [now, show (copied h).holder = h from rfl, show (copied h).line = 0x601000 / 128 from rfl]

theorem met_LoadsReturn_copies :
    let g := returning (.load 4 false) { loading with home := 1 }
    let o := { op0 with kind := .load 4 false, parts := [{ loading with home := 1 }] }
    (∀ l ∈ [[copied (.l1 5)], [copied (.rdc 0)], []],
      findGang (copies l) 5 3 = some g ∧ findOp g o.id = some o ∧ opBlocked (copies l) g o = false ∧ o.whole = true ∧ (copies l).privLines = [] ∧
      loading.pa % 128 + loading.size ≤ 128 ∧ homeDie 1 (loading.pa / 128 * 128) ≠ coreDie 5 ∧ homeDie 0 (loading.pa / 128 * 128) = coreDie 5 ∧
      ∃ b rest p, (copies l).wbuf = b :: rest ∧ b.core = 5 ∧ b.parts = [p] ∧ p.tgt = 0 ∧ 1 < p.size) ∧
    heldLine (copies [copied (.l1 5)]) (.l1 5) (coreDie 5) (loading.pa / 128) = some (copied (.l1 5)) ∧
    heldLine (copies [copied (.rdc 0)]) (.rdc 0) (coreDie 5) (loading.pa / 128) = some (copied (.rdc 0)) ∧
    heldLine (copies [copied (.rdc 0)]) (.l1 5) (coreDie 5) (loading.pa / 128) = none ∧ heldLine (copies []) (.l1 5) (coreDie 5) (loading.pa / 128) = none ∧
    seenBytes (copies []) 5 (copied (.l1 5)).bytes 0x601000 4 = [7, 8, 9, 7] := by
  refine ⟨fun l h => ?_, held_copy _ _, held_copy _ _, rfl, rfl, by decide +kernel⟩
  refine ⟨?_, ?_, ?_, rfl, rfl, by decide +kernel, by decide +kernel, by decide +kernel, _, _, _, rfl, rfl, rfl, rfl, by decide⟩
  all_goals
    simp only [List.mem_cons, List.not_mem_nil, or_false] at h
    rcases h with rfl | rfl | rfl <;> decide +kernel

/-- A gang whose register `s20` is in flight for a `SMEM` load or the read of an adjoint. -/
def scalarReturning (kind : OutKind) (x : LanePart) : Gang :=
  { gang with sflight := [⟨900, 20, false, false, none⟩], out := [{ op0 with kind := kind, parts := [x] }] }

/-- The machine of such an operation, with bytes at 0x601000. -/
def scalarWorld (kind : OutKind) (x : LanePart) (b : List Byte) : State := memWrite (withGang (scalarReturning kind x)) 0x601000 b

theorem met_LoadsReturn_scalar : ∀ x ∈ [(OutKind.loadScalar 1, { loading with lpos := 64 }),
      (.adjRead, { loading with lpos := 64, size := 16, off := rmodeCode .rne, x := 96 })],
    let s := scalarWorld x.1 x.2 (toBytes 16 3)
    let g := scalarReturning x.1 x.2
    let o := { op0 with kind := x.1, parts := [x.2] }
    findGang s 5 3 = some g ∧ findOp g o.id = some o ∧ opBlocked s g o = false ∧ s.lines = [] ∧ s.wbuf = [] ∧ s.privLines = [] ∧
    x.2.pa % 128 + x.2.size ≤ 128 ∧ (∀ e ∈ g.sflight, e.reg = x.2.reg) ∧
    (x.1 = .adjRead → rmodeOf x.2.off = some .rne ∧
      after (.loadReturn 5 3 900) s (fun u => after (.loadReturn 5 3 900) u (fun v => v == u) &&
        after (.loadReturn 5 3 900) { u with dtb := u.dtb + 48 } (fun v => (findGang v 5 3).any (fun k =>
          k.sflight == [⟨900, 20, false, false, some 0x40400000⟩] && k.out == []))) = true) := by decide +kernel

theorem test_load_in_two : let s := withGang (returning (.load 6 true) { loading with tgt := 1, size := 16 })
    after (.loadReturn 5 3 900) { s with hostMem := sparseWriteRun memDefault [] 0x601000 (toBytes 16 77) } (fun u =>
      (findGang u 5 3).any (fun k => k.out.any (fun o => o.parts == [] && o.got.length == 1)) &&
      after (.loadReturn 5 3 900) { u with dtb := u.dtb + 48 } (fun v => (findGang v 5 3).any (fun k =>
        k.out == [] && (k.threads.map (·.inflight)).head? == some [⟨900, 20, false, false, some 77⟩]))) = true := by decide +kernel

/-- A load of the private word of the first thread, and the machine in which its core holds the word or not. -/
def privLoad : Gang := returning (.loadPriv 4) { loading with va := 4 }

/-- The machine in which the core of that load holds `l`. -/
def privWorld (l : List PrivLine) : State := { withGang privLoad with privLines := l }

theorem met_LoadsReturn_uncached : uncached (withGang (returning (.load 4 false) loading)) 5 := by
  unfold uncached
  decide +kernel

theorem met_LoadsReturn_private :
    (let s := privWorld [privLine 1]
     let o := { op0 with kind := .loadPriv 4, parts := [{ loading with va := 4 }] }
     findGang s 5 3 = some privLoad ∧ findOp privLoad o.id = some o ∧ opBlocked s privLoad o = false ∧
      ∀ x ∈ o.parts, ∀ t ∈ privLoad.threads, t.lpos = x.lpos → ∀ w ∈ privWords x.va x.size, privHeld s privLoad (privAddr s privLoad t w) = true) ∧
    (let s := privWorld []
     let o := { op0 with kind := .loadPriv 4, parts := [{ loading with va := 4 }] }
     findGang s 5 3 = some privLoad ∧ findOp privLoad o.id = some o ∧ opBlocked s privLoad o = false ∧ l1Room s privLoad.core 1 ∧
      ∀ t ∈ privLoad.threads, t.lpos = 0 → findThread privLoad 0 = some t ∧ privHeld s privLoad (privAddr s privLoad t 1) = false ∧
        privCheck s privLoad t 4 4 = none) := by
  unfold l1Room
  decide +kernel

/-- A store of four bytes in the core's buffer, whole or not. -/
def buffered (whole : Bool) : BufStore :=
  ⟨901, 5, 3, 1, 0, whole, if whole then [{ loading with x := 0x01020304 }] else
    [{ loading with size := 1, x := 4 }, { loading with pa := 0x601001, size := 1, x := 3, off := 1 }], 0, none⟩

theorem met_StoresArrive : (∀ whole ∈ [true, false],
      let s := { world with wbuf := [buffered whole] }
      let b := buffered whole
      s.wbuf.find? (fun x => x.core == b.core && x.id == b.id) = some b ∧ (∀ x ∈ b.parts, x.tgt = 0 ∧ olderStore s b x = false) ∧ b.parts ≠ [] ∧ b.tape = none ∧
        storeReached s b = true ∧ (b.parts.map (·.pa)).Nodup) ∧
    (let g := { gang with out := [{ op0 with kind := .crewStore, parts := [{ loading with dev := 0 }] }] }
     findGang (withGang g) 5 3 = some g ∧ findOp g 900 = some { op0 with kind := .crewStore, parts := [loading] } ∧ g.core = 5 ∧
      opBlocked (withGang g) g { op0 with kind := .crewStore, parts := [loading] } = false ∧ findTeam (withGang g) g.ctx g.grid 0 = some team) ∧
    (let o := { op0 with kind := .external, parts := [{ loading with tgt := 1 }] }
     let g := { gang with out := [o] }
     opGang (withGang g) o.id = some (g, o) ∧ opBlocked (withGang g) g o = false ∧ o.whole = true ∧ ∀ x ∈ o.parts, x.tgt = 1) := by
  decide +kernel

theorem met_AtomicsExecute : ∀ op ∈ [AtomicOp.add, .cas, .fadd, .fadda true, .lr, .sc, .fmin],
    let o := { op0 with kind := .atomic op false .rne 0, parts := [{ loading with size := atomSize op false }] }
    let g := { returning (.atomic op false .rne 0) { loading with size := atomSize op false } with core := 5 }
    findGang (withGang g) 5 3 = some g ∧ g.core = 5 ∧ g.slot = 3 ∧ findOp g o.id = some o ∧ opBlocked (withGang g) g o = false ∧
    (findThread g 0).isSome = true ∧ ∀ t, findThread g 0 = some t →
      (∀ e ∈ t.inflight, e.op = o.id → e.data = false → e.reg = 20 ∨ e.reg = 21) ∧ ∃ e ∈ t.inflight, e.op = o.id ∧ e.data = false ∧ e.reg = 20 := by
  intro op hop
  have key : ∀ op ∈ [AtomicOp.add, .cas, .fadd, .fadda true, .lr, .sc, .fmin],
      let o := { op0 with kind := .atomic op false .rne 0, parts := [{ loading with size := atomSize op false }] }
      let g := { returning (.atomic op false .rne 0) { loading with size := atomSize op false } with core := 5 }
      findGang (withGang g) 5 3 = some g ∧ findOp g o.id = some o ∧ opBlocked (withGang g) g o = false ∧
      findThread g 0 = some { thread 0 with inflight := [⟨900, 20, false, false, none⟩] } := by decide +kernel
  obtain ⟨a, b, c, d⟩ := key op hop
  refine ⟨a, rfl, rfl, b, c, Option.isSome_of_mem d, fun t ht => ?_⟩
  cases d.symm.trans ht
  show (∀ e ∈ [(⟨900, 20, false, false, none⟩ : Inflight)], e.op = 900 → e.data = false → e.reg = 20 ∨ e.reg = 21) ∧
    ∃ e ∈ [(⟨900, 20, false, false, none⟩ : Inflight)], e.op = 900 ∧ e.data = false ∧ e.reg = 20
  decide +kernel

theorem met_CacheAndTranslationEvents : findGang world 5 3 = some gang ∧ sparseWf 0 world.carve = true ∧
    walkTables world (coreDie 5) 1 0x601000 = .ok (got ⟨0, 0⟩ (walkTables world (coreDie 5) 1 0x601000)) ∧
    tlbFind world 5 1 0x601000 = none := by
  have found : fine (walkTables world (coreDie 5) 1 0x601000) = true := by decide +kernel
  exact ⟨by decide +kernel, by decide +kernel, fine_got _ _ found, by decide +kernel⟩

theorem met_CacheAndTranslationEvents_page : [leafHash (memBytes world 0 4096)] ≠ [] := List.cons_ne_nil _ _

/-! ### Threads that spawn and suspend, guards, postings -/

/-- A gang with start addresses in `v[2:3]`. -/
def spawning : Gang := gangWith [] (fun t => { t with v := [(2, toWord (0x40001000 + 2 * (t.lpos % 2)))] })

theorem met_SpawnAndSuspendComplete : Executes (withGang spawning) spawning path ∧ memoriesWf (withGang spawning) ∧
    gangMode (withGang spawning) spawning = 0 ∧ spawning.gwct.toNat ≤ coreNow (withGang spawning) spawning.core ∧
    findCtx (withGang spawning) spawning.ctx = some tenant ∧ tenant.densize ≠ 0 ∧ curSlot (withGang spawning) spawning (.denArea 1) = true ∧
    (withGang spawning).dens = [] ∧ (∀ h ∈ (withGang spawning).gangs, ∀ q ∈ h.parked, q.cause ≠ .noDen) ∧ (∀ t ∈ spawning.threads, t.spawned = false) ∧
    (activeThreads (withGang spawning) spawning).length ≤ (freeDenSlots tenant).length ∧
    (activeThreads (withGang spawning) spawning).length < gridGangSize (withGang spawning) spawning.ctx spawning.grid ∧
    (∀ n ∈ freeDenSlots tenant, grantRun tenant false true (tenant.denbase.toNat + 128 * n) 128 = true) ∧
    ∀ t ∈ activeThreads (withGang spawning) spawning, (vpair t (2#7).toNat).getLsbD 0 = false := by
  have idle : Idle spawning := by constructor <;> decide +kernel
  have wf : memoriesWf (withGang spawning) := by unfold memoriesWf; decide +kernel
  exact ⟨⟨by decide +kernel, by decide +kernel, idle⟩, wf, by decide +kernel⟩

theorem met_SpawnAndSuspendComplete_targets :
    ∃ l : List Dword, l.length ≤ 32 ∧ ∀ t ∈ activeThreads (withGang spawning) spawning, vpair t (2#7).toNat ∈ l :=
  ⟨[0x40001000, 0x40001002], by decide +kernel⟩

/-- A gang that suspends: resume address in `s[8:9]`, value in `s[10:11]`, control word (16 registers from `v112`, kind 1, index 255) in
`s12`, records at 0x10000 and each 128 bytes on. -/
def suspending : Gang :=
  gangWith [(8, 0x40000200#32), (10, 77#32), (12, toWord (112 * 2 ^ 16 + 16 * 2 ^ 10 + 255 * 4 + 1))]
    (fun t => { t with v := [(2, toWord (0x10000 + 128 * t.lpos))] })

/-- The translation of a record's address. -/
def recordAt (t : Thread) : Trans := walk (withGang suspending) (vpair t 2).toNat 128 .write

theorem met_SpawnAndSuspendComplete_suspend : Executes (withGang suspending) suspending path ∧
    suspLegal (gangVregs (withGang suspending) suspending) (spair suspending (8#9).toNat) (sreg suspending ((8#9).toNat + 4)).toNat ∧
    gangVregs (withGang suspending) suspending ≤ 128 ∧ findGrid (withGang suspending) suspending.ctx suspending.grid = some grid ∧
    (∀ l ∈ (withGang suspending).privLines, l.core ≠ suspending.core) ∧
    (∀ t ∈ activeThreads (withGang suspending) suspending, (vpair t (2#7).toNat).toNat % 128 = 0 ∧ pteTgt (recordAt t).pte = 0 ∧
      translateChecked (withGang suspending) suspending.core suspending.ctx (vpair t (2#7).toNat).toNat 128 .write = .ok (recordAt t)) ∧
    (∀ (i j : Nat) (t t' : Thread), suspending.threads[i]? = some t → suspending.threads[j]? = some t' → i ≠ j →
      transPa (recordAt t) (vpair t 2).toNat / 128 ≠ transPa (recordAt t') (vpair t' 2).toNat / 128) := by
  have all : ∀ t ∈ activeThreads (withGang suspending) suspending, (vpair t (2#7).toNat).toNat % 128 = 0 ∧ pteTgt (recordAt t).pte = 0 ∧
      fine (translateChecked (withGang suspending) suspending.core suspending.ctx (vpair t (2#7).toNat).toNat 128 .write) = true := by
    decide +kernel
  have apart : (suspending.threads.map (fun t => transPa (recordAt t) (vpair t 2).toNat / 128)).Nodup := by decide +kernel
  have idle : Idle suspending := by constructor <;> decide +kernel
  have legal : suspLegal (gangVregs (withGang suspending) suspending) (spair suspending (8#9).toNat) (sreg suspending ((8#9).toNat + 4)).toNat := by
    unfold suspLegal; decide +kernel
  have runs : Executes (withGang suspending) suspending path := ⟨by decide +kernel, by decide +kernel, idle⟩
  have each := fun t ht => And.intro (all t ht).1 (And.intro (all t ht).2.1 (fine_got ⟨0, 0⟩ _ (all t ht).2.2))
  refine ⟨runs, legal, by decide +kernel, by decide +kernel, by decide +kernel, each, fun i j t t' hi hj ne eq => ?_⟩
  obtain ⟨li, hi⟩ := List.getElem?_eq_some_iff.mp hi
  obtain ⟨lj, hj⟩ := List.getElem?_eq_some_iff.mp hj
  refine ne ((List.getElem_inj (i := i) (j := j) (h₀ := by simpa using li) (h₁ := by simpa using lj) apart).mp ?_)
  simpa [hi, hj] using eq

theorem met_ConvergenceAndGuardsComplete : Executes world gang path ∧ gangTeam world gang = some team ∧
    (1 ≤ (sreg gang (6#9).toNat).toNat ∧ (sreg gang (6#9).toNat).toNat ≤ 1024 ∧ (convReg team 4).count = 0 ∧ (convReg team 4).size = 0) ∧
    sparseGet .isFalse team.guards 2 ≠ .isPending ∧
    (let tm := { team with conv := [(4, ⟨3, 1, none⟩)], guards := [(2, Guard.isPending)] }
     let s := { world with teams := [tm] }
     gangTeam s gang = some tm ∧ (convReg tm 4).count ≠ 0 ∧ (convReg tm 4).count < (convReg tm 4).size ∧
      (convReg tm 4).size ≤ (convReg tm 4).count + (sreg gang (6#9).toNat).toNat ∧ sparseGet .isFalse tm.guards 2 = .isPending) :=
  ⟨world_executes, by decide +kernel⟩

/-- A gang with an operand block at `s8`. -/
def posting (l : List (Nat × Nat)) : Gang :=
  gangWith (sparseSetAll 0#32 [] (l.flatMap (fun x => [(x.1, toWord x.2), (x.1 + 1, toWord (x.2 / 2 ^ 32))]))) id

/-- Its team with two tiles and two slices and convergence register 3 four short of its set. -/
def postingTeam : Team := { team with tiles := [3, 5], slices := [1, 2], conv := [(3, ⟨8, 4, none⟩)] }

/-- The machine of that gang and that team. -/
def postingWorld (g : Gang) : State :=
  { world with
    gangs := [g], teams := [postingTeam]
    grids := [{ grid with kernel := { kernel with acc := 2 } }] }

/-- A row sum, and a matrix product gated by a register. -/
def rowPosting : Gang := posting [(8, 15 * 2 ^ 32), (10, 0x10000), (12, 64), (32, 0x20000)]

/-- A matrix product gated by a convergence register, 15 for none. -/
def mmaPosting (c : Nat) : Gang := posting [(8, 2 * 2 ^ 46 + 2 * 2 ^ 32), (10, 2 * 2 ^ 34), (32, c * 16)]

theorem met_EngineCommandsPost :
    (∃ x ∈ otherPostings 9 16 4 false, x.instr = .rowopRedSum 9 16 4 false ∧ postable (postingWorld rowPosting) rowPosting x 9 ∧
      curSlot (postingWorld rowPosting) rowPosting (.queueSlot x.unit) = true) ∧
    (∃ x ∈ matrixPostings 9 16 4 true, x.instr = .mma 9 16 4 true ∧ postable (postingWorld (mmaPosting 15)) (mmaPosting 15) x 9 ∧
      convOf (makeCmd (postingWorld (mmaPosting 15)) (mmaPosting 15) x.kind 9 x.regs 0) = 15 ∧
      curSlot (postingWorld (mmaPosting 15)) (mmaPosting 15) (.queueSlot x.unit) = true) ∧
    ∃ x ∈ matrixPostings 9 16 4 true, x.instr = .mma 9 16 4 true ∧ postable (postingWorld (mmaPosting 3)) (mmaPosting 3) x 9 ∧
      convOf (makeCmd (postingWorld (mmaPosting 3)) (mmaPosting 3) x.kind 9 x.regs 0) = 3 ∧
      (onPath (mmaPosting 3) path).length = 4 ∧ gangTeam (postingWorld (mmaPosting 3)) (mmaPosting 3) = some postingTeam ∧
      (convReg postingTeam 3).first = none ∧ (convReg postingTeam 3).size = 8 ∧ (convReg postingTeam 3).count + 4 = 8 ∧
      (convReg { postingTeam with conv := [(3, ⟨8, 2, none⟩)] } 3).count + 4 < 8 ∧ (postingWorld (mmaPosting 3)).cmds = [] := by
  unfold postable
  exact ⟨⟨_, .head _, by decide +kernel⟩, ⟨_, .head _, by decide +kernel⟩, _, .head _, by decide +kernel⟩

theorem met_EngineCommandsPost_executes : Executes (postingWorld rowPosting) rowPosting path ∧
    Executes (postingWorld (mmaPosting 3)) (mmaPosting 3) path := by
  have idle : ∀ g ∈ [rowPosting, mmaPosting 3], Idle g ∧ curGang (postingWorld g) = some g := by
    simp only [List.forall_mem_cons, List.not_mem_nil, false_implies, implies_true, and_true]
    refine ⟨⟨?_, by decide +kernel⟩, ?_, by decide +kernel⟩ <;> constructor <;> decide +kernel
  exact ⟨⟨(idle _ (.head _)).2, by decide +kernel, (idle _ (.head _)).1⟩, (idle _ (.tail _ (.head _))).2, by decide +kernel,
    (idle _ (.tail _ (.head _))).1⟩

end Sys2Proof.Tests
end

