-- ==== Sys2Proof/Tests/Witness3.lean ====
section
/-! SUPPORT. For each statement about engines, states and operands that meet its hypotheses, and what the event does there. -/

set_option Elab.async false

namespace Sys2Proof.Tests

open Sys2Proof.Machine Sys2Proof.Claims

/-- The state after an instruction or an event that has one. -/
def next (i : Instr) (s : State) : State :=
  match exec i s with
  | .next u => u
  | _ => s

/-- A row command with no operands. -/
def cmd0 : EngCmd :=
  { id := 0, kind := .row 0, ctx := 1, grid := 0, team := some 0, gang := 50, core := 5, slot := 3, cluster := 1, pc := 0, tl := 9, guard := none,
    sampled := none, ops := [], rm := .rne, anchor := 0, stage := .queued, readyAt := none, unit := 0, units := 0, err := false,
    flags := flagNone, aged := false, gwct := 0, key := none, entered := false, joins := [], order := 0, aux := [], far := [], acks := [],
    born := 0 }

/-- The machine a while later, when its messages have arrived. -/
def later (s : State) : State := { s with dtb := s.dtb + 1000 }

/-- The first command of a state. -/
def cmdOf (s : State) : EngCmd := s.cmds.head?.getD cmd0

/-- A command goes on and meets a check. -/
def goes (u : State) (c : EngCmd) (f : EngCmd → Bool) : Bool :=
  u.cmds.any (fun c' => c'.id == c.id && c'.kind == c.kind && c'.ops == c.ops && c'.tl == c.tl && f c')

/-- A command of an engine has completed: it is gone, and its timeline stands one higher. -/
def ends (s u : State) (c : EngCmd) (err : Bool) : Bool :=
  u.mem == s.mem && u.cmds.all (fun x => x.id != c.id) && (findGrid u c.ctx c.grid).any (fun gr' =>
    sparseGet (0, 0) gr'.tls c.tl == ((sparseGet (0, 0) ((findGrid s c.ctx c.grid).map (·.tls) |>.getD []) c.tl).1 + 1,
      (sparseGet (0, 0) ((findGrid s c.ctx c.grid).map (·.tls) |>.getD []) c.tl).2 + (if err then 1 else 0)))

/-! ### The row engine -/

/-- A sum of a row of sixteen FP32 columns has been posted: its source at 0x10000 holds 1, an infinity, 0.5 and zeros. -/
def rowQueued : State :=
  later <| next (.rowopRedSum 9 16 4 true) <| memWrite (postingWorld rowPosting) 0x10000 (toBytes 12 (0x3F800000 + 0x7F800000 * 2 ^ 32 + 0x3F000000 * 2 ^ 64))

theorem met_RowEngineWorks_start :
    let s := rowQueued
    let c := cmdOf (sampleHeads s)
    firstCmd (sampleHeads s) (fun x => isRow x && x.cluster == 1 && x.stage == .queued) = some c ∧ findCmd (sampleHeads s) c.id = some c ∧
    (∀ x ∈ s.cmds, isRow x = true → x.cluster = 1 → x.stage ≠ .running ∧ heldEntries s x = false) ∧ guardAllows c = true ∧
    resident s c.ctx = true ∧ cmdReached s c = true ∧ unitTraceHeld s (cmdSource c) = false ∧ c.kind ≠ .row 3 ∧
    after (.rowCommandStart 1) s (fun u => goes u c (fun c' => c'.stage == .running && c'.unit == c.unit) && u.mem == s.mem && u.gangs == s.gangs) =
      true := by decide +kernel

/-- The command has started. -/
def rowRunning : State := next (.rowCommandStart 1) rowQueued

/-- The translations of a command's next chunk. -/
def chunkWalks (s : State) : List (Nat × Trans) := got [] (engExtents s (cmdOf s) (chunkExtents (cmdOf s)))

theorem met_RowEngineWorks_chunk :
    let s := rowRunning
    let c := cmdOf s
    firstCmd s (fun x => isRow x && x.cluster == 1 && x.stage == .running) = some c ∧ findCmd s c.id = some c ∧ unitFree s c = true ∧
    updUnread c = false ∧ engExtents s c (chunkExtents c) = .ok (chunkWalks s) ∧ earlierPlaces s c = [] ∧ c.kind = .row 0 ∧ rowSub c ≠ 5 ∧
    (chunkAt c).2.1 + (chunkAt c).2.2 = rowLen c ∧ (rowRead s c (chunkWalks s) (chunkAt c).1 0 (rowLen c)).poison = false ∧
    itemStage c (rowRead s c (chunkWalks s) (chunkAt c).1 0 (rowLen c)) (rowItem c (chunkAt c).1 (rowRead s c (chunkWalks s) (chunkAt c).1 0 (rowLen c)) 0) = 0 := by
  have found : fine (engExtents rowRunning (cmdOf rowRunning) (chunkExtents (cmdOf rowRunning))) = true := by decide +kernel
  refine ⟨?_, ?_, ?_, ?_, fine_got _ _ found, ?_⟩ <;> decide +kernel

theorem test_row_chunk : after (.rowChunk 1) rowRunning (fun u =>
    goes u (cmdOf rowRunning) (fun c' => c'.unit == 1 && c'.stage == .finished) && memBytes u 0x20000 4 == toBytes 4 0x7F800000) = true := by
  decide +kernel

/-- A row whose source is at `va`. -/
def rowFrom (va : Nat) : State :=
  next (.rowCommandStart 1) <| later <| next (.rowopRedSum 9 16 4 true) <|
    postingWorld (posting [(8, 15 * 2 ^ 32), (10, va), (12, 64), (32, 0x20000)])

/-- The kind of fault that the next chunk of a row command meets. -/
def chunkFault (s : State) : Option FaultKind :=
  match engExtents s (cmdOf s) (chunkExtents (cmdOf s)) with
  | .error f => some f.1
  | .ok _ => none

/-- A row whose source is not mapped is held; one in a peer's memory is denied to the engine. -/
theorem met_RowEngineWorks_fault :
    (let s := rowFrom 0x140000000
     let c := cmdOf s
     firstCmd s (fun x => isRow x && x.cluster == 1 && x.stage == .running) = some c ∧ findCmd s c.id = some c ∧ unitFree s c = true ∧
      updUnread c = false ∧ chunkFault s = some .page ∧ waitCount s (clusterDie c.cluster) < 4096 ∧ s.waiters = [] ∧
      after (.rowChunk 1) s (fun u => u.hostMem == s.hostMem && u.tiles == s.tiles && u.teams == s.teams && goes u c (fun c' => c'.unit == c.unit &&
        c'.key.any (fun k => u.waits.any (fun w => w.die == 0 && w.ctx == 1 && w.byPage == k.1 && w.key == k.2 && w.items.contains (.engine c.id))))) =
        true) ∧
    (let s := rowFrom 0x100000000
     let c := cmdOf s
     firstCmd s (fun x => isRow x && x.cluster == 1 && x.stage == .running) = some c ∧ unitFree s c = true ∧ chunkFault s = some .access ∧
      walkDenied s (clusterDie c.cluster) c.ctx 0x100000000 = false ∧
      after (.rowChunk 1) s (fun u => u.mem == s.mem && goes u c (fun c' => c'.stage == .finished && c'.err)) = true) := by decide +kernel

theorem met_RowEngineWorks_end : ∀ stage ∈ [EngStage.finished, .dropped true, .dropped false],
    let s := { rowRunning with cmds := rowRunning.cmds.map (fun c => { c with stage := stage, unit := 1 }) }
    let c := cmdOf s
    firstStarted s (fun x => isRow x && x.cluster == 1) = some c ∧ cmdSettled s c = true ∧ c.key = none ∧ unitTraceHeld s (cmdSource c) = false ∧
    c.stage = stage ∧ statusDue c = false ∧
    after (.rowCommandComplete 1) s (fun u => ends s u c (stage == .dropped true) &&
      u.gangs == postersWith s c (fun g => { g with nfcnt := g.nfcnt + toWord (c.aux.getD 2 0) })) = true := by decide +kernel

/-- The same with a status word at 0x30000. -/
def rowStatusDue : State :=
  let s := next (.rowCommandStart 1) <| later <| next (.rowopRedSum 9 16 4 true) <|
    postingWorld (posting [(8, 15 * 2 ^ 32), (10, 0x10000), (12, 64), (32, 0x20000), (38, 0x30000)])
  { s with cmds := s.cmds.map (fun c => { c with stage := .finished, unit := 1, aux := [3, 5, 7, 1], err := true }) }

theorem met_RowEngineWorks_status :
    let s := rowStatusDue
    let c := cmdOf s
    firstStarted s (fun x => isRow x && x.cluster == 1) = some c ∧ cmdSettled s c = true ∧ c.key = none ∧
    unitTraceHeld s (cmdSource c) = false ∧ c.stage = .finished ∧ statusDue c = true ∧
    findCmd s c.id = some c ∧ fine (engExtents s c [⟨0, rowStatus c, 16, .write⟩]) = true ∧
    after (.rowCommandComplete 1) s (fun u => goes u c (fun c' => !(statusDue c') && c'.stage == .finished) &&
      ofBytes (memBytes u 0x30000 16) == c.aux.getD 2 0 * 2 ^ 96 + c.aux.getD 1 0 * 2 ^ 64 + c.aux.getD 0 0 * 2 ^ 32 +
        (if c.err then 2 ^ 15 else 0) + c.aux.getD 3 0 % 2 * 2 ^ 14 + (if c.aux.getD 1 0 = 0 then 0 else 2 ^ 13) + c.flags.toNat) = true := by
  decide +kernel

/-! ### The matrix engine -/

/-- The team of the matrix tests: two tiles, two slices, sixteen bytes of A. -/
def tiled : Team :=
  { team with tiles := [3, 5], slices := [1, 2], mem := sparseWriteRun memDefault [] 0 (toBytes 16 0x3C003C003C0040003C003C003C004000) }

/-- A product of 16 by 16 by 32 elements has been posted; its weight slices hold two columns and zeros. -/
def passQueued : State :=
  later <| next (.mma 9 16 4 true) { weightWrite (postingWorld (mmaPosting 15)) tiled 0 (toBytes 512 (0x3C00400038003C00 * 2 ^ 256 + 0x3C00)) with teams := [tiled] }

theorem met_MatrixEngineGrants :
    let s := passQueued
    let s1 := sampleHeads s
    let c := cmdOf s1
    (engineBusy s1 1).length < 2 ∧ s1.cmds = [] ++ c :: [] ∧ findCmd s1 c.id = some c ∧ (c.cluster = 1 ∧ c.kind ≠ .mmat ∧ isReady s1 c = true) ∧
    after (.rookGrant 1) s (fun u => goes u c (fun c' => c'.stage == .running && c'.unit == c.unit && c'.aux == [s.clk] && c'.joins == []) &&
      u.mem == s.mem && u.tiles == s.tiles) = true := by decide +kernel

/-- The product has been granted. -/
def passGranted : State := { next (.rookGrant 1) passQueued with clk := 2000 }

theorem met_MatrixEngineGrants_start :
    let s := passGranted
    let c := cmdOf s
    s.cmds.find? (fun x => isPass x && x.cluster == 1 && passReady s x) = some c ∧ c.joins = [] ∧ findCmd s c.id = some c ∧
    after (.passStart 1) s (fun u => goes u c (fun c' => c'.unit == 1 && c'.stage == c.stage && c'.aux[1]? == some s.clk &&
      (List.range (passM c)).all (fun i => c'.aux[3 + i]? == some (aSlice s c i).1)) && u.mem == s.mem && u.tiles == s.tiles) = true := by
  decide +kernel

theorem met_MatrixEngineGrants_aging :
    let s := { passQueued with cmds := [{ cmdOf passQueued with readyAt := some 0 }] }
    let c := cmdOf s
    findCmd { s with clk := 16384 } c.id = some c ∧ c.cluster = 1 ∧ c.stage = .queued ∧ c.readyAt = some 0 ∧ 0 + 16384 ≤ ({ s with clk := 16384 }).clk ∧
    ¬ (0 + 16384 ≤ ({ s with clk := 16383 }).clk) ∧
    after (.rookAging 1 c.id) { s with clk := 16384 } (fun u => u.cmds.map (·.aged) == [true]) = true := by decide +kernel

/-- Four members of a join, in the clusters of table 0, and a fourth with another N. -/
def joining (d : Nat) : State :=
  { passQueued with
    cmds := (List.range 4).map (fun k => { cmdOf passQueued with
      id := 1000 + k, kind := .mmat, cluster := k, gang := 60 + k
      ops := (cmdOf passQueued).ops.map (fun x => if x.1 = 11 ∧ k = 3 then (11, x.2 + toWord d) else x) }) }

theorem met_MatrixEngineGrants_join : ∀ d ∈ [0, 1],
    let s := joining d
    let s1 := sampleHeads s
    readyMmat s1 (0 * 4 + sparseGet 0 s.dealer 0 % 4) (fun _ => true) = some (cmdOf s1) ∧
    joinOf s1 0 (cmdOf s1) = some s1.cmds ∧ (s1.cmds.map (·.id)).Nodup ∧ (∀ x ∈ s1.cmds, findCmd s1 x.id = some x) ∧
    joinAgrees s1.cmds = (d == 0) ∧
    after (.dealerExamine 0) s (fun u => u.dealer == sparseSet 0 s.dealer 0 1 && s1.cmds.all (fun x => goes u x (fun c' =>
      c'.joins == [1000, 1001, 1002, 1003] && (if d = 0 then c'.stage == .running else c'.stage == .finished && c'.err)))) = true := by
  decide +kernel

/-- The pass has run its time. -/
def passRun : State := { next (.passStart 1) passGranted with clk := 100000 }

theorem met_MatrixEngineWorks :
    let s := passRun
    let c := cmdOf s
    c ∈ s.cmds ∧ findCmd s c.id = some c ∧ isPass c = true ∧ c.cluster = 1 ∧ c.stage = .running ∧ c.unit = 1 ∧ c.joins = [] ∧
    c.aux.getD 1 0 + passClocks c ≤ s.clk ∧ unitTraceHeld s (cmdSource c) = false ∧
    (∀ x ∈ s.cmds, isPass x = true → x.cluster = 1 → x.unit = 1 → x = c) ∧ sparseWf 0#32 s.tiles = true ∧
    (tileOrigin c).1 + passM c ≤ 128 ∧ (tileOrigin c).2 + passN c ≤ 128 := by decide +kernel

theorem met_MatrixEngineWorks_pass :
    let s := passRun
    let c := cmdOf s
    passMembers s c = [c] ∧ ∀ m ∈ passMembers s c, findCmd s m.id = some m ∧ isPass m = true ∧ m.stage = .running ∧ m.unit = 1 ∧
      m.aux.getD 1 0 + passClocks m ≤ s.clk := by decide +kernel

/-- The four members of a join have run their time, or have come to their end. -/
def joinedRun (stage : EngStage) : State :=
  { joining 0 with
    clk := 100000
    cmds := (joining 0).cmds.map (fun c => { c with stage := stage, unit := 1, aux := [0, 1], joins := [1000, 1001, 1002, 1003] }) }

theorem met_MatrixEngineWorks_join :
    (let s := joinedRun .running
     let c := cmdOf s
     c.cluster = 0 ∧ passMembers s c = s.cmds ∧ ((passMembers s c).map (·.id)).Nodup ∧ unitTraceHeld s (cmdSource c) = false ∧
      (∀ x ∈ s.cmds, isPass x = true → x.cluster = 0 → x.unit = 1 → x = c) ∧
      ∀ m ∈ s.cmds, findCmd s m.id = some m ∧ isPass m = true ∧ m.stage = .running ∧ m.unit = 1 ∧ m.aux.getD 1 0 + passClocks m ≤ s.clk) ∧
    (let s := joinedRun .finished
     let c := cmdOf s
     oldestGranted s 0 = some c ∧ ∀ m ∈ passMembers s c, findCmd s m.id = some m ∧ cmdSettled s m = true ∧ m.key = none ∧
      unitTraceHeld s (cmdSource m) = false ∧ m.stage ≠ .running ∧ (oldestGranted s m.cluster).any (fun x => x.id == m.id) = true) := by
  decide +kernel

/-- A command of the matrix engine that has been granted, its source at 0x10000. -/
def unitReady (i : Instr) (l : List (Nat × Nat)) : State :=
  next (.rookGrant 1) <| later <| next i { memWrite (postingWorld (posting l)) 0x10000 (toBytes 8 0x3F800000C0000000) with teams := [tiled] }

/-- A `WLOAD` of 64 bytes, an `ACCX.zero`, an `ACCX.ld` and a `QUANT`. -/
def wloadReady : State := unitReady (.wload 9 16 4 true) [(8, 0x10000), (32, 15 * 2 ^ 36)]
/-- `ACCX.zero` of 16 by 16 elements. -/
def zeroReady : State := unitReady (.accxZero 9 16 4 true) [(32, 3 * 2 ^ 30 + 15 * 16)]
/-- `ACCX.ld` of 16 by 16 elements. -/
def loadReady : State := unitReady (.accxLd 9 16 4 true) [(8, 0x10000), (32, 2 ^ 30 + 15 * 16)]
/-- `QUANT` of 32 by 32 elements. -/
def quantReady : State :=
  unitReady (.quant 9 16 4 true) [(8, 0x10000), (10, 0x20000), (12, 64), (32, 31 * 2 ^ 48 + 31 * 2 ^ 32 + 3 * 2 ^ 24 + 15 * 16)]

theorem met_MatrixEngineWorks_units : ∀ s ∈ [wloadReady, zeroReady, loadReady, quantReady],
    let c := cmdOf s
    s.cmds.find? (fun x => isMatrix x && !(isPass x) && x.cluster == 1 && engineMay s x) = some c ∧ findCmd s c.id = some c ∧
    regionPending s c = false ∧ fine (engExtents s c (unitExtents c)) = true ∧ sparseWf 0#32 s.tiles = true ∧ (tileOrigin c).2 + accN c ≤ 128 := by decide +kernel

theorem met_MatrixEngineWorks_wload :
    let c := cmdOf wloadReady
    let es : List Extent := [⟨0, blockPair c 0, min 4096 (wlLen c), .read⟩]
    c.kind = .wload ∧ fine (engExtents wloadReady c es) = true ∧ cmdAddrTeam wloadReady c (bitsOf (ctlWord c) 31 0) = some tiled ∧
    (engRead wloadReady c (got [] (engExtents wloadReady c es)) 0 (blockPair c 0) (min 4096 (wlLen c))).2 = false ∧
    after (.engineUnit 1) wloadReady (fun u => goes u c (fun c' => c'.unit == 1 && c'.stage == .finished) && u.mem == wloadReady.mem &&
      (weightRead u tiled 0 8).1 == toBytes 8 0x3F800000C0000000) = true := by decide +kernel

theorem met_MatrixEngineWorks_accx :
    (let c := cmdOf zeroReady
     c.kind = .accx ∧ accOp c = 3) ∧
    (let c := cmdOf loadReady
     c.kind = .accx ∧ accOp c = 1 ∧ (c.unit = 0 → regionPending loadReady c = false) ∧
      fine (engExtents loadReady c [⟨accSpace c, accElemAddr c c.unit 0, accN c * elemBytes (accFmt c), .read⟩]) = true) ∧
    after (.engineUnit 1) loadReady (fun u => goes u (cmdOf loadReady) (fun c' => c'.unit == 1 && c'.stage == .running) &&
      (List.range 3).map (fun j => tileAt u (regionKey loadReady (cmdOf loadReady) 0 0 j)) == [0xC0000000, 0x3F800000, 0]) = true := by
  decide +kernel

theorem met_MatrixEngineWorks_qnt :
    let c := cmdOf quantReady
    c.kind = .qnt 0 ∧ qSsp c ≠ 2 ∧ c.unit < qRows c ∧ qDsp c < 2 ∧
    fine (engExtents quantReady c (qExtents c false c.unit (qDst c) (rowBytes (qDfmt c) (qCols c)))) = true := by decide +kernel

theorem met_MatrixEngineWorks_end :
    let s := { wloadReady with cmds := [{ cmdOf wloadReady with stage := .finished, unit := 1 }] }
    let c := cmdOf s
    oldestGranted s 1 = some c ∧ c.cluster = 1 ∧ c.joins = [] ∧ cmdSettled s c = true ∧ c.key = none ∧ unitTraceHeld s (cmdSource c) = false ∧
    c.stage = .finished ∧ sparseWf (0, 0) grid.tls = true ∧
    passMembers s c = [c] ∧
    after (.matrixCommandComplete 1) s (fun u => ends s u c c.err && u.gangs == postersWith s c (fun g => gangOrFlags g c.flags)) = true := by
  decide +kernel

/-! ### The copy engine context -/

/-- A shape record: two dimensions of FP32 elements from 0x11000, six by three, a box of eight by two. -/
def shape : Nat := 0x11000 + 2 * 2 ^ 64 + 2 * 2 ^ 68 + 6 * 2 ^ 544 + 7 * 2 ^ 528 + 64 * 2 ^ 704 + 3 * 2 ^ 672 + 1 * 2 ^ 656

/-- A `LOAD` of that box from coordinates −1 and 2 has been posted: its first element is out of bounds, as is its second row. -/
def copyQueued : State :=
  later <| next (.copyLoad 9 16 4 true) <| memWrite (memWrite (postingWorld (posting [(8, 0x10000), (32, 0x2FFFFFFFF)])) 0x10000 (toBytes 256 shape))
    0x11080 (toBytes 8 0x2222222211111111)

theorem met_CopyEngineWorks_start :
    let s1 := sampleHeads copyQueued
    let c := cmdOf s1
    let es : List Extent := [⟨0, blockPair c 0, 256, .read⟩]
    let trs := got [] (engExtents s1 c es)
    let r := engRead s1 c trs 0 (blockPair c 0) 256
    let c1 := { c with aux := [ofBytes r.1] }
    firstCmd s1 (fun x => isCopy x && x.core == 5 && x.stage == .queued) = some c ∧ findCmd s1 c.id = some c ∧
    (∀ x ∈ copyQueued.cmds, isCopy x = true → x.core = 5 → x.stage ≠ .running) ∧ guardAllows c = true ∧ resident copyQueued c.ctx = true ∧
    cmdReached copyQueued c = true ∧ unitTraceHeld copyQueued (cmdSource c) = false ∧ c.unit = 0 ∧ c.aux = [] ∧ c.far = [] ∧ copyFn c = 0 ∧ blockPair c 0 % 64 = 0 ∧ fine (engExtents s1 c es) = true ∧ peerNeeds trs es = [] ∧
    r.2 = false ∧ copyLegal s1 c1 = true := by decide +kernel

theorem test_copy_start : after (.copyCommandStart 5) copyQueued (fun u =>
    goes u (cmdOf copyQueued) (fun c' => c'.stage == .running && c'.aux == [shape] && c'.units == 2) && u.mem == copyQueued.mem) = true := by
  decide +kernel

/-- A record that obeys no map ends its command with error status. -/
theorem test_copy_illegal_shape : after (.copyCommandStart 5) (memWrite copyQueued 0x10000 (toBytes 256 (shape + 2 ^ 72))) (fun u =>
    goes u (cmdOf copyQueued) (fun c' => c'.stage == .dropped true)) = true := by decide +kernel

/-- The command has read its record, and no translation is cached. -/
def copyRunning : State := { next (.copyCommandStart 5) copyQueued with tlb := [], walkCache := [] }

theorem met_CopyEngineWorks_unit :
    let s := copyRunning
    let c := cmdOf s
    let tm := { team with tiles := [3, 5], slices := [1, 2], conv := [(3, ⟨8, 4, none⟩)] }
    firstCmd s (fun x => isCopy x && x.core == 5 && x.stage == .running) = some c ∧ findCmd s c.id = some c ∧ unitFree s c = true ∧
    c.kind = .copy 0 ∧ c.aux ≠ [] ∧ c.unit < boxRows (shpOf c 0) ∧ copyLegal s c = true ∧ c.far = [] ∧
    cmdAddrTeam s c (blockPair c 1) = some tm ∧ findTeam s tm.ctx tm.grid tm.index = some tm ∧ (findGrid s c.ctx c.grid).isSome = true ∧
    kernel.tmem < 2 ^ 28 ∧ tm.ctx = c.ctx ∧ tm.grid = c.grid ∧ sparseWf memDefault tm.mem = true := by decide +kernel

theorem met_CopyEngineWorks_row :
    let s := copyRunning
    let c := cmdOf s
    let trs := got [] (engExtents s c (copyExtents c c.unit))
    fine (engExtents s c (copyExtents c c.unit)) = true ∧ peerNeeds trs (copyExtents c c.unit) = [] ∧
    rowElems c (shpOf c 0) c.unit = [1, 2, 3, 4, 5, 6] ∧ rowElems c (shpOf c 0) 1 = [] ∧
    (∀ b ∈ rowElems c (shpOf c 0) c.unit, (engRead s c trs 0 (boxAddr c (shpOf c 0) c.unit b) (shpSize (shpOf c 0)) (shpSize (shpOf c 0))).2 = false) ∧
    after (.copyUnit 5) s (fun u => goes u c (fun c' => c'.unit == 1 && c'.stage == .running) && u.mem == s.mem &&
      (findTeam u 1 0 0).any (fun t => sparseReadRun memDefault t.mem 0 12 == toBytes 12 0x222222221111111100000000)) = true := by
  decide +kernel

/-- A contribution to reduction group 5 with mailbox 7 has been posted. -/
def netQueued : State :=
  let s := postingWorld (posting [(8, 0x10000), (32, 5 * 2 ^ 32 + 7)])
  later <| next (.copyNetred 9 16 4 true) { s with ctxs := [{ tenant with sysgrp := [5] }] }

theorem met_CopyEngineWorks_netred :
    let s1 := sampleHeads netQueued
    let c := cmdOf s1
    let es : List Extent := [⟨0, blockPair c 0, 16, .read⟩]
    let trs := got [] (engExtents s1 c es)
    firstCmd s1 (fun x => isCopy x && x.core == 5 && x.stage == .queued) = some c ∧ copyFn c = 3 ∧ (findCtx netQueued c.ctx).isSome = true ∧
    netGroup c ∈ [5] ∧ blockPair c 0 % 16 = 0 ∧ fine (engExtents s1 c es) = true ∧ peerNeeds trs es = [] ∧
    (engRead s1 c trs 0 (blockPair c 0) 16).2 = false ∧
    after (.copyCommandStart 5) netQueued (fun u => goes u c (fun c' => c'.stage == .running && c'.unit == 1) &&
      u.sent.any (fun m => m.dev == 5 && m.cls == 4 && m.op == c.id && m.kind == .command && m.parts == [(0, 0, List.replicate 16 0)])) =
      true := by decide +kernel

/-- A contribution that waits, sent at tick `sent` of a clock at `now`. -/
def netWaiting (sent now : Nat) : State :=
  let s := next (.copyCommandStart 5) netQueued
  { s with dtb := now, ports := List.replicate 24 ⟨.up, 0, 0, 0⟩, cmds := s.cmds.map (fun c => { c with aux := [sent] }) }

/-- The bounds of a core's clock. -/
theorem coreNow_bounds (s : State) (core : Nat) : s.dtb ≤ coreNow s core + 32 ∧ coreNow s core ≤ s.dtb := by
  simp only [coreNow, dieNow]
  omega

/-- The bounds of the time for which a contribution waits. -/
theorem netDeadline_bounds (s : State) (c : EngCmd) : c.aux.getD 0 0 + 16000 ≤ netDeadline s c ∧
    netDeadline s c ≤ c.aux.getD 0 0 + 16000 * (65536 + s.lnktmo.toNat) := by
  simp only [netDeadline, tickMicro, microRange]
  omega

theorem met_CopyEngineWorks_result :
    let s := netWaiting 100000 100100
    let c := cmdOf s
    waitingNet s 5 = some c ∧ findCmd s c.id = some c ∧ netOrdered s c = true ∧ (findCtx s c.ctx).isSome = true ∧
    (∃ p ∈ s.ports, p.state = .up ∨ p.state = .degraded) ∧ coreNow s 5 < netDeadline s c := by
  have early : (netWaiting 100000 100100).dtb < (cmdOf (netWaiting 100000 100100)).aux.getD 0 0 + 16000 := by decide +kernel
  refine ⟨?_, ?_, ?_, ?_, ?_,
    Nat.lt_of_le_of_lt (coreNow_bounds _ 5).2 (Nat.lt_of_lt_of_le early (netDeadline_bounds _ _).1)⟩ <;> decide +kernel

theorem met_CopyEngineWorks_down :
    let s := { netWaiting 100000 100100 with ports := List.replicate 24 ⟨.down, 0, 0, 0⟩ }
    waitingNet s 5 = some (cmdOf s) ∧ findCmd s (cmdOf s).id = some (cmdOf s) ∧ ∀ p ∈ s.ports, p.state ≠ .up ∧ p.state ≠ .degraded := by
  decide +kernel

theorem met_CopyEngineWorks_late :
    let s := netWaiting 0 5000000000
    let c := cmdOf s
    waitingNet s 5 = some c ∧ findCmd s c.id = some c ∧ netDeadline s c ≤ coreNow s 5 := by
  have gone : (cmdOf (netWaiting 0 5000000000)).aux.getD 0 0 + 16000 * (65536 + (netWaiting 0 5000000000).lnktmo.toNat) + 32 ≤
      (netWaiting 0 5000000000).dtb := by decide +kernel
  have now := (coreNow_bounds (netWaiting 0 5000000000) 5).1
  have most := (netDeadline_bounds (netWaiting 0 5000000000) (cmdOf (netWaiting 0 5000000000))).2
  exact ⟨by decide +kernel, by decide +kernel, by omega⟩

theorem met_CopyEngineWorks_end :
    let s := { copyRunning with cmds := [{ cmdOf copyRunning with stage := .dropped true }] }
    let c := cmdOf s
    firstStarted s (fun x => isCopy x && x.core == 5) = some c ∧ cmdSettled s c = true ∧ c.key = none ∧ unitTraceHeld s (cmdSource c) = false ∧
    after (.copyCommandComplete 5) s (fun u => ends s u c true && u.gangs == s.gangs) = true := by decide +kernel

end Sys2Proof.Tests
end

