-- ==== Sys2Proof/Tests/Witness4.lean ====
section
/-! SUPPORT. For each statement about launches, nodes, grids, dens, peers and the host, states and operands that meet its hypotheses,
and what the event does there. -/

set_option Elab.async false

namespace Sys2Proof.Tests

open Sys2Proof.Machine Sys2Proof.Claims

/-! ### Launches and nodes -/

/-- A kernel descriptor: one gang of eight threads, two tiles. -/
def descr : Nat :=
  0x40000000 + 0x9C412E07B35AD816 * 2 ^ 64 + 8 * 2 ^ 202 + 1 * 2 ^ 213 + 16 * 2 ^ 224 + 2 * 2 ^ 232 + 2 * 2 ^ 240 + 1024 * 2 ^ 256 + 32768 * 2 ^ 288 +
    64 * 2 ^ 320

/-- A launch record of one team, with two argument words at 0x3000. -/
def record : Nat := 77 * 2 ^ 448 + 2 ^ 384 + 0x3FFF * 2 ^ 352 + 1 * 2 ^ 320 + 0x500000 * 2 ^ 128 + 0x3000 * 2 ^ 64 + 0x2000

/-- The machine without work, with the descriptor and the arguments in memory. -/
def idle : State :=
  { memWrite (memWrite world 0x2000 (toBytes 64 descr)) 0x3000 (toBytes 8 0x500000004) with
    cur := Cur.none, gangs := [], teams := [], crews := [], grids := [], ctxs := [{ tenant with logUsed := [] }] }

theorem met_LaunchesAndNodes_window : hubHeld idle = false ∧ idle.decs = [] ∧ (findCtx idle 1).isSome = true ∧ (toBytes 64 record).length = 64 ∧
    (findCtx idle 1).map freeLog = some (some 0) ∧
    fine (checkLaunch idle 1 0 (ofBytes (toBytes 64 record))) = true ∧
    fine (unitTranslate idle hubDie 1 0x400000 64 .write) = true ∧ pteTgt (got ⟨0, 0⟩ (unitTranslate idle hubDie 1 0x400000 64 .write)).pte = 0 ∧
    memoriesWf idle := by
  unfold memoriesWf
  decide +kernel

theorem test_launch_accepted : after (.launchWindowWrite 1 0x40 (toBytes 64 record)) idle (fun u =>
    u.grids.map (fun g => (g.ctx, g.index, g.launch.tag.toNat, g.kernel.gang, g.argWords.map (·.toNat), g.placed)) == [(1, 0, 77, 8, [4, 5], 0)] &&
    (findCtx u 1).any (fun c => c.logUsed == [0] && c.queues == [[0], [], [], []]) &&
    memBytes u 0x400000 64 == toBytes 64 record) = true := by decide +kernel

/-- One record has been written into the tenant's fault queue. -/
def reported (u : State) : Bool := (findCtx u 1).any (fun c => c.fqPend.length == 1 && c.fqlost == 0)

/-- A context whose launch log is full. -/
def fullLog : Ctx := { tenant with logUsed := rangeFrom 0 1024 }

theorem met_LaunchesAndNodes_full_log : freeLog fullLog = none := by
  unfold freeLog fullLog
  rw [List.find?_eq_none]
  intro x hx
  simp [hx]

theorem met_LaunchesAndNodes_refused : ∀ r ∈ [record + 2 ^ 368, record + 1, record - 0x2000 + 0x4000, record - 0x2000 + 0x140000000],
    fine (checkLaunch idle 1 0 (ofBytes (toBytes 64 r))) = false := by decide +kernel

theorem test_launch_refused :
    after (.launchWindowWrite 1 0 (toBytes 64 (record + 1))) idle (fun u => reported u && u.grids == []) = true ∧
    after (.launchWindowWrite 1 1 (toBytes 64 record)) idle (fun u => reported u && u.grids == []) = true := by decide +kernel

/-- A bulk copy node with one successor, a join node without, and a copy node with count 0. -/
def copyNode (count : Nat) : Nat :=
  1 + count * 2 ^ 160 + 1 * 2 ^ 188 + 9 * 2 ^ 192 + 64 * 2 ^ 320 + 0x20000 * 2 ^ 384 + 0x10000 * 2 ^ 448

theorem met_LaunchesAndNodes_node : hubHeld idle = false ∧ (findCtx idle 1).isSome = true ∧ findNode idle 1 4095 = none ∧
    nodeLegal (ofBytes (toBytes 64 (copyNode 0xFFFF))) = true ∧ nodeLegal (ofBytes (toBytes 64 (copyNode 0))) = true ∧
    nodeLegal (ofBytes (toBytes 64 2)) = true ∧ sparseWf none tenant.nodes = true ∧ nodeLegal (copyNode 1 + 2 ^ 2) = false := by decide +kernel

theorem test_node_armed :
    after (.nodeArm 1 (64 * 4095) (toBytes 64 (copyNode 0xFFFF))) idle (fun u => (findNode u 1 4095).any (fun x =>
      x == ⟨1, 0x10000, 0x20000, 64, [9], 0xFFFF, 1, none, false, false⟩)) = true ∧
    after (.nodeArm 1 64 (toBytes 64 (copyNode 0))) idle (fun u => u.copies == [⟨1, 1, 0, 0, none⟩] &&
      (findNode u 1 1).any (fun x => x.state == 2)) = true ∧
    after (.nodeArm 1 64 (toBytes 64 2)) idle (fun u => u.copies == [] && findNode u 1 1 == none) = true ∧
    after (.nodeArm 1 64 (toBytes 64 (copyNode 1 + 2 ^ 2))) idle (fun u => reported u && findNode u 1 1 == none) = true := by decide +kernel

/-- The machine with node 1 armed, count 3. -/
def nodal : State := next (.nodeArm 1 64 (toBytes 64 (copyNode 3))) idle

theorem met_LaunchesAndNodes_status : (findNode nodal 1 (64 / 64)).any (fun x => decide (x.state ≤ 2) && decide (x.count < 2 ^ 16)) = true ∧
    findNode nodal 1 (128 / 64) = none ∧
    after (.nodeStatusRead 1 64 8) nodal (fun u => u.hostOut == [toBytes 8 (1 * 2 ^ 16 + 3)]) = true ∧
    after (.nodeStatusRead 1 128 8) nodal (fun u => u.hostOut == [toBytes 8 0]) = true ∧
    after (.nodeStatusRead 1 64 4) nodal (fun u => u.hostOut == [toBytes 4 0]) = true := by decide +kernel

/-- A grid whose teams have ended, with a DONE node, a killed one and one without either. -/
def ended_ (done : Nat) (killed : Option Nat) : Grid :=
  { grid with launch := { grid.launch with doneN := done }, teamsDone := 1, killed := killed }

theorem met_GridsAndCopiesEnd_grid :
    (let s := { nodal with grids := [grid], teams := [{ team with retired := true }] }
     findGrid s 1 0 = some grid ∧ gridQuiet s grid = false ∧ after (.gridEnd 1 0) s (fun u => u == s) = true) ∧
    (∀ x ∈ [(0x3FFF, none), (1, none), (1, some 0x11)],
      let g := ended_ x.1 x.2
      let s := { nodal with grids := [g], teams := [{ team with retired := true }], crews := [⟨1, 0, 0, 1, []⟩] }
      findGrid s 1 0 = some g ∧ gridQuiet s g = true ∧ g.heard + msgTicks 0 hubDie ≤ s.dtb ∧ hubHeld s = false ∧ gridLines s g = [] ∧
      s.decs = [] ∧ nodal.ctxs.all (fun c => sparseWf none c.nodes) = true ∧ g.gwct.toNat ≤ dieNow s hubDie ∧ g.node = none ∧
      after (.gridEnd 1 0) s (fun u => findGrid u 1 0 == none && u.teams == [] && u.crews == [] &&
        (findNode u 1 1).map (·.count) == some (if x == (1, none) then 2 else 3) && (if x.2 = some 0x11 then reported u else u.mem == s.mem)) = true) ∧
    ((findNode nodal 1 1).any (fun x => decide (x.state = 1) && decide (1 < x.count)) = true ∧
      (findCtx nodal 1).any (fun c => sparseWf none c.nodes) = true) := by decide +kernel

/-- A bulk copy in progress, of a node with successor 9 armed with count 2. -/
def copying : State :=
  memWrite (next (.nodeArm 1 64 (toBytes 64 (copyNode 0))) (next (.nodeArm 1 (64 * 9) (toBytes 64 (copyNode 2))) idle)) 0x10000 (toBytes 8 0x0102030405060708)

theorem met_GridsAndCopiesEnd_copy :
    currentCopy copying = some ⟨1, 1, 0, 0, none⟩ ∧ (findNode copying 1 1).map (·.len) = some 64 ∧ hubHeld copying = false ∧
    fine (hubTrans copying 1 .read (runPieces 0x10000 64)) = true ∧ fine (hubTrans copying 1 .write (runPieces 0x20000 64)) = true ∧
    hubPoison copying (got [] (hubTrans copying 1 .read (runPieces 0x10000 64))) 0x10000 64 = false ∧ memoriesWf copying ∧
    (∀ y ∈ got [] (hubTrans copying 1 .write (runPieces 0x20000 64)), pteTgt y.2.pte = 0) ∧
    after .walkerCopyPiece copying (fun u => memBytes u 0x20000 8 == toBytes 8 0x0102030405060708 && u.hostMem == copying.hostMem &&
      u.copies.map (fun y => (y.ctx, y.node, y.off)) == [(1, 1, 64)]) = true := by unfold memoriesWf; decide +kernel

theorem met_GridsAndCopiesEnd_fault :
    let s := next (.nodeArm 1 64 (toBytes 64 (copyNode 0 + 0x13FFF0000 * 2 ^ 448))) idle
    currentCopy s = some ⟨1, 1, 0, 0, none⟩ ∧ hubHeld s = false ∧ fine (hubTrans s 1 .read (runPieces 0x140000000 64)) = false ∧
    (waitCount s 0 < 4096 ∧ s.waiters = []) ∧
    after .walkerCopyPiece s (fun u => u.hostMem == s.hostMem && u.copies == [⟨1, 1, 0, 0, some (0x140000000 / 4096)⟩] &&
      u.waits.map (fun y => (y.die, y.ctx, y.byPage, y.key, y.items)) == [(0, 1, true, 0x140000, [.walker])]) = true := by decide +kernel

theorem met_GridsAndCopiesEnd_done :
    let s := { copying with copies := [⟨1, 1, 64, 0, none⟩] }
    currentCopy s = some ⟨1, 1, 64, 0, none⟩ ∧ (findNode s 1 1).map (fun x => (x.len, x.succ)) = some (64, [9]) ∧ hubHeld s = false ∧
    s.decs = [] ∧ 0 ≤ dieNow s hubDie ∧ (findNode s 1 9).map (fun y => (y.state, y.count)) = some (1, 2) ∧
    (findCtx s 1).any (fun c => sparseWf none c.nodes) = true ∧
    after .walkerCopyComplete s (fun u => u.copies == [] && findNode u 1 1 == none && (findNode u 1 9).map (·.count) == some 1) = true := by
  decide +kernel

/-! ### Placement and dens -/

/-- The launch has been accepted, by a tenant without a launch log. -/
def placing : State := later <| next (.launchWindowWrite 1 0 (toBytes 64 record)) { idle with ctxs := [{ tenant with logUsed := [], logbase := 0 }] }

/-- Its grid. -/
def placingGrid : Grid := placing.grids.head?.getD grid

theorem met_PlacementAndDens_place : denFirst placing = false ∧ queueHeads placing = [placingGrid] ∧ tryOrder placing = [placingGrid] ∧
    findGrid placing placingGrid.ctx placingGrid.index = some placingGrid ∧ placingGrid.launch.cores = false ∧ placingGrid.kernel.crew = 1 ∧
    launchOpen placing placingGrid = true ∧ (crewClusters placing placingGrid).head? = some 0 ∧
    teamFits placing placingGrid.kernel (0 * 4) = some [(0, 0)] ∧ placing.privLines = [] := by decide +kernel

theorem test_team_placed : after .teamPlacement placing (fun u =>
    u.mem == placing.mem && (findGrid u 1 0).map (fun g => (g.placed, g.started)) == some (1, true) &&
    u.teams.map (fun t => (t.index, t.crew, t.rank, t.core, t.mem, t.live.length, t.tiles.length, t.slices.length)) == [(0, 0, 0, 0, [], 8, 2, 2)] &&
    u.gangs.map (fun h => (h.core, h.slot, h.pipe, h.size, h.threads.map (fun y => (y.lpos, (vreg y 0).toNat, y.tid.toNat, y.preds)),
      h.paths.map (fun q => (q.pc, q.mask)))) ==
      [(0, 0, 0, 8, (List.range 8).map (fun k => (k, k, k, 0)), [(0x40000000, 255)])]) = true := by decide +kernel

theorem met_PlacementAndDens_backfill : let s := { placing with grids := [{ placingGrid with waitFrom := some 0 }], clk := 65536 }
    let g := { placingGrid with waitFrom := some 0 }
    (queueOf s 1 (0#2).toNat).head? = some g ∧ g.waitFrom = some 0 ∧ 0 + 65536 ≤ s.clk ∧ ¬ (0 + 65536 ≤ ({ s with clk := 65535 }).clk) ∧
    after (.backfillTimeout 1 0) s (fun u => u.grids.map (·.blocked) == [true]) = true ∧
    after (.backfillTimeout 1 0) { s with clk := 65535 } (fun u => u.grids.map (·.blocked) == [false]) = true := by decide +kernel

/-- A den of two threads on cluster 1 whose time has come. -/
def den : Den :=
  { id := 70, cluster := 1, ctx := 1, grid := 0, pc := 0x600, owner := .free, items := [.thread (thread 0) 0, .thread (thread 3) 0], expiry := 0,
    waiting := none, full := false }

/-- The machine with that den, with no gang. -/
def denned (d : Den) : State := { world with gangs := [], dens := [d] }

theorem met_PlacementAndDens_den : ∀ d ∈ [den, { den with waiting := some 3 }],
    (denned d).dens.find? (fun x => x.cluster == 1 && x.id == 70) = some d ∧ (∀ y ∈ (denned d).dens, y.id = d.id → y = d) ∧
    resident (denned d) d.ctx = true ∧ denPlace (denned d) d = some (4, 0, 0) ∧
    d.items = [(thread 0, 0), (thread 3, 0)].map (fun x => DenItem.thread x.1 x.2) ∧ 2 ≤ gridGangSize (denned d) d.ctx d.grid ∧
    (d.waiting = none → d.expiry ≤ dieNow (denned d) (clusterDie 1)) ∧
    (∀ x ∈ (denned d).dens, x.id = d.id) ∧ ∀ x ∈ [(thread 0, 0), (thread 3, 0)], x.1.uid < 200 := by
  decide +kernel

/-- An older den of another tenant's address that waits too, with room for its gang. -/
theorem met_PlacementAndDens_den_behind : let d := { den with waiting := some 3 }
    let x := { den with id := 71, pc := 0x680, waiting := some 2 }
    let s := { denned d with dens := [d, x] }
    s.dens.find? (fun x => x.cluster == 1 && x.id == 70) = some d ∧ x ∈ s.dens ∧ x.id ≠ d.id ∧ x.waiting = some 2 ∧ 2 < 3 ∧
    resident s x.ctx = true ∧ (denPlace s x).isSome = true ∧
    after (.denGangFormOnSlot 1 70) s (fun u => u.gangs == []) = true := by decide +kernel

theorem test_den_formed : ∀ x ∈ [(Instr.denTimerExpiry 1 70, den), (.denGangFormOnSlot 1 70, { den with waiting := some 3 })],
    after x.1 (denned x.2) (fun u => u.dens == [] && u.mem == world.mem && u.gangs.map (fun h => (h.core, h.slot, h.pipe, h.size,
      h.threads.map (·.uid), h.threads.map (·.lpos), h.paths.map (fun q => (q.pc, q.mask)))) ==
      [(4, 0, 0, 8, [100, 103], [0, 1], [(0x600, 3)])]) = true := by decide +kernel

/-- No core has room for a gang. -/
theorem met_PlacementAndDens_den_waits : let s := { denned den with ctxs := [{ tenant with coreset := 0 }] }
    denPlace s den = none ∧ den.expiry ≤ dieNow s (clusterDie 1) ∧ den.waiting = none ∧
    after (.denTimerExpiry 1 70) s (fun u => u.dens == [{ den with waiting := some s.clk }] && u.gangs == []) = true := by decide +kernel

/-- A record that waits for nothing, of a grid that no den holds. -/
def loose : ContRec := ⟨0x10000, false, 3, []⟩

/-- Its grid. -/
def recordGrid : Grid := { grid with conts := [loose] }

/-- The machine with that record. -/
def runnable (kind : Nat) : State :=
  { memWrite { world with gangs := [] } 0x10000 (toBytes 128 (kind * 2 ^ 9 + 0x600 * 2 ^ 320 + 1 * 2 ^ 384)) with grids := [recordGrid] }

theorem met_PlacementAndDens_record :
    (∀ kind ∈ [0, 2], looseRecord (runnable kind) 1 0x10000 = some (recordGrid, loose)) ∧
    recordReady (runnable 0) recordGrid loose = false ∧ recordReady (runnable 2) recordGrid loose = true ∧ resident (runnable 2) 1 = true ∧
    recordClusters (runnable 2) recordGrid (toDword (fieldAt ((recordBytes (runnable 2) 1 loose).getD []) 40 8)) ≠ [] ∧
    (runnable 2).dens = [] ∧ (∀ h ∈ (runnable 2).gangs, ∀ q ∈ h.parked, q.cause ≠ .noDen) ∧ 1 < gridGangSize (runnable 2) 1 recordGrid.index ∧
    after (.continuationRunnable 1 0x10000) (runnable 0) (fun u => u == runnable 0) = true := by decide +kernel

/-! ### Peers -/

/-- The machine with node 1 armed and every port up, where tenant 3 of device 6 may send classes D, A, N and L as the tenant, and
tenant 4 only L. -/
def linked : State :=
  { nodal with
    ports := List.replicate 24 ⟨.up, 0, 0, 0⟩
    linkTable := [(0, toDword (6 * 2 ^ 54 + 3 * 2 ^ 49 + 1 * 2 ^ 44 + 15 * 2 ^ 40 + 1)), (1, toDword (6 * 2 ^ 54 + 4 * 2 ^ 49 + 1 * 2 ^ 44 + 2 ^ 40 + 1))] }

/-- With every port up, every device is reached. -/
theorem all_up (s : State) (dev : Nat) (h : s.ports = List.replicate 24 ⟨.up, 0, 0, 0⟩) : linkUp s dev = true := by
  have main : Config.mainPort dev % 24 < 24 := Nat.mod_lt _ (by decide)
  simp only [linkUp, List.any_eq_true, Bool.and_eq_true]
  refine ⟨Config.mainPort dev % 24, ?_, by simp [reaches], ?_⟩
  · simp only [rangeFrom, List.mem_cons, List.not_mem_nil]
    omega
  · rw [h, List.getElem?_replicate, if_pos main]
    rfl

/-- With every port down, none is. -/
theorem all_down (s : State) (dev : Nat) (h : s.ports = List.replicate 24 ⟨.down, 0, 0, 0⟩) : linkUp s dev = false := by
  simp only [linkUp, List.any_eq_false, Bool.and_eq_true, not_and]
  intro i _ _
  rw [h, List.getElem?_replicate]
  split <;> simp [carries]

/-- The tenant as that machine holds it. -/
def linkedCtx : Ctx := (findCtx linked 1).getD tenant

theorem met_PeerMessagesArrive : linkUp linked 6 = true ∧ (∀ cls ∈ [0, 1, 2, 3], admitted linked 6 3 cls = some linkedCtx) ∧
    (∀ r ∈ [(0x10040, 8), (0x10060, 4)], 1 ≤ r.2 ∧ 0x200 * 128 ≤ r.1 ∧ r.1 + r.2 ≤ 0x200 * 128 + 128 ∧
      grantRun linkedCtx false true r.1 r.2 = true ∧ grantRun linkedCtx false false r.1 r.2 = true ∧ linePoison linked r.1 r.2 = false) ∧
    linked.peerIn = [] ∧ linked.decs = [] ∧ sparseGet 0 linked.peerGwct 6 ≤ dieNow linked hubDie ∧ hubHeld linked = false ∧
    (toBytes 8 2).length = 8 ∧ (findNode linked linkedCtx.id (8 / 8)).map (fun x => (x.state, x.count, x.kind)) = some (1, 3, 1) ∧
    ofBytes (toBytes 8 2) < 3 ∧ ofBytes (toBytes 8 3) = 3 ∧ (freeLog linkedCtx).isSome = true ∧ sparseWf 0 linked.peerGwct = true ∧
    memoriesWf linked := by
  refine ⟨all_up _ _ rfl, ?_⟩
  unfold memoriesWf
  decide +kernel

/-- The machine when its nodes' messages have been answered meets a check. -/
def afterPeer (i : Instr) (f : State → Bool) : Bool := after i linked f

theorem test_peer_store : afterPeer (.peerStoreArrival 6 3 9 [(0x10040, 8, toBytes 8 7), (0x10060, 4, toBytes 4 5)]) (fun u =>
    memBytes u 0x10040 8 == toBytes 8 7 && memBytes u 0x10060 4 == toBytes 4 5 && u.sent == [⟨6, 5, 9, 0, [], .external, [], false⟩]) = true := by
  simp only [afterPeer, after, exec, execPeerStoreArrival, all_up linked 6 rfl]
  decide +kernel

theorem test_peer_notification :
    afterPeer (.peerNotification 6 3 9 [(8, 8, toBytes 8 2)]) (fun u => (findNode u 1 1).map (fun x => (x.state, x.count)) == some (1, 1)) = true ∧
    afterPeer (.peerNotification 6 3 9 [(8, 8, toBytes 8 3)]) (fun u => (findNode u 1 1).map (fun x => (x.state, x.count)) == some (2, 0) &&
      u.copies == [⟨1, 1, 0, 0, none⟩]) = true ∧ afterPeer (.peerNotification 6 3 9 [(9, 8, toBytes 8 3)]) reported = true := by
  simp only [afterPeer, after, exec, execPeerNotification, arrivePeer, all_up linked 6 rfl]
  decide +kernel

theorem test_peer_launch :
    afterPeer (.peerLaunchRecord 6 3 9 [(0, 64, toBytes 64 record)]) (fun u =>
      u.grids.map (fun g => (g.ctx, g.launch.tag.toNat)) == [(1, 77)]) = true := by
  simp only [afterPeer, after, exec, execPeerLaunchRecord, arrivePeer, all_up linked 6 rfl]
  decide +kernel

/-- Data of the device is on its way, or a message that waits for it. -/
def late (l : List PeerMsg) : State := { linked with peerGwct := [(6, 5000)], peerIn := l }

theorem met_PeerMessagesArrive_late : ∀ l ∈ [[], [⟨6, 3, 8, 1, 5000, []⟩]], linkUp (late l) 6 = true ∧
    (∀ m ∈ (late l).peerIn, m.dev = 6 ∧ dieNow (late l) hubDie < m.after) ∧ dieNow (late l) hubDie < sparseGet 0 (late l).peerGwct 6 := by
  have tick : ∀ l ∈ [[], [(⟨6, 3, 8, 1, 5000, []⟩ : PeerMsg)]], (late l).dtb = 1000 := by decide +kernel
  have wait : ∀ l ∈ [[], [(⟨6, 3, 8, 1, 5000, []⟩ : PeerMsg)]], ∀ m ∈ l, m.dev = 6 ∧ m.after = 5000 := by decide
  intro l hl
  have now : dieNow (late l) hubDie ≤ (late l).dtb := Nat.sub_le _ _
  have soon := Nat.lt_of_le_of_lt now ((tick l hl).symm ▸ (by decide : 1000 < 5000))
  exact ⟨all_up _ _ rfl, fun m hm => ⟨(wait l hl m hm).1, (wait l hl m hm).2 ▸ soon⟩, soon⟩

theorem met_PeerMessagesArrive_atomic : 0x10000 % atomSize .add true = 0 ∧ grantRun linkedCtx false false 0x10000 (atomSize .add true) = true ∧
    grantRun linkedCtx false true 0x10000 (atomSize .add true) = true ∧ linePoison linked 0x10000 (atomSize .add true) = false ∧
    AtomicOp.add ≠ .lr ∧ AtomicOp.add ≠ .sc := by decide +kernel

theorem met_PeerMessagesArrive_denied : linkUp linked 7 = true ∧ linkEntries linked 7 3 = [] ∧ (linkEntries linked 6 4).length = 1 ∧
    admitted linked 6 4 0 = none ∧ admitted linked 6 4 3 = none ∧ 0x10000 % 128 + 4 ≤ 128 ∧ (toBytes 4 7).length = 4 ∧
    sparseGet 0 linked.peerGwct 7 ≤ dieNow linked hubDie :=
  ⟨all_up _ _ rfl, by decide +kernel⟩

/-- The part of an operation's word on device 6, and the message that carried it. -/
def farPart : LanePart := { loading with tgt := 2, dev := 6 }

/-- Its message. -/
def farMsg (kind : OutKind) : Msg := ⟨6, 0, 950, 900, [0], kind, [(0x601000, 4, [])], false⟩

/-- A gang with an operation on its way to device 6, and its machine. -/
def peering (kind : OutKind) : State :=
  { withGang (returning kind farPart) with ports := List.replicate 24 ⟨.up, 0, 0, 0⟩, sent := [farMsg kind] }

theorem met_ResponsesAndPorts : ∀ kind ∈ [OutKind.external, .load 4 false, .atomic .add false .rne 0],
    let s := peering kind
    let g := returning kind farPart
    let t := { thread 0 with inflight := [⟨900, 20, false, false, none⟩] }
    findMsg s 950 = some (farMsg kind) ∧ opGang s 900 = some (g, { op0 with kind := kind, parts := [farPart] }) ∧ toPeer farPart = true ∧
    farPart.dev = (farMsg kind).dev ∧ farPart.lpos ∈ (farMsg kind).lanes ∧ findGang s g.core g.slot = some g ∧
    farPart.lpos < 64 ∧ findThread g farPart.lpos = some t ∧ (toBytes 4 7).length = farPart.size ∧ sizeBytes 4 = farPart.size ∧
    atomSize .add false = farPart.size ∧ (∀ e ∈ t.inflight, e.op = 900 ∧ e.reg = farPart.reg) ∧ waitCount s (coreDie g.core) < 4096 ∧ s.waiters = [] ∧ (farMsg kind).err = false := by
  decide +kernel

theorem met_ResponsesAndPorts_up (kind : OutKind) : linkUp (peering kind) (farMsg kind).dev = true ∧
    linkUp { peering kind with ports := List.replicate 24 ⟨.down, 0, 0, 0⟩ } (farMsg kind).dev = false :=
  ⟨all_up _ _ rfl, all_down _ _ rfl⟩

/-- A loaded word comes from the peer, or is refused. -/
def answer (ok : Bool) (f : State → Gang → Bool) : Bool :=
  let kind := OutKind.load 4 false
  (answerOp (peering kind) (returning kind farPart) { op0 with kind := kind, parts := [farPart] } (farMsg kind) ok (toBytes 4 7)).any (fun u =>
    after (.loadReturn 5 3 900) { u with dtb := u.dtb + 48 } (fun v => (findGang v 5 3).any (fun k => k.out == [] && f v k)))

theorem test_peer_response :
    answer true (fun v k => v.mem == world.mem && (k.threads.map (·.inflight)).head? == some [⟨900, 20, false, false, some 7⟩]) = true ∧
    answer false (fun _ k => k.parked.map (fun q => (q.mask, q.cause)) == [(1, .fault true 0 .access)]) = true := by decide +kernel

theorem met_ResponsesAndPorts_port : world.ports[23]?.map (·.state) = some .down ∧
    after (.linkPortStateChange 23 .down) world (fun u => u == world) = true ∧
    after (.linkPortStateChange 23 .up) world (fun u => u.ports.map (·.state) == List.replicate 23 PortState.down ++ [.up] &&
      u.traceBuf.map (fun r => (r.sys, r.src)) == [(true, .hub 23)]) = true ∧
    after (.flitRetransmission 0) world (fun u => u.ports.map (·.retrans) == 1 :: List.replicate 23 0) = true := by decide +kernel

/-- A store on its way to device 6, and its machine at tick `now` with every port in a state since reset. -/
def lost (st : PortState) (now : Nat) : State :=
  { peering .external with ports := List.replicate 24 ⟨st, 0, 0, 0⟩, dtb := now, lnktmo := 1 }

theorem met_ResponsesAndPorts_reached : ∀ x ∈ [(PortState.up, 100000), (.down, 16000)], ∃ i p, i < 24 ∧ reaches 6 i = true ∧
    (lost x.1 x.2).ports[i]? = some p ∧ (p.state = .up ∨ p.state = .degraded ∨ (lost x.1 x.2).dtb ≤ p.since + 16000 * (lost x.1 x.2).lnktmo.toNat) := by
  intro x hx
  have main : Config.mainPort 6 % 24 < 24 := Nat.mod_lt _ (by decide)
  refine ⟨_, ⟨x.1, 0, 0, 0⟩, main, by simp [reaches], List.getElem?_replicate.trans (if_pos main), ?_⟩
  simp only [List.mem_cons, List.not_mem_nil, or_false] at hx
  obtain rfl | rfl := hx <;> simp [lost]

theorem met_ResponsesAndPorts_unreachable : (∀ i p, i < 24 → (lost .down 100000).ports[i]? = some p →
      p.state ≠ .up ∧ p.state ≠ .degraded ∧ p.since + 16000 * (lost .down 100000).lnktmo.toNat < (lost .down 100000).dtb) ∧
    openMsgs (lost .down 100000) 6 = [farMsg .external] ∧ openMsgs (lost .down 100000) 7 = [] ∧
    ∀ m ∈ openMsgs (lost .down 100000) 6, m.kind = .external ∧ msgCtx (lost .down 100000) m = some 1 := by
  refine ⟨fun i p hi hp => ?_, by decide +kernel⟩
  simp only [lost, List.getElem?_replicate, hi, if_true, Option.some.injEq] at hp
  subst hp
  decide

/-! ### The host -/

theorem met_HostAccessesComplete : 0x10040 % 128 + 64 ≤ 128 ∧ (1 : Nat) < 33 ∧ hostMay idle 1 0x10040 64 true = true ∧
    hostMay idle 2 0x10040 64 true = false ∧ hostMay idle 2 0x10040 64 false = false ∧ linePoison idle 0x10040 64 = false ∧
    hostMay idle 1 0x10040 64 false = true := by decide +kernel

theorem test_host_access :
    after (.hostWrite 1 0x10040 (toBytes 64 7)) idle (fun u => memBytes u 0x10040 64 == toBytes 64 7) = true ∧
    after (.hostWrite 2 0x10040 (toBytes 64 7)) idle (fun u => u.peerBad == 1 && u.mem == idle.mem) = true ∧
    after (.hostRead 1 0x2000 8) idle (fun u => u.hostOut == [toBytes 8 descr]) = true ∧
    after (.hostRead 2 0x2000 8) idle (fun u => u == idle) = true := by decide +kernel

theorem met_HostAccessesComplete_atomic : cxlAtomic .add = true ∧ 0x10000 % atomSize .add false = 0 ∧
    (hostMay idle 32 0x10000 4 false = true ∧ hostMay idle 32 0x10000 4 true = true) ∧ hostMay idle 2 0x10000 4 true = false ∧
    after (.hostAtomic 32 0x10000 true .add false 5 0) idle (fun u => memBytes u 0x10000 4 == toBytes 4 5 && u.hostOut == [toBytes 4 0]) = true ∧
    after (.hostAtomic 32 0x10000 false .add false 5 0) idle (fun u => u.mem == idle.mem && u.agenda == [.hostWrite 32 0x10000 (toBytes 4 5)]) = true ∧
    after (.hostAtomic 2 0x10000 true .add false 5 0) idle (fun u => u.peerBad == idle.peerBad + 1 && u.mem == idle.mem) = true := by
  decide +kernel

end Sys2Proof.Tests
end

