-- ==== Sys2Proof/Tests/Witness5.lean ====
section
/-! SUPPORT. For each statement about reports, time, management, escalations, soft errors, reset and the step, states and operands that
meet its hypotheses, and what the event does there. -/

set_option Elab.async false

namespace Sys2Proof.Tests

open Sys2Proof.Machine Sys2Proof.Claims

/-! ### Reports and time -/

/-- A trace record of core 5, and one of the hub. -/
def traced (sys : Bool) (mode : Nat) : TraceRec := ⟨.core 5, 1, sys, toBytes 64 0x1234, none, 0, mode, 1⟩

/-- The record of the hub that goes before it. -/
def hubTraced : TraceRec := ⟨.hub 0, 1, true, toBytes 64 1, none, 0, 1, 0⟩

/-- The machine with both, a system ring, and the tenant as given; its sink 0 has served the hub last. -/
def tracing (sys : Bool) (mode : Nat) (c : Ctx) : State :=
  { idle with
    traceBuf := [hubTraced, traced sys mode], systrbase := 0x900000, systrsize := 4096, ctxs := [c]
    sinkRr := [(0, srcNum (.hub 0))] }

/-- The tenant with a trace ring whose last record is next, and with none. -/
def ringed (size wr : Nat) (mode : Nat) : Ctx := { tenant with trbase := 0x800000, trsize := toDword size, trwr := toDword wr, trrd := 64, trcfg := toDword mode }

/-- A tenant's ring with one place left, and in a fallback; a full one. -/
def roomy (fall : Bool) : Ctx := { ringed 4096 4032 1 with trFall := fall }

theorem met_RecordsReachTheirRings_sink :
    (∀ sys ∈ [true, false], ∀ fall ∈ [true, false],
      let s := tracing sys 1 (roomy fall)
      s.traceBuf = [hubTraced] ++ traced sys 1 :: [] ∧ hubTraced.src ≠ .core 5 ∧ (traced sys 1).src = .core 5 ∧ (traced sys 1).bytes.length = 64 ∧
        recWaits s (traced sys 1) = false ∧ recTurn s (traced sys 1) = true ∧ trFull (roomy fall) = false ∧
        ringFull s.systrsize s.systrwr s.systrrd s.sysPend.length = false ∧
        grantRun (roomy fall) false true (0x800000 + (4032 + 64 * 0) % 4096) 64 = true) ∧
    recWaits (tracing false 2 (ringed 4096 0 2)) (traced false 2) = true ∧
    recTurn { tracing true 1 tenant with sinkRr := [(0, srcNum (.core 5))] } (traced true 1) = false ∧
    trFull (ringed 4096 0 2) = true ∧ recWaits (tracing false 1 (ringed 4096 0 1)) (traced false 1) = false := by decide +kernel

theorem test_trace_sink :
    after (.traceSinkWrite (.core 5)) (tracing true 1 tenant) (fun u => u.traceBuf.length == 1 && u.sysPend.length == 1 &&
      memBytes u 0x900000 64 == toBytes 64 0x1234) = true ∧
    after (.traceSinkWrite (.core 5)) (tracing false 1 (roomy true)) (fun u => u.traceBuf.length == 1 &&
      memBytes u 0x800FC0 64 == toBytes 64 (0x1234 + 2 ^ 33) && (findCtx u 1).map (·.trPend.length) == some 1) = true ∧
    after (.traceSinkWrite (.core 5)) (tracing false 2 (ringed 4096 0 2)) (fun u => u == tracing false 2 (ringed 4096 0 2)) = true ∧
    after (.traceSinkWrite (.core 5)) (tracing false 1 (ringed 4096 0 1)) (fun u => u.traceBuf.length == 1 && u.mem == idle.mem &&
      (findCtx u 1).map (·.trLost) == some 1) = true := by decide +kernel

/-- A waiting fault record. -/
def faulted : FaultRec :=
  ⟨0x12345, 0x40000000, 77, 9, 15, 3, 0, 0, 1, 2, 0, 0, 0, 3, 1, false, true, 5⟩

/-- A tenant with losses, a full ring since tick 0 in lossless mode, and a waiting record. -/
def burdened (lost : Nat) (since : Option Nat) (waits : List FaultRec) : Ctx :=
  { ringed 4096 128 2 with trLost := lost, trSince := since, waitRecs := waits, fqctl := 1 }

theorem met_RecordsReachTheirRings_tenant :
    findCtx (tracing true 1 (burdened 3 (some 0) [faulted])) 1 = some (burdened 3 (some 0) [faulted]) ∧
    (let c := burdened 3 none []
     c.trLost ≠ 0 ∧ trFull c = false ∧ grantRun c false true (0x800000 + 128) 64 = true ∧ memoriesWf (tracing true 1 c)) ∧
    (∀ now ∈ [15999, 16000], let c := burdened 0 (some 0) []
     c.trFall = false ∧ bitsOf c.trcfg.toNat 1 0 = 2 ∧ c.trSince = some 0 ∧ (0 + 16000 * 2 ^ bitsOf c.trcfg.toNat 43 40 ≤ now ↔ now = 16000)) ∧
    fqFull (burdened 0 none [faulted]) = false ∧ grantRun (burdened 0 none [faulted]) false true 0x300000 64 = true := by
  unfold memoriesWf
  decide +kernel

theorem test_tenant_reports :
    after (.lossRecord 1) (tracing true 1 (burdened 3 none [])) (fun u => (findCtx u 1).map (fun c => (c.trLost, c.trPend.length)) == some (0, 1)) =
      true ∧
    after (.losslessTimeout 1) { tracing false 1 (burdened 0 (some 0) []) with dtb := 16000 } (fun u =>
      (findCtx u 1).map (fun c => (c.trFall, c.trLost)) == some (true, 0)) = true ∧
    after (.faultQueueDrain 1) (tracing true 1 (burdened 0 none [faulted])) (fun u =>
      (findCtx u 1).map (fun c => (c.waitRecs, c.fqPend.length)) == some ([], 1) && fieldAt (memBytes u 0x300000 64) 56 8 == 0x12345 &&
      fieldAt (memBytes u 0x300000 64) 10 2 == 0x0102) = true := by decide +kernel

/-- A tenant with two records behind each of its write offsets, of which the first has completed. -/
def releasing : Ctx := { burdened 0 none [] with trPend := [900, 2000], fqPend := [900, 2000] }

theorem met_RecordsReachTheirRings_release : let s := tracing true 1 releasing
    findCtx s 1 = some releasing ∧ releasing.trPend = [900] ++ [2000] ∧ 900 ≤ dieNow s hubDie ∧ dieNow s hubDie < 2000 ∧
    releasing.fqctl.getLsbD 0 = true := by
  have now := coreNow_bounds (tracing true 1 releasing) 0
  have tick : (tracing true 1 releasing).dtb = 1000 := by decide +kernel
  have hub : ∀ die, (tracing true 1 releasing).dtb ≤ dieNow (tracing true 1 releasing) die + 32 ∧
      dieNow (tracing true 1 releasing) die ≤ (tracing true 1 releasing).dtb := by
    intro die
    simp only [dieNow]
    omega
  have := hub hubDie
  exact ⟨by decide +kernel, rfl, by omega, by omega, by decide +kernel⟩

/-- A command whose completion is to be written, or not. -/
def completing (done : Nat) (held : Bool) : State := { idle with completions := [⟨toDword done, 7, 3, 0, 1, [900], [(1, 5)], held⟩] }

theorem met_RecordsReachTheirRings_completion :
    (completing 0x10000 true).completions = [⟨0x10000, 7, 3, 0, 1, [900], [(1, 5)], true⟩] ∧ idle.parkq = [] ∧
    (∀ i ∈ [900], accessOut (completing 0 false) i = false) ∧ (0x10000#64).toNat + 16 ≤ deviceBytes ∧
    after .commandCompletion (completing 0x10000 true) (fun u => u == completing 0x10000 true) = true ∧
    after .commandCompletion (completing 0 false) (fun u => u == idle) = true ∧
    after .commandCompletion (completing 0x10000 false) (fun u => u.completions == []) = true := by decide +kernel

theorem met_TimeBaseFollowsItsSource : (2#2) ≠ 0 ∧ ({ idle with dtbSrc := 2 } : State).dtbSrc = (2#2).toNat ∧
    (∀ n ∈ [0, 3], ({ idle with dtbSrc := 2, dtbState := n } : State).dtbState = n) ∧
    after (.ptpMessage 2 5) { idle with dtbSrc := 2 } (fun u => u.dtbState == 1 && u.dtbLocked == false && u.traceBuf.length == 1) = true ∧
    after (.ptpMessage 1 5) { idle with dtbSrc := 2 } (fun u => u == { idle with dtbSrc := 2 }) = true ∧
    after .ptpSourceLost { idle with dtbState := 2 } (fun u => u.dtbState == 3 && u.traceBuf.length == 1) = true ∧
    ¬ (63 = 64 ∧ 0 % 64 = 0) := by decide +kernel

/-! ### Management -/

/-- A management record: sequence 7, context `n`, operation `op`, and its operands. -/
def command (op n operands : Nat) : BitVec 512 := BitVec.ofNat 512 (op + n * 2 ^ 40 + 7 * 2 ^ 48 + operands)

/-- The completions that a command leaves end with a status. -/
def status (n : Nat) (held : Bool) (u : State) : Bool := (u.completions.map (fun c => (c.seq, c.status, c.held))) == [(7, n, held)]

theorem legal_of (s : State) (r : BitVec 512) (op : Nat) (used : List (Nat × Nat))
    (h : s.inRom = false ∧ s.fenced = false ∧ bitsOf r.toNat 7 0 = op ∧ bitsOf r.toNat 39 8 = 0 ∧ bitsOf r.toNat 47 40 ≤ 31 ∧ bitsOf r.toNat 126 112 = 0)
    (k : ∀ i, i < 512 → 128 ≤ i → (∀ f ∈ used, ¬ (f.2 ≤ i ∧ i ≤ f.1)) → bitOf r.toNat i = false) : legalRecord s r op used := by
  obtain ⟨rom, fence, op, low, ctx, high⟩ := h
  refine ⟨rom, fence, op, low, ctx, high, fun i lo f => ?_⟩
  by_cases hi : i < 512
  · exact k i hi lo f
  · have big : r.toNat < 2 ^ i := Nat.lt_of_lt_of_le r.isLt (Nat.pow_le_pow_right (Nat.succ_pos 1) (Nat.le_of_not_lt hi))
    unfold bitOf
    rw [Nat.shiftRight_eq_div_pow, Nat.div_eq_of_lt big]
    rfl

theorem met_ContextCommandsEnd_fenced : idle.inRom = false ∧ ({ idle with inRom := true } : State).inRom = true ∧
    (({ idle with fenced := true } : State)).fenced = true ∧ bitsOf (command 1 2 0).toNat 7 0 = 1 ∧
    bitsOf (command 1 2 0).toNat 126 112 = 0 ∧ bitsOf (command 1 32 0).toNat 47 40 = 32 ∧ bitsOf (command 1 2 (2 ^ 400)).toNat 511 320 ≠ 0 ∧
    after (.ctxnew (command 1 2 0)) { idle with fenced := true } (status 5 false) = true ∧
    after (.ctxnew (command 1 2 (2 ^ 400))) idle (status 2 false) = true ∧
    after (.ctxnew (command 1 2 0)) { idle with inRom := true } (fun u => u.completions == []) = true := by decide +kernel

theorem met_ContextCommandsEnd_new : legalRecord idle (command 1 2 (0x100000 * 2 ^ 128 + 2 ^ 192)) 1 [(191, 128), (287, 192)] ∧
    findCtx idle 2 = none ∧ bitsOf (command 1 2 (0x100000 * 2 ^ 128 + 2 ^ 192)).toNat 139 128 = 0 ∧
    bitsOf (command 1 2 (0x100000 * 2 ^ 128 + 2 ^ 192)).toNat 191 128 < deviceBytes ∧ (findCtx idle 1).isSome = true ∧
    after (.ctxnew (command 1 2 (0x100000 * 2 ^ 128 + 2 ^ 192))) idle (fun u => status 0 false u &&
      (findCtx u 2).any (fun c => c.ptbase == 0x100000 && c.coreset == 1 && c.leasecfg == 5 && c.grants == [])) = true ∧
    after (.ctxnew (command 1 1 (0x100000 * 2 ^ 128))) idle (status 1 false) = true :=
  ⟨legal_of _ _ _ _ (by decide +kernel) (by decide +kernel), by decide +kernel⟩

theorem met_ContextCommandsEnd_delete : legalRecord idle (command 2 1 0) 2 [] ∧ (findCtx idle 1).isSome = true ∧ (∀ g ∈ idle.grids, g.ctx ≠ 1) ∧
    (∃ g ∈ world.grids, g.ctx = 1) ∧ after (.ctxdel (command 2 1 0)) idle (fun u => status 0 false u && (findCtx u 1).isNone) = true ∧
    after (.ctxdel (command 2 1 0)) world (status 1 false) = true :=
  ⟨legal_of _ _ _ _ (by decide +kernel) (by decide +kernel), by decide +kernel⟩

/-- Cached translations of pages 0x10 and 0x11, and a pointer entry for both. -/
def cached : State := { world with
    tlb := [⟨5, 1, 0x10, 7, 12⟩, ⟨5, 1, 0x11, 7, 12⟩], walkCache := [⟨0, 1, 1, 0, 1⟩] }

/-- `TLBINV` of 4 KiB from 0x10000. -/
def invalidation : BitVec 512 := command 3 1 (2 ^ 128 + 0x10000 * 2 ^ 192 + 4096 * 2 ^ 256)

theorem met_ContextCommandsEnd_tlbinv : legalRecord cached invalidation 3 [(128, 128), (255, 192), (319, 256)] ∧ (findCtx cached 1).isSome = true ∧
    bitOf invalidation.toNat 128 = true ∧ bitsOf invalidation.toNat 255 192 = 0x10000 ∧ bitsOf invalidation.toNat 319 256 = 4096 ∧
    after (.tlbinv invalidation) cached (fun u => status 0 false u && u.tlb == [⟨5, 1, 0x11, 7, 12⟩] && u.walkCache == []) = true :=
  ⟨legal_of _ _ _ _ (by decide +kernel) (by decide +kernel), by decide +kernel⟩

theorem met_ContextCommandsEnd_grant : legalRecord idle (command 4 1 (63 * 2 ^ 128 + (2 ^ 64 - 1) * 2 ^ 192)) 4 [(133, 128), (255, 192)] ∧
    after (.grant (command 4 1 (63 * 2 ^ 128 + (2 ^ 64 - 1) * 2 ^ 192))) idle (fun u => status 0 false u &&
      (findCtx u 1).any (fun c => sparseGet 0#64 c.grants 63 == 0xFFFFFFFFFFFFFC0B#64)) = true :=
  ⟨legal_of _ _ _ _ (by decide +kernel) (by decide +kernel), by decide +kernel⟩

theorem met_ContextCommandsEnd_linkadm : legalRecord idle (command 5 0 (4095 * 2 ^ 128 + (2 ^ 63 + 1) * 2 ^ 192)) 5 [(139, 128), (255, 192)] ∧
    bitsOf (command 5 0 (4095 * 2 ^ 128 + (2 ^ 63 + 1) * 2 ^ 192)).toNat 231 193 = 0 ∧ bitsOf (command 5 0 (3 * 2 ^ 192)).toNat 231 193 ≠ 0 ∧
    after (.linkadm (command 5 0 (4095 * 2 ^ 128 + (2 ^ 63 + 1) * 2 ^ 192))) idle (fun u => status 0 false u &&
      u.linkTable == [(4095, 0x8000000000000001#64)]) = true ∧
    after (.linkadm (command 5 0 (3 * 2 ^ 192))) idle (status 2 false) = true :=
  ⟨legal_of _ _ _ _ (by decide +kernel) (by decide +kernel), by decide +kernel⟩

theorem met_WorkCommandsEnd_write : legalRecord idle (command 6 1 (0x011 * 2 ^ 128 + 0x800000 * 2 ^ 192)) 6 [(139, 128), (255, 192)] ∧
    (0x011, true, { (idle.ctxs.head?.getD tenant) with trbase := 0x800000, trwr := 0, trrd := 0, trPend := [] }) ∈ ctxRegs (idle.ctxs.head?.getD tenant) 0x800000 ∧
    (0x102, false, { idle with lnktmo := 0 }) ∈ devRegs idle 0 ∧ 0x0FF ∉ (ctxReads (newCtx 0 0 0)).map (·.1) ∧
    after (.regwr (command 6 1 (0x011 * 2 ^ 128 + 0x800000 * 2 ^ 192))) idle (fun u => status 0 false u &&
      (findCtx u 1).map (·.trbase) == some 0x800000) = true ∧
    after (.regwr (command 6 0 (0x102 * 2 ^ 128))) idle (fun u => status 6 false u && u.lnktmo == 1000) = true ∧
    after (.regwr (command 6 0 (0x102 * 2 ^ 128 + 65536 * 2 ^ 192))) idle (fun u => status 0 false u && u.lnktmo == 65536) = true ∧
    after (.regwr (command 6 0 (0x0FF * 2 ^ 128))) idle (status 3 false) = true :=
  ⟨legal_of _ _ _ _ (by decide +kernel) (by decide +kernel), by decide +kernel⟩

theorem met_WorkCommandsEnd_read : legalRecord idle (command 7 1 (0x020 * 2 ^ 128 + 0x10000 * 2 ^ 192)) 7 [(139, 128), (255, 192)] ∧
    0x10000 % 8 = 0 ∧ 0x10000 + 8 ≤ deviceBytes ∧ memoriesWf idle ∧ (0x020, 0x300000#64) ∈ ctxReads (idle.ctxs.head?.getD tenant) ∧
    after (.regrd (command 7 1 (0x020 * 2 ^ 128 + 0x10000 * 2 ^ 192))) idle (fun u => status 0 false u && memBytes u 0x10000 8 == toBytes 8 0x300000) = true ∧
    after (.regrd (command 7 0 (0x102 * 2 ^ 128 + 0x10000 * 2 ^ 192))) idle (fun u => status 0 false u && memBytes u 0x10000 8 == toBytes 8 1000) = true :=
  ⟨legal_of _ _ _ _ (by decide +kernel) (by decide +kernel), by unfold memoriesWf; decide +kernel⟩

/-- A gang parked on a fault of page 0x12. -/
def parkedWorld : State := next (.instructionFetchFault 0x12345 .page) world

/-- `REPLAY` of page 0x12. -/
def replayed : BitVec 512 := command 16 1 (2 ^ 128 + 0x12000 * 2 ^ 192)

theorem met_WorkCommandsEnd_replay : legalRecord parkedWorld replayed 16 [(128, 128), (130, 129), (255, 192)] ∧ (findCtx parkedWorld 1).isSome = true ∧
    bitOf replayed.toNat 128 = true ∧ bitsOf replayed.toNat 203 192 = 0 ∧ bitsOf replayed.toNat 130 129 = 0 ∧ parkedWorld.saved = [] ∧
    (parkedWorld.waits.map (fun w => (w.ctx, w.byPage, w.key)) == [(1, true, 0x12)]) = true ∧ bitsOf replayed.toNat 255 204 = 0x12 ∧
    after (.replay replayed) parkedWorld (fun u => status 0 false u && u.waits == [] && u.gangs.all (fun g => g.parked.all (·.released))) = true ∧
    after (.replay replayed) world (status 3 false) = true :=
  ⟨legal_of _ _ _ _ (by decide +kernel) (by decide +kernel), by decide +kernel⟩

theorem met_WorkCommandsEnd_kill : legalRecord world (command 17 1 0) 17 [(128, 128), (191, 160)] ∧ (findCtx world 1).isSome = true ∧
    bitOf (command 17 1 0).toNat 128 = false ∧ findGrid world 1 0 = some grid ∧ findGrid world 1 5 = none ∧ grid.killed = none ∧
    bitOf (command 17 1 (2 ^ 128)).toNat 128 = true ∧ (world.grids.map (fun g => (g.ctx, g.index))).Nodup ∧
    (∀ x ∈ [0, 2 ^ 128], after (.kill (command 17 1 x)) world (fun u => status 0 false u && u.grids.map (·.killed) == [some 0xFE] &&
      u.gangs.all (fun k => k.threads == []) && u.mem == world.mem) = true) ∧
    after (.kill (command 17 1 (5 * 2 ^ 160))) world (status 3 false) = true :=
  ⟨legal_of _ _ _ _ (by decide +kernel) (by decide +kernel), by decide +kernel⟩

/-- `PREEMPT` to an area at 0x10000000 of as many bytes as given, and `RESUME` from it. -/
def preemption (size : Nat) : BitVec 512 := command 18 1 (0x10000000 * 2 ^ 192 + size * 2 ^ 256)

/-- The machine with a tenant on one cluster, in a state of its save. -/
def savable (save : Nat) : State :=
  { world with
    ctxs := [{ tenant with coreset := 2, save := save }]
    saved := if save = 0 then [] else [⟨1, 0x10000000, [], [], [], [], [], [], [], [], [], []⟩] }

theorem met_WorkCommandsEnd_preempt :
    legalRecord (savable 0) (preemption (4096 + 10 * 2 ^ 20)) 18 [(255, 192), (319, 256)] ∧ bitsOf 0x10000000 62 48 = 0 ∧
    ((List.range 96).filter (fun k => (2#96).getLsbD k)).length = 1 ∧
    after (.preempt (preemption (4096 + 10 * 2 ^ 20))) (savable 0) (fun u => status 0 true u && u.ctxs.map (·.save) == [1] && u.saved.length == 1) = true ∧
    after (.preempt (preemption (4095 + 10 * 2 ^ 20))) (savable 0) (status 4 false) = true ∧
    after (.preempt (preemption (4096 + 10 * 2 ^ 20))) (savable 1) (status 1 false) = true :=
  ⟨legal_of _ _ _ _ (by decide +kernel) (by decide +kernel), by decide +kernel⟩

theorem met_WorkCommandsEnd_resume : legalRecord (savable 2) (command 19 1 (0x10000000 * 2 ^ 192)) 19 [(255, 192)] ∧
    ((savable 2).saved.find? (fun v => v.ctx == 1)).map (·.area) = some 0x10000000 ∧
    after (.resume (command 19 1 (0x10000000 * 2 ^ 192))) (savable 2) (fun u => status 0 true u && u.ctxs.map (·.save) == [3]) = true ∧
    after (.resume (command 19 1 (0x10001000 * 2 ^ 192))) (savable 2) (status 3 false) = true ∧
    after (.resume (command 19 1 (0x10000000 * 2 ^ 192))) (savable 1) (status 1 false) = true :=
  ⟨legal_of _ _ _ _ (by decide +kernel) (by decide +kernel), by decide +kernel⟩

theorem met_WorkCommandsEnd_resync : let s := { idle with fenced := true }
    legalRecord { s with fenced := false } (command 32 0 (0x10000 * 2 ^ 192)) 32 [(255, 192)] ∧ 0x10000 % 4096 = 0 ∧ 0x10000 + 4096 ≤ deviceBytes ∧
    memoriesWf s ∧ s.ports.length = 24 ∧ s.sinks.length = 4 ∧ s.mrs.length = 16 ∧
    after (.resync (command 32 0 (0x10000 * 2 ^ 192))) s (fun u => status 0 false u && u.nres == 1) = true :=
  ⟨legal_of _ _ _ _ (by decide +kernel) (by decide +kernel), by unfold memoriesWf; decide +kernel⟩

/-! ### Escalated elements and soft errors -/

/-- An entry of FP32 register 20 of thread 0 of the gang, with result 1. -/
def entry : ParkEntry :=
  { cluster := 1, seq := 5, stage := 0, kind := 0, ctx := 1, core := 1, slot := 3, lane := 0, reg := 20, half := 0, tile := 0, elem := 0, rm := .rne,
    fmt := 0, opc := 1, parts := 1, ptime := 0, since := 0, payload := [3], place := [], cmd := 0, decider := 1, result := 0x3F800000, flags := flagNX, opnds := [3], near := ⟨0x3F800000, flagNX⟩, soft := false }

/-- The machine with that entry, its element pending. -/
def parkedEntry (e : ParkEntry) : State :=
  { withGang (gangWith gang.sregs (fun t => if t.lpos = 0 then { t with pend := [⟨20, 0, 0, 5⟩] } else t)) with parkq := [e] }

/-- Its gang. -/
def pendingGang : Gang := gangWith gang.sregs (fun t => if t.lpos = 0 then { t with pend := [⟨20, 0, 0, 5⟩] } else t)

theorem met_EscalationsResolve_accept : unitTraceHeld (parkedEntry entry) (.brock 1) = false ∧ (parkedEntry entry).parkq = [] ++ entry :: [] ∧
    entry.cluster = 1 ∧ entry.stage = 0 ∧ entryReached (parkedEntry entry) entry = true ∧ (∀ c ∈ (parkedEntry entry).ctxs, c.save ≠ 1) ∧
    (let s := parkedEntry { entry with since := 990 }
     (∀ x ∈ s.parkq, entryReached s x = false) ∧ after (.brockAccept 1) s (fun u => u == s) = true) ∧
    after (.brockAccept 1) (parkedEntry entry) (fun u => u.parkq == [{ entry with stage := 1, since := u.dtb }]) = true := by decide +kernel

/-- An entry of a gang that is being saved, behind one of a matrix command. -/
def savedEntry : ParkEntry := { entry with seq := 6 }

theorem met_EscalationsResolve_ahead :
    let s := { parkedEntry { entry with kind := 3 } with parkq := [{ entry with kind := 3 }, savedEntry], ctxs := [{ tenant with save := 1 }] }
    s.parkq = [{ entry with kind := 3 }] ++ savedEntry :: [] ∧ unitTraceHeld s (.brock 1) = false ∧ savedEntry.cluster = 1 ∧
    savedEntry.stage = 0 ∧ entryReached s savedEntry = true ∧ savedEntry.kind < 2 ∧ (∃ c ∈ s.ctxs, c.id = savedEntry.ctx ∧ c.save = 1) ∧ ¬ ({ entry with kind := 3 } : ParkEntry).kind < 2 ∧
    after (.brockAccept 1) s (fun u => u.parkq.map (·.stage) == [0, 1]) = true := by decide +kernel

theorem met_EscalationsResolve_decide :
    ∀ e ∈ [{ entry with stage := 1 }, { entry with stage := 1, decider := 2 }, { entry with stage := 1, decider := 2, soft := true }],
      e ∈ (parkedEntry e).parkq ∧ e.cluster = 1 ∧ e.stage = 1 ∧ entryReached (parkedEntry e) e = true ∧ e.kind < 2 ∧
      findGang (parkedEntry e) (1 * 4 + e.core) e.slot = some pendingGang ∧ (∀ t ∈ pendingGang.threads, sparseWf 0#32 t.v = true) ∧
      after (.brockDecide 1) (parkedEntry e) (fun u => u.parkq.map (·.stage) == (if e.decider = 2 ∧ !e.soft then [2] else [])) = true := by
  decide +kernel

theorem met_EscalationsResolve_sett :
    ∀ e ∈ [{ entry with stage := 2 }, { entry with stage := 2, soft := true }, { entry with stage := 2, fmt := 3, half := 1 }],
      (parkedEntry e).parkq.find? (fun x => x.cluster == 1 && x.seq == 5 && x.stage == 2 && entryReached (parkedEntry e) x) = some e ∧ e.seq = 5 ∧
      after (.settResolve 1 5) (parkedEntry e) (fun u => u.parkq == [] && (findGang u 5 3).any (fun k => k.escs == 1 && k.escb == 0 &&
        k.threads.all (fun t => t.pend == []) &&
        (e.fmt == 3 || (lane k 0 20).toNat == (if e.soft then 0x7FC00000 else 0x3F800000)) &&
        (k.threads.map (·.poison)).head? == some (if e.soft then [20] else []))) = true := by decide +kernel

/-- A tile element of the product of `passGranted`, and the machine with it. -/
def tileEntry_ : ParkEntry := { entry with kind := 3, tile := 3, elem := 7, cmd := 1000, stage := 1 }

/-- The machine with that element pending. -/
def tilePending (e : ParkEntry) : State := { passGranted with parkq := [e], tilePend := [(1 * 16 + 3) * 2 ^ 14 + 7] }

theorem met_EscalationsResolve_tile :
    (tilePending tileEntry_).parkq = [tileEntry_] ∧ tileEntry_.stage = 1 ∧ tileEntry_.kind = 3 ∧ tileEntry_.fmt = 0 ∧
    findCmd (tilePending tileEntry_) tileEntry_.cmd = some (cmdOf passGranted) ∧ sparseWf 0#32 (tilePending tileEntry_).tiles = true ∧
    after (.settResolve 1 5) (tilePending { tileEntry_ with stage := 2 }) (fun u => tileAt u ((1 * 16 + 3) * 2 ^ 14 + 7) == 0x3F800000 &&
      u.tilePend == [] && (findCmd u 1000).map (·.flags) == some flagNX) = true ∧
    after (.settResolve 1 5) (tilePending { tileEntry_ with stage := 2, soft := true }) (fun u => tileAt u ((1 * 16 + 3) * 2 ^ 14 + 7) == 0x7FC00000 &&
      (findCmd u 1000).map (·.err) == some true) = true := by decide +kernel

/-- A machine with something of each kind that a soft error strikes. -/
def struck : State :=
  { parkedEntry entry with
    lines := [⟨.l1 5, 0x100, [], 0⟩, ⟨.rdc 0, 0x200, [], 0⟩], tlb := [⟨5, 1, 0x10, 7, 12⟩, ⟨6, 1, 0x10, 7, 12⟩]
    walkCache := [⟨0, 1, 1, 0, 1⟩, ⟨0, 1, 1, 1, 1⟩], icache := [(5, 0x300)], privLines := [privLine 0, { privLine 1 with ctx := 2 }] }

theorem met_SoftErrorsAct : findGang struck 5 3 = some pendingGang ∧ (findThread pendingGang 0).isSome = true ∧
    findPriv struck 5 1 0 (privLine 0).va = some (privLine 0) ∧ (privLine 0).dirty = 0 ∧
    findPriv struck 5 2 0 (privLine 0).va = some { privLine 1 with ctx := 2 } ∧ (privLine 1).dirty ≠ 0 ∧ (privLine 1).valid ≠ 0 ∧
    struck.tlb = [⟨5, 1, 0x10, 7, 12⟩] ++ ⟨6, 1, 0x10, 7, 12⟩ :: [] ∧ struck.walkCache = [⟨0, 1, 1, 0, 1⟩] ++ ⟨0, 1, 1, 1, 1⟩ :: [] ∧ (∃ c ∈ struck.lines, c.holder = .l1 5 ∧ c.line = 0x100) ∧
    struck.teams.find? (fun t => t.core == 5 && t.uid == 40) = some team ∧ findTeam struck team.ctx team.grid team.index = some team ∧
    (∃ c ∈ struck.lines, c.holder = .rdc 0 ∧ c.line = 0x200) ∧ struck.parkq.find? (fun e => e.cluster == 1 && e.seq == 5) = some entry ∧
    findCtx struck gang.ctx = some tenant ∧ (lineOwner struck 0x200).map (·.1) = some 1 ∧
    findGrid struck 1 0 = some grid ∧ grid.killed = none ∧ (struck.grids.map (fun g => (g.ctx, g.index))).Nodup ∧ sparseWf 0 struck.softUnc = true := by
  decide +kernel

theorem test_soft_errors :
    after (.softErrorCorrected 2) struck (fun u => u.softCorr == [(2, 1)]) = true ∧
    after (.softErrorUncorrectable (.vreg 5 3 0 9)) struck (fun u => (findGang u 5 3).any (fun k => (k.threads.map (·.poison)).head? == some [9]) &&
      u.softUnc == [(0, 1)]) = true ∧
    after (.softErrorUncorrectable (.l1Line 5 0x100)) struck (fun u => u.lines == [⟨.rdc 0, 0x200, [], 0⟩] && u.softUnc == [(2, 1)]) = true ∧
    after (.softErrorUncorrectable (.privLine 5 2 0 (privLine 0).va)) struck (fun u => u.privLines.map (·.poison) == [0, 1] &&
      u.softUnc == [(2, 1)]) = true ∧
    after (.softErrorUncorrectable (.tlb 0)) struck (fun u => u.tlb == [⟨6, 1, 0x10, 7, 12⟩]) = true ∧
    after (.softErrorUncorrectable (.hbmLine 0x80)) struck (fun u => u.memPoison == [0x80] && u.softUnc == [(7, 1)]) = true ∧
    after (.softErrorUncorrectable (.staged 1 5)) struck (fun u => u.parkq.map (·.soft) == [true] && u.softUnc == [(10, 1)]) = true ∧
    after (.softErrorUncorrectable (.denOrReservation 1 0)) struck (fun u => u.grids.all (·.killed.isSome)) = true ∧
    after (.softErrorUncorrectable .unowned) struck (fun u => u.fenced && u.grids.all (·.killed.isSome) && u.mem == struck.mem) = true := by
  decide +kernel

/-! ### Reset, attestation and the step -/

theorem met_ResetMeasuresAndAttests : idle.mrs.length = 16 ∧ idle.inRom = false ∧ ({ idle with inRom := true } : State).inRom = true ∧
    after (.firmwareUpdate []) { idle with inRom := true } (fun u => u == { idle with inRom := true }) = true ∧
    after (.getVersion 3) { idle with inRom := true } (fun u => u == { idle with inRom := true }) = true ∧
    after (.getDigests 3) idle (fun u => u.spdm.out == [(3, .error)]) = true ∧
    after (.negotiateAlgorithms 3 false true) idle (fun u => u.spdm.agreed == [3] && u.spdm.out == [(3, .algorithms)]) = true ∧
    after (.deviceReset []) { world with fenced := true, dtb := 9 } (fun u => u.gangs == [] && u.ctxs == [] && u.dtb == 0 && !u.fenced &&
      u.mrs == List.replicate 16 0) = true := by decide +kernel

/-- Whatever the vendor has signed, one of the cases of an image holds. -/
theorem met_ResetMeasuresAndAttests_signed (image : List Byte) : Config.vendorSigned image = true ∨ Config.vendorSigned image = false := by
  cases Config.vendorSigned image
  · exact .inr rfl
  · exact .inl rfl

/-- The first bundle after reset where `MOVI5` stands in its place. -/
def fetching : State := State.reset.withFetchWord 16 0

theorem met_StepRunsTheDecodedBundle : fetching.agenda = [] ∧ fetching.gangs.length = 1 ∧
    (fetching.gangs.all (fun g => g.paths.length == 1 && g.parked == [] && g.paths.all (fun p => p.hold == none && decide (p.ent < 8) &&
      decide (meetMask g p = 0)) && decide (g.quantum < 256) && gangReady fetching g)) = true ∧ fetching.withheld = [] ∧
    findRelease fetching = none ∧ findMove fetching = none ∧ pendingEvents fetching = [] ∧
    (fetching.gangs.all (fun g => g.paths.all (fun p =>
      match fetchBundle fetching g.core g.ctx 3 p.pc.toNat with
      | .ok ws => (match decodeBundle (vregsLegal (gangVregs fetching g)) (ws.map (fun x => x.2.1)) with
        | .ok _ => true
        | .error _ => false)
      | .error _ => false))) = true := by decide +kernel

end Sys2Proof.Tests
end

