-- ==== Sys2Proof/Tests/Slice0.lean ====
section
/-! SUPPORT. Tests: a word of every encoded instruction, written out from the fields of spec/opcode_table.json and the encodings of
spec/02 to spec/20; ill-formed instructions; single steps on a small machine with results worked out from the entries of spec/; and the
premises of the statements about the whole machine. -/

set_option Elab.async false

namespace Sys2Proof.Tests

open Sys2Proof.Machine Sys2Proof.Claims

/-! ### Words -/

/-- The words of a list that do not decode to the instruction beside them. -/
def misread (l : List (Nat × Nat × Instr)) : List (Nat × Nat) :=
  (l.filter (fun x => decide (decodeTableWord x.1 x.2.1 ≠ some x.2.2))).map (fun x => (x.1, x.2.1))

theorem test_words_short : misread [
    (16, 0x4402, .mov 8 16 true),
    (16, 0x4406, .iaddShort 8 16 true),
    (16, 0x440A, .isubShort 8 16 true),
    (16, 0x440E, .andShort 8 16 true),
    (16, 0x4412, .orShort 8 16 true),
    (16, 0x4416, .xorShort 8 16 true),
    (16, 0x441A, .shlShort 8 16 true),
    (16, 0x441E, .shrlShort 8 16 true),
    (16, 0x4422, .faddShort 8 16 true),
    (16, 0x4426, .fsubShort 8 16 true),
    (16, 0x442A, .fmulShort 8 16 true),
    (16, 0x442E, .fmaxShort 8 16 true),
    (16, 0x4432, .fminShort 8 16 true),
    (16, 0x4436, .imulShort 8 16 true),
    (16, 0x9C3A, .movi5 19 16 true),
    (16, 0x003E, .nop true)] = [] := by decide +kernel

theorem test_words_float : misread [
    (32, 0x46144803, .fadd .f16 24 40 72 true),
    (32, 0xC6144803, .fsub .f16 24 40 72 true),
    (32, 0x46144807, .fmul .f16 24 40 72 true),
    (32, 0xC6144807, .fnmul .f16 24 40 72 true),
    (32, 0x4614480B, .fma .f16 24 40 72 true),
    (32, 0xC614480B, .fms .f16 24 40 72 true),
    (32, 0x4614480F, .fdiv .f16 24 40 72 true),
    (32, 0xC614480F, .frem .f16 24 40 72 true),
    (32, 0x46144813, .fmin .f16 24 40 72 true),
    (32, 0xC6144813, .fmax .f16 24 40 72 true),
    (32, 0x40144817, .fsqrt .f16 40 72 true),
    (32, 0xC0144817, .frsq .f16 40 72 true),
    (32, 0x4614151B, .fcmp .f16 24 40 2 5 true),
    (32, 0xC614151B, .fcmpSig .f16 24 40 2 5 true),
    (32, 0x6254481F, .fcvt 3 9 40 72 true),
    (32, 0x42544823, .ffn .f16 9 40 72 true),
    (32, 0x46144827, .fscale .f16 24 40 72 true),
    (32, 0xC0144827, .flogb .f16 40 72 true),
    (32, 0x4614482B, .fsgn .f16 24 40 72 true),
    (32, 0xC014482B, .fclass .f16 40 72 true)] = [] := by decide +kernel

theorem test_words_rows : misread [
    (32, 0x2564962F, .rowopRedSum 37 100 150 true),
    (32, 0x6564962F, .rowopSmx 37 100 150 true),
    (32, 0xA564962F, .rowopStat 37 100 150 true),
    (32, 0xE564962F, .rowopUpd 37 100 150 true)] = [] := by decide +kernel

theorem test_words_integer : misread [
    (32, 0x26144833, .iadd 1 24 40 72 true),
    (32, 0xA6144833, .isub 1 24 40 72 true),
    (32, 0x26144837, .imul 1 24 40 72 true),
    (32, 0xA6144837, .imad 1 24 40 72 true),
    (32, 0x2614483B, .idiv 1 24 40 72 true),
    (32, 0xA614483B, .irem 1 24 40 72 true),
    (32, 0x8614483F, .logic 4 24 40 72 true),
    (32, 0x86144843, .shift 4 24 40 72 true),
    (32, 0x26144847, .imin 1 24 40 72 true),
    (32, 0xA6144847, .imax 1 24 40 72 true),
    (32, 0x2614154B, .icmp 1 24 40 2 5 true),
    (32, 0x8014484F, .bits 4 40 72 true),
    (32, 0x06144853, .bfeU 24 40 72 true),
    (32, 0x26144853, .bfeS 24 40 72 true),
    (32, 0x46144853, .bfi 24 40 72 true),
    (32, 0xA6144857, .sel 5 24 40 72 true),
    (32, 0xC614485B, .lea true 2 24 40 72 true),
    (32, 0x8141865F, .plop 4 5 3 6 true)] = [] := by decide +kernel

theorem test_words_immediate : misread [
    (32, 0xA9544863, .iaddi 677 40 72 true),
    (32, 0xA9544867, .andi 677 40 72 true),
    (32, 0xA954486B, .ori 677 40 72 true),
    (32, 0xA954486F, .xori 677 40 72 true),
    (32, 0x85544873, .shfi 4 21 40 72 true),
    (32, 0xA9545577, .icmpi 677 40 10 5 true),
    (32, 0xAD1E487B, .movil 88636 72 true),
    (32, 0x51AE487F, .movih 41820 72 true)] = [] := by decide +kernel

theorem test_words_exchange : misread [
    (32, 0x26144883, .shfl 1 24 40 72 true),
    (32, 0x20AC4887, .vxsBcast true 344 72 true),
    (32, 0x21AC4887, .vxsReadf true 344 72 true),
    (32, 0x22AC4887, .vxsReadi true 344 72 true),
    (32, 0x0001868B, .voteAny 3 6 true),
    (32, 0x2001868B, .voteAll 3 6 true),
    (32, 0x4001C88B, .voteBallot 3 72 true),
    (32, 0x6014068B, .voteEq 40 6 true),
    (32, 0x20D4488F, .gred 1 3 40 72 true)] = [] := by decide +kernel

theorem test_words_memory : misread [
    (32, 0xA5544893, .ldg 2 4 21 40 72 true),
    (32, 0xBD544893, .ldm8 2 21 40 72 true),
    (32, 0xAD544897, .stg 2 5 21 40 72 true),
    (32, 0xA554489B, .ldt 2 4 21 40 72 true),
    (32, 0xAD54489F, .stt 2 5 21 40 72 true),
    (32, 0xA55448A3, .ldp 2 4 21 40 72 true),
    (32, 0xB55448A7, .stp 2 6 21 40 72 true),
    (32, 0x961448AB, .atom 4 true 24 40 72 true),
    (32, 0x161448AF, .atomxUmax true 24 40 72 true),
    (32, 0x361448AF, .atomxCas true 24 40 72 true),
    (32, 0x561448AF, .atomxFadd true 24 40 72 true),
    (32, 0x761401AF, .atomxFadda true 24 40 true true),
    (32, 0x901448AF, .atomxLr true 40 72 true),
    (32, 0xB61448AF, .atomxSc true 24 40 72 true),
    (32, 0xD61448AF, .atomxFmax true 24 40 72 true),
    (32, 0xF61448AF, .atomxFmin true 24 40 72 true),
    (32, 0x055463B3, .cachePref 21 40 99 true),
    (32, 0x0D5463B3, .cacheLinv 21 40 99 true),
    (32, 0x155463B3, .cachePwb 21 40 99 true),
    (32, 0x1D5463B3, .cachePinv 21 40 99 true)] = [] := by decide +kernel

theorem test_words_engine : misread [
    (32, 0x256496B7, .copyLoad 37 100 150 true),
    (32, 0x656496B7, .copyStore 37 100 150 true),
    (32, 0xA56496B7, .copyMove 37 100 150 true),
    (32, 0xE56496B7, .copyNetred 37 100 150 true),
    (32, 0x256496BB, .mma 37 100 150 true),
    (32, 0x656496BB, .mmat 37 100 150 true),
    (32, 0xA56496BB, .wload 37 100 150 true),
    (32, 0xE56496BB, .accxSt 37 100 150 true),
    (32, 0x256496BF, .quant 37 100 150 true),
    (32, 0x656496BF, .deq 37 100 150 true),
    (32, 0xA56496BF, .qpair 37 100 150 true),
    (32, 0xE56496BF, .cvtt 37 100 150 true)] = [] := by decide +kernel

theorem test_words_scalar : misread [
    (32, 0x4AB0C8C3, .salu 18 344 200 true),
    (32, 0xA5CEC8C7, .simm 2652 7 200 true),
    (32, 0x0AB0C8CB, .smemLoad 2 344 200 true),
    (32, 0x12B0C8CB, .smemStore 4 344 200 true),
    (32, 0x0024C8CF, .ssysRd 18 200 true),
    (32, 0x0442C8CF, .ssysWr 33 200 true),
    (32, 0x0832C8CF, .ssysRd64 25 200 true),
    (32, 0x0C26C8CF, .ssysWr64 19 200 true),
    (32, 0x114AC8CF, .ssysMbrd 165 200 true),
    (32, 0x14B4C8CF, .ssysMbwr 90 200 true),
    (32, 0x182A48CF, .ssysVrd 21 72 true),
    (32, 0x1C2848CF, .ssysVwr 20 72 true)] = [] := by decide +kernel

theorem test_words_flow : misread [
    (32, 0x5A5A5AD3, .bra 5921370 true),
    (32, 0x5A5A5AD7, .call 5921370 true),
    (32, 0x5A5A5DDB, .brc 370085 true 5 true),
    (32, 0xA96B58DF, .bru 10842 true 344 true),
    (32, 0x000000E3, .ret true),
    (32, 0x210048E3, .jmpr true 72 true),
    (32, 0x22AC00E3, .meet 1 344 0 true),
    (32, 0x030000E3, .exit true),
    (32, 0x840048E3, .next 4 72 true),
    (32, 0x850048E3, .spawn 4 72 true),
    (32, 0x06AC48E3, .susp 344 72 true),
    (32, 0x070000E3, .yield true)] = [] := by decide +kernel

theorem test_words_gang_and_sync : misread [
    (32, 0x02B0C8E7, .fuse 344 200 true),
    (32, 0x040AC8E7, .split 5 200 true),
    (32, 0x080AC8E7, .elect 5 200 true),
    (32, 0x0C0000E7, .gsync true),
    (32, 0x1006C8E7, .ginfo 3 200 true),
    (32, 0x400005EB, .barArrive 1 5 true),
    (32, 0x500005EB, .barWait 1 5 true),
    (32, 0x600005EB, .barSync 1 5 true),
    (32, 0x000000EF, .fenceTeam true),
    (32, 0x040000EF, .fenceCrew true),
    (32, 0x080000EF, .fenceDev true),
    (32, 0x0C0000EF, .fenceSys true),
    (32, 0x12B025EF, .waitt 344 37 true),
    (32, 0x140025EF, .tlsig 37 true),
    (32, 0x180000EF, .waitv true),
    (32, 0x1C0000EF, .succok true),
    (32, 0x22B002EF, .cset 344 2 true),
    (32, 0x26B002EF, .csign 344 2 true),
    (32, 0x280009EF, .garm 9 true),
    (32, 0x2EB009EF, .gset 344 9 true)] = [] := by decide +kernel

theorem test_words_difference_and_system : misread [
    (32, 0x02B00BF3, .dropen 344 11 true),
    (32, 0x04000BF3, .drclose 11 true),
    (32, 0x080002F3, .dmode 2 true),
    (32, 0x0EB0C8F3, .adjrd 344 200 true),
    (32, 0x12B0C8F3, .adjclr 344 200 true),
    (32, 0x1400C8F3, .tapeposRdhead 200 true),
    (32, 0x1402C8F3, .tapeposWrhead 200 true),
    (32, 0x1564C8F3, .tapeposRdseg 11 200 true),
    (32, 0x1566C8F3, .tapeposWrseg 11 200 true),
    (32, 0x000000F7, .sysNop true),
    (32, 0x0400A5F7, .trap 165 true),
    (32, 0x0800A5F7, .bkpt 165 true),
    (32, 0x0C0000F7, .rtrap true),
    (32, 0x12B05AF7, .evt 344 90 true),
    (32, 0x16B05AF7, .evtm 344 90 true)] = [] := by decide +kernel

/-- The worked words of R126, R257, R266 and R271. -/
theorem test_words_worked : misread [
    (32, 0x21829249, .icmp 1 6 5 2 2 false), (32, 0x68810695, .stg 1 5 2 2 6 false), (32, 0x23020AAF, .atomxCas false 12 4 10 true),
    (32, 0x084083B1, .cacheLinv 1 1 3 false)] = [] := by decide +kernel

/-- Words of no instruction (R43, R52): a must-be-zero field set, an unlisted function, a major with no entry. -/
theorem test_reserved_words :
    [(16, 0x007C), (32, 0x20400015), (32, 0x00008255), (32, 0xA000004D), (32, 0x60000051), (32, 0xE0000081), (32, 0x80000089),
     (32, 0xFC0000C1), (32, 0x180000C9), (32, 0xC60000E1), (32, 0x000000FB), (32, 0x000000FF)].filterMap
      (fun x => decodeTableWord x.1 x.2) = [.sel 0 0 1 2 false] := by decide +kernel

/-- An instruction that breaks each limit of its operands. -/
def illFormed : List Instr :=
  [.fadd .f64 2 4 7 false, .fsqrt .f64 3 4 false, .fscale .f64 0 2 3 false, .fclass .f64 5 1 false, .fcmp .f32 1 2 8 0 false,
   .fcvt 0 14 0 0 false, .fcvt 5 2 0 0 false, .fcvt 0 1 3 0 false, .ffn .f32 14 1 2 false, .ffn .f64 1 1 2 false,
   .rowopSmx 0 253 0 false, .rowopUpd 0 0 253 false, .imad 2 1 2 3 false, .idiv 2 1 2 3 false, .imin 3 1 2 3 false, .icmp 2 1 2 0 0 false,
   .icmp 0 1 2 6 0 false, .shift 5 0 1 2 false, .bits 5 1 2 false, .lea false 0 0 1 2 false, .shfi 0 32 1 2 false, .shfi 6 0 1 2 false,
   .icmpi 0 1 6 0 false, .vxsBcast true 1 2 false, .voteBallot 0 3 false, .gred 6 0 1 2 false, .gred 0 6 1 2 false, .gred 3 4 1 2 false,
   .gred 0 2 1 2 false, .ldg 3 0 0 0 0 false, .ldg 0 7 0 0 0 false, .ldt 0 5 0 0 1 false, .ldp 0 6 0 0 2 false, .ldm8 0 0 0 4 false,
   .stg 0 1 0 0 0 false, .stt 0 3 0 0 0 false, .stp 0 5 0 0 1 false, .atom 0 false 0 1 0 false, .atom 0 true 1 0 0 false,
   .atomxUmax true 0 0 1 false, .atomxCas false 1 0 0 false, .atomxCas true 2 0 0 false, .atomxFadda true 1 0 false false,
   .atomxLr true 0 1 false, .atomxSc true 1 0 0 false, .copyLoad 0 251 0 false, .copyNetred 0 0 255 false, .mma 0 0 255 false,
   .quant 0 0 253 false, .salu 21 0 0 false, .salu 18 1 0 false, .simm 0 7 1 false, .smemLoad 3 0 0 false, .smemLoad 0 1 0 false,
   .smemLoad 2 0 2 false, .smemStore 2 0 0 false, .smemStore 4 0 1 false, .ssysRd 0x013 0 false, .ssysWr 0x002 0 false, .ssysRd64 0x010 0 false,
   .ssysWr64 0x019 0 false, .ssysMbrd 256 0 false, .ssysMbwr 0 1 false, .ssysVrd 0x010 0 false, .ssysVwr 0x016 0 false, .jmpr false 1 false,
   .meet 0 0 1 false, .meet 1 1 0 false, .meet 2 0 1 false, .meet 4 0 0 false, .next 5 0 false, .spawn 0 1 false, .susp 507 0 false,
   .ginfo 5 0 false, .ginfo 0 1 false, .barArrive 0 16 false, .barWait 1 8 false, .barSync 2 4 false, .barSync 3 256 false, .waitt 1 0 false,
   .cset 0 15 false, .csign 0 15 false, .dropen 1 0 false, .dmode 3 false, .adjrd 1 0 false, .adjclr 1 0 false, .tapeposRdhead 1 false,
   .tapeposRdseg 0 2 false, .tapeposWrhead 1 false, .tapeposWrseg 0 2 false, .evt 1 0 false, .evtm 504 0 false]

/-- Each of them is ill-formed, and its word does not decode to it. -/
theorem test_ill_formed :
    illFormed.filter (fun i => operandsLegal i || decide ((encode i).bind decodeWord = some i) || (encode i).isNone) = [] := by decide +kernel

/-- What a delimited bundle decodes to. -/
def bundled (ws : List CodeWord) : Sum DecodeError Bundle :=
  match decodeBundle (fun _ _ => true) ws with
  | .ok b => .inr b
  | .error e => .inl e

/-- Bundles (R28, R44 to R46, R52): a prefix of each kind, in either order; a prefix before a short word, one of a kind twice, a reserved
field, a rounding override where none is accepted. -/
theorem test_bundles :
    bundled [.long 0x0000F6FF, .long 0x00000EFB, .long 0x00408161] =
      Sum.inl .illegalEncoding ∧
    bundled [.long 0x0000FAFD, .short 0x003C] = Sum.inl .illegalEncoding ∧
    bundled [.long 0x0000F2FD, .long 0x00408161] =
      Sum.inr ⟨⟨0, 0, false, 0, false, 0, 7, true, false, 2⟩, none, .iaddi 1 1 1 false⟩ ∧
    bundled [.long 0x000005F9, .long 0x0000F2FD, .long 0x00408161] =
      Sum.inr ⟨⟨0, 0, false, 0, false, 0, 7, true, false, 2⟩, some 5, .iaddi 1 1 1 false⟩ ∧
    bundled [.long 0x1000E0FD, .long 0x00408161] = Sum.inl .reservedField ∧
    bundled [.long 0x000020FD, .long 0x00408161] = Sum.inl .illegalEncoding ∧
    bundled [.long 0x0000E0FD, .long 0x0000E0FD, .long 0x00408161] = Sum.inl .illegalEncoding ∧
    bundled [.short 0x003C] = Sum.inr ⟨pfxNone, none, .nop false⟩ := by decide +kernel

/-! ### Steps -/

/-- The small machine where every thread's vector registers hold what is listed. -/
def holding (v : List (Nat × Word)) : State := withGang (gangWith gang.sregs (fun t => { t with v := v, preds := 0b10#8 }))

/-- Vector register `d` of thread 2 after an instruction on registers that hold what is listed. -/
def result (i : Instr) (v : List (Nat × Word)) (d : Nat) : Option Word :=
  match exec i (holding v) with
  | .next u => (curGang u).map (fun k => lane k 2 d)
  | _ => none

/-- The same, with the flags raised. -/
def flagged (i : Instr) (v : List (Nat × Word)) (d : Nat) : Option (Word × Word) :=
  match exec i (holding v) with
  | .next u => (curGang u).map (fun k => (lane k 2 d, k.fstat))
  | _ => none

/-- Predicate `p` of thread 2 after an instruction. -/
def predicate (i : Instr) (v : List (Nat × Word)) (p : Nat) : Option Bool :=
  match exec i (holding v) with
  | .next u => (curGang u).bind (fun k => (findThread k 2).map (fun t => t.preds.getLsbD p))
  | _ => none

/-- R122 to R125: sums wrap or saturate; −7 / 2 is −3 with remainder −1; a divisor of 0. -/
theorem test_integer :
    result (.iadd 0 2 1 9 false) [(1, 0xFFFFFFFF), (2, 3)] 9 = some 2 ∧
    result (.iadd 3 2 1 9 false) [(1, 0x7FFFFFFF), (2, 1)] 9 = some 0x7FFFFFFF ∧
    result (.isub 2 2 1 9 false) [(1, 3), (2, 5)] 9 = some 0 ∧
    result (.imul 3 2 1 9 false) [(1, 0xFFFFFFFF), (2, 3)] 9 = some 0xFFFFFFFF ∧
    result (.imul 2 2 1 9 false) [(1, 0xFFFFFFFF), (2, 3)] 9 = some 2 ∧
    result (.imad 2 2 1 8 false) [(1, 0xFFFFFFFF), (2, 0xFFFFFFFF), (8, 0xFFFFFFFF)] 9 = some 0xFFFFFFFF ∧
    result (.idiv 1 2 1 9 false) [(1, 0xFFFFFFF9), (2, 2)] 9 = some 0xFFFFFFFD ∧
    result (.irem 1 2 1 9 false) [(1, 0xFFFFFFF9), (2, 2)] 9 = some 0xFFFFFFFF ∧
    result (.idiv 0 2 1 9 false) [(1, 0xFFFFFFF9), (2, 2)] 9 = some 0x7FFFFFFC ∧
    result (.idiv 0 2 1 9 false) [(1, 7)] 9 = some 0xFFFFFFFF ∧
    result (.irem 1 2 1 9 false) [(1, 0x80000000), (2, 0xFFFFFFFF)] 9 = some 0 ∧
    result (.imax 1 2 1 9 false) [(1, 0xFFFFFFFF), (2, 1)] 9 = some 1 ∧
    result (.imin 1 2 1 9 false) [(1, 0xFFFFFFFF), (2, 1)] 9 = some 0xFFFFFFFF ∧
    predicate (.icmp 0 2 1 2 5 false) [(1, 0xFFFFFFFF), (2, 1)] 5 = some false ∧
    predicate (.icmp 1 2 1 2 5 false) [(1, 0xFFFFFFFF), (2, 1)] 5 = some true := by decide +kernel

/-- R127 to R130: each function's operands in their order, amounts at and past the width, fields cut at bit 31. -/
theorem test_bits :
    result (.logic 3 2 1 9 false) [(1, 0b1100), (2, 0b1010)] 9 = some 0b0100 ∧
    result (.logic 4 2 1 9 false) [(1, 0b1100), (2, 0b1010)] 9 = some 0xFFFFFFFD ∧
    result (.shift 2 2 1 9 false) [(1, 0x80000000), (2, 40)] 9 = some 0xFFFFFFFF ∧
    result (.shift 0 2 1 9 false) [(1, 1), (2, 32)] 9 = some 0 ∧
    result (.shift 0 2 1 9 false) [(1, 1), (2, 0x101)] 9 = some 2 ∧
    result (.shift 4 2 1 9 false) [(1, 0x00000003), (2, 33)] 9 = some 0x80000001 ∧
    result (.shift 5 2 4 8 false) [(2, 1), (4, 0x80000000), (5, 1)] 9 = some 3 ∧
    result (.bits 1 1 9 false) [(1, 0x00010000)] 9 = some 15 ∧ result (.bits 2 1 9 false) [] 9 = some 32 ∧
    result (.bits 3 1 9 false) [(1, 1)] 9 = some 0x80000000 ∧ result (.bits 4 1 9 false) [(1, 0x01020304)] 9 = some 0x04030201 ∧
    result (.bfeU 2 1 9 false) [(1, 0xABCD1234), (2, 0x1018)] 9 = some 0xAB ∧
    result (.bfeS 2 1 9 false) [(1, 0xABCD1234), (2, 0x0804)] 9 = some 0x23 ∧
    result (.bfeS 2 1 9 false) [(1, 0xABCD1234), (2, 0x0818)] 9 = some 0xFFFFFFAB ∧
    result (.bfi 2 1 9 false) [(1, 0xFF), (2, 0x0408), (9, 0x12345678)] 9 = some 0x12345F78 := by decide +kernel

/-- R131 to R134: selection, addresses, predicates and immediates. -/
theorem test_immediates :
    result (.sel 1 2 1 9 false) [(1, 5), (2, 6)] 9 = some 5 ∧ result (.sel 0 2 1 9 false) [(1, 5), (2, 6)] 9 = some 6 ∧
    result (.lea true 3 2 4 8 false) [(2, 0xFFFFFFFF), (4, 16), (5, 1)] 8 = some 8 ∧
    result (.lea false 1 2 4 8 false) [(2, 0xFFFFFFFF), (4, 16), (5, 1)] 9 = some 3 ∧
    predicate (.plop 6 1 1 4 false) [] 4 = some false ∧ predicate (.plop 3 0 1 4 false) [] 4 = some true ∧
    result (.iaddi 0x3FF 1 9 false) [(1, 0)] 9 = some 0xFFFFFFFF ∧ result (.andi 0x200 1 9 false) [(1, 0xFFFF)] 9 = some 0xFE00 ∧
    result (.shfi 1 4 1 9 false) [(1, 0x80)] 9 = some 8 ∧ predicate (.icmpi 0x3FF 1 10 5 false) [(1, 7)] 5 = some true ∧
    predicate (.icmpi 0x3FF 1 2 5 false) [(1, 7)] 5 = some false ∧
    result (.movil 0x10000 9 false) [] 9 = some 0xFFFF0000 ∧ result (.movih 0x1234 9 false) [(9, 0xFFFFFFFF)] 9 = some 0x1234FFFF ∧
    result (.movi5 31 9 false) [] 9 = some 0xFFFFFFFF ∧ result (.isubShort 1 9 false) [(1, 3), (9, 1)] 9 = some 0xFFFFFFFE := by
  decide +kernel

/-- R147 to R165: 1 + 1, ties to even and their flag, division by zero, a signalling comparison of a quiet NaN, conversions at their ends. -/
theorem test_floating :
    flagged (.fadd .f32 2 1 9 false) [(1, 0x3F800000), (2, 0x3F800000)] 9 = some (0x40000000, 0) ∧
    flagged (.fadd .f32 2 1 9 false) [(1, 0x4B800000), (2, 0x3F800000)] 9 = some (0x4B800000, 0x10) ∧
    flagged (.fdiv .f32 2 1 9 false) [(1, 0xBF800000)] 9 = some (0xFF800000, 0x02) ∧
    flagged (.fsqrt .f32 1 9 false) [(1, 0xBF800000)] 9 = some (0x7FC00000, 0x01) ∧
    flagged (.fma .f32 2 1 9 false) [(1, 0x40000000), (2, 0x40400000), (9, 0x3F800000)] 9 = some (0x40E00000, 0) ∧
    flagged (.fmax .f32 2 1 9 false) [(1, 0x80000000)] 9 = some (0, 0) ∧
    predicate (.fcmp .f32 2 1 2 5 false) [(1, 0x80000000), (2, 0x3F800000)] 5 = some true ∧
    flagged (.fsub .f16 2 1 9 false) [(1, 0x3C00), (2, 0x3800)] 9 = some (0x3800, 0) := by decide +kernel

/-- R135, R136: exchanges read before they write, and a ballot counts the active threads. -/
theorem test_exchange :
    runs (.shfl 3 6 2 9 false) (withGang (gangWith gang.sregs (fun t => { t with v := (t.v.filter (fun x => x.1 ≠ 6)) ++ [(6, 1)] })))
      (fun _ k => (List.range 4).map (fun l => lane k l 9) == [8, 7, 10, 9]) = true ∧
    runs (.voteBallot 0 8 false) world (fun _ k => lane k 0 8 == 0b1010 && lane k 3 9 == 0) = true ∧
    runs (.voteAny 0 5 false) world (fun _ k => k.threads.all (fun t => t.preds.getLsbD 5)) = true ∧
    runs (.voteAll 0 5 false) world (fun _ k => k.threads.all (fun t => !(t.preds.getLsbD 5))) = true := by decide +kernel

/-- R139, R140: the scalar space. -/
theorem test_scalar :
    runs (.salu 1 6 4 false) world (fun _ k => sreg k 4 == 19) = true ∧
    runs (.simm 0xFFF 1 6 false) world (fun _ k => sreg k 6 == 2) = true := by decide +kernel

/-! ### The machine as a whole -/

/-- The premises of `DecodeInvertsEncode`. -/
theorem met_DecodeInvertsEncode : WellFormed (.iadd 3 1 2 3 true) ∧ encode (.iadd 3 1 2 3 true) = some (.long 0x60410333) := by
  decide +kernel

/-- The premises of `MemoriesStayCanonical`: a step of the machine after reset with an instruction in place, and one of a machine whose
next event stores. -/
theorem met_MemoriesStayCanonical : memoriesWf State.reset ∧ memoriesWf fetching ∧ (match step fetching with | .next _ => true | _ => false) = true ∧
    memoriesWf world := by
  unfold memoriesWf
  decide +kernel

/-- The premises of `StepRunsTheDecodedBundle` on that machine: the bundle at the program counter is `MOV v0, v0`. -/
theorem met_StepRunsTheDecodedBundle_bundle :
    (fetching.gangs.all (fun g => g.paths.all (fun p =>
      fine (fetchBundle fetching g.core g.ctx 3 p.pc.toNat) &&
      decide (got [] (fetchBundle fetching g.core g.ctx 3 p.pc.toNat) = [(p.pc.toNat, .short 0, 2)]) &&
      decide (got ⟨pfxNone, none, .nop false⟩ (decodeBundle (vregsLegal (gangVregs fetching g)) [.short 0]) = ⟨pfxNone, none, .mov 0 0 false⟩)))) = true := by decide +kernel

end Sys2Proof.Tests
end

