-- ==== Sys2Proof/Tests/Witness1.lean ====
section
/-! SUPPORT. For each statement about an instruction that a gang executes, states and operands that meet its hypotheses together. -/

set_option Elab.async false

namespace Sys2Proof.Tests

open Sys2Proof.Machine Sys2Proof.Claims

/-! ### Vector, scalar and floating-point instructions -/

theorem met_IntegerSumsAndComparisonsComplete : Executes world gang path ∧ (1#2).toNat < 2 ∧ (5#4).toNat < 6 ∧ (13#4).toNat % 8 < 6 ∧
    world.cur.pfx.wid = 0#2 := ⟨world_executes, by decide +kernel⟩

/-- The same with a width override, which names pairs. -/
def wide : State := { world with cur := { world.cur with pfx := { pfxNone with wid := 1 } } }

theorem wide_executes : Executes wide gang path := ⟨by decide +kernel, by decide +kernel, world_executes.idle⟩

theorem met_IntegerSumsAndComparisonsComplete_wide : Executes wide gang path ∧ (0#2).toNat < 2 ∧ (8#4).toNat % 8 < 6 ∧
    wide.cur.pfx.wid = 1#2 := ⟨wide_executes, by decide +kernel⟩

theorem met_IntegerProductsAndQuotientsComplete : Executes world gang path ∧ (1#2).toNat < 2 ∧ (2#2) = 2#2 ∧ (3#2) = 3#2 :=
  ⟨world_executes, by decide⟩

theorem met_LogicAndShiftsComplete : Executes world gang path := world_executes

theorem met_BitFieldsAndSelectionsComplete : Executes world gang path ∧ (4#3).toNat < 5 ∧ world.cur.pfx.wid = 0#2 :=
  ⟨world_executes, by decide +kernel⟩

theorem met_BitFieldsAndSelectionsComplete_wide : Executes wide gang path ∧ wide.cur.pfx.wid = 1#2 := ⟨wide_executes, by decide +kernel⟩

theorem met_FloatingArithmeticCompletes : Executes world gang path := world_executes

theorem met_PredicateSevenReadsOne : Executes world gang path ∧ (1#2).toNat < 2 ∧ (5#4).toNat < 6 := ⟨world_executes, by decide, by decide⟩

/-- The small machine where the bundle carries the condition `!p7`. -/
def noThread : State := { world with cur := { world.cur with pfx := { pfxNone with pen := true, pneg := true, pidx := 7 } } }

theorem met_PredicateSevenReadsOne_none : Executes noThread gang path ∧
    (noThread.cur.pfx.pen = true ∧ noThread.cur.pfx.pneg = true ∧ noThread.cur.pfx.pidx = 7) := by
  refine ⟨⟨by decide +kernel, by decide +kernel, ?_⟩, by decide +kernel⟩
  constructor <;> decide +kernel

/-- Operands of each row of R151: quiet and signalling NaNs, infinities, zeros, 1 and −1. -/
theorem met_FloatingValuesAreRoundedOnce :
    let v := fdecode fmt32
    let inf := v 0x7F800000
    let minf := v 0xFF800000
    let one := v 0x3F800000
    let zero := v 0x80000000
    (isSnan (v 0x7F800001) ∧ (¬ isSnan (v 0x7FC00000) ∧ isNan (v 0x7FC00000))) ∧
    (¬ (isZero one ∧ isInf one ∨ isInf one ∧ isZero one) ∧ ¬ isSnan one) ∧ (isZero zero ∧ isInf inf ∧ isZero (v 0)) ∧
    (isInf inf ∧ isInf minf ∧ fneg inf ≠ fneg minf) ∧
    (¬ isNan inf ∧ ¬ isNan one ∧ ¬ (isZero inf ∧ isInf one ∨ isInf inf ∧ isZero one) ∧ isInf minf ∧ fneg minf ≠ xor (fneg inf) (fneg one) ∧
      fneg inf = xor (fneg inf) (fneg one)) ∧
    (isFinNz (v 0xBF800000) ∧ fneg (v 0xBF800000)) ∧ (isFinNz one ∧ ¬ isInf one) ∧ ¬ fneg inf := by decide +kernel

theorem met_FloatingValuesAreRoundedOnce_finite : fmt32 ∈ [fmt32, fmt64, fmt16, fmtB16] ∧
    (∀ v ∈ [fdecode fmt32 0x3F800001, fdecode fmt32 0xC0400000, fdecode fmt32 0x80000000], isNan v = false ∧ isInf v = false) ∧
    (dyMul (fdy (fdecode fmt32 0x3F800001)) (fdy (fdecode fmt32 0xC0400000))).m ≠ 0 ∧ isZero (fdecode fmt32 0xC0400000) = false ∧
    isZero (fdecode fmt32 0x3F800001) = false ∧ fneg (fdecode fmt32 0x3F800001) = false ∧ isZero (fdecode fmt32 0x80000000) = true := by
  decide +kernel

/-- The worked elements of R164: 500.0 overflows E4M3, 0.001 and −0.0005 underflow it, 1.0625 ties to even. -/
theorem test_convert_e4m3 : [0x43FA0000, 0x3A83126F, 0xBA03126F, 0x3F880000].map (fun x => (fconvert fmt32 fmtE4M3 .rne false x).bits) =
    [0x7E, 0x01, 0x80, 0x38] := by decide +kernel

theorem met_FloatingComparisonsAndConversionsComplete_values : fmt16 ∈ [fmt32, fmt64, fmt16, fmtB16] ∧ (0x4500 < 2 ^ fmt16.width) ∧
    (∃ n m e, fdecode fmt16 0x4500 = .fin n m e) ∧ (∃ n m e, fdecode fmt16 0x4000 = .fin n m e ∧ m ≠ 0) ∧
    (isSnan (fdecode fmt16 0x7C01) ∧ ¬ isSnan (fdecode fmt16 0x7E00) ∧ isNan (fdecode fmt16 0x7E00)) ∧ isInf (fdecode fmt16 0xFC00) ∧
    isZero (fdecode fmt16 0x8000) ∧ convRows ≠ [] ∧ intRows ≠ [] ∧ ofIntRows ≠ [] ∧ rintRows ≠ [] :=
  ⟨by decide, by decide, ⟨_, _, _, rfl⟩, ⟨_, _, _, rfl, by decide⟩, by decide +kernel, by decide +kernel, by decide +kernel, by decide, by decide,
    by decide, by decide⟩

theorem met_FloatingComparisonsAndConversionsComplete : Executes world gang path ∧ (7#4).toNat < 8 ∧
    (∃ row, cvtRow 1 = some row) ∧ (fcvtSpans 1).isSome = true :=
  ⟨world_executes, by decide, ⟨_, rfl⟩, by decide +kernel⟩

theorem met_StagedFunctionsComplete : Executes world gang path ∧ ((6#7).toNat % 2 = 0 ∧ (4#7).toNat % 2 = 0) :=
  ⟨world_executes, by decide⟩

theorem met_LaneExchangesComplete : Executes world gang path ∧ (activeThreads world gang).head? = some (thread 0) ∧
    (activeThreads world gang).find? (fun u => u.lpos == (sreg gang 6).toNat % 64) = some (thread 3) ∧
    (∀ t ∈ activeThreads world gang, t.lpos ≠ (sreg gang 4).toNat % 64) := ⟨world_executes, by decide +kernel⟩

/-- The machine with no thread of the path active. -/
def allOff : State := { world with cur := { world.cur with pfx := { pfxNone with pen := true } }, gangs := [gangWith gang.sregs (fun t => { t with preds := 0 })] }

theorem met_LaneExchangesComplete_none : Executes allOff (gangWith gang.sregs (fun t => { t with preds := 0 })) path ∧
    activeThreads allOff (gangWith gang.sregs (fun t => { t with preds := 0 })) = [] := by
  refine ⟨⟨by decide +kernel, by decide +kernel, ?_⟩, by decide +kernel⟩
  constructor <;> decide +kernel

theorem met_VotesAndReductionsComplete_float : Executes world gang path ∧ (4#7).toNat = 4 ∧ (2#3).toNat < 3 ∧ activeThreads world gang ≠ [] :=
  ⟨world_executes, by decide +kernel⟩

theorem met_VotesAndReductionsComplete : Executes world gang path ∧ (3#7).toNat < 4 ∧ (5#3).toNat < 6 ∧ activeThreads world gang ≠ [] :=
  ⟨world_executes, by decide +kernel⟩

theorem met_ScalarArithmeticCompletes : Executes world gang path ∧ (17#6).toNat < 18 ∧ (18 ≤ (20#6).toNat ∧ (20#6).toNat < 21) ∧
    (6#3) ≠ 7#3 := ⟨world_executes, by decide⟩

theorem met_SpecialRegistersComplete : Executes world gang path ∧ ((0x024#9).toNat, gang.trstl) ∈ gangRegs world gang ∧
    findCtx world gang.ctx = some tenant ∧
    ((0x019#9).toNat, gang.gwct) ∈ [(0x008, toDword (coreNow world gang.core)), (0x009, toDword world.clk), (0x013, tenant.pkr), (0x019, gang.gwct)] ∧
    (∀ t : Thread, ((0x015#9).toNat, t.link) ∈ [(0x000, t.tid), (0x014, t.meet), (0x015, t.link)]) ∧
    (∀ t, ((0x016#9).toNat, plimOf world gang t) ∈ [(0x001, t.lpos), (0x016, plimOf world gang t)]) :=
  ⟨world_executes, by decide +kernel, by decide +kernel, by decide +kernel, fun t => by simp, fun t => by simp⟩

/-- A gang one of whose atomics still has `GWCT` in flight, and one with values that `RM` and `ANCHOR` do not take. -/
def flyingGwct : Gang := { gang with gwct := 9, gwctFly := [⟨800, 1, 4⟩] }

def refused : Gang := { gang with sregs := [(2, 0x800#32), (6, 5#32)] }

theorem met_SpecialRegistersComplete_gwct : curGang (withGang flyingGwct) = some flyingGwct ∧
    findPath flyingGwct (withGang flyingGwct).cur.path = some path ∧ Idle { flyingGwct with gwctFly := [] } := by
  refine ⟨by decide +kernel, by decide +kernel, ?_⟩
  constructor <;> decide +kernel

theorem met_SpecialRegistersComplete_refused : Executes (withGang refused) refused path ∧ handlerReady (withGang refused) refused path ∧
    ((0x010#9).toNat, false, { refused with rm := 5 }) ∈ gangWrites refused (sreg refused 6) ∧
    ((0x012#9).toNat, false, { refused with anchor := 0x800 }) ∈ gangWrites refused (sreg refused 2) := by
  refine ⟨⟨by decide +kernel, by decide +kernel, ?_⟩, canTrap_ready _ _ (by decide +kernel), by decide +kernel⟩
  constructor <;> decide +kernel

/-- A gang whose write of `PKR` is on its way. -/
def writingPkr : Gang := { gang with out := [{ op0 with id := 900, kind := .pkrWrite, parts := [{ part0 with x := 9 }] }] }

theorem met_SpecialRegistersComplete_writes : Executes world gang path ∧
    ((0x010#9).toNat, true, { gang with rm := toWord 3 }) ∈ gangWrites gang (sreg gang 6) ∧
    ((0x012#9).toNat, true, { gang with anchor := 16 }) ∈ gangWrites gang (sreg gang 4) ∧
    gang.gwct.toNat ≤ coreNow world gang.core ∧ findGang (withGang writingPkr) 5 3 = some writingPkr ∧
    writingPkr.out.find? (fun o => o.kind == .pkrWrite) = some { op0 with id := 900, kind := .pkrWrite, parts := [{ part0 with x := 9 }] } :=
  ⟨world_executes, by decide +kernel⟩

/-! ### Control flow, gangs and regions -/

/-- A gang with an even code address in `v[4:5]` of each thread. -/
def jumping : Gang := gangWith gang.sregs (fun t => { t with v := [(4, toWord (0x600 + 2 * (t.lpos % 2)))] })

theorem jumping_executes : Executes (withGang jumping) jumping path := by
  refine ⟨by decide +kernel, by decide +kernel, ?_⟩
  constructor <;> decide +kernel

theorem met_BranchesAndMeetComplete : Executes (withGang jumping) jumping path ∧
    (let target := fun t : Thread => if predOn world.cur t then branchTarget (n := 24) world 8 else world.cur.npc
     ∃ l : List Dword, (∀ t ∈ jumping.threads, bitOf path.mask t.lpos = true → target t ∈ l) ∧ l.length + jumping.paths.length ≤ 9) ∧
    (∀ t ∈ activeThreads (withGang jumping) jumping, t.link.getLsbD 0 = false ∧ (vpair t 4).getLsbD 0 = false) :=
  ⟨jumping_executes, ⟨[branchTarget (n := 24) world 8], by decide +kernel⟩, by decide +kernel⟩

/-- Eight distinct targets beside the path itself fill the path table. -/
theorem met_BranchesAndMeetComplete_full :
    entriesFor jumping path (fun t => vpair t 4) := ⟨[0x600, 0x602, 0, 0, 0, 0, 0, 0], by decide +kernel⟩

/-- A gang half of whose threads hold an odd address, and one of nine threads that fill the path table. -/
def oddJump : Gang := gangWith gang.sregs (fun t => { t with v := [(4, toWord (0x600 + t.lpos % 2))] })

def wideJump : Gang :=
  { gang with
    size := 16, threads := (List.range 9).map (fun l => { thread l with v := [(4, toWord (0x600 + 2 * (l % 2)))] })
    paths := ⟨0, 0x40000000, 3, none, false, false, 0⟩ ::
      (List.range 7).map (fun i => ⟨i + 1, 0x40001000 + toDword (4 * i), 2 ^ (i + 2), none, false, false, 0⟩) }

theorem met_BranchesAndMeetComplete_odd : Executes (withGang oddJump) oddJump path ∧ handlerReady (withGang oddJump) oddJump path ∧
    ∃ l : List Dword, l.length + oddJump.paths.length ≤ 8 ∧ ∀ t ∈ onPath oddJump path,
      (predOn world.cur t = false → world.cur.npc ∈ l) ∧
      (predOn world.cur t = true → (vpair t 4).getLsbD 0 = false → vpair t 4 ∈ l) := by
  refine ⟨⟨by decide +kernel, by decide +kernel, ?_⟩, canTrap_ready _ _ (by decide +kernel),
    [0x600], by decide +kernel⟩
  constructor <;> decide +kernel

theorem met_BranchesAndMeetComplete_wide : Executes (withGang wideJump) wideJump ⟨0, 0x40000000, 3, none, false, false, 0⟩ ∧
    (∀ t ∈ activeThreads (withGang wideJump) wideJump, (vpair t 4).getLsbD 0 = false) := by
  refine ⟨⟨by decide +kernel, by decide +kernel, ?_⟩, by decide +kernel⟩
  constructor <;> decide +kernel

/-- A gang with a sub-gang on its way to a den. -/
def leavingDen : Gang :=
  { gang with paths := [⟨0, 0x40000000, 7, none, false, false, 0⟩], parked := [⟨70, 8, 0x602, .noDen, 0, none, false, [], false, false⟩] }

theorem met_BranchesAndMeetComplete_den : findGang (withGang leavingDen) leavingDen.core leavingDen.slot = some leavingDen ∧
    Idle leavingDen ∧ (withGang leavingDen).dens = [] ∧
    (∀ h ∈ (withGang leavingDen).gangs, ∀ x ∈ h.parked, x.cause = .noDen → 70 ≤ x.uid) ∧ thread 3 ∈ threadsOf leavingDen 8 := by
  refine ⟨by decide +kernel, ?_, by decide +kernel⟩
  constructor <;> decide +kernel

theorem test_jumps :
    runs (.jmpr false 4 false) (withGang wideJump) (fun _ k => k.paths.length == 8 && k.parked.map (fun q => (q.mask, q.pc, q.cause)) ==
      [(2, 0x602, .noDen)]) = true ∧
    runs (.jmpr false 4 false) { withGang wideJump with teams := [{ team with dmode := 1 }] } (fun _ k =>
      k.parked.map (fun q => (q.mask, q.pc, q.cause, q.released)) == [(2, 0x602, .noEntry, true)]) = true ∧
    (tryDen (withGang leavingDen) 5 3 70).dens.map (fun x => (x.pc, x.items)) = [(0x602, [.thread (thread 3) 0])] := by
  decide +kernel

theorem met_ExitAndNextComplete : Executes (withGang jumping) jumping path ∧ gangMode (withGang jumping) jumping = 0 ∧ jumping.parked = [] ∧
    (withGang jumping).dens = [] ∧ (∀ h ∈ (withGang jumping).gangs, ∀ q ∈ h.parked, q.cause ≠ .noDen) ∧
    (∀ t ∈ activeThreads (withGang jumping) jumping, (vpair t (4#7).toNat).getLsbD 0 = false) ∧
    ∃ l : List Dword, l.length ≤ 32 ∧ ∀ t ∈ activeThreads (withGang jumping) jumping, vpair t (4#7).toNat ∈ l :=
  ⟨jumping_executes, by decide +kernel, by decide +kernel, by decide +kernel, by decide +kernel, by decide +kernel, [0x600, 0x602], by decide +kernel⟩

/-- A core's time is not past the device's. -/
theorem coreNow_le (s : State) (core : Nat) : coreNow s core ≤ s.dtb := Nat.sub_le _ _

/-- A gang whose path waits at a fence, and the same gang with a store outstanding or a late completion time. -/
def fencing (n : Nat) (gw : Dword) (out : List OutOp) : Gang :=
  { gang with quantum := n, gwct := gw, out := out, paths := [{ path with hold := some ⟨.fence 2 [900], .again⟩ }] }

/-- An operation of a kind, outstanding. -/
def pendingOp (k : OutKind) : OutOp := { op0 with id := 900, kind := k }

theorem met_QuantumAndFencesComplete : Executes world gang path ∧
    (findGang (withGang (fencing 256 0 [])) 5 3 = some (fencing 256 0 []) ∧ 256 ≤ (fencing 256 0 []).quantum) ∧
    (findGang (withGang (fencing 255 0 [])) 5 3 = some (fencing 255 0 []) ∧ (fencing 255 0 []).quantum < 256) ∧
    (findPath (fencing 255 0 []) 0 = some { path with hold := some ⟨.fence 2 [900], .again⟩ } ∧ (∀ o ∈ (fencing 255 0 []).out, o.id ∉ [900]) ∧
      (fencing 255 0 []).gwct.toNat ≤ coreNow (withGang (fencing 255 0 [])) 5) ∧
    (¬ (∀ o ∈ (fencing 255 0 [pendingOp .store]).out, o.id ∉ [900])) ∧
    coreNow (withGang (fencing 255 5000 [])) 5 < (fencing 255 5000 []).gwct.toNat :=
  ⟨world_executes, by decide +kernel, by decide +kernel, by decide +kernel, by decide +kernel,
    Nat.lt_of_le_of_lt (coreNow_le _ _) (by decide +kernel)⟩

theorem met_QuantumAndFencesComplete_held :
    (let g := { gang with gwct := 5000 }
     Executes (withGang g) g path ∧ coreNow (withGang g) g.core < g.gwct.toNat ∧ path.passed = false) ∧
    (∀ k ∈ [OutKind.crewStore, .store, .external], let g := { gang with out := [pendingOp k] }
      curGang (withGang g) = some g ∧ findPath g (withGang g).cur.path = some path ∧ path.passed = false ∧ pendingOp k ∈ g.out) := by
  refine ⟨⟨⟨by decide +kernel, by decide +kernel, ?_⟩, Nat.lt_of_le_of_lt (coreNow_le _ _) (by decide +kernel), rfl⟩, fun k _ => ?_⟩
  · constructor <;> decide +kernel
  · exact ⟨rfl, rfl, rfl, List.mem_cons_self⟩

theorem met_TimelinesComplete : Executes world gang path ∧
    (spair gang (6#9).toNat).toNat ≤ tlKnown world gang.ctx gang.grid (3#6).toNat ∧
    tlKnown world gang.ctx gang.grid (3#6).toNat < (spair gang (4#9).toNat).toNat ∧ path.passed = false ∧
    (findGrid world gang.ctx gang.grid = some grid ∧ sparseWf (0, 0) grid.tls = true ∧ sparseWf [] grid.tlAt = true ∧
      (tlOf world gang.ctx gang.grid (3#6).toNat).1.toNat + 1 < 2 ^ 64 ∧ (∀ a ∈ sparseGet [] grid.tlAt (3#6).toNat, a + 48 ≤ world.dtb) ∧
      gang.gwct.toNat ≤ coreNow world gang.core) ∧
    grid.preds = [] ∧ grid.predsAt ≤ world.dtb := ⟨world_executes, by decide +kernel⟩

theorem met_TimelinesComplete_waitv :
    let s := { world with grids := [{ grid with preds := [4] }] }
    Executes s gang path ∧ findGrid s gang.ctx gang.grid = some { grid with preds := [4] } ∧ ({ grid with preds := [4] }.preds ≠ [] ∨ s.dtb < grid.predsAt) :=
  ⟨⟨by decide +kernel, by decide +kernel, world_executes.idle⟩, by decide +kernel⟩

theorem barriers_allowed (l : Nat) : barAllowed world gang team l 2 := by
  have group : sparseGet none grid.groups 2 = some [0] := by decide +kernel
  exact ⟨by decide +kernel, grid, by decide +kernel, fun _ => by decide +kernel, fun _ => by decide +kernel,
    fun _ => ⟨[0], group, by decide +kernel⟩⟩

theorem met_BarriersComplete : Executes world gang path ∧ path.mask ≠ 0 ∧ (2#9).toNat < 256 ∧ barAllowed world gang team (3#2).toNat (2#9).toNat ∧
    gang.gwct.toNat ≤ coreNow world gang.core ∧
    ∀ t ∈ onPath gang path, lastArrival (readBar world team (256 * 3 + 2)) t.uid ≠ some (readBar world team (256 * 3 + 2)).phase :=
  ⟨world_executes, by decide +kernel, by decide, barriers_allowed 3, by decide +kernel, by decide +kernel⟩

/-- The same after its threads have arrived at barrier 2 of their team. -/
def arrived : Team := { team with bars := [⟨2, 0, [(100, 0), (101, 0), (102, 0), (103, 0)], 0⟩] }

/-- The same after a phase of a crew's barrier that completed `n` ticks ago. -/
def crewBar (n : Nat) : State :=
  { world with dtb := 1000, crews := world.crews.map (fun c => { c with bars := [⟨258, 1, [(100, 0), (101, 0), (102, 0), (103, 0)], 1000 - n⟩] }) }

theorem met_BarriersComplete_told : ∀ n ∈ [18, 19],
    let s := crewBar n
    let b := readBar s team (256 * 1 + 2)
    b.phase = 1 ∧ (b.doneAt + 19 ≤ s.dtb ↔ n = 19) ∧ (∀ t ∈ onPath gang path, lastArrival b t.uid ≠ some b.phase) ∧
    after (.barWait 1 2 false) s (fun u => (findGang u 5 3).any (fun k => k.paths.any (fun q => q.hold.isNone == (n == 19)))) = true := by
  decide +kernel

theorem test_barSync_last :
    let live := { world with teams := [{ team with live := [100, 101, 102, 103] }] }
    after (.barSync 0 2 false) live (fun u => (findGang u 5 3).any (fun k => k.paths.all (fun q => q.hold.isNone && q.pc == 0x40000004))) = true ∧
    after (.barSync 1 2 false) live (fun u => (findGang u 5 3).any (fun k => k.paths.all (fun q => q.hold.isSome)) && u.barDones.length == 1) =
      true := by decide +kernel

theorem met_BarriersComplete_wait :
    let s := { world with teams := [arrived] }
    Executes s gang path ∧ barAllowed s gang arrived 0 2 ∧
    (∀ t ∈ onPath gang path, lastArrival (readBar s arrived (256 * 0 + 2)) t.uid = some (readBar s arrived (256 * 0 + 2)).phase) ∧
    maskOf ((onPath gang path).map (·.lpos)) = path.mask :=
  ⟨⟨by decide +kernel, by decide +kernel, world_executes.idle⟩,
    ⟨by decide +kernel, grid, by decide +kernel, (fun h => by cases h), (fun h => absurd h (by decide)), (fun h => by cases h)⟩,
    by decide +kernel⟩

theorem met_GangQueriesComplete : Executes world gang path ∧ thread 0 ∈ activeThreads world gang ∧
    (∀ u ∈ activeThreads world gang, (thread 0).lpos ≤ u.lpos) ∧ (thread 0).lpos < 64 := ⟨world_executes, by decide +kernel⟩

/-- A gang in slot 7 that waits at a `FUSE` of 16 threads with key 3. -/
def partner : Gang :=
  { gang with
    uid := 60, slot := 7, threads := gang.threads.map (fun t => { t with uid := t.uid + 50 })
    paths := [⟨0, 0x40000004, 15, some ⟨.fuse 3 16, .go true⟩, false, false, 0⟩] }

theorem met_FuseAndSplitComplete :
    (Executes world gang path ∧ gangMode world gang = 0 ∧ gang.paths.length = 1 ∧ gang.parked = [] ∧ (sreg gang (4#9).toNat).toNat = 16 ∧
      gang.size < 16 ∧ 16 / gang.size ≤ 4 ∧ (∀ x ∈ fuseKeyed world gang (sreg gang (6#9).toNat), x.size = gang.size) ∧
      (bySlot (gang :: fuseGroup world gang (sreg gang (6#9).toNat) 16)).length < 16 / gang.size) ∧
    (let s := { world with gangs := [partner, gang] }
     Executes s gang path ∧ gangMode s gang = 0 ∧ (∀ x ∈ fuseKeyed s gang (sreg gang (6#9).toNat), x.size = gang.size) ∧
      bySlot (gang :: fuseGroup s gang (sreg gang (6#9).toNat) 16) = [gang, partner] ∧ 16 / gang.size ≤ 2 ∧
      ∀ y ∈ [partner], y.tapeHead = 0) :=
  ⟨⟨world_executes, by decide +kernel⟩, ⟨by decide +kernel, by decide +kernel, world_executes.idle⟩, by decide +kernel⟩

theorem met_FuseAndSplitComplete_split :
    Executes world gang path ∧ gangMode world gang = 0 ∧
    (let moves := fun (t : Thread) => bitOf path.mask t.lpos && readP t (3#3).toNat
     maskOf ((gang.threads.filter moves).map (·.lpos)) = 0) ∧
    let moves := fun (t : Thread) => bitOf path.mask t.lpos && readP t (0#3).toNat
    let mask := maskOf ((gang.threads.filter moves).map (·.lpos))
    mask ≠ 0 ∧ mask ≠ gangMask gang ∧
      fitGangs world gang.core 1 (gangFor (threadsOf gang mask).length) (gangVregs world gang) 0 true false = some [(0, 0)] ∧
      curSlot world gang (.gangSlot (gangFor (threadsOf gang mask).length) 0) = true :=
  ⟨world_executes, by decide +kernel⟩

/-- A region's descriptor, its region, and the machine in which it stands at 0x1000 and is open as region 4. -/
def descriptor : Nat :=
  1 * 2 ^ 2 + 5 * 2 ^ 20 + 0x600000 * 2 ^ 192 + 1280 * 2 ^ 256 + 0x700000 * 2 ^ 320 + 0x800000 * 2 ^ 384 + 0x801000 * 2 ^ 448

/-- The region of that descriptor. -/
def region : Region := ⟨0, true, 5, 0x600000, 1280, 0x700000, 0x800000, 0x801000, 0x800000⟩

/-- The machine with the descriptor at 0x1000 and the region open. -/
def regional : State :=
  updCtx (memWrite world 0x1000 (toBytes 64 descriptor)) 1 (fun c => { c with regions := sparseSet none c.regions 4 (some region) })

theorem met_RegionsOpenAndSwitch :
    let s := memWrite world 0x1000 (toBytes 64 descriptor)
    Executes s gang path ∧ findCtx s gang.ctx = some tenant ∧ (spair gang (2#9).toNat).toNat % 64 = 0 ∧
    translateChecked s gang.core gang.ctx (spair gang (2#9).toNat).toNat 64 .read = .ok (walk s 0x1000 64 .read) ∧
    pteTgt (walk s 0x1000 64 .read).pte = 0 ∧ (∀ b ∈ s.wbuf, b.core ≠ gang.core) ∧
    ofBytes (memBytes s (transPa (walk s 0x1000 64 .read) 0x1000) 64) = descriptor ∧
    bitsOf descriptor 191 32 = 0 ∧ bitsOf descriptor 19 3 = 0 ∧ bitsOf descriptor 1 1 = 0 ∧ regionLegal tenant (15#4).toNat region = true :=
  ⟨⟨by decide +kernel, by decide +kernel, world_executes.idle⟩, by decide +kernel, by decide +kernel, fine_got _ _ (by decide +kernel),
    by decide +kernel⟩

theorem met_RegionsOpenAndSwitch_mode : Executes world gang path ∧ gangTeam world gang = some team ∧
    gang.gwct.toNat ≤ coreNow world gang.core ∧ path.mask ≠ 0 ∧ team.live ≠ [] ∧ (∀ x ∈ team.live, ∃ t ∈ onPath gang path, t.uid = x) ∧
    (let tm := { team with live := 104 :: team.live }
     ∃ x ∈ tm.live, lastArrival (readBar world tm modeKey) x ≠ some (readBar world tm modeKey).phase ∧ ∀ t ∈ onPath gang path, t.uid ≠ x) :=
  ⟨world_executes, by decide +kernel, by decide +kernel, by decide +kernel, by decide +kernel, by decide +kernel,
    104, by decide +kernel⟩

theorem met_CellsAndTapePositionsComplete : Executes regional gang path ∧ path.mask ≠ 0 ∧
    elementAt regional gang (spair gang (8#9).toNat).toNat = some (4, region) ∧
    translateChecked regional gang.core gang.ctx (cellAddr region 0x600000) 16 .read = .ok (walk regional 0x700000 16 .read) ∧
    pteTgt (walk regional 0x700000 16 .read).pte = 0 ∧ (spair gang (10#9).toNat).toNat % 32 = 0 ∧
    regionOf regional gang.ctx (4#4).toNat = some region ∧ (spair gang (12#9).toNat).toNat % 32 = 0 ∧
    (spair gang (14#9).toNat).toNat % 32 = 0 ∧ (spair gang (12#9).toNat).toNat ≤ (spair gang (14#9).toNat).toNat :=
  ⟨⟨by decide +kernel, by decide +kernel, world_executes.idle⟩, by decide +kernel, by decide +kernel, fine_got _ _ (by decide +kernel),
    by decide +kernel⟩

/-- The machine with a gang that clears `n` cells, and `k` stores in its core's buffer. -/
def clearing (n : Nat) : Gang := gangWith [(4, toWord n), (8, 0x600000#32)] id

/-- The machine in which it runs. -/
def clears (n k : Nat) : State :=
  { regional with gangs := [clearing n], wbuf := List.replicate k ⟨0, 5, 9, 1, 0, true, [part0], 0, none⟩ }

/-- The page on which the cells lie. -/
def cellPage : Trans := walk regional 0x700000 16 .write

/-- What the checks of an access to the cells see of one address: the page, its attributes, and a grant. -/
def cellSeen (s : State) (a : Nat) : Bool :=
  decide (tlbFind s 5 1 a = none ∧ tlbFind s (sharedTlb (coreDie 5)) 1 a = none ∧ transPa cellPage a = a) &&
  fine (walkTables s (coreDie 5) 1 a) && decide (got ⟨0, 0⟩ (walkTables s (coreDie 5) 1 a) = cellPage) &&
  (findCtx s 1).any (fun c => grantAllows c false true a) && grantAllows tenant false true (a - 1)

/-- The tenant with the region open. -/
def open_ : Ctx := { tenant with regions := sparseSet none tenant.regions 4 (some region) }

/-- Every access within the cells passes its checks. -/
theorem cells_pass (s : State) (n : Nat) (c : Ctx) (hc : findCtx s 1 = some c) (hk : pkrSeen s c 99 = 0) (hg : c.grants = tenant.grants)
    (all : ∀ d, d < 16 * n + 1 → cellSeen s (0x700000 + d) = true) (x y : Nat) (h : 0x700000 ≤ x) (k : x + y ≤ 0x700000 + 16 * n) :
    translateChecked s 5 1 x y .write = .ok cellPage := by
  have here := all (x - 0x700000) (by omega)
  rw [show 0x700000 + (x - 0x700000) = x by omega] at here
  simp only [cellSeen, Bool.and_eq_true, decide_eq_true_eq] at here
  obtain ⟨⟨⟨⟨⟨own, die, pa⟩, ok_⟩, page⟩, grant⟩, before⟩ := here
  have grant : grantAllows tenant false true x = true := by simpa [hc, grantAllows, hg] using grant
  have last : grantAllows tenant false true (x + y - 1) = true := by
    by_cases hy : y = 0
    · subst hy; exact before
    · have there := all (x + y - 1 - 0x700000) (by omega)
      rw [show 0x700000 + (x + y - 1 - 0x700000) = x + y - 1 by omega] at there
      simp only [cellSeen, Bool.and_eq_true] at there
      simpa [hc, grantAllows, hg] using there.1.2
  have tr := fine_got ⟨0, 0⟩ _ ok_
  rw [page] at tr
  have w : pteW cellPage.pte = true := by decide +kernel
  have key : pkrDenies (pkrSeen s c 99) (pteKey cellPage.pte) .write = false := by rw [hk]; decide +kernel
  have tgt : pteTgt cellPage.pte = 0 := by decide +kernel
  have run : grantRun c false true x y = true := by simp [grantRun, grantAllows, hg]; simpa [grantAllows] using And.intro grant last
  simp [translateChecked, Sys2Proof.Machine.translate, translateShared, own, die, tr, checkedTrans, checkPage, hc, pa, w, key, tgt, run]

theorem met_CellsAndTapePositionsComplete_clear :
    let s := clears 1 0
    let g := clearing 1
    let p := path
    (∀ x y, cellAddr region 0x600000 ≤ x → x + y ≤ cellAddr region 0x600000 + 16 * 1 →
      translateChecked s g.core g.ctx x y .write = .ok cellPage ∧ pteTgt cellPage.pte = 0 ∧ pteSysat cellPage.pte = false) ∧
    Executes s g p ∧ elementAt s g (spair g (8#9).toNat).toNat = some (4, region) ∧ 1 ≤ (sreg g (4#9).toNat).toNat ∧
    (sreg g (4#9).toNat).toNat = 1 ∧ (spair g (8#9).toNat).toNat + elemSize region * 1 ≤ region.pbase + region.psize ∧
    region.sbase % 16 = 0 ∧ p.sub = 0 ∧ curSlot s g (.bufferSlot 1) = true ∧ bufferCount s g.core + (1 / 8 + 2) ≤ 64 := by
  have base : cellAddr region 0x600000 = 0x700000 := by decide +kernel
  have runs : Executes (clears 1 0) (clearing 1) path := by
    refine ⟨by decide +kernel, by decide +kernel, ?_⟩
    constructor <;> decide +kernel
  refine ⟨fun x y h k => ?_, runs, by decide +kernel⟩
  rw [base] at h k
  exact ⟨cells_pass _ 1 open_ (by decide +kernel) (by decide +kernel) rfl (by decide +kernel) x y h k, by decide +kernel⟩

theorem met_CellsAndTapePositionsComplete_part :
    let s := clears 16 63
    let g := clearing 16
    let p := path
    (∀ x y, cellAddr region 0x600000 ≤ x → x + y ≤ cellAddr region 0x600000 + 16 * 16 →
      translateChecked s g.core g.ctx x y .write = .ok cellPage ∧ pteTgt cellPage.pte = 0 ∧ pteSysat cellPage.pte = false) ∧
    Executes s g p ∧ elementAt s g (spair g (8#9).toNat).toNat = some (4, region) ∧
    (sreg g (4#9).toNat).toNat = 16 ∧ (spair g (8#9).toNat).toNat + elemSize region * 16 ≤ region.pbase + region.psize ∧
    p.sub = 0 ∧ curSlot s g (.bufferSlot 1) = true ∧ 64 < bufferCount s g.core + 16 / 8 := by
  have base : cellAddr region 0x600000 = 0x700000 := by decide +kernel
  have runs : Executes (clears 16 63) (clearing 16) path := by
    refine ⟨by decide +kernel, by decide +kernel, ?_⟩
    constructor <;> decide +kernel
  refine ⟨fun x y h k => ?_, runs, by decide +kernel⟩
  rw [base] at h k
  exact ⟨cells_pass _ 16 open_ (by decide +kernel) (by decide +kernel) rfl (by decide +kernel) x y h k, by decide +kernel⟩

theorem met_SystemEventsComplete : Executes world gang path := world_executes

/-! ### Traps and faults -/

theorem met_TrapsAreTakenOrKill : Executes world gang path ∧ handlerReady world gang path :=
  ⟨world_executes, ⟨grid, by decide +kernel⟩, by decide +kernel, by decide +kernel, by decide +kernel, by unfold l1Room; decide +kernel, fun t h => by
    have all : ∀ t ∈ onPath gang path, t.inHandler = false ∧ 16 ≤ plimOf world gang t ∧ frameFault world gang t = none := by decide +kernel
    exact all t h⟩

/-- A grid without a handler. -/
def handlerless : Grid := { grid with launch := { grid.launch with trapent := 0 } }

theorem met_TrapsAreTakenOrKill_kill :
    let s := { world with grids := [handlerless] }
    Executes s gang path ∧ path.mask ≠ 0 ∧ findGrid s gang.ctx gang.grid = some handlerless ∧ handlerless.launch.trapent = 0 ∧
    handlerless.killed = none ∧ (∀ t ∈ onPath gang path, t.inHandler = false) ∧ ∀ q ∈ gang.parked, q.uid < s.nextId :=
  ⟨⟨by decide +kernel, by decide +kernel, world_executes.idle⟩, by decide +kernel⟩

/-- The gang in its handler. -/
def handling : Gang := gangWith gang.sregs (fun t => { t with inHandler := true })

theorem met_TrapReturnRestores : Executes (withGang handling) handling path ∧
    (∀ t ∈ onPath handling path, t.inHandler = true ∧
      privCheck (withGang handling) handling t (4 * (plimOf (withGang handling) handling t - 16)) 64 = none ∧
      (readFields (trapFrameOf (withGang handling) handling t)).npc.getLsbD 0 = false) ∧
    entriesFor handling path (fun t => (readFields (trapFrameOf (withGang handling) handling t)).npc) := by
  refine ⟨⟨by decide +kernel, by decide +kernel, ?_⟩, by decide +kernel, [0], by decide +kernel⟩
  constructor <;> decide +kernel

theorem met_FetchFaultsPark : Executes world gang path ∧ path.mask ≠ 0 ∧ curSlot world gang (.waitSlot 1) = true := ⟨world_executes, by decide +kernel⟩

end Sys2Proof.Tests
end

