-- ==== Sys2Proof/Tests/Witness6.lean ====
section
/-! SUPPORT. For each statement about taped modes and regions, states and operands that meet its hypotheses together, and what one step of
them gives. -/

set_option Elab.async false

namespace Sys2Proof.Tests

open Sys2Proof.Machine Sys2Proof.Claims

/-! ### A team in FWD or REV (spec/13) -/

/-- The machine with the region open and its team in a mode. The gang's threads name four elements in three lines. -/
def inMode (n : Nat) : State := { regional with teams := [{ team with dmode := n }] }

theorem inMode_executes (n : Nat) : Executes (inMode n) gang path := ⟨rfl, rfl, world_executes.idle⟩

/-- The address of a thread's element. -/
def element (n : Nat) (t : Thread) : Nat := accAddr (inMode n) gang t 4 4

/-- The check of its store. -/
def elementCheck (n : Nat) (acc : Acc) (t : Thread) : Except LaneFault (List (Nat × Trans)) :=
  checkRuns (inMode n) gang (leader (inMode n) gang (element n) 4 t) t acc (pageRuns (element n t) 4)

/-- The translations of its access. -/
def elementWalk (n : Nat) (acc : Acc) (t : Thread) : List (Nat × Trans) := got [] (elementCheck n acc t)

/-- The lines that the threads' elements lie in. -/
def elementLines : List Nat := [0x600000, 0x600080, 0x600100]

theorem met_LoadsIssue_forward : Executes (inMode 1) gang path ∧ ∀ t ∈ activeThreads (inMode 1) gang,
    (untaped (inMode 1) gang (accBytes 4) (element 1 t) ∨ gangMode (inMode 1) gang = 1 ∧
      ∃ e, regionHit (inMode 1) gang.ctx (element 1 t) (accBytes 4) = some e ∧ fits e.2 4 (element 1 t)) ∧
    elementCheck 1 .read t = .ok (elementWalk 1 .read t) ∧ ∀ x ∈ elementWalk 1 .read t, pteTgt x.2.pte ≠ 2 := by
  have all : ∀ t ∈ activeThreads (inMode 1) gang, gangMode (inMode 1) gang = 1 ∧
      regionHit (inMode 1) gang.ctx (element 1 t) (accBytes 4) = some (4, region) ∧ ((4 : BitVec 3).toNat = primalSize region ∧
      element 1 t % primalSize region = 0) ∧ fine (elementCheck 1 .read t) = true ∧ ∀ x ∈ elementWalk 1 .read t, pteTgt x.2.pte ≠ 2 := by decide +kernel
  exact ⟨inMode_executes 1, fun t ht => ⟨Or.inr ⟨(all t ht).1, _, (all t ht).2.1, (all t ht).2.2.1⟩,
    fine_got [] _ (all t ht).2.2.2.1, (all t ht).2.2.2.2⟩⟩

/-- One run of an access of a team in REV checked, with the page that the check passes on. -/
def runCheck (u t : Thread) (x n : Nat) (acc : Acc) : Except LaneFault (Nat × Trans) := checkRun (inMode 2) gang u t x n acc

theorem met_LoadsIssue_reverse : Executes (inMode 2) gang path ∧ gangMode (inMode 2) gang = 2 ∧ ∀ t ∈ activeThreads (inMode 2) gang,
    let u := leader (inMode 2) gang (element 2) (accBytes 4) t
    regionHit (inMode 2) gang.ctx (element 2 t) (accBytes 4) = some (4, region) ∧ fits region 4 (element 2 t) ∧
    runCheck u t (element 2 t) (accBytes 4) .read = .ok (got (0, ⟨0, 0⟩) (runCheck u t (element 2 t) (accBytes 4) .read)) ∧
    runCheck t t (cellAddr region (element 2 t)) 16 .atomic = .ok (got (0, ⟨0, 0⟩) (runCheck t t (cellAddr region (element 2 t)) 16 .atomic)) ∧
    (let tc := (got (0, ⟨0, 0⟩) (runCheck t t (cellAddr region (element 2 t)) 16 .atomic)).2
     pteTgt tc.pte = 0 ∧ pteSysat tc.pte = false) := by
  have all : ∀ t ∈ activeThreads (inMode 2) gang,
      let u := leader (inMode 2) gang (element 2) (accBytes 4) t
      regionHit (inMode 2) gang.ctx (element 2 t) (accBytes 4) = some (4, region) ∧ ((4 : BitVec 3).toNat = primalSize region ∧
      element 2 t % primalSize region = 0) ∧ fine (runCheck u t (element 2 t) (accBytes 4) .read) = true ∧
      fine (runCheck t t (cellAddr region (element 2 t)) 16 .atomic) = true ∧
      (let tc := (got (0, ⟨0, 0⟩) (runCheck t t (cellAddr region (element 2 t)) 16 .atomic)).2
       pteTgt tc.pte = 0 ∧ pteSysat tc.pte = false) := by decide +kernel
  exact ⟨inMode_executes 2, by decide +kernel, fun t ht =>
    ⟨(all t ht).1, (all t ht).2.1, fine_got _ _ (all t ht).2.2.1, fine_got _ _ (all t ht).2.2.2.1, (all t ht).2.2.2.2⟩⟩

theorem test_reverse_load_adds : runs (.ldg 0 4 4 4 3 false) (inMode 2) (fun _ k =>
    k.out.map (fun o => (o.kind, o.parts.map (fun p => (p.lpos, p.pa, p.x)))) ==
      (List.range 4).map (fun i => (OutKind.atomic (.fadda true) false .rne 5, [(i, 0x700000 + 16 * (16 * i + 16), 0x3F800000#64)]))) = true := by
  decide +kernel

/-! ### Taped stores -/

/-- The translations of a gang's stores of 4 bytes to those elements. -/
def storeWalk (s : State) (g : Gang) (t : Thread) : List (Nat × Trans) :=
  got [] (checkRuns s g (leader s g (element 0) 4 t) t .write (pageRuns (element 0 t) 4))

/-- What can be evaluated of the checks of those stores. -/
def storeChecks (s : State) (g : Gang) (r : Region) : Bool :=
  !(taping s g 4 (element 0)).isEmpty && decide (regionOf s g.ctx 4 = some r) && s.wbuf.isEmpty &&
  (List.range 6).all (fun k => curSlot s g (.bufferSlot k)) && (activeThreads s g).length == 4 && decide (g.threads.map (·.lpos)).Nodup &&
  (activeThreads s g).all (fun t => fine (checkRuns s g (leader s g (element 0) 4 t) t .write (pageRuns (element 0 t) 4)) &&
    decide (regionHit s g.ctx (element 0 t) 4 = some (4, r)) && decide (4 = primalSize r ∧ element 0 t % primalSize r = 0) &&
    (storeWalk s g t).all (fun x => pteTgt x.2.pte == 0))

theorem storeChecks_taped (s : State) (g : Gang) (r : Region) (h : storeChecks s g r = true) :
    tapedChecks s g 4 (element 0) (storeWalk s g) 4 r := by
  simp only [storeChecks, Bool.and_eq_true, Bool.not_eq_true', List.isEmpty_eq_false_iff, decide_eq_true_eq, List.isEmpty_iff, List.all_eq_true,
    beq_iff_eq, List.mem_range] at h
  obtain ⟨⟨⟨⟨⟨⟨hits, reg⟩, empty⟩, room⟩, few⟩, each⟩, all⟩ := h
  refine ⟨hits, reg, fun k hk => room k (by omega), by simp [empty], each, fun t ht => ?_⟩
  obtain ⟨⟨⟨ok, hit⟩, fit⟩, dev⟩ := all t ht
  exact ⟨fine_got [] _ ok, Or.inr ⟨hit, fit, dev⟩⟩

/-- Whether the gang's elements touch a halfword of a line. -/
def half (l h : Nat) : Bool :=
  gang.threads.any (fun t => element 0 t / 128 * 128 == l && decide (element 0 t % 128 ≤ 2 * h + 1) && decide (2 * h < element 0 t % 128 + 4))

theorem half_touches (l h : Nat) : half l h = true ↔ touches gang.threads (element 0) 4 l h := by
  simp only [half, touches, List.any_eq_true, Bool.and_eq_true, beq_iff_eq, decide_eq_true_eq, and_assoc]

theorem elementLines_touched : touchedLines gang.threads (element 0) elementLines := by
  intro l
  have all : gang.threads.map (fun t => element 0 t / 128 * 128) = [0x600000, 0x600080, 0x600080, 0x600100] := by decide +kernel
  have mem : (∃ t ∈ gang.threads, element 0 t / 128 * 128 = l) ↔ l ∈ gang.threads.map (fun t => element 0 t / 128 * 128) := by simp [List.mem_map]
  rw [mem, all]
  simp [elementLines]

/-- The pages of three records from the tape's base. -/
def recordRuns : List (Nat × Nat) := (List.range elementLines.length).flatMap (fun i => pageRuns (region.tp + 160 * i) 160)

theorem met_StoresComplete_forward : Executes (inMode 1) gang path ∧ gangMode (inMode 1) gang = 1 ∧
    tapedChecks (inMode 1) gang 4 (element 0) (storeWalk (inMode 1) gang) 4 region ∧ taping (inMode 1) gang 4 (element 0) = gang.threads ∧
    touchedLines gang.threads (element 0) elementLines ∧ elementLines.Pairwise (· < ·) ∧
    region.tp + 160 * elementLines.length ≤ region.tlim ∧ region.tp + 160 * elementLines.length < 2 ^ 64 ∧
    deviceRuns (inMode 1) gang .write recordRuns = .ok (got [] (deviceRuns (inMode 1) gang .write recordRuns)) :=
  ⟨inMode_executes 1, by decide +kernel, storeChecks_taped _ _ _ (by decide +kernel), by decide +kernel, elementLines_touched,
    by decide +kernel, by decide +kernel, by decide +kernel, fine_got _ _ (by decide +kernel)⟩

theorem test_forward_store_tapes : runs (.stg 0 4 4 4 2 false) (inMode 1) (fun u k =>
    k.tapeHead == 0x800140 && k.tapeSeq == 3 && (regionOf u 1 4).map (·.tp) == some 0x8001E0 &&
    u.wbuf.map (fun b => b.tape.map (fun r => (r.link, r.line, r.hmask))) ==
      [some (0x8000A0, 0x600100, 3), some (0x800000, 0x600080, 3 * 2 ^ 32 + 3), some (0, 0x600000, 3 * 2 ^ 32)]) = true := by decide +kernel

/-- The region with room for two records, and the machine with it. -/
def shortRegion : Region := { region with tlim := 0x800140 }

/-- The machine in FWD whose tape has room for two records. -/
def shortTape : State := updCtx (inMode 1) 1 (fun c => { c with regions := sparseSet none c.regions 4 (some shortRegion) })

theorem met_StoresComplete_full : Executes shortTape gang path ∧ gangMode shortTape gang = 1 ∧
    tapedChecks shortTape gang 4 (element 0) (storeWalk shortTape gang) 4 shortRegion ∧ taping shortTape gang 4 (element 0) = gang.threads ∧
    touchedLines gang.threads (element 0) elementLines ∧ shortRegion.tlim < shortRegion.tp + 160 * elementLines.length ∧
    activeThreads shortTape gang = onPath gang path ∧ handlerReady shortTape gang path :=
  ⟨⟨rfl, rfl, world_executes.idle⟩, by decide +kernel, storeChecks_taped _ _ _ (by decide +kernel), by decide +kernel, elementLines_touched,
    by decide +kernel, by decide +kernel, canTrap_ready _ _ (by decide +kernel)⟩

/-- A record as R289 lays it out: LINK, LINE, HMASK, entry 4 and SEQ, with old bytes of 6 where HMASK is 1. -/
def heldRecord (link line hmask seq : Nat) : List Byte :=
  toBytes 32 (link * 2 ^ 192 + line * 2 ^ 128 + hmask * 2 ^ 64 + 4 * 2 ^ 21 + seq) ++
    (List.range 128).map (fun k => if bitOf hmask (k / 2) then 6#8 else 0#8)

/-- The records that the gang's stores pop, the last one first. -/
def heldRecords : List (List Byte) :=
  [heldRecord 0x8000A0 0x600100 3 3, heldRecord 0x800000 0x600080 (3 * 2 ^ 32 + 3) 2, heldRecord 0 0x600000 (3 * 2 ^ 32) 1]

/-- The gang with its head at the third record. -/
def poppingGang : Gang := { gang with tapeHead := 0x800140 }

/-- The machine in REV with those records on the tape, and a cell that holds 3.0. -/
def popping : State :=
  { inMode 2 with
    mem := [(0x700100, toBytes 16 (3 * 2 ^ 91)), (0x800000, heldRecord 0 0x600000 (3 * 2 ^ 32) 1),
        (0x8000A0, heldRecord 0x800000 0x600080 (3 * 2 ^ 32 + 3) 2), (0x800140, heldRecord 0x8000A0 0x600100 3 3)].foldl
      (fun m x => sparseWriteRun memDefault m x.1 x.2) (inMode 2).mem
    gangs := [poppingGang] }

/-- The cells that its stores exchange, by descending line. -/
def poppedCells : List (Nat × Nat) :=
  elementLines.reverse.flatMap (fun l => (gang.threads.filter (fun t => element 0 t / 128 * 128 == l)).map
    (fun t => (cellAddr region (element 0 t), 16)))

/-- Their pages. -/
def poppedPages : List (Nat × Trans) := got [] (deviceRuns popping poppingGang .atomic poppedCells)

/-- The pages of a record. -/
def recordPages (head : Nat) : List (Nat × Trans) := got [] (deviceRuns popping poppingGang .read (pageRuns head 160))

/-- A chain of one record more. -/
theorem chain_step (n head : Nat) (rt : List (Nat × Trans)) (b : List Byte) (rest : List (List Byte)) (h : head ≠ 0)
    (ok : deviceRuns popping poppingGang .read (pageRuns head 160) = .ok rt) (hb : readRuns popping poppingGang.core rt head 160 = b)
    (tail : chainOf popping poppingGang n (fieldAt b 24 8) rest) : chainOf popping poppingGang (n + 1) head (b :: rest) :=
  Or.inr ⟨rt, b, rest, h, ok, hb.symm, rfl, tail⟩

theorem recordPages_ok : ∀ h ∈ [0x800140, 0x8000A0, 0x800000],
    deviceRuns popping poppingGang .read (pageRuns h 160) = .ok (recordPages h) := by
  have ok : ∀ h ∈ [0x800140, 0x8000A0, 0x800000], fine (deviceRuns popping poppingGang .read (pageRuns h 160)) = true := by decide +kernel
  exact fun h hh => fine_got [] _ (ok h hh)

theorem recordPages_read : ∀ x ∈ [(0x800140, heldRecord 0x8000A0 0x600100 3 3), (0x8000A0, heldRecord 0x800000 0x600080 (3 * 2 ^ 32 + 3) 2),
    (0x800000, heldRecord 0 0x600000 (3 * 2 ^ 32) 1)], readRuns popping poppingGang.core (recordPages x.1) x.1 160 = x.2 := by decide +kernel

theorem recordLinks : fieldAt (heldRecord 0x8000A0 0x600100 3 3) 24 8 = 0x8000A0 ∧
    fieldAt (heldRecord 0x800000 0x600080 (3 * 2 ^ 32 + 3) 2) 24 8 = 0x800000 := by decide +kernel

theorem popping_chain : chainOf popping poppingGang 3 0x800140 heldRecords := by
  refine chain_step 2 _ (recordPages 0x800140) _ _ (by decide) (recordPages_ok _ (.head _)) (recordPages_read (_, _) (.head _)) ?_
  rw [recordLinks.1]
  refine chain_step 1 _ (recordPages 0x8000A0) _ _ (by decide) (recordPages_ok _ (.tail _ (.head _))) (recordPages_read (_, _) (.tail _ (.head _))) ?_
  rw [recordLinks.2]
  exact chain_step 0 _ (recordPages 0x800000) _ _ (by decide) (recordPages_ok _ (.tail _ (.tail _ (.head _)))) (recordPages_read (_, _) (.tail _ (.tail _ (.head _)))) rfl

/-- Whether record `i` is the one that line `i` pops. -/
def popsHere (i : Nat) : Bool :=
  match heldRecords[i]?, elementLines.reverse[i]? with
  | some b, some l => fieldAt b 16 8 == l && (List.range 64).all (fun h => bitOf (fieldAt b 8 8) h == half l h) && bitsOf (fieldAt b 0 4) 24 21 == 4
  | _, _ => false

theorem popsHere_pops (i l : Nat) (h : elementLines.reverse[i]? = some l) (hp : popsHere i = true) :
    ∃ b, heldRecords[i]? = some b ∧ popsRecord b l 4 (touches gang.threads (element 0) 4 l) := by
  unfold popsHere at hp
  rw [h] at hp
  cases hb : heldRecords[i]? with
  | none => simp [hb] at hp
  | some b =>
    simp only [hb, Bool.and_eq_true, beq_iff_eq, List.all_eq_true, List.mem_range] at hp
    refine ⟨b, rfl, hp.1.1, fun k hk => ?_, hp.2⟩
    rw [hp.1.2 k hk, half_touches]

/-- Where a thread's line and its cell stand. -/
def linePlace (t : Thread) : Nat := (partAt (storeWalk popping poppingGang t) t.lpos (element 0 t) 4 0 0 0).pa / 128 * 128

/-- Where its cell stands. -/
def cellPlace (t : Thread) : Nat := (partAt poppedPages t.lpos (cellAddr region (element 0 t)) 16 0 0 0).pa

theorem met_StoresComplete_reverse : Executes popping poppingGang path ∧ gangMode popping poppingGang = 2 ∧
    tapedChecks popping poppingGang 4 (element 0) (storeWalk popping poppingGang) 4 region ∧
    taping popping poppingGang 4 (element 0) = gang.threads ∧ touchedLines gang.threads (element 0) elementLines.reverse ∧
    elementLines.reverse.Pairwise (· > ·) ∧ deviceRuns popping poppingGang .atomic poppedCells = .ok poppedPages ∧
    chainOf popping poppingGang elementLines.reverse.length poppingGang.tapeHead.toNat heldRecords ∧
    (∀ (i l : Nat), elementLines.reverse[i]? = some l →
      ∃ b, heldRecords[i]? = some b ∧ popsRecord b l 4 (touches gang.threads (element 0) 4 l)) ∧
    apart gang.threads (element 0) linePlace cellPlace ∧ memoriesWf popping := by
  refine ⟨⟨rfl, rfl, ?_⟩, by decide +kernel, storeChecks_taped _ _ _ (by decide +kernel), by decide +kernel, fun l => ?_, by decide +kernel,
    fine_got _ _ (by decide +kernel), popping_chain, fun i l h => popsHere_pops i l h ?_, ?_, by decide +kernel, by decide +kernel⟩
  · constructor <;> decide +kernel
  · simpa using elementLines_touched l
  · have hi : i < 3 := Nat.lt_of_not_le (fun hx => by
      have : elementLines.reverse[i]? = none := List.getElem?_eq_none (by simp [elementLines]; omega)
      simp [this] at h)
    have all : ∀ i, i < 3 → popsHere i = true := by decide +kernel
    exact all i hi
  · unfold apart
    decide +kernel

theorem met_StoresComplete_order : Executes (inMode 2) gang path ∧ gangMode (inMode 2) gang = 2 ∧
    tapedChecks (inMode 2) gang 4 (element 0) (storeWalk (inMode 2) gang) 4 region ∧ taping (inMode 2) gang 4 (element 0) = gang.threads ∧
    chainOf (inMode 2) gang 3 gang.tapeHead.toNat [] ∧ activeThreads (inMode 2) gang = onPath gang path ∧ handlerReady (inMode 2) gang path :=
  ⟨inMode_executes 2, by decide +kernel, storeChecks_taped _ _ _ (by decide +kernel), by decide +kernel, Or.inl ⟨rfl, rfl⟩, by decide +kernel,
    canTrap_ready _ _ (by decide +kernel)⟩

theorem test_reverse_store_pops : runs (.stg 0 4 4 4 7 true) popping (fun u k =>
    k.threads.map (fun t => vreg t 7) == [0x40400000#32, 0, 0, 0] && k.tapeHead == 0 && memBytes u 0x600040 4 == [6, 6, 6, 6] &&
    memBytes u 0x700100 16 == List.replicate 16 0 && memBytes u 0x600044 4 == memBytes popping 0x600044 4) = true := by decide +kernel

/-! ### Traps and arrivals -/

theorem met_TrapsAreTakenOrKill_region (n : Nat) (h : n = 1 ∨ n = 2) : let g := gangWith [(8, 0x600002#32)] (fun t => { t with v := [] })
    let s := { inMode n with gangs := [g] }
    Executes s g path ∧ handlerReady s g path ∧ activeThreads s g = onPath g path ∧ gangMode s g = n ∧
    (∀ t ∈ onPath g path, accAddr s g t 4 4 = 0x600002) ∧ regionHit s g.ctx 0x600002 (accBytes 4) = some (4, region) ∧
    ¬ fits region 4 0x600002 ∧ g.gwct.toNat ≤ coreNow s g.core ∧ regionHit s g.ctx 0x600002 32 = some (4, region) ∧
    (spair g (8#9).toNat).toNat = 0x600002 := by
  refine ⟨⟨rfl, rfl, by constructor <;> decide +kernel⟩, canTrap_ready _ _ ?_, ?_, ?_, ?_, ?_, fun hf => absurd hf.2 (by decide), ?_, ?_, by decide +kernel⟩
  all_goals rcases h with rfl | rfl <;> decide +kernel

theorem met_TrapsAreTakenOrKill_atomic : let g := gangWith [] (fun t => { t with v := [(4, 0x600010#32)] })
    let s := { inMode 2 with gangs := [g] }
    Executes s g path ∧ (∀ t ∈ onPath g path, (vpair t 4).toNat % 2 ^ 64 = 0x600010) ∧
    (Instr.atomxFadda false 2 4 true true, AtomicOp.fadda true) ∈ atomics false 2 4 9 true true ∧
    regionHit s g.ctx 0x600010 (atomSize (.fadda true) false) = some (4, region) :=
  ⟨⟨rfl, rfl, by constructor <;> decide +kernel⟩, by decide +kernel, by simp [atomics], by decide +kernel⟩

/-- A line of a taped store in the buffer. -/
def tapedLine : BufStore :=
  ⟨900, 5, 3, 1, 0, true, [{ part0 with va := 0x600040, pa := 0x600040, x := 7 }], 0,
    some ⟨4, 0x8000A0, 0x600000, 3 * 2 ^ 32, 0, 0, 3, [{ part0 with lpos := 64, va := 0x800000, pa := 0x800000, size := 160 }]⟩⟩

theorem met_StoresArrive_tape : let s := { inMode 1 with wbuf := [tapedLine] }
    s.wbuf.find? (fun x => x.core == tapedLine.core && x.id == tapedLine.id) = some tapedLine ∧ tapedLine.parts ≠ [] ∧
    (∀ x ∈ tapedLine.parts, x.tgt = 0 ∧ x.pa / 128 * 128 = 0x600000) ∧ (∀ r ∈ tapedLine.tape, ∀ x ∈ r.parts, x.tgt = 0) ∧
    storeReached s tapedLine = true ∧ tapedWaits s tapedLine = false := by decide +kernel

end Sys2Proof.Tests
end

section
/-! LEMMAS AND PROOF. Predicate p7 (spec/02 R36): it reads 1, a write to it is discarded, and its negation selects no thread. -/

namespace Sys2Proof.Machine

/-! ### Predicate p7 -/

@[simp] theorem readP_seven (t : Thread) : readP t 7 = true := rfl

@[simp] theorem writeP_seven (t : Thread) (b : Bool) : writeP t 7 b = t := rfl

/-- The condition `!p7` of a prefix lets no thread act (spec/02 R36, R47). -/
theorem predOn_not_seven {c : Cur} (hen : c.pfx.pen = true) (hneg : c.pfx.pneg = true) (hidx : c.pfx.pidx = 7) (t : Thread) :
    predOn c t = false := by
  simp [predOn, hen, hneg, hidx]

theorem activeThreads_not_seven {s : State} (hen : s.cur.pfx.pen = true) (hneg : s.cur.pfx.pneg = true)
    (hidx : s.cur.pfx.pidx = 7) (g : Gang) : activeThreads s g = [] := by
  unfold activeThreads
  rw [List.filter_eq_nil_iff]
  intro t _
  simp [isActive, predOn_not_seven hen hneg hidx t]

/-! ### What a lane leaves -/

@[simp] theorem laneThread_outV (t : Thread) (r : Nat) (w : Word) : laneThread t (outV r w) = writeV t r w := rfl

@[simp] theorem laneThread_outP (t : Thread) (q : Nat) (b : Bool) : laneThread t (outP q b) = writeP t q b := rfl

@[simp] theorem outV_fl (r : Nat) (w : Word) : (outV r w).fl = flagNone := rfl

@[simp] theorem outP_fl (q : Nat) (b : Bool) : (outP q b).fl = flagNone := rfl

/-- Lanes that raise no flag raise none together. -/
theorem orFlags_flagNone {l : List Flags} (h : ∀ x ∈ l, x = flagNone) : orFlags l = flagNone := by
  rw [List.eq_replicate_of_mem h]
  generalize l.length = n
  induction n with
  | zero => rfl
  | succ n ih => exact ih

/-! ### Lane-wise bundles that raise no flag -/

/-- Only what the lanes of active threads do counts. -/
theorem lanesOnward_congr {s : State} {g : Gang} {f k : Thread → Thread} (h : ∀ t ∈ activeThreads s g, f t = k t) (fl : Flags) :
    lanesOnward s g f fl = lanesOnward s g k fl := by
  have hmap : g.threads.map (fun t => if isActive s g t then f t else t) = g.threads.map (fun t => if isActive s g t then k t else t) := by
    apply List.map_congr_left
    intro t ht
    by_cases hact : isActive s g t = true
    · simp [hact, h t (List.mem_filter.mpr ⟨ht, hact⟩)]
    · simp [hact]
  simp only [lanesOnward, lanesDone, hmap]

/-- A lane-wise bundle of an idle gang whose lanes raise no flag changes each active thread by its lane alone. -/
theorem laneOp_flagless {s : State} {g : Gang} {p : Path} (e : Executes s g p) (m : Bool) (rd wr : List Nat)
    {f : Gang → Thread → LaneOut} {k : Thread → Thread} (hlane : ∀ t ∈ activeThreads s g, laneThread t (f g t) = k t)
    (hflag : ∀ t ∈ activeThreads s g, (f g t).fl = flagNone) :
    laneOp m rd wr f s = lanesOnward s g k flagNone := by
  have hfl : orFlags ((activeThreads s g).map (fun t => (f g t).fl)) = flagNone := orFlags_flagNone (by simpa using hflag)
  rw [laneOp_idle e, hfl]
  exact lanesOnward_congr hlane flagNone

/-- A lane-wise bundle that writes p7 alone leaves every thread as it was (spec/02 R36). -/
theorem laneOp_writes_seven {s : State} {g : Gang} {p : Path} (e : Executes s g p) (m : Bool) (rd : List Nat)
    (b : Gang → Thread → Bool) :
    laneOp m rd [] (fun g t => outP 7 (b g t)) s = lanesOnward s g (fun t => t) flagNone :=
  laneOp_flagless e m rd [] (fun t _ => writeP_seven t (b g t)) (fun _ _ => rfl)

/-- A lane-wise bundle with no active thread changes no thread and raises no flag. -/
theorem laneOp_inactive {s : State} {g : Gang} {p : Path} (e : Executes s g p) (hnone : activeThreads s g = []) (m : Bool)
    (rd wr : List Nat) (f : Gang → Thread → LaneOut) : laneOp m rd wr f s = lanesOnward s g (fun t => t) flagNone :=
  laneOp_flagless e m rd wr (by simp [hnone]) (by simp [hnone])

/-! ### The instructions of the statement -/

/-- `SEL` on p7 moves its first operand, whatever the second holds (spec/02 R36, spec/06 R131). -/
theorem exec_sel_seven {s : State} {g : Gang} {p : Path} (e : Executes s g p) (b a d : BitVec 7) (m : Bool) :
    exec (.sel 7 b a d m) s = .next (lanesOnward s g (fun t => writeV t d.toNat (vreg t a.toNat)) flagNone) := by
  refine congrArg Host.Outcome.next (laneOp_flagless e m _ _ (fun t ht => ?_) (fun _ _ => rfl))
  have hidle := e.idle.flight t (threads_mem_active ht)
  simp [readV_idle hidle]

theorem exec_plop_seven {s : State} {g : Gang} {p : Path} (e : Executes s g p) (o b a : BitVec 3) (m : Bool) :
    exec (.plop o b a 7 m) s = .next (lanesOnward s g (fun t => t) flagNone) :=
  congrArg Host.Outcome.next (laneOp_writes_seven e m _ _)

theorem exec_icmp_seven {s : State} {g : Gang} {p : Path} (e : Executes s g p) (k : BitVec 2) (b a : BitVec 7) (c : BitVec 4)
    (m : Bool) : exec (.icmp k b a c 7 m) s = .next (lanesOnward s g (fun t => t) flagNone) :=
  congrArg Host.Outcome.next (laneOp_writes_seven e m _ _)

theorem exec_logic_inactive {s : State} {g : Gang} {p : Path} (e : Executes s g p) (hnone : activeThreads s g = [])
    (o : BitVec 3) (b a d : BitVec 7) (m : Bool) :
    exec (.logic o b a d m) s = .next (lanesOnward s g (fun t => t) flagNone) :=
  congrArg Host.Outcome.next (laneOp_inactive e hnone m _ _ _)

/-- Settles O5: the writes to p7 leave every lane as it was, and under `!p7` no lane is active. -/
theorem predicateSevenReadsOne : Obligations.PredicateSevenReadsOne := by
  unfold Obligations.PredicateSevenReadsOne
  refine ⟨readP_seven, fun s g p e => ⟨exec_sel_seven e, exec_plop_seven e, ?_, ?_⟩⟩
  · intro k b a c m _ _
    exact exec_icmp_seven e k b a c m
  · intro hen hneg hidx
    have hnone := activeThreads_not_seven hen hneg hidx g
    exact ⟨hnone, exec_logic_inactive e hnone⟩

end Sys2Proof.Machine
end

section
/-! LEMMAS AND PROOF. Vector integer bundles that write registers: the frame of a lane-wise bundle whose lanes read an idle thread's
registers, and the two's-complement arithmetic of a lane as arithmetic of bit vectors (spec/06 R122 to R124). -/

namespace Sys2Proof.Machine

/-! ### Lanes that write registers -/

/-- A lane-wise bundle of an idle gang whose lanes only write vector registers: the writes are those of a thread with nothing in
flight. -/
theorem laneOp_writesV {s : State} {g : Gang} {p : Path} (e : Executes s g p) (m : Bool) (rd wr : List Nat)
    {f : Gang → Thread → LaneOut} {l : Thread → List (Nat × Word)}
    (hl : ∀ t : Thread, t.inflight = [] → f g t = ⟨l t, [], flagNone⟩) :
    laneOp m rd wr f s = lanesOnward s g (fun t => writeVs t (l t)) flagNone := by
  have hf : ∀ t ∈ activeThreads s g, f g t = ⟨l t, [], flagNone⟩ :=
    fun t ht => hl t (e.idle.flight t (threads_mem_active ht))
  exact laneOp_flagless e m rd wr (fun t ht => by rw [hf t ht]; rfl) (fun t ht => by rw [hf t ht])

/-- The same for lanes that write one register. -/
theorem laneOp_writesWord {s : State} {g : Gang} {p : Path} (e : Executes s g p) (m : Bool) (rd wr : List Nat)
    {f : Gang → Thread → LaneOut} {d : Nat} {w : Thread → Word} (hw : ∀ t : Thread, t.inflight = [] → f g t = outV d (w t)) :
    laneOp m rd wr f s = lanesOnward s g (fun t => writeV t d (w t)) flagNone :=
  laneOp_writesV e m rd wr (l := fun t => [(d, w t)]) hw

theorem wordOp_idle {s : State} {g : Gang} {p : Path} (e : Executes s g p) (m : Bool) (b a d : Nat) (f : Word → Word → Word) :
    wordOp m b a d f s = lanesOnward s g (fun t => writeV t d (f (vreg t a) (vreg t b))) flagNone :=
  laneOp_writesWord e m _ _ (fun t ht => by simp only [readV_idle ht])

theorem wordOp1_idle {s : State} {g : Gang} {p : Path} (e : Executes s g p) (m : Bool) (a d : Nat) (f : Word → Word) :
    wordOp1 m a d f s = lanesOnward s g (fun t => writeV t d (f (vreg t a))) flagNone :=
  laneOp_writesWord e m _ _ (fun t ht => by simp only [readV_idle ht])

/-- Only the low 64 bits of a number reach a register pair. -/
theorem regWrites_pair_mod (d n : Nat) : regWrites true d (n % 2 ^ 64) = regWrites true d n := by
  have hlo : toWord (n % 2 ^ 64) = toWord n := by
    apply BitVec.eq_of_toNat_eq
    simp only [toWord, BitVec.toNat_ofNat]
    omega
  have hhi : toWord ((n % 2 ^ 64) >>> 32) = toWord (n >>> 32) := by
    apply BitVec.eq_of_toNat_eq
    simp only [toWord, BitVec.toNat_ofNat, Nat.shiftRight_eq_div_pow]
    omega
  simp only [regWrites, if_true, hlo, hhi]

/-! ### Two's complement -/

/-- A natural number wrapped to a width is the bit vector of the integer (spec/04 R90). -/
theorem wrap_eq_toNat (w : Nat) (x : Int) : wrap w x = (BitVec.ofInt w x).toNat := (BitVec.toNat_ofInt x).symm

@[simp] theorem toWord_wrap (x : Int) : toWord (wrap 32 x) = BitVec.ofInt 32 x := by
  rw [wrap_eq_toNat, toWord, BitVec.ofNat_toNat, BitVec.setWidth_eq]

/-- The signed reading of a bit vector's number is its two's-complement value. -/
theorem signedOf_toNat {w : Nat} (hw : 0 < w) (x : BitVec w) : signedOf w x.toNat = x.toInt := by
  obtain ⟨n, rfl⟩ : ∃ n, w = n + 1 := ⟨w - 1, by omega⟩
  have hx : x.toNat % 2 ^ (n + 1) = x.toNat := Nat.mod_eq_of_lt x.isLt
  simp only [signedOf, hx, Nat.add_sub_cancel, BitVec.toInt_eq_toNat_cond]
  split <;> split <;> omega

theorem laneInt_signed (x : Word) : laneInt true 32 x.toNat = x.toInt := signedOf_toNat (by decide) x

theorem laneInt_unsigned (x : Word) : laneInt false 32 x.toNat = (x.toNat : Int) := by
  simp [laneInt, Nat.mod_eq_of_lt x.isLt]

/-- Read by either signedness, a word is itself modulo 2^32. -/
theorem ofInt_laneInt (sg : Bool) (x : Word) : BitVec.ofInt 32 (laneInt sg 32 x.toNat) = x := by
  cases sg
  · rw [laneInt_unsigned, BitVec.ofInt_natCast, BitVec.ofNat_toNat, BitVec.setWidth_eq]
  · rw [laneInt_signed, BitVec.ofInt_toInt]

/-- The kinds 0 to 3, whose bit 0 says whether the operands are signed (spec/06 R123). -/
theorem kind_cases (k : BitVec 2) : k = 0#2 ∨ k = 1#2 ∨ k = 2#2 ∨ k = 3#2 := by
  revert k
  decide

end Sys2Proof.Machine
end

section
/-! LEMMAS AND PROOF. Integer products, quotients and remainders (spec/06 R123 to R125). -/

namespace Sys2Proof.Machine

open Sys2Proof.Claims

/-! ### Products -/

/-- The low half of a product is the same for both signednesses (spec/06 R124). -/
theorem ofInt_mul_laneInt (sg : Bool) (a b : Word) :
    BitVec.ofInt 32 (laneInt sg 32 a.toNat * laneInt sg 32 b.toNat) = a * b := by
  rw [BitVec.ofInt_mul, ofInt_laneInt, ofInt_laneInt]

theorem mulWord_eq_product (k : BitVec 2) (a b : Word) : mulWord k a b = product k a b := by
  have hlow : ∀ sg, toWord (wrap 32 (laneInt sg 32 a.toNat * laneInt sg 32 b.toNat)) = a * b := fun sg => by
    rw [toWord_wrap, ofInt_mul_laneInt]
  obtain rfl | rfl | rfl | rfl := kind_cases k
  · exact hlow false
  · exact hlow true
  · have hhigh : ((a.toNat : Int) * b.toNat) / ((2 ^ 32 : Nat) : Int) = ((a.toNat * b.toNat / 2 ^ 32 : Nat) : Int) := by
      rw [Int.natCast_ediv, Int.natCast_mul]
    calc mulWord 2#2 a b
        = toWord (wrap 32 (laneInt false 32 a.toNat * laneInt false 32 b.toNat / ((2 ^ 32 : Nat) : Int))) := rfl
      _ = toWord (a.toNat * b.toNat / 2 ^ 32) := by
          rw [laneInt_unsigned, laneInt_unsigned, hhigh, toWord_wrap, BitVec.ofInt_natCast, toWord]
  · calc mulWord 3#2 a b
        = toWord (wrap 32 (laneInt true 32 a.toNat * laneInt true 32 b.toNat / ((2 ^ 32 : Nat) : Int))) := rfl
      _ = product 3#2 a b := by rw [laneInt_signed, laneInt_signed]; rfl

/-- The multiply-add into a register, for either signedness (spec/06 R124). -/
theorem toWord_mulAdd (sg : Bool) (a b c : Word) :
    toWord (wrap 32 (laneInt sg 32 a.toNat * laneInt sg 32 b.toNat + (c.toNat : Int))) = a * b + c := by
  rw [toWord_wrap, BitVec.ofInt_add, ofInt_mul_laneInt, BitVec.ofInt_natCast, BitVec.ofNat_toNat, BitVec.setWidth_eq]

/-- The multiply-add into a pair: the product of the operands extended by the kind's signedness (spec/06 R124). -/
theorem wrap_mulAdd_pair (sg : Bool) (a b : Word) (c : Dword) :
    wrap 64 (laneInt sg 32 a.toNat * laneInt sg 32 b.toNat + (c.toNat : Int)) =
      ((if sg then a.signExtend 64 else a.zeroExtend 64) * (if sg then b.signExtend 64 else b.zeroExtend 64) + c).toNat := by
  have hext : ∀ x : Word, BitVec.ofInt 64 (laneInt sg 32 x.toNat) = if sg then x.signExtend 64 else x.zeroExtend 64 := by
    intro x
    cases sg
    · rw [laneInt_unsigned, BitVec.ofInt_natCast, BitVec.ofNat_toNat]; rfl
    · rw [laneInt_signed]; rfl
  rw [wrap_eq_toNat, BitVec.ofInt_add, BitVec.ofInt_mul, hext, hext, BitVec.ofInt_natCast, BitVec.ofNat_toNat, BitVec.setWidth_eq]

theorem exec_imul {s : State} {g : Gang} {p : Path} (e : Executes s g p) (k : BitVec 2) (b a d : BitVec 7) (m : Bool) :
    exec (.imul k b a d m) s =
      .next (lanesOnward s g (fun t => writeV t d.toNat (product k (vreg t a.toNat) (vreg t b.toNat))) flagNone) := by
  refine congrArg Host.Outcome.next ((wordOp_idle e m _ _ _ _).trans ?_)
  simp only [mulWord_eq_product]

theorem exec_imulShort {s : State} {g : Gang} {p : Path} (e : Executes s g p) (a d : BitVec 5) (m : Bool) :
    exec (.imulShort a d m) s =
      .next (lanesOnward s g (fun t => writeV t d.toNat (vreg t d.toNat * vreg t a.toNat)) flagNone) := by
  refine congrArg Host.Outcome.next ((wordOp_idle e m _ _ _ _).trans ?_)
  simp only [mulWord_eq_product]
  rfl

/-- `IMAD` of kinds 0 and 1 adds into a register. -/
theorem exec_imad_word {s : State} {g : Gang} {p : Path} (e : Executes s g p) {k : BitVec 2} (hk : k.toNat < 2) (b a d : BitVec 7)
    (m : Bool) : exec (.imad k b a d m) s =
      .next (lanesOnward s g (fun t => writeV t d.toNat (vreg t a.toNat * vreg t b.toNat + vreg t d.toNat)) flagNone) := by
  have hword : decide (2 ≤ k.toNat) = false := decide_eq_false (by omega)
  refine congrArg Host.Outcome.next (laneOp_writesWord e m _ _ fun t ht => ?_)
  simp only [hword, Bool.false_eq_true, if_false, readV_idle ht, toWord_mulAdd]

/-- `IMAD` of kinds 2 and 3 adds into a pair. -/
theorem exec_imad_pair {s : State} {g : Gang} {p : Path} (e : Executes s g p) {k : BitVec 2} (hk : 2 ≤ k.toNat) (b a d : BitVec 7)
    (m : Bool) : exec (.imad k b a d m) s = .next (lanesOnward s g (fun t => writeVs t (regWrites true d.toNat
      ((if kindSigned k then (vreg t a.toNat).signExtend 64 else (vreg t a.toNat).zeroExtend 64) *
        (if kindSigned k then (vreg t b.toNat).signExtend 64 else (vreg t b.toNat).zeroExtend 64) +
        pairOf (vreg t d.toNat) (vreg t (d.toNat + 1))).toNat)) flagNone) := by
  have hwide : decide (2 ≤ k.toNat) = true := decide_eq_true hk
  refine congrArg Host.Outcome.next (laneOp_writesV e m _ _ fun t ht => ?_)
  simp only [hwide, if_true, readV_idle ht, readVPair_idle ht, wrap_mulAdd_pair]

/-! ### Quotients and remainders -/

/-- The quotient and the remainder of the model are those of R125, for kinds 0 and 1. -/
theorem divWord_eq {k : BitVec 2} (hk : k.toNat < 2) (a b : Word) : divWord k a b = (quotient k a b, remainder k a b) := by
  have hunsigned : kindSigned 0#2 = false := rfl
  have hsigned : kindSigned 1#2 = true := rfl
  have hcases : k = 0#2 ∨ k = 1#2 := by revert hk; revert k; decide
  by_cases hzero : b = 0#32
  · simp [divWord, quotient, remainder, hzero]
  · obtain rfl | rfl := hcases
    · simp [divWord, quotient, remainder, hunsigned, hzero]
    · by_cases hover : a = 0x80000000#32 ∧ b = 0xFFFFFFFF#32
      · simp [divWord, quotient, remainder, hsigned, hover]
      · simp [divWord, quotient, remainder, hsigned, hover, hzero]

theorem exec_idiv {s : State} {g : Gang} {p : Path} (e : Executes s g p) {k : BitVec 2} (hk : k.toNat < 2) (b a d : BitVec 7)
    (m : Bool) : exec (.idiv k b a d m) s =
      .next (lanesOnward s g (fun t => writeV t d.toNat (quotient k (vreg t a.toNat) (vreg t b.toNat))) flagNone) := by
  refine congrArg Host.Outcome.next ((wordOp_idle e m _ _ _ _).trans ?_)
  simp only [divWord_eq hk]

theorem exec_irem {s : State} {g : Gang} {p : Path} (e : Executes s g p) {k : BitVec 2} (hk : k.toNat < 2) (b a d : BitVec 7)
    (m : Bool) : exec (.irem k b a d m) s =
      .next (lanesOnward s g (fun t => writeV t d.toNat (remainder k (vreg t a.toNat) (vreg t b.toNat))) flagNone) := by
  refine congrArg Host.Outcome.next ((wordOp_idle e m _ _ _ _).trans ?_)
  simp only [divWord_eq hk]

/-! ### Words -/

/-- A long word of format `LV` with an integer major is decoded by `decodeInt` (spec/02 R42, R48). -/
theorem decodeWord_lvWord_int {maj : BitVec 6} (hlo : 0x0C ≤ maj.toNat) (hhi : maj.toNat < 0x18) (fn : BitVec 3) (b a d : BitVec 7)
    (m : Bool) : decodeWord (.long (lvWord maj fn b a d m)) = checkOperands (decodeInt maj.toNat fn b a d m) := by
  have h7 : maj.toNat ≠ 0x07 := by omega
  have hB : maj.toNat ≠ 0x0B := by omega
  have hlt : ¬ maj.toNat < 0x0B := by omega
  simp only [decodeWord, lvWord_low, if_true, decodeLongRaw, lvWord_major, lvWord_marker, lvWord_d, lvWord_a, lvWord_b, lvWord_fn,
    h7, hB, hlt, hhi, if_false]

/-- A decoded instruction passes the check of its operands if they meet their limits (spec/02 R52). -/
theorem checkOperands_legal {i : Instr} (h : operandsLegal i = true) : checkOperands (some i) = some i := if_pos h

/-- Major 0x0E holds `IDIV` and `IREM`, told apart by FN[2] (spec/06 R123, R125). -/
theorem decodeInt_divide (fn : BitVec 3) (b a d : BitVec 7) (m : Bool) : decodeInt 0x0E fn b a d m =
    some (if fn.getLsbD 2 then .irem (fn.extractLsb' 0 2) b a d m else .idiv (fn.extractLsb' 0 2) b a d m) := by
  unfold decodeInt
  cases fn.getLsbD 2 <;> rfl

theorem decodeWord_idiv {k : BitVec 2} (hk : k.toNat < 2) (b a d : BitVec 7) (m : Bool) :
    decodeWord (.long (lvWord 0x0E#6 (0#1 ++ k) b a d m)) = some (.idiv k b a d m) := by
  rw [decodeWord_lvWord_int (by decide) (by decide)]
  refine (congrArg checkOperands (decodeInt_divide _ b a d m)).trans ?_
  rw [extract_last, show (0#1 ++ k).getLsbD 2 = false from bit_above 0#1 k 0]
  exact checkOperands_legal (decide_eq_true hk)

theorem decodeWord_irem {k : BitVec 2} (hk : k.toNat < 2) (b a d : BitVec 7) (m : Bool) :
    decodeWord (.long (lvWord 0x0E#6 (1#1 ++ k) b a d m)) = some (.irem k b a d m) := by
  rw [decodeWord_lvWord_int (by decide) (by decide)]
  refine (congrArg checkOperands (decodeInt_divide _ b a d m)).trans ?_
  rw [extract_last, show (1#1 ++ k).getLsbD 2 = true from bit_above 1#1 k 0]
  exact checkOperands_legal (decide_eq_true hk)

/-- Settles O2: each meaning runs through the frame of a two-operand bundle, its word operation agrees with R124 and R125, and the words
of `IDIV` and `IREM` are read back field by field. -/
theorem integerProductsAndQuotientsComplete : Obligations.IntegerProductsAndQuotientsComplete := by
  unfold Obligations.IntegerProductsAndQuotientsComplete
  refine ⟨fun s g p e => ⟨fun k b a d m => ⟨exec_imul e k b a d m, fun hk => exec_imad_word e hk b a d m, ?_, ?_, fun hk => ?_⟩,
    exec_imulShort e⟩, fun k b a d m hk => ⟨decodeWord_idiv hk b a d m, decodeWord_irem hk b a d m⟩⟩
  · rintro rfl
    exact exec_imad_pair e (by decide) b a d m
  · rintro rfl
    exact exec_imad_pair e (by decide) b a d m
  · exact ⟨exec_idiv e hk b a d m, exec_irem e hk b a d m⟩

end Sys2Proof.Machine
end

section
/-! LEMMAS AND PROOF. Logic, moves and shifts (spec/06 R127, R128, R133, R134; the short forms of spec/02 R40). -/

namespace Sys2Proof.Machine

open Sys2Proof.Claims

/-! ### Logic -/

/-- The eight values of a function field FN[2:0]. -/
theorem fn_cases (o : BitVec 3) :
    o = 0#3 ∨ o = 1#3 ∨ o = 2#3 ∨ o = 3#3 ∨ o = 4#3 ∨ o = 5#3 ∨ o = 6#3 ∨ o = 7#3 := by
  revert o
  decide

/-- Each bit of `LOGIC` is its operation on the same bits (spec/06 R127). -/
theorem logicWord_getLsbD (o : BitVec 3) (a b : Word) {i : Nat} (hi : i < 32) :
    (logicWord o a b).getLsbD i = bitFn o (a.getLsbD i) (b.getLsbD i) := by
  have hnot : ∀ x : Word, (~~~x).getLsbD i = !x.getLsbD i := fun x => by
    rw [BitVec.getLsbD_not, decide_eq_true hi, Bool.true_and]
  obtain rfl | rfl | rfl | rfl | rfl | rfl | rfl | rfl := fn_cases o
  · exact BitVec.getLsbD_and
  · exact BitVec.getLsbD_or
  · exact BitVec.getLsbD_xor
  · show (a &&& ~~~b).getLsbD i = (a.getLsbD i && !b.getLsbD i)
    rw [BitVec.getLsbD_and, hnot]
  · show (a ||| ~~~b).getLsbD i = (a.getLsbD i || !b.getLsbD i)
    rw [BitVec.getLsbD_or, hnot]
  · show (~~~(a ^^^ b)).getLsbD i = !(a.getLsbD i ^^ b.getLsbD i)
    rw [hnot, BitVec.getLsbD_xor]
  · show (~~~(a &&& b)).getLsbD i = !(a.getLsbD i && b.getLsbD i)
    rw [hnot, BitVec.getLsbD_and]
  · show (~~~(a ||| b)).getLsbD i = !(a.getLsbD i || b.getLsbD i)
    rw [hnot, BitVec.getLsbD_or]

/-- `PLOP` has the operations of `LOGIC` (spec/06 R133). -/
theorem logicBit_eq_bitFn (o : BitVec 3) (a b : Bool) : logicBit o a b = bitFn o a b := by
  revert o a b
  decide

theorem exec_logic {s : State} {g : Gang} {p : Path} (e : Executes s g p) (o : BitVec 3) (b a d : BitVec 7) (m : Bool) :
    exec (.logic o b a d m) s =
      .next (lanesOnward s g (fun t => writeV t d.toNat (logicWord o (vreg t a.toNat) (vreg t b.toNat))) flagNone) :=
  congrArg Host.Outcome.next (wordOp_idle e m b.toNat a.toNat d.toNat (logicWord o))

theorem exec_andi {s : State} {g : Gang} {p : Path} (e : Executes s g p) (i : BitVec 10) (a d : BitVec 7) (m : Bool) :
    exec (.andi i a d m) s =
      .next (lanesOnward s g (fun t => writeV t d.toNat (vreg t a.toNat &&& immLI i s.cur.imm)) flagNone) :=
  congrArg Host.Outcome.next (wordOp1_idle e m a.toNat d.toNat (· &&& immLI i s.cur.imm))

theorem exec_ori {s : State} {g : Gang} {p : Path} (e : Executes s g p) (i : BitVec 10) (a d : BitVec 7) (m : Bool) :
    exec (.ori i a d m) s =
      .next (lanesOnward s g (fun t => writeV t d.toNat (vreg t a.toNat ||| immLI i s.cur.imm)) flagNone) :=
  congrArg Host.Outcome.next (wordOp1_idle e m a.toNat d.toNat (· ||| immLI i s.cur.imm))

theorem exec_xori {s : State} {g : Gang} {p : Path} (e : Executes s g p) (i : BitVec 10) (a d : BitVec 7) (m : Bool) :
    exec (.xori i a d m) s =
      .next (lanesOnward s g (fun t => writeV t d.toNat (vreg t a.toNat ^^^ immLI i s.cur.imm)) flagNone) :=
  congrArg Host.Outcome.next (wordOp1_idle e m a.toNat d.toNat (· ^^^ immLI i s.cur.imm))

/-- `MOV` is `ORI` with 0 (spec/02 R40). -/
theorem exec_mov {s : State} {g : Gang} {p : Path} (e : Executes s g p) (a d : BitVec 5) (m : Bool) :
    exec (.mov a d m) s = .next (lanesOnward s g (fun t => writeV t d.toNat (vreg t a.toNat)) flagNone) := by
  refine congrArg Host.Outcome.next ((wordOp1_idle e m a.toNat d.toNat (· ||| 0#32)).trans ?_)
  simp only [BitVec.or_zero]

theorem exec_andShort {s : State} {g : Gang} {p : Path} (e : Executes s g p) (a d : BitVec 5) (m : Bool) :
    exec (.andShort a d m) s =
      .next (lanesOnward s g (fun t => writeV t d.toNat (vreg t d.toNat &&& vreg t a.toNat)) flagNone) :=
  congrArg Host.Outcome.next (wordOp_idle e m a.toNat d.toNat d.toNat (logicWord 0#3))

theorem exec_orShort {s : State} {g : Gang} {p : Path} (e : Executes s g p) (a d : BitVec 5) (m : Bool) :
    exec (.orShort a d m) s =
      .next (lanesOnward s g (fun t => writeV t d.toNat (vreg t d.toNat ||| vreg t a.toNat)) flagNone) :=
  congrArg Host.Outcome.next (wordOp_idle e m a.toNat d.toNat d.toNat (logicWord 1#3))

theorem exec_xorShort {s : State} {g : Gang} {p : Path} (e : Executes s g p) (a d : BitVec 5) (m : Bool) :
    exec (.xorShort a d m) s =
      .next (lanesOnward s g (fun t => writeV t d.toNat (vreg t d.toNat ^^^ vreg t a.toNat)) flagNone) :=
  congrArg Host.Outcome.next (wordOp_idle e m a.toNat d.toNat d.toNat (logicWord 2#3))

theorem exec_plop {s : State} {g : Gang} {p : Path} (e : Executes s g p) (o b a d : BitVec 3) (m : Bool) :
    exec (.plop o b a d m) s =
      .next (lanesOnward s g (fun t => writeP t d.toNat (bitFn o (readP t a.toNat) (readP t b.toNat))) flagNone) :=
  congrArg Host.Outcome.next (laneOp_flagless e m _ _
    (fun t _ => by rw [laneThread_outP, logicBit_eq_bitFn]) (fun _ _ => rfl))

/-! ### Shifts as arithmetic -/

theorem shiftLeft_eq_ofNat {w : Nat} (x : BitVec w) (n : Nat) : x <<< n = BitVec.ofNat w (x.toNat * 2 ^ n) := by
  apply BitVec.eq_of_toNat_eq
  rw [BitVec.toNat_shiftLeft, BitVec.toNat_ofNat, Nat.shiftLeft_eq]

theorem ushiftRight_eq_ofNat {w : Nat} (x : BitVec w) (n : Nat) : x >>> n = BitVec.ofNat w (x.toNat / 2 ^ n) := by
  apply BitVec.eq_of_toNat_eq
  rw [BitVec.toNat_ushiftRight, BitVec.toNat_ofNat, Nat.shiftRight_eq_div_pow, Nat.mod_eq_of_lt]
  exact Nat.lt_of_le_of_lt (Nat.div_le_self ..) x.isLt

theorem sshiftRight_eq_ofInt {w : Nat} (x : BitVec w) (n : Nat) :
    x.sshiftRight n = BitVec.ofInt w (x.toInt / ((2 ^ n : Nat) : Int)) := by
  rw [BitVec.sshiftRight, Int.shiftRight_eq_div_pow]

/-- Two shifts apart by at least the width do not overlap: their sum is their union. -/
theorem shiftLeft_or_ushiftRight {w : Nat} (x : BitVec w) {i j : Nat} (h : w ≤ i + j) :
    x <<< i ||| x >>> j = BitVec.ofNat w (x.toNat * 2 ^ i + x.toNat / 2 ^ j) := by
  have hdisjoint : x <<< i &&& x >>> j = 0#w := by
    apply BitVec.eq_of_getLsbD_eq
    intro k hk
    by_cases hki : k < i
    · simp [hki]
    · simp [BitVec.getLsbD_of_ge x (j + k) (by omega)]
  rw [BitVec.ofNat_add, ← shiftLeft_eq_ofNat, ← ushiftRight_eq_ofNat, BitVec.add_eq_or_of_and_eq_zero _ _ hdisjoint]

/-- A rotation to the left, as a sum (spec/06 R128). -/
theorem rotateLeft_eq_toWord (x : Word) (n : Nat) :
    x.rotateLeft (n % 32) = toWord (x.toNat * 2 ^ (n % 32) + x.toNat / 2 ^ (32 - n % 32)) := by
  rw [BitVec.rotateLeft_def, Nat.mod_mod]
  exact shiftLeft_or_ushiftRight x (i := n % 32) (j := 32 - n % 32) (by omega)

/-- A rotation to the right, as a sum (spec/06 R128). -/
theorem rotateRight_eq_toWord (x : Word) (n : Nat) :
    x.rotateRight (n % 32) = toWord (x.toNat / 2 ^ (n % 32) + x.toNat * 2 ^ (32 - n % 32)) := by
  rw [BitVec.rotateRight_def, Nat.mod_mod, BitVec.or_comm, Nat.add_comm]
  exact shiftLeft_or_ushiftRight x (i := 32 - n % 32) (j := n % 32) (by omega)

theorem shiftWord_eq_shift32 (f : Nat) (x : Word) (n : Nat) : shiftWord f x n = shift32 f x n :=
  match f with
  | 0 => shiftLeft_eq_ofNat x n
  | 1 => ushiftRight_eq_ofNat x n
  | 2 => sshiftRight_eq_ofInt x n
  | 3 => rotateLeft_eq_toWord x n
  | _ + 4 => rotateRight_eq_toWord x n

theorem shiftDword_eq_shift64 (f : Nat) (x : Dword) (n : Nat) : shiftDword f x n = shift64 f x n :=
  match f with
  | 5 => shiftLeft_eq_ofNat x n
  | 6 => ushiftRight_eq_ofNat x n
  | 0 | 1 | 2 | 3 | 4 | _ + 7 => sshiftRight_eq_ofInt x n

/-- A shift bundle of an idle gang: each active thread shifts its register, or its pair, by the amount it supplies. -/
theorem shiftOp_idle {s : State} {g : Gang} {p : Path} (e : Executes s g p) (m : Bool) (f : Nat) (rd : List Nat) (a d : Nat)
    {amount n : Thread → Nat} (hn : ∀ t : Thread, t.inflight = [] → amount t = n t) :
    shiftOp m f rd a d amount s = lanesOnward s g (fun t => shifted f a d (n t) t) flagNone := by
  unfold shiftOp
  by_cases hwide : 5 ≤ f
  · simp only [shifted, hwide, decide_true, if_true]
    exact laneOp_writesV e m _ _ fun t ht => by rw [readVPair_idle ht, hn t ht, shiftDword_eq_shift64]
  · simp only [shifted, hwide, decide_false, Bool.false_eq_true, if_false]
    exact laneOp_writesWord e m _ _ fun t ht => by rw [readV_idle ht, hn t ht, shiftWord_eq_shift32]

theorem exec_shift {s : State} {g : Gang} {p : Path} (e : Executes s g p) (o : BitVec 3) (b a d : BitVec 7) (m : Bool) :
    exec (.shift o b a d m) s =
      .next (lanesOnward s g (fun t => shifted o.toNat a.toNat d.toNat ((vreg t b.toNat).toNat % 256) t) flagNone) :=
  congrArg Host.Outcome.next (shiftOp_idle e m _ _ _ _ fun t ht => by rw [readV_idle ht])

theorem exec_shfi {s : State} {g : Gang} {p : Path} (e : Executes s g p) (o : BitVec 3) (n : BitVec 6) (a d : BitVec 7) (m : Bool) :
    exec (.shfi o n a d m) s = .next (lanesOnward s g (fun t => shifted o.toNat a.toNat d.toNat n.toNat t) flagNone) :=
  congrArg Host.Outcome.next (shiftOp_idle e m _ _ _ _ fun _ _ => rfl)

theorem exec_shlShort {s : State} {g : Gang} {p : Path} (e : Executes s g p) (a d : BitVec 5) (m : Bool) :
    exec (.shlShort a d m) s =
      .next (lanesOnward s g (fun t => shifted 0 d.toNat d.toNat ((vreg t a.toNat).toNat % 256) t) flagNone) :=
  congrArg Host.Outcome.next (shiftOp_idle e m _ _ _ _ fun t ht => by rw [readV_idle ht])

theorem exec_shrlShort {s : State} {g : Gang} {p : Path} (e : Executes s g p) (a d : BitVec 5) (m : Bool) :
    exec (.shrlShort a d m) s =
      .next (lanesOnward s g (fun t => shifted 1 d.toNat d.toNat ((vreg t a.toNat).toNat % 256) t) flagNone) :=
  congrArg Host.Outcome.next (shiftOp_idle e m _ _ _ _ fun t ht => by rw [readV_idle ht])

/-! ### Words -/

theorem decodeWord_logic (o : BitVec 3) (b a d : BitVec 7) (m : Bool) :
    decodeWord (.long (lvWord 0x0F#6 o b a d m)) = some (.logic o b a d m) := by
  rw [decodeWord_lvWord_int (by decide) (by decide)]
  have hraw : decodeInt 0x0F o b a d m = some (.logic o b a d m) := by
    unfold decodeInt
    cases o.getLsbD 2 <;> rfl
  exact (congrArg checkOperands hraw).trans (checkOperands_legal rfl)

/-- A `SHIFT` word is legal unless its function takes a pair that is not even (spec/06 R128, spec/02 R34). -/
theorem decodeWord_shift (o : BitVec 3) (b a d : BitVec 7) (m : Bool) :
    decodeWord (.long (lvWord 0x10#6 o b a d m)) =
      if o.toNat < 5 ∨ (a.toNat % 2 = 0 ∧ d.toNat % 2 = 0) then some (.shift o b a d m) else none := by
  rw [decodeWord_lvWord_int (by decide) (by decide)]
  have hraw : decodeInt 0x10 o b a d m = some (.shift o b a d m) := by
    unfold decodeInt
    cases o.getLsbD 2 <;> rfl
  have hlegal : operandsLegal (.shift o b a d m) = decide (o.toNat < 5 ∨ (a.toNat % 2 = 0 ∧ d.toNat % 2 = 0)) := by
    rw [Bool.decide_or, Bool.decide_and]
    rfl
  refine (congrArg checkOperands hraw).trans ?_
  simp only [checkOperands, hlegal, decide_eq_true_eq]

/-- Settles O3: `LOGIC` bit by bit, the shifts as multiplication and floor division by a power of two, and the words read back. -/
theorem logicAndShiftsComplete : Obligations.LogicAndShiftsComplete := by
  unfold Obligations.LogicAndShiftsComplete
  refine ⟨fun s g p e => ⟨fun o b a d m => ?_, fun i a d m => ⟨exec_andi e i a d m, exec_ori e i a d m, exec_xori e i a d m⟩,
      fun a d m => ⟨exec_mov e a d m, exec_andShort e a d m, exec_orShort e a d m, exec_xorShort e a d m⟩, exec_plop e⟩,
    fun s g p e => ⟨exec_shift e, exec_shfi e, fun a d m => ⟨exec_shlShort e a d m, exec_shrlShort e a d m⟩⟩,
    fun o b a d m => ⟨decodeWord_logic o b a d m, decodeWord_shift o b a d m⟩⟩
  exact ⟨_, exec_logic e o b a d m, fun t i hi => logicWord_getLsbD o _ _ hi⟩

end Sys2Proof.Machine
end

section
/-! LEMMAS AND PROOF. Bit counts and reversals as what they say of the bits of a word (spec/06 R129). -/

namespace Sys2Proof.Machine

open Sys2Proof.Claims

/-! ### Lists of bit numbers -/

theorem rangeFrom_eq_range' (lo n : Nat) : rangeFrom lo n = List.range' lo n := by
  induction n generalizing lo with
  | zero => rfl
  | succ n ih => rw [rangeFrom, ih, List.range'_succ]

theorem bitOf_eq_testBit (n i : Nat) : bitOf n i = n.testBit i := by
  rw [bitOf, Nat.testBit_eq_decide_div_mod_eq, Nat.shiftRight_eq_div_pow]
  rfl

/-- The bits set in a bit vector, in rising order. -/
theorem maskList_toNat {w : Nat} (x : BitVec w) (n : Nat) :
    maskList n x.toNat = (List.range n).filter (fun i => x.getLsbD i) := by
  rw [maskList, rangeFrom_eq_range', ← List.range_eq_range']
  exact List.filter_congr fun i _ => bitOf_eq_testBit ..

/-- The bits set in the mask of a list are the numbers in it. -/
theorem testBit_maskOf (l : List Nat) (i : Nat) : (maskOf l).testBit i = decide (i ∈ l) := by
  have hfold : ∀ (l : List Nat) (m : Nat),
      (l.foldl (fun m i => m ||| (1 <<< i)) m).testBit i = (m.testBit i || decide (i ∈ l)) := by
    intro l
    induction l with
    | nil => simp
    | cons x xs ih =>
      intro m
      rw [List.foldl_cons, ih, Nat.testBit_or, Nat.one_shiftLeft, Nat.testBit_two_pow, Bool.or_assoc]
      simp [eq_comm]
  exact (hfold l 0).trans (by simp)

/-! ### The unary operations -/

/-- The leading zeros of a word: the distance of its highest set bit from bit 31. -/
theorem leadingZeros_eq (x : Word) :
    (if x = 0 then 32 else 31 - x.toNat.log2) = ((List.range 32).find? (fun i => x.getMsbD i)).getD 32 := by
  by_cases hx : x = 0
  · subst hx
    decide
  · have hne : x.toNat ≠ 0 := fun h => hx (BitVec.eq_of_toNat_eq h)
    have hlog : x.toNat.log2 < 32 := (Nat.log2_lt hne).mpr x.isLt
    have hset : x.getMsbD (31 - x.toNat.log2) = true := by
      rw [BitVec.getMsbD_eq_getLsbD, show 32 - 1 - (31 - x.toNat.log2) = x.toNat.log2 by omega, BitVec.getLsbD,
        Nat.testBit_log2 hne, Bool.and_true, decide_eq_true (by omega)]
    have hclear : ∀ j < 31 - x.toNat.log2, (!x.getMsbD j) = true := by
      intro j hj
      have hlt : x.toNat < 2 ^ (32 - 1 - j) :=
        Nat.lt_of_lt_of_le Nat.lt_log2_self (Nat.pow_le_pow_right (by decide) (by omega))
      rw [BitVec.getMsbD_eq_getLsbD, BitVec.getLsbD, Nat.testBit_lt_two_pow hlt, Bool.and_false, Bool.not_false]
    have hfind := List.find?_range_eq_some.mpr ⟨hset, List.mem_range.mpr (by omega : 31 - x.toNat.log2 < 32), hclear⟩
    rw [if_neg hx, hfind, Option.getD_some]

/-- The trailing zeros of a word: the place of its lowest set bit. -/
theorem trailingZeros_eq (x : Word) :
    ((maskList 32 x.toNat).head?).getD 32 = ((List.range 32).find? (fun i => x.getLsbD i)).getD 32 := by
  rw [maskList_toNat, List.head?_filter]

theorem reverseBits_eq (x : Word) : toWord (maskOf ((maskList 32 x.toNat).map (fun i => 31 - i))) = x.reverse := by
  apply BitVec.eq_of_getLsbD_eq
  intro j hj
  have hmem : j ∈ (maskList 32 x.toNat).map (fun i => 31 - i) ↔ x.getLsbD (31 - j) = true := by
    rw [maskList_toNat, List.mem_map]
    constructor
    · rintro ⟨i, hi, rfl⟩
      obtain ⟨hrange, hbit⟩ := List.mem_filter.mp hi
      have hi32 := List.mem_range.mp hrange
      rwa [show 31 - (31 - i) = i by omega]
    · intro hbit
      exact ⟨31 - j, List.mem_filter.mpr ⟨List.mem_range.mpr (by omega), hbit⟩, by omega⟩
  rw [toWord, BitVec.getLsbD_ofNat, testBit_maskOf, BitVec.getLsbD_reverse, BitVec.getMsbD_eq_getLsbD]
  simp [hj, hmem]

/-- Appending is adding above the lower part. -/
theorem toNat_append_eq_add {m n : Nat} (x : BitVec m) (y : BitVec n) : (x ++ y).toNat = x.toNat * 2 ^ n + y.toNat := by
  rw [BitVec.toNat_append, ← Nat.shiftLeft_add_eq_or_of_lt y.isLt, Nat.shiftLeft_eq]

theorem reverseBytes_eq (x : Word) : toWord (ofBytes (toBytes 4 x.toNat).reverse) =
    x.extractLsb' 0 8 ++ x.extractLsb' 8 8 ++ x.extractLsb' 16 8 ++ x.extractLsb' 24 8 := by
  apply BitVec.eq_of_toNat_eq
  rw [toNat_append_eq_add, toNat_append_eq_add, toNat_append_eq_add]
  simp only [toWord, toBytes, ofBytes, List.reverse_cons, List.reverse_nil, List.nil_append, List.cons_append,
    BitVec.toNat_ofNat, BitVec.extractLsb'_toNat, Nat.shiftRight_eq_div_pow, Nat.div_div_eq_div_mul, Nat.reducePow, Nat.reduceMul]
  omega

theorem bitsWord_eq_unary (o : BitVec 3) (x : Word) : bitsWord o x = unary o x := by
  obtain rfl | rfl | rfl | rfl | hrest := fn_cases o
  · exact congrArg (fun l => toWord l.length) (maskList_toNat x 32)
  · exact congrArg toWord (leadingZeros_eq x)
  · exact congrArg toWord (trailingZeros_eq x)
  · exact reverseBits_eq x
  · obtain rfl | rfl | rfl | rfl := hrest <;> exact reverseBytes_eq x

end Sys2Proof.Machine
end

section
/-! LEMMAS AND PROOF. Bit fields, selections, addresses and immediates (spec/06 R129 to R134; the short forms of spec/02 R40). -/

namespace Sys2Proof.Machine

open Sys2Proof.Claims

/-! ### Bit fields -/

theorem bfxField_eq (y : Word) : bfxField y = (fieldPos y, fieldLen y) := by
  simp [bfxField, bitsOf, fieldPos, fieldLen, Nat.shiftRight_eq_div_pow]

theorem bfeWord_unsigned (x y : Word) : bfeWord false x y = fieldU x y := by
  simp only [bfeWord, bfxField_eq, fieldU, Nat.shiftRight_eq_div_pow, Bool.false_eq_true, if_false]
  split
  · next hempty => simp [hempty, Nat.mod_one, toWord]
  · rfl

/-- A number below 2^w reads the same by both two's-complement readings. -/
theorem signedOf_eq_sval {w n : Nat} (hn : n < 2 ^ w) : signedOf w n = sval w n := by
  simp only [signedOf, sval, Nat.mod_eq_of_lt hn]
  split <;> split <;> omega

theorem bfeWord_signed (x y : Word) : bfeWord true x y = fieldS x y := by
  have hsval := signedOf_eq_sval (Nat.mod_lt (x.toNat / 2 ^ fieldPos y) (Nat.two_pow_pos (fieldLen y)))
  simp only [bfeWord, bfxField_eq, fieldS, Nat.shiftRight_eq_div_pow, if_true, toWord_wrap, hsval]
  rfl

/-- A bit field ends within its word. -/
theorem fieldPos_add_fieldLen (y : Word) : fieldPos y + fieldLen y ≤ 32 := by
  have hpos : fieldPos y < 32 := Nat.mod_lt _ (by decide)
  simp only [fieldLen]
  omega

/-- `BFI` replaces the bits of the field by the low bits of its operand and keeps the others (spec/06 R130). -/
theorem bfiWord_getLsbD (x y d : Word) {i : Nat} (hi : i < 32) : (bfiWord x y d).getLsbD i =
    if fieldPos y ≤ i ∧ i < fieldPos y + fieldLen y then x.getLsbD (i - fieldPos y) else d.getLsbD i := by
  have hmask : (toWord ((2 ^ fieldLen y - 1) <<< fieldPos y)).getLsbD i = decide (fieldPos y ≤ i ∧ i < fieldPos y + fieldLen y) := by
    rw [toWord, BitVec.getLsbD_ofNat, Nat.testBit_shiftLeft, Nat.testBit_two_pow_sub_one, ← Bool.decide_and, ← Bool.decide_and]
    exact decide_eq_decide.mpr (by omega)
  have hfield : (toWord ((x.toNat % 2 ^ fieldLen y) <<< fieldPos y)).getLsbD i =
      (decide (fieldPos y ≤ i ∧ i < fieldPos y + fieldLen y) && x.getLsbD (i - fieldPos y)) := by
    rw [toWord, BitVec.getLsbD_ofNat, Nat.testBit_shiftLeft, Nat.testBit_mod_two_pow, ← Bool.and_assoc, ← Bool.and_assoc,
      ← Bool.decide_and, ← Bool.decide_and]
    exact congrArg (· && _) (decide_eq_decide.mpr (by omega))
  simp only [bfiWord, bfxField_eq, BitVec.getLsbD_or, BitVec.getLsbD_and, BitVec.getLsbD_not, hmask, hfield]
  by_cases hin : fieldPos y ≤ i ∧ i < fieldPos y + fieldLen y
  · simp [hin]
  · simp [hin, hi]

theorem exec_bits {s : State} {g : Gang} {p : Path} (e : Executes s g p) (o : BitVec 3) (a d : BitVec 7) (m : Bool) :
    exec (.bits o a d m) s = .next (lanesOnward s g (fun t => writeV t d.toNat (unary o (vreg t a.toNat))) flagNone) := by
  refine congrArg Host.Outcome.next ((wordOp1_idle e m _ _ _).trans ?_)
  simp only [bitsWord_eq_unary]

theorem exec_bfeU {s : State} {g : Gang} {p : Path} (e : Executes s g p) (b a d : BitVec 7) (m : Bool) :
    exec (.bfeU b a d m) s =
      .next (lanesOnward s g (fun t => writeV t d.toNat (fieldU (vreg t a.toNat) (vreg t b.toNat))) flagNone) := by
  refine congrArg Host.Outcome.next ((wordOp_idle e m _ _ _ _).trans ?_)
  simp only [bfeWord_unsigned]

theorem exec_bfeS {s : State} {g : Gang} {p : Path} (e : Executes s g p) (b a d : BitVec 7) (m : Bool) :
    exec (.bfeS b a d m) s =
      .next (lanesOnward s g (fun t => writeV t d.toNat (fieldS (vreg t a.toNat) (vreg t b.toNat))) flagNone) := by
  refine congrArg Host.Outcome.next ((wordOp_idle e m _ _ _ _).trans ?_)
  simp only [bfeWord_signed]

theorem exec_bfi {s : State} {g : Gang} {p : Path} (e : Executes s g p) (b a d : BitVec 7) (m : Bool) :
    exec (.bfi b a d m) s = .next (lanesOnward s g
      (fun t => writeV t d.toNat (bfiWord (vreg t a.toNat) (vreg t b.toNat) (vreg t d.toNat))) flagNone) :=
  congrArg Host.Outcome.next (laneOp_writesWord e m _ _ fun t ht => by simp only [readV_idle ht])

/-! ### Selections, addresses and immediates -/

theorem exec_sel {s : State} {g : Gang} {p : Path} (e : Executes s g p) (q : BitVec 3) (b a d : BitVec 7) (m : Bool) :
    exec (.sel q b a d m) s = .next (lanesOnward s g (fun t =>
      writeV t d.toNat (if readP t q.toNat then vreg t a.toNat else vreg t b.toNat)) flagNone) :=
  congrArg Host.Outcome.next (laneOp_writesWord e m _ _ fun t ht => by simp only [readV_idle ht])

/-- The address of `LEA` is its sum modulo 2^64 (spec/06 R132). -/
theorem leaAddr_toNat (x : Bool) (c : BitVec 2) (a : Dword) (b : Word) : (leaAddr x c a b).toNat =
    (a.toNat + (if x then b.signExtend 64 else b.zeroExtend 64).toNat * 2 ^ c.toNat) % 2 ^ 64 := by
  rw [leaAddr, BitVec.toNat_add, BitVec.toNat_shiftLeft, Nat.shiftLeft_eq, Nat.add_mod_mod]

theorem exec_lea {s : State} {g : Gang} {p : Path} (e : Executes s g p) (x : Bool) (c : BitVec 2) (b a d : BitVec 7) (m : Bool) :
    exec (.lea x c b a d m) s = .next (lanesOnward s g (fun t => writeVs t (regWrites true d.toNat
      ((pairOf (vreg t a.toNat) (vreg t (a.toNat + 1))).toNat +
        (if x then (vreg t b.toNat).signExtend 64 else (vreg t b.toNat).zeroExtend 64).toNat * 2 ^ c.toNat))) flagNone) :=
  congrArg Host.Outcome.next (laneOp_writesV e m _ _ fun t ht => by
    rw [readV_idle ht, readVPair_idle ht, leaAddr_toNat, regWrites_pair_mod])

theorem exec_iaddi_word {s : State} {g : Gang} {p : Path} (e : Executes s g p) (hwid : s.cur.pfx.wid = 0#2) (i : BitVec 10)
    (a d : BitVec 7) (m : Bool) : exec (.iaddi i a d m) s =
      .next (lanesOnward s g (fun t => writeV t d.toNat (vreg t a.toNat + immLI i s.cur.imm)) flagNone) :=
  congrArg Host.Outcome.next (laneOp_writesWord e m _ _ fun t ht => by
    rw [if_neg (by rw [hwid]; decide), readV_idle ht])

theorem exec_iaddi_pair {s : State} {g : Gang} {p : Path} (e : Executes s g p) (hwid : s.cur.pfx.wid = 1#2) (i : BitVec 10)
    (a d : BitVec 7) (m : Bool) : exec (.iaddi i a d m) s =
      .next (lanesOnward s g (fun t => writeVs t (regWrites true d.toNat
        (pairOf (vreg t a.toNat) (vreg t (a.toNat + 1)) + (immLI i s.cur.imm).signExtend 64).toNat)) flagNone) :=
  congrArg Host.Outcome.next (laneOp_writesV e m _ _ fun t ht => by rw [if_pos hwid, readVPair_idle ht])

theorem exec_movil {s : State} {g : Gang} {p : Path} (e : Executes s g p) (i : BitVec 17) (d : BitVec 7) (m : Bool) :
    exec (.movil i d m) s = .next (lanesOnward s g (fun t => writeV t d.toNat (i.signExtend 32)) flagNone) :=
  congrArg Host.Outcome.next (laneOp_writesWord e m _ _ fun _ _ => rfl)

/-- The immediate of `MOVIH` above the low half of the register (spec/06 R134). -/
theorem append_lowHalf (i : BitVec 16) (x : Word) :
    i ++ x.extractLsb' 0 16 = toWord (i.toNat * 2 ^ 16 + x.toNat % 2 ^ 16) := by
  apply BitVec.eq_of_toNat_eq
  rw [toNat_append_eq_add, BitVec.extractLsb'_toNat, Nat.shiftRight_zero, toWord, BitVec.toNat_ofNat]
  have hi := i.isLt
  omega

theorem exec_movih {s : State} {g : Gang} {p : Path} (e : Executes s g p) (i : BitVec 16) (d : BitVec 7) (m : Bool) :
    exec (.movih i d m) s = .next (lanesOnward s g (fun t =>
      writeV t d.toNat (toWord (i.toNat * 2 ^ 16 + (vreg t d.toNat).toNat % 2 ^ 16))) flagNone) :=
  congrArg Host.Outcome.next (laneOp_writesWord e m _ _ fun t ht => by rw [readV_idle ht, append_lowHalf])

theorem exec_movi5 {s : State} {g : Gang} {p : Path} (e : Executes s g p) (i d : BitVec 5) (m : Bool) :
    exec (.movi5 i d m) s = .next (lanesOnward s g (fun t => writeV t d.toNat (i.signExtend 32)) flagNone) :=
  congrArg Host.Outcome.next (laneOp_writesWord e m _ _ fun _ _ => rfl)

/-- `NOP` only moves the path on (spec/02 R40). -/
theorem exec_nop {s : State} {g : Gang} {p : Path} (e : Executes s g p) (m : Bool) :
    exec (.nop m) s = .next (lanesOnward s g (fun t => t) flagNone) :=
  congrArg Host.Outcome.next (laneOp_writesV e m _ _ (l := fun _ => []) fun _ _ => rfl)

/-! ### Words -/

theorem decodeWord_sel (q : BitVec 3) (b a d : BitVec 7) (m : Bool) :
    decodeWord (.long (lvWord 0x15#6 q b a d m)) = some (.sel q b a d m) := by
  rw [decodeWord_lvWord_int (by decide) (by decide)]
  have hraw : decodeInt 0x15 q b a d m = some (.sel q b a d m) := by
    unfold decodeInt
    cases q.getLsbD 2 <;> rfl
  exact (congrArg checkOperands hraw).trans (checkOperands_legal rfl)

/-- Settles O4: the counts and reversals by the bits of the word, `BFI` bit by bit, the fields, sums and immediates by their values. -/
theorem bitFieldsAndSelectionsComplete : Obligations.BitFieldsAndSelectionsComplete := by
  unfold Obligations.BitFieldsAndSelectionsComplete
  refine ⟨fun s g p e => ⟨fun o a d m _ => exec_bits e o a d m, fun b a d m => ⟨exec_bfeU e b a d m, exec_bfeS e b a d m, ?_⟩⟩,
    fun s g p e => ⟨exec_sel e, exec_lea e,
      fun i a d m => ⟨fun hwid => exec_iaddi_word e hwid i a d m, fun hwid => exec_iaddi_pair e hwid i a d m⟩,
      exec_movil e, exec_movih e, exec_movi5 e, exec_nop e⟩, decodeWord_sel⟩
  exact ⟨_, exec_bfi e b a d m, fun t i hi => bfiWord_getLsbD _ _ _ hi⟩

end Sys2Proof.Machine
end

section
/-! LEMMAS. Dyadic numbers as rational numbers: the order, the sum and the product of dyadics are those of the rationals, and the points of
the claims are cuts among the dyadics (spec/04 R78). -/

namespace Sys2Proof.Machine

open Sys2Proof.Claims

/-! ### Powers of two -/

/-- A power of two, with any integer for its exponent. -/
def pow2 (e : Int) : Rat := Rat.zpow 2 e

theorem pow2_pos (e : Int) : 0 < pow2 e := Rat.zpow_pos (by decide)

theorem pow2_add (e e' : Int) : pow2 (e + e') = pow2 e * pow2 e' := Rat.zpow_add (by decide) e e'

theorem pow2_zero : pow2 0 = 1 := Rat.zpow_zero 2

theorem pow2_natCast (n : Nat) : pow2 n = ((2 ^ n : Nat) : Rat) := by
  induction n with
  | zero => exact pow2_zero
  | succ n ih =>
    have hone : pow2 1 = 2 := Rat.zpow_one 2
    rw [Int.natCast_add, pow2_add, ih, Nat.pow_succ, Rat.natCast_mul]
    exact congrArg _ hone

/-- A power of two above another is a whole multiple of it. -/
theorem pow2_toNat {e e' : Int} (h : e ≤ e') : ((2 ^ (e' - e).toNat : Nat) : Rat) * pow2 e = pow2 e' := by
  rw [← pow2_natCast, ← pow2_add]
  congr 1
  omega

theorem pow2_succ (e : Int) : pow2 (e + 1) = 2 * pow2 e := by
  have h := pow2_toNat (show e ≤ e + 1 by omega)
  rw [show (e + 1 - e).toNat = 1 by omega] at h
  exact h.symm

/-! ### The order of the rationals -/

theorem mul_pow2_lt_iff {a b : Rat} (e : Int) : a * pow2 e < b * pow2 e ↔ a < b := Rat.mul_lt_mul_right (pow2_pos e)

theorem mul_pow2_le_iff {a b : Rat} (e : Int) : a * pow2 e ≤ b * pow2 e ↔ a ≤ b := by
  rw [← Rat.not_lt, ← Rat.not_lt, mul_pow2_lt_iff]

theorem natCast_mul_pow2_le_iff {a b : Nat} (e : Int) : (a : Rat) * pow2 e ≤ b * pow2 e ↔ a ≤ b := by
  rw [mul_pow2_le_iff, Rat.natCast_le_natCast]

theorem natCast_mul_pow2_lt_iff {a b : Nat} (e : Int) : (a : Rat) * pow2 e < b * pow2 e ↔ a < b := by
  rw [mul_pow2_lt_iff, Rat.natCast_lt_natCast]

theorem natCast_mul_pow2_nonneg (a : Nat) (e : Int) : 0 ≤ (a : Rat) * pow2 e :=
  Rat.mul_nonneg Rat.natCast_nonneg (Rat.le_of_lt (pow2_pos e))

/-- A number in units of a lower power of two. -/
theorem natCast_mul_pow2_of_le (m : Nat) {e j : Int} (h : j ≤ e) : (m : Rat) * pow2 e = (m * 2 ^ (e - j).toNat : Nat) * pow2 j := by
  rw [Rat.natCast_mul, Rat.mul_assoc, pow2_toNat h]

/-! ### The value of a dyadic -/

/-- The rational number that a dyadic stands for. -/
def dyVal (d : Machine.Dyadic) : Rat := d.m * pow2 d.e

theorem dyAt_val {d : Machine.Dyadic} {e : Int} (h : e ≤ d.e) : (dyAt d e : Rat) * pow2 e = dyVal d := by
  have hunit := pow2_toNat h
  rw [dyAt, dyVal, ← hunit, Rat.intCast_mul, Rat.mul_assoc]
  congr 2

theorem iminInt_le_left (a b : Int) : iminInt a b ≤ a := by
  unfold iminInt
  split <;> omega

theorem iminInt_le_right (a b : Int) : iminInt a b ≤ b := by
  unfold iminInt
  split <;> omega

theorem dyLt_iff (a b : Machine.Dyadic) : dyLt a b = true ↔ dyVal a < dyVal b := by
  rw [dyLt, decide_eq_true_iff, ← dyAt_val (iminInt_le_left a.e b.e), ← dyAt_val (iminInt_le_right a.e b.e), mul_pow2_lt_iff,
    Rat.intCast_lt_intCast]

theorem dyLt_eq_false_iff (a b : Machine.Dyadic) : dyLt a b = false ↔ dyVal b ≤ dyVal a := by
  rw [← Bool.not_eq_true, dyLt_iff, Rat.not_lt]

theorem dySame_iff (a b : Machine.Dyadic) : dySame a b ↔ dyVal a = dyVal b := by
  rw [dySame, dyLt_eq_false_iff, dyLt_eq_false_iff]
  exact ⟨fun h => Rat.le_antisymm h.2 h.1, fun h => ⟨h ▸ Rat.le_refl, h ▸ Rat.le_refl⟩⟩

theorem dyVal_dyAdd (a b : Machine.Dyadic) : dyVal (dyAdd a b) = dyVal a + dyVal b := by
  rw [← dyAt_val (iminInt_le_left a.e b.e), ← dyAt_val (iminInt_le_right a.e b.e), ← Rat.add_mul, ← Rat.intCast_add]
  rfl

theorem dyVal_dyMul (a b : Machine.Dyadic) : dyVal (dyMul a b) = dyVal a * dyVal b := by
  simp only [dyVal, dyMul, Rat.intCast_mul, pow2_add]
  grind

theorem dyVal_dyNeg (a : Machine.Dyadic) : dyVal (dyNeg a) = -dyVal a := by
  simp only [dyVal, dyNeg, Rat.intCast_neg, Rat.neg_mul]

/-- Twice the number midway between two is their sum. -/
theorem dyVal_dyMid (a b : Machine.Dyadic) : 2 * dyVal (dyMid a b) = dyVal a + dyVal b := by
  have hsum : dyVal ⟨dyAt a (iminInt a.e b.e) + dyAt b (iminInt a.e b.e), iminInt a.e b.e⟩ = dyVal a + dyVal b := dyVal_dyAdd a b
  have hunit := pow2_succ (iminInt a.e b.e - 1)
  rw [Int.sub_add_cancel] at hunit
  rw [← hsum, dyMid, dyVal, dyVal, hunit]
  grind

theorem dyVal_pos_iff (a : Machine.Dyadic) : 0 < dyVal a ↔ 0 < a.m := by
  have h := mul_pow2_lt_iff (a := 0) (b := (a.m : Rat)) a.e
  rw [Rat.zero_mul, Rat.intCast_pos] at h
  exact h

theorem dyVal_nonneg_iff (a : Machine.Dyadic) : 0 ≤ dyVal a ↔ 0 ≤ a.m := by
  have h := mul_pow2_le_iff (a := 0) (b := (a.m : Rat)) a.e
  rw [Rat.zero_mul, Rat.intCast_nonneg] at h
  exact h

theorem dyVal_neg_iff (a : Machine.Dyadic) : dyVal a < 0 ↔ a.m < 0 := by
  rw [← Rat.not_le, dyVal_nonneg_iff, Int.not_le]

theorem dyVal_nonpos_iff (a : Machine.Dyadic) : dyVal a ≤ 0 ↔ a.m ≤ 0 := by
  rw [← Rat.not_lt, dyVal_pos_iff, Int.not_lt]

theorem dyVal_eq_zero_iff (a : Machine.Dyadic) : dyVal a = 0 ↔ a.m = 0 := by
  have hle := dyVal_nonpos_iff a
  have hge := dyVal_nonneg_iff a
  constructor
  · intro h
    rw [h] at hle hge
    have := hle.mp Rat.le_refl
    have := hge.mp Rat.le_refl
    omega
  · intro h
    exact Rat.le_antisymm (hle.mpr (by omega)) (hge.mpr (by omega))

/-! ### Signs -/

/-- A number with the sign bit `n`. -/
def withSign (n : Bool) (v : Rat) : Rat := if n then -v else v

@[simp] theorem withSign_false (v : Rat) : withSign false v = v := rfl

@[simp] theorem withSign_true (v : Rat) : withSign true v = -v := rfl

theorem withSign_zero (n : Bool) : withSign n 0 = 0 := by cases n <;> rfl

theorem withSign_inj {n : Bool} {v u : Rat} : withSign n v = withSign n u ↔ v = u := by
  cases n
  · exact Iff.rfl
  · exact ⟨fun h => by rw [withSign_true, withSign_true] at h; grind, fun h => h ▸ rfl⟩

theorem withSign_xor (n k : Bool) (v u : Rat) : withSign (xor n k) (v * u) = withSign n v * withSign k u := by
  cases n <;> cases k <;> simp only [Bool.false_xor, Bool.true_xor, Bool.not_false, Bool.not_true, withSign_false, withSign_true] <;> grind

theorem dyVal_dyOf (n : Bool) (m : Nat) (e : Int) : dyVal (dyOf n m e) = withSign n (m * pow2 e) := by
  cases n
  · rfl
  · rw [dyOf, dyVal, if_pos rfl, withSign_true, Rat.intCast_neg, Rat.neg_mul, Rat.intCast_natCast]

theorem dyVal_dyOf_zero (n : Bool) (e : Int) : dyVal (dyOf n 0 e) = 0 := by
  rw [dyVal_dyOf, show ((0 : Nat) : Rat) = 0 from rfl, Rat.zero_mul, withSign_zero]

/-- A dyadic is its sign and its magnitude. -/
theorem dyOf_natAbs (d : Machine.Dyadic) : dyOf (decide (d.m < 0)) d.m.natAbs d.e = d := by
  obtain ⟨m, e⟩ := d
  by_cases h : m < 0
  · simp only [dyOf, h, decide_true, if_true, Machine.Dyadic.mk.injEq, and_true]
    omega
  · simp only [dyOf, h, decide_false, Bool.false_eq_true, if_false, Machine.Dyadic.mk.injEq, and_true]
    omega

theorem dyVal_dyAbs (d : Machine.Dyadic) : dyVal (dyAbs d) = if 0 ≤ dyVal d then dyVal d else -dyVal d := by
  by_cases h : 0 ≤ d.m
  · rw [if_pos ((dyVal_nonneg_iff d).mpr h), dyAbs, Int.natAbs_of_nonneg h]
  · rw [if_neg (mt (dyVal_nonneg_iff d).mp h), ← dyVal_dyNeg, dyAbs, dyNeg, Int.ofNat_natAbs_of_nonpos (by omega)]

theorem dyVal_dyAbs_dyOf (n : Bool) (m : Nat) (e : Int) : dyVal (dyAbs (dyOf n m e)) = m * pow2 e := by
  have habs : (dyOf n m e).m.natAbs = m := by cases n <;> simp only [dyOf, Bool.false_eq_true, if_true, if_false] <;> omega
  rw [dyAbs, habs, dyVal, Rat.intCast_natCast]
  rfl

theorem dyAbs_dyNeg (d : Machine.Dyadic) : dyAbs (dyNeg d) = dyAbs d := by
  rw [dyAbs, dyAbs, dyNeg, Int.natAbs_neg]

theorem dyNeg_dyNeg (d : Machine.Dyadic) : dyNeg (dyNeg d) = d := by
  rw [dyNeg, dyNeg, Int.neg_neg]

/-! ### Points -/

/-- A point cuts the dyadic numbers: those above it lie above those that are not, and those below it below those that are not. -/
structure Cut (x : Point) : Prop where
  above_of_le : ∀ {c d}, x.above d → dyVal c ≤ dyVal d → x.above c
  below_of_le : ∀ {c d}, x.below d → dyVal d ≤ dyVal c → x.below c
  lt : ∀ {c d}, x.above c → x.below d → dyVal c < dyVal d
  le : ∀ {c d}, ¬ x.below c → ¬ x.above d → dyVal c ≤ dyVal d

variable {x : Point}

theorem Cut.not_below (h : Cut x) {d : Machine.Dyadic} (ha : x.above d) : ¬ x.below d := fun hb => Rat.lt_irrefl (h.lt ha hb)

theorem Cut.not_above (h : Cut x) {d : Machine.Dyadic} (hb : x.below d) : ¬ x.above d := fun ha => h.not_below ha hb

/-- A number under one that the point is not under lies under the point. -/
theorem Cut.above_of_lt (h : Cut x) {c d : Machine.Dyadic} (hd : ¬ x.below d) (hlt : dyVal c < dyVal d) : x.above c :=
  Classical.byContradiction fun hc => Rat.not_le.mpr hlt (h.le hd hc)

theorem Cut.below_of_lt (h : Cut x) {c d : Machine.Dyadic} (hd : ¬ x.above d) (hlt : dyVal d < dyVal c) : x.below c :=
  Classical.byContradiction fun hc => Rat.not_le.mpr hlt (h.le hc hd)

theorem Cut.not_below_of_le (h : Cut x) {c d : Machine.Dyadic} (hd : ¬ x.below d) (hle : dyVal c ≤ dyVal d) : ¬ x.below c :=
  fun hc => hd (h.below_of_le hc hle)

theorem Cut.not_above_of_le (h : Cut x) {c d : Machine.Dyadic} (hd : ¬ x.above d) (hle : dyVal d ≤ dyVal c) : ¬ x.above c :=
  fun hc => hd (h.above_of_le hc hle)

theorem Cut.lt_of_below (h : Cut x) {c d : Machine.Dyadic} (hc : ¬ x.below c) (hd : x.below d) : dyVal c < dyVal d :=
  Rat.not_le.mp fun hle => hc (h.below_of_le hd hle)

theorem Cut.is_iff (h : Cut x) {d : Machine.Dyadic} (hd : x.is d) (c : Machine.Dyadic) : x.is c ↔ dyVal c = dyVal d :=
  ⟨fun hc => Rat.le_antisymm (h.le hc.1 hd.2) (h.le hd.1 hc.2),
    fun heq => ⟨h.not_below_of_le hd.1 (heq ▸ Rat.le_refl), h.not_above_of_le hd.2 (heq ▸ Rat.le_refl)⟩⟩

theorem cut_pointOf (a : Machine.Dyadic) : Cut (pointOf a) := by
  have hbelow : ∀ d, (pointOf a).below d ↔ dyVal a < dyVal d := fun d => dyLt_iff a d
  have habove : ∀ d, (pointOf a).above d ↔ dyVal d < dyVal a := fun d => dyLt_iff d a
  constructor <;> intro c d <;> simp only [hbelow, habove] <;> grind

theorem pointOf_is (a d : Machine.Dyadic) : (pointOf a).is d ↔ dyVal d = dyVal a := by
  have hself : (pointOf a).is a := ⟨fun h => Rat.lt_irrefl ((dyLt_iff _ _).mp h), fun h => Rat.lt_irrefl ((dyLt_iff _ _).mp h)⟩
  exact (cut_pointOf a).is_iff hself d

/-! ### The negation of a point -/

/-- The point on the other side of 0. -/
def negPoint (x : Point) : Point := ⟨fun d => x.above (dyNeg d), fun d => x.below (dyNeg d)⟩

/-- A point with the sign bit `n`. -/
def signPoint (n : Bool) (x : Point) : Point := if n then negPoint x else x

theorem negPoint_negPoint (x : Point) : negPoint (negPoint x) = x := by
  simp only [negPoint, dyNeg_dyNeg]

theorem Cut.neg (h : Cut x) : Cut (negPoint x) where
  above_of_le := fun ha hle => h.below_of_le ha (by rw [dyVal_dyNeg, dyVal_dyNeg]; grind)
  below_of_le := fun hb hle => h.above_of_le hb (by rw [dyVal_dyNeg, dyVal_dyNeg]; grind)
  lt := fun ha hb => by have := h.lt hb ha; rw [dyVal_dyNeg, dyVal_dyNeg] at this; grind
  le := fun hb ha => by have := h.le ha hb; rw [dyVal_dyNeg, dyVal_dyNeg] at this; grind

theorem Cut.sign (h : Cut x) (n : Bool) : Cut (signPoint n x) := by
  cases n
  · exact h
  · exact h.neg

/-- The same number, with the sign bit `n` on it and on the point. -/
theorem signPoint_is (n : Bool) (x : Point) (m : Nat) (e : Int) : (signPoint n x).is (dyOf n m e) ↔ x.is ⟨m, e⟩ := by
  cases n
  · exact Iff.rfl
  · have hneg : dyNeg (dyOf true m e) = ⟨m, e⟩ := by rw [dyNeg, dyOf, if_pos rfl, Int.neg_neg]
    show ¬ x.above (dyNeg (dyOf true m e)) ∧ ¬ x.below (dyNeg (dyOf true m e)) ↔ _
    rw [hneg]
    exact and_comm

theorem pointOf_dyNeg (a : Machine.Dyadic) : pointOf (dyNeg a) = negPoint (pointOf a) := by
  have hbelow : ∀ d, (dyLt (dyNeg a) d = true) = (dyLt (dyNeg d) a = true) := fun d => propext (by
    rw [dyLt_iff, dyLt_iff, dyVal_dyNeg, dyVal_dyNeg]; constructor <;> grind)
  have habove : ∀ d, (dyLt d (dyNeg a) = true) = (dyLt a (dyNeg d) = true) := fun d => propext (by
    rw [dyLt_iff, dyLt_iff, dyVal_dyNeg, dyVal_dyNeg]; constructor <;> grind)
  simp only [pointOf, negPoint, hbelow, habove]

theorem pointOf_dyOf (n : Bool) (m : Nat) (e : Int) : pointOf (dyOf n m e) = signPoint n (pointOf ⟨m, e⟩) := by
  cases n
  · rfl
  · exact pointOf_dyNeg ⟨m, e⟩

end Sys2Proof.Machine
end

section
/-! LEMMAS. The rounding of a magnitude to a whole number of units (spec/04 R96): what the model's `roundMag` does to the point that it is
given, and that such a rounding rounds into every set of numbers that has none within the unit. -/

namespace Sys2Proof.Machine

open Sys2Proof.Claims

variable {x : Point}

/-! ### Rounding into a set, and its mirror image -/

/-- A number of the set rounds to itself. -/
theorem roundedInto_of_is {set even : Machine.Dyadic → Prop} (rm : RMode) (hx : Cut x) {y : Machine.Dyadic} (hy : set y) (his : x.is y) :
    roundedInto set even rm x y := by
  have hover : ∀ z, dyLt y z = true → x.below (dyMid y z) := fun z hz => by
    have hmid := dyVal_dyMid y z
    rw [dyLt_iff] at hz
    exact hx.below_of_lt his.2 (by grind)
  have hunder : ∀ z, dyLt z y = true → x.above (dyMid y z) := fun z hz => by
    have hmid := dyVal_dyMid y z
    rw [dyLt_iff] at hz
    exact hx.above_of_lt his.1 (by grind)
  have htie : ∀ z, dyLt y z = true ∨ dyLt z y = true → ¬ x.is (dyMid y z) := fun z hz his' =>
    hz.elim (fun h => his'.1 (hover z h)) (fun h => his'.2 (hunder z h))
  have hnearest : ∀ z, (dyLt y z = true → ¬ x.above (dyMid y z)) ∧ (dyLt z y = true → ¬ x.below (dyMid y z)) :=
    fun z => ⟨fun h => hx.not_above (hover z h), fun h => hx.not_below (hunder z h)⟩
  refine ⟨hy, fun h => absurd h his.2, fun h => absurd h his.1, ?_⟩
  cases rm with
  | rne => exact fun z _ => ⟨(hnearest z).1, (hnearest z).2, fun h ht => absurd ht (htie z h)⟩
  | rtz => exact ⟨fun h => absurd h his.2, fun h => absurd h his.1⟩
  | rup => exact his.2
  | rdn => exact his.1
  | rna => exact fun z _ => ⟨(hnearest z).1, (hnearest z).2, fun h ht => absurd ht (htie z h)⟩

/-- A point of the set rounds only to itself. -/
theorem roundedInto_eq {set even : Machine.Dyadic → Prop} {rm : RMode} {y d : Machine.Dyadic} (h : roundedInto set even rm x y)
    (hx : Cut x) (hd : set d) (his : x.is d) : dyVal y = dyVal d := by
  obtain ⟨_, hup, hdown, _⟩ := h
  have hle : dyVal y ≤ dyVal d := Rat.not_lt.mp fun hlt =>
    his.2 (hdown (hx.below_of_lt his.2 hlt) d hd ((dyLt_iff _ _).mpr hlt))
  have hge : dyVal d ≤ dyVal y := Rat.not_lt.mp fun hlt =>
    his.1 (hup (hx.above_of_lt his.1 hlt) d hd ((dyLt_iff _ _).mpr hlt))
  exact Rat.le_antisymm hle hge

/-- The mode that rounds the negation of a number as `rm` rounds the number. -/
def mirrorMode : RMode → RMode
  | .rup => .rdn
  | .rdn => .rup
  | .rne => .rne
  | .rtz => .rtz
  | .rna => .rna

theorem dyLt_dyNeg (a b : Machine.Dyadic) : dyLt (dyNeg a) (dyNeg b) = dyLt b a := by
  rw [Bool.eq_iff_iff, dyLt_iff, dyLt_iff, dyVal_dyNeg, dyVal_dyNeg]
  exact Rat.neg_lt_neg_iff

theorem dyMid_dyNeg (a b : Machine.Dyadic) : dyMid (dyNeg a) (dyNeg b) = dyNeg (dyMid a b) := by
  have hat : ∀ d e, dyAt (dyNeg d) e = -dyAt d e := fun d e => Int.neg_mul ..
  rw [dyMid, dyMid, show (dyNeg a).e = a.e from rfl, show (dyNeg b).e = b.e from rfl, hat, hat, dyNeg, ← Int.neg_add]

/-- Rounding commutes with negation. -/
theorem roundedInto_neg {set even : Machine.Dyadic → Prop} {rm : RMode} {y : Machine.Dyadic}
    (h : roundedInto (fun d => set (dyNeg d)) (fun d => even (dyNeg d)) (mirrorMode rm) x (dyNeg y)) :
    roundedInto set even rm (negPoint x) y := by
  obtain ⟨hy, hup, hdown, hmode⟩ := h
  rw [dyNeg_dyNeg] at hy
  have hset : ∀ z, set z → set (dyNeg (dyNeg z)) := fun z hz => (dyNeg_dyNeg z).symm ▸ hz
  have hlt : ∀ z, dyLt (dyNeg y) (dyNeg z) = dyLt z y := dyLt_dyNeg y
  have hgt : ∀ z, dyLt (dyNeg z) (dyNeg y) = dyLt y z := fun z => dyLt_dyNeg z y
  have hnearest : ∀ {tie : Machine.Dyadic → Prop}, (∀ z, set (dyNeg z) → (dyLt (dyNeg y) z = true → ¬ x.above (dyMid (dyNeg y) z)) ∧
      (dyLt z (dyNeg y) = true → ¬ x.below (dyMid (dyNeg y) z)) ∧
      (dyLt (dyNeg y) z = true ∨ dyLt z (dyNeg y) = true → x.is (dyMid (dyNeg y) z) → tie z)) →
      ∀ z, set z → (dyLt y z = true → ¬ (negPoint x).above (dyMid y z)) ∧ (dyLt z y = true → ¬ (negPoint x).below (dyMid y z)) ∧
      (dyLt y z = true ∨ dyLt z y = true → (negPoint x).is (dyMid y z) → tie (dyNeg z)) := by
    intro tie hz z hzs
    have hneg := hz (dyNeg z) (hset z hzs)
    rw [hlt, hgt, dyMid_dyNeg] at hneg
    obtain ⟨habove, hbelow, htie⟩ := hneg
    exact ⟨hbelow, habove, fun hor his => htie hor.symm ⟨his.2, his.1⟩⟩
  refine ⟨hy, fun ha z hz hl => ?_, fun hb z hz hl => ?_, ?_⟩
  · exact hdown ha (dyNeg z) (hset z hz) ((hgt z).trans hl)
  · exact hup hb (dyNeg z) (hset z hz) ((hlt z).trans hl)
  cases rm with
  | rne =>
    have hres := hnearest (tie := fun _ => even (dyNeg (dyNeg y))) hmode
    rw [dyNeg_dyNeg] at hres
    exact hres
  | rtz =>
    obtain ⟨hpos, hneg⟩ := hmode
    have hm : (dyNeg y).m = -y.m := rfl
    rw [hm] at hpos hneg
    refine ⟨fun ha => ?_, fun hb => ?_⟩
    · have := hneg ha
      omega
    · have := hpos hb
      omega
  | rup => exact hmode
  | rdn => exact hmode
  | rna =>
    have hres := hnearest (tie := fun z => dyLt (dyAbs z) (dyAbs (dyNeg y)) = true) hmode
    simp only [dyAbs_dyNeg] at hres
    exact hres

/-! ### The ends of a gap -/

/-- A number with the gap between `lo` and `hi` outside of it. -/
def Outside (lo hi w : Rat) : Prop := w ≤ lo ∨ hi ≤ w

/-- Whether a mode rounds a point between `lo` and `hi` to `lo`. -/
def LowFits (rm : RMode) (even : Prop) (x : Point) (lo hi : Machine.Dyadic) : Prop :=
  match rm with
  | .rtz => 0 ≤ lo.m
  | .rup => False
  | .rdn => True
  | .rne => ¬ x.above (dyMid lo hi) ∧ (x.is (dyMid lo hi) → even)
  | .rna => ¬ x.above (dyMid lo hi) ∧ (x.is (dyMid lo hi) → dyVal (dyAbs hi) < dyVal (dyAbs lo))

theorem dyVal_dyAbs_congr {c d : Machine.Dyadic} (h : dyVal c = dyVal d) : dyVal (dyAbs c) = dyVal (dyAbs d) := by
  rw [dyVal_dyAbs, dyVal_dyAbs, h]

/-- The lower end of a gap of the set around a point is its rounding if the mode takes it. -/
theorem roundedInto_low {set even : Machine.Dyadic → Prop} {rm : RMode} (hx : Cut x) {lo hi y : Machine.Dyadic} (hlo : x.above lo)
    (hhi : x.below hi) (hgap : ∀ z, set z → Outside (dyVal lo) (dyVal hi) (dyVal z)) (hy : set y) (hv : dyVal y = dyVal lo)
    (hfit : LowFits rm (even y) x lo hi) : roundedInto set even rm x y := by
  have habove : x.above y := hx.above_of_le hlo (hv ▸ Rat.le_refl)
  have hbelow : ¬ x.below y := hx.not_below habove
  have hnext : ∀ z, set z → dyLt y z = true → dyVal hi ≤ dyVal z := fun z hz hlt =>
    (hgap z hz).resolve_left (Rat.not_le.mpr (hv ▸ (dyLt_iff _ _).mp hlt))
  have hunder : ∀ z, dyLt z y = true → x.above (dyMid y z) := fun z hz => by
    have hmid := dyVal_dyMid y z
    rw [dyLt_iff] at hz
    exact hx.above_of_le habove (by grind)
  have hmids : ∀ z, set z → dyLt y z = true → dyVal (dyMid lo hi) ≤ dyVal (dyMid y z) := fun z hz hlt => by
    have hmid := dyVal_dyMid y z
    have hmid' := dyVal_dyMid lo hi
    have hge := hnext z hz hlt
    grind
  have hnearest : ¬ x.above (dyMid lo hi) → ∀ z, set z →
      (dyLt y z = true → ¬ x.above (dyMid y z)) ∧ (dyLt z y = true → ¬ x.below (dyMid y z)) := fun hm z hz =>
    ⟨fun h => hx.not_above_of_le hm (hmids z hz h), fun h => hx.not_below (hunder z h)⟩
  have htie : ¬ x.above (dyMid lo hi) → ∀ z, set z → dyLt y z = true ∨ dyLt z y = true → x.is (dyMid y z) →
      x.is (dyMid lo hi) ∧ dyVal z = dyVal hi := by
    intro hm z hz hor his
    have hlt := hor.resolve_right fun h => his.2 (hunder z h)
    have hmidis : x.is (dyMid lo hi) := ⟨hx.not_below_of_le his.1 (hmids z hz hlt), hm⟩
    have heq := (hx.is_iff his _).mp hmidis
    have hmid := dyVal_dyMid y z
    have hmid' := dyVal_dyMid lo hi
    exact ⟨hmidis, by grind⟩
  refine ⟨hy, fun _ z hz hlt => hx.below_of_le hhi (hnext z hz hlt), fun h => absurd h hbelow, ?_⟩
  cases rm with
  | rne =>
    obtain ⟨hm, heven⟩ := hfit
    exact fun z hz => ⟨(hnearest hm z hz).1, (hnearest hm z hz).2, fun hor his => heven (htie hm z hz hor his).1⟩
  | rtz =>
    refine ⟨fun _ => ?_, fun h => absurd h hbelow⟩
    rw [← dyVal_nonneg_iff, hv]
    exact (dyVal_nonneg_iff lo).mpr hfit
  | rup => exact hfit.elim
  | rdn => exact hbelow
  | rna =>
    obtain ⟨hm, hfar⟩ := hfit
    refine fun z hz => ⟨(hnearest hm z hz).1, (hnearest hm z hz).2, fun hor his => ?_⟩
    obtain ⟨hmidis, heq⟩ := htie hm z hz hor his
    rw [dyLt_iff, dyVal_dyAbs_congr heq, dyVal_dyAbs_congr hv]
    exact hfar hmidis

theorem Outside.neg {lo hi w : Rat} (h : Outside lo hi w) : Outside (-hi) (-lo) (-w) :=
  h.symm.imp Rat.neg_le_neg Rat.neg_le_neg

/-- The upper end of a gap is the lower end of its mirror image. -/
theorem roundedInto_high {set even : Machine.Dyadic → Prop} {rm : RMode} (hx : Cut x) {lo hi y : Machine.Dyadic} (hlo : x.above lo)
    (hhi : x.below hi) (hgap : ∀ z, set z → Outside (dyVal lo) (dyVal hi) (dyVal z)) (hy : set y) (hv : dyVal y = dyVal hi)
    (hfit : LowFits (mirrorMode rm) (even y) (negPoint x) (dyNeg hi) (dyNeg lo)) : roundedInto set even rm x y := by
  rw [← negPoint_negPoint x]
  refine roundedInto_neg (roundedInto_low hx.neg (lo := dyNeg hi) (hi := dyNeg lo) ?_ ?_ (fun z hz => ?_) ?_ ?_ ?_)
  · show x.below (dyNeg (dyNeg hi))
    rwa [dyNeg_dyNeg]
  · show x.above (dyNeg (dyNeg lo))
    rwa [dyNeg_dyNeg]
  · have hout := (hgap _ hz).neg
    rwa [dyVal_dyNeg z, Rat.neg_neg, ← dyVal_dyNeg, ← dyVal_dyNeg] at hout
  · rwa [dyNeg_dyNeg]
  · rw [dyVal_dyNeg, dyVal_dyNeg, hv]
  · rwa [dyNeg_dyNeg]

/-! ### A magnitude rounded to whole units -/

/-- A point compared with a number. -/
def Compares (x : Point) (o : Ordering) (d : Machine.Dyadic) : Prop :=
  match o with
  | .lt => x.below d
  | .eq => x.is d
  | .gt => x.above d

/-- A point rounded to `q` units of `2^e`: it is that number, or it lies between two numbers of units and the mode takes one of them. -/
def UnitRound (rm : RMode) (neg : Bool) (x : Point) (e : Int) (q : Nat) (nx : Bool) : Prop :=
  (nx = false ∧ x.is ⟨q, e⟩) ∨
  (nx = true ∧ ∃ (a : Nat) (o : Ordering), x.above ⟨a, e⟩ ∧ x.below ⟨(a + 1 : Nat), e⟩ ∧
    Compares x o (dyMid ⟨a, e⟩ ⟨(a + 1 : Nat), e⟩) ∧ q = if roundsUp rm neg (a % 2 == 1) true o then a + 1 else a)

/-- A point stands at a magnitude, or over it before the next one if `sticky` (spec/04 R78). -/
structure Stands (mag : Nat) (exp : Int) (sticky : Bool) (x : Point) : Prop where
  below : x.below ⟨(mag + 1 : Nat), exp⟩
  exact : sticky = false → x.is ⟨mag, exp⟩
  more : sticky = true → x.above ⟨mag, exp⟩

theorem dyVal_nat (n : Nat) (e : Int) : dyVal ⟨n, e⟩ = (n : Rat) * pow2 e := by rw [dyVal, Rat.intCast_natCast]

section
variable {mag : Nat} {exp : Int} {sticky : Bool}

theorem Stands.not_below (h : Stands mag exp sticky x) (hx : Cut x) : ¬ x.below ⟨mag, exp⟩ := by
  cases hs : sticky
  · exact (h.exact hs).1
  · exact hx.not_below (h.more hs)

theorem Stands.above_of_lt (h : Stands mag exp sticky x) (hx : Cut x) {n : Nat} {d : Machine.Dyadic} (hd : dyVal d = n * pow2 exp)
    (hn : n < mag) : x.above d :=
  hx.above_of_lt (h.not_below hx) (by rw [hd, dyVal_nat, natCast_mul_pow2_lt_iff]; exact hn)

theorem Stands.below_of_lt (h : Stands mag exp sticky x) (hx : Cut x) {n : Nat} {d : Machine.Dyadic} (hd : dyVal d = n * pow2 exp)
    (hn : mag < n) : x.below d :=
  hx.below_of_le h.below (by rw [hd, dyVal_nat, natCast_mul_pow2_le_iff]; exact hn)

theorem Stands.above_of_more (h : Stands mag exp sticky x) (hx : Cut x) {d : Machine.Dyadic} (hd : dyVal d = mag * pow2 exp)
    (hs : sticky = true) : x.above d :=
  hx.above_of_le (h.more hs) ((hd.trans (dyVal_nat mag exp).symm) ▸ Rat.le_refl)

theorem Stands.is_of_exact (h : Stands mag exp sticky x) (hx : Cut x) {d : Machine.Dyadic} (hd : dyVal d = mag * pow2 exp)
    (hs : sticky = false) : x.is d :=
  (hx.is_iff (h.exact hs) d).mpr (by rw [hd, dyVal_nat])

/-- Units at or below the last digit of an exact magnitude lose nothing. -/
theorem roundMag_of_nonpos (rm : RMode) (neg : Bool) (mag : Nat) (sticky : Bool) {drop : Int} (hd : drop ≤ 0) :
    roundMag rm neg mag sticky drop = (mag * 2 ^ (-drop).toNat, sticky) := by
  rw [roundMag, if_pos hd, Nat.shiftLeft_eq]

/-- The digits below a unit, compared with half of it. -/
def dropOrder (r half : Nat) (sticky : Bool) : Ordering :=
  if r < half then .lt else if half < r then .gt else if sticky then .gt else .eq

theorem roundMag_of_pos (rm : RMode) (neg : Bool) (mag : Nat) (sticky : Bool) {drop : Int} (hd : 0 < drop) :
    let q := mag / 2 ^ drop.toNat
    let r := mag % 2 ^ drop.toNat
    roundMag rm neg mag sticky drop = (if roundsUp rm neg (q % 2 == 1) (r != 0 || sticky) (dropOrder r (2 ^ (drop.toNat - 1)) sticky)
      then q + 1 else q, r != 0 || sticky) := by
  rw [roundMag, if_neg (by omega)]
  simp only [Nat.shiftRight_eq_div_pow]
  rfl

/-- A magnitude rounded to units of `2^e` is its point rounded: exact units take no sticky magnitude. -/
theorem Stands.roundMag_units (h : Stands mag exp sticky x) (hx : Cut x) (rm : RMode) (neg : Bool) {e : Int}
    (hs : sticky = true → exp < e) :
    UnitRound rm neg x e (roundMag rm neg mag sticky (e - exp)).1 (roundMag rm neg mag sticky (e - exp)).2 := by
  by_cases hd : e - exp ≤ 0
  · have hst : sticky = false := by
      cases hst : sticky
      · rfl
      · have := hs hst
        omega
    rw [roundMag_of_nonpos rm neg mag sticky hd]
    refine Or.inl ⟨hst, h.is_of_exact hx ?_ hst⟩
    rw [dyVal_nat, natCast_mul_pow2_of_le mag (show e ≤ exp by omega), Int.neg_sub]
  have hpos : 0 < e - exp := by omega
  have hunits : ∀ a : Nat, dyVal ⟨a, e⟩ = (a * 2 ^ (e - exp).toNat : Nat) * pow2 exp := fun a => by
    rw [dyVal_nat, natCast_mul_pow2_of_le a (show exp ≤ e by omega)]
  rw [roundMag_of_pos rm neg mag sticky hpos]
  have hhalf : 2 ^ (e - exp).toNat = 2 * 2 ^ ((e - exp).toNat - 1) := by
    rw [← Nat.pow_succ', show ((e - exp).toNat - 1).succ = (e - exp).toNat by omega]
  have hhpos := Nat.two_pow_pos ((e - exp).toNat - 1)
  have hsplit := Nat.div_add_mod' mag (2 ^ (e - exp).toNat)
  have hlt := Nat.mod_lt mag (Nat.two_pow_pos (e - exp).toNat)
  have hmid : ∀ a : Nat, dyVal (dyMid ⟨a, e⟩ ⟨(a + 1 : Nat), e⟩) =
      (a * 2 ^ (e - exp).toNat + 2 ^ ((e - exp).toNat - 1) : Nat) * pow2 exp := fun a => by
    have htwice := dyVal_dyMid ⟨a, e⟩ ⟨(a + 1 : Nat), e⟩
    rw [hunits, hunits, Nat.add_mul, hhalf] at htwice
    rw [hhalf]
    push_cast at htwice ⊢
    grind
  have hnext : ∀ a : Nat, (a + 1) * 2 ^ (e - exp).toNat = a * 2 ^ (e - exp).toNat + 2 ^ (e - exp).toNat := fun a => Nat.succ_mul ..
  generalize mag / 2 ^ (e - exp).toNat = q at *
  generalize mag % 2 ^ (e - exp).toNat = r at *
  generalize 2 ^ ((e - exp).toNat - 1) = half at *
  generalize 2 ^ (e - exp).toNat = unit at *
  dsimp only
  cases hnx : (r != 0 || sticky)
  · obtain ⟨hr, hst⟩ := Bool.or_eq_false_iff.mp hnx
    have hr0 : r = 0 := bne_eq_false_iff_eq.mp hr
    have horder : dropOrder r half sticky = .lt := if_pos (by omega)
    have hdown : roundsUp rm neg (q % 2 == 1) false .lt = false := by cases rm <;> rfl
    rw [horder, hdown, if_neg Bool.false_ne_true]
    refine Or.inl ⟨rfl, h.is_of_exact hx ?_ hst⟩
    rw [hunits, show q * unit = mag by omega]
  · have hmore : q * unit < mag ∨ (q * unit = mag ∧ sticky = true) := by
      by_cases hr : r = 0
      · rw [hr, bne_self_eq_false, Bool.false_or] at hnx
        exact Or.inr ⟨by omega, hnx⟩
      · exact Or.inl (by omega)
    refine Or.inr ⟨rfl, q, dropOrder r half sticky, ?_, ?_, ?_, rfl⟩
    · obtain hm | ⟨hm, hst⟩ := hmore
      · exact h.above_of_lt hx (hunits q) hm
      · exact h.above_of_more hx ((hunits q).trans (by rw [hm])) hst
    · have := hnext q
      exact h.below_of_lt hx (hunits (q + 1)) (by omega)
    · unfold dropOrder
      by_cases hlo : r < half
      · rw [if_pos hlo]
        exact h.below_of_lt hx (hmid q) (by omega)
      by_cases hhi : half < r
      · rw [if_neg hlo, if_pos hhi]
        exact h.above_of_lt hx (hmid q) (by omega)
      rw [if_neg hlo, if_neg hhi]
      have heq : q * unit + half = mag := by omega
      cases hst : sticky
      · exact h.is_of_exact hx ((hmid q).trans (by rw [heq])) hst
      · exact h.above_of_more hx ((hmid q).trans (by rw [heq])) hst

end

end Sys2Proof.Machine
end

section
/-! LEMMAS. A magnitude rounded to whole units is the rounding of its point into every set that has no number within a unit (spec/04 R96). -/

namespace Sys2Proof.Machine

open Sys2Proof.Claims

variable {x : Point}

theorem Compares.gt_of_above {o : Ordering} {d : Machine.Dyadic} (h : Compares x o d) (hx : Cut x) (ha : x.above d) : o = .gt := by
  cases o with
  | lt => exact absurd h (hx.not_below ha)
  | eq => exact absurd ha h.2
  | gt => rfl

theorem Compares.lt_of_below {o : Ordering} {d : Machine.Dyadic} (h : Compares x o d) (hx : Cut x) (hb : x.below d) : o = .lt := by
  cases o with
  | lt => rfl
  | eq => exact absurd hb h.1
  | gt => exact absurd h (hx.not_above hb)

theorem Compares.eq_of_is {o : Ordering} {d : Machine.Dyadic} (h : Compares x o d) (his : x.is d) : o = .eq := by
  cases o with
  | lt => exact absurd h his.1
  | eq => rfl
  | gt => exact absurd h his.2

/-- Where a mode does not round up between two whole numbers of units, it takes the lower one. -/
theorem lowFits_of_down {rm : RMode} (hx : Cut x) {a : Nat} {e : Int} {o : Ordering}
    (ho : Compares x o (dyMid ⟨a, e⟩ ⟨(a + 1 : Nat), e⟩)) (hdown : roundsUp rm false (a % 2 == 1) true o = false) {even : Prop}
    (heven : a % 2 = 0 → even) : LowFits rm even x ⟨a, e⟩ ⟨(a + 1 : Nat), e⟩ := by
  cases rm with
  | rtz => exact Int.natCast_nonneg a
  | rup => cases hdown
  | rdn => trivial
  | rne =>
    refine ⟨fun ha => ?_, fun his => heven ?_⟩
    · rw [ho.gt_of_above hx ha] at hdown
      cases hdown
    · rw [ho.eq_of_is his] at hdown
      have hodd : (a % 2 == 1) = false := hdown
      have := beq_eq_false_iff_ne.mp hodd
      omega
  | rna =>
    refine ⟨fun ha => ?_, fun his => ?_⟩
    · rw [ho.gt_of_above hx ha] at hdown
      cases hdown
    · rw [ho.eq_of_is his] at hdown
      cases hdown

theorem dyMid_comm (a b : Machine.Dyadic) : dyMid a b = dyMid b a := by
  have hmin : iminInt a.e b.e = iminInt b.e a.e := by
    unfold iminInt
    split <;> split <;> omega
  rw [dyMid, dyMid, hmin, Int.add_comm]

theorem dyNeg_dyMid (lo hi : Machine.Dyadic) : dyNeg (dyMid (dyNeg hi) (dyNeg lo)) = dyMid lo hi := by
  rw [dyMid_dyNeg, dyNeg_dyNeg, dyMid_comm]

/-- Where a mode rounds up, it takes the upper one, which its mirror image sees as the lower. -/
theorem lowFits_of_up {rm : RMode} (hx : Cut x) {a : Nat} {e : Int} {o : Ordering}
    (ho : Compares x o (dyMid ⟨a, e⟩ ⟨(a + 1 : Nat), e⟩)) (hup : roundsUp rm false (a % 2 == 1) true o = true) {even : Prop}
    (heven : (a + 1) % 2 = 0 → even) :
    LowFits (mirrorMode rm) even (negPoint x) (dyNeg ⟨(a + 1 : Nat), e⟩) (dyNeg ⟨a, e⟩) := by
  have habove : (negPoint x).above (dyMid (dyNeg ⟨(a + 1 : Nat), e⟩) (dyNeg ⟨a, e⟩)) → o = .lt := fun h =>
    ho.lt_of_below hx (by rw [← dyNeg_dyMid]; exact h)
  have his : (negPoint x).is (dyMid (dyNeg ⟨(a + 1 : Nat), e⟩) (dyNeg ⟨a, e⟩)) → o = .eq := fun h =>
    ho.eq_of_is (by rw [← dyNeg_dyMid]; exact ⟨h.2, h.1⟩)
  cases rm with
  | rtz => cases hup
  | rup => trivial
  | rdn => cases hup
  | rne =>
    refine ⟨fun ha => ?_, fun hi => heven ?_⟩
    · rw [habove ha] at hup
      cases hup
    · rw [his hi] at hup
      have hodd : (a % 2 == 1) = true := hup
      have := beq_iff_eq.mp hodd
      omega
  | rna =>
    refine ⟨fun ha => ?_, fun _ => ?_⟩
    · rw [habove ha] at hup
      cases hup
    · rw [dyAbs_dyNeg, dyAbs_dyNeg, show dyAbs ⟨a, e⟩ = ⟨a, e⟩ from rfl, show dyAbs ⟨(a + 1 : Nat), e⟩ = ⟨(a + 1 : Nat), e⟩ from rfl,
        dyVal_nat, dyVal_nat, natCast_mul_pow2_lt_iff]
      exact Nat.lt_succ_self a

/-- A number whose magnitude lies outside a gap of magnitudes lies outside it by itself. -/
theorem Outside.of_dyAbs {lo hi : Rat} {z : Machine.Dyadic} (h : Outside lo hi (dyVal (dyAbs z))) (hlo : 0 ≤ lo) :
    Outside lo hi (dyVal z) := by
  rw [dyVal_dyAbs] at h
  split at h
  · exact h
  · next hneg => exact Or.inl (by grind)

/-- A set has no number within the unit of `2^e` around a point. -/
def NoneWithin (set : Machine.Dyadic → Prop) (x : Point) (e : Int) : Prop :=
  ∀ a : Nat, x.above ⟨a, e⟩ → x.below ⟨(a + 1 : Nat), e⟩ → ∀ z, set z →
    Outside (a * pow2 e) ((a + 1 : Nat) * pow2 e) (dyVal (dyAbs z))

theorem roundedInto_unit {set even : Machine.Dyadic → Prop} {rm : RMode} (hx : Cut x) {e : Int} {q : Nat} {nx : Bool}
    (h : UnitRound rm false x e q nx) {y : Machine.Dyadic} (hy : set y) (hv : dyVal y = q * pow2 e) (heven : q % 2 = 0 → even y)
    (hgap : NoneWithin set x e) : roundedInto set even rm x y := by
  obtain ⟨-, his⟩ | ⟨-, a, o, hlo, hhi, ho, hq⟩ := h
  · exact roundedInto_of_is rm hx hy ((hx.is_iff his y).mpr (hv.trans (dyVal_nat q e).symm))
  · have hout : ∀ z, set z → Outside (dyVal ⟨a, e⟩) (dyVal ⟨(a + 1 : Nat), e⟩) (dyVal z) := fun z hz => by
      rw [dyVal_nat, dyVal_nat]
      exact (hgap a hlo hhi z hz).of_dyAbs (natCast_mul_pow2_nonneg a e)
    cases hup : roundsUp rm false (a % 2 == 1) true o
    · rw [hup, if_neg Bool.false_ne_true] at hq
      subst hq
      exact roundedInto_low hx hlo hhi hout hy (hv.trans (dyVal_nat q e).symm) (lowFits_of_down hx ho hup heven)
    · rw [hup, if_pos rfl] at hq
      subst hq
      exact roundedInto_high hx hlo hhi hout hy (hv.trans (dyVal_nat (a + 1) e).symm) (lowFits_of_up hx ho hup heven)

/-- A negative magnitude is rounded as its mirror image. -/
theorem UnitRound.mirror {rm : RMode} {e : Int} {q : Nat} {nx : Bool} (h : UnitRound rm true x e q nx) :
    UnitRound (mirrorMode rm) false x e q nx := by
  have hmode : ∀ odd i o, roundsUp rm true odd i o = roundsUp (mirrorMode rm) false odd i o := fun odd i o => by cases rm <;> rfl
  obtain h | ⟨hnx, a, o, hlo, hhi, ho, hq⟩ := h
  · exact Or.inl h
  · exact Or.inr ⟨hnx, a, o, hlo, hhi, ho, hmode .. ▸ hq⟩

/-- A signed magnitude rounded to whole units is its point rounded into a set that has no number within a unit. -/
theorem roundedInto_signed {set even : Machine.Dyadic → Prop} {rm : RMode} {n : Bool} (hx : Cut x) {e : Int} {q : Nat} {nx : Bool}
    (h : UnitRound rm n x e q nx) {y : Machine.Dyadic} (hy : set y) (hv : dyVal y = withSign n (q * pow2 e)) (heven : q % 2 = 0 → even y)
    (hgap : NoneWithin set x e) : roundedInto set even rm (signPoint n x) y := by
  cases n with
  | false => exact roundedInto_unit hx h hy hv heven hgap
  | true =>
    refine roundedInto_neg (roundedInto_unit hx h.mirror ?_ ?_ (fun hq => ?_) fun a hlo hhi z hz => ?_)
    · rwa [dyNeg_dyNeg]
    · rw [dyVal_dyNeg, hv, withSign_true, Rat.neg_neg]
    · rw [dyNeg_dyNeg]
      exact heven hq
    · rw [← dyAbs_dyNeg]
      exact hgap a hlo hhi _ hz

/-! ### What a rounding keeps -/

/-- Rounding to units stays between whole numbers of units that the point is between. -/
theorem UnitRound.bounds {rm : RMode} {n : Bool} (hx : Cut x) {e : Int} {q : Nat} {nx : Bool} (h : UnitRound rm n x e q nx) {lo hi : Nat}
    (hlo : ¬ x.below ⟨lo, e⟩) (hhi : x.below ⟨hi, e⟩) : lo ≤ q ∧ q ≤ hi := by
  obtain ⟨-, his⟩ | ⟨-, a, o, ha, hb, -, hq⟩ := h
  · have hle := hx.le hlo his.2
    have hlt := hx.lt_of_below his.1 hhi
    rw [dyVal_nat, dyVal_nat, natCast_mul_pow2_le_iff] at hle
    rw [dyVal_nat, dyVal_nat, natCast_mul_pow2_lt_iff] at hlt
    omega
  · have hle := hx.lt_of_below hlo hb
    have hlt := hx.lt ha hhi
    rw [dyVal_nat, dyVal_nat, natCast_mul_pow2_lt_iff] at hle hlt
    rw [hq]
    split <;> omega

/-- The lower end of the unit around a point is not under a number of units that the point is not under. -/
theorem floor_ge (hx : Cut x) {e : Int} {lo a : Nat} (hlo : ¬ x.below ⟨lo, e⟩) (hb : x.below ⟨(a + 1 : Nat), e⟩) : lo ≤ a := by
  have hlt := hx.lt_of_below hlo hb
  rw [dyVal_nat, dyVal_nat, natCast_mul_pow2_lt_iff] at hlt
  omega

/-- Rounding to units loses something exactly if it moves the point. -/
theorem UnitRound.inexact_iff {rm : RMode} {n : Bool} {e : Int} {q : Nat} {nx : Bool} (h : UnitRound rm n x e q nx) :
    nx = false ↔ x.is ⟨q, e⟩ := by
  obtain ⟨hnx, his⟩ | ⟨hnx, a, o, ha, hb, -, hq⟩ := h
  · exact ⟨fun _ => his, fun _ => hnx⟩
  · refine ⟨fun h => absurd (hnx.symm.trans h) Bool.noConfusion, fun his => ?_⟩
    split at hq <;> subst hq
    · exact absurd hb his.1
    · exact absurd ha his.2

end Sys2Proof.Machine
end

section
/-! LEMMAS. The encodings of the formats (spec/04 R80, R81, R83): the fields of an encoding, the finite numbers that encodings stand for,
and the encodings that the rounding builds. -/

namespace Sys2Proof.Machine

open Sys2Proof.Claims

/-! ### The formats -/

/-- The formats that results are rounded into. -/
def fpFormats : List FloatFmt := [fmt32, fmt64, fmt16, fmtB16, fmtE4M3, fmtE5M2]

/-- What the formats have in common: a sign, an exponent and a fraction, enough exponents for every whole number of the precision, and
E4M3 as the only one without infinities. -/
structure FmtOk (f : FloatFmt) : Prop where
  width : f.width = f.ebits + f.fbits + 1
  fbits : 1 ≤ f.fbits
  ebits : 3 ≤ f.ebits
  whole : f.fbits < 2 ^ (f.ebits - 1)
  ocp : f.ocp = true → f = fmtE4M3

theorem fmtOk_of_mem {f : FloatFmt} (h : f ∈ fpFormats) : FmtOk f := by
  simp only [fpFormats, List.mem_cons, List.not_mem_nil, or_false] at h
  obtain rfl | rfl | rfl | rfl | rfl | rfl := h <;> constructor <;> decide

/-- The exponent field of the largest numbers. -/
def topField (f : FloatFmt) : Nat := if f.ocp then 2 ^ f.ebits - 1 else 2 ^ f.ebits - 2

variable {f : FloatFmt}

theorem FmtOk.two_pow_ebits (hf : FmtOk f) : 2 ^ f.ebits = 2 * 2 ^ (f.ebits - 1) := by
  rw [← Nat.pow_succ', show (f.ebits - 1).succ = f.ebits by have := hf.ebits; omega]

theorem FmtOk.four_le (hf : FmtOk f) : 4 ≤ 2 ^ (f.ebits - 1) :=
  Nat.le_trans (by decide : 4 ≤ 2 ^ 2) (Nat.pow_le_pow_right Nat.two_pos (show 2 ≤ f.ebits - 1 by have := hf.ebits; omega))

theorem FmtOk.two_le (hf : FmtOk f) : 2 ≤ 2 ^ f.fbits := Nat.le_pow hf.fbits

theorem fmtBias_eq (f : FloatFmt) : fmtBias f = ((2 ^ (f.ebits - 1) : Nat) : Int) - 1 := by
  rw [fmtBias]
  push_cast
  rfl

theorem FmtOk.emax_add_bias (hf : FmtOk f) : fmtEmax f + fmtBias f = topField f := by
  have hfour := hf.four_le
  rw [fmtEmax, topField, fmtBias_eq, hf.two_pow_ebits]
  split <;> omega

theorem FmtOk.topField_lt (hf : FmtOk f) : topField f < 2 ^ f.ebits := by
  have hfour := hf.four_le
  rw [topField, hf.two_pow_ebits]
  split <;> omega

/-- The largest significand has all its bits, and in E4M3 all but the last. -/
theorem FmtOk.maxSig_bounds (hf : FmtOk f) : 2 ^ f.fbits ≤ fmtMaxSig f ∧ fmtMaxSig f < 2 ^ (f.fbits + 1) := by
  have htwo := hf.two_le
  rw [fmtMaxSig, Nat.pow_succ]
  split <;> omega

theorem FmtOk.emin_le_emax (hf : FmtOk f) : fmtEmin f ≤ fmtEmax f := by
  have hfour := hf.four_le
  rw [fmtEmin, fmtEmax, fmtBias_eq]
  split <;> omega

/-! ### Fields -/

theorem fmtSign_eq (f : FloatFmt) (n : Bool) : fmtSign f n = n.toNat * 2 ^ (f.width - 1) := by
  cases n <;> simp [fmtSign]

/-- The encoding of a sign, an exponent field and a fraction. -/
def fencode (f : FloatFmt) (n : Bool) (ex fr : Nat) : Nat := fmtSign f n + ex * 2 ^ f.fbits + fr

theorem FmtOk.fencode_lt (hf : FmtOk f) (n : Bool) {ex fr : Nat} (hex : ex < 2 ^ f.ebits) (hfr : fr < 2 ^ f.fbits) :
    ex * 2 ^ f.fbits + fr < 2 ^ (f.width - 1) ∧ fencode f n ex fr < 2 ^ f.width := by
  have hlow : ex * 2 ^ f.fbits + fr < 2 ^ (f.width - 1) := by
    calc ex * 2 ^ f.fbits + fr < (ex + 1) * 2 ^ f.fbits := by rw [Nat.succ_mul]; omega
      _ ≤ 2 ^ f.ebits * 2 ^ f.fbits := Nat.mul_le_mul_right _ hex
      _ = 2 ^ (f.width - 1) := by rw [← Nat.pow_add, hf.width, Nat.add_sub_cancel]
  have hwidth : 2 ^ f.width = 2 * 2 ^ (f.width - 1) := by rw [← Nat.pow_succ', hf.width, Nat.add_sub_cancel]
  refine ⟨hlow, ?_⟩
  rw [fencode, fmtSign_eq, hwidth]
  cases n <;> simp <;> omega

/-- The fields of an encoding read back. -/
theorem FmtOk.fields (hf : FmtOk f) (n : Bool) {ex fr : Nat} (hex : ex < 2 ^ f.ebits) (hfr : fr < 2 ^ f.fbits) :
    bitOf (fencode f n ex fr) (f.width - 1) = n ∧ bitsOf (fencode f n ex fr) (f.width - 2) f.fbits = ex ∧
    fencode f n ex fr % 2 ^ f.fbits = fr := by
  have hlow := (hf.fencode_lt n hex hfr).1
  have hpow : 2 ^ (f.width - 1) = 2 ^ f.ebits * 2 ^ f.fbits := by rw [← Nat.pow_add, hf.width, Nat.add_sub_cancel]
  have hsplit : fencode f n ex fr = (n.toNat * 2 ^ f.ebits + ex) * 2 ^ f.fbits + fr := by
    rw [fencode, fmtSign_eq, hpow, Nat.add_mul, Nat.mul_assoc]
  have hhigh : fencode f n ex fr / 2 ^ f.fbits = n.toNat * 2 ^ f.ebits + ex := by
    rw [hsplit, Nat.mul_comm, Nat.mul_add_div (Nat.two_pow_pos _), Nat.div_eq_of_lt hfr, Nat.add_zero]
  refine ⟨?_, ?_, ?_⟩
  · rw [bitOf, Nat.shiftRight_eq_div_pow, fencode, fmtSign_eq, Nat.add_assoc, Nat.mul_comm n.toNat, Nat.mul_add_div (Nat.two_pow_pos _),
      Nat.div_eq_of_lt hlow]
    cases n <;> rfl
  · have hebits : f.width - 2 + 1 - f.fbits = f.ebits := by
      have := hf.width
      have := hf.ebits
      omega
    rw [bitsOf, Nat.shiftRight_eq_div_pow, hhigh, hebits, Nat.mul_add_mod_self_right, Nat.mod_eq_of_lt hex]
  · rw [hsplit, Nat.mul_add_mod_self_right, Nat.mod_eq_of_lt hfr]

/-- Every encoding has its fields. -/
theorem FmtOk.exists_fields (hf : FmtOk f) {b : Nat} (hb : b < 2 ^ f.width) :
    ∃ n ex fr, ex < 2 ^ f.ebits ∧ fr < 2 ^ f.fbits ∧ b = fencode f n ex fr := by
  have hpow : 2 ^ (f.width - 1) = 2 ^ f.fbits * 2 ^ f.ebits := by rw [← Nat.pow_add, hf.width, Nat.add_sub_cancel, Nat.add_comm]
  have hwidth : 2 ^ f.width = 2 ^ (f.width - 1) * 2 := by rw [← Nat.pow_succ, hf.width, Nat.add_sub_cancel]
  have hsign : b / 2 ^ (f.width - 1) < 2 := Nat.div_lt_of_lt_mul (hwidth ▸ hb)
  refine ⟨b / 2 ^ (f.width - 1) == 1, b % 2 ^ (f.width - 1) / 2 ^ f.fbits, b % 2 ^ (f.width - 1) % 2 ^ f.fbits, ?_,
    Nat.mod_lt _ (Nat.two_pow_pos _), ?_⟩
  · exact Nat.div_lt_of_lt_mul (hpow ▸ Nat.mod_lt _ (Nat.two_pow_pos _))
  · have hn : (b / 2 ^ (f.width - 1) == 1).toNat = b / 2 ^ (f.width - 1) := by
      obtain h | h := Nat.le_one_iff_eq_zero_or_eq_one.mp (Nat.lt_succ_iff.mp hsign)
      all_goals rw [h]; rfl
    rw [fencode, fmtSign_eq, hn, Nat.add_assoc, Nat.div_add_mod', Nat.div_add_mod']

/-! ### What the encodings stand for -/

/-- The fields of the encodings that are not finite. -/
def specialFields (f : FloatFmt) (ex fr : Nat) : Prop := ex = 2 ^ f.ebits - 1 ∧ (f.ocp = true → fr = 2 ^ f.fbits - 1)

theorem FmtOk.fdecode_fencode (hf : FmtOk f) (n : Bool) {ex fr : Nat} (hex : ex < 2 ^ f.ebits) (hfr : fr < 2 ^ f.fbits)
    (hfin : ¬ specialFields f ex fr) : fdecode f (fencode f n ex fr) =
      if ex = 0 then .fin n fr (fmtEmin f - f.fbits) else .fin n (2 ^ f.fbits + fr) ((ex : Int) - fmtBias f - f.fbits) := by
  obtain ⟨hn, he, hr⟩ := hf.fields n hex hfr
  have hinf : ¬ (ex = 2 ^ f.ebits - 1 ∧ ¬ f.ocp = true) := fun ⟨h, ho⟩ => hfin ⟨h, fun h' => absurd h' ho⟩
  have hnan : ¬ (f.ocp = true ∧ ex = 2 ^ f.ebits - 1 ∧ fr = 2 ^ f.fbits - 1) := fun ⟨_, h, h'⟩ => hfin ⟨h, fun _ => h'⟩
  simp only [fdecode, hn, he, hr, if_neg hinf, if_neg hnan]

theorem FmtOk.fdecode_special (hf : FmtOk f) (n : Bool) {ex fr : Nat} (hex : ex < 2 ^ f.ebits) (hfr : fr < 2 ^ f.fbits)
    (h : specialFields f ex fr) : fdecode f (fencode f n ex fr) =
      if f.ocp then .nan false else if fr = 0 then .inf n else .nan (!(bitOf fr (f.fbits - 1))) := by
  obtain ⟨hn, he, hr⟩ := hf.fields n hex hfr
  obtain ⟨hex', hfr'⟩ := h
  cases ho : f.ocp
  · have hfull : ex = 2 ^ f.ebits - 1 ∧ ¬ f.ocp = true := ⟨hex', by simp [ho]⟩
    simp only [fdecode, hn, he, hr, if_pos hfull, Bool.false_eq_true, if_false]
  · have hinf : ¬ (ex = 2 ^ f.ebits - 1 ∧ ¬ f.ocp = true) := fun h => h.2 ho
    have hnan : f.ocp = true ∧ ex = 2 ^ f.ebits - 1 ∧ fr = 2 ^ f.fbits - 1 := ⟨ho, hex', hfr' ho⟩
    simp only [fdecode, hn, he, hr, if_neg hinf, if_pos hnan, if_true]

/-- The encodings of the subnormal numbers, and of the least normal one after them. -/
theorem FmtOk.fdecode_subnormal (hf : FmtOk f) (n : Bool) {m : Nat} (hm : m ≤ 2 ^ f.fbits) :
    fmtSign f n + m < 2 ^ f.width ∧ fdecode f (fmtSign f n + m) = .fin n m (fmtEmin f - f.fbits) := by
  have hfour := hf.four_le
  have hpow := hf.two_pow_ebits
  obtain hlt | rfl := Nat.lt_or_eq_of_le hm
  · have hnot : ¬ specialFields f 0 m := fun h => by have := h.1; omega
    have henc : fmtSign f n + m = fencode f n 0 m := by rw [fencode, Nat.zero_mul, Nat.add_zero]
    rw [henc]
    exact ⟨(hf.fencode_lt n (Nat.two_pow_pos _) hlt).2, by rw [hf.fdecode_fencode n (Nat.two_pow_pos _) hlt hnot, if_pos rfl]⟩
  · have hone : 1 < 2 ^ f.ebits := by omega
    have hnot : ¬ specialFields f 1 0 := fun h => by have := h.1; omega
    have henc : fmtSign f n + 2 ^ f.fbits = fencode f n 1 0 := by rw [fencode, Nat.one_mul, Nat.add_zero]
    rw [henc]
    refine ⟨(hf.fencode_lt n hone (Nat.two_pow_pos _)).2, ?_⟩
    rw [hf.fdecode_fencode n hone (Nat.two_pow_pos _) hnot, if_neg Nat.one_ne_zero, Nat.add_zero, fmtEmin, Int.natCast_one]

/-- The encodings of the normal numbers. -/
theorem FmtOk.fdecode_normal (hf : FmtOk f) (n : Bool) {q : Nat} {e : Int} (hlo : 2 ^ f.fbits ≤ q) (hhi : q < 2 ^ (f.fbits + 1))
    (hmin : fmtEmin f ≤ e) (hmax : e ≤ fmtEmax f) (htop : e = fmtEmax f → q ≤ fmtMaxSig f) :
    let b := fmtSign f n + (e + fmtBias f).toNat * 2 ^ f.fbits + (q - 2 ^ f.fbits)
    b < 2 ^ f.width ∧ fdecode f b = .fin n q (e - f.fbits) := by
  have hadd := hf.emax_add_bias
  have htlt := hf.topField_lt
  have hfr : q - 2 ^ f.fbits < 2 ^ f.fbits := by rw [Nat.pow_succ] at hhi; omega
  have hpos : 1 ≤ e + fmtBias f := by rw [fmtEmin] at hmin; omega
  have hex : (e + fmtBias f).toNat < 2 ^ f.ebits := by omega
  have hnot : ¬ specialFields f (e + fmtBias f).toNat (q - 2 ^ f.fbits) := by
    rintro ⟨hfull, hocp⟩
    cases ho : f.ocp
    · have htf : topField f = 2 ^ f.ebits - 2 := by rw [topField, ho, if_neg Bool.false_ne_true]
      omega
    · have hsig : fmtMaxSig f = 2 ^ (f.fbits + 1) - 2 := by rw [fmtMaxSig, ho, if_pos rfl]
      have htf : topField f = 2 ^ f.ebits - 1 := by rw [topField, ho, if_pos rfl]
      have hq := htop (by omega)
      have hr := hocp ho
      rw [hsig, Nat.pow_succ] at hq
      have := hf.two_le
      omega
  refine ⟨(hf.fencode_lt n hex hfr).2, (hf.fdecode_fencode n hex hfr hnot).trans ?_⟩
  rw [if_neg (by omega), Nat.add_sub_cancel' hlo, Int.toNat_of_nonneg (by omega), Int.add_sub_cancel]

/-- A finite encoding is one of a subnormal or of a normal number. -/
theorem FmtOk.fdecode_fin_cases (hf : FmtOk f) {b : Nat} (hb : b < 2 ^ f.width) {n : Bool} {m : Nat} {e : Int} (h : fdecode f b = .fin n m e) :
    (m < 2 ^ f.fbits ∧ e = fmtEmin f - f.fbits ∧ b = fmtSign f n + m) ∨
    (2 ^ f.fbits ≤ m ∧ m < 2 ^ (f.fbits + 1) ∧ fmtEmin f ≤ e + f.fbits ∧ e + f.fbits ≤ fmtEmax f ∧
      (e + f.fbits = fmtEmax f → m ≤ fmtMaxSig f) ∧ b = fmtSign f n + (e + f.fbits + fmtBias f).toNat * 2 ^ f.fbits + (m - 2 ^ f.fbits)) := by
  obtain ⟨n', ex, fr, hex, hfr, rfl⟩ := hf.exists_fields hb
  by_cases hs : specialFields f ex fr
  · rw [hf.fdecode_special n' hex hfr hs] at h
    split at h
    · simp at h
    · split at h <;> simp at h
  rw [hf.fdecode_fencode n' hex hfr hs] at h
  split at h
  · next hzero =>
    obtain ⟨rfl, rfl, rfl⟩ := FVal.fin.inj h
    exact Or.inl ⟨hfr, rfl, by rw [fencode, hzero, Nat.zero_mul, Nat.add_zero]⟩
  · next hne =>
    obtain ⟨rfl, rfl, rfl⟩ := FVal.fin.inj h
    have hadd := hf.emax_add_bias
    refine Or.inr ⟨Nat.le_add_right _ _, by rw [Nat.pow_succ]; omega, by rw [fmtEmin]; omega, ?_, fun htop => ?_, ?_⟩
    · have : ex ≤ topField f := by
        rw [topField]
        split
        · omega
        · next ho =>
          have : ex ≠ 2 ^ f.ebits - 1 := fun h => hs ⟨h, fun h' => absurd h' ho⟩
          omega
      omega
    · rw [fmtMaxSig, Nat.pow_succ]
      split
      · next ho =>
        have htf : topField f = 2 ^ f.ebits - 1 := by rw [topField, if_pos ho]
        have : fr ≠ 2 ^ f.fbits - 1 := fun h => hs ⟨by omega, fun _ => h⟩
        omega
      · omega
    · rw [fencode, show (ex : Int) - fmtBias f - f.fbits + f.fbits + fmtBias f = ex by omega, Int.toNat_natCast, Nat.add_sub_cancel_left]

end Sys2Proof.Machine
end

section
/-! LEMMAS. The numbers of a format among the dyadics (spec/04 R80, R81, R97): the gaps between them, the order of normalized magnitudes, the
greatest and the least normal number. -/

namespace Sys2Proof.Machine

open Sys2Proof.Claims

variable {f : FloatFmt}

/-! ### Gaps between the numbers of a format -/

/-- Whole multiples of a unit lie outside each unit. -/
theorem outside_unit (a k : Nat) (e : Int) : Outside (a * pow2 e) ((a + 1 : Nat) * pow2 e) (k * pow2 e) := by
  obtain h | h : k ≤ a ∨ a + 1 ≤ k := by omega
  · exact Or.inl ((natCast_mul_pow2_le_iff e).mpr h)
  · exact Or.inr ((natCast_mul_pow2_le_iff e).mpr h)

/-- Multiples of a power of two lie outside each unit of a lower one. -/
theorem outside_unit_of_le (a m : Nat) {e e' : Int} (h : e ≤ e') :
    Outside (a * pow2 e) ((a + 1 : Nat) * pow2 e) (m * pow2 e') := by
  rw [natCast_mul_pow2_of_le m h]
  exact outside_unit a _ e

/-- A number of the format's precision lies outside each unit of a full significand. -/
theorem outside_of_precise {a : Nat} (ha : 2 ^ f.fbits ≤ a) (e : Int) {z : Machine.Dyadic} (hz : precise f z) :
    Outside (a * pow2 e) ((a + 1 : Nat) * pow2 e) (dyVal (dyAbs z)) := by
  obtain ⟨m, e', hm, hsame⟩ := hz
  rw [dyVal_dyAbs_congr ((dySame_iff _ _).mp hsame), dyAbs, dyVal_nat]
  by_cases he : e ≤ e'
  · exact outside_unit_of_le a _ he
  · rw [natCast_mul_pow2_of_le a (show e' ≤ e by omega)]
    refine Or.inl ((natCast_mul_pow2_le_iff e').mpr (Nat.le_trans (Nat.le_of_lt hm) ?_))
    calc 2 ^ (f.fbits + 1) = 2 ^ f.fbits * 2 ^ 1 := Nat.pow_add ..
      _ ≤ a * 2 ^ (e - e').toNat := Nat.mul_le_mul ha (Nat.pow_le_pow_right (by decide) (by omega))

/-- The significand and the exponent of a finite encoding. -/
theorem FmtOk.fdecode_fin_bounds (hf : FmtOk f) {b : Nat} (hb : b < 2 ^ f.width) {n : Bool} {m : Nat} {e : Int} (h : fdecode f b = .fin n m e) :
    m < 2 ^ (f.fbits + 1) ∧ fmtEmin f - f.fbits ≤ e := by
  obtain ⟨hm, he, -⟩ | ⟨-, hm, he, -⟩ := hf.fdecode_fin_cases hb h
  · exact ⟨Nat.lt_trans hm (Nat.pow_lt_pow_right (by decide) (Nat.lt_succ_self _)), Int.le_of_eq he.symm⟩
  · exact ⟨hm, by omega⟩

theorem dyOf_m_natAbs (n : Bool) (m : Nat) (e : Int) : (dyOf n m e).m.natAbs = m := by
  cases n
  · exact Int.natAbs_natCast m
  · exact (Int.natAbs_neg _).trans (Int.natAbs_natCast m)

theorem precise_dyOf {m : Nat} (hm : m < 2 ^ (f.fbits + 1)) (n : Bool) (e : Int) : precise f (dyOf n m e) :=
  ⟨(dyOf n m e).m, e, by rw [dyOf_m_natAbs]; exact hm, (dySame_iff _ _).mpr rfl⟩

theorem evenSig_dyOf {m : Nat} (hlo : 2 ^ f.fbits ≤ m) (hhi : m < 2 ^ (f.fbits + 1)) (heven : m % 2 = 0) (n : Bool) (e : Int) :
    evenSig f (dyOf n m e) := by
  refine ⟨(dyOf n m e).m, e, ?_, ?_, ?_, (dySame_iff _ _).mpr rfl⟩
  · rw [dyOf_m_natAbs]
    exact hlo
  · rw [dyOf_m_natAbs]
    exact hhi
  · have := dyOf_m_natAbs n m e
    omega

theorem encoded_dyOf {p : Nat → Prop} {b : Nat} (hb : b < 2 ^ f.width) (hp : p b) {n : Bool} {m : Nat} {e : Int} (h : fdecode f b = .fin n m e) :
    encoded f p (dyOf n m e) := ⟨b, n, m, e, hb, hp, h, (dySame_iff _ _).mpr rfl⟩

theorem FmtOk.precise_of_encoded (hf : FmtOk f) {p : Nat → Prop} {z : Machine.Dyadic} (hz : encoded f p z) : precise f z := by
  obtain ⟨b, n, m, e, hb, -, hdec, hsame⟩ := hz
  exact ⟨(dyOf n m e).m, e, by rw [dyOf_m_natAbs]; exact (hf.fdecode_fin_bounds hb hdec).1, hsame⟩

theorem FmtOk.outside_of_encoded (hf : FmtOk f) (a : Nat) {p : Nat → Prop} {z : Machine.Dyadic} (hz : encoded f p z) :
    Outside (a * pow2 (fmtEmin f - f.fbits)) ((a + 1 : Nat) * pow2 (fmtEmin f - f.fbits)) (dyVal (dyAbs z)) := by
  obtain ⟨b, n, m, e, hb, -, hdec, hsame⟩ := hz
  rw [dyVal_dyAbs_congr ((dySame_iff _ _).mp hsame), dyVal_dyAbs_dyOf]
  exact outside_unit_of_le a m (hf.fdecode_fin_bounds hb hdec).2

/-! ### Normalized magnitudes -/

/-- The magnitude of a significand at an exponent. -/
def magOf (f : FloatFmt) (q : Nat) (e : Int) : Rat := q * pow2 (e - f.fbits)

theorem magOf_lt_of_lt {q q' : Nat} (hq : q < 2 ^ (f.fbits + 1)) (hq' : 2 ^ f.fbits ≤ q') {e e' : Int} (h : e < e') :
    magOf f q e < magOf f q' e' := by
  rw [magOf, magOf, natCast_mul_pow2_of_le q' (show e - f.fbits ≤ e' - f.fbits by omega), natCast_mul_pow2_lt_iff]
  calc q < 2 ^ f.fbits * 2 ^ 1 := Nat.pow_add .. ▸ hq
    _ ≤ q' * 2 ^ (e' - f.fbits - (e - f.fbits)).toNat := Nat.mul_le_mul hq' (Nat.pow_le_pow_right (by decide) (by omega))

/-- A significand of the full precision of a format. -/
def FullSig (f : FloatFmt) (q : Nat) : Prop := 2 ^ f.fbits ≤ q ∧ q < 2 ^ (f.fbits + 1)

theorem fullSig_least (f : FloatFmt) : FullSig f (2 ^ f.fbits) :=
  ⟨Nat.le_refl _, Nat.pow_lt_pow_right (by decide) (Nat.lt_succ_self _)⟩

/-- Normalized magnitudes are ordered by their exponents first. -/
theorem magOf_lt_iff {q q' : Nat} (hq : FullSig f q) (hq' : FullSig f q') (e e' : Int) :
    magOf f q e < magOf f q' e' ↔ e < e' ∨ (e = e' ∧ q < q') := by
  obtain h | rfl | h := Int.lt_trichotomy e e'
  · exact iff_of_true (magOf_lt_of_lt hq.2 hq'.1 h) (Or.inl h)
  · rw [magOf, magOf, natCast_mul_pow2_lt_iff]
    omega
  · exact iff_of_false (fun hlt => by have := magOf_lt_of_lt hq'.2 hq.1 h; grind) (by omega)

theorem magOf_le_iff {q q' : Nat} (hq : FullSig f q) (hq' : FullSig f q') (e e' : Int) :
    magOf f q e ≤ magOf f q' e' ↔ e < e' ∨ (e = e' ∧ q ≤ q') := by
  rw [← Rat.not_lt, magOf_lt_iff hq' hq]
  omega

theorem natCast_mul_pow2_eq_magOf (f : FloatFmt) (m : Nat) (e : Int) : (m : Rat) * pow2 e = magOf f m (e + f.fbits) := by
  rw [magOf, Int.add_sub_cancel]

theorem FmtOk.fullSig_maxSig (hf : FmtOk f) : FullSig f (fmtMaxSig f) := hf.maxSig_bounds

/-- The largest finite number is the largest significand at the largest exponent (spec/04 R80, R83). -/
theorem FmtOk.dyVal_greatest (hf : FmtOk f) : dyVal (greatest f) = magOf f (fmtMaxSig f) (fmtEmax f) := by
  cases ho : f.ocp
  · have hsig : (2 ^ (f.fbits + 1) - 1 : Int) = ((2 ^ (f.fbits + 1) - 1 : Nat) : Int) := by
      rw [Int.natCast_sub Nat.one_le_two_pow, Int.natCast_pow]
      rfl
    rw [greatest, fmtMaxSig, fmtEmax, fmtBias, ho, if_neg Bool.false_ne_true, if_neg Bool.false_ne_true, if_neg Bool.false_ne_true, hsig,
      dyVal_nat, magOf]
  · rw [hf.ocp ho]
    exact natCast_mul_pow2_of_le 7 (show (5 : Int) ≤ 6 by decide)

theorem dyVal_leastNormal (f : FloatFmt) : dyVal (leastNormal f) = magOf f (2 ^ f.fbits) (fmtEmin f) := by
  have hexp : (2 : Int) - 2 ^ (f.ebits - 1) = (f.fbits : Int) + (fmtEmin f - f.fbits) := by
    rw [fmtEmin, fmtBias]
    omega
  rw [leastNormal, dyVal, magOf, ← pow2_natCast, ← pow2_add, hexp]
  exact Rat.one_mul _

/-- The bits of an overflow (spec/04 R97, R83). -/
theorem FmtOk.overflowResult_eq (hf : FmtOk f) (rm : RMode) (n : Bool) : overflowResult f rm n = overflowed f rm n := by
  cases ho : f.ocp
  · have hadd := hf.emax_add_bias
    have htop : topField f = 2 ^ f.ebits - 2 := by rw [topField, ho, if_neg Bool.false_ne_true]
    have hsig : fmtMaxSig f - 2 ^ f.fbits = 2 ^ f.fbits - 1 := by
      rw [fmtMaxSig, ho, if_neg Bool.false_ne_true, Nat.pow_succ]
      omega
    have hmax : ∀ n, fmtMax f n = fmtSign f n + ((2 ^ f.ebits - 1) * 2 ^ f.fbits - 1) := fun n => by
      have hone : 2 ^ f.ebits - 1 = (2 ^ f.ebits - 2) + 1 := by
        have := hf.two_pow_ebits
        have := hf.four_le
        omega
      have hpos := Nat.two_pow_pos f.fbits
      rw [fmtMax, hadd, htop, Int.toNat_natCast, hsig, hone, Nat.succ_mul]
      omega
    have hinf : ∀ n, fmtInf f n = fmtSign f n + (2 ^ f.ebits - 1) * 2 ^ f.fbits := fun n => by
      rw [fmtInf, ho, if_neg Bool.false_ne_true]
    simp only [overflowResult, overflowed, ho, Bool.false_eq_true, if_false, hmax, hinf]
    cases rm <;> cases n <;> rfl
  · rw [hf.ocp ho]
    cases n <;> cases rm <;> rfl

end Sys2Proof.Machine
end

section
/-! LEMMAS. The one rounding (spec/04 R97): what `roundExact` answers by the size of the rounded number, and that this is the number rounded
once, judged at an unbounded exponent range. -/

namespace Sys2Proof.Machine

open Sys2Proof.Claims

variable {f : FloatFmt}

/-! ### `roundExact` by cases -/

/-- The exponent of the leading digit of an exact value. -/
def leadExp (x : Exact) : Int := (x.mag.log2 : Int) + x.exp

/-- An exact value rounded to the full precision of a format, in units of its last digit. -/
def fullRound (f : FloatFmt) (rm : RMode) (x : Exact) : Nat × Bool :=
  roundMag rm x.neg x.mag x.sticky (leadExp x - f.fbits - x.exp)

/-- An exact value rounded to units of the subnormal numbers. -/
def leastRound (f : FloatFmt) (rm : RMode) (x : Exact) : Nat × Bool :=
  roundMag rm x.neg x.mag x.sticky (fmtEmin f - f.fbits - x.exp)

/-- A significand that rounding carried to the next power of two is halved. -/
def carried (f : FloatFmt) (q : Nat) (e : Int) : Nat × Int := if 2 ^ (f.fbits + 1) ≤ q then (q / 2, e + 1) else (q, e)

/-- The significand and the exponent of an exact value rounded with an unbounded exponent range. -/
def preciseSig (f : FloatFmt) (rm : RMode) (x : Exact) : Nat × Int := carried f (fullRound f rm x).1 (leadExp x)

/-- A significand at an exponent is larger than the format's numbers (spec/04 R97). -/
def Overflows (f : FloatFmt) (p : Nat × Int) : Prop := fmtEmax f < p.2 ∨ (p.2 = fmtEmax f ∧ fmtMaxSig f < p.1)

/-- The rounding of an exact value that is not 0, by the size of its significand and exponent. -/
theorem roundExact_cases (f : FloatFmt) (rm : RMode) {x : Exact} (hx : x.mag ≠ 0) :
    let p := preciseSig f rm x
    (p.2 < fmtEmin f → roundExact f rm x =
      ⟨fmtSign f x.neg + (leastRound f rm x).1, if (leastRound f rm x).2 then flagUF ||| flagNX else flagNone⟩) ∧
    (fmtEmin f ≤ p.2 → Overflows f p → roundExact f rm x = ⟨overflowResult f rm x.neg, flagOF ||| flagNX⟩) ∧
    (fmtEmin f ≤ p.2 → ¬ Overflows f p → roundExact f rm x =
      ⟨fmtSign f x.neg + (p.2 + fmtBias f).toNat * 2 ^ f.fbits + (p.1 - 2 ^ f.fbits), flagIf (fullRound f rm x).2 flagNX⟩) := by
  intro p
  have hnz : ¬ (x.mag = 0 ∧ ¬ x.sticky = true) := fun hz => hx hz.1
  have hfull : fullRound f rm x = roundMag rm x.neg x.mag x.sticky ((x.mag.log2 : Int) - f.fbits) := by
    rw [fullRound, leadExp, show (x.mag.log2 : Int) + x.exp - f.fbits - x.exp = x.mag.log2 - f.fbits by omega]
  have hp : p = (if decide (2 ^ (f.fbits + 1) ≤ (fullRound f rm x).1) then (fullRound f rm x).1 / 2 else (fullRound f rm x).1,
      (x.mag.log2 : Int) + x.exp + (if decide (2 ^ (f.fbits + 1) ≤ (fullRound f rm x).1) then 1 else 0)) := by
    by_cases hup : 2 ^ (f.fbits + 1) ≤ (fullRound f rm x).1
    · simp only [p, preciseSig, carried, leadExp, hup, decide_true, if_true]
    · simp only [p, preciseSig, carried, leadExp, hup, decide_false, if_false, Bool.false_eq_true, Int.add_zero]
  have heq : roundExact f rm x = if p.2 < fmtEmin f
      then ⟨fmtSign f x.neg + (leastRound f rm x).1, if (leastRound f rm x).2 then flagUF ||| flagNX else flagNone⟩
      else if fmtEmax f < p.2 ∨ (p.2 = fmtEmax f ∧ fmtMaxSig f < p.1) then ⟨overflowResult f rm x.neg, flagOF ||| flagNX⟩
      else ⟨fmtSign f x.neg + (p.2 + fmtBias f).toNat * 2 ^ f.fbits + (p.1 - 2 ^ f.fbits), flagIf (fullRound f rm x).2 flagNX⟩ := by
    unfold roundExact
    rw [hp, hfull]
    exact if_neg hnz
  exact ⟨fun h => heq.trans (if_pos h), fun h ho => heq.trans ((if_neg (Int.not_lt.mpr h)).trans (if_pos ho)),
    fun h ho => heq.trans ((if_neg (Int.not_lt.mpr h)).trans (if_neg ho))⟩

/-! ### Carrying -/

theorem fullSig_carried {q : Nat} (hlo : 2 ^ f.fbits ≤ q) (hhi : q ≤ 2 ^ (f.fbits + 1)) (e : Int) : FullSig f (carried f q e).1 := by
  have hpow : 2 ^ (f.fbits + 1) = 2 ^ f.fbits * 2 := Nat.pow_succ ..
  have hpos := Nat.two_pow_pos f.fbits
  unfold carried FullSig
  split
  · exact ⟨by dsimp only; omega, by dsimp only; omega⟩
  · exact ⟨hlo, by dsimp only; omega⟩

/-- Carrying keeps the number. -/
theorem magOf_carried {q : Nat} (hhi : q ≤ 2 ^ (f.fbits + 1)) (e : Int) : magOf f (carried f q e).1 (carried f q e).2 = magOf f q e := by
  unfold carried
  split
  · next hup =>
    obtain rfl : q = 2 * 2 ^ f.fbits := by rw [Nat.pow_succ'] at hhi hup; omega
    rw [magOf, magOf, Nat.mul_div_cancel_left _ Nat.two_pos, show e + 1 - f.fbits = e - f.fbits + 1 by omega, pow2_succ, Rat.natCast_mul]
    grind
  · rfl

theorem FmtOk.two_pow_even (hf : FmtOk f) : 2 ^ f.fbits % 2 = 0 := by
  obtain ⟨k, hk⟩ := Nat.exists_eq_add_of_le hf.fbits
  rw [hk, Nat.pow_add, Nat.pow_one, Nat.mul_mod_right]

theorem FmtOk.carried_even (hf : FmtOk f) {q : Nat} (hhi : q ≤ 2 ^ (f.fbits + 1)) (e : Int) (heven : q % 2 = 0) :
    (carried f q e).1 % 2 = 0 := by
  unfold carried
  split
  · next hup =>
    obtain rfl : q = 2 * 2 ^ f.fbits := by rw [Nat.pow_succ'] at hhi hup; omega
    rw [Nat.mul_div_cancel_left _ Nat.two_pos]
    exact hf.two_pow_even
  · exact heven

theorem le_carried (f : FloatFmt) (q : Nat) (e : Int) : e ≤ (carried f q e).2 := by
  unfold carried
  split <;> dsimp only <;> omega

/-! ### `roundExact` is the rounding -/

/-- An exact value, without its sign, stands for a point (spec/04 R78): it is not 0, and a sticky one has more digits than a significand
keeps. -/
structure Carries (f : FloatFmt) (x : Exact) (P : Point) : Prop where
  cut : Cut P
  stands : Stands x.mag x.exp x.sticky P
  nonzero : x.mag ≠ 0
  long : x.sticky = true → f.fbits < x.mag.log2

variable {x : Exact} {P : Point}

/-- The point lies from the leading digit on, before the next power of two. -/
theorem Carries.normalized (h : Carries f x P) :
    ¬ P.below ⟨(2 ^ f.fbits : Nat), leadExp x - f.fbits⟩ ∧ P.below ⟨(2 ^ (f.fbits + 1) : Nat), leadExp x - f.fbits⟩ := by
  have hval : ∀ k : Nat, dyVal ⟨(2 ^ (f.fbits + k) : Nat), leadExp x - f.fbits⟩ = (2 ^ (x.mag.log2 + k) : Nat) * pow2 x.exp := fun k => by
    rw [dyVal_nat, ← pow2_natCast, ← pow2_add, ← pow2_natCast, ← pow2_add, leadExp]
    congr 1
    omega
  refine ⟨h.cut.not_below_of_le (h.stands.not_below h.cut) ?_, h.stands.below_of_lt h.cut (hval 1) Nat.lt_log2_self⟩
  have hlow := hval 0
  rw [Nat.add_zero, Nat.add_zero] at hlow
  rw [hlow, dyVal_nat, natCast_mul_pow2_le_iff]
  exact Nat.log2_self_le h.nonzero

/-- In a unit of the precision or a larger one, the model's rounding of the magnitude is the rounding of the point. -/
theorem Carries.fullRound_units (h : Carries f x P) (rm : RMode) :
    UnitRound rm x.neg P (leadExp x - f.fbits) (fullRound f rm x).1 (fullRound f rm x).2 :=
  h.stands.roundMag_units h.cut rm x.neg fun hs => by have := h.long hs; rw [leadExp]; omega

theorem Carries.leastRound_units (h : Carries f x P) (rm : RMode) (he : leadExp x ≤ fmtEmin f) :
    UnitRound rm x.neg P (fmtEmin f - f.fbits) (leastRound f rm x).1 (leastRound f rm x).2 :=
  h.stands.roundMag_units h.cut rm x.neg fun hs => by have := h.long hs; rw [leadExp] at he; omega

theorem Carries.fullRound_bounds (h : Carries f x P) (rm : RMode) :
    2 ^ f.fbits ≤ (fullRound f rm x).1 ∧ (fullRound f rm x).1 ≤ 2 ^ (f.fbits + 1) :=
  (h.fullRound_units rm).bounds h.cut h.normalized.1 h.normalized.2

theorem Carries.fullSig_preciseSig (h : Carries f x P) (rm : RMode) : FullSig f (preciseSig f rm x).1 :=
  fullSig_carried (h.fullRound_bounds rm).1 (h.fullRound_bounds rm).2 _

theorem Carries.magOf_preciseSig (h : Carries f x P) (rm : RMode) : magOf f (preciseSig f rm x).1 (preciseSig f rm x).2 =
    (fullRound f rm x).1 * pow2 (leadExp x - f.fbits) := magOf_carried (h.fullRound_bounds rm).2 _

/-- The significand with its sign. -/
def preciseDy (f : FloatFmt) (rm : RMode) (x : Exact) : Machine.Dyadic :=
  dyOf x.neg (preciseSig f rm x).1 ((preciseSig f rm x).2 - f.fbits)

theorem Carries.dyVal_preciseDy (h : Carries f x P) (rm : RMode) :
    dyVal (preciseDy f rm x) = withSign x.neg ((fullRound f rm x).1 * pow2 (leadExp x - f.fbits)) := by
  rw [preciseDy, dyVal_dyOf, ← h.magOf_preciseSig rm, magOf]

theorem dyVal_dyAbs_preciseDy (f : FloatFmt) (rm : RMode) (x : Exact) :
    dyVal (dyAbs (preciseDy f rm x)) = magOf f (preciseSig f rm x).1 (preciseSig f rm x).2 := by
  rw [preciseDy, dyVal_dyAbs_dyOf, magOf]

/-- An exact value rounds into every set of numbers of the format's precision that holds its significand. -/
theorem Carries.roundedInto_preciseDy (h : Carries f x P) (hf : FmtOk f) (rm : RMode) {set even : Machine.Dyadic → Prop}
    (hset : ∀ z, set z → precise f z) (hy : set (preciseDy f rm x)) (heven : (preciseSig f rm x).1 % 2 = 0 → even (preciseDy f rm x)) :
    roundedInto set even rm (signPoint x.neg P) (preciseDy f rm x) :=
  roundedInto_signed h.cut (h.fullRound_units rm) hy (h.dyVal_preciseDy rm)
    (fun h0 => heven (hf.carried_even (h.fullRound_bounds rm).2 _ h0))
    (fun _ _ hb z hz => outside_of_precise (floor_ge h.cut h.normalized.1 hb) _ (hset z hz))

/-- The point is the rounded significand exactly if the rounding lost nothing. -/
theorem Carries.is_preciseDy_iff (h : Carries f x P) (rm : RMode) :
    (signPoint x.neg P).is (preciseDy f rm x) ↔ (fullRound f rm x).2 = false := by
  rw [(h.fullRound_units rm).inexact_iff, ← signPoint_is x.neg]
  have hval : dyVal (preciseDy f rm x) = dyVal (dyOf x.neg (fullRound f rm x).1 (leadExp x - f.fbits)) := by
    rw [h.dyVal_preciseDy, dyVal_dyOf]
  exact ⟨fun his => ((h.cut.sign x.neg).is_iff his _).mpr hval.symm, fun his => ((h.cut.sign x.neg).is_iff his _).mpr hval⟩

theorem Carries.roundExact_overflow (h : Carries f x P) (hf : FmtOk f) (rm : RMode) (ho : Overflows f (preciseSig f rm x)) :
    roundExact f rm x = ⟨overflowed f rm x.neg, flagOF ||| flagNX⟩ := by
  have hge : fmtEmin f ≤ (preciseSig f rm x).2 := by
    have hmin := hf.emin_le_emax
    unfold Overflows at ho
    omega
  rw [← hf.overflowResult_eq]
  exact (roundExact_cases f rm h.nonzero).2.1 hge ho

theorem FmtOk.fmtSign_even (hf : FmtOk f) (n : Bool) : fmtSign f n % 2 = 0 := by
  obtain ⟨k, hk⟩ := Nat.exists_eq_add_of_le (show 1 ≤ f.width - 1 by have := hf.width; have := hf.fbits; omega)
  rw [fmtSign_eq, hk, Nat.pow_add, Nat.pow_one, Nat.mul_left_comm, Nat.mul_mod_right]

/-- A result delivered as a finite number of the format: it is the number rounded into the format, with the flags `fl` if that lost
anything (spec/04 R97). -/
def Delivers (f : FloatFmt) (rm : RMode) (n : Bool) (P : Point) (fl : Flags) (r : FRes) : Prop :=
  r.bits < 2 ^ f.width ∧ ∃ m e, fdecode f r.bits = .fin n m e ∧
    roundedInto (encoded f (fun _ => True)) (encoded f (fun b => b % 2 = 0)) rm P (dyOf n m e) ∧
    (P.is (dyOf n m e) → r.flags = flagNone) ∧ (¬ P.is (dyOf n m e) → r.flags = fl)

/-- Below the normal numbers an exact value is rounded in units of the subnormal ones. -/
theorem Carries.delivers_tiny (h : Carries f x P) (hf : FmtOk f) (rm : RMode) (ht : (preciseSig f rm x).2 < fmtEmin f) :
    Delivers f rm x.neg (signPoint x.neg P) (flagUF ||| flagNX) (roundExact f rm x) := by
  have hlead : leadExp x ≤ (preciseSig f rm x).2 := le_carried ..
  have hunits := h.leastRound_units rm (by omega)
  have hzero : ¬ P.below ⟨(0 : Nat), fmtEmin f - f.fbits⟩ := h.cut.not_below_of_le (h.stands.not_below h.cut) (by
    rw [dyVal_nat, dyVal_nat, show ((0 : Nat) : Rat) = 0 from rfl, Rat.zero_mul]
    exact natCast_mul_pow2_nonneg ..)
  have hsmall : P.below ⟨(2 ^ f.fbits : Nat), fmtEmin f - f.fbits⟩ := h.cut.below_of_le h.normalized.2 (by
    rw [dyVal_nat, dyVal_nat, ← pow2_natCast, ← pow2_add, ← pow2_natCast, ← pow2_add,
      show ((f.fbits + 1 : Nat) : Int) + (leadExp x - f.fbits) = leadExp x + 1 by omega,
      show (f.fbits : Int) + (fmtEmin f - f.fbits) = fmtEmin f by omega, ← pow2_toNat (show leadExp x + 1 ≤ fmtEmin f by omega)]
    have hone : (1 : Rat) ≤ ((2 ^ (fmtEmin f - (leadExp x + 1)).toNat : Nat) : Rat) := by exact_mod_cast Nat.one_le_two_pow
    have hpos := pow2_pos (leadExp x + 1)
    have hmul := (mul_pow2_le_iff (leadExp x + 1)).mpr hone
    rwa [Rat.one_mul] at hmul)
  obtain ⟨hlt, hdec⟩ := hf.fdecode_subnormal x.neg (hunits.bounds h.cut hzero hsmall).2
  have heven : (leastRound f rm x).1 % 2 = 0 → (fmtSign f x.neg + (leastRound f rm x).1) % 2 = 0 := by
    have := hf.fmtSign_even x.neg
    omega
  have his : (signPoint x.neg P).is (dyOf x.neg (leastRound f rm x).1 (fmtEmin f - f.fbits)) ↔ (leastRound f rm x).2 = false := by
    rw [signPoint_is, hunits.inexact_iff]
  rw [(roundExact_cases f rm h.nonzero).1 ht]
  exact ⟨hlt, _, _, hdec, roundedInto_signed h.cut hunits (encoded_dyOf hlt trivial hdec) (dyVal_dyOf ..)
    (fun h0 => encoded_dyOf hlt (heven h0) hdec) (fun a _ _ z hz => hf.outside_of_encoded a hz),
    fun hw => if_neg (Bool.not_eq_true _ ▸ his.mp hw), fun hw => if_pos (Bool.not_eq_false _ ▸ mt his.mpr hw)⟩

theorem Carries.delivers_normal (h : Carries f x P) (hf : FmtOk f) (rm : RMode) (ht : fmtEmin f ≤ (preciseSig f rm x).2)
    (ho : ¬ Overflows f (preciseSig f rm x)) : Delivers f rm x.neg (signPoint x.neg P) flagNX (roundExact f rm x) := by
  obtain ⟨hlo, hhi⟩ := h.fullSig_preciseSig rm
  have hnot := ho
  rw [Overflows] at hnot
  obtain ⟨hlt, hdec⟩ := hf.fdecode_normal x.neg hlo hhi ht (by omega) (by omega)
  have heven : (preciseSig f rm x).1 % 2 = 0 →
      (fmtSign f x.neg + ((preciseSig f rm x).2 + fmtBias f).toNat * 2 ^ f.fbits + ((preciseSig f rm x).1 - 2 ^ f.fbits)) % 2 = 0 := by
    have hsign := hf.fmtSign_even x.neg
    have hpow := hf.two_pow_even
    have hex : ((preciseSig f rm x).2 + fmtBias f).toNat * 2 ^ f.fbits % 2 = 0 := by rw [Nat.mul_mod, hpow, Nat.mul_zero, Nat.zero_mod]
    omega
  have his := h.is_preciseDy_iff rm
  rw [(roundExact_cases f rm h.nonzero).2.2 ht ho]
  exact ⟨hlt, _, _, hdec, h.roundedInto_preciseDy hf rm (fun _ hz => hf.precise_of_encoded hz) (encoded_dyOf hlt trivial hdec)
    (fun h0 => encoded_dyOf hlt (heven h0) hdec), fun hw => if_neg (Bool.not_eq_true _ ▸ his.mp hw),
    fun hw => if_pos (Bool.not_eq_false _ ▸ mt his.mpr hw)⟩

/-- The rounding of an exact value is its number rounded (spec/04 R97). -/
theorem Carries.rounded_roundExact (h : Carries f x P) (hf : FmtOk f) (rm : RMode) :
    rounded f rm x.neg (signPoint x.neg P) (roundExact f rm x) := by
  have hsig := h.fullSig_preciseSig rm
  have hgreat : dyLt (greatest f) (dyAbs (preciseDy f rm x)) = true ↔ Overflows f (preciseSig f rm x) := by
    rw [dyLt_iff, dyVal_dyAbs_preciseDy, hf.dyVal_greatest, magOf_lt_iff hf.fullSig_maxSig hsig, Overflows, eq_comm (a := fmtEmax f)]
  have hleast : dyLt (dyAbs (preciseDy f rm x)) (leastNormal f) = true ↔ (preciseSig f rm x).2 < fmtEmin f := by
    have hlow := hsig.1
    rw [dyLt_iff, dyVal_dyAbs_preciseDy, dyVal_leastNormal, magOf_lt_iff hsig (fullSig_least f)]
    omega
  refine ⟨_, h.roundedInto_preciseDy hf rm (fun _ hz => hz) (precise_dyOf hsig.2 _ _) (fun heven => evenSig_dyOf hsig.1 hsig.2 heven _ _),
    fun hg => h.roundExact_overflow hf rm (hgreat.mp hg), fun hg => ?_⟩
  have ho : ¬ Overflows f (preciseSig f rm x) := fun ho => by rw [hgreat.mpr ho] at hg; cases hg
  by_cases ht : (preciseSig f rm x).2 < fmtEmin f
  · rw [hleast.mpr ht]
    exact h.delivers_tiny hf rm ht
  · rw [Bool.eq_false_iff.mpr (mt hleast.mp ht)]
    exact h.delivers_normal hf rm (Int.not_lt.mp ht) ho

end Sys2Proof.Machine
end

section
/-! LEMMAS. The exact values that the floating-point operations hand to the rounding (spec/07 R150): products of powers of two, quotients and
square roots with the digits that the rounding asks for. -/

namespace Sys2Proof.Machine

open Sys2Proof.Claims

variable {f : FloatFmt}

/-! ### Exact values -/

theorem stands_pointOf (m : Nat) (e : Int) : Stands m e false (pointOf ⟨m, e⟩) where
  below := (dyLt_iff _ _).mpr (by rw [dyVal_nat, dyVal_nat, natCast_mul_pow2_lt_iff]; exact Nat.lt_succ_self m)
  exact := fun _ => (pointOf_is _ _).mpr rfl
  more := fun h => nomatch h

theorem carries_fin (f : FloatFmt) (n : Bool) {m : Nat} (hm : m ≠ 0) (e : Int) : Carries f ⟨n, m, e, false⟩ (pointOf ⟨m, e⟩) :=
  ⟨cut_pointOf _, stands_pointOf m e, hm, fun h => nomatch h⟩

/-- A number that is not 0, given by its sign, significand and exponent, is rounded (spec/04 R97). -/
theorem FmtOk.rounded_fin (hf : FmtOk f) (rm : RMode) (n : Bool) {m : Nat} (hm : m ≠ 0) (e : Int) :
    rounded f rm n (pointOf (dyOf n m e)) (roundExact f rm ⟨n, m, e, false⟩) := by
  rw [pointOf_dyOf]
  exact (carries_fin f n hm e).rounded_roundExact hf rm

theorem FmtOk.rounded_dyExact (hf : FmtOk f) (rm : RMode) {d : Machine.Dyadic} (hd : d.m ≠ 0) :
    rounded f rm (decide (d.m < 0)) (pointOf d) (roundExact f rm (dyExact d)) := by
  have h := hf.rounded_fin rm (decide (d.m < 0)) (Int.natAbs_ne_zero.mpr hd) d.e
  rwa [dyOf_natAbs] at h

/-! ### Quotients -/

/-- The point that a positive multiple of which is `x`. -/
def dividedPoint (x : Point) (b : Machine.Dyadic) : Point := ⟨fun d => x.below (dyMul d b), fun d => x.above (dyMul d b)⟩

theorem dyVal_dyMul_le_iff {b : Machine.Dyadic} (hb : 0 < b.m) (c d : Machine.Dyadic) :
    dyVal (dyMul c b) ≤ dyVal (dyMul d b) ↔ dyVal c ≤ dyVal d := by
  rw [dyVal_dyMul, dyVal_dyMul, ← Rat.not_lt, ← Rat.not_lt, Rat.mul_lt_mul_right ((dyVal_pos_iff b).mpr hb)]

theorem Cut.divided {x : Point} (h : Cut x) {b : Machine.Dyadic} (hb : 0 < b.m) : Cut (dividedPoint x b) where
  above_of_le := fun ha hle => h.above_of_le ha ((dyVal_dyMul_le_iff hb _ _).mpr hle)
  below_of_le := fun ha hle => h.below_of_le ha ((dyVal_dyMul_le_iff hb _ _).mpr hle)
  lt := fun ha hd => Rat.not_le.mp fun hle => Rat.not_le.mpr (h.lt ha hd) ((dyVal_dyMul_le_iff hb _ _).mpr hle)
  le := fun hc hd => (dyVal_dyMul_le_iff hb _ _).mp (h.le hc hd)

theorem quotientOf_pos (a : Machine.Dyadic) {b : Machine.Dyadic} (hb : 0 < b.m) : quotientOf a b = dividedPoint (pointOf a) b := if_pos hb

theorem cut_quotientOf (a : Machine.Dyadic) {b : Machine.Dyadic} (hb : 0 < b.m) : Cut (quotientOf a b) := by
  rw [quotientOf_pos a hb]
  exact (cut_pointOf a).divided hb

theorem dyMul_dyNeg_left (a b : Machine.Dyadic) : dyMul (dyNeg a) b = dyNeg (dyMul a b) := by
  rw [dyMul, dyNeg, dyNeg, dyMul, Int.neg_mul]

theorem dyMul_dyNeg_right (a b : Machine.Dyadic) : dyMul a (dyNeg b) = dyNeg (dyMul a b) := by
  rw [dyMul, dyNeg, dyNeg, dyMul, Int.mul_neg]

/-- The negation of the dividend negates the quotient. -/
theorem dividedPoint_negPoint (x : Point) (b : Machine.Dyadic) : dividedPoint (negPoint x) b = negPoint (dividedPoint x b) := by
  simp only [dividedPoint, negPoint, dyMul_dyNeg_left]

/-- The negation of a positive divisor negates the quotient. -/
theorem quotientOf_dyNeg_right (a : Machine.Dyadic) {b : Machine.Dyadic} (hb : 0 < b.m) :
    quotientOf a (dyNeg b) = negPoint (quotientOf a b) := by
  have hneg : ¬ 0 < (dyNeg b).m := by
    show ¬ 0 < -b.m
    omega
  rw [quotientOf_pos a hb, quotientOf, if_neg hneg]
  simp only [dividedPoint, negPoint, pointOf, dyMul_dyNeg_left, dyMul_dyNeg_right]

theorem signPoint_xor (n k : Bool) (x : Point) : signPoint (xor n k) x = signPoint k (signPoint n x) := by
  cases n <;> cases k
  · rfl
  · rfl
  · rfl
  · exact (negPoint_negPoint x).symm

/-- A quotient is the quotient of the magnitudes with the product of the signs. -/
theorem quotientOf_dyOf (n n' : Bool) (m : Nat) {m' : Nat} (hm' : m' ≠ 0) (e e' : Int) :
    quotientOf (dyOf n m e) (dyOf n' m' e') = signPoint (xor n n') (quotientOf ⟨m, e⟩ ⟨m', e'⟩) := by
  have hpos : (0 : Int) < m' := by omega
  have hdividend : quotientOf (dyOf n m e) ⟨m', e'⟩ = signPoint n (quotientOf ⟨m, e⟩ ⟨m', e'⟩) := by
    rw [quotientOf_pos _ hpos, quotientOf_pos _ hpos, pointOf_dyOf]
    cases n
    · rfl
    · exact dividedPoint_negPoint ..
  rw [signPoint_xor, ← hdividend]
  cases n'
  · rfl
  · exact quotientOf_dyNeg_right (dyOf n m e) (b := ⟨m', e'⟩) hpos

/-- The quotient of two whole numbers, and whether it has more digits. -/
theorem stands_div {n k : Nat} (hk : k ≠ 0) {x : Point} {exp : Int}
    (hbelow : ∀ c : Nat, x.below ⟨c, exp⟩ ↔ n < c * k) (habove : ∀ c : Nat, x.above ⟨c, exp⟩ ↔ c * k < n) :
    Stands (n / k) exp (n % k != 0) x := by
  have hsplit := Nat.div_add_mod' n k
  have hlt := Nat.mod_lt n (Nat.pos_of_ne_zero hk)
  refine ⟨(hbelow _).mpr ?_, fun hs => ⟨mt (hbelow _).mp ?_, mt (habove _).mp ?_⟩, fun hs => (habove _).mpr ?_⟩
  · rw [Nat.add_mul, Nat.one_mul]
    omega
  · omega
  · have := bne_eq_false_iff_eq.mp hs
    omega
  · have := bne_iff_ne.mp hs
    omega

/-- The quotient of two magnitudes with `k` more digits of the dividend. -/
theorem stands_quotientOf (k ma : Nat) {mb : Nat} (hb : mb ≠ 0) (ea eb : Int) :
    Stands (ma <<< k / mb) (ea - eb - k) (ma <<< k % mb != 0) (quotientOf ⟨ma, ea⟩ ⟨mb, eb⟩) := by
  have hdividend : dyVal ⟨ma, ea⟩ = (ma <<< k : Nat) * pow2 (ea - k) := by
    rw [dyVal_nat, natCast_mul_pow2_of_le ma (show ea - k ≤ ea by omega), Nat.shiftLeft_eq, show (ea - (ea - k)).toNat = k by omega]
  have hmultiple : ∀ c : Nat, dyVal (dyMul ⟨c, ea - eb - k⟩ ⟨mb, eb⟩) = (c * mb : Nat) * pow2 (ea - k) := fun c => by
    rw [← dyVal_nat, dyMul, Int.natCast_mul, show ea - eb - k + eb = ea - k by omega]
  rw [quotientOf_pos _ (show (0 : Int) < mb by omega)]
  refine stands_div hb (fun c => (dyLt_iff _ _).trans ?_) (fun c => (dyLt_iff _ _).trans ?_)
  · rw [hdividend, hmultiple, natCast_mul_pow2_lt_iff]
  · rw [hdividend, hmultiple, natCast_mul_pow2_lt_iff]

theorem divExact_carries (n : Bool) {ma mb : Nat} (ha : ma ≠ 0) (hb : mb ≠ 0) (ea eb : Int) :
    Carries f (divExact n (f.fbits + 4) ma ea mb eb) (quotientOf ⟨ma, ea⟩ ⟨mb, eb⟩) := by
  have hlong : 2 ^ (f.fbits + 4) ≤ ma <<< (f.fbits + 4 + mb.log2 + 1) / mb := by
    rw [Nat.le_div_iff_mul_le (Nat.pos_of_ne_zero hb), Nat.shiftLeft_eq]
    calc 2 ^ (f.fbits + 4) * mb ≤ 2 ^ (f.fbits + 4) * 2 ^ (mb.log2 + 1) := Nat.mul_le_mul_left _ (Nat.le_of_lt Nat.lt_log2_self)
      _ = 2 ^ (f.fbits + 4 + mb.log2 + 1) := by rw [← Nat.pow_add, ← Nat.add_assoc]
      _ ≤ ma * 2 ^ (f.fbits + 4 + mb.log2 + 1) := Nat.le_mul_of_pos_left _ (Nat.pos_of_ne_zero ha)
  have hnz : ma <<< (f.fbits + 4 + mb.log2 + 1) / mb ≠ 0 := Nat.ne_of_gt (Nat.lt_of_lt_of_le (Nat.two_pow_pos _) hlong)
  exact ⟨cut_quotientOf _ (show (0 : Int) < mb by omega), stands_quotientOf _ ma hb ea eb, hnz,
    fun _ => Nat.lt_of_lt_of_le (show f.fbits < f.fbits + 4 by omega) ((Nat.le_log2 hnz).mpr hlong)⟩

/-! ### Integer square roots -/

/-- The bits of the root found so far, and what the bits to come can add. -/
theorem isqrtBits_spec (n k r : Nat) (hlo : r * r ≤ n) (hhi : n < (r + 2 ^ k) * (r + 2 ^ k)) :
    isqrtBits n k r * isqrtBits n k r ≤ n ∧ n < (isqrtBits n k r + 1) * (isqrtBits n k r + 1) := by
  induction k generalizing r with
  | zero => exact ⟨hlo, hhi⟩
  | succ k ih =>
    rw [isqrtBits]
    split
    · next hle => exact ih _ hle (by rwa [Nat.add_assoc, ← Nat.mul_two, ← Nat.pow_succ])
    · next hgt => exact ih _ hlo (Nat.not_le.mp hgt)

theorem isqrt_spec (n : Nat) : isqrt n * isqrt n ≤ n ∧ n < (isqrt n + 1) * (isqrt n + 1) := by
  refine isqrtBits_spec n _ 0 (Nat.zero_le n) ?_
  rw [Nat.zero_add, ← Nat.pow_add]
  exact Nat.lt_of_lt_of_le Nat.lt_log2_self (Nat.pow_le_pow_right Nat.two_pos (by omega))

theorem le_isqrt {a n : Nat} (h : a * a ≤ n) : a ≤ isqrt n := by
  obtain ⟨-, hlt⟩ := isqrt_spec n
  refine Nat.not_lt.mp fun hgt => Nat.not_le.mpr hlt (Nat.le_trans (Nat.mul_le_mul hgt hgt) h)

/-! ### Square roots -/

theorem mul_self_le_iff {u v : Rat} (hu : 0 ≤ u) (hv : 0 ≤ v) : u * u ≤ v * v ↔ u ≤ v := by
  constructor
  · intro h
    refine Rat.not_lt.mp fun hlt => Rat.not_le.mpr ?_ h
    have hle : v * v ≤ v * u := Rat.mul_le_mul_of_nonneg_left (Rat.le_of_lt hlt) hv
    have hpos : 0 < u := by grind
    have hmul : v * u < u * u := Rat.mul_lt_mul_of_pos_right hlt hpos
    grind
  · intro h
    have hle : u * u ≤ u * v := Rat.mul_le_mul_of_nonneg_left h hu
    have hle' : u * v ≤ v * v := Rat.mul_le_mul_of_nonneg_right h hv
    grind

section
variable {a : Machine.Dyadic}

theorem rootOf_below (a d : Machine.Dyadic) : (rootOf a).below d ↔ 0 < dyVal d ∧ dyVal a < dyVal d * dyVal d := by
  rw [dyVal_pos_iff, ← dyVal_dyMul, ← dyLt_iff]
  exact Iff.rfl

theorem rootOf_above (a d : Machine.Dyadic) : (rootOf a).above d ↔ dyVal d < 0 ∨ dyVal d * dyVal d < dyVal a := by
  rw [dyVal_neg_iff, ← dyVal_dyMul, ← dyLt_iff]
  exact Iff.rfl

/-- The squares of numbers that are not negative are in the order of the numbers. -/
theorem cut_rootOf (a : Machine.Dyadic) : Cut (rootOf a) where
  above_of_le := fun {c d} ha hle => by
    have hsq := @mul_self_le_iff (dyVal c) (dyVal d)
    rw [rootOf_above] at ha ⊢
    grind
  below_of_le := fun {c d} hb hle => by
    have hsq := @mul_self_le_iff (dyVal d) (dyVal c)
    rw [rootOf_below] at hb ⊢
    grind
  lt := fun {c d} ha hb => by
    have hsq := @mul_self_le_iff (dyVal d) (dyVal c)
    rw [rootOf_above] at ha
    rw [rootOf_below] at hb
    grind
  le := fun {c d} hc hd => by
    have hsq := @mul_self_le_iff (dyVal c) (dyVal d)
    rw [rootOf_below] at hc
    rw [rootOf_above] at hd
    grind

end

/-- The root of a whole number, and whether it has more digits. -/
theorem stands_isqrt {n : Nat} {a : Machine.Dyadic} {exp : Int} (ha : dyVal a = n * pow2 (exp + exp)) :
    Stands (isqrt n) exp (isqrt n * isqrt n != n) (rootOf a) := by
  obtain ⟨hle, hlt⟩ := isqrt_spec n
  have hsquare : ∀ c : Nat, dyVal ⟨c, exp⟩ * dyVal ⟨c, exp⟩ = (c * c : Nat) * pow2 (exp + exp) := fun c => by
    rw [← dyVal_dyMul, ← dyVal_nat, dyMul, Int.natCast_mul]
  have hnonneg : ∀ c : Nat, ¬ dyVal ⟨c, exp⟩ < 0 := fun c => by rw [dyVal_neg_iff]; exact Int.not_lt.mpr (Int.natCast_nonneg c)
  refine ⟨(rootOf_below ..).mpr ⟨?_, ?_⟩, fun hs => ⟨fun hb => ?_, fun hb => ?_⟩, fun hs => (rootOf_above ..).mpr (Or.inr ?_)⟩
  · rw [dyVal_pos_iff]
    show (0 : Int) < (isqrt n + 1 : Nat)
    omega
  · rw [ha, hsquare, natCast_mul_pow2_lt_iff]
    exact hlt
  · have := ((rootOf_below ..).mp hb).2
    rw [ha, hsquare, natCast_mul_pow2_lt_iff] at this
    omega
  · have := ((rootOf_above ..).mp hb).resolve_left (hnonneg _)
    rw [ha, hsquare, natCast_mul_pow2_lt_iff] at this
    have := bne_eq_false_iff_eq.mp hs
    omega
  · rw [ha, hsquare, natCast_mul_pow2_lt_iff]
    have := bne_iff_ne.mp hs
    omega

/-- The root is taken of a number with an even exponent. -/
theorem sqrtExact_even (keep : Nat) {m : Nat} (hm : m ≠ 0) (e : Int) : ∃ (m' : Nat) (e' : Int), m' ≠ 0 ∧
    (m : Rat) * pow2 e = m' * pow2 (e' + e') ∧ sqrtExact keep m e = ⟨false, isqrt (m' <<< (2 * keep)), e' - keep,
      isqrt (m' <<< (2 * keep)) * isqrt (m' <<< (2 * keep)) != m' <<< (2 * keep)⟩ := by
  by_cases hodd : e % 2 = 1
  · refine ⟨2 * m, e / 2, by omega, ?_, ?_⟩
    · rw [natCast_mul_pow2_of_le m (show e - 1 ≤ e by omega), show (e - (e - 1)).toNat = 1 by omega, Nat.pow_one, Nat.mul_comm,
        show e - 1 = e / 2 + e / 2 by omega]
    · have hb : (e % 2 == 1) = true := beq_iff_eq.mpr hodd
      simp only [sqrtExact, hb, if_true, show (e - 1) / 2 = e / 2 by omega]
  · refine ⟨m, e / 2, hm, by rw [show e / 2 + e / 2 = e by omega], ?_⟩
    have hb : (e % 2 == 1) = false := beq_eq_false_iff_ne.mpr hodd
    simp only [sqrtExact, hb, Bool.false_eq_true, if_false]

theorem sqrtExact_carries {m : Nat} (hm : m ≠ 0) (e : Int) : Carries f (sqrtExact (f.fbits + 4) m e) (rootOf ⟨m, e⟩) := by
  obtain ⟨m', e', hm', hval, heq⟩ := sqrtExact_even (f.fbits + 4) hm e
  generalize hkeep : f.fbits + 4 = keep at *
  have hlong : 2 ^ keep ≤ isqrt (m' <<< (2 * keep)) := by
    refine le_isqrt ?_
    rw [Nat.shiftLeft_eq, ← Nat.pow_add, ← Nat.two_mul]
    exact Nat.le_mul_of_pos_left _ (Nat.pos_of_ne_zero hm')
  have hnz : isqrt (m' <<< (2 * keep)) ≠ 0 := Nat.ne_of_gt (Nat.lt_of_lt_of_le (Nat.two_pow_pos _) hlong)
  rw [heq]
  refine ⟨cut_rootOf _, stands_isqrt ?_, hnz, fun _ => Nat.lt_of_lt_of_le (by omega) ((Nat.le_log2 hnz).mpr hlong)⟩
  rw [dyVal_nat, hval, natCast_mul_pow2_of_le m' (show e' - keep + (e' - keep) ≤ e' + e' by omega), Nat.shiftLeft_eq,
    show (e' + e' - (e' - keep + (e' - keep))).toNat = 2 * keep by omega]

end Sys2Proof.Machine
end

section
/-! LEMMAS. Floating-point results of finite operands (spec/07 R150, spec/04 R98): sums with their zero signs, products, quotients and
square roots. -/

namespace Sys2Proof.Machine

open Sys2Proof.Claims

variable {f : FloatFmt}

/-! ### Sums -/

theorem dyVal_zero : dyVal ⟨0, 0⟩ = 0 := Rat.zero_mul _

theorem dyVal_fdy_of_isZero {x : FVal} (h : isZero x = true) : dyVal (fdy x) = 0 := by
  cases x with
  | fin n m e =>
    have hm : m = 0 := beq_iff_eq.mp h
    rw [fdy, hm, dyVal_dyOf_zero]
  | nan _ => exact dyVal_zero
  | inf _ => exact dyVal_zero

/-- Zeros add nothing to a sum. -/
theorem dyVal_foldl_dyAdd_zeros {l : List FVal} (h : ∀ x ∈ l, isZero x = true) (d : Machine.Dyadic) :
    dyVal (l.foldl (fun d x => dyAdd d (fdy x)) d) = dyVal d := by
  induction l generalizing d with
  | nil => rfl
  | cons x xs ih =>
    rw [List.foldl_cons, ih (fun y hy => h y (List.mem_cons_of_mem x hy)), dyVal_dyAdd, dyVal_fdy_of_isZero (h x List.mem_cons_self),
      Rat.add_zero]

/-- The sign of a sum of zeros by the signs of its terms (spec/04 R98). -/
theorem zeroSumNeg_cases (rm : RMode) {l : List FVal} (hl : l ≠ []) :
    ((∀ x ∈ l, fneg x = true) → zeroSumNeg rm (l.map fneg) = true) ∧
    ((∀ x ∈ l, fneg x = false) → zeroSumNeg rm (l.map fneg) = false) ∧
    ((∃ x ∈ l, fneg x = true) → (∃ x ∈ l, fneg x = false) → zeroSumNeg rm (l.map fneg) = (rm == .rdn)) := by
  obtain ⟨y, hy⟩ := List.exists_mem_of_ne_nil l hl
  have hall : ((l.map fneg).all id = true) ↔ ∀ x ∈ l, fneg x = true := by
    simp only [List.all_eq_true, List.mem_map, forall_exists_index, and_imp, forall_apply_eq_imp_iff₂, id_eq]
  have hnone : ((l.map fneg).all (! ·) = true) ↔ ∀ x ∈ l, fneg x = false := by
    simp only [List.all_eq_true, List.mem_map, forall_exists_index, and_imp, forall_apply_eq_imp_iff₂, Bool.not_eq_true']
  refine ⟨fun h => ?_, fun h => ?_, fun ⟨a, ha, hat⟩ ⟨b, hb, hbf⟩ => ?_⟩
  · obtain ⟨x, xs, rfl⟩ := List.exists_cons_of_ne_nil hl
    rw [zeroSumNeg, if_pos (hall.mpr h)]
    rfl
  · rw [zeroSumNeg, if_neg (fun hc => Bool.noConfusion ((h y hy).symm.trans (hall.mp hc y hy))), if_pos (hnone.mpr h)]
  · rw [zeroSumNeg, if_neg (fun hc => Bool.noConfusion (hbf.symm.trans (hall.mp hc b hb))),
      if_neg (fun hc => Bool.noConfusion (hat.symm.trans (hnone.mp hc a ha)))]

/-- Two dyadics of the same value are one point. -/
theorem pointOf_congr {a b : Machine.Dyadic} (h : dyVal a = dyVal b) : pointOf a = pointOf b := by
  have hbelow : ∀ d, (dyLt a d = true) = (dyLt b d = true) := fun d => propext (by rw [dyLt_iff, dyLt_iff, h])
  have habove : ∀ d, (dyLt d a = true) = (dyLt d b = true) := fun d => propext (by rw [dyLt_iff, dyLt_iff, h])
  simp only [pointOf, hbelow, habove]

/-- The model's sum of finite values is their sum rounded once, with the zero signs of R98, whatever dyadic stands for the sum. -/
theorem FmtOk.roundedSum_of_sum (hf : FmtOk f) (rm : RMode) (l : List FVal) {d : Machine.Dyadic}
    (hsum : dyVal d = dyVal (l.foldl (fun d x => dyAdd d (fdy x)) ⟨0, 0⟩)) :
    roundedSum f rm l (if l.all isZero then ⟨fmtSign f (zeroSumNeg rm (l.map fneg)), flagNone⟩ else roundSum f rm d) := by
  have hzero : l.all isZero = true → dyVal d = 0 := fun h => by
    rw [hsum, dyVal_foldl_dyAdd_zeros (List.all_eq_true.mp h), dyVal_zero]
  refine ⟨fun hne => ?_, fun heq ⟨x, hx, hxz⟩ => ?_, fun hl hall => ?_⟩
  · have hdz : d.m ≠ 0 := by rwa [ne_eq, ← dyVal_eq_zero_iff, hsum, dyVal_eq_zero_iff]
    have hneg : ((l.foldl (fun d x => dyAdd d (fdy x)) ⟨0, 0⟩).m < 0) = (d.m < 0) := by
      rw [← dyVal_neg_iff, ← hsum, dyVal_neg_iff]
    simp only [hneg]
    rw [if_neg (fun h => hdz ((dyVal_eq_zero_iff d).mp (hzero h))), roundSum, if_neg hdz, ← pointOf_congr hsum]
    exact hf.rounded_dyExact rm hdz
  · have hdz : d.m = 0 := by rwa [← dyVal_eq_zero_iff, hsum, dyVal_eq_zero_iff]
    rw [if_neg (fun h => Bool.noConfusion (hxz.symm.trans (List.all_eq_true.mp h x hx))), roundSum, if_pos hdz]
    rfl
  · obtain ⟨hneg, hpos, hmixed⟩ := zeroSumNeg_cases rm hl
    rw [if_pos (List.all_eq_true.mpr hall)]
    exact ⟨fun h => by rw [hneg h]; rfl, fun h => by rw [hpos h]; rfl, fun h h' => by rw [hmixed h h']; rfl⟩

/-! ### Finite operands -/

/-- A value that is neither a NaN nor an infinity is finite. -/
theorem fin_of_not {x : FVal} (hn : isNan x = false) (hi : isInf x = false) : ∃ n m e, x = .fin n m e := by
  cases x with
  | nan s => cases hn
  | inf n => cases hi
  | fin n m e => exact ⟨n, m, e, rfl⟩

theorem dyNeg_dyOf (n : Bool) (m : Nat) (e : Int) : dyNeg (dyOf n m e) = dyOf (!n) m e := by
  cases n
  · rfl
  · exact dyNeg_dyNeg ⟨m, e⟩

/-- The product of two signed numbers. -/
theorem dyMul_dyOf (n n' : Bool) (m m' : Nat) (e e' : Int) :
    dyMul (dyOf n m e) (dyOf n' m' e') = dyOf (xor n n') (m * m') (e + e') := by
  have hpos : dyMul (dyOf false m e) (dyOf false m' e') = dyOf false (m * m') (e + e') := by
    simp only [dyMul, dyOf, Bool.false_eq_true, if_false, Int.natCast_mul]
  have hneg : ∀ m e, dyOf true m e = dyNeg (dyOf false m e) := fun m e => (dyNeg_dyOf false m e).symm
  cases n <;> cases n'
  · exact hpos
  · rw [hneg, dyMul_dyNeg_right, hpos, dyNeg_dyOf]
    rfl
  · rw [hneg, dyMul_dyNeg_left, hpos, dyNeg_dyOf]
    rfl
  · rw [hneg, hneg, dyMul_dyNeg_left, dyMul_dyNeg_right, dyNeg_dyNeg, hpos]
    rfl

theorem dyMul_natAbs (n n' : Bool) (m m' : Nat) (e e' : Int) : (dyMul (dyOf n m e) (dyOf n' m' e')).m.natAbs = m * m' := by
  rw [dyMul_dyOf, dyOf_m_natAbs]

/-- The sum of two values. -/
theorem dyVal_foldl_pair (x y : FVal) :
    dyVal ([x, y].foldl (fun d x => dyAdd d (fdy x)) ⟨0, 0⟩) = dyVal (fdy x) + dyVal (fdy y) := by
  rw [List.foldl_cons, List.foldl_cons, List.foldl_nil, dyVal_dyAdd, dyVal_dyAdd, dyVal_zero, Rat.zero_add]

/-- `FADD` of finite operands (spec/07 R150). -/
theorem FmtOk.faddVal_finite (hf : FmtOk f) (rm : RMode) (n n' : Bool) (m m' : Nat) (e e' : Int) :
    roundedSum f rm [.fin n m e, .fin n' m' e'] (faddVal f rm (.fin n m e) (.fin n' m' e')) := by
  have hval : faddVal f rm (.fin n m e) (.fin n' m' e') = if [FVal.fin n m e, .fin n' m' e'].all isZero then
      ⟨fmtSign f (zeroSumNeg rm ([FVal.fin n m e, .fin n' m' e'].map fneg)), flagNone⟩
      else roundSum f rm (dyAdd (dyOf n m e) (dyOf n' m' e')) := by
    simp only [List.all_cons, List.all_nil, Bool.and_true]
    rfl
  rw [hval]
  refine hf.roundedSum_of_sum rm _ ?_
  rw [dyVal_dyAdd, dyVal_foldl_pair, fdy, fdy]

/-- `FMA` of finite operands (spec/07 R150). -/
theorem FmtOk.fmaVal_finite (hf : FmtOk f) (rm : RMode) (n n' k : Bool) (m m' l : Nat) (e e' j : Int) :
    roundedSum f rm [.fin (xor n n') (m * m') (e + e'), .fin k l j] (fmaVal f rm (.fin n m e) (.fin n' m' e') (.fin k l j)) := by
  have hval : fmaVal f rm (.fin n m e) (.fin n' m' e') (.fin k l j) =
      if [FVal.fin (xor n n') (m * m') (e + e'), .fin k l j].all isZero then
        ⟨fmtSign f (zeroSumNeg rm ([FVal.fin (xor n n') (m * m') (e + e'), .fin k l j].map fneg)), flagNone⟩
      else roundSum f rm (dyAdd (dyMul (dyOf n m e) (dyOf n' m' e')) (dyOf k l j)) := by
    have hzero : isZero (.fin (xor n n') (m * m') (e + e')) = (isZero (.fin n m e) || isZero (.fin n' m' e')) := by
      rw [Bool.eq_iff_iff]
      simp only [isZero, beq_iff_eq, Bool.or_eq_true, Nat.mul_eq_zero]
    simp only [List.all_cons, List.all_nil, Bool.and_true, hzero, fmaVal, List.any_cons, List.any_nil, isSnan, isNan, isInf, Bool.or_false,
      Bool.and_false, Bool.false_and, Bool.false_eq_true, if_false]
    rfl
  rw [hval]
  refine hf.roundedSum_of_sum rm _ ?_
  rw [dyVal_dyAdd, dyVal_foldl_pair, fdy, fdy, dyMul_dyOf]

/-- `FMUL` and `FNMUL` of finite operands (spec/07 R150). -/
theorem fmulVal_finite (f : FloatFmt) (rm : RMode) (k n n' : Bool) (m m' : Nat) (e e' : Int) :
    fmulVal f rm k (.fin n m e) (.fin n' m' e') = roundExact f rm ⟨xor k (xor n n'), m * m', e + e', false⟩ := by
  rw [← dyMul_natAbs n n' m m' e e']
  simp only [fmulVal, nanRow, List.any_cons, List.any_nil, isSnan, isNan, isInf, Bool.false_and, Bool.and_false, Bool.or_false,
    Bool.false_eq_true, if_false]
  rfl

/-- A zero rounds to the zero of its sign. -/
theorem roundExact_zero (f : FloatFmt) (rm : RMode) (n : Bool) (e : Int) : roundExact f rm ⟨n, 0, e, false⟩ = ⟨fmtSign f n, flagNone⟩ := rfl

/-- `FDIV` of finite operands that are not 0 (spec/07 R150). -/
theorem FmtOk.fdivVal_finite (hf : FmtOk f) (rm : RMode) (n n' : Bool) {m m' : Nat} (hm : m ≠ 0) (hm' : m' ≠ 0) (e e' : Int) :
    rounded f rm (xor n n') (quotientOf (dyOf n m e) (dyOf n' m' e')) (fdivVal f rm (.fin n m e) (.fin n' m' e')) := by
  have hval : fdivVal f rm (.fin n m e) (.fin n' m' e') = roundExact f rm (divExact (xor n n') (f.fbits + 4) m e m' e') :=
    Eq.trans (if_neg hm') (if_neg hm)
  rw [hval, quotientOf_dyOf n n' m hm']
  exact (divExact_carries (xor n n') hm hm' e e').rounded_roundExact hf rm

/-- `FSQRT` of a positive finite operand (spec/07 R150). -/
theorem FmtOk.fsqrtVal_finite (hf : FmtOk f) (rm : RMode) {m : Nat} (hm : m ≠ 0) (e : Int) :
    rounded f rm false (rootOf (dyOf false m e)) (fsqrtVal f rm (.fin false m e)) := by
  have hval : fsqrtVal f rm (.fin false m e) = roundExact f rm (sqrtExact (f.fbits + 4) m e) :=
    Eq.trans (if_neg hm) (if_neg Bool.false_ne_true)
  rw [hval]
  exact (sqrtExact_carries hm e).rounded_roundExact hf rm

end Sys2Proof.Machine
end

section
/-! LEMMAS AND PROOF. Special operands of the floating-point operations (spec/07 R151), row by row. -/

namespace Sys2Proof.Machine

open Sys2Proof.Claims

variable {f : FloatFmt}

/-! ### Special operands -/

theorem isInf_iff {x : FVal} : isInf x = true ↔ ∃ n, x = .inf n := by cases x <;> simp [isInf]

theorem isZero_iff {x : FVal} : isZero x = true ↔ ∃ n e, x = .fin n 0 e := by cases x <;> simp [isZero]

theorem isFinNz_iff {x : FVal} : isFinNz x = true ↔ ∃ n m e, m ≠ 0 ∧ x = .fin n m e := by cases x <;> simp [isFinNz]

theorem isNan_of_isSnan {x : FVal} (h : isSnan x = true) : isNan x = true := by cases x <;> simp_all [isSnan, isNan]

/-- A value that is not a NaN is an infinity or finite. -/
theorem num_cases {x : FVal} (h : ¬ isNan x = true) : (∃ n, x = .inf n) ∨ ∃ n m e, x = .fin n m e := by
  cases x with
  | nan s => exact absurd rfl h
  | inf n => exact Or.inl ⟨n, rfl⟩
  | fin n m e => exact Or.inr ⟨n, m, e, rfl⟩

/-! The rows for NaNs (spec/07 R151). -/

theorem nanRow_snan {vs : List FVal} (h : vs.any isSnan = true) : nanRow f vs = some ⟨fmtNaN f, flagNV⟩ := if_pos h

theorem nanRow_nan {vs : List FVal} (hs : ¬ vs.any isSnan = true) (h : vs.any isNan = true) : nanRow f vs = some ⟨fmtNaN f, flagNone⟩ :=
  (if_neg hs).trans (if_pos h)

theorem faddVal_nanRow {x y : FVal} {r : FRes} (h : nanRow f [x, y] = some r) (rm : RMode) : faddVal f rm x y = r := by
  simp only [faddVal, h]

theorem fmulVal_nanRow {x y : FVal} {r : FRes} (h : nanRow f [x, y] = some r) (rm : RMode) (n : Bool) : fmulVal f rm n x y = r := by
  simp only [fmulVal, h]

theorem fdivVal_nanRow {x y : FVal} {r : FRes} (h : nanRow f [x, y] = some r) (rm : RMode) : fdivVal f rm x y = r := by
  simp only [fdivVal, h]

theorem fsqrtVal_nanRow {x : FVal} {r : FRes} (h : nanRow f [x] = some r) (rm : RMode) : fsqrtVal f rm x = r := by
  simp only [fsqrtVal, h]

/-! Sums of infinities. -/

theorem faddVal_inf_inf (f : FloatFmt) (rm : RMode) (n n' : Bool) :
    faddVal f rm (.inf n) (.inf n') = if n = n' then ⟨fmtInf f n, flagNone⟩ else ⟨fmtNaN f, flagNV⟩ := rfl

theorem faddVal_inf_left (rm : RMode) (n : Bool) {y : FVal} (hy : ¬ isNan y = true) (h : isInf y = true → n = fneg y) :
    faddVal f rm (.inf n) y = ⟨fmtInf f n, flagNone⟩ := by
  obtain ⟨n', rfl⟩ | ⟨n', m, e, rfl⟩ := num_cases hy
  · exact if_pos (h rfl)
  · rfl

theorem faddVal_inf_right (rm : RMode) (n : Bool) {y : FVal} (hy : ¬ isNan y = true) (h : isInf y = true → n = fneg y) :
    faddVal f rm y (.inf n) = ⟨fmtInf f n, flagNone⟩ := by
  obtain ⟨n', rfl⟩ | ⟨n', m, e, rfl⟩ := num_cases hy
  · obtain rfl : n = n' := h rfl
    exact if_pos rfl
  · rfl

/-! Products with infinities. -/

/-- A product of a zero and an infinity. -/
def ZeroTimesInf (x y : FVal) : Prop := isZero x = true ∧ isInf y = true ∨ isInf x = true ∧ isZero y = true

theorem zeroTimesInf_iff (x y : FVal) : (isInf x && isZero y || isZero x && isInf y) = true ↔ ZeroTimesInf x y := by
  simp only [Bool.or_eq_true, Bool.and_eq_true, ZeroTimesInf]
  exact or_comm

theorem ZeroTimesInf.nanRow {x y : FVal} (h : ZeroTimesInf x y) : nanRow f [x, y] = none := by
  obtain ⟨hx, hy⟩ | ⟨hx, hy⟩ := h
  · obtain ⟨n, e, rfl⟩ := isZero_iff.mp hx
    obtain ⟨n', rfl⟩ := isInf_iff.mp hy
    rfl
  · obtain ⟨n, rfl⟩ := isInf_iff.mp hx
    obtain ⟨n', e, rfl⟩ := isZero_iff.mp hy
    rfl

theorem nanRow_num {x y : FVal} (hx : ¬ isNan x = true) (hy : ¬ isNan y = true) : nanRow f [x, y] = none := by
  obtain ⟨n, rfl⟩ | ⟨n, m, e, rfl⟩ := num_cases hx <;> obtain ⟨n', rfl⟩ | ⟨n', m', e', rfl⟩ := num_cases hy <;> rfl

theorem fmulVal_zeroTimesInf (rm : RMode) (n : Bool) {x y : FVal} (h : ZeroTimesInf x y) : fmulVal f rm n x y = ⟨fmtNaN f, flagNV⟩ := by
  simp only [fmulVal, h.nanRow, (zeroTimesInf_iff x y).mpr h, if_true, nanRes]

theorem fmulVal_inf (rm : RMode) (n : Bool) {x y : FVal} (hx : ¬ isNan x = true) (hy : ¬ isNan y = true)
    (h : isInf x = true ∨ isInf y = true) (hz : ¬ ZeroTimesInf x y) :
    fmulVal f rm n x y = ⟨fmtInf f (xor n (xor (fneg x) (fneg y))), flagNone⟩ := by
  simp only [fmulVal, nanRow_num hx hy, if_neg (mt (zeroTimesInf_iff x y).mp hz), (Bool.or_eq_true _ _).mpr h, if_true]

/-! Fused sums. -/

theorem fmaVal_snan (rm : RMode) {x y z : FVal} (h : isSnan x = true ∨ isSnan y = true ∨ isSnan z = true) :
    fmaVal f rm x y z = ⟨fmtNaN f, flagNV⟩ := if_pos (by simpa using h)

theorem fmaVal_zeroTimesInf (rm : RMode) {x y : FVal} (z : FVal) (h : ZeroTimesInf x y) : fmaVal f rm x y z = ⟨fmtNaN f, flagNV⟩ := by
  simp only [fmaVal, (zeroTimesInf_iff x y).mpr h, if_true, ite_self, nanRes]

theorem fmaVal_nan (rm : RMode) {x y z : FVal} (hs : ¬ (isSnan x = true ∨ isSnan y = true ∨ isSnan z = true)) (hz : ¬ ZeroTimesInf x y)
    (h : isNan x = true ∨ isNan y = true ∨ isNan z = true) : fmaVal f rm x y z = ⟨fmtNaN f, flagNone⟩ := by
  have hsnan : ¬ [x, y, z].any isSnan = true := by simpa using hs
  have hnan : [x, y, z].any isNan = true := by simpa using h
  rw [fmaVal, if_neg hsnan, if_neg (mt (zeroTimesInf_iff x y).mp hz), if_pos hnan, nanRes]

/-- `FMA` of values that are not NaNs, an infinity among them (spec/07 R151). -/
theorem fmaVal_inf (rm : RMode) {x y z : FVal} (hx : ¬ isNan x = true) (hy : ¬ isNan y = true) (hz : ¬ isNan z = true)
    (hzt : ¬ ZeroTimesInf x y) :
    ((isInf x = true ∨ isInf y = true) → fmaVal f rm x y z =
      if isInf z && fneg z != xor (fneg x) (fneg y) then ⟨fmtNaN f, flagNV⟩ else ⟨fmtInf f (xor (fneg x) (fneg y)), flagNone⟩) ∧
    (¬ (isInf x = true ∨ isInf y = true) → isInf z = true → fmaVal f rm x y z = ⟨fmtInf f (fneg z), flagNone⟩) := by
  have hsnan : ¬ [x, y, z].any isSnan = true := by
    simp [mt isNan_of_isSnan hx, mt isNan_of_isSnan hy, mt isNan_of_isSnan hz]
  have hnan : ¬ [x, y, z].any isNan = true := by simp [hx, hy, hz]
  rw [fmaVal, if_neg hsnan, if_neg (mt (zeroTimesInf_iff x y).mp hzt), if_neg hnan, ← Bool.or_eq_true]
  exact ⟨fun h => if_pos h, fun h hi => (if_neg h).trans (if_pos hi)⟩

/-! Quotients and roots. -/

theorem fdivVal_zero_zero (rm : RMode) {x y : FVal} (hx : isZero x = true) (hy : isZero y = true) :
    fdivVal f rm x y = ⟨fmtNaN f, flagNV⟩ := by
  obtain ⟨n, e, rfl⟩ := isZero_iff.mp hx
  obtain ⟨n', e', rfl⟩ := isZero_iff.mp hy
  rfl

theorem fdivVal_inf_inf (rm : RMode) {x y : FVal} (hx : isInf x = true) (hy : isInf y = true) :
    fdivVal f rm x y = ⟨fmtNaN f, flagNV⟩ := by
  obtain ⟨n, rfl⟩ := isInf_iff.mp hx
  obtain ⟨n', rfl⟩ := isInf_iff.mp hy
  rfl

theorem fdivVal_by_zero (rm : RMode) {x y : FVal} (hx : isFinNz x = true) (hy : isZero y = true) :
    fdivVal f rm x y = ⟨fmtInf f (xor (fneg x) (fneg y)), flagDZ⟩ := by
  obtain ⟨n, m, e, hm, rfl⟩ := isFinNz_iff.mp hx
  obtain ⟨n', e', rfl⟩ := isZero_iff.mp hy
  exact if_neg hm

theorem fdivVal_inf_left (rm : RMode) {x y : FVal} (hx : isInf x = true) (hy : ¬ isNan y = true) (hyi : ¬ isInf y = true) :
    fdivVal f rm x y = ⟨fmtInf f (xor (fneg x) (fneg y)), flagNone⟩ := by
  obtain ⟨n, rfl⟩ := isInf_iff.mp hx
  obtain ⟨n', rfl⟩ | ⟨n', m', e', rfl⟩ := num_cases hy
  · exact absurd rfl hyi
  · rfl

theorem fdivVal_inf_right (rm : RMode) {x y : FVal} (hx : ¬ isNan x = true) (hxi : ¬ isInf x = true) (hy : isInf y = true) :
    fdivVal f rm x y = ⟨fmtSign f (xor (fneg x) (fneg y)), flagNone⟩ := by
  obtain ⟨n', rfl⟩ := isInf_iff.mp hy
  obtain ⟨n, rfl⟩ | ⟨n, m, e, rfl⟩ := num_cases hx
  · exact absurd rfl hxi
  · rfl

theorem fsqrtVal_negative (rm : RMode) {x : FVal} (hx : isFinNz x = true ∨ isInf x = true) (hn : fneg x = true) :
    fsqrtVal f rm x = ⟨fmtNaN f, flagNV⟩ := by
  obtain hx | hx := hx
  · obtain ⟨n, m, e, hm, rfl⟩ := isFinNz_iff.mp hx
    exact (if_neg hm).trans (if_pos hn)
  · obtain ⟨n, rfl⟩ := isInf_iff.mp hx
    exact if_pos hn

theorem fsqrtVal_inf (rm : RMode) {x : FVal} (hx : isInf x = true) (hn : ¬ fneg x = true) : fsqrtVal f rm x = ⟨fmtInf f false, flagNone⟩ := by
  obtain ⟨n, rfl⟩ := isInf_iff.mp hx
  exact if_neg hn

theorem fsqrtVal_zero (rm : RMode) {x : FVal} (hx : isZero x = true) : fsqrtVal f rm x = ⟨fmtSign f (fneg x), flagNone⟩ := by
  obtain ⟨n, e, rfl⟩ := isZero_iff.mp hx
  rfl

/-- The formats of the arithmetic instructions are formats that results are rounded into. -/
theorem fmtOk_of_arith {f : FloatFmt} (h : f ∈ [fmt32, fmt64, fmt16, fmtB16]) : FmtOk f :=
  fmtOk_of_mem ((by decide : [fmt32, fmt64, fmt16, fmtB16] ⊆ fpFormats) h)

/-- The exact product, and its negation if `k`, as a signed magnitude. -/
theorem dyOf_product (k n n' : Bool) (m m' : Nat) (e e' : Int) :
    (if k then dyNeg (dyMul (dyOf n m e) (dyOf n' m' e')) else dyMul (dyOf n m e) (dyOf n' m' e')) =
      dyOf (xor k (xor n n')) (m * m') (e + e') := by
  cases k
  · rw [if_neg Bool.false_ne_true, dyMul_dyOf, Bool.false_xor]
  · rw [if_pos rfl, dyMul_dyOf, dyNeg_dyOf, Bool.true_xor]

/-- The finite rows: each result is the exact number rounded once. -/
theorem finite_rounded (hf : FmtOk f) (rm : RMode) (nx ny nz : Bool) (mx my mz : Nat) (ex ey ez : Int) :
    let x := FVal.fin nx mx ex
    let y := FVal.fin ny my ey
    let z := FVal.fin nz mz ez
    let sign := xor nx ny
    let times := dyMul (fdy x) (fdy y)
    let product := FVal.fin sign times.m.natAbs times.e
    roundedSum f rm [x, y] (faddVal f rm x y) ∧ roundedSum f rm [product, z] (fmaVal f rm x y z) ∧
    (∀ n : Bool, let r := fmulVal f rm n x y
      (times.m ≠ 0 → rounded f rm (xor n sign) (pointOf (if n then dyNeg times else times)) r) ∧
      (times.m = 0 → r = ⟨fmtSign f (xor n sign), flagNone⟩)) ∧
    (isZero y = false → (isZero x = false → rounded f rm sign (quotientOf (fdy x) (fdy y)) (fdivVal f rm x y)) ∧
      (isZero x = true → fdivVal f rm x y = ⟨fmtSign f sign, flagNone⟩)) ∧
    (isZero x = false → nx = false → rounded f rm false (rootOf (fdy x)) (fsqrtVal f rm x)) := by
  intro x y z sign times product
  have hproduct : product = .fin sign (mx * my) (ex + ey) := congrArg (FVal.fin sign · (ex + ey)) (dyMul_natAbs ..)
  have htimes : times.m = 0 ↔ mx * my = 0 := by rw [← Int.natAbs_eq_zero, ← dyMul_natAbs nx ny mx my ex ey]; rfl
  refine ⟨hf.faddVal_finite .., hproduct ▸ hf.fmaVal_finite .., fun n => ?_, fun hy => ?_, fun hx hneg => ?_⟩
  · intro r
    have hr : r = roundExact f rm ⟨xor n sign, mx * my, ex + ey, false⟩ := fmulVal_finite ..
    rw [hr]
    refine ⟨fun h => ?_, fun h => ?_⟩
    · have hpoint := hf.rounded_fin rm (xor n sign) (mt htimes.mpr h) (ex + ey)
      rwa [← dyOf_product n nx ny mx my ex ey] at hpoint
    · rw [htimes.mp h, roundExact_zero]
  · have hmy : my ≠ 0 := beq_eq_false_iff_ne.mp hy
    refine ⟨fun hx => hf.fdivVal_finite rm nx ny (beq_eq_false_iff_ne.mp hx) hmy ex ey, fun hx => ?_⟩
    exact (if_neg hmy).trans (if_pos (beq_iff_eq.mp hx))
  · subst hneg
    exact hf.fsqrtVal_finite rm (beq_eq_false_iff_ne.mp hx) ex

/-- Settles O7: finite results through the one rounding of the exact number, special operands row by row. -/
theorem floatingValuesAreRoundedOnce : Obligations.FloatingValuesAreRoundedOnce := by
  unfold Obligations.FloatingValuesAreRoundedOnce
  refine ⟨fun f rm x y z hf hfin => ?_, fun f rm n x y z => ?_⟩
  · obtain ⟨nx, mx, ex, rfl⟩ := fin_of_not (hfin x (by simp)).1 (hfin x (by simp)).2
    obtain ⟨ny, my, ey, rfl⟩ := fin_of_not (hfin y (by simp)).1 (hfin y (by simp)).2
    obtain ⟨nz, mz, ez, rfl⟩ := fin_of_not (hfin z (by simp)).1 (hfin z (by simp)).2
    exact finite_rounded (fmtOk_of_arith hf) rm nx ny nz mx my mz ex ey ez
  · have hsnan : isSnan x = true ∨ isSnan y = true → nanRow f [x, y] = some ⟨fmtNaN f, flagNV⟩ := fun h => nanRow_snan (by simpa using h)
    have hnan : ¬ isSnan x = true → ¬ isSnan y = true → isNan x = true ∨ isNan y = true → nanRow f [x, y] = some ⟨fmtNaN f, flagNone⟩ :=
      fun hx hy h => nanRow_nan (by simp [hx, hy]) (by simpa using h)
    refine ⟨fun h => ⟨faddVal_nanRow (hsnan h) rm, fmulVal_nanRow (hsnan h) rm n, fdivVal_nanRow (hsnan h) rm⟩,
      fun h => fsqrtVal_nanRow (nanRow_snan (by simpa using h)) rm, fmaVal_snan rm, fmaVal_zeroTimesInf rm z,
      fun hx hy h => ⟨faddVal_nanRow (hnan hx hy h) rm, fmulVal_nanRow (hnan hx hy h) rm n, fdivVal_nanRow (hnan hx hy h) rm⟩,
      fun hs h => fsqrtVal_nanRow (nanRow_nan (by simpa using hs) (by simpa using h)) rm,
      fun hx hy hz hzt h => fmaVal_nan rm (by simp [hx, hy, hz]) hzt h, fun hx hy hne => ?_, fun hx hy hzt h hz hne => ?_,
      fmulVal_zeroTimesInf rm n, fun h => h.elim (fun h => fdivVal_zero_zero rm h.1 h.2) (fun h => fdivVal_inf_inf rm h.1 h.2),
      fsqrtVal_negative rm, fdivVal_by_zero rm, fun hx hy h => ?_, fmulVal_inf rm n, fun hx hy hz h hzt hsame => ?_,
      fun hx hy hxi hyi hz => ?_, fdivVal_inf_left rm, fdivVal_inf_right rm, fsqrtVal_inf rm, fsqrtVal_zero rm⟩
    · obtain ⟨a, rfl⟩ := isInf_iff.mp hx
      obtain ⟨b, rfl⟩ := isInf_iff.mp hy
      rw [faddVal_inf_inf]
      exact if_neg hne
    · have hnum : ¬ isNan z = true := by obtain ⟨a, rfl⟩ := isInf_iff.mp hz; exact Bool.false_ne_true
      refine ((fmaVal_inf rm hx hy hnum hzt).1 h).trans (if_pos ?_)
      simpa [hz] using hne
    · obtain ⟨a, rfl⟩ := isInf_iff.mp hx
      exact ⟨faddVal_inf_left rm a hy h, faddVal_inf_right rm a hy h⟩
    · refine ((fmaVal_inf rm hx hy hz hzt).1 h).trans (if_neg ?_)
      simpa using hsame
    · have hnum : ¬ isNan z = true := by obtain ⟨a, rfl⟩ := isInf_iff.mp hz; exact Bool.false_ne_true
      have hzt : ¬ ZeroTimesInf x y := fun h => h.elim (fun h => hyi h.2) (fun h => hxi h.1)
      exact (fmaVal_inf rm hx hy hnum hzt).2 (fun h => h.elim hxi hyi) hz

end Sys2Proof.Machine
end

section
/-! LEMMAS. Lane-wise floating-point bundles of an idle gang (spec/04 R101, spec/07 R145): the lanes read the registers as they are, and the
results are packed and written. -/

namespace Sys2Proof.Machine

open Sys2Proof.Claims

/-! ### Frames -/

/-- A lane-wise bundle of an idle gang is known by what its lanes do with nothing in flight. -/
theorem laneOp_lanes {s : State} {g : Gang} {p : Path} (e : Executes s g p) (m : Bool) (rd wr : List Nat) {f : Gang → Thread → LaneOut}
    {k : Thread → LaneOut} (hk : ∀ t : Thread, t.inflight = [] → f g t = k t) :
    laneOp m rd wr f s =
      lanesOnward s g (fun t => laneThread t (k t)) (orFlags ((activeThreads s g).map (fun t => (k t).fl))) := by
  have hact : ∀ t ∈ activeThreads s g, f g t = k t := fun t ht => hk t (e.idle.flight t (threads_mem_active ht))
  have hflags : (activeThreads s g).map (fun t => (f g t).fl) = (activeThreads s g).map (fun t => (k t).fl) :=
    List.map_congr_left fun t ht => by rw [hact t ht]
  rw [laneOp_idle e, hflags]
  exact lanesOnward_congr (fun t ht => by rw [hact t ht]) _

theorem readFp_idle {t : Thread} (h : t.inflight = []) (c : Nat) (ty : FpType) (k r : Nat) : readFp c t ty k r = fpBits ty t r := by
  cases ty <;> simp [readFp, fpBits, fpWide, readV_idle h, readVPair_idle h]

/-- A floating-point result written lane by lane: what each active thread takes is what `fpOnward` says. -/
def fpLanesOut (ty : FpType) (d : Nat) (r : Nat → FRes) : LaneOut :=
  ⟨regWrites (fpWide ty) d (packLanes (typeFmt ty).width ((rangeFrom 0 (fpLanes ty)).map (fun j => (r j).bits))), [],
    orFlags ((rangeFrom 0 (fpLanes ty)).map (fun j => (r j).flags))⟩

theorem fpWide_eq (ty : FpType) : fpWide ty = decide (ty = .f64) := by cases ty <;> rfl

/-- A bundle whose lanes give such results. -/
theorem laneOp_fp {s : State} {g : Gang} {p : Path} (e : Executes s g p) (m : Bool) (rd wr : List Nat) {f : Gang → Thread → LaneOut}
    (ty : FpType) (d : Nat) {r : Thread → Nat → FRes} (hf : ∀ t : Thread, t.inflight = [] → f g t = fpLanesOut ty d (r t)) :
    laneOp m rd wr f s = fpOnward s g ty d r := by
  rw [laneOp_lanes e m rd wr hf, fpOnward]
  simp only [fpLanesOut, fpWide_eq]
  rfl

theorem fpOp2_idle {s : State} {g : Gang} {p : Path} (e : Executes s g p) (m : Bool) (ty : FpType) (b a d : Nat)
    (f : FloatFmt → RMode → Nat → Nat → FRes) : fpOp2 m ty b a d f s =
      fpOnward s g ty d (fun t j => f (typeFmt ty) (curRM s g) (fpLane ty t a j) (fpLane ty t b j)) :=
  laneOp_fp e m _ _ ty d fun t ht => by
    simp only [readFp_idle ht, List.map_map, fpLanesOut]
    rfl

theorem fpOp1_idle {s : State} {g : Gang} {p : Path} (e : Executes s g p) (m : Bool) (ty : FpType) (a d : Nat)
    (f : FloatFmt → RMode → Nat → FRes) : fpOp1 m ty a d f s =
      fpOnward s g ty d (fun t j => f (typeFmt ty) (curRM s g) (fpLane ty t a j)) :=
  laneOp_fp e m _ _ ty d fun t ht => by
    simp only [readFp_idle ht, mapLanes, List.map_map, fpLanesOut]
    rfl

/-! ### Minima, signs, classes and comparisons -/

theorem exec_fmin {s : State} {g : Gang} {p : Path} (e : Executes s g p) (ty : FpType) (b a d : BitVec 7) (m : Bool) :
    exec (.fmin ty b a d m) s = .next (fpOnward s g ty d.toNat (fun t j =>
      fminmaxBits (typeFmt ty) false (fpLane ty t a.toNat j) (fpLane ty t b.toNat j))) :=
  congrArg Host.Outcome.next (fpOp2_idle e m ty _ _ _ _)

theorem exec_fmax {s : State} {g : Gang} {p : Path} (e : Executes s g p) (ty : FpType) (b a d : BitVec 7) (m : Bool) :
    exec (.fmax ty b a d m) s = .next (fpOnward s g ty d.toNat (fun t j =>
      fminmaxBits (typeFmt ty) true (fpLane ty t a.toNat j) (fpLane ty t b.toNat j))) :=
  congrArg Host.Outcome.next (fpOp2_idle e m ty _ _ _ _)

theorem laneOf_lt (w j n : Nat) : laneOf w j n < 2 ^ w := Nat.mod_lt _ (Nat.two_pow_pos w)

/-- The top bit of a lane, in its place. -/
theorem fsgnBits_eq {f : FloatFmt} (hw : f.width ≠ 0) (x : Nat) {y : Nat} (hy : y < 2 ^ f.width) :
    fsgnBits f x y = x % 2 ^ (f.width - 1) + y / 2 ^ (f.width - 1) * 2 ^ (f.width - 1) := by
  have hpow : 2 ^ f.width = 2 ^ (f.width - 1) * 2 := by rw [← Nat.pow_succ, Nat.succ_eq_add_one, Nat.sub_one_add_one hw]
  have htop : y / 2 ^ (f.width - 1) < 2 := Nat.div_lt_of_lt_mul (hpow ▸ hy)
  rw [fsgnBits, bitOf, Nat.shiftRight_eq_div_pow, Nat.mod_eq_of_lt htop]
  obtain h | h := Nat.le_one_iff_eq_zero_or_eq_one.mp (Nat.lt_succ_iff.mp htop)
  all_goals rw [h]; rfl

theorem exec_fsgn {s : State} {g : Gang} {p : Path} (e : Executes s g p) (ty : FpType) (b a d : BitVec 7) (m : Bool) :
    let w := (typeFmt ty).width
    exec (.fsgn ty b a d m) s = .next (fpOnward s g ty d.toNat (fun t j =>
      ⟨fpLane ty t a.toNat j % 2 ^ (w - 1) + fpLane ty t b.toNat j / 2 ^ (w - 1) * 2 ^ (w - 1), flagNone⟩)) := by
  have hw : (typeFmt ty).width ≠ 0 := by cases ty <;> decide
  refine congrArg Host.Outcome.next ((fpOp2_idle e m ty _ _ _ _).trans ?_)
  exact congrArg (fpOnward s g ty d.toNat) (funext fun t => funext fun j =>
    congrArg (FRes.mk · flagNone) (fsgnBits_eq hw _ (laneOf_lt _ j _)))

theorem exec_fclass {s : State} {g : Gang} {p : Path} (e : Executes s g p) (ty : FpType) (a d : BitVec 7) (m : Bool) :
    exec (.fclass ty a d m) s = .next (lanesOnward s g (fun t => writeV t d.toNat
      (toWord (packLanes 16 ((rangeFrom 0 (fpLanes ty)).map (fun j => fclassMask (typeFmt ty) (fpLane ty t a.toNat j)))))) flagNone) :=
  congrArg Host.Outcome.next (laneOp_writesWord e m _ _ fun t ht => by
    simp only [readFp_idle ht]
    rfl)

/-- A register's only FP32 lane is the register. -/
theorem fpLane_f32 (t : Thread) (r : Nat) : fpLane .f32 t r 0 = (vreg t r).toNat := Nat.mod_eq_of_lt (vreg t r).isLt

/-- A short form writes the one lane of its register (spec/02 R40). -/
theorem fpShort_idle {s : State} {g : Gang} {p : Path} (e : Executes s g p) (m : Bool) (a d : Nat) (f : RMode → Nat → Nat → FRes) :
    fpShort m a d f s = fpOnward s g .f32 d (fun t j => f (dynRM g) (fpLane .f32 t d j) (fpLane .f32 t a j)) :=
  laneOp_fp e m _ _ .f32 d fun t ht => by
    have hword : ∀ n : Nat, toWord (packLanes 32 [n]) = toWord n := fun n => by
      apply BitVec.eq_of_toNat_eq
      simp [packLanes, toWord]
    have hflag : ∀ fl : Flags, orFlags [fl] = fl := fun fl => BitVec.zero_or
    simp only [readV_idle ht, fpLanesOut, fpLanes, rangeFrom, List.map_cons, List.map_nil, fpLane_f32, typeFmt, hflag]
    rw [show fmt32.width = 32 from rfl, regWrites, if_neg (by decide), hword]

theorem exec_fminShort {s : State} {g : Gang} {p : Path} (e : Executes s g p) (a d : BitVec 5) (m : Bool) :
    exec (.fminShort a d m) s = .next (fpOnward s g .f32 d.toNat (fun t j =>
      fminmaxBits fmt32 false (fpLane .f32 t d.toNat j) (fpLane .f32 t a.toNat j))) :=
  congrArg Host.Outcome.next (fpShort_idle e m _ _ _)

theorem exec_fmaxShort {s : State} {g : Gang} {p : Path} (e : Executes s g p) (a d : BitVec 5) (m : Bool) :
    exec (.fmaxShort a d m) s = .next (fpOnward s g .f32 d.toNat (fun t j =>
      fminmaxBits fmt32 true (fpLane .f32 t d.toNat j) (fpLane .f32 t a.toNat j))) :=
  congrArg Host.Outcome.next (fpShort_idle e m _ _ _)

/-- A comparison writes its predicate and raises the flags of its lanes (spec/07 R155). -/
theorem fpCompare_idle {s : State} {g : Gang} {p : Path} (e : Executes s g p) (m sig : Bool) (ty : FpType) (b a cc q : Nat) :
    fpCompare m sig ty b a cc q s = lanesOnward s g
      (fun t => writeP t q ((rangeFrom 0 (fpLanes ty)).all (fun j => fcmpCond cc (fpVal ty t a j) (fpVal ty t b j))))
      (orFlags ((activeThreads s g).map (fun t => orFlags ((rangeFrom 0 (fpLanes ty)).map (fun j =>
        fcmpFlags sig (fpVal ty t a j) (fpVal ty t b j)))))) :=
  laneOp_lanes e m _ _ (k := fun t => ⟨[], [(q, (rangeFrom 0 (fpLanes ty)).all (fun j => fcmpCond cc (fpVal ty t a j) (fpVal ty t b j)))],
    orFlags ((rangeFrom 0 (fpLanes ty)).map (fun j => fcmpFlags sig (fpVal ty t a j) (fpVal ty t b j)))⟩) fun t ht => by
    simp only [readFp_idle ht, List.map_map, List.all_map]
    rfl

theorem fcmpFlags_quiet (x y : FVal) : fcmpFlags false x y = if isSnan x || isSnan y then flagNV else flagNone := by
  rw [fcmpFlags, Bool.false_and, Bool.or_false, flagIf]

/-- A signalling NaN is a NaN. -/
theorem fcmpFlags_signalling (x y : FVal) : fcmpFlags true x y = if isNan x || isNan y then flagNV else flagNone := by
  have hany : (isSnan x || isSnan y || (true && (isNan x || isNan y))) = (isNan x || isNan y) := by
    cases x <;> cases y <;> simp [isSnan, isNan]
  rw [fcmpFlags, hany, flagIf]

theorem exec_fcmp {s : State} {g : Gang} {p : Path} (e : Executes s g p) (ty : FpType) (b a : BitVec 7) (c : BitVec 4) (q : BitVec 3)
    (m : Bool) : exec (.fcmp ty b a c q m) s = .next (lanesOnward s g
      (fun t => writeP t q.toNat ((rangeFrom 0 (fpLanes ty)).all (fun j =>
        fcmpCond c.toNat (fpVal ty t a.toNat j) (fpVal ty t b.toNat j))))
      (orFlags ((activeThreads s g).map (fun t => orFlags ((rangeFrom 0 (fpLanes ty)).map (fun j =>
        if isSnan (fpVal ty t a.toNat j) || isSnan (fpVal ty t b.toNat j) then flagNV else flagNone)))))) := by
  refine congrArg Host.Outcome.next ((fpCompare_idle e m false ty _ _ _ _).trans ?_)
  simp only [fcmpFlags_quiet]

theorem exec_fcmpSig {s : State} {g : Gang} {p : Path} (e : Executes s g p) (ty : FpType) (b a : BitVec 7) (c : BitVec 4) (q : BitVec 3)
    (m : Bool) : exec (.fcmpSig ty b a c q m) s = .next (lanesOnward s g
      (fun t => writeP t q.toNat ((rangeFrom 0 (fpLanes ty)).all (fun j =>
        fcmpCond c.toNat (fpVal ty t a.toNat j) (fpVal ty t b.toNat j))))
      (orFlags ((activeThreads s g).map (fun t => orFlags ((rangeFrom 0 (fpLanes ty)).map (fun j =>
        if isNan (fpVal ty t a.toNat j) || isNan (fpVal ty t b.toNat j) then flagNV else flagNone)))))) := by
  refine congrArg Host.Outcome.next ((fpCompare_idle e m true ty _ _ _ _).trans ?_)
  simp only [fcmpFlags_signalling]

/-! ### Remainders, scaling, exponents and conversions -/

theorem exec_frem {s : State} {g : Gang} {p : Path} (e : Executes s g p) (ty : FpType) (b a d : BitVec 7) (m : Bool) :
    exec (.frem ty b a d m) s = .next (fpOnward s g ty d.toNat (fun t j =>
      fremVal (typeFmt ty) (fpVal ty t a.toNat j) (fpVal ty t b.toNat j))) :=
  congrArg Host.Outcome.next (fpOp2_idle e m ty _ _ _ _)

theorem exec_flogb {s : State} {g : Gang} {p : Path} (e : Executes s g p) (ty : FpType) (a d : BitVec 7) (m : Bool) :
    exec (.flogb ty a d m) s = .next (fpOnward s g ty d.toNat (fun t j => flogbVal (typeFmt ty) (fpVal ty t a.toNat j))) :=
  congrArg Host.Outcome.next (fpOp1_idle e m ty _ _ _)

/-- The scale of a lane: the register, or its packed half (spec/07 R156). -/
theorem scale_eq (ty : FpType) (j : Nat) (x : Word) :
    (if fpLanes ty = 1 then signedOf 32 x.toNat else signedOf 16 (laneOf 16 j x.toNat)) =
      if ty = .f32 ∨ ty = .f64 then x.toInt else sval 16 (laneOf 16 j x.toNat) := by
  have hword := signedOf_toNat (by decide) x
  have hhalf := signedOf_eq_sval (laneOf_lt 16 j x.toNat)
  cases ty <;> simp [fpLanes, hword, hhalf]

theorem exec_fscale {s : State} {g : Gang} {p : Path} (e : Executes s g p) (ty : FpType) (b a d : BitVec 7) (m : Bool) :
    exec (.fscale ty b a d m) s = .next (fpOnward s g ty d.toNat (fun t j => fscaleVal (typeFmt ty) (curRM s g) (fpVal ty t a.toNat j)
      (if ty = .f32 ∨ ty = .f64 then (vreg t b.toNat).toInt else sval 16 (laneOf 16 j (vreg t b.toNat).toNat)))) :=
  congrArg Host.Outcome.next (laneOp_fp e m _ _ ty d.toNat fun t ht => by
    simp only [readFp_idle ht, readV_idle ht, scale_eq, mapLanes, List.map_map, fpLanesOut]
    rfl)

/-- The registers that a conversion reads, as one number. -/
theorem readRun_idle {t : Thread} (ht : t.inflight = []) (c k r n : Nat) :
    readRun c t k r n = packLanes 32 ((rangeFrom r n).map (fun k => (vreg t k).toNat)) := by
  induction n generalizing r with
  | zero => rfl
  | succ n ih =>
    rw [readRun, ih, readV_idle ht, rangeFrom, List.map_cons, packLanes, Nat.mod_eq_of_lt (vreg t r).isLt, Nat.mul_comm]

theorem exec_fcvt {s : State} {g : Gang} {p : Path} (e : Executes s g p) (r : BitVec 3) (c a d : BitVec 7) (m : Bool) {row : CvtRow}
    {na nd : Nat} (hrow : cvtRow c.toNat = some row) (hspan : fcvtSpans c.toNat = some (na, nd)) :
    let x := fun (t : Thread) => packLanes 32 ((rangeFrom a.toNat na).map (fun k => (vreg t k).toNat))
    let res := fun (t : Thread) (j : Nat) => row.f (cvtRM r g) (laneOf row.sw j (x t))
    exec (.fcvt r c a d m) s = .next (lanesOnward s g
      (fun t => writeVs t ((rangeFrom 0 nd).map (fun k =>
        (d.toNat + k, toWord (packLanes row.dw ((rangeFrom 0 row.n).map (fun j => (res t j).bits)) / 2 ^ (32 * k))))))
      (orFlags ((activeThreads s g).map (fun t => orFlags ((rangeFrom 0 row.n).map (fun j => (res t j).flags)))))) := by
  intro x res
  show execFcvt r c a d m s = _
  simp only [execFcvt, hrow, hspan]
  refine congrArg Host.Outcome.next (laneOp_lanes e m _ _ (k := fun t => ⟨(rangeFrom 0 nd).map (fun k =>
    (d.toNat + k, toWord (packLanes row.dw ((rangeFrom 0 row.n).map (fun j => (res t j).bits)) / 2 ^ (32 * k)))), [],
    orFlags ((rangeFrom 0 row.n).map (fun j => (res t j).flags))⟩) fun t ht => ?_)
  simp only [readRun_idle ht, List.map_map, Nat.shiftRight_eq_div_pow]
  rfl

end Sys2Proof.Machine
end

section
/-! LEMMAS. Numbers that a format holds (spec/04 R81, R97): they round to themselves, raise no flag, and have one encoding. -/

namespace Sys2Proof.Machine

open Sys2Proof.Claims

variable {f : FloatFmt}

/-! ### Numbers within a format -/

/-- A significand that is shorter than the precision, in the units of its full precision. -/
theorem magOf_normalized {m : Nat} (hlog : m.log2 ≤ f.fbits) (e : Int) :
    magOf f (m * 2 ^ (f.fbits - m.log2)) (e + m.log2) = m * pow2 e := by
  rw [magOf, natCast_mul_pow2_of_le m (show e + m.log2 - f.fbits ≤ e by omega), show (e - (e + m.log2 - f.fbits)).toNat = f.fbits - m.log2 by omega]

theorem fullSig_normalized {m : Nat} (hm : m ≠ 0) (hlog : m.log2 ≤ f.fbits) : FullSig f (m * 2 ^ (f.fbits - m.log2)) := by
  have hlow : 2 ^ f.fbits = 2 ^ m.log2 * 2 ^ (f.fbits - m.log2) := by rw [← Nat.pow_add, Nat.add_sub_cancel' hlog]
  have hhigh : 2 ^ (f.fbits + 1) = 2 ^ (m.log2 + 1) * 2 ^ (f.fbits - m.log2) := by
    rw [← Nat.pow_add]
    congr 1
    omega
  rw [FullSig, hlow, hhigh]
  exact ⟨Nat.mul_le_mul_right _ (Nat.log2_self_le hm), Nat.mul_lt_mul_of_pos_right Nat.lt_log2_self (Nat.two_pow_pos _)⟩

/-- A number of the format's precision, at or above its least unit and not above its greatest number, has an encoding. -/
theorem FmtOk.encoded_of_bounds (hf : FmtOk f) (n : Bool) {m : Nat} {e : Int} (hm : m < 2 ^ (f.fbits + 1)) (he : fmtEmin f - f.fbits ≤ e)
    (hg : (m : Rat) * pow2 e ≤ dyVal (greatest f)) : encoded f (fun _ => True) (dyOf n m e) := by
  have hunits := natCast_mul_pow2_of_le m he
  by_cases hsmall : m * 2 ^ (e - (fmtEmin f - f.fbits)).toNat ≤ 2 ^ f.fbits
  · obtain ⟨hlt, hdec⟩ := hf.fdecode_subnormal n hsmall
    exact ⟨_, _, _, _, hlt, trivial, hdec, by rw [dySame_iff, dyVal_dyOf, dyVal_dyOf, hunits]⟩
  have hm0 : m ≠ 0 := fun h => hsmall (by rw [h, Nat.zero_mul]; exact Nat.zero_le _)
  have hlog : m.log2 ≤ f.fbits := Nat.lt_succ_iff.mp ((Nat.log2_lt hm0).mpr hm)
  have hsig := fullSig_normalized hm0 hlog
  have hval := magOf_normalized hlog e
  have hmin : ¬ e + m.log2 < fmtEmin f := fun hlt => hsmall (by
    have hmag := (magOf_lt_iff hsig (fullSig_least f) _ _).mpr (Or.inl hlt)
    rw [hval, magOf, hunits, natCast_mul_pow2_lt_iff] at hmag
    exact Nat.le_of_lt hmag)
  rw [hf.dyVal_greatest, ← hval, magOf_le_iff hsig hf.fullSig_maxSig] at hg
  obtain ⟨hlt, hdec⟩ := hf.fdecode_normal n hsig.1 hsig.2 (Int.not_lt.mp hmin) (by omega) (by omega)
  exact ⟨_, _, _, _, hlt, trivial, hdec, by rw [dySame_iff, dyVal_dyOf, dyVal_dyOf, ← hval, magOf]⟩

theorem FmtOk.fin_le_greatest (hf : FmtOk f) {b : Nat} (hb : b < 2 ^ f.width) {n : Bool} {m : Nat} {e : Int}
    (hdec : fdecode f b = .fin n m e) : (m : Rat) * pow2 e ≤ dyVal (greatest f) := by
  have hmax := hf.fullSig_maxSig
  rw [hf.dyVal_greatest]
  obtain ⟨hm, rfl, -⟩ | ⟨hlo, hhi, -, hle, htop, -⟩ := hf.fdecode_fin_cases hb hdec
  · have hleast : magOf f (2 ^ f.fbits) (fmtEmin f) ≤ magOf f (fmtMaxSig f) (fmtEmax f) :=
      (magOf_le_iff (fullSig_least f) hmax _ _).mpr (by have := hf.emin_le_emax; have := hmax.1; omega)
    exact Rat.le_trans ((natCast_mul_pow2_le_iff _).mpr (Nat.le_of_lt hm)) hleast
  · rw [natCast_mul_pow2_eq_magOf, magOf_le_iff ⟨hlo, hhi⟩ hmax]
    omega

theorem FmtOk.abs_le_greatest (hf : FmtOk f) {p : Nat → Prop} {z : Machine.Dyadic} (hz : encoded f p z) :
    dyVal (dyAbs z) ≤ dyVal (greatest f) := by
  obtain ⟨b, n, m, e, hb, -, hdec, hsame⟩ := hz
  rw [dyVal_dyAbs_congr ((dySame_iff _ _).mp hsame), dyVal_dyAbs_dyOf]
  exact hf.fin_le_greatest hb hdec

/-- A number that a format holds rounds to itself, in every mode, and raises no flag (spec/04 R97). -/
theorem FmtOk.roundExact_encoded (hf : FmtOk f) (rm : RMode) (n : Bool) {m : Nat} (hm : m ≠ 0) {e : Int}
    (henc : encoded f (fun _ => True) (dyOf n m e)) :
    let r := roundExact f rm ⟨n, m, e, false⟩
    r.flags = flagNone ∧ r.bits < 2 ^ f.width ∧ ∃ m' e', fdecode f r.bits = .fin n m' e' ∧ dyVal (dyOf n m' e') = dyVal (dyOf n m e) := by
  have hcut := cut_pointOf (dyOf n m e)
  have hself : (pointOf (dyOf n m e)).is (dyOf n m e) := (pointOf_is _ _).mpr rfl
  obtain ⟨y, hy, -, hfit⟩ := hf.rounded_fin rm n hm e
  have hval := roundedInto_eq hy hcut (hf.precise_of_encoded henc) hself
  have hle : dyLt (greatest f) (dyAbs y) = false := by
    rw [dyLt_eq_false_iff, dyVal_dyAbs_congr hval]
    exact hf.abs_le_greatest henc
  obtain ⟨hlt, m', e', hdec, hround, hflag, -⟩ := hfit hle
  have hsame := roundedInto_eq hround hcut henc hself
  exact ⟨hflag ((pointOf_is _ _).mpr hsame), hlt, m', e', hdec, hsame⟩

/-- A subnormal number is less than a normal one. -/
theorem subnormal_lt_normal {m m' : Nat} (hm : m < 2 ^ f.fbits) (hm' : FullSig f m') {e' : Int} (he : fmtEmin f ≤ e' + f.fbits) :
    (m : Rat) * pow2 (fmtEmin f - f.fbits) < m' * pow2 e' := by
  have hle : magOf f (2 ^ f.fbits) (fmtEmin f) ≤ magOf f m' (e' + f.fbits) :=
    (magOf_le_iff (fullSig_least f) hm' _ _).mpr (by have := hm'.1; omega)
  have hlt : (m : Rat) * pow2 (fmtEmin f - f.fbits) < magOf f (2 ^ f.fbits) (fmtEmin f) := (natCast_mul_pow2_lt_iff _).mpr hm
  rw [natCast_mul_pow2_eq_magOf f m' e']
  grind

theorem rat_le_of_eq {a b : Rat} (h : a = b) : a ≤ b := h ▸ Rat.le_refl

/-- Two finite encodings of one number and sign are the same. -/
theorem FmtOk.encoding_unique (hf : FmtOk f) {a b : Nat} (ha : a < 2 ^ f.width) (hb : b < 2 ^ f.width) {n : Bool} {m m' : Nat} {e e' : Int}
    (hda : fdecode f a = .fin n m e) (hdb : fdecode f b = .fin n m' e') (hval : (m : Rat) * pow2 e = m' * pow2 e') : a = b := by
  obtain ⟨hm, rfl, rfl⟩ | ⟨hlo, hhi, hmin, -, -, rfl⟩ := hf.fdecode_fin_cases ha hda <;>
    obtain ⟨hm', rfl, rfl⟩ | ⟨hlo', hhi', hmin', -, -, rfl⟩ := hf.fdecode_fin_cases hb hdb
  · have hle := (natCast_mul_pow2_le_iff _).mp (rat_le_of_eq hval)
    have hge := (natCast_mul_pow2_le_iff _).mp (rat_le_of_eq hval.symm)
    rw [Nat.le_antisymm hle hge]
  · have hlt := subnormal_lt_normal hm ⟨hlo', hhi'⟩ hmin'
    rw [hval] at hlt
    exact absurd hlt Rat.lt_irrefl
  · have hlt := subnormal_lt_normal hm' ⟨hlo, hhi⟩ hmin
    rw [hval] at hlt
    exact absurd hlt Rat.lt_irrefl
  · rw [natCast_mul_pow2_eq_magOf f m, natCast_mul_pow2_eq_magOf f m'] at hval
    have hle := (magOf_le_iff ⟨hlo, hhi⟩ ⟨hlo', hhi'⟩ _ _).mp (rat_le_of_eq hval)
    have hge := (magOf_le_iff ⟨hlo', hhi'⟩ ⟨hlo, hhi⟩ _ _).mp (rat_le_of_eq hval.symm)
    obtain ⟨rfl, rfl⟩ : m = m' ∧ e = e' := by omega
    rfl

/-- Rounding what an encoding stands for gives the encoding back. -/
theorem FmtOk.roundExact_fdecode (hf : FmtOk f) (rm : RMode) {a : Nat} (ha : a < 2 ^ f.width) {n : Bool} {m : Nat} {e : Int}
    (h : fdecode f a = .fin n m e) : roundExact f rm ⟨n, m, e, false⟩ = ⟨a, flagNone⟩ := by
  by_cases hm : m = 0
  · subst hm
    obtain ⟨-, -, rfl⟩ | ⟨hlo, -⟩ := hf.fdecode_fin_cases ha h
    · rfl
    · exact absurd hlo (by have := Nat.two_pow_pos f.fbits; omega)
  · obtain ⟨hflag, hlt, m', e', hdec, hval⟩ := hf.roundExact_encoded rm n hm (encoded_dyOf ha trivial h)
    rw [dyVal_dyOf, dyVal_dyOf, withSign_inj] at hval
    have hbits := hf.encoding_unique hlt ha hdec h hval
    calc roundExact f rm ⟨n, m, e, false⟩ = ⟨(roundExact f rm ⟨n, m, e, false⟩).bits, (roundExact f rm ⟨n, m, e, false⟩).flags⟩ := rfl
      _ = ⟨a, flagNone⟩ := by rw [hbits, hflag]

/-- The encoding of an infinity. -/
theorem FmtOk.fdecode_inf (hf : FmtOk f) {a : Nat} (ha : a < 2 ^ f.width) {n : Bool} (h : fdecode f a = .inf n) : fmtInf f n = a := by
  obtain ⟨n', ex, fr, hex, hfr, rfl⟩ := hf.exists_fields ha
  by_cases hs : specialFields f ex fr
  · rw [hf.fdecode_special n' hex hfr hs] at h
    split at h
    · cases h
    · next ho =>
      split at h
      · next hzero =>
        obtain rfl := FVal.inf.inj h
        rw [fmtInf, if_neg ho, fencode, hzero, hs.1, Nat.add_zero]
      · cases h
  · rw [hf.fdecode_fencode n' hex hfr hs] at h
    split at h <;> cases h

end Sys2Proof.Machine
end

section
/-! LEMMAS. Minima and maxima, remainders and scaled numbers (spec/07 R152, R154, R156), and roundings to an integer (R163). -/

namespace Sys2Proof.Machine

open Sys2Proof.Claims

variable {f : FloatFmt}

/-! ### Minima and maxima -/

/-- The model's order of values that are not NaNs is that of R154. -/
theorem ordLess_iff {x y : FVal} (hx : ¬ isNan x = true) (hy : ¬ isNan y = true) : ordLess x y = true ↔ ordered x y := by
  obtain ⟨n, rfl⟩ | ⟨n, m, e, rfl⟩ := num_cases hx <;> obtain ⟨n', rfl⟩ | ⟨n', m', e', rfl⟩ := num_cases hy
  · simp [ordLess, ordered]
  · simp [ordLess, ordered]
  · simp [ordLess, ordered]
  · by_cases hz : m = 0 ∧ m' = 0
    · obtain ⟨rfl, rfl⟩ := hz
      have hlt : ¬ dyLt (dyOf n 0 e) (dyOf n' 0 e') = true := by
        rw [dyLt_iff, dyVal_dyOf_zero, dyVal_dyOf_zero]
        exact Rat.lt_irrefl
      simp [ordLess, ordered, isZero, fneg, hlt]
    · have hnot : ¬ (isZero (.fin n m e) && isZero (.fin n' m' e')) = true := by simpa [isZero] using hz
      show (if _ then _ else _) = true ↔ dyLt (dyOf n m e) (dyOf n' m' e') = true ∨ _
      rw [if_neg hnot]
      exact ⟨Or.inl, fun h => h.resolve_right fun ⟨h0, h0', _⟩ => hz ⟨h0, h0'⟩⟩

theorem not_ordered_self (x : FVal) : ¬ ordered x x := by
  cases x with
  | nan s => exact id
  | inf n => exact fun ⟨h, h'⟩ => by rw [h] at h'; cases h'
  | fin n m e =>
    rintro (h | ⟨-, -, h, h'⟩)
    · exact Rat.lt_irrefl ((dyLt_iff _ _).mp h)
    · rw [h] at h'
      cases h'

theorem ordered_asymm {x y : FVal} (h : ordered x y) : ¬ ordered y x := by
  cases x <;> cases y
  case inf.inf n n' => exact fun h' => Bool.false_ne_true (h.2.symm.trans h'.1)
  case inf.fin n _ _ _ => exact fun h' : n = false => Bool.false_ne_true (h'.symm.trans h)
  case fin.inf _ _ _ n => exact fun h' : n = true => Bool.false_ne_true (Eq.trans (Eq.symm h) h')
  case fin.fin n m e n' m' e' =>
    simp only [ordered, dyLt_iff] at h ⊢
    rintro (hlt | ⟨rfl, rfl, rfl, rfl⟩)
    · obtain hlt' | ⟨rfl, rfl, -, -⟩ := h
      · grind
      · rw [dyVal_dyOf_zero, dyVal_dyOf_zero] at hlt
        exact Rat.lt_irrefl hlt
    · obtain hlt | ⟨-, -, hneg, -⟩ := h
      · rw [dyVal_dyOf_zero, dyVal_dyOf_zero] at hlt
        exact Rat.lt_irrefl hlt
      · exact Bool.false_ne_true hneg
  all_goals exact h.elim

/-- `FMIN` and `FMAX` deliver one of their operands, and no operand lies beyond it (spec/07 R154). -/
theorem fminmaxBits_extreme (f : FloatFmt) (isMax : Bool) (a b : Nat) : extreme f isMax [a, b] (fminmaxBits f isMax a b) := by
  refine ⟨fun hnan => ?_, fun hnum => ?_⟩
  · have hor : (isNan (fdecode f a) || isNan (fdecode f b)) = true := by simpa using hnan
    rw [fminmaxBits, if_pos hor]
    simp [nanRes, flagIf]
  · have ha : ¬ isNan (fdecode f a) = true := by simp [hnum a (by simp)]
    have hb : ¬ isNan (fdecode f b) = true := by simp [hnum b (by simp)]
    have hor : ¬ (isNan (fdecode f a) || isNan (fdecode f b)) = true := by simp [ha, hb]
    rw [fminmaxBits, if_neg hor]
    cases isMax
    · by_cases h : ordered (fdecode f b) (fdecode f a)
      · rw [if_neg Bool.false_ne_true, if_pos ((ordLess_iff hb ha).mpr h)]
        exact ⟨rfl, by simp, by simpa using ⟨ordered_asymm h, not_ordered_self _⟩⟩
      · rw [if_neg Bool.false_ne_true, if_neg (mt (ordLess_iff hb ha).mp h)]
        exact ⟨rfl, by simp, by simpa using ⟨not_ordered_self _, h⟩⟩
    · by_cases h : ordered (fdecode f a) (fdecode f b)
      · rw [if_pos rfl, if_pos ((ordLess_iff ha hb).mpr h)]
        exact ⟨rfl, by simp, by simpa using ⟨ordered_asymm h, not_ordered_self _⟩⟩
      · rw [if_pos rfl, if_neg (mt (ordLess_iff ha hb).mp h)]
        exact ⟨rfl, by simp, by simpa using ⟨not_ordered_self _, h⟩⟩

/-! ### Rounding to an integer -/

/-- The integer of a sign and a magnitude. -/
def intOf (n : Bool) (q : Nat) : Int := if n then -(q : Int) else q

theorem dyOf_exp_zero (n : Bool) (q : Nat) : dyOf n q 0 = ⟨intOf n q, 0⟩ := rfl

theorem dyVal_intOf (n : Bool) (q : Nat) : dyVal ⟨intOf n q, 0⟩ = withSign n q := by
  rw [← dyOf_exp_zero, dyVal_dyOf, pow2_zero, Rat.mul_one]

/-- A signed number rounds to the integer that its magnitude rounds to. -/
theorem UnitRound.roundedInt_intOf {x : Point} {rm : RMode} {n : Bool} {q : Nat} {nx : Bool} (h : UnitRound rm n x 0 q nx) (hx : Cut x) :
    roundedInt rm (signPoint n x) (intOf n q) := by
  refine roundedInto_signed hx h ⟨_, (dySame_iff _ _).mpr rfl⟩ ?_ (fun heven => ?_) (fun a _ _ z hz => ?_)
  · rw [dyVal_intOf, pow2_zero, Rat.mul_one]
  · refine ⟨_, ?_, (dySame_iff _ _).mpr rfl⟩
    unfold intOf
    split <;> omega
  · obtain ⟨k, hk⟩ := hz
    rw [dyVal_dyAbs_congr ((dySame_iff _ _).mp hk), dyAbs, dyVal_nat]
    exact outside_unit a k.natAbs 0

/-- The model's rounding of a magnitude to an integer, and whether that loses anything. -/
def intRound (rm : RMode) (n : Bool) (m : Nat) (e : Int) : Nat × Bool := roundMag rm n m false (0 - e)

theorem intRound_units (rm : RMode) (n : Bool) (m : Nat) (e : Int) :
    UnitRound rm n (pointOf ⟨m, e⟩) 0 (intRound rm n m e).1 (intRound rm n m e).2 :=
  (stands_pointOf m e).roundMag_units (cut_pointOf _) rm n fun h => nomatch h

theorem roundToInt_eq (rm : RMode) (n : Bool) (m : Nat) (e : Int) :
    roundToInt rm ⟨n, m, e, false⟩ = (intOf n (intRound rm n m e).1, (intRound rm n m e).2) := by
  rw [intRound, Int.zero_sub]
  rfl

theorem roundedInt_intRound (rm : RMode) (n : Bool) (m : Nat) (e : Int) :
    roundedInt rm (pointOf (dyOf n m e)) (intOf n (intRound rm n m e).1) := by
  rw [pointOf_dyOf]
  exact (intRound_units rm n m e).roundedInt_intOf (cut_pointOf _)

/-- A number is the integer it rounds to exactly if the rounding lost nothing. -/
theorem dySame_intRound_iff (rm : RMode) (n : Bool) (m : Nat) (e : Int) :
    dySame (dyOf n m e) ⟨intOf n (intRound rm n m e).1, 0⟩ ↔ (intRound rm n m e).2 = false := by
  rw [(intRound_units rm n m e).inexact_iff, pointOf_is, dySame_iff, dyVal_dyOf, ← dyOf_exp_zero, dyVal_dyOf, withSign_inj, dyVal_nat,
    dyVal_nat, eq_comm]

/-! ### Remainders -/

/-- The nearest multiple of `y` to `x`, ties to even: how many, and what is left. -/
def nearCount (x y : Nat) : Nat := if y < 2 * (x % y) ∨ (2 * (x % y) = y ∧ x / y % 2 = 1) then x / y + 1 else x / y

/-- The remainder of the nearest multiple. -/
def nearRest (x y : Nat) : Int := if y < 2 * (x % y) ∨ (2 * (x % y) = y ∧ x / y % 2 = 1) then ((x % y : Nat) : Int) - y else (x % y : Nat)

theorem nearCount_mul_add (x y : Nat) : (x : Int) = nearCount x y * y + nearRest x y := by
  have hdiv : (x : Int) = ((x / y : Nat) : Int) * y + (x % y : Nat) := by exact_mod_cast (Nat.div_add_mod' x y).symm
  unfold nearCount nearRest
  split
  · rw [Int.natCast_add, Int.add_mul, Int.natCast_one, Int.one_mul]
    omega
  · exact hdiv

theorem nearRest_bounds (x : Nat) {y : Nat} (hy : y ≠ 0) : 2 * (nearRest x y).natAbs ≤ y ∧ (nearRest x y).natAbs ≤ x := by
  have hlt := Nat.mod_lt x (Nat.pos_of_ne_zero hy)
  have hle := Nat.mod_le x y
  unfold nearRest
  split <;> omega

/-- Twice what is left of a division, compared with the divisor. -/
def restOrder (r y : Nat) : Ordering := if 2 * r < y then .lt else if y < 2 * r then .gt else .eq

theorem nearCount_eq (n : Bool) (x y : Nat) :
    nearCount x y = if roundsUp .rne n (x / y % 2 == 1) true (restOrder (x % y) y) then x / y + 1 else x / y := by
  have hiff : (y < 2 * (x % y) ∨ (2 * (x % y) = y ∧ x / y % 2 = 1)) ↔
      roundsUp .rne n (x / y % 2 == 1) true (restOrder (x % y) y) = true := by
    show _ ↔ (restOrder (x % y) y == .gt || (restOrder (x % y) y == .eq && x / y % 2 == 1)) = true
    rw [Bool.or_eq_true, Bool.and_eq_true, beq_iff_eq, beq_iff_eq, beq_iff_eq, restOrder]
    by_cases hlo : 2 * (x % y) < y
    · rw [if_pos hlo]
      exact ⟨fun h => by omega, fun h => by simp at h⟩
    by_cases hhi : y < 2 * (x % y)
    · rw [if_neg hlo, if_pos hhi]
      exact ⟨fun _ => Or.inl rfl, fun _ => Or.inl hhi⟩
    · rw [if_neg hlo, if_neg hhi]
      exact ⟨fun h => Or.inr ⟨rfl, by omega⟩, fun h => Or.inr ⟨by omega, (h.resolve_left nofun).2⟩⟩
  simp only [nearCount, hiff]

section
variable {a b : Machine.Dyadic} {x y : Nat} {j : Int}

/-- A number under the quotient of two whole numbers of one unit. -/
theorem quotientOf_above (hb : 0 < b.m) (hx : dyVal a = x * pow2 j) (hy : dyVal b = y * pow2 j) (d : Machine.Dyadic) :
    (quotientOf a b).above d ↔ dyVal d * y < x := by
  rw [quotientOf_pos a hb]
  refine (dyLt_iff _ _).trans ?_
  rw [dyVal_dyMul, hx, hy, ← Rat.mul_assoc, mul_pow2_lt_iff]

theorem quotientOf_below (hb : 0 < b.m) (hx : dyVal a = x * pow2 j) (hy : dyVal b = y * pow2 j) (d : Machine.Dyadic) :
    (quotientOf a b).below d ↔ (x : Rat) < dyVal d * y := by
  rw [quotientOf_pos a hb]
  refine (dyLt_iff _ _).trans ?_
  rw [dyVal_dyMul, hx, hy, ← Rat.mul_assoc, mul_pow2_lt_iff]

/-- Two numbers that differ by half the difference of `y` and `2 r`. -/
theorem compare_mid {u v r w : Rat} (h : 2 * v + 2 * r = 2 * u + w) : (2 * r < w → u < v) ∧ (w < 2 * r → v < u) ∧ (2 * r = w → u = v) := by
  refine ⟨fun _ => ?_, fun _ => ?_, fun _ => ?_⟩ <;> grind

/-- The count is the quotient rounded to the nearest, ties to even. -/
theorem nearCount_units (hb : 0 < b.m) (hx : dyVal a = x * pow2 j) (hy : dyVal b = y * pow2 j) (n : Bool) :
    UnitRound .rne n (quotientOf a b) 0 (nearCount x y) (x % y != 0) := by
  have habove := quotientOf_above hb hx hy
  have hbelow := quotientOf_below hb hx hy
  have hunit : ∀ c : Nat, dyVal ⟨c, 0⟩ = c := fun c => by rw [dyVal_nat, pow2_zero, Rat.mul_one]
  have hyz : y ≠ 0 := fun h => by
    have hpos := (dyVal_pos_iff b).mpr hb
    rw [hy, h, show ((0 : Nat) : Rat) = 0 from rfl, Rat.zero_mul] at hpos
    exact Rat.lt_irrefl hpos
  have hlt := Nat.mod_lt x (Nat.pos_of_ne_zero hyz)
  have hsplit : (x : Rat) = (x / y : Nat) * y + (x % y : Nat) := by exact_mod_cast (Nat.div_add_mod' x y).symm
  by_cases hr : x % y = 0
  · have horder : restOrder (x % y) y = .lt := if_pos (by omega)
    have hcount : nearCount x y = x / y := by
      rw [nearCount_eq n, horder]
      rfl
    have hq : (x : Rat) = (x / y : Nat) * y := by
      rw [hr] at hsplit
      exact hsplit.trans (Rat.add_zero _)
    rw [hcount]
    refine Or.inl ⟨by rw [hr]; rfl, mt (hbelow _).mp ?_, mt (habove _).mp ?_⟩
    · rw [hunit, ← hq]
      exact Rat.lt_irrefl
    · rw [hunit, ← hq]
      exact Rat.lt_irrefl
  · have hmid := dyVal_dyMid ⟨(x / y : Nat), 0⟩ ⟨(x / y + 1 : Nat), 0⟩
    rw [hunit, hunit] at hmid
    have hrpos : (0 : Rat) < (x % y : Nat) := by exact_mod_cast Nat.pos_of_ne_zero hr
    have hrlt : ((x % y : Nat) : Rat) < y := by exact_mod_cast hlt
    have hsucc : ((x / y + 1 : Nat) : Rat) = (x / y : Nat) + 1 := Rat.natCast_add ..
    refine Or.inr ⟨bne_iff_ne.mpr hr, x / y, restOrder (x % y) y, (habove _).mpr ?_, (hbelow _).mpr ?_, ?_, nearCount_eq n x y⟩
    · rw [hunit]
      grind
    · rw [hunit, hsucc]
      grind
    · have hdiff : 2 * (dyVal (dyMid ⟨(x / y : Nat), 0⟩ ⟨(x / y + 1 : Nat), 0⟩) * y) + 2 * ((x % y : Nat) : Rat) = 2 * x + y := by
        rw [hsucc] at hmid
        rw [← Rat.mul_assoc, hmid, hsplit]
        grind
      obtain ⟨hup, hdown, htie⟩ := compare_mid hdiff
      unfold restOrder
      by_cases hlo : 2 * (x % y) < y
      · rw [if_pos hlo]
        exact (hbelow _).mpr (hup (by exact_mod_cast hlo))
      by_cases hhi : y < 2 * (x % y)
      · rw [if_neg hlo, if_pos hhi]
        exact (habove _).mpr (hdown (by exact_mod_cast hhi))
      · have heq := htie (by exact_mod_cast (show 2 * (x % y) = y by omega))
        rw [if_neg hlo, if_neg hhi]
        exact ⟨mt (hbelow _).mp (heq ▸ Rat.lt_irrefl), mt (habove _).mp (heq ▸ Rat.lt_irrefl)⟩

end

/-- A number written in lower units. -/
theorem fin_units (m : Nat) {e j : Int} (h : j ≤ e) : (m : Rat) * pow2 e = (m <<< (e - j).toNat : Nat) * pow2 j := by
  rw [Nat.shiftLeft_eq, natCast_mul_pow2_of_le m h]

/-- `FREM` of finite operands in the units of the lower one. -/
theorem fremVal_finite (f : FloatFmt) (n n' : Bool) (m : Nat) {m' : Nat} (hm' : m' ≠ 0) (e e' : Int) :
    let x := m <<< (e - iminInt e e').toNat
    let y := m' <<< (e' - iminInt e e').toNat
    fremVal f (.fin n m e) (.fin n' m' e') = if nearRest x y = 0 then ⟨fmtSign f n, flagNone⟩
      else roundExact f .rne (dyExact ⟨if n then -nearRest x y else nearRest x y, iminInt e e'⟩) := by
  intro x y
  have hrest : (if (decide (y < 2 * (x % y)) || (decide (2 * (x % y) = y) && x / y % 2 == 1)) = true
      then ((x % y : Nat) : Int) - y else (x % y : Nat)) = nearRest x y := by
    unfold nearRest
    simp only [Bool.or_eq_true, Bool.and_eq_true, decide_eq_true_eq, beq_iff_eq]
  rw [← hrest]
  exact if_neg hm'

/-- The remainder, in units of the lower operand, is a number that the format holds. -/
theorem FmtOk.encoded_nearRest (hf : FmtOk f) {a b : Nat} (ha : a < 2 ^ f.width) (hb : b < 2 ^ f.width) {n n' : Bool} {m m' : Nat} {e e' : Int}
    (hda : fdecode f a = .fin n m e) (hdb : fdecode f b = .fin n' m' e') (hm' : m' ≠ 0) (s : Bool) :
    encoded f (fun _ => True) (dyOf s (nearRest (m <<< (e - iminInt e e').toNat) (m' <<< (e' - iminInt e e').toNat)).natAbs
      (iminInt e e')) := by
  obtain ⟨hm, he⟩ := hf.fdecode_fin_bounds ha hda
  obtain ⟨hmb, he'⟩ := hf.fdecode_fin_bounds hb hdb
  have hy : m' <<< (e' - iminInt e e').toNat ≠ 0 := by
    rw [Nat.shiftLeft_eq]
    exact Nat.mul_ne_zero hm' (Nat.ne_of_gt (Nat.two_pow_pos _))
  obtain ⟨hhalf, hle⟩ := nearRest_bounds (m <<< (e - iminInt e e').toNat) hy
  have hgreat := hf.fin_le_greatest hb hdb
  rw [fin_units m' (iminInt_le_right e e')] at hgreat
  refine hf.encoded_of_bounds s ?_ ?_ (Rat.le_trans ((natCast_mul_pow2_le_iff _).mpr ?_) hgreat)
  · by_cases h : e' < e
    · have hj : iminInt e e' = e' := if_pos h
      rw [hj, Int.sub_self] at hhalf ⊢
      rw [Int.toNat_zero, Nat.shiftLeft_zero] at hhalf ⊢
      omega
    · have hj : iminInt e e' = e := if_neg h
      rw [hj, Int.sub_self] at hle ⊢
      rw [Int.toNat_zero, Nat.shiftLeft_zero] at hle ⊢
      omega
  · unfold iminInt
    split <;> omega
  · omega

/-- The integer of R152: the quotient of two signed numbers rounded to the nearest, ties to even. -/
theorem roundedInt_nearCount (n n' : Bool) {m m' x y : Nat} (hm' : m' ≠ 0) {e e' j : Int} (hx : (m : Rat) * pow2 e = x * pow2 j)
    (hy : (m' : Rat) * pow2 e' = y * pow2 j) :
    roundedInt .rne (quotientOf (dyOf n m e) (dyOf n' m' e')) (intOf (xor n n') (nearCount x y)) := by
  have hpos : (0 : Int) < m' := by omega
  rw [quotientOf_dyOf n n' m hm']
  exact (nearCount_units hpos ((dyVal_nat m e).trans hx) ((dyVal_nat m' e').trans hy) (xor n n')).roundedInt_intOf (cut_quotientOf _ hpos)

/-- What is left of a signed number by the nearest multiple of another. -/
theorem dyVal_remainder (n n' : Bool) (x y : Nat) {j : Int} {a b : Machine.Dyadic}
    (ha : dyVal a = withSign n (x * pow2 j)) (hb : dyVal b = withSign n' (y * pow2 j)) :
    dyVal (dyAdd a (dyNeg (dyMul ⟨intOf (xor n n') (nearCount x y), 0⟩ b))) = withSign n (nearRest x y * pow2 j) := by
  have hsplit : (x : Rat) = nearCount x y * y + nearRest x y := by exact_mod_cast congrArg (Int.cast : Int → Rat) (nearCount_mul_add x y)
  have hmultiple : withSign (xor n n') (nearCount x y) * withSign n' (y * pow2 j) = withSign n (nearCount x y * (y * pow2 j)) := by
    rw [← withSign_xor, Bool.xor_assoc, Bool.xor_self, Bool.xor_false]
  have hsub : ∀ u v : Rat, withSign n u + -withSign n v = withSign n (u - v) := fun u v => by
    cases n
    · exact (Rat.sub_eq_add_neg u v).symm
    · simp only [withSign_true]
      grind
  rw [dyVal_dyAdd, dyVal_dyNeg, dyVal_dyMul, dyVal_intOf, ha, hb, hmultiple, hsub, hsplit]
  congr 1
  grind

/-- What `FREM` of finite operands delivers: the exact remainder of the nearest integral quotient (spec/07 R152). -/
theorem FmtOk.fremVal_exact (hf : FmtOk f) {a b : Nat} (ha : a < 2 ^ f.width) (hb : b < 2 ^ f.width) {n n' : Bool} {m m' : Nat} {e e' : Int}
    (hda : fdecode f a = .fin n m e) (hdb : fdecode f b = .fin n' m' e') (hm' : m' ≠ 0) :
    let r := fremVal f (.fin n m e) (.fin n' m' e')
    r.flags = flagNone ∧ ∃ (k : Int) (q : Bool) (i : Nat) (j : Int), roundedInt .rne (quotientOf (dyOf n m e) (dyOf n' m' e')) k ∧
      fdecode f r.bits = .fin q i j ∧ dySame (dyOf q i j) (dyAdd (dyOf n m e) (dyNeg (dyMul ⟨k, 0⟩ (dyOf n' m' e')))) ∧ (i = 0 → q = n) := by
  have henc := hf.encoded_nearRest ha hb hda hdb hm'
  have hx := fin_units m (iminInt_le_left e e')
  have hy := fin_units m' (iminInt_le_right e e')
  intro r
  have hr : r = _ := fremVal_finite f n n' m hm' e e'
  have hround := roundedInt_nearCount n n' hm' hx hy
  have hrest := dyVal_remainder n n' _ _ ((dyVal_dyOf n m e).trans (congrArg _ hx)) ((dyVal_dyOf n' m' e').trans (congrArg _ hy))
  generalize m <<< (e - iminInt e e').toNat = x at *
  generalize m' <<< (e' - iminInt e e').toNat = y at *
  generalize iminInt e e' = j at *
  by_cases hd : nearRest x y = 0
  · rw [if_pos hd] at hr
    have hdec := (hf.fdecode_subnormal n (Nat.zero_le _)).2
    rw [Nat.add_zero] at hdec
    rw [hr]
    refine ⟨rfl, _, _, _, _, hround, hdec, ?_, fun _ => rfl⟩
    rw [dySame_iff, hrest, hd, dyVal_dyOf_zero]
    exact ((congrArg (withSign n) (Rat.zero_mul _)).trans (withSign_zero n)).symm
  · rw [if_neg hd] at hr
    have hval : dyVal ⟨if n then -nearRest x y else nearRest x y, j⟩ = withSign n (nearRest x y * pow2 j) := by
      cases n
      · rfl
      · exact (congrArg (· * pow2 j) (Rat.intCast_neg _)).trans (Rat.neg_mul _ _)
    have habs : (if n then -nearRest x y else nearRest x y).natAbs = (nearRest x y).natAbs := by split <;> omega
    have hnz : (if n then -nearRest x y else nearRest x y).natAbs ≠ 0 := by omega
    obtain ⟨hflag, -, i, j', hdec, hsame⟩ := hf.roundExact_encoded .rne _ hnz
      (habs ▸ henc (decide ((if n then -nearRest x y else nearRest x y) < 0)))
    have hsigned := dyOf_natAbs ⟨if n then -nearRest x y else nearRest x y, j⟩
    rw [hsigned, hval] at hsame
    rw [hr]
    refine ⟨hflag, _, _, _, _, hround, hdec, ?_, fun hi => ?_⟩
    · rw [dySame_iff, hrest, hsame]
    · have hzero := (dyVal_eq_zero_iff _).mp (hval.trans (hsame.symm.trans (by
        rw [hi, dyVal_dyOf_zero])))
      exact absurd hzero (Int.natAbs_ne_zero.mp hnz)

/-- `FSCALE` of a finite operand that is not 0 (spec/07 R156). -/
theorem FmtOk.fscaleVal_finite (hf : FmtOk f) (rm : RMode) (n : Bool) {m : Nat} (hm : m ≠ 0) (e k : Int) :
    rounded f rm n (pointOf ⟨(dyOf n m e).m, e + k⟩) (fscaleVal f rm (.fin n m e) k) := by
  have hval : fscaleVal f rm (.fin n m e) k = roundExact f rm ⟨n, m, e + k, false⟩ := if_neg hm
  rw [hval]
  exact hf.rounded_fin rm n hm (e + k)

end Sys2Proof.Machine
end

section
/-! LEMMAS AND PROOF. Conversions (spec/07 R160 to R164), and the statement about minima, comparisons, remainders, scaling and conversions. -/

namespace Sys2Proof.Machine

open Sys2Proof.Claims

variable {f : FloatFmt}

/-! ### Between formats -/

/-- A rounded number overflows exactly if its flags are those of an overflow (spec/04 R97). -/
theorem flags_of_rounded {rm : RMode} {n : Bool} {P : Point} {q : FRes} (h : rounded f rm n P q) :
    ((q.flags &&& flagOF) != 0#5) = (q.flags == flagOF ||| flagNX) := by
  obtain ⟨y, -, hover, hfit⟩ := h
  cases hg : dyLt (greatest f) (dyAbs y)
  · obtain ⟨-, m, e, -, -, hexact, hinexact⟩ := hfit hg
    by_cases his : P.is (dyOf n m e)
    · rw [hexact his]
      decide
    · rw [hinexact his]
      split <;> decide
  · have hboth : ((flagOF ||| flagNX) &&& flagOF != 0#5) = ((flagOF ||| flagNX) == flagOF ||| flagNX) := by decide
    rw [hover hg]
    exact hboth

theorem FmtOk.fmtMax_eq (hf : FmtOk f) (n : Bool) : fmtMax f n = overflowed f .rtz n := by
  rw [← hf.overflowResult_eq, overflowResult, ite_self]

/-- A conversion between formats rounds once, and the saturating rows deliver the greatest number for an overflow (spec/07 R162). -/
theorem FmtOk.fconvert_converted {dst : FloatFmt} (hf : FmtOk dst) (src : FloatFmt) (rm : RMode) (sat : Bool) (bits : Nat) :
    converted src dst rm sat bits (fconvert src dst rm sat bits) := by
  unfold converted fconvert
  cases fdecode src bits with
  | nan s => rfl
  | inf n =>
    dsimp only
    rw [hf.fmtMax_eq]
    rfl
  | fin n m e =>
    by_cases hm : m = 0
    · subst hm
      have hflag : (sat && (flagNone &&& flagOF) != 0#5) = false := by revert sat; decide
      dsimp only
      rw [if_pos rfl, roundExact_zero]
      exact if_neg (Bool.eq_false_iff.mp hflag)
    · have hround := hf.rounded_fin rm n hm e
      dsimp only
      rw [if_neg hm]
      exact ⟨_, hround, by rw [flags_of_rounded hround, hf.fmtMax_eq]⟩

/-! ### To integers and from integers -/

/-- The least integer of a width is not above the greatest. -/
theorem intRange_nonempty (sg : Bool) (w : Nat) :
    (if sg then -((2 ^ (w - 1) : Nat) : Int) else 0) ≤ if sg then ((2 ^ (w - 1) : Nat) : Int) - 1 else ((2 ^ w : Nat) : Int) - 1 := by
  have hhalf := Nat.two_pow_pos (w - 1)
  have hfull := Nat.two_pow_pos w
  split <;> omega

/-- The flags of a rounding to an integer (spec/07 R163, R164). -/
theorem intRound_flags (rm : RMode) (n : Bool) (m : Nat) (e : Int) {fl : Flags} (h : fl = flagIf (intRound rm n m e).2 flagNX) :
    (dySame (dyOf n m e) ⟨intOf n (intRound rm n m e).1, 0⟩ → fl = flagNone) ∧
    (¬ dySame (dyOf n m e) ⟨intOf n (intRound rm n m e).1, 0⟩ → fl = flagNX) := by
  rw [dySame_intRound_iff, h]
  exact ⟨fun hnx => if_neg (Bool.eq_false_iff.mp hnx), fun hnx => if_pos (Bool.not_eq_false _ ▸ hnx)⟩

/-- A conversion to an integer rounds and saturates (spec/07 R163). -/
theorem fToInt_toInteger (src : FloatFmt) (rm : RMode) (w : Nat) (sg : Bool) (bits : Nat) :
    toInteger src rm w sg bits (fToInt src rm w sg bits) := by
  unfold toInteger fToInt
  cases fdecode src bits with
  | nan s => rfl
  | inf n => rfl
  | fin n m e =>
    simp only [roundToInt_eq]
    refine ⟨_, roundedInt_intRound rm n m e, fun hlo => if_pos hlo, fun hhi => ?_, fun hlo hhi => ?_⟩
    · rw [if_neg (Int.not_lt.mpr (Int.le_trans (intRange_nonempty sg w) (Int.le_of_lt hhi))), if_pos hhi]
      rfl
    · rw [if_neg (Int.not_lt.mpr hlo), if_neg (Int.not_lt.mpr hhi)]
      exact ⟨rfl, intRound_flags rm n m e rfl⟩

/-- A conversion from an integer rounds once. -/
theorem FmtOk.fOfInt_rounded (hf : FmtOk f) (rm : RMode) (k : Int) : (k = 0 → fOfInt f rm k = ⟨0, flagNone⟩) ∧
    (k ≠ 0 → rounded f rm (decide (k < 0)) (pointOf ⟨k, 0⟩) (fOfInt f rm k)) := by
  refine ⟨fun h => if_pos h, fun h => ?_⟩
  rw [fOfInt, if_neg h]
  exact hf.rounded_dyExact rm (d := ⟨k, 0⟩) h

/-- A number with places below the unit rounds to an integer of the format's precision. -/
theorem FmtOk.intRound_le (hf : FmtOk f) (rm : RMode) {a : Nat} (ha : a < 2 ^ f.width) {n : Bool} {m : Nat} {e : Int}
    (h : fdecode f a = .fin n m e) (he : e < 0) : (intRound rm n m e).1 ≤ 2 ^ f.fbits := by
  have hm := (hf.fdecode_fin_bounds ha h).1
  have hzero : ¬ (pointOf ⟨m, e⟩).below ⟨(0 : Nat), 0⟩ := fun hb => by
    have hlt := (dyLt_iff _ _).mp hb
    rw [dyVal_nat m e] at hlt
    exact Rat.not_le.mpr hlt (Rat.le_trans (rat_le_of_eq (Rat.zero_mul _)) (natCast_mul_pow2_nonneg m e))
  have hhalf : (pointOf ⟨m, e⟩).below ⟨(2 ^ f.fbits : Nat), 0⟩ := (dyLt_iff _ _).mpr (by
    rw [dyVal_nat, dyVal_nat, natCast_mul_pow2_of_le (2 ^ f.fbits) (Int.le_of_lt he), natCast_mul_pow2_lt_iff]
    calc m < 2 ^ f.fbits * 2 ^ 1 := Nat.pow_add .. ▸ hm
      _ ≤ 2 ^ f.fbits * 2 ^ (0 - e).toNat := Nat.mul_le_mul_left _ (Nat.pow_le_pow_right (by decide) (by omega)))
  exact ((intRound_units rm n m e).bounds (cut_pointOf _) hzero hhalf).2

/-- A finite number of the format rounded to an integer is a number of the format. -/
theorem FmtOk.encoded_intRound (hf : FmtOk f) (rm : RMode) {a : Nat} (ha : a < 2 ^ f.width) {n : Bool} {m : Nat} {e : Int}
    (h : fdecode f a = .fin n m e) : encoded f (fun _ => True) (dyOf n (intRound rm n m e).1 0) := by
  by_cases he : 0 ≤ e
  · have hexact : (intRound rm n m e).2 = false := by rw [intRound, roundMag_of_nonpos rm n m false (by omega)]
    have hsame := (dySame_iff _ _).mp ((dySame_intRound_iff rm n m e).mpr hexact)
    exact ⟨a, n, m, e, ha, trivial, h, (dySame_iff _ _).mpr hsame.symm⟩
  · have hq := hf.intRound_le rm ha h (Int.not_le.mp he)
    have hbias := fmtBias_eq f
    have hwide := hf.whole
    have hemax : (f.fbits : Int) ≤ fmtEmax f := by
      rw [fmtEmax]
      split <;> omega
    have hle : magOf f (2 ^ f.fbits) f.fbits ≤ magOf f (fmtMaxSig f) (fmtEmax f) :=
      (magOf_le_iff (fullSig_least f) hf.fullSig_maxSig _ _).mpr (by have := hf.maxSig_bounds; omega)
    rw [magOf, Int.sub_self] at hle
    refine hf.encoded_of_bounds n (Nat.lt_of_le_of_lt hq (fullSig_least f).2) ?_ ?_
    · rw [fmtEmin]
      have := hf.four_le
      omega
    · rw [hf.dyVal_greatest]
      exact Rat.le_trans ((natCast_mul_pow2_le_iff 0).mpr hq) hle

theorem intOf_eq_zero_iff (n : Bool) (q : Nat) : intOf n q = 0 ↔ q = 0 := by cases n <;> simp [intOf]

theorem dyExact_intOf (n : Bool) {q : Nat} (hq : q ≠ 0) : dyExact ⟨intOf n q, 0⟩ = ⟨n, q, 0, false⟩ := by
  cases n <;> simp [dyExact, intOf]
  omega

/-- A rounding to an integral value is exact in the format and keeps the sign (spec/07 R164). -/
theorem FmtOk.frint_integral (hf : FmtOk f) (rm : RMode) {bits : Nat} (hb : bits < 2 ^ f.width) : integral f rm bits (frint f rm bits) := by
  unfold integral frint
  cases hdec : fdecode f bits with
  | nan s => rfl
  | inf n => rfl
  | fin n m e =>
    have henc := hf.encoded_intRound rm hb hdec
    simp only [roundToInt_eq]
    refine ⟨_, roundedInt_intRound rm n m e, ?_, intRound_flags rm n m e (by split <;> rfl)⟩
    generalize (intRound rm n m e).1 = q at henc ⊢
    by_cases hq : q = 0
    · rw [if_pos ((intOf_eq_zero_iff n q).mpr hq)]
      refine ⟨_, _, (Nat.add_zero (fmtSign f n) ▸ hf.fdecode_subnormal n (Nat.zero_le _)).2, ?_⟩
      rw [dySame_iff, ← dyOf_exp_zero, hq, dyVal_dyOf_zero, dyVal_dyOf_zero]
    · obtain ⟨-, -, m', e', hdec', hval⟩ := hf.roundExact_encoded .rne n hq henc
      rw [if_neg (mt (intOf_eq_zero_iff n q).mp hq), dyExact_intOf n hq]
      exact ⟨m', e', hdec', (dySame_iff _ _).mpr (hval.trans (congrArg dyVal (dyOf_exp_zero n q)))⟩

/-! ### The rows of the conversion table -/

theorem cvtRow_convRows : ∀ e ∈ convRows,
    cvtRow e.1 = some (cvtFf e.2.1 e.2.2.1 e.2.2.2.1 e.2.2.2.2.1 e.2.2.2.2.2.1 e.2.2.2.2.2.2) := List.map_inj_left.mp rfl

/-- A code of a pair is the signed one or the unsigned one after it. -/
theorem forall_lt_two {p : Nat → Prop} (h0 : p 0) (h1 : p 1) : ∀ k, k < 2 → p k
  | 0, _ => h0
  | 1, _ => h1

theorem cvtRow_intRows : ∀ k, k < 2 → ∀ e ∈ intRows, cvtRow (e.1 + k) = some (cvtFi e.2.1 e.2.2.1 (k == 0) e.2.2.2) :=
  forall_lt_two (List.map_inj_left.mp rfl) (List.map_inj_left.mp rfl)

theorem cvtRow_ofIntRows : ∀ k, k < 2 → ∀ e ∈ ofIntRows, cvtRow (e.1 + k) = some (cvtIf e.2.2.1 (k == 0) e.2.1 e.2.2.2) :=
  forall_lt_two (List.map_inj_left.mp rfl) (List.map_inj_left.mp rfl)

theorem cvtRow_rintRows : ∀ e ∈ rintRows, cvtRow e.1 = some (cvtRint e.2.1 e.2.2) := List.map_inj_left.mp rfl

/-- The rows round into formats. -/
theorem rows_formats : (∀ e ∈ convRows, e.2.2.1 ∈ fpFormats) ∧ (∀ e ∈ ofIntRows, e.2.1 ∈ fpFormats) ∧ ∀ e ∈ rintRows, e.2.1 ∈ fpFormats := by
  decide

/-- The integer that a lane stands for, by its signedness. -/
theorem lval_eq (sg : Bool) {w x : Nat} (hx : x < 2 ^ w) : (if sg then signedOf w x else (x : Int)) = lval sg w x := by
  cases sg
  · rfl
  · exact signedOf_eq_sval hx

/-- Every row of R161 rounds its source once, by R162 to R164. -/
theorem cvtRow_values (rm : RMode) :
    (∀ e ∈ convRows, ∃ row, cvtRow e.1 = some row ∧ row.sw = e.2.2.2.1 ∧ row.dw = e.2.2.2.2.1 ∧ row.n = e.2.2.2.2.2.1 ∧
      ∀ x, converted e.2.1 e.2.2.1 rm e.2.2.2.2.2.2 (x % 2 ^ e.2.1.width) (row.f rm x)) ∧
    (∀ e ∈ intRows, ∀ k, k < 2 → ∃ row, cvtRow (e.1 + k) = some row ∧ row.sw = e.2.1.width ∧ row.dw = e.2.2.1 ∧ row.n = e.2.2.2 ∧
      ∀ x, x < 2 ^ row.sw → toInteger e.2.1 rm e.2.2.1 (k == 0) x (row.f rm x)) ∧
    (∀ e ∈ ofIntRows, ∀ k, k < 2 → ∃ row, cvtRow (e.1 + k) = some row ∧ row.sw = e.2.2.1 ∧ row.dw = e.2.1.width ∧ row.n = e.2.2.2 ∧
      ∀ x, x < 2 ^ row.sw → let v := lval (k == 0) e.2.2.1 x
        (v = 0 → row.f rm x = ⟨0, flagNone⟩) ∧ (v ≠ 0 → rounded e.2.1 rm (decide (v < 0)) (pointOf ⟨v, 0⟩) (row.f rm x))) ∧
    (∀ e ∈ rintRows, ∃ row, cvtRow e.1 = some row ∧ row.sw = e.2.1.width ∧ row.dw = e.2.1.width ∧ row.n = e.2.2 ∧
      ∀ x, x < 2 ^ row.sw → integral e.2.1 rm x (row.f rm x)) := by
  obtain ⟨hconv, hofInt, hrint⟩ := rows_formats
  refine ⟨fun e he => ?_, fun e he k hk => ?_, fun e he k hk => ?_, fun e he => ?_⟩
  · exact ⟨_, cvtRow_convRows e he, rfl, rfl, rfl, fun x => (fmtOk_of_mem (hconv e he)).fconvert_converted ..⟩
  · exact ⟨_, cvtRow_intRows k hk e he, rfl, rfl, rfl, fun x _ => fToInt_toInteger ..⟩
  · refine ⟨_, cvtRow_ofIntRows k hk e he, rfl, rfl, rfl, fun x hx => ?_⟩
    rw [show (cvtIf e.2.2.1 (k == 0) e.2.1 e.2.2.2).f rm x = _ from congrArg (fOfInt e.2.1 rm) (lval_eq (k == 0) hx)]
    exact (fmtOk_of_mem (hofInt e he)).fOfInt_rounded rm _
  · exact ⟨_, cvtRow_rintRows e he, rfl, rfl, rfl, fun x hx => (fmtOk_of_mem (hrint e he)).frint_integral rm hx⟩

/-! ### The statement -/

theorem fremVal_nanRow {x y : FVal} {r : FRes} (h : nanRow f [x, y] = some r) : fremVal f x y = r := by
  simp only [fremVal, h]

theorem fremVal_invalid {x y : FVal} (hx : ¬ isNan x = true) (hy : ¬ isNan y = true) (h : isInf x = true ∨ isZero y = true) :
    fremVal f x y = ⟨fmtNaN f, flagNV⟩ := by
  obtain ⟨n, rfl⟩ | ⟨n, m, e, rfl⟩ := num_cases hx <;> obtain ⟨n', rfl⟩ | ⟨n', m', e', rfl⟩ := num_cases hy
  · rfl
  · rfl
  · exact absurd h (by simp [isInf, isZero])
  · exact if_pos (by simpa [isInf, isZero] using h)

/-- The values of minima, remainders and scaled numbers (spec/07 R152, R154, R156). -/
theorem FmtOk.lane_values (hf : FmtOk f) (rm : RMode) {a b : Nat} (ha : a < 2 ^ f.width) (hb : b < 2 ^ f.width) :
    let x := fdecode f a
    let y := fdecode f b
    (∀ isMax : Bool, extreme f isMax [a, b] (fminmaxBits f isMax a b)) ∧
    ((isSnan x ∨ isSnan y) → fremVal f x y = ⟨fmtNaN f, flagNV⟩) ∧
    (¬ isSnan x → ¬ isSnan y → (isNan x ∨ isNan y) → fremVal f x y = ⟨fmtNaN f, flagNone⟩) ∧
    (¬ isNan x → ¬ isNan y → (isInf x ∨ isZero y) → fremVal f x y = ⟨fmtNaN f, flagNV⟩) ∧
    (¬ isNan x → ¬ isInf x → isInf y → fremVal f x y = ⟨a, flagNone⟩) ∧
    (∀ n m e n' m' e', x = .fin n m e → y = .fin n' m' e' → m' ≠ 0 →
      let r := fremVal f x y
      r.flags = flagNone ∧ ∃ (k : Int) (q : Bool) (i : Nat) (j : Int), roundedInt .rne (quotientOf (fdy x) (fdy y)) k ∧
        fdecode f r.bits = .fin q i j ∧ dySame (fdy (.fin q i j)) (dyAdd (fdy x) (dyNeg (dyMul ⟨k, 0⟩ (fdy y)))) ∧ (i = 0 → q = n)) ∧
    (∀ n m e, x = .fin n m e → ∀ k : Int,
      (m ≠ 0 → rounded f rm n (pointOf ⟨(fdy x).m, e + k⟩) (fscaleVal f rm x k)) ∧ (m = 0 → fscaleVal f rm x k = ⟨a, flagNone⟩)) ∧
    (isInf x → ∀ k, fscaleVal f rm x k = ⟨a, flagNone⟩) := by
  intro x y
  refine ⟨fun isMax => fminmaxBits_extreme f isMax a b, fun h => fremVal_nanRow (nanRow_snan (by simpa using h)),
    fun hx hy h => fremVal_nanRow (nanRow_nan (by simp [hx, hy]) (by simpa using h)), fremVal_invalid, fun hx hxi hy => ?_,
    fun n m e n' m' e' hx hy hm' => ?_, fun n m e hx k => ⟨fun hm => ?_, fun hm => ?_⟩, fun hx k => ?_⟩
  · obtain ⟨n, hn⟩ | ⟨n, m, e, hfin⟩ := num_cases hx
    · exact absurd (isInf_iff.mpr ⟨n, hn⟩) hxi
    · obtain ⟨n', hinf⟩ := isInf_iff.mp hy
      rw [hfin, hinf]
      exact hf.roundExact_fdecode .rne ha hfin
  · have hexact := hf.fremVal_exact ha hb hx hy hm'
    rw [hx, hy]
    exact hexact
  · rw [hx]
    exact hf.fscaleVal_finite rm n hm e k
  · have hsign := hf.roundExact_fdecode rm ha hx
    rw [hm, roundExact_zero] at hsign
    rw [hx, ← hsign]
    exact if_pos hm
  · obtain ⟨n, hn⟩ := isInf_iff.mp hx
    rw [hn, ← hf.fdecode_inf ha hn]
    rfl

/-- Settles O8: the instructions by the frame of lane-wise bundles, the values by the one rounding, and the conversions row by row. -/
theorem floatingComparisonsAndConversionsComplete : Obligations.FloatingComparisonsAndConversionsComplete := by
  unfold Obligations.FloatingComparisonsAndConversionsComplete
  refine ⟨fun s g p e => ⟨fun ty b a d m => ?_, fun a d m => ?_, fun ty b a c q m _ => ?_⟩, fun s g p e => ⟨fun ty b a d m => ?_, ?_⟩,
    fun f rm hf a b ha hb => (fmtOk_of_arith hf).lane_values rm ha hb, cvtRow_values⟩
  · exact ⟨exec_fmin e ty b a d m, exec_fmax e ty b a d m, exec_fsgn e ty b a d m, exec_fclass e ty a d m⟩
  · exact ⟨exec_fminShort e a d m, exec_fmaxShort e a d m⟩
  · exact ⟨exec_fcmp e ty b a c q m, exec_fcmpSig e ty b a c q m⟩
  · exact ⟨exec_frem e ty b a d m, exec_fscale e ty b a d m, exec_flogb e ty a d m⟩
  · exact fun r c a d m row na nd hrow hspan => exec_fcvt e r c a d m hrow hspan

end Sys2Proof.Machine
end
